-- ==== Sys2Proof/Word.lean ====
section
/-! DEFINITION. The word types of Decras (spec 00 R3, R4; 05 R97). -/

namespace Sys2Proof

/-- A 64-bit scalar register or control register (05 R97, R98). -/
abbrev Word := BitVec 64

/-- One byte of memory (00 R4). -/
abbrev Byte := BitVec 8

/-- One 32-bit word of text (09 R182). -/
abbrev TextWord := BitVec 32

/-- A five-bit register field (09 R187). -/
abbrev RegField := BitVec 5

end Sys2Proof
end

