-- ==== Sys2Proof/Config.lean ====
section
/-! DEFINITION. What an implementation of Decras fixes, and the values the spec leaves open.
An `opaque` constant has no body: no proof can learn its value, so a claim about it holds whatever it is. -/

namespace Sys2Proof.Config

/-! ### Sizes the spec gives -/

/-- Stored TCM span, chamber and cavern windows (05 R117). -/
def tcmBase : Nat := 0x00F000000000
def chamberBase : Nat := 0x00F100000000
def cavernBase : Nat := 0x00F200000000
/-- Every window base starts a 4 GiB span (05 R117). -/
def spanBytes : Nat := 0x100000000
def tcmBytes : Nat := 524288
def chamberBytes : Nat := 4390912
/-- A TCM block (05 R118) and a chamber block, 8,576 words (05 R120). -/
def tcmBlock : Nat := 65536
def chamberBlock : Nat := 68608
/-- A page-table page and the smallest page (07 R142). -/
def pageBytes : Nat := 65536
/-- Survey cores reach the device registers here (01 R10), and bedrock's published registers here (02 R45). -/
def regWindow : Nat := 0x000FFFF00000
def pubWindow : Nat := 0x000FFFE00000

/-! ### Values the spec leaves open -/

/-- A value an undefined part of the spec leaves free, taken by the model's counter (log 16). -/
opaque freeValue : Nat → BitVec 64

/-- The keys whose signatures bedrock checks (02 R39 to R46): Odrek's root key, Odrek's key, the owner's key, the key
that owns a counter, and the key of code objects. -/
inductive Key where
  | root | odrek | owner
  | counter (k : BitVec 5)
  deriving DecidableEq, Repr

/-- The ML-DSA-65 public key of each, 1,952 bytes (02 R39, log 7). -/
opaque publicKey : Key → List (BitVec 8)

/-- The device's private attestation key, 4,032 bytes (02 R51, R52, log 7). -/
opaque attestationKey : List (BitVec 8)

/-- Whether a certificate's bytes are bound to the identity of this device (02 R46, log 7). -/
opaque certBound : List Byte → Bool

/-- The bytes of the command that advances a counter to a value (02 R42, log 7). -/
opaque counterCommand : BitVec 5 → Nat → List Byte

/-- Whether a 32-byte unit of local HBM, given as its number in the device's location space, lies in 64 KiB block
`blk` of layer `layer` of stack `stack` (01 R13: the spec does not place layers in the device's locations, log 17). -/
opaque inLayerBlock : (stack layer blk unit : Nat) → Bool

end Sys2Proof.Config
end

