-- ==== Sys2Proof/Machine/Number.lean ====
section
/-! DEFINITION. Number formats, rounding, conversion and Jexter codes (06 R122 to R141). Values are exact: a finite
floating value is a signed dyadic number, and every rounding is explicit. -/

namespace Sys2Proof.Machine

/-! ### Integer helpers -/

/-- Bits [lo + n - 1 : lo] of a number. -/
def bitsOf (x lo n : Nat) : Nat := (x >>> lo) % 2 ^ n

/-- A number of width w read as two's complement. -/
def signExt (w x : Nat) : Int :=
  let y := x % 2 ^ w
  if w = 0 then 0 else if y < 2 ^ (w - 1) then (y : Int) else (y : Int) - (2 ^ w : Nat)

/-- An integer modulo 2^w. -/
def wrapNat (w : Nat) (x : Int) : Nat := (x % ((2 ^ w : Nat) : Int)).toNat

/-- An integer as a 64-bit word, and a word as a signed integer. -/
def wordOfInt (x : Int) : Word := BitVec.ofInt 64 x

def clampInt (x lo hi : Int) : Int := if x < lo then lo else if hi < x then hi else x

/-- ⌈x / y⌉. -/
def ceilDiv (x y : Nat) : Nat := (x + (y - 1)) / y

/-- One step of the integer square root, from the high bit down. -/
def isqrtStep (n : Nat) : Nat → Nat → Nat
  | 0, r => r
  | k + 1, r => let t := r + 2 ^ k; isqrtStep n k (if t * t ≤ n then t else r)

/-- ⌊√n⌋. -/
def isqrt (n : Nat) : Nat := isqrtStep n (n.log2 / 2 + 1) 0

/-- The number of 1 bits of the low `n` bits. -/
def popBits (x : Nat) : Nat → Nat
  | 0 => 0
  | n + 1 => popBits x n + (x.testBit n).toNat

/-! ### Format codes (06 R122) -/

abbrev Fmt := Nat

/-- Width in bits of a fixed format; 0 for a code or reserved format. -/
def fmtWidth : Fmt → Nat
  | 0x00 => 2 | 0x01 => 4 | 0x02 => 8 | 0x03 => 16 | 0x04 => 32 | 0x05 => 64
  | 0x06 => 8 | 0x07 => 16 | 0x08 => 32 | 0x09 => 64
  | 0x0A => 8 | 0x0B => 16 | 0x0C => 16 | 0x0D => 32 | 0x0E => 64 | 0x0F => 1
  | _ => 0

def fmtReserved (f : Fmt) : Bool := 0x14 ≤ f
def fmtSigned (f : Fmt) : Bool := f ≤ 0x05
def fmtUnsigned (f : Fmt) : Bool := 0x06 ≤ f && f ≤ 0x09
/-- *integer* as 12 R268 and 13 R282 use it: i2 to i64 and n8 to n64. -/
def fmtInteger (f : Fmt) : Bool := f ≤ 0x09
def fmtFloat (f : Fmt) : Bool := 0x0A ≤ f && f ≤ 0x0E
def fmtB1 (f : Fmt) : Bool := f == 0x0F
def fmtJxi (f : Fmt) : Bool := f == 0x10 || f == 0x11
def fmtJxr (f : Fmt) : Bool := f == 0x12 || f == 0x13
def fmtCode (f : Fmt) : Bool := fmtJxi f || fmtJxr f
def fmtFixed (f : Fmt) : Bool := f ≤ 0x0F
/-- The shortest element in bits (05 R114). -/
def fmtMin (f : Fmt) : Nat :=
  match f with
  | 0x10 => 4 | 0x11 => 6 | 0x12 => 6 | 0x13 => 10
  | _ => fmtWidth f

/-- MinOf and MaxOf of an integer format (06 R130); a jxi format has the range of its top tier (13 R288). -/
def fmtLo (f : Fmt) : Int :=
  if fmtSigned f then -((2 ^ (fmtWidth f - 1) : Nat) : Int)
  else if f == 0x10 then -32768 else if f == 0x11 then -2147483648 else 0
def fmtHi (f : Fmt) : Int :=
  if fmtSigned f then ((2 ^ (fmtWidth f - 1) : Nat) : Int) - 1
  else if f == 0x10 then 32767 else if f == 0x11 then 2147483647 else ((2 ^ fmtWidth f : Nat) : Int) - 1

/-! ### Floating values (06 R126 to R129) -/

/-- An exact floating value: NaN, an infinity, or ±m × 2^e. -/
inductive FVal where
  | nan
  | inf (neg : Bool)
  | fin (neg : Bool) (m : Nat) (e : Int)
  deriving DecidableEq, Repr

/-- Exponent bits, mantissa bits, bias, and whether the format has infinities and IEEE NaNs. -/
structure FloatFmt where
  ebits : Nat
  mbits : Nat
  bias : Nat
  ieee : Bool
  deriving DecidableEq, Repr

def e2m1 : FloatFmt := ⟨2, 1, 1, false⟩
def f8Fmt : FloatFmt := ⟨4, 3, 7, false⟩
def f16Fmt : FloatFmt := ⟨5, 10, 15, true⟩
def bf16Fmt : FloatFmt := ⟨8, 7, 127, true⟩
def f32Fmt : FloatFmt := ⟨8, 23, 127, true⟩
def f64Fmt : FloatFmt := ⟨11, 52, 1023, true⟩

/-- The floating layout of a format code (06 R126). -/
def floatFmt : Fmt → FloatFmt
  | 0x0A => f8Fmt
  | 0x0B => f16Fmt
  | 0x0C => bf16Fmt
  | 0x0E => f64Fmt
  | _ => f32Fmt

def FloatFmt.width (f : FloatFmt) : Nat := 1 + f.ebits + f.mbits
def FloatFmt.signBit (f : FloatFmt) : Nat := 2 ^ (f.ebits + f.mbits)
/-- The pattern of the infinity, or of the largest finite value where there is none (R126, R127, R133). -/
def FloatFmt.top (f : FloatFmt) : Nat :=
  if f.ieee then (2 ^ f.ebits - 1) * 2 ^ f.mbits else if f.ebits = 4 then 0x7E else 2 ^ (f.ebits + f.mbits) - 1
/-- The canonical NaN (R126). e2m1 has none: 06 R137 never encodes a NaN into it. -/
def FloatFmt.nan (f : FloatFmt) : Nat :=
  if f.ieee then (2 ^ f.ebits - 1) * 2 ^ f.mbits + 2 ^ (f.mbits - 1) else if f.ebits = 4 then 0x7F else f.top
/-- The exponent of one unit of a subnormal mantissa. -/
def FloatFmt.emin (f : FloatFmt) : Int := 1 - (f.bias : Int) - f.mbits

/-- The value of a pattern (R126, R127, R133). -/
def decodeF (f : FloatFmt) (bits : Nat) : FVal :=
  let neg := bits.testBit (f.ebits + f.mbits)
  let ex := bitsOf bits f.mbits f.ebits
  let mant := bits % 2 ^ f.mbits
  if f.ieee && ex == 2 ^ f.ebits - 1 then (if mant = 0 then .inf neg else .nan)
  else if !f.ieee && f.ebits == 4 && ex == 15 && mant == 7 then .nan
  else if ex = 0 then .fin neg mant f.emin
  else .fin neg (mant + 2 ^ f.mbits) (f.emin + ex - 1)

/-- Rounding codes: 0 RNE, 1 RTZ, 2 RDN, 3 RUP (06 R123). -/
abbrev Rnd := Nat

/-- n / 2^sh rounded to an integer magnitude, for a value of the given sign (R129). -/
def roundShift (n sh : Nat) (rm : Rnd) (neg : Bool) : Nat :=
  let q := n >>> sh
  let r := n % 2 ^ sh
  if r = 0 then q else
  match rm with
  | 1 => q
  | 2 => if neg then q + 1 else q
  | 3 => if neg then q else q + 1
  | _ =>
    let half := 2 ^ (sh - 1)
    if r > half then q + 1 else if r < half then q else q + q % 2

/-- ±m × 2^e rounded to an integer magnitude. -/
def roundInt (m : Nat) (e : Int) (rm : Rnd) (neg : Bool) : Nat :=
  if 0 ≤ e then m <<< e.toNat else roundShift m (-e).toNat rm neg

/-- Round(x, f, rm) as a pattern (R127, R129, R133). -/
def roundF (f : FloatFmt) (rm : Rnd) (x : FVal) : Nat :=
  let sgn (neg : Bool) : Nat := if neg then f.signBit else 0
  match x with
  | .nan => f.nan
  | .inf neg => sgn neg + f.top
  | .fin neg m e =>
    if m = 0 then sgn neg else
    let q : Int := max ((m.log2 : Int) + e - f.mbits) f.emin
    let n := roundInt m (e - q) rm neg
    let pat := (q - f.emin).toNat * 2 ^ f.mbits + n
    if pat < f.top then sgn neg + pat
    else if !f.ieee then sgn neg + f.top
    else
      let toInf := match rm with
        | 1 => false
        | 2 => neg
        | 3 => !neg
        | _ => true
      sgn neg + (if toInf then f.top else f.top - 1)

/-- Round to a format and read back. -/
def rounded (f : FloatFmt) (rm : Rnd) (x : FVal) : FVal := decodeF f (roundF f rm x)

def FVal.isNan : FVal → Bool
  | .nan => true
  | _ => false
def FVal.neg : FVal → Bool
  | .nan => false
  | .inf s => s
  | .fin s _ _ => s
def FVal.isZero : FVal → Bool
  | .fin _ m _ => m == 0
  | _ => false
def FVal.isFin : FVal → Bool
  | .fin _ _ _ => true
  | _ => false
def FVal.negate : FVal → FVal
  | .nan => .nan
  | .inf s => .inf (!s)
  | .fin s m e => .fin (!s) m e
def FVal.abs : FVal → FVal
  | .nan => .nan
  | .inf _ => .inf false
  | .fin _ m e => .fin false m e

/-- An integer as a floating value; 0 is +0. -/
def fOfInt (x : Int) : FVal := .fin (x < 0) x.natAbs 0

/-- The integer mantissa of ±m × 2^e at exponent e0 ≤ e. -/
def alignTo (neg : Bool) (m : Nat) (e e0 : Int) : Int :=
  let v : Int := ((m <<< (e - e0).toNat : Nat) : Int)
  if neg then -v else v

/-- The exact sum; `rm` only decides the sign of an exact zero (R129). -/
def fAdd (rm : Rnd) (x y : FVal) : FVal :=
  match x, y with
  | .nan, _ => .nan
  | _, .nan => .nan
  | .inf s, .inf t => if s == t then .inf s else .nan
  | .inf s, _ => .inf s
  | _, .inf t => .inf t
  | .fin s m e, .fin t n g =>
    if m = 0 && n = 0 then .fin (if s == t then s else rm == 2) 0 0 else
    let e0 := min e g
    let v := alignTo s m e e0 + alignTo t n g e0
    if v = 0 then .fin (rm == 2) 0 0 else .fin (v < 0) v.natAbs e0

def fSub (rm : Rnd) (x y : FVal) : FVal := fAdd rm x y.negate

/-- The exact product. -/
def fMul (x y : FVal) : FVal :=
  match x, y with
  | .nan, _ => .nan
  | _, .nan => .nan
  | .inf s, y => if y.isZero then .nan else .inf (s != y.neg)
  | x, .inf t => if x.isZero then .nan else .inf (x.neg != t)
  | .fin s m e, .fin t n g => .fin (s != t) (m * n) (e + g)

/-- The quotient, exact or with a sticky low bit far below any format's last place (11 R247). -/
def fDiv (x y : FVal) : FVal :=
  match x, y with
  | .nan, _ => .nan
  | _, .nan => .nan
  | .inf _, .inf _ => .nan
  | .inf s, y => .inf (s != y.neg)
  | x, .inf t => .fin (x.neg != t) 0 0
  | .fin s m e, .fin t n g =>
    if n = 0 then (if m = 0 then .nan else .inf (s != t))
    else if m = 0 then .fin (s != t) 0 0
    else
      let sh := n.log2 + 80
      let p := m <<< sh
      .fin (s != t) (2 * (p / n) + (if p % n = 0 then 0 else 1)) (e - g - sh - 1)

/-- The square root, exact or with a sticky low bit (11 R247). -/
def fSqrt (x : FVal) : FVal :=
  match x with
  | .nan => .nan
  | .inf s => if s then .nan else .inf false
  | .fin s m e =>
    if m = 0 then .fin s 0 0
    else if s then .nan
    else
      let odd := e % 2 != 0
      let m1 := (if odd then 2 * m else m) <<< 160
      let e1 := (if odd then e - 1 else e) - 160
      let r := isqrt m1
      .fin false (2 * r + (if r * r = m1 then 0 else 1)) (e1 / 2 - 1)

/-- Exact comparison of two values that are not NaN: -1, 0 or 1, with +0 = -0. -/
def fCmp (x y : FVal) : Int :=
  match x, y with
  | .nan, _ => 0
  | _, .nan => 0
  | .inf s, .inf t => if s == t then 0 else if s then -1 else 1
  | .inf s, _ => if s then -1 else 1
  | _, .inf t => if t then 1 else -1
  | .fin s m e, .fin t n g =>
    let e0 := min e g
    (alignTo s m e e0 - alignTo t n g e0).sign

def fEq (x y : FVal) : Bool := !x.isNan && !y.isNan && fCmp x y == 0
def fLt (x y : FVal) : Bool := !x.isNan && !y.isNan && fCmp x y == -1
def fLe (x y : FVal) : Bool := !x.isNan && !y.isNan && fCmp x y != 1

/-- `fmin` and `fmax` (11 R248): -0 is below +0, and a NaN gives way to the other operand. -/
def fMin (x y : FVal) : FVal :=
  if x.isNan then y else if y.isNan then x
  else if x.isZero && y.isZero then (if x.neg then x else y)
  else if fLt y x then y else x
def fMax (x y : FVal) : FVal :=
  if x.isNan then y else if y.isNan then x
  else if x.isZero && y.isZero then (if x.neg then y else x)
  else if fLt x y then y else x

/-! ### Reciprocal square root (06 R141) -/

/-- RNE(65536 / √c), c := (1 + p) (1 + (j + 0.5) / 2048). -/
def rsqrtSeed (p j : Nat) : Nat := (isqrt (2 ^ 46 / ((1 + p) * (4097 + 2 * j))) + 1) / 2

/-- Exact Newton steps on y = n / 2^k for m2 = mm / 2^f: y (3 - m2 y²) / 2. -/
def rsqrtNewton (mm f : Nat) : Nat → Nat × Nat → Nat × Nat
  | 0, y => y
  | t + 1, (n, k) => rsqrtNewton mm f t (n * (3 * 2 ^ (f + 2 * k) - mm * n * n), 3 * k + f + 1)

/-- 1 / √x before its rounding, with `f` fraction bits and the given number of Newton steps. -/
def fRsqrt (f steps : Nat) (x : FVal) : FVal :=
  match x with
  | .nan => .nan
  | .inf s => if s then .nan else .fin false 0 0
  | .fin s m e =>
    if m = 0 then .inf s
    else if s then .nan
    else
      let l := m.log2
      let mf := (m <<< f) >>> l                    -- m with f fraction bits, 1 ≤ m < 2
      let ex : Int := e + l
      let odd := ex % 2 != 0
      let m2 := if odd then 2 * mf else mf
      let e2 := if odd then ex - 1 else ex
      let j := bitsOf mf (f - 11) 11
      let y := rsqrtNewton m2 f steps (rsqrtSeed odd.toNat j, 16)
      .fin false y.1 (-(y.2 : Int) - e2 / 2)

/-- At f32: one step on the f32 fraction. At f64: three steps on the f64 fraction. -/
def fRsqrt32 (x : FVal) : FVal := fRsqrt 23 1 x
def fRsqrt64 (x : FVal) : FVal := fRsqrt 52 3 x

/-! ### Element values and conversion (06 R130) -/

/-- The value of an element: an exact integer or a floating value. -/
inductive Val where
  | int (x : Int)
  | real (v : FVal)
  deriving DecidableEq, Repr

def Val.toF : Val → FVal
  | .int x => fOfInt x
  | .real v => v

/-- The value of a pattern of a fixed format; b1 gives 0 or 1. -/
def decodeFixed (f : Fmt) (bits : Nat) : Val :=
  if fmtSigned f then .int (signExt (fmtWidth f) bits)
  else if fmtFloat f then .real (decodeF (floatFmt f) bits)
  else .int ((bits % 2 ^ fmtWidth f : Nat) : Int)

/-- A floating value rounded to an integer under rm; the caller has excluded NaN. An infinity is taken beyond
every format. -/
def roundToInt (rm : Rnd) (v : FVal) : Int :=
  match v with
  | .nan => 0
  | .inf s => if s then -((2 ^ 70 : Nat) : Int) else ((2 ^ 70 : Nat) : Int)
  | .fin s m e => let n := roundInt m e rm s; if s then -(n : Int) else n

/-- Convert(x, fd) for a fixed fd, as a pattern of its width (R130). Into b1 it is the low bit (log 18). -/
def convert (x : Val) (fd : Fmt) (rm : Rnd) (sat : Bool) : Nat :=
  if fmtFloat fd then roundF (floatFmt fd) rm x.toF
  else
    let w := fmtWidth fd
    if fmtB1 fd then
      match x with
      | .int n => wrapNat 1 n
      | .real v => if v.isNan then 0 else wrapNat 1 (roundToInt rm v)
    else
      match x with
      | .real v => if v.isNan then 0 else wrapNat w (clampInt (roundToInt rm v) (fmtLo fd) (fmtHi fd))
      | .int n => if sat then wrapNat w (clampInt n (fmtLo fd) (fmtHi fd)) else wrapNat w n

/-! ### Jexter codes (06 R132 to R137) -/

/-- Payload width of tier t. -/
def tierWidth (f : Fmt) (t : Nat) : Nat :=
  match f, t with
  | 0x10, 0 => 2 | 0x10, 1 => 4 | 0x10, 2 => 8 | 0x10, _ => 16
  | 0x11, 0 => 4 | 0x11, 1 => 8 | 0x11, 2 => 16 | 0x11, _ => 32
  | 0x12, 0 => 4 | 0x12, 1 => 8 | 0x12, 2 => 16 | 0x12, _ => 32
  | 0x13, 0 => 8 | 0x13, 1 => 16 | 0x13, 2 => 32 | 0x13, _ => 64
  | _, _ => 0

/-- CodeLen of a code whose tier is t. -/
def codeLen (f : Fmt) (t : Nat) : Nat := 2 + tierWidth f t

/-- The tier formats of the real codes. -/
def tierFloat (f : Fmt) (t : Nat) : FloatFmt :=
  match f, t with
  | 0x12, 0 => e2m1 | 0x12, 1 => f8Fmt | 0x12, 2 => bf16Fmt | 0x12, _ => f32Fmt
  | _, 0 => f8Fmt | _, 1 => bf16Fmt | _, 2 => f32Fmt | _, _ => f64Fmt

/-- ZeroCode(f) (12 R256): its pattern is 0, and this is its length. -/
def zeroCodeLen (f : Fmt) : Nat := codeLen f 0

/-- A reserved code (R134). -/
def codeReserved (f : Fmt) (t payload : Nat) : Bool :=
  match f, t with
  | 0x12, 0 => payload == 8
  | 0x12, 1 => payload % 128 == 127
  | 0x13, 0 => payload % 128 == 127
  | _, _ => false

/-- ±m × 2^e with its exponent moved. -/
def FVal.scale (k : Int) : FVal → FVal
  | .fin s m e => .fin s m (e + k)
  | v => v

/-- Decode(f, code) (R135, R136). -/
def decodeCode (f : Fmt) (scale : Int) (bits : Nat) : Val :=
  let t := bits % 4
  let w := tierWidth f t
  let p := bitsOf bits 2 w
  if fmtJxi f then .int (signExt w p) else .real ((decodeF (tierFloat f t) p).scale scale)

/-- A code and its length. -/
def codeOf (f : Fmt) (t payload : Nat) : Nat × Nat := (t + 4 * payload, codeLen f t)

/-- Encode(jxi, x, q) (R135). -/
def encodeInt (f : Fmt) (sat : Bool) (x : Int) : Nat × Nat :=
  let fits (t : Nat) : Bool :=
    let top : Int := ((2 ^ (tierWidth f t - 1) : Nat) : Int)
    (0 - top ≤ x && x < top)
  let code (t : Nat) (v : Int) : Nat × Nat := codeOf f t (wrapNat (tierWidth f t) v)
  if fits 0 then code 0 x else if fits 1 then code 1 x else if fits 2 then code 2 x else if fits 3 then code 3 x
  else code 3 (if sat then clampInt x (fmtLo f) (fmtHi f) else x)

/-- Whether tier t takes y (R137). -/
def tierTakes (f : Fmt) (q : Nat) (rm : Rnd) (y : FVal) (t : Nat) : Option Nat :=
  let ff := tierFloat f t
  let infinite := !y.isFin
  if infinite && !ff.ieee then none else
  let z := roundF ff rm y
  if codeReserved f t z then none else
  let v := decodeF ff z
  if q = 0 then (if fCmp v y == 0 && v.neg == y.neg then some z else none)
  else if infinite then (if fCmp v y == 0 then some z else none)
  else if !v.isFin then none
  else if fLe (fSub 0 v y).abs (y.abs.scale (-(q : Int))) then some z else none

/-- Encode(jxr, x, q) (R137). -/
def encodeReal (f : Fmt) (scale : Int) (q : Nat) (rm : Rnd) (x : FVal) : Nat × Nat :=
  let y := x.scale (-scale)
  if y.isNan then codeOf f (if f == 0x12 then 2 else 1) 0x7FC0 else
  match tierTakes f q rm y 0 with
  | some z => codeOf f 0 z
  | none =>
    match tierTakes f q rm y 1 with
    | some z => codeOf f 1 z
    | none =>
      match tierTakes f q rm y 2 with
      | some z => codeOf f 2 z
      | none => codeOf f 3 (roundF (tierFloat f 3) rm y)

/-- A value bound for an integer code: a floating one is first made integer and clamped to i64 (R135). -/
def intForCode (rm : Rnd) : Val → Int
  | .int x => x
  | .real v => if v.isNan then 0 else clampInt (roundToInt rm v) (-((2 ^ 63 : Nat) : Int)) (((2 ^ 63 : Nat) : Int) - 1)

/-! ### Sums (06 R140) -/

/-- Add, where an operand may be absent. -/
def addOpt (add : FVal → FVal → FVal) : Option FVal → Option FVal → Option FVal
  | some a, some b => some (add a b)
  | some a, none => some a
  | none, b => b

/-- One level of the tree over neighbours. -/
def pairUp (add : FVal → FVal → FVal) : List (Option FVal) → List (Option FVal)
  | a :: b :: rest => addOpt add a b :: pairUp add rest
  | rest => rest

/-- GroupSum over the 64 nodes of an element group, for `add` as given. -/
def groupSum (add : FVal → FVal → FVal) (nodes : List (Option FVal)) : Option FVal :=
  let p := pairUp add
  ((p (p (p (p (p (p nodes)))))).head?).join

/-- Round(a + b, f, RNE). -/
def addIn (f : FloatFmt) (a b : FVal) : FVal := rounded f 0 (fAdd 0 a b)

end Sys2Proof.Machine
end

