-- ==== Sys2Proof/Syntax.lean ====
section
/-! DEFINITION. The syntax of Decras: one constructor of `Instr` per row of the opcode table.
A row that is an instruction carries its encoding's fields (09 R187 to R203, 15 R351).
A row that is a device event carries what the outside supplies with it (95). -/

namespace Sys2Proof

/-- The operand fields of the V format (09 R187, R191), low fields last. -/
structure VOps where
  bs : Bool
  cb : Bool
  ca : Bool
  m  : BitVec 3
  b  : BitVec 5
  a  : BitVec 5
  d  : BitVec 5
  deriving DecidableEq, Repr

/-- The two slices of a hart (05 R96). As a memory agent, `cs` is the CS vector agent (16 R355). -/
inductive SliceId where
  | as | cs
  deriving DecidableEq, Repr

/-- The six pipes of a core that have an issue chooser (04 R84). -/
inductive Pipe where
  | asIssue | csScalar | valu | code | matrix | memory
  deriving DecidableEq, Repr

/-- Who writes a device register (01 R10). -/
inductive RegAgent where
  | survey | host
  deriving DecidableEq, Repr

/-- A signed object that bedrock checks (02 R39): its bytes, its signature, and the security version it carries. -/
structure Signed where
  bytes   : List Byte
  sig     : List Byte
  version : Nat
  deriving DecidableEq, Repr

/-- What the outside supplies at a cold reset (02 R40, R46, R54, 05 R121, 01 R28): the provisioning fuse, the
certificates, the three signed images with what the configuration says, and where the survey firmware lies and starts. -/
structure BootInputs where
  provisioned : Bool
  returnCert  : Option Signed
  ownerCert   : Option Signed
  patch       : Signed
  config      : Signed
  survey      : Signed
  duty        : BitVec 8
  cavernMiB   : Nat
  pkg         : BitVec 6
  textBase    : Nat
  entry       : BitVec 64
  deriving DecidableEq, Repr

/-- What arrives over the links for a collective from a member in another package (01 R32 to R34):
its index, whether its descriptor, digest and route agree with this package's, and its FROM elements
as bit patterns. -/
structure RemoteMember where
  memb   : Nat
  agrees : Bool
  elems  : List Nat
  deriving DecidableEq, Repr

/-- What an atomic update does to the number at its place (14 R305, R320). -/
inductive AtomicFn where
  | add | swp | cas | and | or | xor | min | max | minu | maxu | fadd
  deriving DecidableEq, Repr

/-- An atomic update of a number of so many bytes: its operand, and the expected value of a compare and swap. -/
structure AtomicOp where
  fn       : AtomicFn
  bytes    : Nat
  operand  : Word
  expected : Word
  deriving DecidableEq, Repr

/-- What a peer asks of this package over a link (01 R28, R30). -/
inductive PeerOp where
  | load (n : Nat)
  | store (data : List Byte)
  | atomic (x : AtomicOp)
  | addition (n : Word) (e : Bool)
  deriving DecidableEq, Repr

/-- A peer request: who sends it, and the address in this package's local physical space. -/
structure PeerReq where
  src  : BitVec 6
  addr : BitVec 46
  op   : PeerOp
  deriving DecidableEq, Repr

/-- The target of a debug halt request: a hart or a survey core (02 R47). -/
inductive DebugTarget where
  | hart (gang : Nat) (hid : BitVec 4)
  | survey (k : BitVec 2)
  deriving DecidableEq, Repr

/-- A part of a hart's state that a debug request reads or writes (02 R47): a scalar register, a program counter, a
control register, the fill of a vector register or 64 bits of it, 64 bits of a mask register (8 and 9 for `mdone` and
`mfault`), or 64 bits of a tile. -/
inductive DebugReg where
  | scalar (sl : SliceId) (r : BitVec 5)
  | pc (sl : SliceId)
  | ctl (sl : SliceId) (n : BitVec 15)
  | fill (r : BitVec 5)
  | vector (r : BitVec 5) (k : Nat)
  | mask (r : BitVec 4) (k : Nat)
  | tile (r : BitVec 2) (k : Nat)
  deriving DecidableEq, Repr

/-- What a debug halt request does at its target (02 R47). Memory is read and written at addresses as the target names
them, up to 8 bytes at a time. -/
inductive DebugAct where
  | halt
  | step
  | read (r : DebugReg)
  | write (r : DebugReg) (v : Word)
  | memRead (va : Word) (n : Nat)
  | memWrite (va : Word) (data : List Byte)
  deriving DecidableEq, Repr

/-- The rows of the opcode table. -/
inductive Instr where
  /-- `COLD_RESET` (R40). -/
  | coldReset (b : BootInputs)
  /-- `POWER_OFF` (R48). -/
  | powerOff
  /-- `RETAIN_ENTER` (R50). -/
  | retainEnter
  /-- `RETAIN_EXIT` (R48). -/
  | retainExit
  /-- `POWER_LIMIT_EXCEEDED` (R37). -/
  | powerLimitExceeded
  /-- `CLOCK_RAISE` (R37). -/
  | clockRaise
  /-- `DEBUG_REQUEST` (R47). -/
  | debugRequest (level : BitVec 2)
  /-- `QUOTE_REQUEST` (R52). -/
  | quoteRequest (nonce : BitVec 256)
  /-- `COUNTER_ADVANCE` (R42). -/
  | counterAdvance (counter : BitVec 5) (value : Nat) (sig : List Byte)
  /-- `LAUNCH_RECORD_WRITE` (R66). -/
  | launchRecordWrite (port : BitVec 8) (off : Nat) (data : List Byte)
  /-- `WAIT_OBJECT_OBSERVE` (R67). -/
  | waitObjectObserve (launch : Nat)
  /-- `DEPENDENCE_RELEASE` (R67). -/
  | dependenceRelease (launch : Nat) (v : Word)
  /-- `DEPENDENCE_FAIL` (R67). -/
  | dependenceFail (launch : Nat)
  /-- `GANG_PLACE` (R80). -/
  | gangPlace (die : BitVec 3)
  /-- `CLASS_AGING` (R82). -/
  | classAging (gang : Nat)
  /-- `VICTIM_SELECT` (R83). -/
  | victimSelect (die : BitVec 3)
  /-- `SYSTEM_YIELD_REQUEST` (R93). -/
  | systemYieldRequest (gang : Nat)
  /-- `GANG_KILL` (R93). -/
  | gangKill (gang : Nat)
  /-- `ISSUE_CLASS_AGING` (R85). -/
  | issueClassAging (gang : Nat) (hid : BitVec 4) (pipe : Pipe)
  /-- `FORCED_STOP` (R90). -/
  | forcedStop (gang : Nat)
  /-- `SAVE_COMPLETE` (R165). -/
  | saveComplete (gang : Nat) (hid : BitVec 4)
  /-- `SAVE_INCOMPLETE` (R166). -/
  | saveIncomplete (gang : Nat) (hid : BitVec 4)
  /-- `SAVE_CONTINUE` (R166). -/
  | saveContinue (gang : Nat) (hid : BitVec 4) (limit : Nat)
  /-- `SAVE_RESTART` (R166). -/
  | saveRestart (gang : Nat) (hid : BitVec 4) (base : Word) (limit : Nat)
  /-- `SAVE_KILL` (R166). -/
  | saveKill (gang : Nat) (hid : BitVec 4)
  /-- `RESTORE_COMPLETE` (R167). -/
  | restoreComplete (gang : Nat) (hid : BitVec 4)
  /-- `RESTORE_FAULT` (R167). -/
  | restoreFault (gang : Nat) (hid : BitVec 4)
  /-- `RESTORE_ANSWER` (R167). -/
  | restoreAnswer (gang : Nat)
  /-- `GANG_END` (R68). -/
  | gangEnd (gang : Nat)
  /-- `TRAP_RESUME` (R154); the tape spill owner may have set `tapeh` and `tapel` (08 R180). -/
  | trapResume (gang : Nat) (hid : BitVec 4) (tape : Option (Word × Word))
  /-- `TRAP_KILL` (R154). -/
  | trapKill (gang : Nat) (hid : BitVec 4)
  /-- `OP_FAULT_RESUME` (R342). -/
  | opFaultResume (op : Nat)
  /-- `OP_FAULT_FAIL` (R342). -/
  | opFaultFail (op : Nat)
  /-- `COLD_TEXT_COPIED` (R75). -/
  | coldTextCopied (gang : Nat) (hid : BitVec 4) (va : Word) (ir : BitVec 6) (ppn : BitVec 36) (reachable : Bool)
  /-- `NBE_VERDICT` (R349). -/
  | nbeVerdict (code : Word) (asid : BitVec 16) (prog : BitVec 8) (ok : Bool)
  /-- `QDEADLOCK_EXPIRY` (R105). -/
  | qdeadlockExpiry (gang : Nat) (hid : BitVec 4)
  /-- `WAIT_RECHECK` (R229). -/
  | waitRecheck (gang : Nat) (hid : BitVec 4)
  /-- `GARR_MARKER_FIRE` (R251). -/
  | garrMarkerFire (gang : Nat) (hid : BitVec 4)
  /-- `SIPHON_WALK_AHEAD` (R109). -/
  | siphonWalkAhead (gang : Nat) (hid : BitVec 4) (stream : BitVec 4)
  /-- `ARRIVAL_COUNTER_ADDITION` (R344). -/
  | arrivalCounterAddition (op n : Nat)
  /-- `COPY_COMPLETE` (R342). -/
  | copyComplete (op : Nat)
  /-- `COLLECTIVE_COMPLETE` (R345). -/
  | collectiveComplete (id : BitVec 8) (num : Nat) (remote : List RemoteMember)
  /-- `COLL_END` (R34). -/
  | collEnd (id : BitVec 8) (by_ : RegAgent)
  /-- `SHOOTDOWN_GO` (R147). -/
  | shootdownGo (die : BitVec 3) (v : Word) (by_ : RegAgent)
  /-- `SHOOTDOWN_DONE` (R148). -/
  | shootdownDone (die : BitVec 3)
  /-- `REMAP_START_COPY` (R14). -/
  | remapStartCopy (stack : BitVec 4) (layer : BitVec 4) (by_ : RegAgent)
  /-- `REMAP_ABANDON` (R14). -/
  | remapAbandon (stack : BitVec 4) (by_ : RegAgent)
  /-- `REMAP_SWITCH` (R16). -/
  | remapSwitch (stack : BitVec 4) (by_ : RegAgent)
  /-- `REMAP_FAULT_CLEAR` (R13). -/
  | remapFaultClear (stack : BitVec 4) (by_ : RegAgent)
  /-- `REMAP_BLOCK_COPIED` (R14). -/
  | remapBlockCopied (stack : BitVec 4)
  /-- `REMAP_SWITCH_DONE` (R16). -/
  | remapSwitchDone (stack : BitVec 4)
  /-- `INTERLEAVE_DESCRIPTOR_WRITE` (R19). -/
  | interleaveDescriptorWrite (n : BitVec 6) (word1 : Bool) (v : Word) (by_ : RegAgent)
  /-- `REGISTER_WRITE` (R10). -/
  | registerWrite (off : BitVec 20) (v : Word) (by_ : RegAgent)
  /-- `REQUEST_CAPPED` (R23). -/
  | requestCapped (chan : BitVec 9) (idx : Nat)
  /-- `STRIP_AHEAD_HINT` (R25). -/
  | stripAheadHint (chan : BitVec 9) (bank : BitVec 5) (row : BitVec 16)
  /-- `HINT_EXPIRY` (R25). -/
  | hintExpiry (chan : BitVec 9) (idx : Nat)
  /-- `PEER_REQUEST` (R30). -/
  | peerRequest (r : PeerReq)
  /-- `LINK_LANE_LOSS` (R27). -/
  | linkLaneLoss (link : BitVec 4)
  /-- `LINK_FAILURE` (R31). -/
  | linkFailure (link : BitVec 4)
  /-- `LINK_LOSS_TIMEOUT` (R31). -/
  | linkLossTimeout
  /-- `HOST_CXL_MEM_ACCESS` (R370). -/
  | hostCxlMemAccess (pa : BitVec 52) (n : Nat) (wr : Option (List Byte))
  /-- `HOST_ATOMIC` (R371). -/
  | hostAtomic (pa : BitVec 52) (sa : Bool) (x : AtomicOp)
  /-- `IDLE_ENTRY` (R48). -/
  | idleEntry
  /-- `DEBUG_HALT_REQUEST` (R47). -/
  | debugHaltRequest (owner : BitVec 16) (target : DebugTarget) (act : DebugAct)
  /-- `MODULE_ADMISSION_REQUEST` (R40). -/
  | moduleAdmissionRequest (image : List Byte) (counter : BitVec 5) (version : BitVec 6) (sig : List Byte)
  /-- `LIVE_LINK_RETURN` (R31). -/
  | liveLinkReturn (link : BitVec 4)
  /-- `END_FROM_OTHER_PACKAGE` (R34). -/
  | endFromOtherPackage (id : BitVec 8) (num : Nat)
  /-- `SAVE_AREA_PROVIDED` (R164). -/
  | saveAreaProvided (gang : Nat) (hid : BitVec 4) (base : Word) (limit : Nat)
  /-- `WRITE_PERFORMED_AT_HOME` (R358). -/
  | writePerformedAtHome (gang : Nat) (hid : BitVec 4) (agent : SliceId) (idx : Nat)
  /-- `ILLEGAL_ENCODING` (R205). -/
  | illegalEncoding (misplaced : Bool)
  /-- `NOP` (R226). -/
  | nop
  /-- `EXIT` (R231). -/
  | exit
  /-- `BRK` (R227). -/
  | brk
  /-- `TRAP` (R227). -/
  | trap (n : BitVec 5)
  /-- `ERET` (R154). -/
  | eret
  /-- `YIELD` (R89). -/
  | yield
  /-- `WAIT` (R229). -/
  | wait (a b : RegField)
  /-- `FENCE_SV` (R326). -/
  | fenceSv
  /-- `FENCE_VS` (R326). -/
  | fenceVs
  /-- `FENCE_VV` (R326). -/
  | fenceVv
  /-- `FENCE_ALL` (R327). -/
  | fenceAll
  /-- `ADJ_FWD` (R174). -/
  | adjFwd
  /-- `ADJ_REV` (R174). -/
  | adjRev
  /-- `ADJ_OFF` (R174). -/
  | adjOff
  /-- `ZSTART` (R328). -/
  | zstart (a : RegField)
  /-- `ZEND` (R328). -/
  | zend
  /-- `SUPERVISOR_FUNCTION` (R226). -/
  | supervisorFunction (fn d a b : BitVec 5)
  /-- `GETC` (R233). -/
  | getc (d : RegField) (n : BitVec 15)
  /-- `SETC` (R233). -/
  | setc (n : BitVec 15) (a : RegField)
  /-- `ADD` (R234). -/
  | add (d a b : RegField)
  /-- `SUB` (R234). -/
  | sub (d a b : RegField)
  /-- `AND` (R234). -/
  | and (d a b : RegField)
  /-- `OR` (R234). -/
  | or (d a b : RegField)
  /-- `XOR` (R234). -/
  | xor (d a b : RegField)
  /-- `SLL` (R234). -/
  | sll (d a b : RegField)
  /-- `SRL` (R234). -/
  | srl (d a b : RegField)
  /-- `SRA` (R234). -/
  | sra (d a b : RegField)
  /-- `SLT` (R234). -/
  | slt (d a b : RegField)
  /-- `SLTU` (R234). -/
  | sltu (d a b : RegField)
  /-- `MIN` (R234). -/
  | min (d a b : RegField)
  /-- `MAX` (R234). -/
  | max (d a b : RegField)
  /-- `MINU` (R234). -/
  | minu (d a b : RegField)
  /-- `MAXU` (R234). -/
  | maxu (d a b : RegField)
  /-- `MUL` (R234). -/
  | mul (d a b : RegField)
  /-- `MULH` (R234). -/
  | mulh (d a b : RegField)
  /-- `MULHU` (R234). -/
  | mulhu (d a b : RegField)
  /-- `DIV` (R139). -/
  | div (d a b : RegField)
  /-- `DIVU` (R139). -/
  | divu (d a b : RegField)
  /-- `REM` (R139). -/
  | rem (d a b : RegField)
  /-- `REMU` (R139). -/
  | remu (d a b : RegField)
  /-- `CLZ` (R234). -/
  | clz (d a : RegField)
  /-- `CTZ` (R234). -/
  | ctz (d a : RegField)
  /-- `POP` (R234). -/
  | pop (d a : RegField)
  /-- `BEXT` (R235). -/
  | bext (d a b : RegField)
  /-- `BEXTS` (R235). -/
  | bexts (d a b : RegField)
  /-- `BINS` (R235). -/
  | bins (d a b : RegField)
  /-- `FSHI` (R236). -/
  | fshi (d a b : RegField) (sh : BitVec 6)
  /-- `ADDI` (R237). -/
  | addi (d a : RegField) (imm : BitVec 12)
  /-- `ANDI` (R237). -/
  | andi (d a : RegField) (imm : BitVec 12)
  /-- `ORI` (R237). -/
  | ori (d a : RegField) (imm : BitVec 12)
  /-- `XORI` (R237). -/
  | xori (d a : RegField) (imm : BitVec 12)
  /-- `SLTI` (R237). -/
  | slti (d a : RegField) (imm : BitVec 12)
  /-- `SLTUI` (R237). -/
  | sltui (d a : RegField) (imm : BitVec 12)
  /-- `SLLI` (R237). -/
  | slli (d a : RegField) (sh : BitVec 6)
  /-- `SRLI` (R237). -/
  | srli (d a : RegField) (sh : BitVec 6)
  /-- `SRAI` (R237). -/
  | srai (d a : RegField) (sh : BitVec 6)
  /-- `LDHI` (R238). -/
  | ldhi (d : RegField) (imm : BitVec 20)
  /-- `ADPC` (R238). -/
  | adpc (d : RegField) (imm : BitVec 20)
  /-- `ADDI_LONG` (R193). -/
  | addiLong (d a : RegField) (imm : BitVec 37)
  /-- `ANDI_LONG` (R193). -/
  | andiLong (d a : RegField) (imm : BitVec 37)
  /-- `ORI_LONG` (R193). -/
  | oriLong (d a : RegField) (imm : BitVec 37)
  /-- `XORI_LONG` (R193). -/
  | xoriLong (d a : RegField) (imm : BitVec 37)
  /-- `SLTI_LONG` (R193). -/
  | sltiLong (d a : RegField) (imm : BitVec 37)
  /-- `SLTUI_LONG` (R193). -/
  | sltuiLong (d a : RegField) (imm : BitVec 37)
  /-- `LDHI_LONG` (R193). -/
  | ldhiLong (d : RegField) (imm : BitVec 45)
  /-- `ADPC_LONG` (R193). -/
  | adpcLong (d : RegField) (imm : BitVec 45)
  /-- `JALR_LONG` (R193). -/
  | jalrLong (d a : RegField) (imm : BitVec 40)
  /-- `LB_LONG` (R193). -/
  | lbLong (d a : RegField) (imm : BitVec 37)
  /-- `LH_LONG` (R193). -/
  | lhLong (d a : RegField) (imm : BitVec 37)
  /-- `LW_LONG` (R193). -/
  | lwLong (d a : RegField) (imm : BitVec 37)
  /-- `LD_LONG` (R193). -/
  | ldLong (d a : RegField) (imm : BitVec 37)
  /-- `LBU_LONG` (R193). -/
  | lbuLong (d a : RegField) (imm : BitVec 37)
  /-- `LHU_LONG` (R193). -/
  | lhuLong (d a : RegField) (imm : BitVec 37)
  /-- `LWU_LONG` (R193). -/
  | lwuLong (d a : RegField) (imm : BitVec 37)
  /-- `SB_LONG` (R193). -/
  | sbLong (a b : RegField) (imm : BitVec 37)
  /-- `SH_LONG` (R193). -/
  | shLong (a b : RegField) (imm : BitVec 37)
  /-- `SW_LONG` (R193). -/
  | swLong (a b : RegField) (imm : BitVec 37)
  /-- `SD_LONG` (R193). -/
  | sdLong (a b : RegField) (imm : BitVec 37)
  /-- `BEQZ` (R239). -/
  | beqz (a : RegField) (off : BitVec 15)
  /-- `BNEZ` (R239). -/
  | bnez (a : RegField) (off : BitVec 15)
  /-- `BLTZ` (R239). -/
  | bltz (a : RegField) (off : BitVec 15)
  /-- `BGEZ` (R239). -/
  | bgez (a : RegField) (off : BitVec 15)
  /-- `BGTZ` (R239). -/
  | bgtz (a : RegField) (off : BitVec 15)
  /-- `BLEZ` (R239). -/
  | blez (a : RegField) (off : BitVec 15)
  /-- `BQT` (R240). -/
  | bqt (off : BitVec 15)
  /-- `BQF` (R240). -/
  | bqf (off : BitVec 15)
  /-- `JAL` (R241). -/
  | jal (d : RegField) (off : BitVec 20)
  /-- `JALR` (R241). -/
  | jalr (d a : RegField) (imm : BitVec 15)
  /-- `LB` (R302). -/
  | lb (d a : RegField) (imm : BitVec 12)
  /-- `LH` (R302). -/
  | lh (d a : RegField) (imm : BitVec 12)
  /-- `LW` (R302). -/
  | lw (d a : RegField) (imm : BitVec 12)
  /-- `LD` (R302). -/
  | ld (d a : RegField) (imm : BitVec 12)
  /-- `LBU` (R302). -/
  | lbu (d a : RegField) (imm : BitVec 12)
  /-- `LHU` (R302). -/
  | lhu (d a : RegField) (imm : BitVec 12)
  /-- `LWU` (R302). -/
  | lwu (d a : RegField) (imm : BitVec 12)
  /-- `LD_ACQ` (R302). -/
  | ldAcq (d a : RegField) (scope : BitVec 3) (off : BitVec 9)
  /-- `SB` (R302). -/
  | sb (a b : RegField) (imm : BitVec 12)
  /-- `SH` (R302). -/
  | sh (a b : RegField) (imm : BitVec 12)
  /-- `SW` (R302). -/
  | sw (a b : RegField) (imm : BitVec 12)
  /-- `SD` (R302). -/
  | sd (a b : RegField) (imm : BitVec 12)
  /-- `SD_REL` (R302). -/
  | sdRel (a b : RegField) (scope : BitVec 3) (off : BitVec 9)
  /-- `AMO_ADD_W` (R305). -/
  | amoAddW (d a b : RegField) (scope : BitVec 3) (order : BitVec 2)
  /-- `AMO_ADD_D` (R305). -/
  | amoAddD (d a b : RegField) (scope : BitVec 3) (order : BitVec 2)
  /-- `AMO_SWP_W` (R305). -/
  | amoSwpW (d a b : RegField) (scope : BitVec 3) (order : BitVec 2)
  /-- `AMO_SWP_D` (R305). -/
  | amoSwpD (d a b : RegField) (scope : BitVec 3) (order : BitVec 2)
  /-- `AMO_CAS_W` (R305). -/
  | amoCasW (d a b : RegField) (scope : BitVec 3) (order : BitVec 2)
  /-- `AMO_CAS_D` (R305). -/
  | amoCasD (d a b : RegField) (scope : BitVec 3) (order : BitVec 2)
  /-- `AMO_AND` (R305). -/
  | amoAnd (d a b : RegField) (scope : BitVec 3) (order : BitVec 2)
  /-- `AMO_OR` (R305). -/
  | amoOr (d a b : RegField) (scope : BitVec 3) (order : BitVec 2)
  /-- `AMO_XOR` (R305). -/
  | amoXor (d a b : RegField) (scope : BitVec 3) (order : BitVec 2)
  /-- `AMO_MIN` (R305). -/
  | amoMin (d a b : RegField) (scope : BitVec 3) (order : BitVec 2)
  /-- `AMO_MAX` (R305). -/
  | amoMax (d a b : RegField) (scope : BitVec 3) (order : BitVec 2)
  /-- `AMO_MINU` (R305). -/
  | amoMinu (d a b : RegField) (scope : BitVec 3) (order : BitVec 2)
  /-- `AMO_MAXU` (R305). -/
  | amoMaxu (d a b : RegField) (scope : BitVec 3) (order : BitVec 2)
  /-- `QPUSH` (R243). -/
  | qpush (a : RegField) (q : BitVec 2)
  /-- `QPOP` (R243). -/
  | qpop (d : RegField) (q : BitVec 2)
  /-- `QPEEK` (R243). -/
  | qpeek (d : RegField) (q : BitVec 2)
  /-- `QPUSHB` (R243). -/
  | qpushb (a : RegField)
  /-- `QCNT` (R244). -/
  | qcnt (d : RegField) (q : BitVec 2)
  /-- `QCLR` (R244). -/
  | qclr (q : BitVec 2)
  /-- `QPUSH_REL` (R245). -/
  | qpushRel (a : RegField) (q : BitVec 2)
  /-- `QPOP_ACQ` (R245). -/
  | qpopAcq (d : RegField) (q : BitVec 2)
  /-- `SLOAD` (R308). -/
  | sload (s : BitVec 4) (a : RegField)
  /-- `SLIN` (R308). -/
  | slin (s : BitVec 4) (a b : RegField) (fmt : BitVec 5)
  /-- `SBIT` (R308). -/
  | sbit (s : BitVec 4) (a b : RegField) (fmt : BitVec 5)
  /-- `SDROP` (R309). -/
  | sdrop (s : BitVec 4)
  /-- `SPOS` (R309). -/
  | spos (s : BitVec 4) (a : RegField)
  /-- `FADD` (R247). -/
  | fadd (d a b : RegField) (prec : BitVec 2) (rnd : BitVec 3)
  /-- `FSUB` (R247). -/
  | fsub (d a b : RegField) (prec : BitVec 2) (rnd : BitVec 3)
  /-- `FMUL` (R247). -/
  | fmul (d a b : RegField) (prec : BitVec 2) (rnd : BitVec 3)
  /-- `FDIV` (R247). -/
  | fdiv (d a b : RegField) (prec : BitVec 2) (rnd : BitVec 3)
  /-- `FSQRT` (R247). -/
  | fsqrt (d a : RegField) (prec : BitVec 2) (rnd : BitVec 3)
  /-- `FRSQ` (R141). -/
  | frsq (d a : RegField) (prec : BitVec 2) (rnd : BitVec 3)
  /-- `FMA` (R247). -/
  | fma (d a b : RegField) (prec : BitVec 2) (rnd : BitVec 3)
  /-- `FMIN` (R248). -/
  | fmin (d a b : RegField) (prec : BitVec 2)
  /-- `FMAX` (R248). -/
  | fmax (d a b : RegField) (prec : BitVec 2)
  /-- `FCVT` (R249). -/
  | fcvt (d a : RegField) (ty : BitVec 3) (prec : BitVec 2) (rnd : BitVec 3)
  /-- `FEQ` (R248). -/
  | feq (d a b : RegField) (prec : BitVec 2)
  /-- `FLT` (R248). -/
  | flt (d a b : RegField) (prec : BitVec 2)
  /-- `FLE` (R248). -/
  | fle (d a b : RegField) (prec : BitVec 2)
  /-- `FCLASS` (R248). -/
  | fclass (d a : RegField) (prec : BitVec 2)
  /-- `FCVTI` (R249). -/
  | fcvti (d a : RegField) (ty : BitVec 3) (prec : BitVec 2) (rnd : BitVec 3)
  /-- `VSETL` (R264). -/
  | vsetl (d a : RegField)
  /-- `VSETG` (R265). -/
  | vsetg (d a : RegField)
  /-- `VSETF` (R266). -/
  | vsetf (d a : RegField)
  /-- `VSETST` (R267). -/
  | vsetst
  /-- `VCLR` (R266). -/
  | vclr (d : RegField)
  /-- `VGETF` (R267). -/
  | vgetf (d a : RegField)
  /-- `VADD` (R286). -/
  | vadd (o : VOps)
  /-- `VSUB` (R286). -/
  | vsub (o : VOps)
  /-- `VMUL` (R286). -/
  | vmul (o : VOps)
  /-- `VMULH` (R286). -/
  | vmulh (o : VOps)
  /-- `VMAC` (R285). -/
  | vmac (o : VOps)
  /-- `VAND` (R286). -/
  | vand (o : VOps)
  /-- `VOR` (R286). -/
  | vor (o : VOps)
  /-- `VXOR` (R286). -/
  | vxor (o : VOps)
  /-- `VSLL` (R286). -/
  | vsll (o : VOps)
  /-- `VSRL` (R286). -/
  | vsrl (o : VOps)
  /-- `VSRA` (R286). -/
  | vsra (o : VOps)
  /-- `VMIN` (R286). -/
  | vmin (o : VOps)
  /-- `VMAX` (R286). -/
  | vmax (o : VOps)
  /-- `VMINU` (R286). -/
  | vminu (o : VOps)
  /-- `VMAXU` (R286). -/
  | vmaxu (o : VOps)
  /-- `VSEL` (R286). -/
  | vsel (o : VOps)
  /-- `VADDS` (R288). -/
  | vadds (o : VOps)
  /-- `VSUBS` (R288). -/
  | vsubs (o : VOps)
  /-- `VADDSU` (R288). -/
  | vaddsu (o : VOps)
  /-- `VSUBSU` (R288). -/
  | vsubsu (o : VOps)
  /-- `VDIV` (R287). -/
  | vdiv (o : VOps)
  /-- `VREM` (R287). -/
  | vrem (o : VOps)
  /-- `VDIVU` (R287). -/
  | vdivu (o : VOps)
  /-- `VREMU` (R287). -/
  | vremu (o : VOps)
  /-- `VABS` (R287). -/
  | vabs (o : VOps)
  /-- `VCLZ` (R287). -/
  | vclz (o : VOps)
  /-- `VPOP` (R287). -/
  | vpop (o : VOps)
  /-- `VWMUL` (R289). -/
  | vwmul (o : VOps)
  /-- `VWMAC` (R289). -/
  | vwmac (o : VOps)
  /-- `VBEXT` (R287). -/
  | vbext (o : VOps)
  /-- `VMOV` (R287). -/
  | vmov (o : VOps)
  /-- `VMEQ` (R294). -/
  | vmeq (o : VOps)
  /-- `VMNE` (R294). -/
  | vmne (o : VOps)
  /-- `VMLT` (R294). -/
  | vmlt (o : VOps)
  /-- `VMLE` (R294). -/
  | vmle (o : VOps)
  /-- `VMLTU` (R294). -/
  | vmltu (o : VOps)
  /-- `VMLEU` (R294). -/
  | vmleu (o : VOps)
  /-- `VMFEQ` (R294). -/
  | vmfeq (o : VOps)
  /-- `VMFLT` (R294). -/
  | vmflt (o : VOps)
  /-- `VMFLE` (R294). -/
  | vmfle (o : VOps)
  /-- `VMFUN` (R294). -/
  | vmfun (o : VOps)
  /-- `VMFIN` (R294). -/
  | vmfin (o : VOps)
  /-- `VMAND` (R295). -/
  | vmand (o : VOps)
  /-- `VMOR` (R295). -/
  | vmor (o : VOps)
  /-- `VMXOR` (R295). -/
  | vmxor (o : VOps)
  /-- `VMANDN` (R295). -/
  | vmandn (o : VOps)
  /-- `VFADD` (R291). -/
  | vfadd (o : VOps)
  /-- `VFSUB` (R291). -/
  | vfsub (o : VOps)
  /-- `VFMUL` (R291). -/
  | vfmul (o : VOps)
  /-- `VFDIV` (R291). -/
  | vfdiv (o : VOps)
  /-- `VFMAC` (R285). -/
  | vfmac (o : VOps)
  /-- `VFNMAC` (R285). -/
  | vfnmac (o : VOps)
  /-- `VFMIN` (R291). -/
  | vfmin (o : VOps)
  /-- `VFMAX` (R291). -/
  | vfmax (o : VOps)
  /-- `VFSQRT` (R291). -/
  | vfsqrt (o : VOps)
  /-- `VFRSQ` (R141). -/
  | vfrsq (o : VOps)
  /-- `VFRCP` (R290). -/
  | vfrcp (o : VOps)
  /-- `VFABS` (R292). -/
  | vfabs (o : VOps)
  /-- `VFNEG` (R292). -/
  | vfneg (o : VOps)
  /-- `VFCVT` (R292). -/
  | vfcvt (o : VOps)
  /-- `VDEC` (R269). -/
  | vdec (o : VOps)
  /-- `VENC` (R269). -/
  | venc (o : VOps)
  /-- `VBND` (R270). -/
  | vbnd (o : VOps)
  /-- `VCNT` (R271). -/
  | vcnt (o : VOps)
  /-- `VTIER` (R269). -/
  | vtier (o : VOps)
  /-- `VBITS` (R269). -/
  | vbits (o : VOps)
  /-- `VSKIP` (R272). -/
  | vskip (o : VOps)
  /-- `VCAT` (R273). -/
  | vcat (o : VOps)
  /-- `VBGET` (R274). -/
  | vbget (o : VOps)
  /-- `VPACK` (R275). -/
  | vpack (o : VOps)
  /-- `VEXPAND` (R275). -/
  | vexpand (o : VOps)
  /-- `VREPACK` (R269). -/
  | vrepack (o : VOps)
  /-- `VREDSUM` (R297). -/
  | vredsum (o : VOps)
  /-- `VREDMIN` (R297). -/
  | vredmin (o : VOps)
  /-- `VREDMAX` (R297). -/
  | vredmax (o : VOps)
  /-- `VREDAND` (R297). -/
  | vredand (o : VOps)
  /-- `VREDOR` (R297). -/
  | vredor (o : VOps)
  /-- `VREDXOR` (R297). -/
  | vredxor (o : VOps)
  /-- `VFREDSUM` (R298). -/
  | vfredsum (o : VOps)
  /-- `VFREDMIN` (R298). -/
  | vfredmin (o : VOps)
  /-- `VFREDMAX` (R298). -/
  | vfredmax (o : VOps)
  /-- `VFREDSQ` (R298). -/
  | vfredsq (o : VOps)
  /-- `VSCAN` (R300). -/
  | vscan (o : VOps)
  /-- `VFSCAN` (R300). -/
  | vfscan (o : VOps)
  /-- `VFIRST` (R301). -/
  | vfirst (o : VOps)
  /-- `VMCNT` (R301). -/
  | vmcnt (o : VOps)
  /-- `VIOTA` (R301). -/
  | viota (o : VOps)
  /-- `VID` (R301). -/
  | vid (o : VOps)
  /-- `VSLIDEDN` (R277). -/
  | vslidedn (o : VOps)
  /-- `VSLIDEUP` (R277). -/
  | vslideup (o : VOps)
  /-- `VGATHERV` (R277). -/
  | vgatherv (o : VOps)
  /-- `VBCAST` (R277). -/
  | vbcast (o : VOps)
  /-- `VEXT` (R278). -/
  | vext (o : VOps)
  /-- `VINS` (R278). -/
  | vins (o : VOps)
  /-- `VZIP` (R276). -/
  | vzip (o : VOps)
  /-- `VUNZIP` (R276). -/
  | vunzip (o : VOps)
  /-- `VREV` (R276). -/
  | vrev (o : VOps)
  /-- `VBRK` (R279). -/
  | vbrk (o : VOps)
  /-- `VBRKB` (R279). -/
  | vbrkb (o : VOps)
  /-- `VBPUT` (R280). -/
  | vbput (o : VOps)
  /-- `VLD` (R312). -/
  | vld (o : VOps)
  /-- `VST` (R313). -/
  | vst (o : VOps)
  /-- `VLDFF` (R314). -/
  | vldff (o : VOps)
  /-- `VLDX` (R315). -/
  | vldx (o : VOps)
  /-- `VSTX` (R315). -/
  | vstx (o : VOps)
  /-- `VLDW` (R316). -/
  | vldw (o : VOps)
  /-- `VSPILL` (R317). -/
  | vspill (o : VOps)
  /-- `VFILL` (R317). -/
  | vfill (o : VOps)
  /-- `SNEXT` (R311). -/
  | snext (o : VOps)
  /-- `VLD2` (R318). -/
  | vld2 (o : VOps) (p : RegField)
  /-- `VSTP` (R319). -/
  | vstp (o : VOps) (p : RegField) (s2 : BitVec 4)
  /-- `VAMOADD` (R320). -/
  | vamoadd (o : VOps)
  /-- `VAMOMIN` (R320). -/
  | vamomin (o : VOps)
  /-- `VAMOMAX` (R320). -/
  | vamomax (o : VOps)
  /-- `VAMOAND` (R320). -/
  | vamoand (o : VOps)
  /-- `VAMOOR` (R320). -/
  | vamoor (o : VOps)
  /-- `VAMOXOR` (R320). -/
  | vamoxor (o : VOps)
  /-- `VAMOSWP` (R320). -/
  | vamoswp (o : VOps)
  /-- `VFAMOADD` (R320). -/
  | vfamoadd (o : VOps)
  /-- `WOPEN` (R323). -/
  | wopen (o : VOps)
  /-- `WADD` (R324). -/
  | wadd (o : VOps)
  /-- `WFADD` (R324). -/
  | wfadd (o : VOps)
  /-- `WMERGE` (R325). -/
  | wmerge (o : VOps)
  /-- `WCLOSE` (R325). -/
  | wclose (o : VOps)
  /-- `ZZERO` (R333). -/
  | zzero (o : VOps)
  /-- `ZMMA` (R331). -/
  | zmma (o : VOps)
  /-- `ZOP` (R332). -/
  | zop (o : VOps)
  /-- `ZDR` (R334). -/
  | zdr (o : VOps)
  /-- `ZACC` (R333). -/
  | zacc (o : VOps)
  /-- `ZLD` (R335). -/
  | zld (a b : RegField) (tile : BitVec 2) (frow nrowm1 : BitVec 6)
  /-- `ZST` (R335). -/
  | zst (a b : RegField) (tile : BitVec 2) (frow nrowm1 : BitVec 6)
  /-- `ADJLD` (R337). -/
  | adjld (d a : RegField)
  /-- `ADJST` (R337). -/
  | adjst (a b : RegField)
  /-- `TMARK` (R338). -/
  | tmark (a : RegField)
  /-- `TREW` (R339). -/
  | trew (a : RegField)
  /-- `CPY` (R343). -/
  | cpy (a e : RegField)
  /-- `COLL` (R345). -/
  | coll (id : BitVec 8) (a e : RegField)
  /-- `NBE` (R346). -/
  | nbe (prog : BitVec 8) (a b e : RegField)
  /-- `LAUNCH` (R347). -/
  | launch (port : BitVec 8) (a e : RegField)
  /-- `CWAIT` (R348). -/
  | cwait (d a b : RegField)
  /-- `CSIG` (R348). -/
  | csig (a b : RegField)
  /-- `GBAR` (R251). -/
  | gbar (d : RegField)
  /-- `GARR` (R251). -/
  | garr (d : RegField)
  /-- `GWAIT` (R251). -/
  | gwait (a : RegField)
  /-- `C_NOP` (R203). -/
  | cNop
  /-- `C_MOV` (R203). -/
  | cMov (x y : RegField)
  /-- `C_ADDI` (R203). -/
  | cAddi (x : RegField) (i : BitVec 5)
  /-- `C_ADD` (R203). -/
  | cAdd (x y : RegField)
  /-- `C_SUB` (R203). -/
  | cSub (x y : RegField)
  /-- `C_AND` (R203). -/
  | cAnd (x y : RegField)
  /-- `C_SLLI` (R203). -/
  | cSlli (x : RegField) (sh : BitVec 5)
  /-- `C_LD` (R203). -/
  | cLd (x : RegField) (y : BitVec 5)
  /-- `C_SD` (R203). -/
  | cSd (x : RegField) (y : BitVec 5)
  /-- `C_QPUSH` (R203). -/
  | cQpush (x : RegField) (q : BitVec 2)
  /-- `C_QPOP` (R203). -/
  | cQpop (x : RegField) (q : BitVec 2)
  /-- `C_BNEZ` (R203). -/
  | cBnez (x : RegField) (off : BitVec 5)
  /-- `C_J` (R203). -/
  | cJ (off : BitVec 10)
  /-- `NSET` (R351). -/
  | nset (k : Bool) (x : BitVec 3) (imm : BitVec 24)
  /-- `NADD_IMM` (R351). -/
  | naddImm (k : Bool) (x y : BitVec 3) (imm : BitVec 13)
  /-- `NADD_REG` (R351). -/
  | naddReg (k : Bool) (x y : BitVec 3)
  /-- `NLOOP` (R351). -/
  | nloop (x : BitVec 3) (imm : BitVec 13)
  /-- `NACT` (R351). -/
  | nact (x : BitVec 3)
  /-- `NRD` (R353). -/
  | nrd (x : BitVec 3) (imm : BitVec 13)
  /-- `NDEC` (R352). -/
  | ndec (fmt : BitVec 5) (imm : BitVec 13)
  /-- `NLDX` (R353). -/
  | nldx (x y : BitVec 3) (imm : BitVec 13)
  /-- `NMAC` (R352). -/
  | nmac (x y : BitVec 3) (fmt : BitVec 5)
  /-- `NRED` (R352). -/
  | nred (k : Bool) (x y : BitVec 3) (imm : BitVec 13)
  /-- `NST` (R384). -/
  | nst (x y : BitVec 3) (fmt : BitVec 5) (imm : BitVec 13)
  /-- `NSIG` (R353). -/
  | nsig (x : BitVec 3) (imm : BitVec 13)
  /-- `NWAIT` (R351). -/
  | nwait
  /-- `NBAR` (R353). -/
  | nbar (x y : BitVec 3)
  /-- `NCVT` (R352). -/
  | ncvt (k : Bool) (y : BitVec 3) (fmt : BitVec 5) (imm : BitVec 13)
  /-- `NEND` (R354). -/
  | nend
  /-- `NNOP` (R351). -/
  | nnop
  deriving DecidableEq, Repr

end Sys2Proof
end

