-- ==== Sys2Proof/Machine/State.lean ====
section
/-! DEFINITION. The state of a Decras package as plain data, the reasons a step can stop, and the state after
reset. `spec file R<n>` names the rule a field comes from; a field marked MODEL is the model's own. -/

namespace Sys2Proof.Machine

/-! ### Reasons to stop -/

/-- Why the model stops with a fault. -/
inductive Fault where
  /-- `exec` was asked to run a core or near-bank instruction while `State.cur` names no agent that has one.
  Raised by every meaning of such an instruction. Safe: no run from `step` reaches it. -/
  | noAgent
  deriving DecidableEq, Repr

/-- Why the model refuses. -/
inductive Refusal where
  /-- An instruction with no meaning in this model, by its mnemonic. Raised by the arms of `exec` only. Safe. -/
  | notModelled (mnemonic : String)
  /-- A supervisor function on a survey core, whose effect the spec does not give (09 R204). Safe. -/
  | supervisorOnSurvey
  deriving DecidableEq, Repr

/-! ### Memory -/

/-- Byte memory over device locations, in canonical form: addresses strictly rising, no byte equal to what an
unlisted address reads as. -/
abbrev Memory := List Host.Cell

/-- The link that carries a store's request for one 64-byte block of a peer (01 R30, R31): the block's number among
device locations, the LINKS of the route entry as the request was issued, and the link it is on; none while no live link
is left. -/
structure Hop where
  block : Nat
  links : BitVec 16
  link : Option Nat
  deriving DecidableEq, Repr

/-- One pending store of a hart's agent, not yet performed at its home (16 R358): the location and value of each
byte, the poison marks (01 R12) that it clears, by 32-byte unit number, whether it is to a DEV page (14 R304), the links
that carry it to peers, the `seq` of what issued it (log 137), and whether the instruction that issued it may still add to
it, until when it stays (19 R383). -/
structure PWrite where
  cells : List (Nat × Byte)
  clears : List Nat := []
  dev : Bool := false
  hops : List Hop := []
  seq : Nat := 0
  open_ : Bool := false
  deriving DecidableEq, Repr

/-- One translation held for a gallery (07 R146): the page's level, its entry and where the entry lies. -/
structure TlbEntry where
  gallery : Nat
  asid : BitVec 16
  level : Nat
  vpn : Nat
  pte : Word
  pteLoc : Nat
  deriving DecidableEq, Repr

/-! ### Streams -/

/-- A stream descriptor (05 R106). -/
structure Desc where
  base : Word
  cfg : Word
  stride : Word
  deriving DecidableEq, Repr

/-- A fault recorded against a stream (05 R110): cause, faulting address, access kind and the position of the
lowest element affected. -/
structure DFault where
  cause : BitVec 8
  va : Word
  info : Word
  pos : Nat
  deriving DecidableEq, Repr

/-- An entry of a descriptor queue, or a descriptor taken by `snext` and not yet adopted (05 R110, 14 R311). -/
structure QDesc where
  desc : Desc
  dfault : Option DFault
  deriving DecidableEq, Repr

/-- A stream register (05 R108, R109): `ahead` is the next position the siphon would read, `walk` the bytes it has
read by virtual address, `cover` the byte count of the arrival counter last observed for it (14 R316). -/
structure Stream where
  adopted : Option Desc
  pos : Nat
  ahead : Nat
  walk : List (Nat × Byte)
  dfault : Option DFault
  cover : Option Nat
  queue : List QDesc
  deriving DecidableEq, Repr

/-! ### Registers of a hart -/

/-- A vector register: `fill` valid bits (05 R115), held in `bits`, which has no bit at or above `fill`. -/
structure VReg where
  bits : Nat
  fill : Nat
  deriving DecidableEq, Repr

/-- The instructions that enter the vector instruction queue (05 R112), named for queue entries. -/
inductive VKind where
  | vadd | vsub | vmul | vmulh | vmac | vand | vor | vxor | vsll | vsrl | vsra | vmin | vmax | vminu | vmaxu | vsel
  | vadds | vsubs | vaddsu | vsubsu | vdiv | vrem | vdivu | vremu | vabs | vclz | vpop | vwmul | vwmac | vbext | vmov
  | vmeq | vmne | vmlt | vmle | vmltu | vmleu | vmfeq | vmflt | vmfle | vmfun | vmfin
  | vmand | vmor | vmxor | vmandn
  | vfadd | vfsub | vfmul | vfdiv | vfmac | vfnmac | vfmin | vfmax | vfsqrt | vfrsq | vfrcp | vfabs | vfneg | vfcvt
  | vdec | venc | vbnd | vcnt | vtier | vbits | vskip | vcat | vbget | vpack | vexpand | vrepack
  | vredsum | vredmin | vredmax | vredand | vredor | vredxor | vfredsum | vfredmin | vfredmax | vfredsq
  | vscan | vfscan | vfirst | vmcnt | viota | vid
  | vslidedn | vslideup | vgatherv | vbcast | vext | vins | vzip | vunzip | vrev | vbrk | vbrkb | vbput
  | vld | vst | vldff | vldx | vstx | vldw | vspill | vfill | vld2 | vstp
  | vamoadd | vamomin | vamomax | vamoand | vamoor | vamoxor | vamoswp | vfamoadd
  | wopen | wadd | wfadd | wmerge | wclose
  | zzero | zmma | zop | zdr | zacc | zld | zst
  | snext | vsetf | vclr | fenceVv | garr
  deriving DecidableEq, Repr

/-- What an interrupted instruction keeps of what it has combined (13 R299, R300): a pattern, the bits of va in the groups
combined, and whether an index of theirs was not held. -/
structure Partial where
  value : Nat
  bits : Nat := 0
  short : Bool := false
  deriving DecidableEq, Repr

/-- An entry of the vector instruction queue: what it captured (12 R253) and its progress (04 R90, 13 R299, R300).
`idx` is the progress index, `begun` is set once the instruction has started at the queue head, `acc` the partial
sum or total, `half` the half bit of `vstp` (07 R162), `p` the next bit of a code-format destination, `seq` its number in
the order of issue (log 137), `fenced` is set on an entry older than a pending `fence.vs` (14 R326),
`resume` is set while the entry must take its index from `vstart` because it trapped (07 R154), `faulted` once it has
trapped at an element (14 R314), `until_` the index at which a partial turn of the entry stops (04 R90). -/
structure VEntry where
  kind : VKind
  o : VOps
  pc : Word
  vl : Nat
  vfmt : Word
  vcap : Nat
  scal : Word
  scal2 : Word
  aux : Nat
  start : Nat
  idx : Nat
  begun : Bool
  gn : Nat
  gbd : Nat
  gba : Nat
  gbb : Nat
  acc : Option Partial
  half : Bool
  p : Nat
  seq : Nat
  fenced : Bool
  resume : Bool
  faulted : Bool
  until_ : Option Nat
  taken : Option QDesc
  deriving DecidableEq, Repr

/-- An accumulation window (14 R322, R323). -/
structure Window where
  first : Nat
  cells : Nat
  isInt : Bool
  deriving DecidableEq, Repr

/-- An entry of `qa` or `qc` (05 R100). One that `qpush.rel` pushed is held back from pops until what is older has become
visible (11 R245): the vector queue's entries with `lo ≤ seq < hi` and the pushing slice's stores with `seq < hi`. -/
structure QWord where
  word : Word
  lo : Nat := 0
  hi : Nat := 0
  deriving DecidableEq, Repr

/-- One entry of the region table copy (08 R169), as the four words read. -/
structure Region where
  pbase : Word
  adjbase : Word
  ctl : Word
  win : Word
  deriving DecidableEq, Repr

/-- What a waiting slice is waiting at (04 R94, 05 R104, R105). -/
inductive WaitAt where
  | queue        -- a push or pop of `qa`, `qc` or `qb`
  | desc         -- a descriptor push
  | snext        -- `snext` on an empty descriptor queue
  | rendezvous (fn10 : Nat)
  | word         -- `wait`
  | cwait
  | vsetg
  | gwait
  | coldText (page : Nat)      -- a fetch from a cold page, by the page's number (03 R75)
  | vqueue       -- the vector instruction queue is full, or older queued instructions have not completed
  | counter      -- `vldw` at its arrival counter
  | engine       -- the target engine's queue is full
  | link         -- a peer access while no live link serves its destination (01 R31)
  deriving DecidableEq, Repr

/-- The condition of a slice. -/
inductive Cond where
  | running
  | waiting (w : WaitAt)
  | yielded      -- stopped after its own `yield`
  | stopped      -- stopped before its next instruction
  deriving DecidableEq, Repr

/-- One slice of a hart: its program counter and fetch buffer (05 R96), the latter as the words it holds by virtual
address, oldest first. -/
structure Slice where
  pc : Word
  fbuf : List (Word × TextWord)
  cond : Cond
  deriving DecidableEq, Repr

/-- The vector control registers (05 R98, 06 R123, 12 R254, R255). -/
structure VCtl where
  vl : Word
  vfmt : Word
  vstart : Word
  vcont : Word
  vstat : Word
  gn : Word
  gbd : Word
  gba : Word
  gbb : Word
  vcap : Word
  deriving DecidableEq, Repr

/-- The registers an exception writes (05 R98, 07 R152). `took` is the slice that took the trap while H = 1. -/
structure TrapRegs where
  ecause : Word
  epca : Word
  epcc : Word
  eaddr : Word
  einfo : Word
  evecA : Word
  evecC : Word
  emask : Word
  took : SliceId
  deriving DecidableEq, Repr

/-- The mode and tape registers (08 R168, R172, R175) and the table copy of the latest switch (R170). -/
structure TapeRegs where
  adjm : BitVec 2
  tapeb : Word
  tapeh : Word
  tapel : Word
  dtab : Word
  table : Option (List Region)
  deriving DecidableEq, Repr

/-- A hart's save, or its restore (07 R163 to R167): the area's base and length, the offset reached, and whether an
incomplete save awaits its owner's answer, or an area has not been provided yet; `done` once COMPLETE is written, `gang` once the
gang state has been written with it in the area of hart 0 (04 R92). -/
inductive SaveWait where
  | writing
  | needArea
  | incomplete (reason : Nat) (va : Word)
  | restored     -- its restore is complete, the gang's is not
  deriving DecidableEq, Repr

structure Save where
  base : Word
  limit : Nat
  off : Nat
  st : SaveWait
  done : Bool
  gang : Bool := false
  deriving DecidableEq, Repr

/-- What a hart as a whole is doing. -/
inductive HartMode where
  | active
  | draining                -- stopped cooperatively, its vector queue drains (04 R89)
  | saving                  -- stopped, its save is in progress or complete (04 R92)
  | debugHalt               -- halted under invasive-hart debug (02 R47)
  | exited
  deriving DecidableEq, Repr

/-- A hart (05 R97, R98, 04 R76). -/
structure Hart where
  core : Nat
  ctx : Nat
  mode : HartMode
  sysTrap : Bool                  -- stopped, a system trap awaits its owner's answer (07 R153)
  coop : Bool                     -- its latest stop was cooperative or it was waiting (04 R92)
  as_ : Slice
  cs : Slice
  a : Vector Word 32
  c : Vector Word 32
  v : Vector VReg 32
  m : Vector Nat 8
  mdone : Nat
  mfault : Nat
  s : Vector Stream 16
  z : Vector Nat 4
  zlive : Bool
  zl : Word
  zrow : Word
  qa : List QWord
  qc : List QWord
  qb : List Bool
  vc : VCtl
  tr : TrapRegs
  tp : TapeRegs
  slip : Word
  ypend : Word
  gsz : Word
  gix : Word
  gcnt : Word
  kargs : Word
  hid : Word
  viq : List VEntry
  held : List VEntry
  markers : List (Nat × Nat)      -- unfired `garr` markers: phase, `seq` (11 R251)
  fenceSv : Bool                  -- a `fence.sv` awaits the next push (14 R326)
  fenceVs : Bool                  -- a `fence.vs` awaits the next push (14 R326)
  seq : Nat                       -- MODEL: what was issued, counted, to tell older from younger (log 137)
  windows : List (Nat × Window)   -- open windows by id, rising
  tcm : List (Nat × Nat)          -- window block, core block (05 R118)
  waitCount : Nat                 -- mutual-wait count (05 R105)
  asArr : Nat                     -- arrivals of the AS (11 R250)
  asHeld : List (Nat × Nat)       -- those not counted before older stores are visible: phase, `seq` (11 R251)
  csArr : Nat                     -- phases the CS has been given
  grant : Option (Nat × Bool)     -- a completed set-length grant not yet taken: G, ILL (04 R77)
  abuf : List PWrite              -- stores of the AS agent, oldest first
  cbuf : List PWrite              -- stores of the CS vector agent, oldest first
  issueClass : List Nat           -- issue class per pipe (04 R85)
  passed : List Nat               -- passed-over count per pipe
  save : Option Save
  answer : Option (Option (Word × Word))   -- a *resume* answer that came while the hart was stopped otherwise (07 R154)
  deriving DecidableEq, Repr

/-! ### Launches and gangs -/

/-- A port context, words 0 and 1 (03 R59, R60). -/
structure PortCtx where
  w0 : Word
  w1 : Word
  deriving DecidableEq, Repr

/-- A launch record as its eight words (03 R63). -/
structure Record where
  ctrl : Word
  code : Word
  kargs : Word
  waita : Word
  waitv : Word
  save : Word
  donea : Word
  ids : Word
  deriving DecidableEq, Repr

/-- A launch port (03 R62): ACC, REF, LAST. Its queue is the accepted launches of the port that have not passed. -/
structure Port where
  acc : BitVec 32
  ref : BitVec 16
  last : BitVec 4
  deriving DecidableEq, Repr

/-- An accepted record (03 R61 to R68), with what `.meta` gave (R73): entries, vectors and emask, as addresses. -/
structure Launch where
  id : Nat
  port : Nat
  record : Record
  ctx : PortCtx
  asEntry : Word
  csEntry : Word
  asVec : Word
  csVec : Word
  emask : Word
  digest : BitVec 512      -- the digest under which bedrock admitted its code object (02 R43)
  passed : Bool
  seen : Option Word       -- a passing observation of its wait object, while records ahead of it wait (R67)
  since : Nat              -- `ntime` units when its wait condition passed
  placed : Nat             -- gangs that have been placed once
  ended : Nat
  deriving DecidableEq, Repr

/-- The state of a gang that has been placed (04 R81). -/
inductive GangState where
  | resident
  | saved
  | restoring      -- reservations made, the restore not yet complete (07 R167)
  | awaiting       -- saved after a restore fault, until its owner answers (07 R167)
  | ended (killed : Bool)
  deriving DecidableEq, Repr

/-- A gang (04 R76). `id` is launch × 2^32 + number. -/
structure Gang where
  id : Nat
  st : GangState
  die : Nat
  gallery : Nat            -- within the die
  harts : List Hart
  since : Nat              -- `cycle` when it last became resident (04 R83)
  qsince : Nat             -- `ntime` units when it was saved (04 R82)
  ph : Nat                 -- completed barrier phases (11 R250)
  arrived : List (Nat × Nat × Bool)   -- set-length arrivals: hid, contribution, reserved code (04 R77)
  chamber : List (Nat × Nat)          -- window block, chamber block (05 R120)
  deriving DecidableEq, Repr

/-! ### Engine operations -/

/-- A copy descriptor (15 R343). -/
structure CopyDesc where
  from_ : Word
  to_ : Word
  ctl : Word
  arr : Word
  dims : List (Word × Word × Word)    -- EXT, FSTR, TSTR
  deriving DecidableEq, Repr

/-- A collective descriptor (15 R345). -/
structure CollDesc where
  from_ : Word
  to_ : Word
  ctl : Word
  resv : Word
  deriving DecidableEq, Repr

/-- A window of a near-bank command with the translation it keeps (15 R346): `pa` is the physical address of VA,
`d0` and `d1` the interleave descriptor's words, `dev` whether its page is marked DEV. -/
structure NbeWindow where
  va : Word
  len : Word
  pa : Nat
  d0 : Word
  d1 : Word
  dev : Bool
  deriving DecidableEq, Repr

/-- What a forked operation does. -/
inductive OpBody where
  | copy (d : CopyDesc)
  | coll (id : Nat) (num : Nat) (d : CollDesc)
  | nbe (chan prog : Nat) (wins : List NbeWindow) (ks : List (BitVec 32)) (resvOk : Bool)
  deriving DecidableEq, Repr

/-- A forked operation (15 R341, R342), with what it keeps of the issuing hart, the gallery of the package where it was
forked among it (05 R117). `done` counts elements of a copy,
`sent` the bytes already added to its arrival counter, `tfault` a translation fault that awaits its owner. -/
structure Op where
  id : Nat
  gang : Nat
  hid : Nat
  gallery : Nat
  body : OpBody
  obj : Word
  done : Nat
  sent : Nat
  tfault : Option (Word × Word)
  deriving DecidableEq, Repr

/-- The kind of agent that makes a completion addition, as a poison notice names it (03 R392). -/
inductive Adder where
  | sequencer | operation | csig | nsig | peer
  deriving DecidableEq, Repr

/-- A completion addition to an object of a peer that has been made and waits for a live link (01 R31, 03 R56): the
object's physical address, the links of its route as it was made, the leaf that it translated through, what makes it and for
which launch, the number and the error flag, and the gang of the operation that makes it. -/
structure PendingAdd where
  pa : Nat
  links : BitVec 16
  leaf : TlbEntry
  by_ : Adder
  tag : Word
  n : Nat
  err : Bool
  gang : Option Nat
  deriving DecidableEq, Repr

/-- A collective operation (15 R345): the copy of its route (01 R34), the members that have issued with their
operations, and whether it has ended, in error or complete. -/
structure CollOp where
  id : Nat
  num : Nat
  route : Option (List (BitVec 8))    -- none: the route is invalid
  members : List (Nat × Nat)          -- MEMB, operation
  ended : Bool
  complete : Bool
  deriving DecidableEq, Repr

/-- A near-bank engine's program in execution (15 R350). -/
structure NbeRun where
  op : Nat
  prog : List TextWord
  pc : Nat
  b : Vector (BitVec 48) 8
  k : Vector (BitVec 32) 8
  dec : Nat                -- decode buffer: bits not consumed
  decLen : Nat             -- their number
  latch : List Int         -- weights: integers, or f32 patterns
  latchInt : Bool
  vbuf : Memory            -- vector buffer, bytes
  rbuf : List (Nat × BitVec 32)   -- result cells that are not 0, rising
  count : Nat              -- instructions executed
  deriving DecidableEq, Repr

/-- What is known of a program of an admitted code object (15 R349): the owner has answered that it may run and its words
have not been looked at, it has passed, or it is refused. -/
inductive Verdict where
  | answered | passed | refused
  deriving DecidableEq, Repr

/-- A near-bank engine in use: what it runs, and the operations queued behind it, oldest first. -/
structure NbeEng where
  chan : Nat
  run : Option NbeRun
  queue : List Nat
  deriving DecidableEq, Repr

/-! ### Firmware, links, channels -/

/-- An admission cache entry (02 R44), the least recently used first in the list. -/
structure AdmitEntry where
  digest : BitVec 512
  counter : Nat
  version : Nat
  deriving DecidableEq, Repr

/-- A survey core (09 R204). -/
inductive SurveyMode where
  | held | running | halted
  deriving DecidableEq, Repr

/-- A survey core: its trap registers are those of the AS (log 12). -/
structure Survey where
  mode : SurveyMode
  pc : Word
  a : Vector Word 32
  tr : TrapRegs
  deriving DecidableEq, Repr

/-- A request in a channel's queue: bank, row, columns from `col` on, age in controller clocks, capped (01 R23), and
whether it is a near-bank engine's bank command (01 R24). -/
structure ChanReq where
  bank : Nat
  row : Nat
  col : Nat
  len : Nat
  nbe : Bool
  age : Nat
  capped : Bool
  deriving DecidableEq, Repr

/-- A channel controller in use: requests oldest first, hints with their age, open row of each bank that has one. -/
structure Chan where
  chan : Nat
  reqs : List ChanReq
  hints : List (Nat × Nat × Nat)    -- bank, row, age
  opened : List (Nat × Nat)         -- bank, row
  deriving DecidableEq, Repr

/-- A Smiar link (01 R27, R31). -/
structure Link where
  live : Bool
  lanes : Nat
  deriving DecidableEq, Repr

/-- A notice to the owner of a duty (02 R53): the duty's bit, what it is about, and the words it carries. -/
inductive NoticeKind where
  | trap           -- 07 R155
  | saveIncomplete -- 07 R166
  | saveArea       -- 07 R164: SAVE = 0
  | restoreFault   -- 07 R167
  | opFault        -- 15 R342
  | dependence     -- 03 R67
  | nbeVerdict     -- 15 R349
  | poison         -- 01 R12, 03 R392
  deriving DecidableEq, Repr

structure Notice where
  duty : Nat
  kind : NoticeKind
  words : List Word
  deriving DecidableEq, Repr

/-- A request held while the device is in retain (02 R48, R50), in arrival order. -/
inductive HeldReq where
  | record (port : BitVec 8) (off : Nat) (data : List Byte)
  | peer (r : PeerReq)
  | host (pa : BitVec 52) (n : Nat) (wr : Option (List Byte))
  | hostAtomic (pa : BitVec 52) (sa : Bool) (x : AtomicOp)
  deriving DecidableEq, Repr

/-- Security, firmware and power state (02). -/
structure Bedrock where
  stage : Nat              -- boot steps passed, 0 to 3 (R40)
  sec : BitVec 2
  dbg : BitVec 2
  hidbg : BitVec 2
  pwr : BitVec 2
  off : Bool               -- the off state, which PWR does not encode (R48)
  duty : BitVec 8
  fuses : Vector Nat 32
  cache : List AdmitEntry
  keys : Bool              -- identity and attestation keys present (R51)
  patchDigest : BitVec 512
  configDigest : BitVec 512
  surveyDigest : BitVec 512
  quotes : List (List Byte)
  retainPending : Bool     -- entry to retain is under way (R49, R50)
  converting : List Nat    -- gangs that the entry saves because a hart of theirs was halted by debug (R49)
  debugOut : Option Word   -- what the latest debug read returned (R47)
  deriving DecidableEq, Repr

/-- A range of host physical addresses that a host-side decoder maps to an interleave descriptor (01 R36). -/
structure HostRange where
  base : Nat
  size : Nat
  desc : BitVec 6
  deriving DecidableEq, Repr

/-- Device-wide registers and units outside the harts (01, 03, 07). -/
structure Device where
  regs : List (Nat × Word)           -- device registers that differ from their reset value, by offset, rising
  ports : Vector Port 256
  links : Vector Link 16
  linkLost : List Nat                -- destinations whose lost traffic has timed out (01 R31)
  switching : List Nat               -- stacks with a layer switch in progress (01 R16)
  chans : List Chan
  surveys : Vector Survey 4
  firmware : List Byte               -- the survey firmware that boot loaded (02 R40), at firmwareBase
  firmwareBase : Nat
  firmwareEntry : Word
  hostMap : List HostRange           -- the host-side decoders' mapping that the firmware published (01 R36)
  hostUp : Bool                      -- MODEL: whether host memory answers (03 R74, log 145)
  cavernMiB : Nat
  pkg : BitVec 6
  deriving DecidableEq, Repr

/-- Who moves. -/
inductive Agent where
  | none
  | slice (gang hid : Nat) (s : SliceId)
  | ahead (gang hid : Nat)           -- the CS, running ahead of its vector instruction queue (05 R112)
  | part (gang hid k n : Nat)        -- entry k of the vector instruction queue, for n element groups (04 R90)
  | engine (chan : Nat)
  | survey (k : Nat)
  deriving DecidableEq, Repr

/-- MODEL. What happens next: a device event, a turn of an agent, core clocks that pass, or one of the happenings of 01
that the opcode table has no row for: an uncorrectable error in a 32-byte unit, of the layer that it lies in or of the
spare layer's copy (R12, R15), a request at a channel and the
issue of one (R22 to R24), the normal page policy closing a row (R25), the mapping of the host-side decoders being
published (R36), and host memory ceasing to answer or answering again (03 R74). -/
inductive Move where
  | event (i : Instr)
  | turn (a : Agent)
  | clocks (n : Nat)
  | memoryError (unit : Nat) (inSpare : Bool)
  | request (chan : BitVec 9) (r : ChanReq)
  | issue (chan : BitVec 9)
  | closeRow (chan : BitVec 9) (bank : Nat)
  | hostMap (ranges : List HostRange)
  | hostAnswers (b : Bool)
  deriving DecidableEq, Repr

/-- The state of the package. -/
structure State where
  agenda : List Move                 -- MODEL (log 3)
  cur : Agent                        -- MODEL (log 3): moves when the agenda is empty
  freeCtr : Nat                      -- MODEL (log 16)
  cycle : Word                       -- 05 R98
  ntime : Nat                        -- 05 R98, in units of 1/720720 ns
  clock : Nat                        -- 01 R37, core clock in 100 MHz steps
  mem : Memory
  poison : List Nat                  -- 01 R12, 32-byte units, rising
  spare : List Nat                   -- 01 R15: units that are poisoned in the copy a spare layer holds, rising
  tlb : List TlbEntry                -- 07 R146, oldest first
  dev : Device
  bed : Bedrock
  launches : List Launch
  nextLaunch : Nat
  gangs : List Gang
  aged : List (Nat × Nat)            -- classes gained in the placement queue, by gang id (04 R82)
  lastGallery : Vector Nat 8         -- 04 R80
  ops : List Op
  nextOp : Nat
  colls : List CollOp
  adds : List PendingAdd             -- 01 R31, oldest first
  nbes : List NbeEng
  verdicts : List (BitVec 512 × Nat × Verdict)   -- 15 R349: admitted digest, program
  notices : List Notice              -- oldest first
  heldReqs : List HeldReq
  deriving DecidableEq, Repr

/-! ### Reset -/

/-- Trap registers at reset (05 R98; `evec` and `took`: log 2). -/
def TrapRegs.reset : TrapRegs where
  ecause := 0
  epca := 0
  epcc := 0
  eaddr := 0
  einfo := 0
  evecA := 0
  evecC := 0
  emask := 0
  took := .as

/-- A survey core at reset: held, registers 0 (log 2). -/
def Survey.reset : Survey := { mode := .held, pc := 0, a := Vector.replicate 32 0, tr := TrapRegs.reset }

def Bedrock.reset : Bedrock where
  stage := 0
  sec := 0
  dbg := 0
  hidbg := 0
  pwr := 0
  off := false
  duty := 0
  fuses := Vector.replicate 32 0
  cache := []
  keys := true
  patchDigest := 0
  configDigest := 0
  surveyDigest := 0
  quotes := []
  retainPending := false
  converting := []
  debugOut := none

def Device.reset : Device where
  regs := []
  ports := Vector.replicate 256 { acc := 0, ref := 0, last := 0 }
  links := Vector.replicate 16 { live := true, lanes := 8 }
  linkLost := []
  switching := []
  chans := []
  surveys := Vector.replicate 4 Survey.reset
  firmware := []
  firmwareBase := 0
  firmwareEntry := 0
  hostMap := []
  hostUp := true
  cavernMiB := 64
  pkg := 0

/-- The package right after reset, before any event (log 2, 3). -/
def State.reset : State where
  agenda := []
  cur := .none
  freeCtr := 0
  cycle := 0
  ntime := 0
  clock := 16
  mem := []
  poison := []
  spare := []
  tlb := []
  dev := Device.reset
  bed := Bedrock.reset
  launches := []
  nextLaunch := 0
  gangs := []
  aged := []
  lastGallery := Vector.replicate 8 31
  ops := []
  nextOp := 0
  colls := []
  adds := []
  nbes := []
  verdicts := []
  notices := []
  heldReqs := []

end Sys2Proof.Machine
end

