-- ==== Sys2Proof/Machine/Memory.lean ====
section
/-! DEFINITION. Byte memory in canonical form, poison marks, pending stores, device registers, and where an address
of each kind lies (01 R11, R12, R17 to R20, R391, 05 R117 to R121, 07 R145). -/

namespace Sys2Proof.Machine

/-! ### Canonical memory -/

/-- What an unlisted address reads as (log 1). -/
def memDefault : Byte := 0#8

/-- The byte at an address. -/
def memRead : Memory → Nat → Byte
  | [], _ => memDefault
  | (a, b) :: rest, x => if a = x then b else if x < a then memDefault else memRead rest x

/-- Memory with one byte replaced; writing the default removes the entry. -/
def memWrite : Memory → Nat → Byte → Memory
  | [], x, v => if v = memDefault then [] else [(x, v)]
  | (a, b) :: rest, x, v =>
    if a = x then (if v = memDefault then rest else (x, v) :: rest)
    else if x < a then (if v = memDefault then (a, b) :: rest else (x, v) :: (a, b) :: rest)
    else (a, b) :: memWrite rest x v

/-- Every address of the list is at or above `lo`, addresses rise strictly, and no byte is the default. -/
def memWfFrom : Nat → Memory → Bool
  | _, [] => true
  | lo, (a, b) :: rest => lo ≤ a && b != memDefault && memWfFrom (a + 1) rest

/-- The canonical form. -/
def Memory.wf (m : Memory) : Bool := memWfFrom 0 m

/-- Zero-fill [lo, hi): the default is 0. -/
def memClear (m : Memory) (lo hi : Nat) : Memory := m.filter fun c => c.1 < lo || hi ≤ c.1

/-- Replace a list of bytes. -/
def memWriteAll (m : Memory) (cells : List (Nat × Byte)) : Memory :=
  cells.foldl (fun m c => memWrite m c.1 c.2) m

/-- Little-endian bytes as a number, and back (00 R4). -/
def bytesToNat : List Byte → Nat
  | [] => 0
  | b :: rest => b.toNat + 256 * bytesToNat rest

def natToBytes (x : Nat) : Nat → List Byte
  | 0 => []
  | n + 1 => BitVec.ofNat 8 x :: natToBytes (x / 256) n

/-- The location list of n bytes from a location on. -/
def locRange (lo n : Nat) : List Nat := (List.range n).map (lo + ·)

/-! ### Poison marks (01 R12) -/

/-- Insert into a rising list without repeats. -/
def insertRising (x : Nat) : List Nat → List Nat
  | [] => [x]
  | y :: rest => if x < y then x :: y :: rest else if x = y then y :: rest else y :: insertRising x rest

def poisoned (s : State) (loc : Nat) : Bool := s.poison.contains (loc / 32)

/-- The 32-byte units all of whose bytes are among the locations. -/
def coveredUnits (locs : List Nat) : List Nat :=
  if locs.length < 32 then [] else
  (locs.filter fun x => x % 32 == 0 && (List.range 32).all fun k => locs.contains (x + k)).map (· / 32)

/-- Perform one pending store at its home: its bytes, and the poison marks it clears, in the layer and in the spare layer
that a copy of it is made in (01 R15). -/
def performWrite (s : State) (w : PWrite) : State :=
  { s with
    mem := memWriteAll s.mem w.cells
    poison := s.poison.filter fun u => !w.clears.contains u
    spare := s.spare.filter fun u => !w.clears.contains u }

/-- A store performed at its home at once. -/
def homeWrite (s : State) (locs : List Nat) (bytes : List Byte) : State :=
  performWrite s { cells := locs.zip bytes, clears := coveredUnits locs }

/-- Bytes at their homes. -/
def homeRead (s : State) (locs : List Nat) : List Byte := locs.map (memRead s.mem)

/-! ### Device registers (01 R10) -/

/-- The reset value of the register at an offset: HINTEN 1 and CAP 63 (01 R22), PCEIL 3 (03 R60), else 0. -/
def regReset (off : Nat) : Word :=
  if 0x30000 ≤ off && off < 0x31000 then 0x1003F#64
  else if 0x50000 ≤ off && off < 0x51000 && off % 16 = 8 then 3#64
  else 0#64

/-- A register's value. -/
def devReg (s : State) (off : Nat) : Word := ((s.dev.regs.find? fun c => c.1 == off).map (·.2)).getD (regReset off)

/-- Insert a pair by its key into a list rising in keys, replacing an equal key. -/
def insertKey {α : Type} (k : Nat) (v : α) : List (Nat × α) → List (Nat × α)
  | [] => [(k, v)]
  | (j, w) :: rest =>
    if k < j then (k, v) :: (j, w) :: rest
    else if k = j then (k, v) :: rest
    else (j, w) :: insertKey k v rest

/-- Write a register's value, listing it only when it differs from the reset value. -/
def setDevReg (s : State) (off : Nat) (v : Word) : State :=
  let rest := s.dev.regs.filter fun c => c.1 != off
  { s with dev := { s.dev with regs := if v = regReset off then rest else insertKey off v rest } }

/-- Words of an interleave descriptor (01 R17, R18). -/
def descWords (s : State) (ir : Nat) : Word × Word := (devReg s (0x10000 + 16 * ir), devReg s (0x10008 + 16 * ir))

def ilEn (w0 : Word) : Bool := w0.getLsbD 63
def ilMode (w0 : Word) : Nat := bitsOf w0.toNat 58 2
def ilBase (w0 : Word) : Nat := bitsOf w0.toNat 16 36 * 65536
def ilSize (w1 : Word) : Nat := bitsOf w1.toNat 32 25 * 65536
def ilRowb (w1 : Word) : Nat := bitsOf w1.toNat 16 16
def ilChan (w1 : Word) : Nat := bitsOf w1.toNat 7 9
def ilBank (w1 : Word) : Nat := bitsOf w1.toNat 0 5

/-! ### Device locations (log 11) -/

/-- The location number of an HBM cell. -/
def hbmLoc (chan bank row col : Nat) : Nat := ((chan * 32 + bank) * 65536 + row) * 1024 + col
def hbmChan (loc : Nat) : Nat := loc / (32 * 65536 * 1024)
def hbmBank (loc : Nat) : Nat := loc / (65536 * 1024) % 32
def hbmRow (loc : Nat) : Nat := loc / 1024 % 65536
def isHbm (loc : Nat) : Bool := loc < 2 ^ 40

def cavernLoc (die off : Nat) : Nat := 2 ^ 40 + die * 2 ^ 28 + off
def chamberLoc (gallery off : Nat) : Nat := 2 ^ 41 + gallery * 2 ^ 23 + off
def tcmLoc (core off : Nat) : Nat := 2 ^ 42 + core * 2 ^ 19 + off
def hostLoc (pa : Nat) : Nat := 2 ^ 52 + pa
def peerLoc (pa : Nat) : Nat := 2 ^ 53 + pa
def isHost (loc : Nat) : Bool := 2 ^ 52 ≤ loc && loc < 2 ^ 53
def isPeer (loc : Nat) : Bool := 2 ^ 53 ≤ loc && loc < 2 ^ 54
/-- The package a peer location belongs to (01 R28). -/
def peerPkg (loc : Nat) : Nat := (loc - 2 ^ 53) / 2 ^ 46

/-- The device location of a physical address through a descriptor (R20), when R21 admits it. -/
def hbmMap (w0 w1 : Word) (pa : Nat) : Option Nat :=
  if !ilEn w0 || pa < ilBase w0 || ilBase w0 + ilSize w1 ≤ pa then none else
  let o := pa - ilBase w0
  if ilMode w0 = 2 then some (hbmLoc (ilChan w1) (ilBank w1) (ilRowb w1 + o / 1024) (o % 1024))
  else
    let g := o / 256
    let chan := if ilMode w0 = 0 then g % 512 else ilChan w1
    let co := if ilMode w0 = 0 then g / 512 * 256 + o % 256 else o
    some (hbmLoc chan (co / 1024 % 32) (ilRowb w1 + co / 32768) (co % 1024))

/-- A local HBM address used without a page-table entry (R391). -/
def hbmByPhys (s : State) (pa : Nat) : Option Nat :=
  (List.range 64).findSome? fun d => let w := descWords s d; hbmMap w.1 w.2 pa

/-- n bytes of local HBM from a physical address on, mapped under R391; within one 256-byte unit every mode of R20
maps to consecutive locations. -/
def physLocs (s : State) (pa n : Nat) : Option (List Nat) :=
  if pa % 256 + n ≤ 256 then (hbmByPhys s pa).map fun l => locRange l n
  else (List.range n).mapM fun k => hbmByPhys s (pa + k)

/-! ### Spare layers (01 R13 to R16) -/

/-- A 32-byte unit lies in block `blk` of a layer of a stack (R11: 32 channels to a stack; log 17). -/
def inLayerBlock (stack layer blk unit : Nat) : Bool :=
  isHbm (32 * unit) && hbmChan (32 * unit) / 32 == stack && Config.inLayerBlock stack layer blk unit

/-- A unit lies in a layer of a stack: in one of its 65,536 blocks. -/
def inLayer (stack layer unit : Nat) : Bool := (List.range 65536).any fun blk => inLayerBlock stack layer blk unit

/-- The units of a stack. -/
def inStack (stack unit : Nat) : Bool := isHbm (32 * unit) && hbmChan (32 * unit) / 32 == stack

/-- Nothing is held of what a stack's spare layer holds: its copy begins again or is abandoned (R14). -/
def dropSpare (s : State) (stack : Nat) : State := { s with spare := s.spare.filter fun u => !inStack stack u }

/-- A block copied to the spare layer, with its poison marks intact (R15). -/
def copyMarks (s : State) (stack layer blk : Nat) : State :=
  let here (u : Nat) : Bool := inLayerBlock stack layer blk u
  { s with spare := (s.poison.filter here).foldr insertRising (s.spare.filter fun u => !here u) }

/-- The spare layer takes the place of a layer (R16): every later access finds the marks that the copy has. -/
def switchMarks (s : State) (stack layer : Nat) : State :=
  let here (u : Nat) : Bool := inLayer stack layer u
  { s with
    poison := (s.spare.filter here).foldr insertRising (s.poison.filter fun u => !here u)
    spare := s.spare.filter fun u => !here u }

/-! ### Links (01 R29 to R31) -/

/-- The route entry of a destination package. -/
def routeEntry (s : State) (dest : Nat) : Word := devReg s (0x40000 + 8 * dest)
def routeLinks (w : Word) : BitVec 16 := w.extractLsb' 0 16
/-- Whether a route entry names links of a member of the domain (01 R30). -/
def routeOn (w : Word) : Bool := w.getLsbD 16 && routeLinks w != 0

/-- The live links of a set, ascending. -/
def liveLinks (s : State) (links : BitVec 16) : List Nat :=
  (List.range 16).filter fun k => links.getLsbD k && (s.dev.links[k]?.map (·.live)).getD false

/-- The link that carries a request for a 64-byte block: the k-th live link with k = block mod their number (01 R30);
none where no link is live. -/
def linkFor (s : State) (links : BitVec 16) (block : Nat) : Option Nat :=
  let live := liveLinks s links
  live[block % live.length]?

/-- A destination with a route of which no link is live. -/
def cutOff (s : State) (dest : Nat) : Bool :=
  let w := routeEntry s dest
  routeOn w && (liveLinks s (routeLinks w)).isEmpty

/-- The 64-byte blocks of peers among locations, by block number of the peer physical address. -/
def peerBlocks (locs : List Nat) : List Nat :=
  ((locs.filter isPeer).map fun l => (l - 2 ^ 53) / 64).eraseDups

/-- The links on which a store to the locations is sent as it is issued (01 R30, R31). -/
def hopsFor (s : State) (locs : List Nat) : List Hop :=
  (peerBlocks locs).map fun b =>
    let links := routeLinks (routeEntry s (b / 2 ^ 40))
    { block := b, links := links, link := linkFor s links b }

/-- A store some request of which has no link to travel on. -/
def PWrite.cutOff (w : PWrite) : Bool := w.hops.any fun h => h.link.isNone

/-- Whether a pending store may be performed before an older one: for the AS plain stores to different 64-byte blocks of
peers (16 R361), unless both are to DEV pages (14 R304); for the CS stores of different bytes (16 R362). -/
def mayPass (sl : SliceId) (older w : PWrite) : Bool :=
  match sl with
  | .as =>
    older.cells.all (fun c => isPeer c.1) && w.cells.all (fun c => isPeer c.1) && !(older.dev && w.dev) &&
      !w.cells.any fun c => older.cells.any fun d => d.1 / 64 == c.1 / 64
  | .cs => !w.cells.any fun c => older.cells.any fun d => d.1 == c.1

/-- Which of an agent's pending stores stay when all that can be performed are: those still open (19 R383), those with a
request that no link carries (01 R31), and those that may not pass one that stays. `kept` are the older ones that stay. -/
def staying (sl : SliceId) (kept : List PWrite) : List PWrite → List Bool
  | [] => []
  | w :: rest =>
    let b := w.open_ || w.cutOff || kept.any fun o => !mayPass sl o w
    b :: staying sl (if b then kept ++ [w] else kept) rest

/-! ### Notices and free values -/

/-- Post a notice to the owner of a duty (02 R53). -/
def notify (s : State) (duty : Nat) (kind : NoticeKind) (words : List Word) : State :=
  { s with notices := s.notices ++ [{ duty := duty, kind := kind, words := words }] }

/-- Take a free value (log 16). -/
def takeFree (s : State) : Word × State := (Config.freeValue s.freeCtr, { s with freeCtr := s.freeCtr + 1 })

end Sys2Proof.Machine
end

