-- ==== Sys2Proof/Machine/Access.lean ====
section
/-! DEFINITION. The working monad of the meanings, the executing agent and its hart, address translation
(07 R142 to R148, 01 R21, R30, R391), window blocks (05 R118, R120), and an agent's loads and stores (16 R355 to R362). -/

namespace Sys2Proof.Machine

/-! ### Ends of an instruction that does not complete -/

/-- What a trap reports (07 R151). `leaf` marks a leaf's refusal for want of R or W, or for COLD with W, which an
engine operation treats as a translation fault (15 R342). -/
structure TrapInfo where
  cause : BitVec 8
  eaddr : Word := 0
  einfo : Word := 0
  pages : List Word := []
  leaf : Bool := false
  deriving DecidableEq, Repr

/-- Why an instruction does not complete now. -/
inductive Stop where
  | trap (t : TrapInfo)
  | wait (w : WaitAt)
  | fault (f : Fault)
  | refuse (r : Refusal)
  deriving DecidableEq, Repr

/-- State transformers that may stop; the state reached is kept (a walk's A bit, a bound block). -/
abbrev M := EStateM Stop State

/-! ### Trap causes (07 R151) -/

def cILLEGAL : BitVec 8 := 0x01
def cBADTGT : BitVec 8 := 0x02
def cPRIV : BitVec 8 := 0x03
def cBREAK : BitVec 8 := 0x04
def cSWTRAP : BitVec 8 := 0x05
def cPGFAULT : BitVec 8 := 0x08
def cPGBATCH : BitVec 8 := 0x09
def cPROT : BitVec 8 := 0x0A
def cATOMATTR : BitVec 8 := 0x0B
def cRESCODE : BitVec 8 := 0x10
def cILLFMT : BitVec 8 := 0x11
def cTAPEFULL : BitVec 8 := 0x14
def cTAPEMIS : BitVec 8 := 0x15
def cRDVZ : BitVec 8 := 0x16
def cQDEADLOCK : BitVec 8 := 0x18
def cWINRANGE : BitVec 8 := 0x1C
def cMCHK : BitVec 8 := 0x1E

def trap {α : Type} (cause : BitVec 8) (eaddr einfo : Word := 0) : M α :=
  throw (.trap { cause := cause, eaddr := eaddr, einfo := einfo })

def waitAt {α : Type} (w : WaitAt) : M α := throw (.wait w)

/-- An access of the kinds that `einfo` names (07 R151). -/
inductive Acc where
  | load | store | fetch | atomic
  deriving DecidableEq, Repr

def Acc.code : Acc → Word
  | .load => 0
  | .store => 1
  | .fetch => 2
  | .atomic => 3

/-! ### Gangs and harts -/

def findGang (s : State) (g : Nat) : Option Gang := s.gangs.find? fun x => x.id == g

def mapGang (s : State) (g : Nat) (f : Gang → Gang) : State :=
  { s with gangs := s.gangs.map fun x => if x.id = g then f x else x }

def findHart (s : State) (g h : Nat) : Option Hart := (findGang s g).bind fun x => x.harts[h]?

def mapHart (s : State) (g h : Nat) (f : Hart → Hart) : State :=
  mapGang s g fun x => { x with harts := x.harts.modify h f }

def findLaunch (s : State) (g : Nat) : Option Launch := s.launches.find? fun l => l.id == g / 2 ^ 32

/-- The compute die of a port (03 R58). -/
def portDie (p : Nat) : Nat := p / 32

/-- The hart whose slice or vector queue moves. -/
structure Here where
  gang : Nat
  hid : Nat
  sl : SliceId
  deriving DecidableEq, Repr

/-- The executing hart, when the agent that moves is a slice of a hart that exists. -/
def here? (s : State) : Option Here :=
  let ok (h : Here) : Option Here := (findHart s h.gang h.hid).map fun _ => h
  match s.cur with
  | .slice g h sl => ok ⟨g, h, sl⟩
  | .ahead g h => ok ⟨g, h, .cs⟩
  | .part g h _ _ => ok ⟨g, h, .cs⟩
  | _ => none

def hereM : M Here := do
  match here? (← get) with
  | some h => pure h
  | none => throw (.fault .noAgent)

def hartM : M Hart := do
  let h ← hereM
  match findHart (← get) h.gang h.hid with
  | some x => pure x
  | none => throw (.fault .noAgent)

def gangM : M Gang := do
  let h ← hereM
  match findGang (← get) h.gang with
  | some x => pure x
  | none => throw (.fault .noAgent)

def modHart (f : Hart → Hart) : M Unit := do
  let h ← hereM
  modify fun s => mapHart s h.gang h.hid f

def modGang (f : Gang → Gang) : M Unit := do
  let h ← hereM
  modify fun s => mapGang s h.gang f

def Hart.slice (h : Hart) : SliceId → Slice
  | .as => h.as_
  | .cs => h.cs

def Hart.setSlice (h : Hart) (sl : SliceId) (x : Slice) : Hart :=
  match sl with
  | .as => { h with as_ := x }
  | .cs => { h with cs := x }

/-! ### Translation contexts -/

/-- Who translates: the address space, and the hart or gang whose windows an access may reach (R117, R393). -/
structure Xlat where
  gallery : Nat                     -- die × 32 + gallery
  root : Nat
  asid : BitVec 16
  hart : Option (Nat × Nat)         -- its TCM window
  gang : Option Nat                 -- its chamber window
  deriving DecidableEq, Repr

def ctxRoot (c : PortCtx) : Nat := bitsOf c.w0.toNat 16 36 * 65536
def ctxAsid (c : PortCtx) : BitVec 16 := c.w0.extractLsb' 0 16
def ctxOwner (c : PortCtx) : BitVec 16 := c.w1.extractLsb' 32 16

/-- A hart's own accesses (07 R142). -/
def hartXlat (s : State) (g h : Nat) : Xlat :=
  match findGang s g, findLaunch s g with
  | some x, some l =>
    { gallery := x.die * 32 + x.gallery, root := ctxRoot l.ctx, asid := ctxAsid l.ctx,
      hart := some (g, h), gang := some g }
  | _, _ => { gallery := 0, root := 0, asid := 0, hart := none, gang := none }

/-- The same pages without the windows (07 R393). -/
def Xlat.noWindows (x : Xlat) : Xlat := { x with hart := none, gang := none }

/-- An agent with no window access (07 R393). -/
def ctxXlat (die : Nat) (c : PortCtx) : Xlat :=
  { gallery := die * 32, root := ctxRoot c, asid := ctxAsid c, hart := none, gang := none }

/-! ### Page-table entries (07 R143) -/

def pteV (p : Word) : Bool := p.getLsbD 0
def pteR (p : Word) : Bool := p.getLsbD 1
def pteW (p : Word) : Bool := p.getLsbD 2
def pteX (p : Word) : Bool := p.getLsbD 3
def pteA (p : Word) : Bool := p.getLsbD 5
def pteD (p : Word) : Bool := p.getLsbD 6
def pteSA (p : Word) : Bool := p.getLsbD 7
def pteDEV (p : Word) : Bool := p.getLsbD 8
def pteCOLD (p : Word) : Bool := p.getLsbD 9
def pteLOC (p : Word) : Nat := bitsOf p.toNat 10 2
def ptePPN (p : Word) : Nat := bitsOf p.toNat 16 36
def pteIR (p : Word) : Nat := bitsOf p.toNat 52 6
def pteLeaf (p : Word) : Bool := pteR p || pteW p || pteX p
/-- A reserved bit set (R143). -/
def pteResv (p : Word) : Bool := p.getLsbD 4 || bitsOf p.toNat 12 4 != 0

/-- Page bits of a leaf at a level (R142). -/
def pageBits : Nat → Nat
  | 1 => 42
  | 2 => 29
  | _ => 16

/-- Index into the table of a level (R142). -/
def tableIndex (va level : Nat) : Nat := va / 2 ^ pageBits level % 8192

/-- Canonical form (R142): bits 63:55 equal bit 54. -/
def canonical (va : Nat) : Bool := let t := va / 2 ^ 54 % 1024; t == 0 || t == 1023

/-- What a walk ends in: a leaf with its level and the location of its entry, or a cause. -/
inductive WalkEnd where
  | leaf (pte : Word) (level loc : Nat)
  | ends (cause : BitVec 8)
  deriving DecidableEq, Repr

/-- Levels `level`, `level + 1`, … of a walk, `n` of them left (R142, R144, R391). -/
def walkFrom (s : State) (va : Nat) : (n level table : Nat) → WalkEnd
  | 0, _, _ => .ends cPGFAULT
  | n + 1, level, table =>
    match physLocs s (table + 8 * tableIndex va level) 8 with
    | none => .ends cPROT
    | some locs =>
      if locs.any (poisoned s) then .ends cMCHK else
      let pte : Word := BitVec.ofNat 64 (bytesToNat (homeRead s locs))
      if !pteV pte || pteResv pte then .ends cPGFAULT
      else if pteLeaf pte then
        if ptePPN pte % 2 ^ (pageBits level - 16) != 0 then .ends cPGFAULT
        else .leaf pte level (locs.headD 0)
      else walkFrom s va n (level + 1) (ptePPN pte * 65536)

/-- Set bits of the word at a location, as one update at its home. -/
def orWordAt (s : State) (loc : Nat) (bits : Word) : State :=
  let locs := locRange loc 8
  let v := bytesToNat (homeRead s locs) ||| bits.toNat
  { s with mem := memWriteAll s.mem (locs.zip (natToBytes v 8)) }

def tlbTagVpn (va level : Nat) : Nat := va % 2 ^ 55 / 2 ^ pageBits level

/-- A held translation, the one of the smallest page first (R146, R150). -/
def tlbFind (s : State) (x : Xlat) (va : Nat) : Option TlbEntry :=
  let hit (level : Nat) : Option TlbEntry :=
    s.tlb.find? fun e => e.gallery == x.gallery && e.asid == x.asid && e.level == level &&
      e.vpn == tlbTagVpn va level
  (hit 3).or ((hit 2).or (hit 1))

/-- Hold a translation, at most 4,096 for a gallery, dropping the oldest (R146, log 8). -/
def tlbAdd (s : State) (e : TlbEntry) : State :=
  let mine := s.tlb.filter fun x => x.gallery == e.gallery
  let keep := if mine.length < 4096 then s.tlb else
    match mine.head? with
    | none => s.tlb
    | some old => s.tlb.erase old
  { s with tlb := keep ++ [e] }

/-- The leaf for a byte, walked and held if need be; the walk sets A in the leaf (R144). A walk that fails reports the
byte, or, where a table read fails, the lowest byte `low` of the access (01 R391). -/
def leafFor (x : Xlat) (acc : Acc) (va low : Nat) : M TlbEntry := do
  let s ← get
  match tlbFind s x va with
  | some e => pure e
  | none =>
    match walkFrom s (va % 2 ^ 55) 3 1 x.root with
    | .ends cause =>
      throw (.trap { cause := cause, eaddr := BitVec.ofNat 64 (if cause = cPGFAULT then va else low),
                     einfo := if cause = cMCHK then 0 else acc.code })
    | .leaf pte level loc =>
      let e : TlbEntry :=
        { gallery := x.gallery, asid := x.asid, level := level, vpn := tlbTagVpn va level,
          pte := pte ||| 0x20#64, pteLoc := loc }
      modify fun s => tlbAdd (if pteA pte then s else orWordAt s loc 0x20#64) e
      pure e

/-- Set D in the entry of a leaf (R143). -/
def setDirty (s : State) (e : TlbEntry) : State :=
  if pteD e.pte then s else
  let s := orWordAt s e.pteLoc 0x40#64
  { s with tlb := s.tlb.map fun y =>
      if y.gallery = e.gallery && y.pteLoc = e.pteLoc then { y with pte := y.pte ||| 0x40#64 } else y }

/-- Whether a leaf grants an access (R144, 03 R75). -/
def leafGrants (acc : Acc) (p : Word) : Bool :=
  match acc with
  | .load => pteR p
  | .store => pteW p
  | .atomic => pteR p && pteW p
  | .fetch => pteX p && !pteDEV p && !(pteCOLD p && pteW p)

/-! ### Windows (05 R117 to R120) -/

def inTcmSpan (va : Nat) : Bool := Config.tcmBase ≤ va && va < Config.tcmBase + Config.spanBytes
def inChamberSpan (va : Nat) : Bool := Config.chamberBase ≤ va && va < Config.chamberBase + Config.spanBytes
def inCavernSpan (va : Nat) : Bool := Config.cavernBase ≤ va && va < Config.cavernBase + Config.spanBytes
def inWindowSpan (va : Nat) : Bool := inTcmSpan va || inChamberSpan va

/-- Whether n bytes at an address of a window span end inside its window. -/
def insideWindow (va n : Nat) : Bool :=
  if inTcmSpan va then va + n ≤ Config.tcmBase + Config.tcmBytes else va + n ≤ Config.chamberBase + Config.chamberBytes

/-- The core of a hart, numbered over the package. -/
def coreOf (g : Gang) (h : Hart) : Nat := (g.die * 32 + g.gallery) * 16 + h.core

/-- Whether a gang holds its harts' resources in its gallery. -/
def Gang.holds (g : Gang) : Bool :=
  match g.st with
  | .resident => true
  | .restoring => true
  | _ => false

/-- TCM blocks of a core that some hart has bound (R118). -/
def tcmTaken (s : State) (core : Nat) : List Nat :=
  s.gangs.flatMap fun g =>
    if g.holds then g.harts.flatMap fun h => if coreOf g h = core then h.tcm.map (·.2) else [] else []

/-- Chamber blocks of a gallery that some gang has bound (R120). -/
def chamberTaken (s : State) (gallery : Nat) : List Nat :=
  s.gangs.flatMap fun g => if g.holds && g.die * 32 + g.gallery = gallery then g.chamber.map (·.2) else []

/-- Bind window block j of a hart's TCM to a free core block, zero-filled (R118). -/
def bindTcm (s : State) (g : Gang) (gid hid : Nat) (h : Hart) (j : Nat) : Option (Nat × State) :=
  let core := coreOf g h
  match (List.range 8).find? fun p => !(tcmTaken s core).contains p with
  | none => none
  | some p =>
    let lo := tcmLoc core (p * Config.tcmBlock)
    let s := mapHart s gid hid fun h => { h with tcm := insertKey j p h.tcm }
    some (p, { s with mem := memClear s.mem lo (lo + Config.tcmBlock) })

/-- Bind window block j of a gang's chamber to a free chamber block, zero-filled (R120). -/
def bindChamber (s : State) (g : Gang) (j : Nat) : Option (Nat × State) :=
  let gal := g.die * 32 + g.gallery
  match (List.range 64).find? fun p => !(chamberTaken s gal).contains p with
  | none => none
  | some p =>
    let lo := chamberLoc gal (p * Config.chamberBlock)
    let s := mapGang s g.id fun g => { g with chamber := insertKey j p g.chamber }
    some (p, { s with mem := memClear s.mem lo (lo + Config.chamberBlock) })

def assoc (k : Nat) (l : List (Nat × Nat)) : Option Nat := (l.find? fun c => c.1 == k).map (·.2)

/-- The location of one byte of a hart's TCM window, binding its block on first touch. -/
def tcmByte (gid hid off : Nat) (va : Word) : M Nat := do
  let s ← get
  match findGang s gid, findHart s gid hid with
  | some g, some h =>
    let j := off / Config.tcmBlock
    match assoc j h.tcm with
    | some p => pure (tcmLoc (coreOf g h) (p * Config.tcmBlock + off % Config.tcmBlock))
    | none =>
      match bindTcm s g gid hid h j with
      | none => trap cWINRANGE va
      | some (p, s') => set s'; pure (tcmLoc (coreOf g h) (p * Config.tcmBlock + off % Config.tcmBlock))
  | _, _ => trap cPROT va

/-- The location of one byte of a gang's chamber window. -/
def chamberByte (gid off : Nat) (va : Word) : M Nat := do
  let s ← get
  match findGang s gid with
  | some g =>
    let j := off / Config.chamberBlock
    let at_ (p : Nat) : Nat := chamberLoc (g.die * 32 + g.gallery) (p * Config.chamberBlock + off % Config.chamberBlock)
    match assoc j g.chamber with
    | some p => pure (at_ p)
    | none =>
      match bindChamber s g j with
      | none => trap cWINRANGE va
      | some (p, s') => set s'; pure (at_ p)
  | none => trap cPROT va

/-- n bytes of a window, by block: consecutive locations within each block. Where one of two blocks cannot be bound,
neither is (R118, R120). -/
def windowBytes (byteAt : Nat → Word → M Nat) (block : Nat) (off : Nat) (va : Nat) (n : Nat) : M (List Nat) := do
  let s ← get
  let first := min n (block - off % block)
  let l ← byteAt off (BitVec.ofNat 64 va)
  if n ≤ first then pure (locRange l n) else
  let l2 ← tryCatch (byteAt (off + first) (BitVec.ofNat 64 (va + first))) fun e => do set s; throw e
  pure (locRange l first ++ locRange l2 (n - first))

/-- n bytes of the TCM or chamber window at va (R117). -/
def windowLocs (x : Xlat) (acc : Acc) (va n : Nat) : M (List Nat) :=
  let isTcm := inTcmSpan va
  let base := if isTcm then Config.tcmBase else Config.chamberBase
  let size := if isTcm then Config.tcmBytes else Config.chamberBytes
  let off := va - base
  let prot {α : Type} (a : Nat) : M α := trap cPROT (BitVec.ofNat 64 a) acc.code
  if size < off + n then prot (base + max off size) else
  if isTcm then
    match x.hart with
    | none => prot va
    | some (g, h) => windowBytes (tcmByte g h) Config.tcmBlock off va n
  else
    match x.gang with
    | none => prot va
    | some g => windowBytes (chamberByte g) Config.chamberBlock off va n

/-! ### Physical accesses (07 R145) -/

/-- n bytes from a physical address on, through a leaf (R145, 01 R21, R28, R30). `va` is the access's address
of the same byte, for reports. A peer access waits while no live link carries it, or reports MCHK once the loss has
timed out (01 R31). The package's own id is mapped as R391 maps an address without a descriptor (log 136). -/
def physAccess (acc : Acc) (pte : Word) (pa va n : Nat) : M (List Nat) := do
  let s ← get
  let prot {α : Type} (k : Nat) : M α := trap cPROT (BitVec.ofNat 64 (va + k)) acc.code
  let byteLocs (f : Nat → Option Nat) : M (List Nat) :=
    match f pa with
    | none => prot 0
    | some l =>
      if pa % 256 + n ≤ 256 then pure (locRange l n) else
      let rec go : Nat → Nat → List Nat → M (List Nat)
        | 0, _, out => pure out.reverse
        | t + 1, k, out =>
          match f (pa + k) with
          | none => prot k
          | some l => go t (k + 1) (l :: out)
      go n 0 []
  match pteLOC pte with
  | 0 => let w := descWords s (pteIR pte); byteLocs (hbmMap w.1 w.2)
  | 1 =>
    let off := pa % 2 ^ 28
    let size := s.dev.cavernMiB * 2 ^ 20
    if pa / 2 ^ 31 != 0 then prot 0
    else if size < off + n then prot (size - min off size)
    else pure (locRange (cavernLoc (pa / 2 ^ 28) off) n)
  | 2 =>
    let dest := pa / 2 ^ 46
    if dest = s.dev.pkg.toNat then byteLocs (fun p => hbmByPhys s (p % 2 ^ 46))
    else
      let route := routeEntry s dest
      let locs := locRange (peerLoc pa) n
      if !routeOn route then prot 0
      else if (hopsFor s locs).all fun h => h.link.isSome then pure locs
      else if s.dev.linkLost.contains dest then trap cMCHK (BitVec.ofNat 64 va) 0
      else waitAt .link
  | _ =>
    if acc = .atomic && !pteSA pte then trap cATOMATTR (BitVec.ofNat 64 va) acc.code
    else pure (locRange (hostLoc pa) n)

/-! ### Translating an access -/

/-- What an access found: the location of each byte, its pages' attributes, and the leaves in which its store or
atomic sets D as it issues (R144). -/
structure Found where
  locs : List Nat
  dev : Bool := false
  sa : Bool := true
  kinds : List Nat := []      -- LOC of each page; 4 for a window
  leaves : List TlbEntry := []
  deriving DecidableEq, Repr

/-- Set D in the leaves of a store or atomic that issues (R144). -/
def Found.markDirty (f : Found) : M Unit := modify fun s => f.leaves.foldl setDirty s

/-- The leaf of one page of an access, its grants checked (R144). -/
def pageLeaf (x : Xlat) (acc : Acc) (check : Bool) (va low : Nat) : M TlbEntry := do
  let w : Word := BitVec.ofNat 64 va
  if inWindowSpan va then trap cPROT w acc.code else
  let e ← leafFor x acc va low
  if check && !leafGrants acc e.pte then
    throw (.trap { cause := cPROT, eaddr := w, einfo := acc.code, leaf := acc != .fetch || (pteCOLD e.pte && pteW e.pte) })
  else if acc = .fetch && pteCOLD e.pte then waitAt (.coldText (va / 65536))
  else pure e

/-- The physical address of a byte through a held leaf. -/
def leafPa (e : TlbEntry) (va : Nat) : Nat := ptePPN e.pte * 65536 + va % 2 ^ pageBits e.level

/-- Locate n bytes at va for an access of an agent (14 R303 steps 1 and 2): canonical form, windows, every page's
translation, then the physical side. -/
def locate (x : Xlat) (acc : Acc) (va n : Nat) (check : Bool := true) : M Found := do
  let va := va % 2 ^ 64
  let last := (va + n - 1) % 2 ^ 64
  if !canonical va || !canonical last then trap cPROT (BitVec.ofNat 64 (if canonical va then 2 ^ 54 else va)) acc.code
  else if inWindowSpan va then do
    let locs ← windowLocs x acc va n
    pure { locs := locs, kinds := [4] }
  else if inCavernSpan va && Config.cavernBase + 0xC000000 < va + n then
    trap cPROT (BitVec.ofNat 64 (max va (Config.cavernBase + 0xC000000))) acc.code
  else do
    let first := min n (65536 - va % 65536)
    let writes := acc = .store || acc = .atomic
    let e1 ← pageLeaf x acc check va va
    if n ≤ first then do
      let locs ← physAccess acc e1.pte (leafPa e1 va) va n
      pure { locs := locs, dev := pteDEV e1.pte, sa := pteSA e1.pte, kinds := [pteLOC e1.pte],
             leaves := if writes then [e1] else [] }
    else do
      let va2 := (va + first) % 2 ^ 64
      let e2 ← pageLeaf x acc check va2 va
      let l1 ← physAccess acc e1.pte (leafPa e1 va) va first
      let l2 ← physAccess acc e2.pte (leafPa e2 va2) va2 (n - first)
      pure { locs := l1 ++ l2, dev := pteDEV e1.pte || pteDEV e2.pte, sa := pteSA e1.pte && pteSA e2.pte,
             kinds := [pteLOC e1.pte, pteLOC e2.pte], leaves := if writes then [e1, e2] else [] }

/-! ### An agent's loads and stores (14 R304, 16 R361, R362) -/

/-- The youngest pending byte of a buffer at a location. -/
def bufByte (buf : List PWrite) (loc : Nat) : Option Byte :=
  buf.foldl (fun acc w => ((w.cells.reverse.find? fun c => c.1 == loc).map (·.2)).or acc) none

def Hart.buf (h : Hart) : SliceId → List PWrite
  | .as => h.abuf
  | .cs => h.cbuf

def Hart.setBuf (h : Hart) (sl : SliceId) (b : List PWrite) : Hart :=
  match sl with
  | .as => { h with abuf := b }
  | .cs => { h with cbuf := b }

/-- Read located bytes as the agent sees them: its own pending bytes, else the home; poisoned data takes MCHK
(01 R12). `va` is the address of the first byte. -/
def readLocs (buf : List PWrite) (locs : List Nat) (va : Nat) : M (List Byte) := do
  let s ← get
  let rec go : List Nat → Nat → List Byte → M (List Byte)
    | [], _, out => pure out.reverse
    | l :: rest, k, out =>
      match bufByte buf l with
      | some b => go rest (k + 1) (b :: out)
      | none =>
        if poisoned s l then trap cMCHK (BitVec.ofNat 64 (va + k)) 0
        else go rest (k + 1) (memRead s.mem l :: out)
  go locs 0 []

/-- A store of located bytes, as it is issued under a number in the order of issue. -/
def storeOf (s : State) (f : Found) (bytes : List Byte) (seq : Nat) : PWrite :=
  { cells := f.locs.zip bytes, clears := coveredUnits f.locs, dev := f.dev, hops := hopsFor s f.locs, seq := seq }

/-- Queue a store of the agent (16 R358). -/
def pushWrite (sl : SliceId) (w : PWrite) : M Unit := modHart fun h => h.setBuf sl (h.buf sl ++ [w])

/-- The number under which a slice of a hart issues a store: that of the instruction at the head of the vector queue,
or the hart's own. -/
def Hart.storeSeq (h : Hart) : SliceId → Nat
  | .as => h.seq
  | .cs => (h.viq.head?.map (·.seq)).getD h.seq

/-- Issue a store of located bytes: D in its leaves, then the agent's buffer. -/
def issueStore (sl : SliceId) (f : Found) (bytes : List Byte) : M Unit := do
  f.markDirty
  pushWrite sl (storeOf (← get) f bytes ((← hartM).storeSeq sl))

/-- No instruction, or not the one with a given number, adds to the pending stores any more (19 R383). -/
def Hart.closeStores (h : Hart) (seq : Option Nat := none) : Hart :=
  { h with cbuf := h.cbuf.map fun w => { w with open_ := w.open_ && (seq.map fun n => w.seq != n).getD false } }

/-- The elements of a list that a list of marks names, or does not name. -/
def marked {α : Type} (b : Bool) (l : List α) (marks : List Bool) : List α :=
  ((l.zip marks).filter fun c => c.2 == b).map (·.1)

/-- Perform a hart's agent's pending stores at their homes, oldest first; those stay that are still open (19 R383) or wait
for a link (01 R31), and those behind them in order. -/
def drainBuf (s : State) (g h : Nat) (sl : SliceId) : State :=
  match findHart s g h with
  | none => s
  | some x =>
    let buf := x.buf sl
    let marks := staying sl [] buf
    let s := (marked false buf marks).foldl performWrite s
    mapHart s g h fun y => y.setBuf sl (marked true buf marks)

/-- Perform the executing hart's pending stores of an agent; wait while one of them has no link. -/
def drain (sl : SliceId) : M Unit := do
  let h ← hereM
  modHart fun h => h.closeStores
  modify fun s => drainBuf s h.gang h.hid sl
  if ((← hartM).buf sl).isEmpty then pure () else waitAt .link

/-- Read a found place in its order among DEV accesses (14 R304): the AS first performs its older stores where it lies on a
DEV page. -/
def readFound (sl : SliceId) (f : Found) (va : Nat) : M (List Byte) := do
  if f.dev && sl = .as then drain .as
  readLocs ((← hartM).buf sl) f.locs va

/-- Locate and read n bytes for the executing hart's agent. -/
def loadBytes (sl : SliceId) (va n : Nat) : M (List Byte) := do
  let h ← hereM
  readFound sl (← locate (hartXlat (← get) h.gang h.hid) .load va n) va

/-- Locate for a store, then issue it. -/
def storeBytes (sl : SliceId) (va : Nat) (bytes : List Byte) : M Unit := do
  let h ← hereM
  let f ← locate (hartXlat (← get) h.gang h.hid) .store va bytes.length
  issueStore sl f bytes

/-- Locate for the executing hart. -/
def locateHere (acc : Acc) (va n : Nat) (check : Bool := true) : M Found := do
  let h ← hereM
  locate (hartXlat (← get) h.gang h.hid) acc va n check

end Sys2Proof.Machine
end

