-- ==== Sys2Proof/Machine/Ops.lean ====
section
/-! DEFINITION. The shared operations of the scalar instructions: registers and program counters, waiting, taking a
trap and returning from one (07 R151 to R156, 09 R183, R186), rendezvous (11 R230), and the wrapper that ends an
instruction. -/

namespace Sys2Proof.Machine

/-- The result of a step of this model. -/
abbrev Result := Host.Outcome State Fault Refusal

/-! ### The executing processor -/

/-- A slice of a hart, or a survey core (09 R204). -/
inductive Cpu where
  | slice (h : Here)
  | survey (k : Nat)
  deriving DecidableEq, Repr

def cpu? (s : State) : Option Cpu :=
  match s.cur with
  | .survey k => if k < 4 then some (.survey k) else none
  | _ => (here? s).map .slice

def cpuM : M Cpu := do
  match cpu? (← get) with
  | some c => pure c
  | none => throw (.fault .noAgent)

def mapSurvey (s : State) (k : Nat) (f : Survey → Survey) : State :=
  { s with dev := { s.dev with surveys := s.dev.surveys.mapIdx fun j x => if j = k then f x else x } }

def surveyOf (s : State) (k : Nat) : Survey := (s.dev.surveys[k]?).getD Survey.reset

/-! ### Scalar registers (05 R97) -/

/-- Register r of a file: register 0 reads 0. -/
def fileGet (x : Vector Word 32) (r : RegField) : Word := if r = 0#5 then 0 else x[r.toNat]'r.isLt

/-- A file with register r written: a write of register 0 is discarded. -/
def fileSet (x : Vector Word 32) (r : RegField) (v : Word) : Vector Word 32 :=
  if r = 0#5 then x else x.set r.toNat v r.isLt

def Hart.getReg (h : Hart) (sl : SliceId) (r : RegField) : Word :=
  match sl with
  | .as => fileGet h.a r
  | .cs => fileGet h.c r

def Hart.setReg (h : Hart) (sl : SliceId) (r : RegField) (v : Word) : Hart :=
  match sl with
  | .as => { h with a := fileSet h.a r v }
  | .cs => { h with c := fileSet h.c r v }

/-- A scalar register of the executing processor. -/
def getX (r : RegField) : M Word := do
  match ← cpuM with
  | .slice h => pure ((← hartM).getReg h.sl r)
  | .survey k => pure (fileGet (surveyOf (← get) k).a r)

def setX (r : RegField) (v : Word) : M Unit := do
  match ← cpuM with
  | .slice h => modHart fun x => x.setReg h.sl r v
  | .survey k => modify fun s => mapSurvey s k fun x => { x with a := fileSet x.a r v }

/-! ### Program counters (09 R183) -/

def getPc : M Word := do
  match ← cpuM with
  | .slice h => pure ((← hartM).slice h.sl).pc
  | .survey k => pure (surveyOf (← get) k).pc

def Hart.setPc (h : Hart) (sl : SliceId) (pc : Word) : Hart := h.setSlice sl { h.slice sl with pc := pc }

def setPcM (pc : Word) : M Unit := do
  match ← cpuM with
  | .slice h => modHart fun x => x.setPc h.sl pc
  | .survey k => modify fun s => mapSurvey s k fun x => { x with pc := pc }

/-- Go on to the successor of an instruction of n bytes. -/
def advance (n : Nat) : M Unit := do
  let pc ← getPc
  setPcM (pc + BitVec.ofNat 64 n)

/-! ### Slice conditions, waiting harts (04 R94) -/

def other : SliceId → SliceId
  | .as => .cs
  | .cs => .as

def Hart.setCond (h : Hart) (sl : SliceId) (c : Cond) : Hart := h.setSlice sl { h.slice sl with cond := c }

/-- Conditions that make a slice waiting on their own. -/
def condOwn : Cond → Bool
  | .yielded => true
  | .waiting w =>
    match w with
    | .word => true
    | .cwait => true
    | .vsetg => true
    | .gwait => true
    | .coldText _ => true
    | .engine => true
    | .counter => true
    | _ => false
  | _ => false

/-- Conditions that only the other slice can clear (04 R94, 05 R105). -/
def condMutual : Cond → Bool
  | .waiting w =>
    match w with
    | .queue => true
    | .desc => true
    | .snext => true
    | .rendezvous _ => true
    | _ => false
  | _ => false

/-- A slice waits at a rendezvous. -/
def Cond.atRendezvous : Cond → Bool
  | .waiting (.rendezvous _) => true
  | _ => false

/-- Both slices of a hart wait only for each other, whatever its queue holds (05 R105). At one rendezvous they do not: each has
been reached by the other. -/
def Hart.mutual (h : Hart) : Bool :=
  h.mode == .active && !h.sysTrap && condMutual h.as_.cond && condMutual h.cs.cond
    && !(h.as_.cond.atRendezvous && h.cs.cond.atRendezvous)

def ypP (h : Hart) : Bool := h.ypend.getLsbD 63

/-- Conditions in which a slice has nothing to issue while the other one waits: those, and that of a slice stopped beside
a handler (R94). -/
def condIdle (c : Cond) : Bool := condOwn c || condMutual c || c == .stopped

/-- A hart is waiting (R94): by its slices, or because it is stopped for a trap's service or a save. A hart that has
executed `exit` counts with the waiting ones where all harts of a gang must wait (R83, log 139). -/
def Hart.isWaiting (h : Hart) : Bool :=
  let a := h.as_.cond
  let c := h.cs.cond
  h.sysTrap || h.mode == .saving || h.mode == .exited ||
    (condIdle a && condIdle c && (condOwn a || condOwn c))

/-- The save area of a hart: SAVE + (g × gsz + h) × SVST × 64 KiB (03 R65), when the record gives one. -/
def saveAreaOf (l : Launch) (g : Gang) (hid : Nat) : Option (Word × Nat) :=
  if l.record.save = 0 then none else
  let stride := bitsOf l.record.ctrl.toNat 16 16 * 65536
  let gsz := bitsOf l.record.ctrl.toNat 6 4 + 1
  let n := g.id % 2 ^ 32
  some (l.record.save + BitVec.ofNat 64 ((n * gsz + hid) * stride), stride)

/-- Give hart h of a gang its save record; with SAVE = 0 its owner must first provide an area (03 R65). -/
def openSave (s : State) (l : Launch) (x : Gang) (h : Nat) : State :=
  let area := saveAreaOf l x h
  let save : Save :=
    { base := (area.map (·.1)).getD 0, limit := (area.map (·.2)).getD 0, off := 0,
      st := if area.isSome then .writing else .needArea, done := false }
  let s := mapHart s x.id h fun y => { y with save := some save }
  if area.isSome then s
  else notify s 1 .saveArea [l.record.ids, BitVec.ofNat 64 (x.id % 2 ^ 32), BitVec.ofNat 64 h]

/-- Row moves begin at `zrow` (15 R335). -/
def VKind.rows : VKind → Bool
  | .zld | .zst => true
  | _ => false

/-- A row move that stops short at the queue head leaves its row in `zrow` (04 R90). -/
def Hart.keepRow (h : Hart) : Hart :=
  match h.viq with
  | e :: rest =>
    if e.kind.rows && e.begun && !e.resume then
      { h with zrow := BitVec.ofNat 64 e.idx, viq := { e with resume := true } :: rest }
    else h
  | [] => h

/-- It goes on from there (04 R90), and `zrow` is used up (15 R335). -/
def Hart.takeRow (h : Hart) : Hart :=
  match h.viq with
  | e :: rest =>
    if e.kind.rows && e.resume && !h.sysTrap then
      { h with zrow := 0, viq := { e with idx := h.zrow.toNat, resume := false } :: rest }
    else h
  | [] => h

/-- A hart stopped for its save. -/
def Hart.stopForSave (h : Hart) (coop : Bool) : Hart :=
  let h := h.keepRow
  { h with
    mode := .saving
    cbuf := h.closeStores.cbuf
    coop := coop
    as_ := { h.as_ with cond := if h.as_.cond = .yielded then .yielded else .stopped }
    cs := { h.cs with cond := if h.cs.cond = .yielded then .yielded else .stopped } }

/-- Open the area of hart 0 for the gang state once that hart has exited while another one of its gang is being saved
(04 R76). -/
def openGangArea (s : State) (g : Nat) : State :=
  match findGang s g, findLaunch s g with
  | some x, some l =>
    match x.harts.head? with
    | some y =>
      if y.mode = .exited && y.save.isNone && x.harts.any fun z => z.mode == .saving then openSave s l x 0 else s
    | none => s
  | _, _ => s

/-- Begin the save of a stopped hart (07 R165). Its issued stores are performed first (log 6). -/
def beginSave (s : State) (g h : Nat) (coop : Bool) : State :=
  let s := mapHart s g h fun y => y.stopForSave coop
  let s := drainBuf (drainBuf s g h .as) g h .cs
  match findGang s g, findLaunch s g with
  | some x, some l => openGangArea (openSave s l x h) g
  | _, _ => s

/-- A hart that a posted request saves at once (04 R91): it is waiting, or already stopped by debug (02 R47). -/
def Hart.stopsAtOnce (h : Hart) : Bool := ypP h && ((h.isWaiting && h.mode == .active) || h.mode == .debugHalt)

/-- A waiting or stopped hart whose gang has a request posted stops at once and its save begins (04 R91). -/
def stopIfWaiting (s : State) (g h : Nat) : State :=
  match findHart s g h with
  | some x => if x.stopsAtOnce then beginSave s g h true else s
  | none => s

/-! ### Forced stops (04 R90, R91) -/

/-- By how much `cycle` bits 47:0 have passed the deadline of a hart. -/
def pastDeadline (s : State) (h : Hart) : Nat := (s.cycle.toNat + 2 ^ 48 - bitsOf h.ypend.toNat 0 48) % 2 ^ 48

/-- `cycle` has reached the deadline of a hart. -/
def deadlineReached (s : State) (h : Hart) : Bool := ypP h && decide (pastDeadline s h < 2 ^ 47)

/-- `cycle` has gone past it: forced pre-emption has begun in an earlier cycle. -/
def deadlinePassed (s : State) (h : Hart) : Bool := deadlineReached s h && pastDeadline s h != 0

/-- Stop by force a hart that has not stopped; one that has yielded goes on draining. -/
def forceStop (s : State) (gang h : Nat) : State :=
  match findHart s gang h with
  | some x =>
    if (x.mode = .active || x.mode = .debugHalt) && deadlineReached s x then beginSave s gang h false else s
  | none => s

/-- The forced stop of a resident gang: of each hart that has not stopped yet. -/
def forceGang (s : State) (gang : Nat) : State :=
  match findGang s gang with
  | some g => if g.st = .resident then (List.range g.harts.length).foldl (fun s h => forceStop s gang h) s else s
  | none => s

/-! ### Taking a trap (07 R153) -/

/-- Causes that a hart may handle (R151). -/
def handled (cause : BitVec 8) : Bool :=
  match cause.toNat with
  | 0x01 | 0x02 | 0x04 | 0x05 | 0x0B | 0x10 | 0x11 | 0x14 | 0x15 | 0x16 | 0x18 | 0x1C => true
  | _ => false

/-- The duty whose owner a system trap goes to (R153); 8 stands for the survey firmware itself. -/
def trapDuty (cause : BitVec 8) : Nat :=
  match cause.toNat with
  | 0x08 | 0x09 | 0x0A => 0
  | 0x14 => 2
  | 0x1E => 7
  | _ => 8

def ecH (e : Word) : Bool := e.getLsbD 11

/-- `ecause` (R152). -/
def mkEcause (vdist : Nat) (h vq : Bool) (sl : SliceId) (cause : BitVec 8) : Word :=
  BitVec.ofNat 64 (vdist % 2 ^ 48 * 2 ^ 16 + h.toNat * 2 ^ 11 + vq.toNat * 2 ^ 9
    + (match sl with | .as => 0 | .cs => 1) * 2 ^ 8 + cause.toNat)

def Hart.handlerOn (h : Hart) : Bool := ecH h.tr.ecause

/-- Whether the trap runs a handler in the hart: its cause may, its `emask` bit is set and H = 0. -/
def Hart.takesInHart (h : Hart) (cause : BitVec 8) : Bool :=
  handled cause && h.tr.emask.getLsbD cause.toNat && !h.handlerOn

def Hart.evec (h : Hart) : SliceId → Word
  | .as => h.tr.evecA
  | .cs => h.tr.evecC

/-- The trapping instruction of the vector queue: its distance behind `epcc` in 2-byte units (R152). -/
def vdistOf (h : Hart) (vpc : Option Word) : Nat :=
  match vpc with
  | none => 0
  | some p => (h.cs.pc - p).toNat / 2

/-- The registers a trap writes. `both` also saves the other slice's pc in a hart-handled trap (RDVZ, QDEADLOCK). -/
def Hart.trapRegs (h : Hart) (sl : SliceId) (vpc : Option Word) (t : TrapInfo) (inHart both : Bool) : TrapRegs :=
  let saveA := !inHart || both || sl == .as
  let saveC := !inHart || both || sl == .cs
  { h.tr with
    ecause := mkEcause (vdistOf h vpc) (inHart || h.handlerOn) vpc.isSome sl t.cause
    epca := if saveA then h.as_.pc else h.tr.epca
    epcc := if saveC then h.cs.pc else h.tr.epcc
    eaddr := t.eaddr
    einfo := t.einfo
    took := if inHart then sl else h.tr.took }

/-- A hart after it takes a trap: the vector queue becomes the held queue (R153), except that a system trap met by
a handler leaves both queues in place (log 19). A trap while the hart drains is taken as if it had not yielded
(04 R89). -/
def Hart.takeTrap (h : Hart) (sl : SliceId) (vpc : Option Word) (t : TrapInfo) (both : Bool) : Hart :=
  let inHart := h.takesInHart t.cause
  let tr := h.trapRegs sl vpc t inHart both
  let hold := !h.handlerOn
  let h1 : Hart :=
    { h with
      tr := tr
      viq := if hold then [] else h.viq
      held := if hold then h.viq else h.held
      sysTrap := !inHart
      mode := if h.mode = .draining then .active else h.mode
      waitCount := 0
      as_ := { h.as_ with cond := .stopped }
      cs := { h.cs with cond := .stopped } }
  let h2 := h1.closeStores
  if inHart then (h2.setPc sl (h.evec sl)).setCond sl .running else h2

/-- `gix` and `hid` in one word of a notice (R155, log 138). -/
def hartWord (h : Hart) : Word := (h.gix &&& 0xFFFFFFFF#64) ||| h.hid <<< 32

/-- The notice of a system trap (R155). -/
def trapNotice (s : State) (g : Nat) (h : Hart) (t : TrapInfo) : State :=
  match findLaunch s g with
  | none => s
  | some l =>
    notify s (trapDuty t.cause) .trap
      ([l.record.ids &&& 0xFFFFFFFF00000000#64 ||| (ctxOwner l.ctx).setWidth 64, hartWord h,
        h.tr.ecause, h.tr.epca, h.tr.epcc, h.tr.eaddr, h.tr.einfo] ++ t.pages)

/-- Take a trap in slice sl of a hart (R153); `vpc` is the pc of the queued instruction that trapped, if one did. -/
def takeTrap (s : State) (g h : Nat) (sl : SliceId) (vpc : Option Word) (t : TrapInfo) (both : Bool := false) :
    State :=
  match findHart s g h with
  | none => s
  | some x =>
    let y := x.takeTrap sl vpc t both
    let s := mapHart s g h fun _ => y
    if y.sysTrap then stopIfWaiting (trapNotice s g y t) g h else s

/-- Take a trap on a survey core, which handles every cause itself, in the registers of an AS (log 12). -/
def Survey.takeTrap (x : Survey) (t : TrapInfo) : Survey :=
  { x with
    tr := { x.tr with ecause := mkEcause 0 true false .as t.cause, epca := x.pc, eaddr := t.eaddr, einfo := t.einfo, took := .as }
    pc := x.tr.evecA }

/-! ### Returning from a trap (07 R154) -/

/-- A stream register of a hart (05 R106). -/
def Hart.stream (h : Hart) (r : BitVec 5) : Stream := h.s[r.toNat % 16]'(Nat.mod_lt _ (by decide))
def Hart.setStream (h : Hart) (r : BitVec 5) (x : Stream) : Hart :=
  { h with s := h.s.set (r.toNat % 16) x (Nat.mod_lt _ (by decide)) }

/-- The streams whose positions a queued instruction reads or writes at. -/
def VEntry.streams (e : VEntry) : List (BitVec 5) :=
  match e.kind with
  | .vld | .vldff | .vldw | .vfill | .vld2 => [e.o.a]
  | .vst | .vspill => [e.o.d]
  | .vstp => [e.o.a, BitVec.ofNat 5 e.aux]
  | _ => []

/-- The siphon translates again for an instruction that resumes: no fault recorded earlier stands against its streams
(05 R110, log 134). -/
def Hart.retranslate (h : Hart) (e : VEntry) : Hart :=
  e.streams.foldl (fun h r => h.setStream r { h.stream r with dfault := none }) h

/-- The queued instruction that trapped resumes at `vstart` as it stands (R154); `vstart` is then used up (12 R253). A
row move resumes at `zrow` in the same manner (15 R335, log 32). -/
def resumeHead (h : Hart) (q : List VEntry) : Hart × List VEntry :=
  match q with
  | e :: rest =>
    if e.resume && e.kind.rows then
      ({ h with zrow := 0 }, { e with idx := h.zrow.toNat, resume := false } :: rest)
    else if e.resume then
      ({ h.retranslate e with vc := { h.vc with vstart := 0 } },
       { e with idx := h.vc.vstart.toNat, resume := false } :: rest)
    else (h, q)
  | [] => (h, [])

/-- What `eret` does once it may: H := 0, the slice goes on at its `epc`, the other slice restarts, and the held
queue goes back to the head of the vector queue. -/
def Hart.eret (h : Hart) (sl : SliceId) : Hart :=
  let (h1, q) := resumeHead h h.held
  let h2 : Hart :=
    { h1 with
      tr := { h1.tr with ecause := h1.tr.ecause &&& ~~~(0x800#64) }
      viq := q ++ h1.viq
      held := []
      as_ := { h1.as_ with cond := .running }
      cs := { h1.cs with cond := .running } }
  h2.setPc sl (match sl with | .as => h.tr.epca | .cs => h.tr.epcc)

/-- What a *resume* answer does: as `eret`, with H unchanged. With a handler running only its slice goes on, at its
`epc`, and its queue resumes in place (log 19). -/
def Hart.resume (h : Hart) : Hart :=
  if h.handlerOn then
    let (h1, q) := resumeHead h h.viq
    let h2 := ({ h1 with viq := q, sysTrap := false } : Hart).setCond h.tr.took .running
    h2.setPc h.tr.took (match h.tr.took with | .as => h.tr.epca | .cs => h.tr.epcc)
  else
    let (h1, q) := resumeHead h h.held
    let h2 : Hart :=
      { h1 with
        viq := q ++ h1.viq, held := [], sysTrap := false
        as_ := { h1.as_ with cond := .running }
        cs := { h1.cs with cond := .running } }
    (h2.setPc .as h.tr.epca).setPc .cs h.tr.epcc

/-! ### Fetching words (05 R96, 07 R142) -/

/-- Hold a fetched word: the 64 latest (log 9). -/
def fbufAdd (b : List (Word × TextWord)) (va : Word) (w : TextWord) : List (Word × TextWord) :=
  (b ++ [(va, w)]).drop (b.length + 1 - 64)

/-- The text word at a word-aligned address for a slice of the executing hart: from its fetch buffer, else fetched
from the home. It may lie anywhere that fetches reach, the other slice's part and the windows included (log 140). -/
def fetchWord (sl : SliceId) (va : Word) : M TextWord := do
  let h ← hartM
  match (h.slice sl).fbuf.find? fun c => c.1 == va with
  | some c => pure c.2
  | none =>
    let f ← locateHere .fetch va.toNat 4
    let bytes ← readLocs [] f.locs va.toNat
    let w : TextWord := BitVec.ofNat 32 (bytesToNat bytes)
    modHart fun h => h.setSlice sl { h.slice sl with fbuf := fbufAdd (h.slice sl).fbuf va w }
    pure w

/-- The frame of a word (09 R182). -/
def frameBits (w : TextWord) : Nat := w.toNat % 4

/-- The text word at an address, unless its fetch faults: a fetch fault is raised by the first instruction the slice
needs from there, not by the check that reads it (07 R149, 09 R186, log 129). A cold page stops the slice before the
branch (log 141). -/
def peekWord (sl : SliceId) (va : Word) : M (Option TextWord) := fun s =>
  match fetchWord sl va s with
  | .error (.trap _) s1 => .ok none s1
  | .error e s1 => .error e s1
  | .ok w s1 => .ok (some w) s1

/-- The target checks of R186, for a slice of the executing hart. -/
def checkTarget (sl : SliceId) (t : Word) : M Unit := do
  if t.toNat % 4 != 0 then trap cBADTGT t
  else if t.toNat % 8 != 4 then pure ()
  else do
    let w ← peekWord sl t
    let p ← peekWord sl (t - 4#64)
    if w.map frameBits = some 2 || p.map frameBits = some 2 then trap cBADTGT t else pure ()

/-- A survey core's text word (09 R204, log 12): of the firmware that boot loaded, else at a physical address of local
HBM. An address without a home traps PROT, poisoned text MCHK (01 R12). -/
def surveyWord (s : State) (pa : Word) : Except TrapInfo TextWord :=
  let base := s.dev.firmwareBase
  if base ≤ pa.toNat && pa.toNat + 4 ≤ base + s.dev.firmware.length then
    .ok (BitVec.ofNat 32 (bytesToNat ((s.dev.firmware.drop (pa.toNat - base)).take 4)))
  else
    match physLocs s pa.toNat 4 with
    | none => .error { cause := cPROT, eaddr := pa, einfo := Acc.fetch.code }
    | some locs =>
      if locs.any (poisoned s) then .error { cause := cMCHK, eaddr := pa }
      else .ok (BitVec.ofNat 32 (bytesToNat (homeRead s locs)))

/-- Whether a word of a survey core's text has frame 0b10. -/
def surveyLong (s : State) (pa : Word) : Bool :=
  match surveyWord s pa with
  | .ok w => frameBits w == 2
  | .error _ => false

/-- The same checks for the executing processor. -/
def checkTargetHere (t : Word) : M Unit := do
  match ← cpuM with
  | .slice h => checkTarget h.sl t
  | .survey _ => do
    let s ← get
    if t.toNat % 4 != 0 || (t.toNat % 8 = 4 && (surveyLong s t || surveyLong s (t - 4#64))) then trap cBADTGT t
    else pure ()

/-- The checks on the pc at which a survey core resumes (R186). -/
def checkSurveyResume (t : Word) : M Unit := do
  let s ← get
  if t.toNat % 4 = 2 then
    if (surveyWord s (t - 2#64)).toOption.all fun w => frameBits w = 1 then pure () else trap cBADTGT t
  else checkTargetHere t

/-- The checks on a resume pc (R186): bit 1 set must name slot 1 of a pair. -/
def checkResume (sl : SliceId) (t : Word) : M Unit := do
  if t.toNat % 4 = 2 then do
    let w ← peekWord sl (t - 2#64)
    if w.all fun w => frameBits w = 1 then pure () else trap cBADTGT t
  else checkTarget sl t

/-! ### Ending an instruction -/

/-- After an instruction has issued: the slice is not waiting, and the mutual-wait count is 0 (05 R105). -/
def Hart.issued (h : Hart) (sl : SliceId) : Hart :=
  let h := { h with waitCount := 0 }
  match (h.slice sl).cond with
  | .waiting _ => h.setCond sl .running
  | _ => h

/-- End an instruction of a processor from what its body answered. -/
def finish (c : Cpu) (r : EStateM.Result Stop State Unit) : Result :=
  match r, c with
  | .ok _ s, .slice h => .next (mapHart s h.gang h.hid fun x => x.issued h.sl)
  | .ok _ s, .survey _ => .next s
  | .error (.trap t) s, .slice h => .next (takeTrap s h.gang h.hid h.sl none t)
  | .error (.trap t) s, .survey k => .next (mapSurvey s k fun x => x.takeTrap t)
  | .error (.wait w) s, .slice h =>
    .next (stopIfWaiting (mapHart s h.gang h.hid fun x => x.setCond h.sl (.waiting w)) h.gang h.hid)
  | .error (.wait _) s, .survey _ => .next s
  | .error (.fault f) _, _ => .fault f
  | .error (.refuse r) _, _ => .refused r

/-- Which slices an instruction belongs to (05 R96), and whether a survey core executes it (09 R204). -/
structure Belongs where
  as_ : Bool
  cs : Bool
  survey : Bool
  deriving DecidableEq, Repr

def both : Belongs := ⟨true, true, true⟩
def bothHart : Belongs := ⟨true, true, false⟩
def asSurvey : Belongs := ⟨true, false, true⟩
def asOnly : Belongs := ⟨true, false, false⟩
def csOnly : Belongs := ⟨false, true, false⟩

def Belongs.admits (b : Belongs) : Cpu → Bool
  | .slice h => (match h.sl with | .as => b.as_ | .cs => b.cs)
  | .survey _ => b.survey

/-- Run the body of a scalar instruction: in a slice it does not belong to it traps ILLEGAL (R96). -/
def runScalar (b : Belongs) (body : M Unit) (s : State) : Result :=
  match cpu? s with
  | none => .fault .noAgent
  | some c => finish c ((if b.admits c then body else trap cILLEGAL) s)

/-! ### Rendezvous (11 R230) -/

/-- The condition of the executing hart's other slice. -/
def otherCond : M Cond := do
  let h ← hereM
  pure ((← hartM).slice (other h.sl)).cond

/-- Both slices go past their rendezvous instructions. -/
def bothAdvance : M Unit := modHart fun h =>
  { h with
    as_ := { h.as_ with pc := h.as_.pc + 4, cond := .running }
    cs := { h.cs with pc := h.cs.pc + 4, cond := .running } }

/-- A slice reaches the rendezvous fn10: it waits for the other, or both complete, or the AS takes RDVZ with the
CS's code. `complete` runs with both slices there; a trap of it is the AS's (08 R170). -/
def rendezvous (fn10 : Nat) (complete : M Unit) (s : State) : Result :=
  match cpu? s with
  | none => .fault .noAgent
  | some (.survey k) => finish (.survey k) (EStateM.Result.error (.trap { cause := cILLEGAL }) s)
  | some (.slice h) =>
    match findHart s h.gang h.hid with
    | none => .fault .noAgent
    | some x =>
      match (x.slice (other h.sl)).cond with
      | .waiting (.rendezvous f) =>
        if f = fn10 then
          match (do complete; bothAdvance : M Unit) s with
          | .error (.trap t) s => .next (takeTrap s h.gang h.hid .as none t)
          | r => finish (.slice h) r
        else
          let csFn := match h.sl with | .cs => fn10 | .as => f
          .next (takeTrap s h.gang h.hid .as none { cause := cRDVZ, einfo := BitVec.ofNat 64 csFn } true)
      | _ => finish (.slice h) (EStateM.Result.error (.wait (.rendezvous fn10)) s)

end Sys2Proof.Machine
end

