-- ==== Sys2Proof/Machine/Operands.lean ====
section
/-! DEFINITION. Operand forms: immediates (09 R188, R193), masks, elements of vector registers and scalar operands
(05 R115, 12 R256, R257, 13 R283), and the fields of `vfmt` (06 R123). -/

namespace Sys2Proof.Machine

/-! ### Immediates -/

/-- A sign-extended immediate. -/
def simm {n : Nat} (x : BitVec n) : Word := x.signExtend 64

/-- A branch offset in words (R188). -/
def wordOff {n : Nat} (x : BitVec n) : Word := x.signExtend 64 <<< 2

/-- The U immediate: SignExtend(imm20 × 4,096) from bit 31, or the 57-bit value of a prefixed form (R193, R238). -/
def uImm (x : BitVec 20) : Word := (x ++ 0#12).signExtend 64
def uImmLong (x : BitVec 45) : Word := (x ++ 0#12).signExtend 64

/-! ### Fields of `vfmt` -/

def vfFA (w : Word) : Fmt := bitsOf w.toNat 0 5
def vfFB (w : Word) : Fmt := bitsOf w.toNat 5 5
def vfFD (w : Word) : Fmt := bitsOf w.toNat 10 5
def vfRM (w : Word) : Rnd := bitsOf w.toNat 15 3
def vfSAT (w : Word) : Bool := w.getLsbD 18
def vfQ (w : Word) : Nat := bitsOf w.toNat 19 5
def vfSCALE (w : Word) : Int := signExt 8 (bitsOf w.toNat 24 8)

/-- A reserved code in `vfmt` (R124). -/
def vfmtReserved (w : Word) : Bool :=
  fmtReserved (vfFA w) || fmtReserved (vfFB w) || fmtReserved (vfFD w) || 4 ≤ vfRM w

/-! ### Vector length and registers -/

/-- VRLEN in bytes of a VRL class (03 R64). -/
def vrlenOf (ctrl : Word) : Nat := 4096 * 2 ^ bitsOf ctrl.toNat 3 3

/-- VRLEN of the executing hart. -/
def vrlenM : M Nat := do
  let h ← hereM
  pure (((findLaunch (← get) h.gang).map fun l => vrlenOf l.record.ctrl).getD 4096)

/-- VLMAX for a `vfmt` that holds no reserved code (05 R114). -/
def vlmax (vrlen : Nat) (vfmt : Word) : Nat :=
  let wmin := min (fmtMin (vfFA vfmt)) (min (fmtMin (vfFB vfmt)) (fmtMin (vfFD vfmt)))
  min 262144 (min (4 * vrlen) (8 * vrlen / wmin))

/-- The limit of the processing rule (12 R256). -/
def vlimit (vrlen vcap : Nat) : Nat := if vcap = 0 then 8 * vrlen else min vcap (8 * vrlen)

/-- Bits [lo + n - 1 : lo] of a number replaced. -/
def putBits (x lo n v : Nat) : Nat := x - (bitsOf x lo n <<< lo) + ((v % 2 ^ n) <<< lo)

def Hart.vreg (h : Hart) (r : BitVec 5) : VReg := h.v[r.toNat]'r.isLt
def Hart.setVreg (h : Hart) (r : BitVec 5) (x : VReg) : Hart := { h with v := h.v.set r.toNat x r.isLt }

/-- A register with its fill changed: bits at or above the fill are none of it, bits that come below it read 0. -/
def VReg.withFill (x : VReg) (fill : Nat) : VReg := { bits := x.bits % 2 ^ fill, fill := fill }

/-- Bit i of a mask; `m0` reads all ones (05 R97). -/
def Hart.maskBit (h : Hart) (r : Nat) (i : Nat) : Bool := if r = 0 then true else ((h.m[r]?).getD 0).testBit i

/-- A mask with one bit written; a write of `m0` is discarded. -/
def Hart.setMaskBit (h : Hart) (r i : Nat) (b : Bool) : Hart :=
  if r = 0 then h else { h with m := h.m.mapIdx fun j x => if j = r then putBits x i 1 b.toNat else x }

def Hart.setMask (h : Hart) (r x : Nat) : Hart :=
  if r = 0 then h else { h with m := h.m.mapIdx fun j y => if j = r then x else y }

/-! ### Elements (12 R257) -/

/-- The bit position k codes on from `pos`, found by scanning tier fields. -/
def scanCodes (f : Fmt) (bits : Nat) : Nat → Nat → Nat
  | 0, pos => pos
  | k + 1, pos => scanCodes f bits k (pos + codeLen f (bitsOf bits pos 2))

/-- ElemAt(v, k). -/
def elemAt (f : Fmt) (x : VReg) (k : Nat) : Nat :=
  if fmtCode f then scanCodes f x.bits k 0 else fmtWidth f * k

/-- The element at a bit position of a register: its pattern and length, when the register holds it. -/
def elemAtBit (f : Fmt) (x : VReg) (pos : Nat) : Option (Nat × Nat) :=
  if fmtCode f then
    let len := codeLen f (bitsOf x.bits pos 2)
    if pos + 2 ≤ x.fill && pos + len ≤ x.fill then some (bitsOf x.bits pos len, len) else none
  else
    let w := fmtWidth f
    if pos + w ≤ x.fill then some (bitsOf x.bits pos w, w) else none

/-- Element k of a register: its pattern and length, when the register holds it. -/
def elem (f : Fmt) (x : VReg) (k : Nat) : Option (Nat × Nat) :=
  if !fmtCode f && x.fill < fmtWidth f * (k + 1) then none
  else if fmtCode f && x.fill < fmtMin f * (k + 1) then none
  else elemAtBit f x (elemAt f x k)

/-- A reserved code traps RESCODE (06 R134); `off` is its bit offset, `src` 0 for source a and 1 for b. -/
def rescode (off src : Nat) : TrapInfo :=
  { cause := cRESCODE, einfo := BitVec.ofNat 64 (off % 2 ^ 48 + src * 2 ^ 48) }

/-- The value of a pattern (13 R283): Decode with SCALE for a code. -/
def patValue (f : Fmt) (scale : Int) (bits : Nat) : Val :=
  if fmtCode f then decodeCode f scale bits else decodeFixed f bits

/-- Whether a code pattern is reserved. -/
def patReserved (f : Fmt) (bits len : Nat) : Bool := fmtCode f && codeReserved f (bits % 4) (bitsOf bits 2 (len - 2))

/-- A source of an element-wise instruction. -/
inductive Src where
  | vec (r : BitVec 5)
  | scal (x : Word)
  deriving DecidableEq, Repr

/-- The value of a scalar operand in a format (13 R283): SCALE does not apply. -/
def scalarValue (f : Fmt) (x : Word) : Val :=
  if fmtJxi f then .int x.toInt
  else if f == 0x12 then .real (decodeF f32Fmt (x.toNat % 2 ^ 32))
  else if f == 0x13 then .real (decodeF f64Fmt x.toNat)
  else decodeFixed f x.toNat

/-- Element k of a source: its bits counted in a report, and its value or a trap. -/
def srcValue (h : Hart) (src : Src) (which : Nat) (f : Fmt) (scale : Int) (k : Nat) :
    Option (Nat × Except TrapInfo Val) :=
  match src with
  | .scal x => some (0, .ok (scalarValue f x))
  | .vec r =>
    let v := h.vreg r
    (elem f v k).map fun (bits, len) =>
      (len, if patReserved f bits len then .error (rescode (elemAt f v k) which) else .ok (patValue f scale bits))

/-- The raw pattern of element k of a fixed-format source. -/
def srcPattern (h : Hart) (src : Src) (f : Fmt) (k : Nat) : Option (Nat × Nat) :=
  match src with
  | .scal x => some (0, x.toNat % 2 ^ fmtWidth f)
  | .vec r => (elem f (h.vreg r) k).map fun (bits, len) => (len, bits)

/-- The b operand of a V word: a vector or the captured scalar. -/
def srcB (e : VEntry) : Src := if e.o.bs then .scal e.scal else .vec e.o.b

/-- A result bound for a destination format: its pattern and length (06 R130, R135, R137). -/
def encodeTo (vfmt : Word) (fd : Fmt) (x : Val) : Nat × Nat :=
  let rm := vfRM vfmt
  if fmtJxi fd then encodeInt fd (vfSAT vfmt) (intForCode rm x)
  else if fmtJxr fd then encodeReal fd (vfSCALE vfmt) (vfQ vfmt) rm x.toF
  else (convert x fd rm (vfSAT vfmt), fmtWidth fd)

/-- An integer result: bound for a real code it is first rounded to f32 or f64 under RM (13 R284). -/
def encodeIntTo (vfmt : Word) (fd : Fmt) (x : Int) : Nat × Nat :=
  if fmtJxr fd then
    let ff := if fd == 0x12 then f32Fmt else f64Fmt
    encodeTo vfmt fd (.real (rounded ff (vfRM vfmt) (fOfInt x)))
  else encodeTo vfmt fd (.int x)

end Sys2Proof.Machine
end

