-- ==== Sys2Proof/Machine/Regions.lean ====
section
/-! DEFINITION. Differentiable regions, the tape and accumulation windows, as loads and stores of either slice use
them (08 R168 to R181, 14 R323, 21 R389, R390), and indivisible updates at a home. -/

namespace Sys2Proof.Machine

/-! ### Catching an element's stop -/

/-- How a part of an instruction ended. -/
inductive Tried (α : Type) where
  | ok (a : α)
  | trap (t : TrapInfo)
  | wait (w : WaitAt)

/-- Run a part of an instruction, catching its trap or wait; the state reached is kept. -/
def attempt {α : Type} (x : M α) : M (Tried α) := fun s =>
  match x s with
  | .ok a s => .ok (.ok a) s
  | .error (.trap t) s => .ok (.trap t) s
  | .error (.wait w) s => .ok (.wait w) s
  | .error e s => .error e s

/-- Run a part, changing the trap it raises. -/
def mapTrap {α : Type} (f : TrapInfo → TrapInfo) (x : M α) : M α := fun s =>
  match x s with
  | .error (.trap t) s => .error (.trap (f t)) s
  | r => r

/-- The causes whose `einfo` has bit 63 (07 R151). -/
def memCause (c : BitVec 8) : Bool := c = cPGFAULT || c = cPROT || c = cATOMATTR || c = cMCHK

/-- A fault at an element reached through a stream position (05 R110). -/
def streamFault (t : TrapInfo) : TrapInfo :=
  if memCause t.cause then { t with einfo := t.einfo ||| 0x8000000000000000#64 } else t

/-! ### Indivisible updates -/

/-- A pending store of the agent that has a byte at one of these locations. -/
def pendingAt (buf : List PWrite) (locs : List Nat) : Bool :=
  buf.any fun w => w.cells.any fun c => locs.contains c.1

/-- One indivisible update of the number at a located place, at its home (14 R306): the agent's pending stores to the
same bytes are performed first, and all of them for the AS, whose stores keep their order. Answers the old number. -/
def homeUpdate (sl : SliceId) (l : Found) (va : Nat) (f : Nat → Nat) : M Nat := do
  let h ← hartM
  if sl = .as || pendingAt (h.buf sl) l.locs then drain sl
  let old ← readLocs [] l.locs va
  let v := bytesToNat old
  l.markDirty
  modify fun s => homeWrite s l.locs (natToBytes (f v) l.locs.length)
  pure v

/-- Locate an access of n bytes on pages that must have no DEV: the first page's grants, then DEV there, then what else the
access meets, a second page with DEV at its first byte (07 R159, 11 R229, 14 R306, R321). -/
def noDevLocate (va n : Nat) (acc : Acc := .atomic) : M Found := do
  let bad {α : Type} : M α := trap cPROT (BitVec.ofNat 64 va) acc.code
  if canonical va && !inWindowSpan va then
    let here ← hereM
    let e ← pageLeaf (hartXlat (← get) here.gang here.hid) acc true va va
    if pteDEV e.pte then bad
  let l ← locateHere acc va n
  if l.dev then trap cPROT (BitVec.ofNat 64 (va + min n (65536 - va % 65536))) acc.code else pure l

/-- The same after the alignment check of R306. -/
def atomicLocate (va n : Nat) : M Found := do
  if va % n != 0 then trap cPROT (BitVec.ofNat 64 va) Acc.atomic.code
  noDevLocate va n

/-- f32 addition with RNE on patterns. -/
def addF32 (x y : Nat) : Nat := roundF f32Fmt 0 (fAdd 0 (decodeF f32Fmt x) (decodeF f32Fmt y))

/-! ### The region table (R169, R171) -/

def Region.valid (r : Region) : Bool := r.ctl.getLsbD 63
def Region.tape (r : Region) : Bool := r.ctl.getLsbD 62
def Region.acc (r : Region) : Nat := bitsOf r.ctl.toNat 60 2
def Region.fmt (r : Region) : Fmt := bitsOf r.ctl.toNat 55 5
def Region.len (r : Region) : Nat := bitsOf r.ctl.toNat 0 48
def Region.wfirst (r : Region) : Nat := bitsOf r.win.toNat 0 48
/-- The element size of a primal format. -/
def Region.size (r : Region) : Nat := if r.fmt == 0x0D then 4 else 2
def Region.primalEnd (r : Region) : Nat := r.pbase.toNat + r.len * r.size

/-- Mode of the hart (R172): 0 off, 1 fwd, 2 rev. -/
def Hart.adjMode (h : Hart) : Nat := h.tp.adjm.toNat

/-- The region that an access of n bytes touches, with its index. -/
def Hart.region (h : Hart) (va n : Nat) : Option (Nat × Region) :=
  match h.tp.table with
  | none => none
  | some t => (t.zipIdx.find? fun (r, _) => r.valid && va < r.primalEnd && r.pbase.toNat < va + n).map fun (r, i) => (i, r)

/-- The region an access touches while the mode is not off. -/
def Hart.touches (h : Hart) (va n : Nat) : Option (Nat × Region) := if h.adjMode = 0 then none else h.region va n

/-- The element index of an address in a region. -/
def Region.index (r : Region) (va : Nat) : Nat := (va - r.pbase.toNat) / r.size

/-- The checks of R171: the width or format must match, and the element must not straddle the range. `eaddr` is the
element's first byte (log 23). -/
def regionCheck (r : Region) (acc : Acc) (va n : Nat) (fmt : Option Fmt) : M Unit :=
  let same := match fmt with
    | some f => f == r.fmt
    | none => n == r.size
  if same && r.pbase.toNat ≤ va && va + n ≤ r.primalEnd then pure ()
  else trap cPROT (BitVec.ofNat 64 va) acc.code

/-- An atomic aimed at a primal range traps PROT (R171). -/
def atomicRegionCheck (va n : Nat) (acc : Acc) : M Unit := do
  let h ← hartM
  match h.touches va n with
  | none => pure ()
  | some _ => trap cPROT (BitVec.ofNat 64 va) acc.code

/-- One load of n bytes of the AS, of another width than any element of a region (14 R308, 15 R341). -/
def wideLoad (va n : Nat) : M (List Byte) := do
  let f ← locateHere .load va n
  match (← hartM).touches va n with
  | some (_, r) => regionCheck r .load va n none
  | none => pure ()
  readFound .as f va

/-- Refuse a DEV page for a store found at va: the fault is at the first byte on such a page (07 R159, R162). -/
def refuseDevAt (va n : Nat) (l : Found) : M Unit := do
  if l.dev then
    let first := min n (65536 - va % 65536)
    let dev1 ← if first < n then (do pure (← locateHere .store va first).dev) else pure true
    trap cPROT (BitVec.ofNat 64 (if dev1 then va else va + first)) Acc.store.code

/-! ### Stores of one vector instruction to one unit (19 R383) -/

/-- A store of one instruction added to the pending ones: the cells of one 32-byte unit of local HBM join the instruction's
request to that unit that is still open, or begin one (19 R383). -/
def mergeStore (buf : List PWrite) (w : PWrite) : List PWrite :=
  let put (buf : List PWrite) (c : Nat × Byte) : List PWrite :=
    let same (x : PWrite) : Bool := x.open_ && x.seq == w.seq && x.cells.any fun y => y.1 / 32 == c.1 / 32
    if buf.any same then
      buf.map fun x => if same x then
        let cells := x.cells ++ [c]
        { x with cells := cells, clears := coveredUnits (cells.map (·.1)), dev := x.dev || w.dev } else x
    else buf ++ [{ w with cells := [c], clears := [], open_ := true }]
  if w.cells.all fun x => isHbm x.1 then w.cells.foldl put buf else buf ++ [w]

/-- Issue the bytes of an element or a run of an agent at a place found before; with `merge` they join the requests of the
vector instruction. -/
def queueCellsOf (sl : SliceId) (merge : Bool) (l : Found) (bytes : List Byte) : M Unit := do
  if merge then
    l.markDirty
    let w := storeOf (← get) l bytes ((← hartM).storeSeq sl)
    modHart fun h => h.setBuf sl (mergeStore (h.buf sl) w)
  else issueStore sl l bytes

/-! ### The tape (R175, R176, R179) -/

/-- Bytes of a record of n overwritten bytes. -/
def recordSize (n : Nat) : Nat := 16 + 8 * ceilDiv n 8

/-- The bytes of a record. -/
def recordBytes (addr n region : Nat) (old : List Byte) : List Byte :=
  natToBytes addr 8 ++ natToBytes (n + region * 2 ^ 32) 8 ++ old ++ List.replicate (recordSize n - 16 - n) 0

def setTapeh (x : Nat) : M Unit :=
  modHart fun h => { h with tp := { h.tp with tapeh := BitVec.ofNat 64 x } }

/-- Push a record for a run (R176): every check first, then the record, visible before any byte of the run. Answers
the run's location. -/
def tapePush (sl : SliceId) (region addr n : Nat) : M Found := do
  let h ← hartM
  let size := recordSize n
  let top := h.tp.tapeh.toNat
  if h.tp.tapel.toNat < top + size then trap cTAPEFULL (BitVec.ofNat 64 addr) else
  let f ← locateHere .store addr n
  let t ← locateHere .store top size
  if sl = .as || pendingAt (← hartM).cbuf t.locs then drain sl
  let old ← readFound sl f addr
  t.markDirty
  modify fun s => homeWrite s t.locs (recordBytes addr n region old)
  setTapeh (top + size)
  pure f

/-- Pop the record of a run, read and clear its adjoint cells and restore the primal bytes (R179): every check first.
A record that would begin below `tapeb` is none of the tape (log 24). With `merge` the primal bytes join the vector
instruction's requests. Answers the cells. -/
def tapePop (sl : SliceId) (merge : Bool) (r : Region) (addr n k count : Nat) : M (List Nat) := do
  let h ← hartM
  let size := recordSize n
  let top := h.tp.tapeh.toNat
  let base := h.tp.tapeb.toNat
  if top = base || top < base + size then trap cTAPEMIS (BitVec.ofNat 64 addr) else
  let t ← locateHere .load (top - size) size
  let rec_ ← readFound sl t (top - size)
  if bytesToNat (rec_.take 8) != addr || bytesToNat ((rec_.drop 8).take 4) != n then
    trap cTAPEMIS (BitVec.ofNat 64 addr)
  else
    let cells := r.adjbase.toNat + 4 * k
    let _ ← locateHere .load cells (4 * count)
    let c ← locateHere .store cells (4 * count)
    let f ← locateHere .store addr n
    let old ← readFound sl c cells
    issueStore sl c (List.replicate (4 * count) 0)
    queueCellsOf sl merge f ((rec_.drop 16).take n)
    setTapeh (top - size)
    pure ((List.range count).map fun j => bytesToNat ((old.drop (4 * j)).take 4))

/-! ### Windows (14 R323) and reverse additions (R178) -/

def Hart.window (h : Hart) (w : Nat) : Option Window := (h.windows.find? fun x => x.1 == w).map (·.2)

/-- The address of copy(lane, c). -/
def copyVa (w : Window) (lane c : Nat) : Nat := Config.tcmBase + w.first * Config.tcmBlock + 256 * c + 4 * lane

/-- Update one lane copy (21 R390). -/
def copyUpdate (sl : SliceId) (w : Window) (lane c : Nat) (f : Nat → Nat) : M Unit := do
  let va := copyVa w lane c
  let l ← locateHere .store va 4
  let _ ← homeUpdate sl l va f

/-- Add the f32 pattern x into the adjoint cell of element k of region i (R178). -/
def accumulate (sl : SliceId) (i : Nat) (r : Region) (va k lane x : Nat) : M Unit := do
  if r.acc = 0 then do
    let cell := r.adjbase.toNat + 4 * k
    let l ← locateHere .atomic cell 4
    let _ ← homeUpdate sl l cell fun old => addF32 old x
  else
    match (← hartM).window i with
    | none => trap cWINRANGE (BitVec.ofNat 64 va)
    | some w =>
      if k < r.wfirst || w.cells ≤ k - r.wfirst then trap cWINRANGE (BitVec.ofNat 64 va)
      else copyUpdate sl w lane (k - r.wfirst) fun old => addF32 old x

end Sys2Proof.Machine
end

