-- ==== Sys2Proof/Machine/Flags.lean ====
section
/-! DEFINITION. The report registers and `vstat` (12 R254, R255, R259). -/

namespace Sys2Proof.Machine

/-- `vstat` after a vector instruction completes or traps: ILL is kept (R254). -/
def vstatAfter (old : Word) (half fault short full : Bool) : Word :=
  (old &&& 8#64) ||| BitVec.ofNat 64 (half.toNat * 16 + fault.toNat * 4 + short.toNat * 2 + full.toNat)

/-- `vstat.ILL` as `vsetl` and `vsetg` leave it (R254). -/
def vstatIll (old : Word) (ill : Bool) : Word := (old &&& ~~~(8#64)) ||| BitVec.ofNat 64 (ill.toNat * 8)

/-- The report registers from an entry's counts (R255, R259). -/
def VCtl.report (c : VCtl) (e : VEntry) (vcont : Nat) (half fault short full : Bool) : VCtl :=
  { c with
    gn := BitVec.ofNat 64 e.gn
    gbd := BitVec.ofNat 64 e.gbd
    gba := BitVec.ofNat 64 e.gba
    gbb := BitVec.ofNat 64 e.gbb
    vcont := BitVec.ofNat 64 vcont
    vstat := vstatAfter c.vstat half fault short full }

/-- The report of a trap at the entry's index: `vstart` and `vcont` name it (R259). -/
def VCtl.trapReport (c : VCtl) (e : VEntry) : VCtl :=
  { c.report e e.idx e.half true false false with vstart := BitVec.ofNat 64 e.idx }

end Sys2Proof.Machine
end

