-- ==== Sys2Proof/Machine/VLoop.lean ====
section
/-! DEFINITION. How a queued vector instruction runs: its ends, format classes (13 R282), and the processing rule of
12 R256 to R259 as a loop over element indices. -/

namespace Sys2Proof.Machine

/-- How a queued instruction leaves the queue head. -/
inductive VEnd where
  /-- It completes with a report (12 R259). -/
  | done (vcont : Nat) (short full : Bool)
  /-- It completes and writes no report: a queue marker (12 R253). -/
  | quiet
  /-- It traps at its index: `vstart` and a partial report (12 R259). -/
  | trap (t : TrapInfo)
  /-- It traps at a row, with a report and `vstart` unchanged (15 R335). -/
  | rowTrap (t : TrapInfo)
  /-- It traps with nothing done and no report (06 R124, 12 R262, 08 R180). -/
  | headTrap (t : TrapInfo)
  /-- It stays at the queue head (14 R316). -/
  | wait (w : WaitAt)
  /-- It stops at an element-group boundary short of its end, as far as its turn goes (04 R90). -/
  | pause
  deriving DecidableEq, Repr

/-- The trap an end raises. -/
def VEnd.trap? : VEnd → Option TrapInfo
  | .trap t => some t
  | .rowTrap t => some t
  | .headTrap t => some t
  | _ => none

/-- What an instruction does at the queue head. -/
abbrev VBody := VEntry → M (VEntry × VEnd)

def illfmt : TrapInfo := { cause := cILLFMT }

/-- The index at which a loop up to `stop` leaves off: short of it where the entry's turn ends there (04 R90). -/
def VEntry.upTo (e : VEntry) (stop : Nat) : Nat := min stop (e.until_.getD stop)

/-- How a loop up to `upTo stop` ended that would have completed at `stop`. -/
def VEnd.within (r : VEnd) (e : VEntry) (stop : Nat) : VEnd :=
  if r = .done 0 false false && decide (e.idx < stop) then .pause else r

/-- Bodies that only touch the hart's registers. -/
def pureBody (f : Nat → Hart → VEntry → Hart × VEntry × VEnd) : VBody := fun e => do
  let vrlen ← vrlenM
  let h ← hartM
  let (h', e', r) := f vrlen h e
  modHart fun _ => h'
  pure (e', r)

/-! ### Format classes (13 R282) -/

inductive Cls where
  | I | L | S | N | W | B | X | F | C
  deriving DecidableEq, Repr

def intOrJxi (f : Fmt) : Bool := fmtInteger f || fmtJxi f

/-- Whether fa, fb (when read) and fd (when read) meet a class. Reserved codes are excluded before (R124). -/
def clsOk (c : Cls) (fa fb fd : Fmt) (rb rd : Bool) : Bool :=
  let useB (p : Bool) : Bool := !rb || p
  let useD (p : Bool) : Bool := !rd || p
  match c with
  | .I => intOrJxi fa && useB (intOrJxi fb) && useD (!fmtB1 fd)
  | .L =>
    (intOrJxi fa || fmtB1 fa) && useB (intOrJxi fb || fmtB1 fb)
      && useD (!fmtB1 fd || (fmtB1 fa && useB (fmtB1 fb)))
  | .S => intOrJxi fa && useB (intOrJxi fb) && useD (intOrJxi fd)
  | .N => fmtInteger fa && useB (fmtInteger fb) && useD (fmtInteger fd)
  | .W =>
    let w := max (fmtWidth fa) (fmtWidth fb)
    fmtInteger fa && fmtInteger fb && fmtInteger fd && w ≤ 32 && 2 * w ≤ fmtWidth fd
  | .B => fmtInteger fa && useB (intOrJxi fb) && useD (!fmtB1 fd)
  | .X => useB (fb == fa) && useD (fd == fa)
  | .F => !fmtB1 fa && useB (!fmtB1 fb) && useD (!fmtB1 fd)
  | .C => (intOrJxi fa || fmtB1 fa) && useB (intOrJxi fb || (fmtB1 fb && fmtB1 fa))

/-- R261: a code fd whose register is also a code-format source. -/
def codeOverlap (o : VOps) (fa fb fd : Fmt) (readsA readsB : Bool) : Bool :=
  fmtCode fd && ((readsA && o.d == o.a && fmtCode fa) || (readsB && !o.bs && o.d == o.b && fmtCode fb))

/-! ### The processing rule (12 R256) -/

/-- What index i gives: none when a source lacks its element; else the bits read of a and b, and the pattern and
length for the destination, looked at only when the index is active. -/
abbrev Comp := Hart → VEntry → Nat → Option (Nat × Nat × Except TrapInfo (Nat × Nat))

/-- Where the destination of an entry stands: fd and the length of its zero code. -/
def entryFd (e : VEntry) : Fmt := vfFD e.vfmt

/-- The destination's fill as R258 sets it, within the limit that no instruction raises a fill above (05 R115, log 20). -/
def destFill (fd : Fmt) (limit : Nat) (x : VReg) (e : VEntry) : Nat :=
  if fmtCode fd then e.p else max x.fill (min (fmtWidth fd * e.idx) limit)

/-- Set the destination's fill at a stop, a completion or a trap. -/
def closeDest (fd : Fmt) (limit : Nat) (h : Hart) (e : VEntry) : Hart :=
  let x := h.vreg e.o.d
  h.setVreg e.o.d (x.withFill (destFill fd limit x e))

/-- Append a code, or write an element of a fixed destination. Nothing is visible above the fill until it is set. -/
def writeElem (fd : Fmt) (h : Hart) (e : VEntry) (c len : Nat) : Hart × VEntry :=
  let x := h.vreg e.o.d
  if fmtCode fd then
    (h.setVreg e.o.d { x with bits := putBits x.bits e.p len c }, { e with p := e.p + len, gbd := e.gbd + len })
  else
    (h.setVreg e.o.d { x with bits := putBits x.bits (len * e.idx) len c }, { e with gbd := e.gbd + len })

/-- Count one processed index. -/
def countIdx (e : VEntry) (ga gb : Nat) : VEntry :=
  { e with idx := e.idx + 1, gn := e.gn + 1, gba := e.gba + ga, gbb := e.gbb + gb }

/-- Which indices are active. -/
abbrev Gov := Hart → VEntry → Nat → Bool

/-- The processing rule from the entry's index on; `n` indices are left. -/
def ewLoop (fd : Fmt) (limit : Nat) (gov : Gov) (comp : Comp) : Nat → Hart → VEntry → Hart × VEntry × VEnd
  | 0, h, e => (h, e, .done 0 false false)
  | n + 1, h, e =>
    match comp h e e.idx with
    | none => (h, e, .done e.idx true false)
    | some (ga, gb, res) =>
      let act := gov h e e.idx
      if fmtCode fd then
        match (if act then res else .ok (0, zeroCodeLen fd)) with
        | .error t => (h, e, .trap t)
        | .ok (c, len) =>
          if limit < e.p + len then (h, e, .done e.idx false true)
          else
            let (h, e) := writeElem fd h e c len
            ewLoop fd limit gov comp n h (countIdx e ga gb)
      else if limit < fmtWidth fd * (e.idx + 1) then (h, e, .done e.idx false true)
      else if act then
        match res with
        | .error t => (h, e, .trap t)
        | .ok (c, _) =>
          let (h, e) := writeElem fd h e c (fmtWidth fd)
          ewLoop fd limit gov comp n h (countIdx e ga gb)
      else ewLoop fd limit gov comp n h (countIdx e ga gb)

/-- Set the append position: 0 for a code destination at a fresh start from index 0, else the fill (R256). -/
def openDest (fd : Fmt) (h : Hart) (e : VEntry) : VEntry :=
  { e with p := if fmtCode fd && (e.begun || e.start != 0) then (h.vreg e.o.d).fill else 0, begun := true }

/-- An element-wise instruction under R256 with destination format fd, for indices below `stop`. -/
def elementWise (fd : Fmt) (gov : Gov) (comp : Comp) (stop : Nat) (vrlen : Nat) (h : Hart) (e : VEntry) :
    Hart × VEntry × VEnd :=
  let limit := vlimit vrlen e.vcap
  let e := openDest fd h e
  let (h, e, r) := ewLoop fd limit gov comp (e.upTo stop - e.idx) h e
  (closeDest fd limit h e, e, r.within e stop)

/-- The mask field as a governing mask. -/
def govMask : Gov := fun h e i => h.maskBit e.o.m.toNat i

/-- Every index is active. -/
def govAll : Gov := fun _ _ _ => true

/-- The checks at the queue head, made when an instruction begins: a reserved code in `vfmt` (R124), then the
entry's own format conditions (R261, R262). -/
def headChecks (ok : Bool) (run : Nat → Hart → VEntry → Hart × VEntry × VEnd) (vrlen : Nat) (h : Hart) (e : VEntry) :
    Hart × VEntry × VEnd :=
  if !e.begun && (vfmtReserved e.vfmt || !ok) then (h, e, .headTrap illfmt) else run vrlen h e

end Sys2Proof.Machine
end

