-- ==== Sys2Proof/Machine/VArith.lean ====
section
/-! DEFINITION. Queue-head bodies of majors 17 to 20 and 22: integer, floating, compare, mask, reduction, scan and index
instructions (13 R281 to R301). -/

namespace Sys2Proof.Machine

/-! ### Reading elements (13 R283) -/

/-- A value as the 64-bit word of R283 step 1. -/
def Val.word : Val → Word
  | .int x => wordOfInt x
  | .real _ => 0

/-- How an integer instruction reads an element. -/
inductive Rd where
  | word      -- step 1
  | pattern   -- step 3: zero-extended from its width; a jxi element is its word
  deriving DecidableEq, Repr

/-- Element k of a source as a word. -/
def readWord (h : Hart) (e : VEntry) (src : Src) (which : Nat) (f : Fmt) (rd : Rd) (k : Nat) :
    Option (Nat × Except TrapInfo Word) :=
  if rd == .pattern && !fmtJxi f then
    (srcPattern h src f k).map fun (n, p) => (n, .ok (BitVec.ofNat 64 p))
  else (srcValue h src which f (vfSCALE e.vfmt) k).map fun (n, v) => (n, v.map Val.word)

/-- The value of a source element at a working precision, rounded to it under RM (06 R138). -/
def wpValue (vfmt : Word) (wp : FloatFmt) (v : Val) : FVal := rounded wp (vfRM vfmt) v.toF

/-- f64 when a format the instruction reads is f64, else f32 (R283 step 4). -/
def wpOf (fs : List Fmt) : FloatFmt := if fs.contains 0x0E then f64Fmt else f32Fmt

/-- The accumulator: element i of vd in format fd, when vd holds it (R285). -/
def accPattern (h : Hart) (e : VEntry) (i : Nat) : Option Nat :=
  let fd := vfFD e.vfmt
  (elem fd (h.vreg e.o.d) i).map (·.1)

/-! ### Integer element-wise instructions (13 R284, R286, R287) -/

/-- Result kinds: read signed, read unsigned, or exact. -/
inductive Kind where
  | S | U | E
  deriving DecidableEq, Repr

/-- An integer result as Convert receives it. -/
def kindInt (k : Kind) (x : Int) : Int :=
  match k with
  | .S => (wordOfInt x).toInt
  | .U => ((wordOfInt x).toNat : Int)
  | .E => x

/-- Binary integer instructions: `f` takes the words of a and b. -/
def intBinary (cls : Cls) (rda rdb : Rd) (kind : Kind) (f : Fmt → Word → Word → Int) : VBody := pureBody
  fun vrlen h e =>
    let fa := vfFA e.vfmt
    let fb := vfFB e.vfmt
    let fd := vfFD e.vfmt
    let comp : Comp := fun h e i =>
      match readWord h e (.vec e.o.a) 0 fa rda i, readWord h e (srcB e) 1 fb rdb i with
      | some (ga, a), some (gb, b) =>
        some (ga, gb, a.bind fun a => b.map fun b => encodeIntTo e.vfmt fd (kindInt kind (f fd a b)))
      | _, _ => none
    headChecks (clsOk cls fa fb fd true true && !codeOverlap e.o fa fb fd true true)
      (elementWise fd govMask comp e.vl) vrlen h e

/-- Unary integer instructions. -/
def intUnary (cls : Cls) (rda : Rd) (kind : Kind) (f : Fmt → Word → Int) : VBody := pureBody
  fun vrlen h e =>
    let fa := vfFA e.vfmt
    let fd := vfFD e.vfmt
    let comp : Comp := fun h e i =>
      (readWord h e (.vec e.o.a) 0 fa rda i).map fun (ga, a) =>
        (ga, 0, a.map fun a => encodeIntTo e.vfmt fd (kindInt kind (f fa a)))
    headChecks (clsOk cls fa 0 fd false true && !codeOverlap e.o fa 0 fd true false)
      (elementWise fd govMask comp e.vl) vrlen h e

/-- `vmac` (R285). -/
def bodyVmac : VBody := pureBody fun vrlen h e =>
  let fa := vfFA e.vfmt
  let fb := vfFB e.vfmt
  let fd := vfFD e.vfmt
  let comp : Comp := fun h e i =>
    match readWord h e (.vec e.o.a) 0 fa .word i, readWord h e (srcB e) 1 fb .word i, accPattern h e i with
    | some (ga, a), some (gb, b), some c =>
      some (ga, gb, a.bind fun a => b.map fun b =>
        if fmtFloat fd then
          encodeTo e.vfmt fd (.real (fAdd (vfRM e.vfmt) (fOfInt (a * b).toInt) (decodeF (floatFmt fd) c)))
        else encodeIntTo e.vfmt fd (a * b + (decodeFixed fd c).word).toInt)
    | _, _, _ => none
  headChecks (clsOk .I fa fb fd true true && fmtFixed fd) (elementWise fd govMask comp e.vl) vrlen h e

/-- `vwmul` and `vwmac`: pairs of source elements (R289). -/
def pairBody (acc : Bool) : VBody := pureBody fun vrlen h e =>
  let fa := vfFA e.vfmt
  let fb := vfFB e.vfmt
  let fd := vfFD e.vfmt
  let int (v : Except TrapInfo Val) : Int := match v with
    | .ok (.int x) => x
    | _ => 0
  let comp : Comp := fun h e i =>
    let src (k : Nat) := srcValue h (.vec e.o.a) 0 fa 0 k
    let srb (k : Nat) := srcValue h (srcB e) 1 fb 0 k
    match src (2 * i), src (2 * i + 1), srb (2 * i), srb (2 * i + 1), (if acc then accPattern h e i else some 0) with
    | some (g0, a0), some (g1, a1), some (k0, b0), some (k1, b1), some c =>
      let c := if acc then (decodeFixed fd c).word.toInt else 0
      some (g0 + g1, k0 + k1, .ok (encodeIntTo e.vfmt fd (int a0 * int b0 + int a1 * int b1 + c)))
    | _, _, _, _, _ => none
  headChecks (clsOk .W fa fb fd true true) (elementWise fd govMask comp e.vl) vrlen h e

def bodyVwmul : VBody := pairBody false
def bodyVwmac : VBody := pairBody true

/-- Element i of a bit-exact source: its pattern and length. -/
def rawElem (h : Hart) (f : Fmt) (r : BitVec 5) (k : Nat) : Option (Nat × Nat) := elem f (h.vreg r) k

/-- `vsel`: m selects (R286). -/
def bodyVsel : VBody := pureBody fun vrlen h e =>
  let fa := vfFA e.vfmt
  let fb := vfFB e.vfmt
  let fd := vfFD e.vfmt
  let comp : Comp := fun h e i =>
    let b : Option (Nat × (Nat × Nat)) :=
      match srcB e with
      | .scal x =>
        some (0, if fmtCode fd then encodeTo e.vfmt fd (scalarValue fb x) else (x.toNat % 2 ^ fmtWidth fb, fmtWidth fb))
      | .vec r => (rawElem h fb r i).map fun p => (p.2, p)
    match rawElem h fa e.o.a i, b with
    | some pa, some (gb, pb) => some (pa.2, gb, .ok (if h.maskBit e.o.m.toNat i then pa else pb))
    | _, _ => none
  headChecks (clsOk .X fa fb fd true true && !codeOverlap e.o fa fb fd true true)
    (elementWise fd govAll comp e.vl) vrlen h e

/-- `vmov` (R287). -/
def bodyVmov : VBody := pureBody fun vrlen h e =>
  let fa := vfFA e.vfmt
  let fd := vfFD e.vfmt
  let comp : Comp := fun h e i => (rawElem h fa e.o.a i).map fun p => (p.2, 0, .ok p)
  headChecks (clsOk .X fa 0 fd false true && !codeOverlap e.o fa 0 fd true false)
    (elementWise fd govMask comp e.vl) vrlen h e

/-- `bext` of R235 on a number. -/
def bextNat (x pos len : Nat) : Nat := (if pos < 64 then x >>> pos else 0) % 2 ^ min len 64

/-- Signed and unsigned division of R139. -/
def divS (a b : Word) : Int :=
  if b = 0 then -1 else if a.toInt = -(2 ^ 63 : Int) && b.toInt = -1 then a.toInt else a.toInt.tdiv b.toInt
def remS (a b : Word) : Int := if b = 0 then a.toInt else a.toInt.tmod b.toInt
def divU (a b : Word) : Int := if b = 0 then ((2 ^ 64 - 1 : Nat) : Int) else ((a.toNat / b.toNat : Nat) : Int)
def remU (a b : Word) : Int := if b = 0 then (a.toNat : Int) else ((a.toNat % b.toNat : Nat) : Int)

def leadZeros (w x : Nat) : Nat := if x = 0 then w else w - 1 - x.log2

def shiftOf (b : Word) : Nat := b.toNat % 64

def bodyVadd : VBody := intBinary .I .word .word .S fun _ a b => (a + b).toInt
def bodyVsub : VBody := intBinary .I .word .word .S fun _ a b => (a - b).toInt
def bodyVmul : VBody := intBinary .I .word .word .S fun _ a b => (a * b).toInt
def bodyVmulh : VBody := intBinary .I .word .word .S fun _ a b => a.toInt * b.toInt / 2 ^ 64
def bodyVand : VBody := intBinary .L .word .word .S fun _ a b => (a &&& b).toInt
def bodyVor : VBody := intBinary .L .word .word .S fun _ a b => (a ||| b).toInt
def bodyVxor : VBody := intBinary .L .word .word .S fun _ a b => (a ^^^ b).toInt
def bodyVsll : VBody := intBinary .I .word .word .S fun _ a b => (a <<< shiftOf b).toInt
def bodyVsrl : VBody := intBinary .I .pattern .word .U fun _ a b => (a >>> shiftOf b).toNat
def bodyVsra : VBody := intBinary .I .word .word .S fun _ a b => (a.sshiftRight (shiftOf b)).toInt
def bodyVmin : VBody := intBinary .I .word .word .S fun _ a b => min a.toInt b.toInt
def bodyVmax : VBody := intBinary .I .word .word .S fun _ a b => max a.toInt b.toInt
def bodyVminu : VBody := intBinary .I .word .word .U fun _ a b => (min a.toNat b.toNat : Nat)
def bodyVmaxu : VBody := intBinary .I .word .word .U fun _ a b => (max a.toNat b.toNat : Nat)
def bodyVadds : VBody := intBinary .S .word .word .E fun fd a b => clampInt (a.toInt + b.toInt) (fmtLo fd) (fmtHi fd)
def bodyVsubs : VBody := intBinary .S .word .word .E fun fd a b => clampInt (a.toInt - b.toInt) (fmtLo fd) (fmtHi fd)

/-- `vaddsu` and `vsubsu`: a clamped wd-bit pattern, whatever the signedness of fd (R288). -/
def satPattern (f : Int → Int → Int) : VBody := pureBody fun vrlen h e =>
  let fa := vfFA e.vfmt
  let fb := vfFB e.vfmt
  let fd := vfFD e.vfmt
  let wd := fmtWidth fd
  let comp : Comp := fun h e i =>
    match srcPattern h (.vec e.o.a) fa i, srcPattern h (srcB e) fb i with
    | some (ga, a), some (gb, b) => some (ga, gb, .ok ((clampInt (f a b) 0 ((2 ^ wd : Nat) - 1)).toNat, wd))
    | _, _ => none
  headChecks (clsOk .N fa fb fd true true) (elementWise fd govMask comp e.vl) vrlen h e

def bodyVaddsu : VBody := satPattern fun a b => a + b
def bodyVsubsu : VBody := satPattern fun a b => a - b
def bodyVdiv : VBody := intBinary .I .word .word .S fun _ a b => divS a b
def bodyVrem : VBody := intBinary .I .word .word .S fun _ a b => remS a b
def bodyVdivu : VBody := intBinary .I .word .word .U fun _ a b => divU a b
def bodyVremu : VBody := intBinary .I .word .word .U fun _ a b => remU a b
def bodyVabs : VBody := intUnary .I .word .E fun _ a => (a.toInt.natAbs : Int)
def bodyVclz : VBody := intUnary .B .pattern .S fun fa a => (leadZeros (fmtWidth fa) a.toNat : Int)
def bodyVpop : VBody := intUnary .B .pattern .S fun _ a => (popBits a.toNat 64 : Int)
def bodyVbext : VBody := intBinary .B .pattern .pattern .U fun _ a b =>
  (bextNat a.toNat (b.toNat % 256) (b.toNat / 256 % 256) : Int)

/-! ### Floating-point instructions (13 R290 to R292) -/

/-- A result at wp, rounded to it under RM, then Convert to fd (R291). -/
def wpResult (vfmt : Word) (wp : FloatFmt) (fd : Fmt) (x : FVal) : Nat × Nat :=
  encodeTo vfmt fd (.real (rounded wp (vfRM vfmt) x))

/-- Binary instructions at wp; `f` gives the exact result, with RM for the sign of an exact zero. -/
def fpBinary (f : Rnd → FVal → FVal → FVal) : VBody := pureBody fun vrlen h e =>
  let fa := vfFA e.vfmt
  let fb := vfFB e.vfmt
  let fd := vfFD e.vfmt
  let wp := wpOf [fa, fb, fd]
  let comp : Comp := fun h e i =>
    match srcValue h (.vec e.o.a) 0 fa (vfSCALE e.vfmt) i, srcValue h (srcB e) 1 fb (vfSCALE e.vfmt) i with
    | some (ga, a), some (gb, b) =>
      some (ga, gb, a.bind fun a => b.map fun b =>
        wpResult e.vfmt wp fd (f (vfRM e.vfmt) (wpValue e.vfmt wp a) (wpValue e.vfmt wp b)))
    | _, _ => none
  headChecks (clsOk .F fa fb fd true true && !codeOverlap e.o fa fb fd true true)
    (elementWise fd govMask comp e.vl) vrlen h e

/-- `vfmac` and `vfnmac`: one rounding of c ± a × b (R285, R291). -/
def fpMac (neg : Bool) : VBody := pureBody fun vrlen h e =>
  let fa := vfFA e.vfmt
  let fb := vfFB e.vfmt
  let fd := vfFD e.vfmt
  let wp := wpOf [fa, fb, fd]
  let comp : Comp := fun h e i =>
    match srcValue h (.vec e.o.a) 0 fa (vfSCALE e.vfmt) i, srcValue h (srcB e) 1 fb (vfSCALE e.vfmt) i,
        accPattern h e i with
    | some (ga, a), some (gb, b), some c =>
      some (ga, gb, a.bind fun a => b.map fun b =>
        let p := fMul (wpValue e.vfmt wp a) (wpValue e.vfmt wp b)
        let p := if neg then p.negate else p
        wpResult e.vfmt wp fd (fAdd (vfRM e.vfmt) p (wpValue e.vfmt wp (decodeFixed fd c))))
    | _, _, _ => none
  headChecks (clsOk .F fa fb fd true true && fmtFixed fd) (elementWise fd govMask comp e.vl) vrlen h e

/-- Unary instructions at wp. -/
def fpUnary (f : FloatFmt → FVal → FVal) : VBody := pureBody fun vrlen h e =>
  let fa := vfFA e.vfmt
  let fd := vfFD e.vfmt
  let wp := wpOf [fa, fd]
  let comp : Comp := fun h e i =>
    (srcValue h (.vec e.o.a) 0 fa (vfSCALE e.vfmt) i).map fun (ga, a) =>
      (ga, 0, a.map fun a => wpResult e.vfmt wp fd (f wp (wpValue e.vfmt wp a)))
  headChecks (clsOk .F fa 0 fd false true && !codeOverlap e.o fa 0 fd true false)
    (elementWise fd govMask comp e.vl) vrlen h e

/-- `vfabs`, `vfneg` and `vfcvt`: one rounding of an exact value; between equal fixed floating formats the first two
only touch the sign bit (R292). -/
def fpExact (sign : Option (Nat → Nat → Nat)) (f : Val → Val) : VBody := pureBody fun vrlen h e =>
  let fa := vfFA e.vfmt
  let fd := vfFD e.vfmt
  let comp : Comp := fun h e i =>
    match sign with
    | some g =>
      if fa == fd && fmtFloat fa then
        (rawElem h fa e.o.a i).map fun p => (p.2, 0, .ok (g p.1 (2 ^ (p.2 - 1)), p.2))
      else (srcValue h (.vec e.o.a) 0 fa (vfSCALE e.vfmt) i).map fun (ga, a) =>
        (ga, 0, a.map fun a => encodeTo e.vfmt fd (f a))
    | none => (srcValue h (.vec e.o.a) 0 fa (vfSCALE e.vfmt) i).map fun (ga, a) =>
        (ga, 0, a.map fun a => encodeTo e.vfmt fd (f a))
  headChecks (clsOk .F fa 0 fd false true && !codeOverlap e.o fa 0 fd true false)
    (elementWise fd govMask comp e.vl) vrlen h e

def Val.abs : Val → Val
  | .int x => .int x.natAbs
  | .real v => .real v.abs
/-- The sign changed; a zero integer gives +0 in a floating format (log 21). -/
def Val.negate : Val → Val
  | .int x => .int (-x)
  | .real v => .real v.negate

def bodyVfadd : VBody := fpBinary fAdd
def bodyVfsub : VBody := fpBinary fSub
def bodyVfmul : VBody := fpBinary fun _ => fMul
def bodyVfdiv : VBody := fpBinary fun _ => fDiv
def bodyVfmac : VBody := fpMac false
def bodyVfnmac : VBody := fpMac true
def bodyVfmin : VBody := fpBinary fun _ => fMin
def bodyVfmax : VBody := fpBinary fun _ => fMax
def bodyVfsqrt : VBody := fpUnary fun _ => fSqrt
def bodyVfrsq : VBody := fpUnary fun wp x => if wp == f64Fmt then fRsqrt64 x else fRsqrt32 x
def bodyVfrcp : VBody := fpUnary fun _ x => fDiv (fOfInt 1) x
def bodyVfabs : VBody := fpExact (some fun p s => p % s) Val.abs
def bodyVfneg : VBody := fpExact (some fun p s => p ^^^ s) Val.negate
def bodyVfcvt : VBody := fpExact none id

/-! ### Compares and mask logic (13 R293 to R295) -/

/-- The loop of R293: `comp` gives the bits read and the result bit. -/
def cmpLoop (comp : Hart → VEntry → Nat → Option (Nat × Nat × Except TrapInfo Bool)) :
    Nat → Hart → VEntry → Hart × VEntry × VEnd
  | 0, h, e => (h, e, .done 0 false false)
  | n + 1, h, e =>
    match comp h e e.idx with
    | none => (h, e, .done e.idx true false)
    | some (ga, gb, res) =>
      if h.maskBit e.o.m.toNat e.idx then
        match res with
        | .error t => (h, e, .trap t)
        | .ok b => cmpLoop comp n (h.setMaskBit e.o.d.toNat e.idx b) (countIdx { e with gbd := e.gbd + 1 } ga gb)
      else cmpLoop comp n h (countIdx e ga gb)

/-- Begin a body that writes no vector register. -/
def beginEntry (e : VEntry) : VEntry := { e with begun := true }

/-- The loop of R293 up to `vl`, or as far as the entry's turn goes. -/
def compare (comp : Hart → VEntry → Nat → Option (Nat × Nat × Except TrapInfo Bool)) (h : Hart) (e : VEntry) :
    Hart × VEntry × VEnd :=
  let (h, e, r) := cmpLoop comp (e.upTo e.vl - e.idx) h (beginEntry e)
  (h, e, r.within e e.vl)

/-- Integer compares (class C). -/
def intCompare (f : Word → Word → Bool) : VBody := pureBody fun vrlen h e =>
  let fa := vfFA e.vfmt
  let fb := vfFB e.vfmt
  headChecks (clsOk .C fa fb 0 true false) (fun _ h e =>
    compare (fun h e i =>
      match readWord h e (.vec e.o.a) 0 fa .word i, readWord h e (srcB e) 1 fb .word i with
      | some (ga, a), some (gb, b) => some (ga, gb, a.bind fun a => b.map fun b => f a b)
      | _, _ => none) h e) vrlen h e

/-- Floating compares at wp (class F; fd is not read). -/
def fpCompare (f : FVal → FVal → Bool) : VBody := pureBody fun vrlen h e =>
  let fa := vfFA e.vfmt
  let fb := vfFB e.vfmt
  let wp := wpOf [fa, fb]
  headChecks (clsOk .F fa fb 0 true false) (fun _ h e =>
    compare (fun h e i =>
      match srcValue h (.vec e.o.a) 0 fa (vfSCALE e.vfmt) i, srcValue h (srcB e) 1 fb (vfSCALE e.vfmt) i with
      | some (ga, a), some (gb, b) =>
        some (ga, gb, a.bind fun a => b.map fun b => f (wpValue e.vfmt wp a) (wpValue e.vfmt wp b))
      | _, _ => none) h e) vrlen h e

def bodyVmeq : VBody := intCompare fun a b => a == b
def bodyVmne : VBody := intCompare fun a b => a != b
def bodyVmlt : VBody := intCompare fun a b => a.slt b
def bodyVmle : VBody := intCompare fun a b => a.sle b
def bodyVmltu : VBody := intCompare fun a b => a.ult b
def bodyVmleu : VBody := intCompare fun a b => a.ule b
def bodyVmfeq : VBody := fpCompare fEq
def bodyVmflt : VBody := fpCompare fLt
def bodyVmfle : VBody := fpCompare fLe
def bodyVmfun : VBody := fpCompare fun a b => a.isNan || b.isNan

/-- `vmfin`: unary. -/
def bodyVmfin : VBody := pureBody fun vrlen h e =>
  let fa := vfFA e.vfmt
  let wp := wpOf [fa]
  headChecks (clsOk .F fa 0 0 false false) (fun _ h e =>
    compare (fun h e i =>
      (srcValue h (.vec e.o.a) 0 fa (vfSCALE e.vfmt) i).map fun (ga, a) =>
        (ga, 0, a.map fun a => (wpValue e.vfmt wp a).isFin)) h e) vrlen h e

/-- Set bits i of md for n indices from i on. -/
def maskLogicLoop (f : Bool → Bool → Bool) (d a b : Nat) : Nat → Nat → Hart → Hart
  | 0, _, h => h
  | n + 1, i, h => maskLogicLoop f d a b n (i + 1) (h.setMaskBit d i (f (h.maskBit a i) (h.maskBit b i)))

/-- Mask logic (R295): no formats of its own, so only a reserved code in `vfmt` stops it. -/
def maskLogic (f : Bool → Bool → Bool) : VBody := pureBody fun vrlen h e =>
  headChecks true (fun _ h e =>
    let n := e.upTo e.vl - e.idx
    let h := maskLogicLoop f e.o.d.toNat e.o.a.toNat e.o.b.toNat n e.idx h
    let all := e.gn + n
    let e := { beginEntry e with idx := e.idx + n, gn := all, gbd := all, gba := all, gbb := all }
    (h, e, (VEnd.done 0 false false).within e e.vl)) vrlen h e

def bodyVmand : VBody := maskLogic fun a b => a && b
def bodyVmor : VBody := maskLogic fun a b => a || b
def bodyVmxor : VBody := maskLogic fun a b => a != b
def bodyVmandn : VBody := maskLogic fun a b => a && !b

/-! ### Reductions (13 R297 to R299) -/

/-- The element and length of vb's element 0, or the scalar: the start value (R296). -/
def startValue (h : Hart) (e : VEntry) (fb : Fmt) : Option (Nat × Except TrapInfo Val) :=
  srcValue h (srcB e) 1 fb (vfSCALE e.vfmt) 0

/-- Write a reduction's one element at completion (R297 steps 4 to 6). -/
def reduceDone (vrlen : Nat) (h : Hart) (e : VEntry) (res : Nat × Nat) (gba gbb : Nat) (short : Bool) :
    Hart × VEntry × VEnd :=
  let (c, len) := res
  if vlimit vrlen e.vcap < len then
    (h, { e with gn := 0, gbd := 0, gba := gba, gbb := gbb }, .done e.start false true)
  else
    (h.setVreg e.o.d { bits := c % 2 ^ len, fill := len },
      { e with idx := max e.start e.vl, gn := e.vl - e.start, gbd := len, gba := gba, gbb := gbb },
      .done 0 short false)

/-- The held elements of va at indices from i on: index, bits, value or trap; and whether some index was not held. -/
def heldElems (h : Hart) (e : VEntry) (fa : Fmt) : Nat → Nat → List (Nat × Nat × Except TrapInfo Val) × Bool
  | 0, _ => ([], false)
  | n + 1, i =>
    let rest := heldElems h e fa n (i + 1)
    match srcValue h (.vec e.o.a) 0 fa (vfSCALE e.vfmt) i with
    | none => (rest.1, true)
    | some (g, v) => ((i, g, v) :: rest.1, rest.2)

/-- The lowest active element that traps. -/
def firstTrap (h : Hart) (e : VEntry) (l : List (Nat × Nat × Except TrapInfo Val)) : Option (Nat × TrapInfo) :=
  l.findSome? fun (i, _, v) =>
    if h.maskBit e.o.m.toNat i then (match v with | .error t => some (i, t) | .ok _ => none) else none

/-- The active values among the held elements. -/
def activeVals (h : Hart) (e : VEntry) (l : List (Nat × Nat × Except TrapInfo Val)) : List (Nat × Val) :=
  l.filterMap fun (i, _, v) =>
    if h.maskBit e.o.m.toNat i then (match v with | .ok x => some (i, x) | .error _ => none) else none

/-- Groups g, g + 1, … of a reduction, `n` of them, into the partial sum of those below (R299): how far it came, and how
it stopped before the last. An element that traps leaves its group uncombined. -/
def reduceGroups (h : Hart) (fa : Fmt) (group : VEntry → Nat → Nat → List (Nat × Val) → Nat) :
    Nat → Nat → VEntry → Partial → VEntry × Partial × Option VEnd
  | 0, _, e, p => (e, p, none)
  | n + 1, g, e, p =>
    let lo := max e.start (64 * g)
    if e.upTo e.vl ≤ 64 * g then ({ e with idx := 64 * g, gn := lo - e.start, gba := p.bits }, p, some .pause) else
    let (l, short) := heldElems h e fa (min e.vl (64 * g + 64) - lo) lo
    match firstTrap h e l with
    | some (i, t) =>
      let below := (l.filter fun x => x.1 < i).map (·.2.1)
      ({ e with idx := i, gn := i - e.start, gba := p.bits + below.sum }, p, some (.trap t))
    | none =>
      reduceGroups h fa group n (g + 1) e
        { value := group e p.value g (activeVals h e l), bits := p.bits + (l.map (·.2.1)).sum, short := p.short || short }

/-- A reduction: `init` takes the start value in, `group` the active values of one group, `fin` gives the element. A reserved code
at the start value traps with `vstart` at the start index (log 167). -/
def reduction (cls : Cls) (init : VEntry → Val → Nat) (group : VEntry → Nat → Nat → List (Nat × Val) → Nat)
    (fin : VEntry → Nat → Nat × Nat) : VBody := pureBody fun vrlen h e =>
  let fa := vfFA e.vfmt
  let fb := vfFB e.vfmt
  let fd := vfFD e.vfmt
  let go (e : VEntry) (p : Partial) : Hart × VEntry × VEnd :=
    let g := e.idx / 64
    let (e, p, r) := reduceGroups h fa group (ceilDiv e.vl 64 - g) g e p
    let e := { e with acc := some p }
    match r with
    | some r => (h, e, r)
    | none => reduceDone vrlen h e (fin e p.value) p.bits e.gbb p.short
  headChecks (clsOk cls fa fb fd true true) (fun _ h e =>
    let e := beginEntry e
    match e.acc with
    | some p => go e p
    | none =>
      match startValue h e fb with
      | none => (h, { e with gn := 0, gbd := 0, gba := 0, gbb := 0 }, .done e.start true false)
      | some (_, .error t) => (h, e, .trap t)
      | some (gb, .ok s0) => go { e with gbb := gb } { value := init e s0 }) vrlen h e

/-- Integer reductions combine 64-bit words (R296, R298). -/
def intReduce (f : Word → Word → Word) : VBody := reduction .I (fun _ s => s.word.toNat)
  (fun _ s _ l => (l.foldl (fun acc x => f acc x.2.word) (BitVec.ofNat 64 s)).toNat)
  fun e s => encodeIntTo e.vfmt (vfFD e.vfmt) (BitVec.ofNat 64 s).toInt

/-- Floating reductions over the tree of R140 at wp (R298), the partial sum a pattern of wp. `node` maps each active
element. -/
def fpReduce (node : FloatFmt → FVal → FVal) (add : FloatFmt → FVal → FVal → FVal) : VBody :=
  let wp (e : VEntry) : FloatFmt := wpOf [vfFA e.vfmt, vfFB e.vfmt, vfFD e.vfmt]
  reduction .F (fun e s => roundF (wp e) 0 (wpValue e.vfmt (wp e) s))
    (fun e s g l =>
      let vals := l.map fun x => (x.1, node (wp e) (wpValue e.vfmt (wp e) x.2))
      let leaf (j : Nat) : Option FVal := (vals.find? fun x => x.1 == 64 * g + j).map (·.2)
      let r := addOpt (add (wp e)) (some (decodeF (wp e) s)) (groupSum (add (wp e)) ((List.range 64).map leaf))
      (r.map (roundF (wp e) 0)).getD s)
    fun e s => encodeTo e.vfmt (vfFD e.vfmt) (.real (decodeF (wp e) s))

def bodyVredsum : VBody := intReduce fun a b => a + b
def bodyVredmin : VBody := intReduce fun a b => if b.slt a then b else a
def bodyVredmax : VBody := intReduce fun a b => if a.slt b then b else a
def bodyVredand : VBody := intReduce fun a b => a &&& b
def bodyVredor : VBody := intReduce fun a b => a ||| b
def bodyVredxor : VBody := intReduce fun a b => a ^^^ b
def bodyVfredsum : VBody := fpReduce (fun _ x => x) addIn
def bodyVfredmin : VBody := fpReduce (fun _ x => x) fun _ => fMin
def bodyVfredmax : VBody := fpReduce (fun _ x => x) fun _ => fMax
def bodyVfredsq : VBody := fpReduce (fun wp x => rounded wp 0 (fMul x x)) addIn

/-! ### Scans (13 R300) -/

/-- The running total is kept in the entry as a pattern of 64 bits. -/
def scanBody (cls : Cls) (enc : VEntry → Nat → Nat × Nat) (init : VEntry → Val → Nat) (step : VEntry → Nat → Val → Nat) :
    VBody := pureBody fun vrlen h e =>
  let fa := vfFA e.vfmt
  let fb := vfFB e.vfmt
  let fd := vfFD e.vfmt
  let limit := vlimit vrlen e.vcap
  let keep (e : VEntry) (t : Nat) : VEntry := { e with acc := some { value := t } }
  let rec loop : Nat → Hart → VEntry → Nat → Hart × VEntry × VEnd
    | 0, h, e, t => (h, keep e t, .done 0 false false)
    | n + 1, h, e, t =>
      match srcValue h (.vec e.o.a) 0 fa (vfSCALE e.vfmt) e.idx with
      | none => (h, keep e t, .done e.idx true false)
      | some (ga, v) =>
        let act := h.maskBit e.o.m.toNat e.idx
        match v, act with
        | .error x, true =>
          if !fmtCode fd && limit < fmtWidth fd * (e.idx + 1) then
            (h, keep e t, .done e.idx false true)
          else (h, keep e t, .trap x)
        | v, act =>
          let t' := match v, act with
            | .ok x, true => step e t x
            | _, _ => t
          let (c, len) := if act then enc e t' else (0, if fmtCode fd then zeroCodeLen fd else fmtWidth fd)
          let full := if fmtCode fd then decide (limit < e.p + len) else decide (limit < fmtWidth fd * (e.idx + 1))
          if full then (h, keep e t, .done e.idx false true)
          else
            let (h, e) := if act || fmtCode fd then writeElem fd h e c len else (h, e)
            loop n h (countIdx e ga 0) t'
  headChecks (clsOk cls fa fb fd true true && !codeOverlap e.o fa fb fd true true) (fun _ h e =>
    let go (e : VEntry) (t : Nat) : Hart × VEntry × VEnd :=
      let e := openDest fd h e
      let (h, e, r) := loop (e.upTo e.vl - e.idx) h e t
      (closeDest fd limit h e, e, r.within e e.vl)
    match e.acc with
    | some p => go e p.value
    | none =>
      match startValue h e fb with
      | none => (h, { e with gn := 0, gbd := 0, gba := 0, gbb := 0 }, .done e.start true false)
      | some (_, .error x) => (h, e, .trap x)
      | some (gb, .ok s0) => go { e with gbb := gb } (init e s0)) vrlen h e

def bodyVscan : VBody := scanBody .I
  (fun e t => encodeIntTo e.vfmt (vfFD e.vfmt) (BitVec.ofNat 64 t).toInt)
  (fun _ s => s.word.toNat)
  (fun _ t x => (BitVec.ofNat 64 t + x.word).toNat)

def bodyVfscan : VBody :=
  let wp (e : VEntry) : FloatFmt := wpOf [vfFA e.vfmt, vfFB e.vfmt, vfFD e.vfmt]
  scanBody .F
    (fun e t => encodeTo e.vfmt (vfFD e.vfmt) (.real (decodeF (wp e) t)))
    (fun e s => roundF (wp e) 0 (wpValue e.vfmt (wp e) s))
    (fun e t x => roundF (wp e) 0 (fAdd 0 (decodeF (wp e) t) (wpValue e.vfmt (wp e) x)))

/-! ### Index instructions (13 R301) -/

/-- The indices of n from i on at which the governing mask and ma are both set. -/
def bothSet (h : Hart) (m a : Nat) : Nat → Nat → List Nat
  | 0, _ => []
  | n + 1, i => if h.maskBit m i && h.maskBit a i then i :: bothSet h m a n (i + 1) else bothSet h m a n (i + 1)

/-- `vfirst` and `vmcnt`: `f` takes the indices of a stretch into what the ones below gave. -/
def maskReduce (f : Nat → List Nat → Nat) (fin : Nat → Int) : VBody := pureBody fun vrlen h e =>
  let fd := vfFD e.vfmt
  headChecks (!fmtB1 fd) (fun vrlen h e =>
    let top := e.upTo e.vl
    let x := f ((e.acc.map (·.value)).getD 0) (bothSet h e.o.m.toNat e.o.a.toNat (top - e.idx) e.idx)
    let e := { beginEntry e with acc := some { value := x } }
    if top < e.vl then (h, { e with idx := max e.idx top, gn := top - e.start }, .pause)
    else reduceDone vrlen h e (encodeIntTo e.vfmt fd (fin x)) 0 0 false) vrlen h e

/-- The first index is kept plus 1, 0 for none. -/
def bodyVfirst : VBody := maskReduce (fun x ks => if x = 0 then (ks.head?.map (· + 1)).getD 0 else x) fun x => x - 1
def bodyVmcnt : VBody := maskReduce (fun x ks => x + ks.length) fun x => x

/-- `viota` and `vid`. -/
def indexBody (f : Hart → VEntry → Nat → Int) : VBody := pureBody fun vrlen h e =>
  let fd := vfFD e.vfmt
  headChecks (!fmtB1 fd)
    (elementWise fd govMask (fun h e i => some (0, 0, .ok (encodeIntTo e.vfmt fd (f h e i)))) e.vl) vrlen h e

def bodyViota : VBody := indexBody fun h e i => (bothSet h e.o.m.toNat e.o.a.toNat i 0).length
def bodyVid : VBody := indexBody fun _ _ i => i

end Sys2Proof.Machine
end

