-- ==== Sys2Proof/Machine/VCode.lean ====
section
/-! DEFINITION. Queue-head bodies of majors 21 and 23: Jexter code instructions and permutes (12 R268 to R280). -/

namespace Sys2Proof.Machine

/-! ### Element-wise code conversions (12 R269) -/

/-- An element-wise instruction over va, with fa and fd as `ok` admits them. -/
def codeUnary (ok : Fmt → Fmt → Bool) (res : VEntry → Val → Nat × Nat) : VBody := pureBody fun vrlen h e =>
  let fa := vfFA e.vfmt
  let fd := vfFD e.vfmt
  let comp : Comp := fun h e i =>
    (srcValue h (.vec e.o.a) 0 fa (vfSCALE e.vfmt) i).map fun (ga, a) => (ga, 0, a.map (res e))
  headChecks (ok fa fd && !codeOverlap e.o fa 0 fd true false) (elementWise fd govMask comp e.vl) vrlen h e

/-- A value at the working precision of a conversion: integers stay exact. -/
def atWp (vfmt : Word) (wp : FloatFmt) : Val → Val
  | .int x => .int x
  | .real v => .real (rounded wp (vfRM vfmt) v)

/-- A value made real at a working precision. -/
def realAt (vfmt : Word) (wp : FloatFmt) (v : Val) : Val := .real (rounded wp (vfRM vfmt) v.toF)

def bodyVdec : VBody := codeUnary (fun fa fd => fmtCode fa && fmtFixed fd && !fmtB1 fd) fun e v =>
  encodeTo e.vfmt (vfFD e.vfmt) (atWp e.vfmt (if vfFA e.vfmt == 0x13 then f64Fmt else f32Fmt) v)

def bodyVenc : VBody := codeUnary (fun fa fd => fmtFixed fa && !fmtB1 fa && fmtCode fd) fun e v =>
  let fd := vfFD e.vfmt
  let wp := if vfFA e.vfmt == 0x0E || fd == 0x13 then f64Fmt else f32Fmt
  encodeTo e.vfmt fd (if fmtJxr fd then realAt e.vfmt wp v else atWp e.vfmt wp v)

def bodyVrepack : VBody := codeUnary (fun fa fd => fmtCode fa && fmtCode fd) fun e v =>
  let fd := vfFD e.vfmt
  let wp := if vfFA e.vfmt == 0x13 || fd == 0x13 then f64Fmt else f32Fmt
  encodeTo e.vfmt fd (if fmtJxr fd then realAt e.vfmt wp v else atWp e.vfmt wp v)

/-- `vtier` and `vbits` read only the tier and the length of a code, and never trap RESCODE. -/
def tierBody (f : Nat × Nat → Nat) : VBody := pureBody fun vrlen h e =>
  let fa := vfFA e.vfmt
  let fd := vfFD e.vfmt
  let comp : Comp := fun h e i => (rawElem h fa e.o.a i).map fun p => (p.2, 0, .ok (encodeIntTo e.vfmt fd (f p)))
  headChecks (fmtCode fa && fmtInteger fd) (elementWise fd govMask comp e.vl) vrlen h e

def bodyVtier : VBody := tierBody fun p => p.1 % 4
def bodyVbits : VBody := tierBody fun p => p.2

/-! ### Boundaries and budgets (12 R270, R271) -/

/-- Mark element starts from the entry's index on. -/
def bndLoop (fa : Fmt) : Nat → Hart → VEntry → Hart × VEntry × VEnd
  | 0, h, e => (h, e, .done 0 false false)
  | n + 1, h, e =>
    match rawElem h fa e.o.a e.idx with
    | none => (h, e, .done e.idx true false)
    | some p =>
      bndLoop fa n (h.setMaskBit e.o.d.toNat (elemAt fa (h.vreg e.o.a) e.idx / 2) true) (countIdx e p.2 0)

/-- What `vbnd` clears when it begins. -/
def bndClear (fa : Fmt) (h : Hart) (e : VEntry) : Hart :=
  let d := e.o.d.toNat
  if e.start = 0 then h.setMask d 0 else
  match rawElem h fa e.o.a e.start with
  | none => h
  | some _ => h.setMask d (((h.m[d]?).getD 0) % 2 ^ (elemAt fa (h.vreg e.o.a) e.start / 2))

def bodyVbnd : VBody := pureBody fun vrlen h e =>
  let fa := vfFA e.vfmt
  headChecks (fmtCode fa) (fun _ h e =>
    let h := if e.begun then h else bndClear fa h e
    let (h, e, r) := bndLoop fa (e.upTo e.vl - e.idx) h (beginEntry e)
    (h, e, r.within e e.vl)) vrlen h e

/-- Count elements while their lengths fit the budget; `e.p` is the running sum. -/
def cntLoop (fa : Fmt) (budget : Nat) : Nat → Hart → VEntry → Hart × VEntry × VEnd
  | 0, h, e => (h, e, .done 0 false false)
  | n + 1, h, e =>
    match rawElem h fa e.o.a e.idx with
    | none => (h, e, .done e.idx true false)
    | some p =>
      if budget < e.p + p.2 then (h, e, .done e.idx false true)
      else cntLoop fa budget n h (countIdx { e with p := e.p + p.2 } p.2 0)

def bodyVcnt : VBody := pureBody fun vrlen h e =>
  headChecks true (fun _ h e =>
    let (h, e, r) := cntLoop (vfFA e.vfmt) e.scal.toNat (e.upTo e.vl - e.idx) h (beginEntry e)
    (h, e, r.within e e.vl)) vrlen h e

/-! ### Moving codes and bits (12 R272 to R275) -/

/-- The k-th code of a register parsed from bit n on. -/
def codeFrom (f : Fmt) (x : VReg) (n k : Nat) : Option (Nat × Nat) :=
  if x.fill < n + fmtMin f * (k + 1) then none else elemAtBit f x (scanCodes f x.bits k n)

def bodyVskip : VBody := pureBody fun vrlen h e =>
  let fa := vfFA e.vfmt
  let fd := vfFD e.vfmt
  let comp : Comp := fun h e i => (codeFrom fa (h.vreg e.o.a) e.scal.toNat i).map fun p => (p.2, 0, .ok p)
  headChecks (fmtCode fa && fd == fa && !codeOverlap e.o fa 0 fd true false)
    (elementWise fd govMask comp e.vl) vrlen h e

/-- Append elements of va at the fill of vd, fixed ones at multiples of their width. -/
def catLoop (fa : Fmt) (limit : Nat) : Nat → Hart → VEntry → Hart × VEntry × VEnd
  | 0, h, e => (h, e, .done 0 false false)
  | n + 1, h, e =>
    match rawElem h fa e.o.a e.idx with
    | none => (h, e, .done e.idx true false)
    | some p =>
      let x := h.vreg e.o.d
      let pos := if fmtCode fa then x.fill else ceilDiv x.fill p.2 * p.2
      if limit < pos + p.2 then (h, e, .done e.idx false true)
      else
        let y : VReg := { bits := putBits x.bits pos p.2 p.1, fill := pos + p.2 }
        catLoop fa limit n (h.setVreg e.o.d y) (countIdx { e with gbd := e.gbd + p.2 } p.2 0)

def bodyVcat : VBody := pureBody fun vrlen h e =>
  let fa := vfFA e.vfmt
  headChecks (vfFD e.vfmt == fa) (fun vrlen h e =>
    let (h, e, r) := catLoop fa (vlimit vrlen e.vcap) (e.upTo e.vl - e.idx) h (beginEntry e)
    (h, e, r.within e e.vl)) vrlen h e

def bodyVbget : VBody := pureBody fun vrlen h e =>
  let fd := vfFD e.vfmt
  let w := fmtWidth fd
  let comp : Comp := fun h e i =>
    let x := h.vreg e.o.a
    let pos := e.scal.toNat + w * i
    if pos + w ≤ x.fill then some (w, 0, .ok (bitsOf x.bits pos w, w)) else none
  headChecks (fmtInteger fd || fmtB1 fd) (elementWise fd govMask comp e.vl) vrlen h e

/-- Set bits of a mask below index i; an element index is below 262,144 (05 R114). -/
def Hart.maskBelow (h : Hart) (r i : Nat) : Nat :=
  if r = 0 then i else popBits ((h.m[r]?).getD 0) (min i 262144)

/-- `vpack` from the entry's index on. `e.p` is the append position of a code destination. -/
def packLoop (fa : Fmt) (limit : Nat) : Nat → Hart → VEntry → Hart × VEntry × VEnd
  | 0, h, e => (h, e, .done 0 false false)
  | n + 1, h, e =>
    match rawElem h fa e.o.a e.idx with
    | none => (h, e, .done e.idx true false)
    | some p =>
      if h.maskBit e.o.m.toNat e.idx then
        let pos := if fmtCode fa then e.p else p.2 * h.maskBelow e.o.m.toNat e.idx
        if limit < pos + p.2 then (h, e, .done e.idx false true)
        else
          let x := h.vreg e.o.d
          packLoop fa limit n (h.setVreg e.o.d { x with bits := putBits x.bits pos p.2 p.1 })
            (countIdx { e with p := pos + p.2, gbd := e.gbd + p.2 } p.2 0)
      else packLoop fa limit n h (countIdx e p.2 0)

/-- The fill of a `vpack` destination: a code destination ends at its append position, a fixed one is not lowered
and covers the destination elements numbered so far, within the limit (log 20). -/
def packFill (fa : Fmt) (limit : Nat) (h : Hart) (e : VEntry) : Nat :=
  let x := h.vreg e.o.d
  if fmtCode fa then e.p else
  max x.fill (min (fmtWidth fa * h.maskBelow e.o.m.toNat e.idx) limit)

def bodyVpack : VBody := pureBody fun vrlen h e =>
  let fa := vfFA e.vfmt
  headChecks (vfFD e.vfmt == fa) (fun vrlen h e =>
    let limit := vlimit vrlen e.vcap
    let (h, e, r) := packLoop fa limit (e.upTo e.vl - e.idx) h (openDest fa h e)
    (h.setVreg e.o.d ((h.vreg e.o.d).withFill (packFill fa limit h e)), e, r.within e e.vl)) vrlen h e

/-- `vexpand` reads va only at indices whose bit is set (log 22). -/
def bodyVexpand : VBody := pureBody fun vrlen h e =>
  let fa := vfFA e.vfmt
  let comp : Comp := fun h e i =>
    if h.maskBit e.o.m.toNat i then
      (rawElem h fa e.o.a (h.maskBelow e.o.m.toNat i)).map fun p => (p.2, 0, .ok p)
    else some (0, 0, .ok (0, 0))
  headChecks (vfFD e.vfmt == fa) (elementWise fa govMask comp e.vl) vrlen h e

/-! ### Permutes (12 R276, R277, R279) -/

/-- All-zero bits of a fixed element, or ZeroCode. -/
def zeroElem (f : Fmt) : Nat × Nat := (0, if fmtCode f then zeroCodeLen f else fmtWidth f)

/-- A permute whose destination element i is va's element `src h e i`; `gov` says which indices are active. -/
def permBody (gov : Gov) (src : Hart → VEntry → Nat → Nat) : VBody := pureBody fun vrlen h e =>
  let fa := vfFA e.vfmt
  let fd := vfFD e.vfmt
  let comp : Comp := fun h e i => (rawElem h fa e.o.a (src h e i)).map fun p => (p.2, 0, .ok p)
  headChecks (fd == fa && !codeOverlap e.o fa 0 fd true false) (elementWise fd gov comp e.vl) vrlen h e

def bodyVslidedn : VBody := permBody govMask fun _ e i => i + e.scal.toNat
def bodyVbcast : VBody := permBody govMask fun _ e _ => e.scal.toNat
def bodyVunzip : VBody := permBody govMask fun _ e i => 2 * i + e.scal.toNat % 2
def bodyVrev : VBody := permBody govMask fun _ e i => e.vl - 1 - i

def bodyVslideup : VBody := pureBody fun vrlen h e =>
  let fa := vfFA e.vfmt
  let fd := vfFD e.vfmt
  let n := e.scal.toNat
  let comp : Comp := fun h e i =>
    if n ≤ i then (rawElem h fa e.o.a (i - n)).map fun p => (p.2, 0, .ok p) else some (0, 0, .ok (0, 0))
  headChecks (fd == fa && !codeOverlap e.o fa 0 fd true false)
    (elementWise fd (fun h e i => decide (n ≤ i) && govMask h e i) comp e.vl) vrlen h e

def bodyVzip : VBody := pureBody fun vrlen h e =>
  let fa := vfFA e.vfmt
  let fd := vfFD e.vfmt
  let comp : Comp := fun h e i =>
    if i % 2 = 0 then (rawElem h fa e.o.a (i / 2)).map fun p => (p.2, 0, .ok p)
    else (rawElem h fa e.o.b (i / 2)).map fun p => (0, p.2, .ok p)
  headChecks (fd == fa && vfFB e.vfmt == fa && !codeOverlap e.o fa fa fd true true)
    (elementWise fd govMask comp e.vl) vrlen h e

/-- The index that element k of vb gives (R277). -/
def gatherIndex (f : Fmt) (bits : Nat) : Int :=
  match patValue f 0 bits with
  | .int x => x
  | .real _ => -1

def bodyVgatherv : VBody := pureBody fun vrlen h e =>
  let fa := vfFA e.vfmt
  let fb := vfFB e.vfmt
  let fd := vfFD e.vfmt
  let comp : Comp := fun h e i =>
    (rawElem h fb e.o.b i).map fun p =>
      let x := gatherIndex fb p.1
      let got := if x < 0 || !govMask h e i then none else rawElem h fa e.o.a x.toNat
      match got with
      | none => (0, p.2, .ok (zeroElem fd))
      | some q => (q.2, p.2, .ok q)
  headChecks (fd == fa && intOrJxi fb && !codeOverlap e.o fa fb fd true true)
    (elementWise fd govMask comp e.vl) vrlen h e

/-- The lowest index below n, from i on, whose bit of a mask is set; else the end. -/
def firstSet (h : Hart) (r : Nat) : Nat → Nat → Nat
  | 0, i => i
  | n + 1, i => if h.maskBit r i then i else firstSet h r n (i + 1)

/-- `vbrk` and `vbrkb`: elements from `keep` on are not read (log 22). -/
def brkBody (extra : Nat) : VBody := pureBody fun vrlen h e =>
  let fa := vfFA e.vfmt
  let fd := vfFD e.vfmt
  let keep := firstSet h e.o.m.toNat e.vl 0 + extra
  let comp : Comp := fun h e i =>
    if i < keep then (rawElem h fa e.o.a i).map fun p => (p.2, 0, .ok p) else some (0, 0, .ok (zeroElem fd))
  headChecks (fd == fa && !codeOverlap e.o fa 0 fd true false) (elementWise fd govAll comp e.vl) vrlen h e

def bodyVbrk : VBody := brkBody 1
def bodyVbrkb : VBody := brkBody 0

/-! ### Single elements and bit put (12 R278, R280) -/

/-- A single-element instruction stops with nothing done. -/
def oneStop (h : Hart) (e : VEntry) (short full : Bool) : Hart × VEntry × VEnd :=
  (h, { e with gn := 0, gbd := 0, gba := 0, gbb := 0 }, .done 0 short full)

/-- A single-element instruction succeeds. -/
def oneDone (h : Hart) (e : VEntry) (gn gbd gba : Nat) : Hart × VEntry × VEnd :=
  (h, { e with gn := gn, gbd := gbd, gba := gba, gbb := 0 }, .done 0 false false)

def bodyVext : VBody := pureBody fun vrlen h e =>
  let fa := vfFA e.vfmt
  let fd := vfFD e.vfmt
  headChecks true (fun vrlen h e =>
    let e := { beginEntry e with idx := 0 }
    match rawElem h fa e.o.a e.scal.toNat with
    | none => oneStop h e true false
    | some p =>
      if fa != fd && patReserved fa p.1 p.2 then
        (h, e, .trap (rescode (elemAt fa (h.vreg e.o.a) e.scal.toNat) 0))
      else
        let q := if fa == fd then p else encodeTo e.vfmt fd (patValue fa (vfSCALE e.vfmt) p.1)
        if vlimit vrlen e.vcap < q.2 then oneStop h e false true
        else oneDone (h.setVreg e.o.d { bits := q.1 % 2 ^ q.2, fill := q.2 }) e 1 q.2 p.2) vrlen h e

def bodyVins : VBody := pureBody fun vrlen h e =>
  let fa := vfFA e.vfmt
  headChecks (vfFD e.vfmt == fa) (fun vrlen h e =>
    let e := { beginEntry e with idx := 0 }
    let x := h.vreg e.o.d
    let n := e.scal.toNat
    match rawElem h fa e.o.a 0, elem fa x n with
    | some p, some q =>
      let at_ := elemAt fa x n
      let fill := x.fill - q.2 + p.2
      if vlimit vrlen e.vcap < fill && x.fill < fill then oneStop h e false true
      else
        let bits := x.bits % 2 ^ at_ + p.1 * 2 ^ at_ + (x.bits >>> (at_ + q.2)) * 2 ^ (at_ + p.2)
        oneDone (h.setVreg e.o.d { bits := bits, fill := fill }) e 1 p.2 p.2
    | _, _ => oneStop h e true false) vrlen h e

def bodyVbput : VBody := pureBody fun vrlen h e =>
  headChecks true (fun _ h e =>
    let e := beginEntry e
    let x := h.vreg e.o.d
    let y := h.vreg e.o.a
    let n := e.scal.toNat
    if x.fill < n + y.fill then oneStop h e true false
    else oneDone (h.setVreg e.o.d { x with bits := putBits x.bits n y.fill y.bits }) e 0 y.fill y.fill) vrlen h e

end Sys2Proof.Machine
end

