-- ==== Sys2Proof/Machine/VMem.lean ====
section
/-! DEFINITION. Queue-head bodies of major 24: stream loads and stores (05 R106 to R110, 14 R310 to R319), with their
forward and reverse meanings in differentiable regions (08 R176 to R179, 21 R388, R389). -/

namespace Sys2Proof.Machine

/-! ### Stream descriptors (05 R107) -/

def Desc.kind (d : Desc) : Nat := bitsOf d.cfg.toNat 62 2
def Desc.boff (d : Desc) : Nat := bitsOf d.cfg.toNat 59 3
def Desc.fmt (d : Desc) : Fmt := bitsOf d.cfg.toNat 54 5
def Desc.wr (d : Desc) : Bool := d.cfg.getLsbD 53
def Desc.nohint (d : Desc) : Bool := d.cfg.getLsbD 52
def Desc.len (d : Desc) : Nat := bitsOf d.cfg.toNat 0 48

/-- Whether a push of a descriptor traps ILLFMT (R107); `resv` is its reserved word. -/
def Desc.illegal (d : Desc) (resv : Word) : Bool :=
  d.kind = 3 || fmtReserved d.fmt || (d.kind = 1 && (fmtCode d.fmt || fmtWidth d.fmt < 8))
    || (d.kind = 0 && fmtCode d.fmt) || (d.kind = 2 && !fmtCode d.fmt) || (d.boff != 0 && d.kind != 2)
    || bitsOf d.cfg.toNat 48 4 != 0 || resv != 0

/-- Where an element lies: the address of the byte that holds its first bit, that bit, and its length in bits. -/
structure ElemAt where
  va : Nat
  off : Nat
  n : Nat

def ElemAt.bytes (a : ElemAt) : Nat := (a.off + a.n + 7) / 8

/-- n bits of the element at stream position p (06 R131, 14 R312). -/
def Desc.elemAt (d : Desc) (p n : Nat) : ElemAt :=
  if d.kind = 1 then { va := (d.base + BitVec.ofNat 64 p * d.stride).toNat, off := 0, n := n }
  else
    let bit := if d.kind = 2 then d.boff + p else fmtWidth d.fmt * p
    { va := (d.base.toNat + bit / 8) % 2 ^ 64, off := bit % 8, n := n }

/-! ### Reading and writing one element -/

/-- The bytes at va that the siphon has read ahead, when it has read all of them. -/
def walkBytes (s : Stream) (va n : Nat) : Option (List Byte) :=
  (List.range n).mapM fun k => (s.walk.find? fun c => c.1 == va + k).map (·.2)

/-- The bits of an element, from the stream's walk-ahead data where `ahead` names one that has them (16 R363). -/
def readElem (ahead : Option (BitVec 5)) (a : ElemAt) : M Nat := do
  let h ← hartM
  let held := match ahead with
    | some r => walkBytes (h.stream r) a.va a.bytes
    | none => none
  match held with
  | some b => pure (bitsOf (bytesToNat b) a.off a.n)
  | none => do
    let b ← loadBytes .cs a.va a.bytes
    pure (bitsOf (bytesToNat b) a.off a.n)

/-- Issue the bytes of an element or a run at a place found before; with `merge` they join the instruction's requests. -/
def queueCells (merge : Bool) (l : Found) (bytes : List Byte) : M Unit := queueCellsOf .cs merge l bytes

/-- The bytes of an element with its bits replaced; the other bits of its first and last byte are kept (R313). -/
def spliceElem (a : ElemAt) (old : List Byte) (bits : Nat) : List Byte :=
  natToBytes (putBits (bytesToNat old) a.off a.n bits) a.bytes

/-- Store an element at a place found before. -/
def writeElemAt (merge : Bool) (a : ElemAt) (l : Found) (bits : Nat) : M Unit := do
  let whole := a.off = 0 && a.n % 8 = 0
  let old ← if whole then pure [] else readLocs (← hartM).cbuf l.locs a.va
  queueCells merge l (if whole then natToBytes bits a.bytes else spliceElem a old bits)

/-! ### One active element of a load -/

/-- What an active load element gives. -/
inductive LoadRes where
  | data (bits : Nat)
  | adjoint
  deriving DecidableEq, Repr

/-- Whether an element takes the reverse meaning (R172). -/
def Hart.revTouch (h : Hart) (a : ElemAt) : Bool := h.adjMode = 2 && (h.region a.va a.bytes).isSome

/-- Load an active element i with destination register d (R178, R389, R312). -/
def loadActive (ahead : Option (BitVec 5)) (f : Fmt) (d : BitVec 5) (i : Nat) (a : ElemAt) : M LoadRes := do
  let h ← hartM
  match h.touches a.va a.bytes with
  | none => return .data (← readElem ahead a)
  | some (k, r) =>
    if h.adjMode = 2 then do
      let _ ← locateHere .load a.va a.bytes
      regionCheck r .load a.va a.bytes (some f)
      accumulate .cs k r a.va (r.index a.va) (i % 64) (bitsOf (h.vreg d).bits (32 * i) 32)
      pure .adjoint
    else do
      let b ← readElem ahead a
      regionCheck r .load a.va a.bytes (some f)
      pure (.data b)

/-! ### Stream positions (05 R108, R110) -/

/-- The outcome of one index of a load or store loop. -/
inductive Elem where
  | short
  | full
  | ok (read : Nat) (write : Option (Nat × Nat)) (next : Nat)

/-- Raise a fault recorded against a stream at a position from `lo` up to `hi` (R110), if the element there is accessed
at the recorded byte; one that is not accessed only drops it. -/
def raiseRecord (r : BitVec 5) (accessed : DFault → Bool) (lo hi : Nat) : M Unit := do
  let h ← hartM
  let s := h.stream r
  match s.dfault with
  | none => pure ()
  | some f =>
    if f.pos < lo || hi ≤ f.pos then pure () else
    modHart fun h => h.setStream r { s with dfault := none }
    if accessed f then throw (.trap { cause := f.cause, eaddr := f.va, einfo := f.info })

/-- The gate of `vldw` (R316): an observation of the counter covers `need` bytes, or the instruction waits. -/
def gate (r : BitVec 5) (counter : Nat) (need : Nat) : M Unit := do
  let s := (← hartM).stream r
  if need ≤ s.cover.getD 0 then pure () else
  let l ← atomicLocate counter 8
  let v := bytesToNat (← readLocs (← hartM).cbuf l.locs counter)
  modHart fun h => h.setStream r { h.stream r with cover := some v }
  if need ≤ v then pure () else waitAt .counter

/-- One index of `vld`, `vldff` or `vldw`: the element at the stream's position. -/
def streamLoad (gated rev : Bool) (d : Desc) (limit : Nat) (e : VEntry) : M Elem := do
  let r := e.o.a
  let h ← hartM
  let s := h.stream r
  let p := s.pos
  let f := d.fmt
  let act := h.maskBit e.o.m.toNat e.idx
  if d.kind != 2 then
    let w := fmtWidth f
    let a := d.elemAt p w
    if d.len ≤ p then return .short
    let rt := rev && h.revTouch a
    if rt && (h.vreg e.o.d).fill < 32 * (e.idx + 1) then return .short
    if !rt && limit < w * (e.idx + 1) then return .full
    if !act then do
      raiseRecord r (fun _ => false) p (p + 1)
      return .ok w none (p + 1)
    if gated then gate r e.scal.toNat (ceilDiv (w * (p + 1)) 8)
    let res ← mapTrap streamFault do
      raiseRecord r (fun _ => true) p (p + 1)
      loadActive (some r) f e.o.d e.idx a
    match res with
    | .data b => return .ok w (some (b, w)) (p + 1)
    | .adjoint => return .ok w none (p + 1)
  else
    if d.len < p + 2 then return .short
    if gated then gate r e.scal.toNat (ceilDiv (d.boff + p + 2) 8)
    let tier := d.elemAt p 2
    let t ← mapTrap streamFault do
      raiseRecord r (fun f => act || decide (f.va.toNat < tier.va + tier.bytes)) p (p + 1)
      readElem (some r) tier
    let n := codeLen f t
    if d.len < p + n then return .short
    let a := d.elemAt p n
    if !act then
      return if limit < e.p + zeroCodeLen f then .full else .ok n (some (0, zeroCodeLen f)) (p + n)
    if gated then gate r e.scal.toNat (ceilDiv (d.boff + p + n) 8)
    let res ← mapTrap streamFault (loadActive (some r) f e.o.d e.idx a)
    match res with
    | .data b => return if limit < e.p + n then .full else .ok n (some (b, n)) (p + n)
    | .adjoint => return .ok n none (p + n)

/-- Advance a stream to position p; a fault recorded below p is dropped. -/
def setPos (r : BitVec 5) (p : Nat) : M Unit := modHart fun h =>
  let s := h.stream r
  h.setStream r { s with pos := p, dfault := s.dfault.filter fun f => p ≤ f.pos }

/-- Record a processed index of a load: its destination bits and counts. With `rev`, the fill rises at once over an
element that takes its ordinary meaning (R178). -/
def commitLoad (rev rt : Bool) (f : Fmt) (e : VEntry) (read : Nat) (write : Option (Nat × Nat)) : M VEntry := do
  let h ← hartM
  let (h1, e1) := match write with
    | some (c, len) => writeElem f h e c len
    | none => (h, e)
  let h2 := if rev && !rt then
      let x := h1.vreg e.o.d
      h1.setVreg e.o.d (x.withFill (max x.fill (fmtWidth f * (e.idx + 1))))
    else h1
  modHart fun _ => h2
  pure (countIdx e1 read 0)

/-- The loop of `vld`, `vldff` and `vldw`. `first` says that no active element has been met since the fresh start, or
since a trap at the first one (R314). -/
def vldLoop (ff gated rev : Bool) (d : Desc) (limit : Nat) : Nat → Bool → VEntry → M (VEntry × VEnd)
  | 0, _, e => pure (e, .done 0 false false)
  | n + 1, first, e => do
    let h ← hartM
    let act := h.maskBit e.o.m.toNat e.idx
    let rt := h.revTouch (d.elemAt (h.stream e.o.a).pos (fmtWidth d.fmt))
    match ← attempt (streamLoad gated rev d limit e) with
    | .trap t =>
      if ff && act && !first then
        let pos := (h.stream e.o.a).pos
        modHart fun h => h.setStream e.o.a { h.stream e.o.a with
          dfault := some { cause := t.cause, va := t.eaddr, info := t.einfo, pos := pos } }
        pure (e, .done e.idx true false)
      else pure (e, .trap t)
    | .wait w => pure (e, .wait w)
    | .ok .short => pure (e, .done e.idx true false)
    | .ok .full => pure (e, .done e.idx false true)
    | .ok (.ok read write next) =>
      let e1 ← commitLoad rev (rev && rt) d.fmt e read write
      setPos e.o.a next
      vldLoop ff gated rev d limit n (first && !act) { e1 with faulted := e1.faulted && !act }

/-- Whether some element from position p on, `n` of them, takes its reverse meaning (R172): masked-off elements count
(log 25), and whether the formats agree does not matter (R171, R179). -/
def revAny (h : Hart) (d : Desc) (p n : Nat) : Bool :=
  d.kind != 2 && (List.range (min n (d.len - p))).any fun k => h.revTouch (d.elemAt (p + k) (fmtWidth d.fmt))

def headTrap (cause : BitVec 8) : VEnd := .headTrap { cause := cause }

/-- The turn of an entry ends short of its end (04 R90). -/
def VEntry.paused (e : VEntry) (stop : Nat) : Bool := e.upTo stop ≤ e.idx && e.idx < stop

/-- A stop at the entry's index because the stream is empty (05 R108). -/
def emptyStream (e : VEntry) : VEntry × VEnd :=
  (beginEntry e, if e.idx < e.vl then .done e.idx true false else .done 0 false false)

/-- No active index lies between the start and the entry's index, or the entry resumes at the one where it trapped. -/
def atFirst (h : Hart) (e : VEntry) : Bool :=
  e.faulted || firstSet h e.o.m.toNat (e.idx - e.start) e.start ≥ e.idx

/-- `vld`, `vldff` and `vldw` at the queue head. -/
def loadBody (ff gated : Bool) : VBody := fun e => do
  let vrlen ← vrlenM
  let h ← hartM
  if !e.begun && vfmtReserved e.vfmt then return (e, headTrap cILLFMT)
  match (h.stream e.o.a).adopted with
  | none => return emptyStream e
  | some d =>
    if d.wr then return (e, headTrap cILLEGAL)
    if gated && d.kind = 1 then return (e, headTrap cILLFMT)
    let limit := vlimit vrlen e.vcap
    if !e.begun then
      modHart fun h =>
        let s := h.stream e.o.a
        h.setStream e.o.a (if gated then { s with walk := [], ahead := s.pos, cover := some 0 } else { s with cover := none })
    let n := e.vl - e.idx
    let rev := revAny h d (h.stream e.o.a).pos n
    let (e1, r) ← vldLoop ff gated rev d limit (e.upTo e.vl - e.idx) (atFirst h e) (openDest d.fmt h e)
    if !rev then modHart fun h => closeDest d.fmt limit h e1
    pure (e1, r.within e1 e.vl)

def bodyVld : VBody := loadBody false false
def bodyVldff : VBody := loadBody true false
def bodyVldw : VBody := loadBody false true

/-! ### Stores: ordinary and forward meanings (R176, R312, R313) -/

/-- Store elements [i, i + count) of a KIND 0 or 1 stream as one run with a tape record (R176). -/
def tapedRun (merge : Bool) (k : Nat) (x : VReg) (f : Fmt) (i count : Nat) (a : ElemAt) : M Unit := do
  let w := fmtWidth f
  let n := count * w / 8
  let l ← tapePush .cs k a.va n
  queueCells merge l (natToBytes (bitsOf x.bits (w * i) (w * count)) n)

/-- One active element that makes no record. -/
def plainStore (merge : Bool) (f : Fmt) (a : ElemAt) (bits : Nat) : M Unit := do
  let l ← locateHere .store a.va a.bytes
  match (← hartM).touches a.va a.bytes with
  | some (_, r) => regionCheck r .store a.va a.bytes (some f)
  | none => pure ()
  writeElemAt merge a l bits

/-- The taped region that an element touches, in forward mode (R176). -/
def Hart.taped (h : Hart) (a : ElemAt) : Option (Nat × Region) :=
  if h.adjMode = 1 then (h.region a.va a.bytes).filter fun x => x.2.tape else none

/-- How many elements the run that begins at index i and position p has: consecutive active elements of one element
group in one region, which the source and the stream hold (R176, log 26). -/
def runLength (h : Hart) (e : VEntry) (d : Desc) (held : Nat → Bool) (region : Nat) : Nat → Nat → Nat → Nat
  | 0, _, _ => 0
  | n + 1, i, p =>
    let a := d.elemAt p (fmtWidth d.fmt)
    let same := match h.region a.va a.bytes with
      | some (k, _) => k == region
      | none => false
    if held i && decide (p < d.len) && h.maskBit e.o.m.toNat i && same then 1 + runLength h e d held region n (i + 1) (p + 1)
    else 0

/-- Check that every element of a run has the region's format and lies inside it. -/
def checkRun (r : Region) (d : Desc) : Nat → Nat → M Unit
  | 0, _ => pure ()
  | n + 1, p => do
    let a := d.elemAt p (fmtWidth d.fmt)
    regionCheck r .store a.va a.bytes (some d.fmt)
    checkRun r d n (p + 1)

/-- The loop of `vst` and `vspill` over a stream's positions: `src` gives the element at an index, `total` the number
of indices. The answer of an index is the number of indices done. -/
def vstLoop (d : Desc) (vb : BitVec 5) (src : VReg → Nat → Option (Nat × Nat)) (total : Nat) :
    Nat → VEntry → M (VEntry × VEnd)
  | 0, e => pure (e, .done 0 false false)
  | fuel + 1, e => do
    if e.upTo total ≤ e.idx then return (e, (VEnd.done 0 false false).within e total)
    let h ← hartM
    let p := (h.stream e.o.d).pos
    let x := h.vreg vb
    match src x e.idx with
    | none => return (e, .done e.idx true false)
    | some (bits, n) =>
      let next := if d.kind = 2 then p + n else p + 1
      if d.len < next then return (e, .done e.idx true false)
      let a := d.elemAt p n
      let act := h.maskBit e.o.m.toNat e.idx
      let step : M Nat := mapTrap streamFault do
        match if d.kind = 2 || !act then none else h.taped a with
        | none => do
          raiseRecord e.o.d (fun _ => act) p next
          if act then plainStore true d.fmt a bits
          return 1
        | some (k, r) =>
          let count := if d.kind = 1 then 1 else
            runLength h e d (fun i => (src x i).isSome) k (min (64 - e.idx % 64) (total - e.idx)) e.idx p
          raiseRecord e.o.d (fun _ => true) p (p + count)
          checkRun r d count p
          tapedRun true k x d.fmt e.idx count a
          return count
      match ← attempt step with
      | .trap t => return (e, .trap t)
      | .wait w => return (e, .wait w)
      | .ok count =>
        setPos e.o.d (if d.kind = 2 then next else p + count)
        let e1 := { e with
          idx := e.idx + count, gn := e.gn + count, gbb := e.gbb + count * n
          gbd := e.gbd + (if act then count * n else 0) }
        vstLoop d vb src total fuel e1

/-! ### Descending stores (R179, R388) -/

/-- Set the elements of a run in the source register at 32 × index. -/
def putCells (x : VReg) (i : Nat) : List Nat → VReg
  | [] => x
  | v :: rest => putCells { x with bits := putBits x.bits (32 * i) 32 v } (i + 1) rest

/-- How many elements down from index i belong to its run: consecutive active elements of one element group in one
region. -/
def runDown (h : Hart) (e : VEntry) (d : Desc) (p0 region : Nat) : Nat → Nat → Nat
  | 0, _ => 0
  | n + 1, i =>
    let a := d.elemAt (p0 + i) (fmtWidth d.fmt)
    let same := match h.region a.va a.bytes with
      | some (k, _) => k == region
      | none => false
    if h.maskBit e.o.m.toNat i && same then 1 + (if i % 64 = 0 then 0 else runDown h e d p0 region n (i - 1)) else 0

/-- Take back one run whose first element is index i at address va: its cells go into the source register. -/
def popRun (merge : Bool) (vb : BitVec 5) (r : Region) (i count va n : Nat) : M Unit := do
  let cells ← tapePop .cs merge r va n (r.index va) count
  modHart fun h => h.setVreg vb (putCells (h.vreg vb) i cells)

/-- The same for an entry that works down from `vl` − 1: at the boundary of an element group. -/
def VEntry.pausedDown (e : VEntry) : Bool := e.paused e.vl && (e.vl - e.idx) % 64 == 0

/-- The loop of a descending store from position p0. Elements that touch no region are ordinary stores. -/
def descLoop (d : Desc) (vb : BitVec 5) (p0 : Nat) : Nat → VEntry → M (VEntry × VEnd)
  | 0, e => pure (e, .done 0 false false)
  | fuel + 1, e => do
    if e.vl ≤ e.idx then return (e, .done 0 false false)
    if e.pausedDown then return (e, .pause)
    let h ← hartM
    let i := e.vl - 1 - e.idx
    let w := fmtWidth d.fmt
    let a := d.elemAt (p0 + i) w
    let act := h.maskBit e.o.m.toNat i
    let step : M (Nat × Nat) := mapTrap streamFault do
      if !act then return (1, 0)
      match h.region a.va a.bytes with
      | none =>
        raiseRecord e.o.d (fun _ => true) (p0 + i) (p0 + i + 1)
        plainStore true d.fmt a (bitsOf (h.vreg vb).bits (w * i) w)
        return (1, w)
      | some (k, r) =>
        let count := if d.kind = 1 then 1 else runDown h e d p0 k (i + 1) i
        let first := i + 1 - count
        raiseRecord e.o.d (fun _ => true) (p0 + first) (p0 + i + 1)
        checkRun r d count (p0 + first)
        popRun true vb r first count (d.elemAt (p0 + first) w).va (count * w / 8)
        return (count, 0)
    match ← attempt step with
    | .trap t => return (e, .trap t)
    | .wait w => return (e, .wait w)
    | .ok (count, read) =>
      descLoop d vb p0 fuel { e with
        idx := e.idx + count, gn := e.gn + count, gbb := e.gbb + read, gbd := e.gbd + (if act then count * w else 0) }

/-- The elements of a descending store do not fit its source register (R179). -/
def descTooLong (vrlen : Nat) (e : VEntry) : Bool :=
  8 * vrlen < 32 * e.vl || (e.vcap != 0 && e.vcap < 32 * e.vl)

/-- The fresh-start checks of a descending store, and its start: the source register's fill, and P0, which `e.acc`
keeps. -/
def descBody (d : Desc) (vb : BitVec 5) : VBody := fun e => do
  let vrlen ← vrlenM
  let h ← hartM
  match e.acc.map (·.value) with
  | some p0 =>
    let (e1, r) ← descLoop d vb p0 (e.vl - e.idx) e
    match r with
    | .done .. => setPos e.o.d (p0 + e.vl)
    | _ => pure ()
    pure (e1, r)
  | none =>
    let p0 := (h.stream e.o.d).pos
    if descTooLong vrlen e then return (e, headTrap cILLFMT)
    if d.len < p0 + e.vl then return emptyStream e
    modHart fun h => h.setVreg vb ((h.vreg vb).withFill (32 * e.vl))
    let (e1, r) ← descLoop d vb p0 (e.vl - e.idx) { e with begun := true, acc := some { value := p0 } }
    match r with
    | .done .. => setPos e.o.d (p0 + e.vl)
    | _ => pure ()
    pure (e1, r)

/-- `vst` at the queue head. -/
def bodyVst : VBody := fun e => do
  let h ← hartM
  if !e.begun && vfmtReserved e.vfmt then return (e, headTrap cILLFMT)
  match (h.stream e.o.d).adopted with
  | none => return emptyStream e
  | some d =>
    if !d.wr then return (e, headTrap cILLEGAL)
    if d.kind = 2 && e.o.m != 0#3 then return (e, headTrap cILLFMT)
    let pos := (h.stream e.o.d).pos
    if (if e.begun then e.acc.isSome else revAny h d pos e.vl) then descBody d e.o.b e
    else
      let src (x : VReg) (i : Nat) : Option (Nat × Nat) := elem d.fmt x i
      vstLoop d e.o.b src e.vl (e.vl - e.idx + 1) (beginEntry e)

/-! ### `vspill` and `vfill` (R317) -/

/-- The checks of `vspill` and `vfill`: direction, KIND 0 and format n64. -/
def spillCheck (d : Desc) (wr : Bool) : Option (BitVec 8) :=
  if d.wr != wr then some cILLEGAL else if d.kind != 0 || d.fmt != 0x09 then some cILLFMT else none

/-- Element j of a spilled register: the fill word, then its bits. -/
def spillElem (x : VReg) (j : Nat) : Option (Nat × Nat) :=
  some (if j = 0 then x.fill else bitsOf x.bits (64 * (j - 1)) 64, 64)

/-- Register bits placed in the elements below j. -/
def spillBits (fill j : Nat) : Nat := min fill (64 * (j - 1))

/-- `vspill` and `vfill` on an empty stream: SHORT, unless index i is past the last element of a register of that fill. -/
def spillEmpty (fill i : Nat) : VEnd := if 1 + ceilDiv fill 64 ≤ i then .done 0 false false else .done i true false

def bodyVspill : VBody := fun e => do
  let h ← hartM
  if !e.begun && vfmtReserved e.vfmt then return (e, headTrap cILLFMT)
  match (h.stream e.o.d).adopted with
  | none => return (beginEntry e, spillEmpty (h.vreg e.o.b).fill e.idx)
  | some d =>
    match spillCheck d true with
    | some c => return (e, headTrap c)
    | none =>
      let x := h.vreg e.o.b
      let total := 1 + ceilDiv x.fill 64
      let (e1, r) ← vstLoop d e.o.b spillElem total (total - e.idx + 1) (beginEntry e)
      pure ({ e1 with gbb := spillBits x.fill e1.idx - spillBits x.fill e1.start }, r)

/-- The elements of `vfill` from the entry's index on. -/
def vfillLoop (vrlen : Nat) (d : Desc) : Nat → VEntry → M (VEntry × VEnd)
  | 0, e => pure (e, .done 0 false false)
  | fuel + 1, e => do
    let h ← hartM
    let fill := (h.vreg e.o.d).fill
    if e.idx != 0 && 1 + ceilDiv fill 64 ≤ e.idx then return (e, .done 0 false false)
    if e.paused (e.idx + 1) then return (e, .pause)
    let p := (h.stream e.o.a).pos
    if d.len ≤ p then return (e, .done e.idx true false)
    let a := d.elemAt p 64
    let read : M Nat := mapTrap streamFault do
      raiseRecord e.o.a (fun _ => true) p (p + 1)
      let b ← readElem (some e.o.a) a
      match (← hartM).touches a.va a.bytes with
      | some (_, r) => regionCheck r .load a.va a.bytes (some d.fmt)
      | none => pure ()
      pure b
    match ← attempt read with
    | .trap t => return (e, .trap t)
    | .wait w => return (e, .wait w)
    | .ok b =>
      if e.idx = 0 && 8 * vrlen < b then return (e, .trap illfmt)
      let x := h.vreg e.o.d
      let lo := 64 * (e.idx - 1)
      let n := min 64 (fill - lo)
      let y := if e.idx = 0 then x.withFill b else { x with bits := putBits x.bits lo n b }
      modHart fun h => h.setVreg e.o.d y
      setPos e.o.a (p + 1)
      vfillLoop vrlen d fuel { e with
        idx := e.idx + 1, gn := e.gn + 1, gba := e.gba + 64, gbd := e.gbd + (if e.idx = 0 then 0 else n) }

def bodyVfill : VBody := fun e => do
  let vrlen ← vrlenM
  let h ← hartM
  if !e.begun && vfmtReserved e.vfmt then return (e, headTrap cILLFMT)
  match (h.stream e.o.a).adopted with
  | none => return (beginEntry e, if e.idx = 0 then .done 0 true false else spillEmpty (h.vreg e.o.d).fill e.idx)
  | some d =>
    match spillCheck d false with
    | some c => return (e, headTrap c)
    | none => vfillLoop vrlen d (vrlen / 8 + 2) (beginEntry e)

/-! ### Indexed loads and stores (R315, 07 R160) -/

/-- A fault of an indexed access at an index; `more` is a page fault on the element's second page beside one on its
first. -/
structure IdxFault where
  idx : Nat
  t : TrapInfo
  more : Option TrapInfo := none

/-- Bit i of a mask number set. -/
def setBitNat (x i : Nat) : Nat := if x.testBit i then x else x + 2 ^ i

/-- The distinct pages of page faults, in ascending order of their lowest element. -/
def faultPages (fs : List IdxFault) : List Word :=
  ((fs.flatMap fun f => f.t.eaddr :: (f.more.map (·.eaddr)).toList).map fun a => a &&& ~~~(0xFFFF#64)).eraseDups

/-- The trap of an indexed instruction whose active elements met these faults, ascending, and its index (R160, R315):
another cause than PGFAULT goes first, at its lowest element; page faults alone are one PGBATCH. -/
def batchTrap (fs : List IdxFault) : Option (Nat × TrapInfo) :=
  match fs.find? fun f => f.t.cause != cPGFAULT with
  | some f => some (f.idx, f.t)
  | none =>
    match fs with
    | [] => none
    | f :: _ =>
      let pages := faultPages fs
      let shown := pages.take 16
      some (f.idx,
        { cause := cPGBATCH, eaddr := shown.foldl (fun a b => if b.toNat < a.toNat then b else a) (shown.headD 0)
          einfo := BitVec.ofNat 64 (shown.length + (if 16 < pages.length then 32 else 0)), pages := shown })

/-- What one index of an indexed instruction does: the bits read of a and b, the bits an active element writes, where its
element lies and how it is accessed, what an index does to the hart once it has been processed, and the access of an active
element, which answers what it does to the hart. -/
structure IdxStep where
  ga : Nat
  gb : Nat
  bits : Nat
  at_ : ElemAt
  acc : Acc
  after : Hart → Hart := id
  access : M (Hart → Hart)

/-- An entry with the counts of one index more. -/
def IdxStep.count (s : IdxStep) (active : Bool) (e : VEntry) : VEntry :=
  { e with gn := e.gn + 1, gba := e.gba + s.ga, gbb := e.gbb + s.gb, gbd := e.gbd + (if active then s.bits else 0) }

/-- The fault of an element with what its second page adds: a page fault there beside one on its first page, or another
cause, which goes before a page fault (R160, R315). -/
def wholeFault (i : Nat) (s : IdxStep) (t : TrapInfo) : M IdxFault := do
  let va := s.at_.va
  let here ← hereM
  let second := (va + s.at_.bytes - 1) / 65536 * 65536
  if t.cause = cPGFAULT && decide (t.eaddr.toNat < second) && decide (va < second) then
    match ← attempt (pageLeaf (hartXlat (← get) here.gang here.hid) s.acc true (second % 2 ^ 64) va) with
    | .trap t2 => pure (if t2.cause = cPGFAULT then { idx := i, t := t, more := some t2 } else { idx := i, t := t2 })
    | _ => pure { idx := i, t := t }
  else pure { idx := i, t := t }

/-- What stops an index before any access. -/
inductive IdxStop where
  | short
  | full

/-- A pass over indices, in order. Faults are collected, and other active elements go on (R160). -/
def idxPass (step : Hart → VEntry → Nat → Except IdxStop IdxStep) :
    List Nat → VEntry → List IdxFault → M (VEntry × List IdxFault × Option (Nat × IdxStop))
  | [], e, fs => pure (e, fs.reverse, none)
  | i :: rest, e, fs => do
    let h ← hartM
    match step h e i with
    | .error x => pure (e, fs.reverse, some (i, x))
    | .ok s =>
      if !h.maskBit e.o.m.toNat i then
        modHart s.after
        idxPass step rest (s.count false e) fs
      else
        match ← attempt s.access with
        | .trap t => idxPass step rest e ((← wholeFault i s t) :: fs)
        | .wait _ => idxPass step rest e ({ idx := i, t := { cause := 0 } } :: fs)
        | .ok put =>
          modHart fun h => s.after (put { h with mdone := setBitNat h.mdone i })
          idxPass step rest (s.count true e) fs

/-- The counts of the indices below `top` that have been processed: the masked-off ones and those done (12 R259). -/
def idxCounts (step : Hart → VEntry → Nat → Except IdxStop IdxStep) (h : Hart) (e : VEntry) (top : Nat) : VEntry :=
  ((List.range (top - e.start)).map (e.start + ·)).foldl (fun e i =>
    let act := h.maskBit e.o.m.toNat i
    if act && !h.mdone.testBit i then e else
    match step h e i with
    | .ok s => s.count act e
    | .error _ => e) { e with gn := 0, gba := 0, gbb := 0, gbd := 0 }

/-- An indexed instruction: the fresh pass, which a turn may end early (04 R90), or a pass over its faulted elements;
`e.aux` holds the end of the fresh pass plus 1 once that has ended. An element that waits for a link is taken as not done,
and the instruction waits. At a trap the counts stand as far as its index (12 R259), and the elements done above it count
once the instruction goes on. -/
def idxBody (step : Hart → VEntry → Nat → Except IdxStop IdxStep) : VBody := fun e => do
  if !e.begun then modHart fun h => { h with mdone := 0, mfault := 0 }
  let h ← hartM
  let fresh := e.aux = 0
  let top := e.upTo e.vl
  let again := (List.range (if fresh then e.idx else e.aux - 1)).filter fun i => h.mfault.testBit i
  let todo := if fresh then again ++ (List.range (top - e.idx)).map (e.idx + ·) else again
  let e := if fresh then e else idxCounts step h e (e.aux - 1)
  let (e1, fs, stop) ← idxPass step todo { e with begun := true } []
  let stop1 := if fresh then stop else none
  let last := if fresh then (match stop1 with | some (i, _) => i | none => max e.idx top) else e.aux - 1
  modHart fun h => { h with mfault := fs.foldl (fun m f => setBitNat m f.idx) 0 }
  if fresh && stop1.isNone && last < e.vl then return ({ e1 with idx := last }, .pause)
  let e2 := { e1 with aux := last + 1, idx := last }
  if fs.any fun f => f.t.cause = 0 then return (e2, .wait .link)
  let h2 ← hartM
  match batchTrap fs with
  | some (i, t) => return ({ idxCounts step h2 e2 i with idx := i }, .trap t)
  | none =>
    let end_ := match stop1 with
      | some (_, .full) => VEnd.done last false true
      | some (_, .short) => .done last true false
      | none =>
        if last < e.vl then
          match step h2 e2 last with
          | .error .full => .done last false true
          | _ => .done last true false
        else .done 0 false false
    return (e2, end_)

/-- An indexed instruction on an empty stream: a fresh start clears `mdone`, and `mfault` ends as zeros (R160). -/
def emptyIndexed : VBody := fun e => do
  modHart fun h => { h with mdone := if e.begun then h.mdone else 0, mfault := 0 }
  pure (emptyStream e)

/-- The element of an indexed access (R315). -/
def Desc.indexed (d : Desc) (x : Int) : ElemAt :=
  let w := fmtWidth d.fmt
  let by_ : Word := if d.kind = 1 then d.stride else BitVec.ofNat 64 (w / 8)
  { va := (d.base + wordOfInt x * by_).toNat, off := 0, n := w }

/-- The index that a register element gives, as a signed 64-bit value, and its bits (log 27). -/
def indexAt (h : Hart) (f : Fmt) (r : BitVec 5) (i : Nat) : Option (Nat × Int) :=
  (rawElem h f r i).map fun p => (p.2, (Val.word (patValue f 0 p.1)).toInt)

/-- Whether some index of an indexed access, with its indices in register r, touches a region in reverse mode (log 25). -/
def revAnyIdx (h : Hart) (e : VEntry) (d : Desc) (r : BitVec 5) : Bool :=
  h.adjMode = 2 && (List.range e.vl).any fun i => ((indexAt h (vfFB e.vfmt) r i).map fun x => h.revTouch (d.indexed x.2)).getD false

/-- The stream checks of an indexed access. -/
def indexedOk (d : Desc) : Bool := d.kind ≤ 1 && fmtFixed d.fmt && 8 ≤ fmtWidth d.fmt

/-- The elements that an interrupted `vldx` loaded above the index at which it trapped: its entry holds their bits, and they
are the register's once its fill rises over them (12 R258, log 143). -/
def keptElems (w : Nat) (h : Hart) (e : VEntry) : Hart :=
  match e.acc with
  | none => h
  | some p =>
    let x := h.vreg e.o.d
    let put (bits i : Nat) : Nat :=
      if h.mdone.testBit i && decide (x.fill < w * (i + 1)) then putBits bits (w * i) w (bitsOf p.value (w * i) w) else bits
    h.setVreg e.o.d { x with bits := (List.range e.vl).foldl put x.bits }

/-- `vldx` at the queue head. At a trap its fill stands at the trap's index (12 R258), and the elements done above it are kept
with the entry, since they are not performed again (R160); where an index touches a region in reverse mode the fill rises
with each index that touches none (R178). -/
def bodyVldx : VBody := fun e => do
  let vrlen ← vrlenM
  let h ← hartM
  if !e.begun && (vfmtReserved e.vfmt || !intOrJxi (vfFB e.vfmt)) then return (e, headTrap cILLFMT)
  match (h.stream e.o.a).adopted with
  | none => emptyIndexed e
  | some d =>
    if d.wr then return (e, headTrap cILLEGAL)
    if !indexedOk d then return (e, headTrap cILLFMT)
    let limit := vlimit vrlen e.vcap
    let w := fmtWidth d.fmt
    let rev := revAnyIdx h e d e.o.b
    let step (h : Hart) (e : VEntry) (i : Nat) : Except IdxStop IdxStep :=
      match indexAt h (vfFB e.vfmt) e.o.b i with
      | none => .error .short
      | some (gb, x) =>
        let a := d.indexed x
        let rt := h.revTouch a
        if rt && (h.vreg e.o.d).fill < 32 * (i + 1) then .error .short
        else if !rt && limit < w * (i + 1) then .error .full
        else .ok
          { ga := w, gb := gb, bits := if rt then 0 else w, at_ := a, acc := .load
            after := fun h =>
              if !rev || rt then h else
              let x := h.vreg e.o.d
              h.setVreg e.o.d (x.withFill (max x.fill (w * (i + 1))))
            access := do
              match ← loadActive none d.fmt e.o.d i a with
              | .adjoint => return id
              | .data b =>
                return fun h =>
                  let x := h.vreg e.o.d
                  h.setVreg e.o.d { x with bits := putBits x.bits (w * i) w b } }
    modHart fun h => keptElems w h e
    let (e1, r) ← idxBody step e
    if rev then return (e1, r)
    let bits := ((← hartM).vreg e.o.d).bits
    modHart fun h => closeDest d.fmt limit h { e1 with idx := if e1.aux = 0 || r.trap?.isSome then e1.idx else e1.aux - 1 }
    pure ({ e1 with acc := some { value := bits } }, r)

/-- One active element of `vstx`: an ordinary store, or a run of its own (R176). -/
def storeOne (f : Fmt) (x : VReg) (i : Nat) (a : ElemAt) : M Unit := do
  let h ← hartM
  match h.taped a with
  | none => plainStore false f a (bitsOf x.bits (fmtWidth f * i) (fmtWidth f))
  | some (k, r) =>
    regionCheck r .store a.va a.bytes (some f)
    tapedRun false k x f i 1 a

/-- One active element of a descending `vstx`: an ordinary store, or a run of its own taken back (R179). Answers the bits it
reads. -/
def descIdxElem (d : Desc) (e : VEntry) (i : Nat) (a : ElemAt) : M Nat := do
  let h ← hartM
  match h.region a.va a.bytes with
  | none =>
    plainStore false d.fmt a (bitsOf (h.vreg e.o.b).bits (a.n * i) a.n)
    pure a.n
  | some (_, r) =>
    regionCheck r .store a.va a.bytes (some d.fmt)
    popRun false e.o.b r i 1 a.va (a.n / 8)
    pure 0

/-- The page fault of an index of a store with what its second page adds. -/
def storeFault (i : Nat) (a : ElemAt) (t : TrapInfo) : M IdxFault :=
  wholeFault i { ga := 0, gb := 0, bits := 0, at_ := a, acc := .store, access := pure id } t

/-- Below an index of a descending `vstx` that met a page fault: the elements that touch no region are done where their pages
are resident, and further page faults are collected, the lowest index first (R160). An element in a region waits, since its
record lies below that of the one that faulted (log 28). -/
def descIdxOthers (d : Desc) (e : VEntry) : Nat → List IdxFault → M (List IdxFault)
  | 0, fs => pure fs
  | i + 1, fs => do
    let h ← hartM
    match indexAt h (vfFB e.vfmt) e.o.a i with
    | none => descIdxOthers d e i fs
    | some (_, x) =>
      let a := d.indexed x
      if !h.maskBit e.o.m.toNat i || h.mdone.testBit i || (h.region a.va a.bytes).isSome then descIdxOthers d e i fs else
      match ← attempt (descIdxElem d e i a) with
      | .trap t => do
        let fs' ← if t.cause = cPGFAULT then (do pure ((← storeFault i a t) :: fs)) else pure fs
        descIdxOthers d e i fs'
      | .wait _ => descIdxOthers d e i fs
      | .ok _ => do
        modHart fun h => { h with mdone := setBitNat h.mdone i }
        descIdxOthers d e i fs

/-- The active indices below n that are not done, as `mfault` names them (R160). -/
def Hart.notDone (h : Hart) (m n : Nat) : Nat :=
  (List.range n).foldl (fun f i => if h.maskBit m i && !h.mdone.testBit i then setBitNat f i else f) 0

/-- The trap of a descending `vstx` that met one at index i: page faults are one PGBATCH (R160). -/
def descIdxTrap (d : Desc) (e : VEntry) (i : Nat) (a : ElemAt) (t : TrapInfo) : M TrapInfo := do
  let f ← storeFault i a t
  let fs ← if f.t.cause = cPGFAULT then descIdxOthers d e i [f] else pure [f]
  modHart fun h => { h with mfault := h.notDone e.o.m.toNat e.vl }
  pure (((batchTrap fs).map (·.2)).getD t)

/-- At completion `mfault` is all zeros (R160). -/
def descIdxEnd (e : VEntry) (r : VEnd) : M (VEntry × VEnd) := do
  modHart fun h => { h with mfault := 0 }
  pure (e, r)

/-- A descending `vstx` (R179): each element is a run of its own; an element done before a page fault was served is passed. -/
def descIdxLoop (d : Desc) : Nat → VEntry → M (VEntry × VEnd)
  | 0, e => descIdxEnd e (.done 0 false false)
  | fuel + 1, e => do
    if e.vl ≤ e.idx then descIdxEnd e (.done 0 false false) else
    if e.pausedDown then return (e, .pause)
    let h ← hartM
    let i := e.vl - 1 - e.idx
    let w := fmtWidth d.fmt
    let act := h.maskBit e.o.m.toNat i
    match indexAt h (vfFB e.vfmt) e.o.a i with
    | none => descIdxEnd e (.done e.idx true false)
    | some (ga, x) =>
      let a := d.indexed x
      let step : M Nat := if !act then pure 0 else if h.mdone.testBit i then pure w else descIdxElem d e i a
      match ← attempt step with
      | .trap t => return (e, .trap (← descIdxTrap d e i a t))
      | .wait w => return (e, .wait w)
      | .ok read =>
        if act then modHart fun h => { h with mdone := setBitNat h.mdone i }
        descIdxLoop d fuel { e with
          idx := e.idx + 1, gn := e.gn + 1, gba := e.gba + ga, gbb := e.gbb + read, gbd := e.gbd + (if act then w else 0) }

/-- `vstx` at the queue head. Its index vector is va, read in format FB as R315 states. -/
def bodyVstx : VBody := fun e => do
  let vrlen ← vrlenM
  let h ← hartM
  if !e.begun && (vfmtReserved e.vfmt || !intOrJxi (vfFB e.vfmt)) then return (e, headTrap cILLFMT)
  match (h.stream e.o.d).adopted with
  | none => emptyIndexed e
  | some d =>
    if !d.wr then return (e, headTrap cILLEGAL)
    if !indexedOk d then return (e, headTrap cILLFMT)
    let w := fmtWidth d.fmt
    if (if e.begun then e.acc.isSome else revAnyIdx h e d e.o.a) then
      if !e.begun && descTooLong vrlen e then return (e, headTrap cILLFMT)
      if !e.begun then
        modHart fun h => { h.setVreg e.o.b ((h.vreg e.o.b).withFill (32 * e.vl)) with mdone := 0, mfault := 0 }
      descIdxLoop d (e.vl - e.idx) { e with begun := true, acc := some { value := 0 } }
    else
      let step (h : Hart) (e : VEntry) (i : Nat) : Except IdxStop IdxStep :=
        match indexAt h (vfFB e.vfmt) e.o.a i, elem d.fmt (h.vreg e.o.b) i with
        | some (ga, x), some p =>
          .ok { ga := ga, gb := p.2, bits := w, at_ := d.indexed x, acc := .store, access := do
            storeOne d.fmt (h.vreg e.o.b) i (d.indexed x)
            return id }
        | _, _ => .error .short
      idxBody step e

/-! ### Columns: `vld2` and `vstp` (R318, R319, 07 R162) -/

/-- The element of a transposed access at index i; the pitch is the entry's second scalar. -/
def Desc.column (d : Desc) (pitch : Word) (i : Nat) : ElemAt :=
  let w := fmtWidth d.fmt
  { va := (d.base + BitVec.ofNat 64 (i % 64) * pitch + BitVec.ofNat 64 (i / 64 * (w / 8))).toNat, off := 0, n := w }

/-- A KIND 0 stream of a fixed format of at least 8 bits. -/
def columnOk (d : Desc) : Bool := d.kind = 0 && fmtFixed d.fmt && 8 ≤ fmtWidth d.fmt

/-- The first byte of an element outside the chamber window, if it has one (R318). -/
def outsideChamber (a : ElemAt) : Option Nat :=
  let top := Config.chamberBase + Config.chamberBytes
  if a.va < Config.chamberBase || top ≤ a.va then some a.va
  else if top < a.va + a.bytes then some top else none

/-- The loop of `vld2`. -/
def vld2Loop (rev : Bool) (d : Desc) (limit : Nat) : Nat → VEntry → M (VEntry × VEnd)
  | 0, e => pure (e, .done 0 false false)
  | n + 1, e => do
    let h ← hartM
    let w := fmtWidth d.fmt
    let a := d.column e.scal2 e.idx
    let rt := rev && h.revTouch a
    if rt && (h.vreg e.o.d).fill < 32 * (e.idx + 1) then return (e, .done e.idx true false)
    if !rt && limit < w * (e.idx + 1) then return (e, .done e.idx false true)
    let step : M LoadRes :=
      if !h.maskBit e.o.m.toNat e.idx then pure .adjoint else
      match outsideChamber a with
      | some b => trap cPROT (BitVec.ofNat 64 b) Acc.load.code
      | none => loadActive none d.fmt e.o.d e.idx a
    match ← attempt step with
    | .trap t => return (e, .trap t)
    | .wait x => return (e, .wait x)
    | .ok res =>
      let write := match res with
        | .data b => some (b, w)
        | .adjoint => none
      vld2Loop rev d limit n (← commitLoad rev rt d.fmt e w write)

/-- Whether some index's column element takes its reverse meaning. -/
def revAnyColumn (h : Hart) (e : VEntry) (d : Desc) : Bool :=
  (List.range e.vl).any fun i => h.revTouch (d.column e.scal2 i)

def bodyVld2 : VBody := fun e => do
  let vrlen ← vrlenM
  let h ← hartM
  if !e.begun && vfmtReserved e.vfmt then return (e, headTrap cILLFMT)
  match (h.stream e.o.a).adopted with
  | none => return emptyStream e
  | some d =>
    if d.wr then return (e, headTrap cILLEGAL)
    if !columnOk d then return (e, headTrap cILLFMT)
    let limit := vlimit vrlen e.vcap
    let rev := revAnyColumn h e d
    let (e1, r) ← vld2Loop rev d limit (e.upTo e.vl - e.idx) (openDest d.fmt h e)
    if !rev then modHart fun h => closeDest d.fmt limit h e1
    pure (e1, r.within e1 e.vl)

/-- Neither copy of `vstp` may go to a DEV page (R162, R319). -/
def refuseDev (a : ElemAt) : M Unit := do refuseDevAt a.va a.bytes (← locateHere .store a.va a.bytes)

/-- Refuse DEV pages for n elements from position p on. -/
def refuseDevs (d : Desc) : Nat → Nat → M Unit
  | 0, _ => pure ()
  | n + 1, p => do
    refuseDev (d.elemAt p (fmtWidth d.fmt))
    refuseDevs d n (p + 1)

/-- The plain copy of the elements from index i up to `stop`; index i lies at position p. Answers where it stopped short,
if it did: the first element of the run, and how. -/
def plainCopy (d : Desc) (x : VReg) (e : VEntry) (stop : Nat) : Nat → Nat → Nat → M (Option (Nat × Tried Unit))
  | 0, _, _ => pure none
  | fuel + 1, i, p => do
    if stop ≤ i then return none
    let h ← hartM
    let w := fmtWidth d.fmt
    let a := d.elemAt p w
    if !h.maskBit e.o.m.toNat i then
      raiseRecord e.o.a (fun _ => false) p (p + 1)
      plainCopy d x e stop fuel (i + 1) (p + 1)
    else
      let region := h.taped a
      let count := match region with
        | none => 1
        | some (k, _) => runLength h e d (fun _ => true) k (stop - i) i p
      let run : M Unit := mapTrap streamFault do
        raiseRecord e.o.a (fun _ => true) p (p + count)
        match region with
        | none =>
          refuseDev a
          plainStore false d.fmt a (bitsOf x.bits (w * i) w)
        | some (k, r) =>
          checkRun r d count p
          refuseDevs d count p
          tapedRun false k x d.fmt i count a
      match ← attempt run with
      | .ok _ => plainCopy d x e stop fuel (i + count) (p + count)
      | t => return some (i, t)

/-- The transposed copy of n elements from index i on, with the same answer. -/
def columnCopy (d : Desc) (x : VReg) (e : VEntry) : Nat → Nat → M (Option (Nat × Tried Unit))
  | 0, _ => pure none
  | n + 1, i => do
    let h ← hartM
    let a := d.column e.scal2 i
    if !h.maskBit e.o.m.toNat i then columnCopy d x e n (i + 1) else
    let run : M Unit := do
      refuseDev a
      storeOne d.fmt x i a
    match ← attempt run with
    | .ok _ => columnCopy d x e n (i + 1)
    | t => return some (i, t)

/-- Active indices among n from i on. -/
def activeCount (h : Hart) (r : Nat) : Nat → Nat → Nat
  | 0, _ => 0
  | n + 1, i => (h.maskBit r i).toNat + activeCount h r n (i + 1)

/-- How many of n elements from index i and position p on both the register and the stream hold. -/
def heldCount (x : VReg) (d : Desc) : Nat → Nat → Nat → Nat
  | 0, _, _ => 0
  | n + 1, i, p => if (elem d.fmt x i).isSome && decide (p < d.len) then 1 + heldCount x d n (i + 1) (p + 1) else 0

/-- An entry of `vstp` that has come to index i of the group whose elements from `first` on it copies: its count, and the
stream's position, stand as far as i (R108, R180). -/
def vstpAt (e : VEntry) (first i : Nat) (half : Bool) : M VEntry := do
  let pos := ((← hartM).stream e.o.a).pos
  setPos e.o.a (pos + i - e.idx)
  pure { e with idx := i, gn := e.gn + i - e.idx, p := i - first, half := half }

/-- How a copy of a group of `vstp` stopped at index i: a full tape leaves `vstart` at the run (R180), another fault at
the group's beginning (R162), or in the group of a start index inside it at that index (log 168). -/
def vstpStop (e : VEntry) (first i : Nat) (half : Bool) : Tried Unit → M (VEntry × VEnd)
  | .trap t => do pure (← vstpAt e first (if t.cause = cTAPEFULL then i else first) half, .trap t)
  | .wait w => do pure (← vstpAt e first i half, .wait w)
  | .ok _ => pure (e, .quiet)

/-- `vstp` group by group: the plain copy, then the transposed one (R162). `e.p` counts the elements of the group below
the entry's index that the copy in progress has done. -/
def vstpLoop (d d2 : Desc) : Nat → VEntry → M (VEntry × VEnd)
  | 0, e => pure (e, .done 0 false false)
  | fuel + 1, e => do
    if e.vl ≤ e.idx then return (e, .done 0 false false)
    if e.paused e.vl && e.p = 0 && !e.half then return (e, .pause)
    let h ← hartM
    let x := h.vreg e.o.b
    let p := (h.stream e.o.a).pos
    let first := e.idx - e.p
    let stop := min e.vl ((e.idx / 64 + 1) * 64)
    let n := heldCount x d (stop - e.idx) e.idx p
    let plain ← if e.half then pure none else plainCopy d x e (e.idx + n) n e.idx p
    match plain with
    | some (i, t) => vstpStop e first i false t
    | none =>
      let from_ := if e.half then e.idx else first
      match ← columnCopy d2 x e (e.idx + n - from_) from_ with
      | some (i, t) => vstpStop e first i true t
      | none =>
        let w := fmtWidth d.fmt
        let e1 ← vstpAt e first (e.idx + n) false
        let e2 := { e1 with
          p := 0, gbb := e.gbb + (e1.idx - first) * w
          gbd := e.gbd + 2 * w * activeCount h e.o.m.toNat (e1.idx - first) first }
        if e2.idx < stop then return (e2, .done e2.idx true false)
        vstpLoop d d2 fuel e2

/-- One element of the transposed copy taken back, or stored as an ordinary element. -/
def columnBack (d : Desc) (e : VEntry) (i : Nat) : M Unit := do
  let h ← hartM
  let a := d.column e.scal2 i
  if !h.maskBit e.o.m.toNat i then return
  refuseDev a
  match h.region a.va a.bytes with
  | none => plainStore false d.fmt a (bitsOf (h.vreg e.o.b).bits (a.n * i) a.n)
  | some (_, r) =>
    regionCheck r .store a.va a.bytes (some d.fmt)
    popRun false e.o.b r i 1 a.va a.bytes

/-- One step of the plain copy taken back from index i down; answers the elements done. -/
def plainBack (d : Desc) (p0 : Nat) (e : VEntry) (i : Nat) : M Nat := do
  let h ← hartM
  let w := fmtWidth d.fmt
  let a := d.elemAt (p0 + i) w
  if !h.maskBit e.o.m.toNat i then return 1
  match h.region a.va a.bytes with
  | none =>
    raiseRecord e.o.a (fun _ => true) (p0 + i) (p0 + i + 1)
    refuseDev a
    plainStore false d.fmt a (bitsOf (h.vreg e.o.b).bits (w * i) w)
    return 1
  | some (k, r) =>
    let count := runDown h e d p0 k (i + 1) i
    let first := i + 1 - count
    raiseRecord e.o.a (fun _ => true) (p0 + first) (p0 + i + 1)
    checkRun r d count (p0 + first)
    refuseDevs d count (p0 + first)
    popRun false e.o.b r first count (d.elemAt (p0 + first) w).va (count * w / 8)
    return count

/-- A descending `vstp` (log 28): for each group from the top, the transposed copy and then the plain copy are taken
back. `e.acc` is twice P0, plus 1 in a group's plain part; `e.p` counts the elements done in the part, and the entry's
index those of whole groups. -/
def vstpDesc (d d2 : Desc) : Nat → VEntry → M (VEntry × VEnd)
  | 0, e => pure (e, .done 0 false false)
  | fuel + 1, e => do
    if e.vl ≤ e.idx then return (e, .done 0 false false)
    let h ← hartM
    let acc := (e.acc.map (·.value)).getD 0
    if e.pausedDown && acc % 2 = 0 && e.p = 0 then return (e, .pause)
    let p0 := acc / 2
    let top := e.vl - 1 - e.idx
    let n := top % 64 + 1
    if acc % 2 = 0 then
      if n ≤ e.p then vstpDesc d d2 fuel { e with acc := some { value := acc + 1 }, p := 0, half := false }
      else
        match ← attempt (columnBack d2 e (top - e.p)) with
        | .trap t => return ({ e with half := true }, .trap t)
        | .wait w => return (e, .wait w)
        | .ok _ => vstpDesc d d2 fuel { e with p := e.p + 1 }
    else if n ≤ e.p then
      vstpDesc d d2 fuel { e with
        acc := some { value := 2 * p0 }, p := 0, idx := e.idx + n, gn := e.gn + n, gbb := e.gbb
        gbd := e.gbd + 2 * fmtWidth d.fmt * activeCount h e.o.m.toNat n (top + 1 - n) }
    else
      match ← attempt (mapTrap streamFault (plainBack d p0 e (top - e.p))) with
      | .trap t => return ({ e with half := false }, .trap t)
      | .wait w => return (e, .wait w)
      | .ok count => vstpDesc d d2 fuel { e with p := e.p + count }

/-- A descending `vstp` from its index on: where it stops, its index and count stand at the elements done from the top, those
of the part in progress among them (R179, R180). -/
def vstpDown (d d2 : Desc) (p0 : Nat) (e : VEntry) : M (VEntry × VEnd) := do
  let (e1, r) ← vstpDesc d d2 (3 * e.vl + 3) { e with idx := e.idx - e.p, gn := e.gn - e.p }
  match r with
  | .done .. => setPos e.o.a (p0 + e.vl)
  | _ => pure ()
  pure ({ e1 with idx := e1.idx + e1.p, gn := e1.gn + e1.p }, r)

/-- `vstp` at the queue head: the direction of its streams first (R108, R312), then their formats (R319, log 162). -/
def bodyVstp : VBody := fun e => do
  let vrlen ← vrlenM
  let h ← hartM
  if !e.begun && vfmtReserved e.vfmt then return (e, headTrap cILLFMT)
  match (h.stream e.o.a).adopted, (h.stream (BitVec.ofNat 5 e.aux)).adopted with
  | some d, some d2 =>
    if !d.wr || !d2.wr then return (e, headTrap cILLEGAL)
    if !columnOk d || !columnOk d2 || d.fmt != d2.fmt then return (e, headTrap cILLFMT)
    let p := (h.stream e.o.a).pos
    if (if e.begun then e.acc.isSome else revAny h d p e.vl || revAnyColumn h e d2) then
      match e.acc.map (·.value) with
      | some acc => vstpDown d d2 (acc / 2) e
      | none =>
        if descTooLong vrlen e then return (e, headTrap cILLFMT)
        if d.len < p + e.vl then return emptyStream e
        modHart fun h => h.setVreg e.o.b ((h.vreg e.o.b).withFill (32 * e.vl))
        vstpDown d d2 p { e with begun := true, acc := some { value := 2 * p }, p := 0 }
    else vstpLoop d d2 (e.vl + 1) { e with begun := true }
  | _, _ => return emptyStream e

end Sys2Proof.Machine
end

