-- ==== Sys2Proof/Machine/VAtom.lean ====
section
/-! DEFINITION. Queue-head bodies of major 25: vector atomics and accumulation windows (14 R320 to R325). -/

namespace Sys2Proof.Machine

/-! ### Vector atomics (R320, R321) -/

/-- The operand of index i as a value of FB: bits read, and the value or a reserved-code trap. -/
def operandAt (h : Hart) (e : VEntry) (i : Nat) : Option (Nat × Except TrapInfo Val) :=
  srcValue h (srcB e) 1 (vfFB e.vfmt) (vfSCALE e.vfmt) i

/-- One atomic element: DEV and a host page without SA are refused, then one update at the home. -/
def atomicElem (e : VEntry) (d : Desc) (a : ElemAt) (v : Except TrapInfo Val) (f : Nat → Nat → Nat) : M Unit := do
  match v with
  | .error t => throw (.trap t)
  | .ok v =>
    atomicRegionCheck a.va a.bytes .atomic
    let l ← noDevLocate a.va a.bytes
    let x := convert v d.fmt (vfRM e.vfmt) (vfSAT e.vfmt)
    let _ ← homeUpdate .cs l a.va fun old => f old x
    pure ()

/-- A vector atomic over memory formats `ok`; `f` takes the stream's format, the old pattern and x. -/
def atomicBody (ok : Fmt → Bool) (f : Fmt → Nat → Nat → Nat) : VBody := fun e => do
  let h ← hartM
  if !e.begun && (vfmtReserved e.vfmt || !intOrJxi (vfFD e.vfmt)) then return (e, headTrap cILLFMT)
  match (h.stream e.o.a).adopted with
  | none => emptyIndexed e
  | some d =>
    if !(d.kind ≤ 1) || !ok d.fmt then return (e, headTrap cILLFMT)
    let step (h : Hart) (e : VEntry) (i : Nat) : Except IdxStop IdxStep :=
      match indexAt h (vfFD e.vfmt) e.o.d i, operandAt h e i with
      | some (ga, x), some (gb, v) =>
        .ok { ga := ga, gb := gb, bits := fmtWidth d.fmt, at_ := d.indexed x, acc := .atomic, access := do
          atomicElem e d (d.indexed x) v (f d.fmt)
          return id }
      | _, _ => .error .short
    idxBody step e

def atomicInt (f : Fmt) : Bool := f == 0x04 || f == 0x05 || f == 0x08 || f == 0x09

/-- The old and new patterns compared as the format reads them: x is at most y. -/
def atomicLe (f : Fmt) (x y : Nat) : Bool :=
  if fmtSigned f then decide (signExt (fmtWidth f) x ≤ signExt (fmtWidth f) y) else decide (x ≤ y)

def bodyVamoadd : VBody := atomicBody atomicInt fun f old x => (old + x) % 2 ^ fmtWidth f
def bodyVamomin : VBody := atomicBody atomicInt fun f old x => if atomicLe f old x then old else x
def bodyVamomax : VBody := atomicBody atomicInt fun f old x => if atomicLe f old x then x else old
def bodyVamoand : VBody := atomicBody atomicInt fun _ old x => old &&& x
def bodyVamoor : VBody := atomicBody atomicInt fun _ old x => old ||| x
def bodyVamoxor : VBody := atomicBody atomicInt fun _ old x => old ^^^ x
def bodyVamoswp : VBody := atomicBody atomicInt fun _ _ x => x
def bodyVfamoadd : VBody := atomicBody (· == 0x0D) fun _ old x => addF32 old x

/-! ### Opening and closing windows (R323, R325) -/

/-- The fields of `wopen`'s operand. -/
def wopenId (b : Word) : Nat := bitsOf b.toNat 0 4
def wopenFirst (b : Word) : Nat := bitsOf b.toNat 8 3
def wopenInt (b : Word) : Bool := b.getLsbD 15
def wopenCells (b : Word) : Nat := bitsOf b.toNat 16 10 + 1
/-- A bit that must be 0 is set. -/
def wopenBad (b : Word) : Bool := b &&& ~~~(0x3FF870F#64) != 0

/-- Bind n window blocks from j on to free core blocks. -/
def bindBlocks (gid hid : Nat) : Nat → Nat → M Unit
  | 0, _ => pure ()
  | n + 1, j => do
    let s ← get
    match findGang s gid, findHart s gid hid with
    | some g, some h =>
      match bindTcm s g gid hid h j with
      | none => trap cWINRANGE
      | some (_, s') => set s'; bindBlocks gid hid n (j + 1)
    | _, _ => throw (.fault .noAgent)

/-- `wopen` (R323). -/
def bodyWopen : VBody := fun e => do
  let here ← hereM
  let h ← hartM
  let g ← gangM
  if !e.begun && vfmtReserved e.vfmt then return (e, headTrap cILLFMT)
  let b := e.scal
  let first := wopenFirst b
  let n := ceilDiv (wopenCells b) 256
  let taken := tcmTaken (← get) (coreOf g h)
  let free := ((List.range 8).filter fun p => !taken.contains p).length
  if wopenBad b || 8 < first + n || (h.tcm.any fun c => first ≤ c.1 && c.1 < first + n) || free < n
      || (h.window (wopenId b)).isSome then
    return (beginEntry e, .trap { cause := cWINRANGE })
  bindBlocks here.gang here.hid n first
  modHart fun h => { h with
    windows := insertKey (wopenId b) { first := first, cells := wopenCells b, isInt := wopenInt b } h.windows }
  return (beginEntry e, .done 0 false false)

/-- `wclose` (R325): its blocks are unbound, and nothing happens if the window is not open. -/
def bodyWclose : VBody := fun e => do
  let h ← hartM
  if !e.begun && vfmtReserved e.vfmt then return (e, headTrap cILLFMT)
  let w := e.o.a.toNat
  match h.window w with
  | none => return (beginEntry e, .done 0 false false)
  | some x =>
    drain .as
    drain .cs
    let last := x.first + ceilDiv x.cells 256
    modHart fun h => { h with
      windows := h.windows.filter fun y => y.1 != w
      tcm := h.tcm.filter fun c => c.1 < x.first || last ≤ c.1 }
    return (beginEntry e, .done 0 false false)

/-! ### Adding into a window (R324) -/

/-- The cell that an index element names: none where no cell can be (log 29). -/
def cellOf (rm : Rnd) (v : Val) : Option Nat :=
  match v with
  | .int x => let y := (wordOfInt x).toInt; if y < 0 then none else some y.toNat
  | .real x => if x.isNan then none else
    let y := roundToInt rm x
    if y < 0 then none else some y.toNat

/-- `wadd` and `wfadd` at one active index; `wfadd` takes its operand at its working precision (06 R136, R138). -/
def windowAdd (e : VEntry) (float : Bool) (i : Nat) (c v : Except TrapInfo Val) : M Unit := do
  let h ← hartM
  match c with
  | .error t => throw (.trap t)
  | .ok c =>
    match h.window e.o.a.toNat, cellOf (vfRM e.vfmt) c with
    | some w, some c =>
      if w.cells ≤ c then trap cWINRANGE else
      match v with
      | .error t => throw (.trap t)
      | .ok v =>
        atomicRegionCheck (copyVa w (i % 64) c) 4 .store
        let x := convert v 0x04 (vfRM e.vfmt) (vfSAT e.vfmt)
        let y := wpValue e.vfmt (wpOf [vfFB e.vfmt]) v
        copyUpdate .cs w (i % 64) c fun old =>
          if float then roundF f32Fmt 0 (fAdd 0 (decodeF f32Fmt old) y) else (old + x) % 2 ^ 32
    | _, _ => trap cWINRANGE

/-- The loop of `wadd` and `wfadd`. -/
def windowLoop (float : Bool) : Nat → VEntry → M (VEntry × VEnd)
  | 0, e => pure (e, .done 0 false false)
  | n + 1, e => do
    let h ← hartM
    match srcValue h (.vec e.o.d) 0 (vfFD e.vfmt) (vfSCALE e.vfmt) e.idx, operandAt h e e.idx with
    | some (ga, c), some (gb, v) =>
      if !h.maskBit e.o.m.toNat e.idx then windowLoop float n (countIdx e ga gb)
      else
        match ← attempt (windowAdd e float e.idx c v) with
        | .trap t => return (e, .trap t)
        | .wait w => return (e, .wait w)
        | .ok _ => windowLoop float n (countIdx e ga gb)
    | _, _ => return (e, .done e.idx true false)

def windowBody (float : Bool) : VBody := fun e => do
  let h ← hartM
  if !e.begun && vfmtReserved e.vfmt then return (e, headTrap cILLFMT)
  let wrong := match h.window e.o.a.toNat with
    | some w => w.isInt == float
    | none => false
  if !e.begun && wrong then return (e, headTrap cILLFMT)
  let (e, r) ← windowLoop float (e.upTo e.vl - e.idx) (beginEntry e)
  pure (e, r.within e e.vl)

def bodyWadd : VBody := windowBody false
def bodyWfadd : VBody := windowBody true

/-! ### Merging a window (R325, 08 R181) -/

/-- The cell with the lanes folded in, lane 0 first. -/
def foldLanes (isInt : Bool) (s : Nat) (lanes : List Nat) : Nat :=
  lanes.foldl (fun s x => if isInt then (s + x) % 2 ^ 32 else addF32 s x) s

/-- Fold one cell. -/
def mergeCell (r : Region) (w : Window) (c : Nat) : M Unit := do
  let row := copyVa w 0 c
  let l ← locateHere .load row 256
  drain .cs
  let b ← readLocs [] l.locs row
  let lanes := (List.range 64).map fun j => bytesToNat ((b.drop (4 * j)).take 4)
  let cell := r.adjbase.toNat + 4 * (r.wfirst + c)
  let t ← locateHere .atomic cell 4
  let _ ← homeUpdate .cs t cell fun s => foldLanes w.isInt s lanes
  modify fun s => homeWrite s l.locs (List.replicate 256 0)

def mergeLoop (r : Region) (w : Window) : Nat → VEntry → M (VEntry × VEnd)
  | 0, e => pure (e, .done 0 false false)
  | n + 1, e => do
    match ← attempt (mergeCell r w e.idx) with
    | .trap t => return (e, .trap t)
    | .wait x => return (e, .wait x)
    | .ok _ => mergeLoop r w n (countIdx e 0 0)

/-- The valid windowed entry w of the table copy. -/
def Hart.windowRegion (h : Hart) (w : Nat) : Option Region :=
  match h.tp.table with
  | none => none
  | some t => (t[w]?).filter fun r => r.valid && r.acc = 1

/-- `wmerge`. -/
def bodyWmerge : VBody := fun e => do
  let h ← hartM
  if !e.begun && vfmtReserved e.vfmt then return (e, headTrap cILLFMT)
  match h.window e.o.a.toNat, h.windowRegion e.o.a.toNat with
  | some w, some r => do
    let (e, x) ← mergeLoop r w (e.upTo w.cells - e.idx) (beginEntry e)
    pure (e, x.within e w.cells)
  | _, _ => return (e, headTrap cPROT)

end Sys2Proof.Machine
end

