-- ==== Sys2Proof/Machine/VMat.lean ====
section
/-! DEFINITION. Queue-head bodies of major 26, the matrix unit (05 R116, 15 R329 to R335), and of the queue markers
(12 R253, R266, 14 R311, R326). -/

namespace Sys2Proof.Machine

/-! ### Tiles (05 R116) -/

/-- Cell (r, c) of a tile, as 32 bits. -/
def tileCell (z r c : Nat) : Nat := bitsOf z ((64 * r + c) * 32) 32
def tileSet (z r c v : Nat) : Nat := putBits z ((64 * r + c) * 32) 32 v

def Hart.tile (h : Hart) (t : Nat) : Nat := h.z[t % 4]'(Nat.mod_lt _ (by decide))
def Hart.setTile (h : Hart) (t z : Nat) : Hart := { h with z := h.z.set (t % 4) z (Nat.mod_lt _ (by decide)) }

/-- `zl` as a number. -/
def Hart.zlen (h : Hart) : Nat := h.zl.toNat

/-! ### Operation classes (R330) -/

def zInt (f : Fmt) : Bool := f == 0x00 || f == 0x01 || f == 0x02 || f == 0x06
def zFloat (f : Fmt) : Bool := f == 0x0A || f == 0x0B || f == 0x0C || f == 0x0D

/-- The formats of `zmma` and `zop`. -/
def zOk (fa fb : Fmt) : Bool := (zInt fa || zFloat fa) && (zInt fb || zFloat fb)

/-- Accumulate(cell, a × b). -/
def zAccumulate (float : Bool) (cell : Nat) (a b : Val) : Nat :=
  if float then roundF f32Fmt 0 (fAdd 0 (decodeF f32Fmt cell) (fMul a.toF b.toF))
  else
    match a, b with
    | .int x, .int y => wrapNat 32 ((cell : Int) + x * y)
    | _, _ => cell

/-- Values of elements lo, lo + 1, … of a register in a fixed format. -/
def elemVals (f : Fmt) (x : VReg) (lo n : Nat) : List Val :=
  (List.range n).map fun j => decodeFixed f (bitsOf x.bits (fmtWidth f * (lo + j)) (fmtWidth f))

/-- One outer product into a tile; `act r` says whether row r takes part. -/
def outer (float : Bool) (z : Nat) (act : Nat → Bool) (a b : List Val) : Nat :=
  a.zipIdx.foldl (fun z (x, r) =>
    if act r then b.zipIdx.foldl (fun z (y, c) => tileSet z r c (zAccumulate float (tileCell z r c) x y)) z else z) z

/-- Whether a register holds element k in a fixed format. -/
def holdsFixed (f : Fmt) (x : VReg) (k : Nat) : Bool := decide (fmtWidth f * (k + 1) ≤ x.fill)

/-! ### `zmma` and `zop` (R331, R332) -/

/-- Columns of a rank-K update from the entry's index on; it stops at the first one at or after an element-group boundary. -/
def mmaLoop (fa fb : Fmt) (zl : Nat) : Nat → Hart → VEntry → Hart × VEntry × VEnd
  | 0, h, e => (h, e, .done 0 false false)
  | n + 1, h, e =>
    if e.paused e.vl then (h, e, .pause) else
    let x := h.vreg e.o.a
    let y := h.vreg e.o.b
    let lo := e.idx
    if !holdsFixed fa x (lo + zl - 1) || !holdsFixed fb y (lo + zl - 1) then (h, e, .done lo true false)
    else
      let z := outer (zFloat fa || zFloat fb) (h.tile e.o.d.toNat) (fun r => h.maskBit e.o.m.toNat (lo + r))
        (elemVals fa x lo zl) (elemVals fb y lo zl)
      mmaLoop fa fb zl n (h.setTile e.o.d.toNat z)
        { e with idx := lo + zl, gn := e.gn + zl, gba := e.gba + zl * fmtWidth fa, gbb := e.gbb + zl * fmtWidth fb }

def bodyZmma : VBody := pureBody fun vrlen h e =>
  let fa := vfFA e.vfmt
  let fb := vfFB e.vfmt
  let zl := h.zlen
  headChecks (zOk fa fb && e.vl % zl == 0 && e.start % zl == 0)
    (fun _ h e => mmaLoop fa fb zl (e.vl / zl - e.idx / zl) h (beginEntry e)) vrlen h e

def bodyZop : VBody := pureBody fun vrlen h e =>
  let fa := vfFA e.vfmt
  let fb := vfFB e.vfmt
  headChecks (zOk fa fb) (fun _ h e =>
    let zl := h.zlen
    let e := beginEntry e
    let x := h.vreg e.o.a
    let y := h.vreg e.o.b
    if !holdsFixed fa x (zl - 1) || !holdsFixed fb y (zl - 1) then oneStop h e true false
    else
      let z := outer (zFloat fa || zFloat fb) (h.tile e.o.d.toNat) (h.maskBit e.o.m.toNat)
        (elemVals fa x 0 zl) (elemVals fb y 0 zl)
      (h.setTile e.o.d.toNat z,
        { e with gn := zl, gbd := 0, gba := zl * fmtWidth fa, gbb := zl * fmtWidth fb }, .done 0 false false)) vrlen h e

/-! ### `zzero`, `zacc` and `zdr` (R333, R334) -/

def bodyZzero : VBody := pureBody fun vrlen h e =>
  headChecks true (fun _ h e => oneDone (h.setTile e.o.d.toNat 0) (beginEntry e) 0 0 0) vrlen h e

/-- cell + value(i), as R333 adds. -/
def zAdd (cell : Nat) : Val → Nat
  | .int x => wrapNat 32 ((cell : Int) + x)
  | .real v => roundF f32Fmt 0 (fAdd 0 (decodeF f32Fmt cell) v)

def accLoop (fa : Fmt) (zl frow : Nat) : Nat → Hart → VEntry → Hart × VEntry × VEnd
  | 0, h, e => (h, e, .done 0 false false)
  | n + 1, h, e =>
    let x := h.vreg e.o.a
    let r := frow + e.idx / zl
    if 63 < r || !holdsFixed fa x e.idx then (h, e, .done e.idx true false)
    else
      let w := fmtWidth fa
      let v := decodeFixed fa (bitsOf x.bits (w * e.idx) w)
      let z := h.tile e.o.d.toNat
      let c := e.idx % zl
      let h1 := if h.maskBit e.o.m.toNat e.idx then h.setTile e.o.d.toNat (tileSet z r c (zAdd (tileCell z r c) v)) else h
      accLoop fa zl frow n h1 (countIdx e w 0)

def bodyZacc : VBody := pureBody fun vrlen h e =>
  let fa := vfFA e.vfmt
  headChecks (fmtFixed fa && !fmtB1 fa)
    (fun _ h e =>
      let (h, e, r) := accLoop fa h.zlen (bitsOf e.scal.toNat 0 6) (e.upTo e.vl - e.idx) h (beginEntry e)
      (h, e, r.within e e.vl)) vrlen h e

/-- A loop that ended below `vl` without a stop reports where it ended (12 R259). -/
def VEnd.vcontBelow (r : VEnd) (e : VEntry) : VEnd :=
  if r = .done 0 false false && decide (e.idx < e.vl) then .done e.idx false false else r

/-- `zdr`. -/
def bodyZdr : VBody := pureBody fun vrlen h e =>
  let fd := vfFD e.vfmt
  headChecks (!fmtB1 fd) (fun vrlen h e =>
    let zl := h.zlen
    let b := e.scal.toNat
    let frow := bitsOf b 0 6
    let z := h.tile e.o.a.toNat
    let comp : Comp := fun _ e i =>
      let r := frow + i / zl
      if 63 < r then none
      else
        let cell := tileCell z r (i % zl)
        some (32, 0, .ok (if bitsOf b 16 1 = 1 then encodeTo e.vfmt fd (.real (decodeF f32Fmt cell))
          else encodeIntTo e.vfmt fd (signExt 32 cell)))
    let (h, e, r) := elementWise fd govMask comp (min e.vl (bitsOf b 8 7 * zl)) vrlen h e
    (h, e, r.vcontBelow e)) vrlen h e

/-! ### `zld` and `zst` (R335) -/

/-- Fields that a row-move entry keeps: tile, first row, rows minus 1. -/
def rowTile (aux : Nat) : Nat := bitsOf aux 0 2
def rowFirst (aux : Nat) : Nat := bitsOf aux 2 6
def rowLast (aux : Nat) : Nat := bitsOf aux 8 6
def packRows (tile frow nrowm1 : Nat) : Nat := tile + 4 * frow + 256 * nrowm1

/-- The address of the row at offset j. -/
def rowVa (e : VEntry) (j : Nat) : Nat := (e.scal + BitVec.ofNat 64 j * e.scal2).toNat

/-- The first n cells of a row, and a tile with them replaced. -/
def rowCells (z r n : Nat) : List Nat := (List.range n).map (tileCell z r)
def setRow (z r : Nat) (cells : List Nat) : Nat :=
  cells.zipIdx.foldl (fun z (v, c) => tileSet z r c v) z

/-- A row may lie neither on a DEV page nor in a region: the trap names its first byte there. -/
def rowLocs (acc : Acc) (va n : Nat) : M Found := do
  let l ← locateHere acc va n
  let first := min n (65536 - va % 65536)
  let dev1 ← if l.dev then (do pure (← locateHere acc va first).dev) else pure false
  let h ← hartM
  let bad (k : Nat) : Bool := dev1 || (l.dev && first ≤ k) || (h.touches (va + k) 1).isSome
  match (List.range n).find? bad with
  | some k => trap cPROT (BitVec.ofNat 64 (va + k)) acc.code
  | none => pure l

/-- Move one row. -/
def moveRow (store : Bool) (e : VEntry) (j : Nat) : M Unit := do
  let h ← hartM
  let n := h.zlen
  let t := rowTile e.aux
  let r := rowFirst e.aux + j
  let va := rowVa e j
  if store then do
    let l ← rowLocs .store va (4 * n)
    queueCells false l ((rowCells (h.tile t) r n).flatMap fun c => natToBytes c 4)
  else do
    let l ← rowLocs .load va (4 * n)
    let b ← readLocs h.cbuf l.locs va
    let cells := (List.range n).map fun c => bytesToNat ((b.drop (4 * c)).take 4)
    modHart fun h => h.setTile t (setRow (h.tile t) r cells)

/-- Rows from the entry's offset on. The encoding admits no row at or above 64 (R194). -/
def rowLoop (store : Bool) : Nat → VEntry → M (VEntry × VEnd)
  | 0, e => pure (e, .done 0 false false)
  | n + 1, e => do
    if 63 < rowFirst e.aux + e.idx then return (e, .done e.idx true false)
    if e.paused (rowLast e.aux + 1) then return (e, .pause)
    let zl := (← hartM).zlen
    match ← attempt (moveRow store e e.idx) with
    | .trap t => return (e, .rowTrap t)
    | .wait w => return (e, .wait w)
    | .ok _ =>
      rowLoop store n { e with
        idx := e.idx + 1, gn := e.gn + 1, gbd := e.gbd + (if store then 32 * zl else 0)
        gba := e.gba + (if store then 0 else 32 * zl) }

/-- `zld` and `zst`: misaligned operands trap PROT at the first row (log 31). -/
def rowBody (store : Bool) : VBody := fun e => do
  if !e.begun && vfmtReserved e.vfmt then return (e, headTrap cILLFMT)
  if e.scal.toNat % 4 != 0 || e.scal2.toNat % 4 != 0 then
    return (beginEntry e, .rowTrap { cause := cPROT, eaddr := e.scal, einfo := (if store then Acc.store else Acc.load).code })
  rowLoop store (rowLast e.aux + 1 - e.idx) (beginEntry e)

def bodyZld : VBody := rowBody false
def bodyZst : VBody := rowBody true

/-! ### Queue markers -/

/-- `snext` (14 R311, 05 R108): adopt the descriptor it took. -/
def bodySnext : VBody := fun e => do
  match e.taken with
  | none => return (e, .quiet)
  | some q =>
    modHart fun h => h.setStream e.o.a { h.stream e.o.a with
      adopted := some q.desc, pos := 0, ahead := 0, walk := [], dfault := q.dfault, cover := none }
    return (e, .quiet)

/-- `vsetf` (12 R266). It captures `vcap` for its own limit. -/
def bodyVsetf : VBody := fun e => do
  let vrlen ← vrlenM
  modHart fun h =>
    h.setVreg e.o.d ((h.vreg e.o.d).withFill (min e.scal.toNat (vlimit vrlen h.vc.vcap.toNat)))
  return (e, .quiet)

/-- `vclr` (12 R266). -/
def bodyVclr : VBody := fun e => do
  modHart fun h => h.setVreg e.o.d { bits := 0, fill := 0 }
  return (e, .quiet)

/-- Discard the walk-ahead data of every stream (14 R326). -/
def Hart.dropWalks (h : Hart) : Hart :=
  { h with s := h.s.map fun x => { x with walk := [], ahead := x.pos } }

/-- `fence.vv` (14 R326). -/
def bodyFenceVv : VBody := fun e => do
  drain .cs
  modHart Hart.dropWalks
  return (e, .quiet)

end Sys2Proof.Machine
end

