-- ==== Sys2Proof/Machine/VQueue.lean ====
section
/-! DEFINITION. The vector instruction queue: the gang barrier that its markers reach (11 R250 to R252), the body of
every queued instruction, the queue head with its reports and traps (05 R112, 07 R153, 12 R253, R259), and queue
entry. -/

namespace Sys2Proof.Machine

/-! ### The gang barrier (11 R250 to R252) -/

/-- Whether the CS has arrived at phase k: the arrival has been given, and no marker for it is unfired. -/
def Hart.csArrived (h : Hart) (k : Nat) : Bool :=
  let unfired (e : VEntry) : Bool := e.kind == .garr && e.aux == k
  decide (k < h.csArr) && !h.viq.any unfired && !h.held.any unfired && !h.markers.any fun m => m.1 == k

/-- Whether the AS has arrived at phase k: the arrival has been given, and is not held back for older stores. -/
def Hart.asArrived (h : Hart) (k : Nat) : Bool := decide (k < h.asArr) && !h.asHeld.any fun m => m.1 == k

/-- Whether both slices of a hart have arrived at phase k; an exited hart has. -/
def Hart.arrivedAt (h : Hart) (k : Nat) : Bool := h.mode == .exited || (h.asArrived k && h.csArrived k)

/-- Complete phases in ascending order, at most n of them. -/
def Gang.phases (g : Gang) : Nat → Gang
  | 0 => g
  | n + 1 => if g.harts.all (·.arrivedAt g.ph) then Gang.phases { g with ph := g.ph + 1 } n else g

/-- A gang after arrivals: no phase beyond the arrivals given can complete. With every hart exited no phase is left
to wait for. -/
def Gang.advance (g : Gang) : Gang :=
  if g.harts.all (·.mode == .exited) then g
  else g.phases (g.harts.foldl (fun m h => max m (max h.asArr h.csArr)) 0 + 1 - g.ph)

/-- Recheck the barrier of the executing hart's gang. -/
def barrierM : M Unit := modGang Gang.advance

/-- The marker of `garr` at the queue head: it fires at once when the hart has no older vector store pending, else it
waits for them beside the queue (11 R251). -/
def bodyGarr : VBody := fun e => do
  modHart fun h =>
    if h.cbuf.any fun w => w.seq < e.seq then { h with markers := h.markers ++ [(e.aux, e.seq)] } else h
  return (e, .quiet)

/-! ### Bodies -/

/-- What each queued instruction does at the queue head. -/
def vecBody : VKind → VBody
  | .vadd => bodyVadd
  | .vsub => bodyVsub
  | .vmul => bodyVmul
  | .vmulh => bodyVmulh
  | .vmac => bodyVmac
  | .vand => bodyVand
  | .vor => bodyVor
  | .vxor => bodyVxor
  | .vsll => bodyVsll
  | .vsrl => bodyVsrl
  | .vsra => bodyVsra
  | .vmin => bodyVmin
  | .vmax => bodyVmax
  | .vminu => bodyVminu
  | .vmaxu => bodyVmaxu
  | .vsel => bodyVsel
  | .vadds => bodyVadds
  | .vsubs => bodyVsubs
  | .vaddsu => bodyVaddsu
  | .vsubsu => bodyVsubsu
  | .vdiv => bodyVdiv
  | .vrem => bodyVrem
  | .vdivu => bodyVdivu
  | .vremu => bodyVremu
  | .vabs => bodyVabs
  | .vclz => bodyVclz
  | .vpop => bodyVpop
  | .vwmul => bodyVwmul
  | .vwmac => bodyVwmac
  | .vbext => bodyVbext
  | .vmov => bodyVmov
  | .vmeq => bodyVmeq
  | .vmne => bodyVmne
  | .vmlt => bodyVmlt
  | .vmle => bodyVmle
  | .vmltu => bodyVmltu
  | .vmleu => bodyVmleu
  | .vmfeq => bodyVmfeq
  | .vmflt => bodyVmflt
  | .vmfle => bodyVmfle
  | .vmfun => bodyVmfun
  | .vmfin => bodyVmfin
  | .vmand => bodyVmand
  | .vmor => bodyVmor
  | .vmxor => bodyVmxor
  | .vmandn => bodyVmandn
  | .vfadd => bodyVfadd
  | .vfsub => bodyVfsub
  | .vfmul => bodyVfmul
  | .vfdiv => bodyVfdiv
  | .vfmac => bodyVfmac
  | .vfnmac => bodyVfnmac
  | .vfmin => bodyVfmin
  | .vfmax => bodyVfmax
  | .vfsqrt => bodyVfsqrt
  | .vfrsq => bodyVfrsq
  | .vfrcp => bodyVfrcp
  | .vfabs => bodyVfabs
  | .vfneg => bodyVfneg
  | .vfcvt => bodyVfcvt
  | .vdec => bodyVdec
  | .venc => bodyVenc
  | .vbnd => bodyVbnd
  | .vcnt => bodyVcnt
  | .vtier => bodyVtier
  | .vbits => bodyVbits
  | .vskip => bodyVskip
  | .vcat => bodyVcat
  | .vbget => bodyVbget
  | .vpack => bodyVpack
  | .vexpand => bodyVexpand
  | .vrepack => bodyVrepack
  | .vredsum => bodyVredsum
  | .vredmin => bodyVredmin
  | .vredmax => bodyVredmax
  | .vredand => bodyVredand
  | .vredor => bodyVredor
  | .vredxor => bodyVredxor
  | .vfredsum => bodyVfredsum
  | .vfredmin => bodyVfredmin
  | .vfredmax => bodyVfredmax
  | .vfredsq => bodyVfredsq
  | .vscan => bodyVscan
  | .vfscan => bodyVfscan
  | .vfirst => bodyVfirst
  | .vmcnt => bodyVmcnt
  | .viota => bodyViota
  | .vid => bodyVid
  | .vslidedn => bodyVslidedn
  | .vslideup => bodyVslideup
  | .vgatherv => bodyVgatherv
  | .vbcast => bodyVbcast
  | .vext => bodyVext
  | .vins => bodyVins
  | .vzip => bodyVzip
  | .vunzip => bodyVunzip
  | .vrev => bodyVrev
  | .vbrk => bodyVbrk
  | .vbrkb => bodyVbrkb
  | .vbput => bodyVbput
  | .vld => bodyVld
  | .vst => bodyVst
  | .vldff => bodyVldff
  | .vldx => bodyVldx
  | .vstx => bodyVstx
  | .vldw => bodyVldw
  | .vspill => bodyVspill
  | .vfill => bodyVfill
  | .vld2 => bodyVld2
  | .vstp => bodyVstp
  | .vamoadd => bodyVamoadd
  | .vamomin => bodyVamomin
  | .vamomax => bodyVamomax
  | .vamoand => bodyVamoand
  | .vamoor => bodyVamoor
  | .vamoxor => bodyVamoxor
  | .vamoswp => bodyVamoswp
  | .vfamoadd => bodyVfamoadd
  | .wopen => bodyWopen
  | .wadd => bodyWadd
  | .wfadd => bodyWfadd
  | .wmerge => bodyWmerge
  | .wclose => bodyWclose
  | .zzero => bodyZzero
  | .zmma => bodyZmma
  | .zop => bodyZop
  | .zdr => bodyZdr
  | .zacc => bodyZacc
  | .zld => bodyZld
  | .zst => bodyZst
  | .snext => bodySnext
  | .vsetf => bodyVsetf
  | .vclr => bodyVclr
  | .fenceVv => bodyFenceVv
  | .garr => bodyGarr

/-! ### The queue head -/

/-- How a turn of the queue head ended. -/
inductive HeadEnd where
  | done
  | trapped
  | waiting (w : WaitAt)
  | paused
  deriving DecidableEq, Repr

/-- The executing hart after its queue head left with `r`, and `rest` behind it. -/
def Hart.afterHead (h : Hart) (e e' : VEntry) (rest : List VEntry) (r : VEnd) : Hart :=
  match r with
  | .done vcont short full =>
    { h.closeStores (some e.seq) with viq := rest, vc := h.vc.report e' vcont false false short full }
  | .quiet => { h.closeStores (some e.seq) with viq := rest }
  | .trap _ =>
    { h with
      viq := { e' with resume := true, faulted := h.maskBit e'.o.m.toNat e'.idx } :: rest, vc := h.vc.trapReport e' }
  | .rowTrap _ =>
    { h with
      viq := { e' with resume := true } :: rest, zrow := BitVec.ofNat 64 e'.idx
      vc := h.vc.report e' e'.idx false true false false }
  | .headTrap _ => { h with viq := e :: rest }
  | .wait _ => { h with viq := e' :: rest }
  | .pause => { h with viq := e' :: rest }

/-- Indexed instructions: what they have done is kept element by element (04 R90). -/
def VKind.indexed : VKind → Bool
  | .vldx | .vstx | .vamoadd | .vamomin | .vamomax | .vamoand | .vamoor | .vamoxor | .vamoswp | .vfamoadd => true
  | _ => false

/-- An entry that works down from `vl` − 1 (08 R179). -/
def VEntry.descends (e : VEntry) : Bool := (e.kind == .vst || e.kind == .vstp) && e.acc.isSome

/-- The last index up to the entry's at which a forced stop may fall (04 R90, 12 R259): a row, what an indexed instruction has
done, or an element-group boundary, counted from below in a descending entry. -/
def VEntry.boundary (e : VEntry) : Nat :=
  if e.kind.rows || e.kind.indexed then e.idx
  else if e.descends then e.vl - ceilDiv (e.vl - e.idx) 64 * 64
  else e.idx / 64 * 64

/-- Run an entry from a state as far as index b only, and leave it there; nothing at all where a descending one would not get
beyond its own index. -/
def runTo (s : State) (e : VEntry) (b : Nat) : M VEntry := do
  set s
  if e.descends && b ≤ e.idx then return e
  let (e1, _) ← vecBody e.kind { e with until_ := some (max e.idx b) }
  return { e1 with until_ := e.until_ }

/-- The arrival counter that an instruction has observed is not forgotten when its elements are taken back (14 R316). -/
def keepCover (e : VEntry) (cover : Option Nat) : M Unit := do
  if e.kind = .vldw then
    modHart fun h => h.setStream e.o.a { h.stream e.o.a with cover := cover }

/-- Run an entry at the queue head. One that comes to wait inside an element group has done nothing of that group: a group's
accesses issue together (04 R90, log 163). -/
def runEntry (e : VEntry) : M (VEntry × VEnd) := do
  let s ← get
  match ← attempt (vecBody e.kind e) with
  | .trap t => throw (.trap t)
  | .wait w => pure (e, .wait w)
  | .ok (e1, r) =>
    match r with
    | .wait w =>
      if e1.boundary = e1.idx then pure (e1, r) else
      let cover := ((← hartM).stream e.o.a).cover
      let e2 ← runTo s e e1.boundary
      keepCover e cover
      pure (e2, .wait w)
    | _ => pure (e1, r)

/-- Run the instruction at the head of the executing hart's queue. -/
def runHead : M HeadEnd := do
  let here ← hereM
  match (← hartM).viq with
  | [] => pure .done
  | e :: rest =>
    let (e', r) ← runEntry e
    modHart fun h => h.afterHead e e' rest r
    match r.trap? with
    | some t =>
      modify fun s => takeTrap s here.gang here.hid .cs (some e.pc) t
      pure .trapped
    | none =>
      match r with
      | .wait w => pure (.waiting w)
      | .pause => pure .paused
      | _ =>
        if e.kind = .garr then barrierM
        pure .done

/-! ### Progress inside the queue (04 R90, 05 R112, 07 R156, 16 R362) -/

/-- An entry that is to run for n element groups, or n rows, and then to pause. -/
def VEntry.forGroups (e : VEntry) (n : Nat) : VEntry :=
  { e with until_ := some (if e.kind.rows then e.idx + n else (e.idx / 64 + n) * 64) }

/-- Run the queue head for n element groups. It stops before a group in which an element traps: the trap is raised when it
runs again from there (07 R156). -/
def runHeadPart (n : Nat) : M HeadEnd := do
  let s ← get
  match (← hartM).viq with
  | [] => pure .done
  | e :: rest =>
    let (e', r) ← runEntry (e.forGroups n)
    let e1 := { e' with until_ := none }
    match r with
    | .headTrap _ => do
      set s
      pure .paused
    | .trap _ => do
      let e2 ← if e1.kind.indexed then pure e1 else runTo s e e1.boundary
      modHart fun h => { h with viq := { e2 with until_ := none } :: rest }
      pure .paused
    | .rowTrap _ => do
      modHart fun h => { h with viq := e1 :: rest }
      pure .paused
    | _ => do
      modHart fun h => h.afterHead e e1 rest r
      match r with
      | .wait w => pure (.waiting w)
      | .pause => pure .paused
      | _ =>
        if e.kind = .garr then barrierM
        pure .done

/-- Instructions whose index i reads and writes only elements and mask bits i. -/
def VKind.lanewise : VKind → Bool
  | .vadd | .vsub | .vmul | .vmulh | .vmac | .vand | .vor | .vxor | .vsll | .vsrl | .vsra | .vmin | .vmax | .vminu
  | .vmaxu | .vsel | .vadds | .vsubs | .vaddsu | .vsubsu | .vdiv | .vrem | .vdivu | .vremu | .vabs | .vclz | .vpop
  | .vbext | .vmov | .vmeq | .vmne | .vmlt | .vmle | .vmltu | .vmleu | .vmfeq | .vmflt | .vmfle | .vmfun | .vmfin
  | .vmand | .vmor | .vmxor | .vmandn | .vfadd | .vfsub | .vfmul | .vfdiv | .vfmac | .vfnmac | .vfmin | .vfmax | .vfsqrt
  | .vfrsq | .vfrcp | .vfabs | .vfneg | .vfcvt | .vid => true
  | _ => false

/-- Vector atomics (14 R320). -/
def VKind.atomic : VKind → Bool
  | .vamoadd | .vamomin | .vamomax | .vamoand | .vamoor | .vamoxor | .vamoswp | .vfamoadd => true
  | _ => false

/-- The stream register of a plain load or store at a stream's position. -/
def VEntry.plainStream (e : VEntry) : Option (BitVec 5) :=
  match e.kind with
  | .vld => some e.o.a
  | .vst => some e.o.d
  | _ => none

/-- The stream register of a plain load or store, or an indexed access. -/
def VEntry.memStream (e : VEntry) : Option (BitVec 5) :=
  if e.kind.atomic then some e.o.a else
  match e.kind with
  | .vldx => some e.o.a
  | .vstx => some e.o.d
  | _ => e.plainStream

/-- The register and format that an indexed access takes its indices from. -/
def VEntry.indices (e : VEntry) : Option (BitVec 5 × Fmt) :=
  if e.kind.atomic then some (e.o.d, vfFD e.vfmt) else
  match e.kind with
  | .vldx => some (e.o.b, vfFB e.vfmt)
  | .vstx => some (e.o.a, vfFB e.vfmt)
  | _ => none

/-- The smallest and the largest width at which an entry that goes through its indices in order reads or writes registers: a
lanewise one, or an access in forward mode. -/
def Hart.entryWidths (h : Hart) (e : VEntry) : Option (Nat × Nat) :=
  let widths (fs : List Fmt) : Option (Nat × Nat) :=
    if fs.all fun f => !fmtReserved f && fmtFixed f then some ((fs.map fmtWidth).foldl min 64, (fs.map fmtWidth).foldl max 1)
    else none
  if e.kind.lanewise then widths [vfFA e.vfmt, vfFB e.vfmt, vfFD e.vfmt]
  else if h.adjMode != 0 then none
  else
    (e.memStream.bind fun r => (h.stream r).adopted).bind fun d =>
      if e.kind.atomic then widths [d.fmt, vfFB e.vfmt, vfFD e.vfmt]
      else widths (d.fmt :: (e.indices.map (·.2)).toList)

/-- Entry e may run up to index u while an older entry stands where it is: what it reads that one has written, and what it
writes that one has read (04 R90). -/
def Hart.chained (h : Hart) (x e : VEntry) (u : Nat) : Bool :=
  match h.entryWidths x, h.entryWidths e with
  | some (lo, _), some (_, hi) => !x.kind.indexed && x.begun && decide (u ≤ x.idx) && decide (hi * u ≤ lo * x.idx)
  | _, _ => false

/-- The vector registers that an access reads, and those that it writes. -/
def VEntry.memReads (e : VEntry) : List (BitVec 5) :=
  if e.kind.atomic then (if e.o.bs then [e.o.d] else [e.o.b, e.o.d]) else
  match e.kind with
  | .vst => [e.o.b]
  | .vldx => [e.o.b]
  | .vstx => [e.o.a, e.o.b]
  | _ => []
def VEntry.memWrites (e : VEntry) : List (BitVec 5) :=
  match e.kind with
  | .vld | .vldx => [e.o.d]
  | _ => []

/-- Accesses that share no register. -/
def VEntry.regsApart (x e : VEntry) : Bool :=
  x.memStream.isSome && e.memStream.isSome &&
    !x.memWrites.any (fun r => e.memReads.contains r || e.memWrites.contains r) && !e.memWrites.any x.memReads.contains

/-- The bytes that an access still makes below index u, each at its location; none where one of them would fault, wait or
lie on a DEV page. -/
def accessBytes (e : VEntry) (u : Nat) : M (Option (List Nat)) := do
  let h ← hartM
  let acc : Acc := if e.kind.atomic then .atomic else match e.kind with | .vst | .vstx => .store | _ => .load
  match e.memStream.bind fun r => ((h.stream r).adopted.map fun d => (r, d)) with
  | none => pure none
  | some (r, d) =>
    let at_ (i : Nat) : Option ElemAt :=
      match e.indices with
      | some (v, f) => (indexAt h f v i).map fun x => d.indexed x.2
      | none => some (d.elemAt ((h.stream r).pos + i - e.idx) (fmtWidth d.fmt))
    let one (i : Nat) : M (Option (List Nat)) :=
      if !h.maskBit e.o.m.toNat i then pure (some []) else
      match at_ i with
      | none => pure (some [])
      | some a => do
        match ← attempt (locateHere acc a.va a.bytes) with
        | .ok l => pure (if l.dev || (l.locs.any (poisoned (← get))) then none else some l.locs)
        | _ => pure none
    if d.kind = 2 then pure none else
    let again := (List.range e.idx).filter fun i => e.kind.indexed && h.mfault.testBit i
    let l ← (again ++ (List.range (u - e.idx)).map (e.idx + ·)).mapM one
    pure ((l.mapM id).map List.flatten)

/-- Where older entries make their accesses is known before they have run: an older access of the list neither moves a
younger one's stream nor writes the register of its indices. -/
def placesKnown : List VEntry → Bool
  | [] => true
  | x :: rest =>
    rest.all (fun y => (y.memStream.isNone || y.memStream != x.memStream) &&
      (y.indices.map fun v => !x.memWrites.contains v.1).getD true) && placesKnown rest

/-- Entry e makes its accesses below index u before older accesses make theirs: the bytes are others (16 R362), on another
stream, and at most one of the two is indexed, since `mdone` and `mfault` are of one (07 R160). -/
def bytesApart (older : List VEntry) (e : VEntry) (u : Nat) : M Bool := do
  let mems := older.filter (·.memStream.isSome)
  if e.memStream.isNone || mems.isEmpty then return true
  if (← hartM).adjMode != 0 || !placesKnown (mems ++ [e]) || (e.kind.indexed && mems.any (·.kind.indexed)) then return false
  match ← accessBytes e u with
  | none => return false
  | some mine => do
    let others ← mems.mapM fun x => accessBytes x x.vl
    return others.all fun l => match l with | some l => !l.any mine.contains | none => false

/-- Entry e may run up to index u behind the older ones: on chained registers or on none of theirs, and on other bytes. -/
def mayRunBehind (older : List VEntry) (e : VEntry) (u : Nat) : M Bool := do
  let h ← hartM
  if older.all fun x => h.chained x e u || x.regsApart e then bytesApart older e u else return false

/-- Run entry k of the queue, behind older ones, for n element groups: nothing where it may not go so far, or would stop
for another reason. It says whether the entry went on. -/
def runBehind (k n : Nat) : M Bool := do
  let h ← hartM
  match h.viq[k]? with
  | none => pure false
  | some e =>
    let older := h.viq.take k
    let x := e.forGroups n
    let u := x.upTo e.vl
    let s ← get
    let may ← mayRunBehind older e u
    if !may then set s; return false
    modHart fun h => { h with viq := x :: h.viq.eraseIdx k }
    match ← attempt (vecBody e.kind x) with
    | .ok (e', r) =>
      let e1 := { e' with until_ := none }
      if (r = .pause || r = .done 0 false false) && e.idx < e1.idx then
        modHart fun h => { (if r = .pause then h else h.closeStores (some e.seq)) with viq := older ++ e1 :: h.viq.drop (k + 1) }
        return true
      set s
      return false
    | _ => set s; return false

/-! ### Queue entry (12 R253) -/

/-- Queue markers capture nothing (R253). -/
def VKind.marker : VKind → Bool
  | .snext | .vsetf | .vclr | .fenceVv | .garr => true
  | _ => false

/-- Operands that are not those of a V word. -/
def noOps : VOps := { bs := false, cb := false, ca := false, m := 0, b := 0, a := 0, d := 0 }

/-- The entry an instruction of a hart makes. -/
def Hart.entry (h : Hart) (kind : VKind) (o : VOps) (pc scal scal2 : Word) (aux : Nat) (taken : Option QDesc) : VEntry :=
  let start := if kind.rows then h.zrow.toNat else if kind.marker || kind == .vbput then 0 else h.vc.vstart.toNat
  { kind := kind, o := o, pc := pc, vl := h.vc.vl.toNat, vfmt := h.vc.vfmt, vcap := h.vc.vcap.toNat
    scal := scal, scal2 := scal2, aux := aux, start := start, idx := start, begun := false
    gn := 0, gbd := 0, gba := 0, gbb := 0, acc := none, half := false, p := 0, seq := h.seq, fenced := false
    resume := false, faulted := false, until_ := none, taken := taken }

/-- The hart after a queue entry: `vstart`, or with it `zrow`, is captured and set to 0. Where the queue was empty no
earlier instruction adds to its stores any more. -/
def Hart.enter (h : Hart) (e : VEntry) : Hart :=
  let h1 := { h with
    viq := h.viq ++ [e], seq := h.seq + 1, cbuf := if h.viq.isEmpty then h.closeStores.cbuf else h.cbuf }
  if e.kind.marker || e.kind == .vbput then h1
  else { h1 with vc := { h1.vc with vstart := 0 }, zrow := if e.kind.rows then 0 else h1.zrow }

/-- What a CS instruction that needs the queue waits at: `vldw` at its counter makes the hart waiting (14 R316). -/
def queueWait (h : Hart) : WaitAt :=
  match h.viq with
  | e :: _ => if e.kind = .vldw then .counter else .vqueue
  | [] => .vqueue

/-- Wait until every older queued instruction has completed. -/
def needQueueEmpty : M Unit := do
  let h ← hartM
  if h.viq.isEmpty then pure () else waitAt (queueWait h)

/-- The CS that moves runs ahead of its queue: what it issues is only queued (05 R112, log 5). -/
def State.ahead (s : State) : Bool :=
  match s.cur with
  | .ahead _ _ => true
  | _ => false

/-! ### Issue on a pipe (04 R84, R85) -/

/-- The pipe of a queued instruction (04 R84). -/
def vPipe (k : VKind) : Pipe :=
  match k with
  | .vdec | .venc | .vbnd | .vcnt | .vtier | .vbits | .vskip | .vcat | .vbget | .vpack | .vexpand | .vrepack => .code
  | .zzero | .zmma | .zop | .zdr | .zacc => .matrix
  | .vld | .vst | .vldff | .vldx | .vstx | .vldw | .vspill | .vfill | .vld2 | .vstp | .vamoadd | .vamomin | .vamomax
  | .vamoand | .vamoor | .vamoxor | .vamoswp | .vfamoadd | .wopen | .wadd | .wfadd | .wmerge | .wclose | .zld | .zst
  | .snext => .memory
  | _ => .valu

/-- The place of a pipe in the lists of a hart. -/
def pipeIndex : Pipe → Nat
  | .asIssue => 0
  | .csScalar => 1
  | .valu => 2
  | .code => 3
  | .matrix => 4
  | .memory => 5

/-- A hart that issues on a pipe (04 R85). -/
def Hart.issuesOn (h : Hart) (pri k : Nat) : Hart :=
  { h with issueClass := h.issueClass.set k pri, passed := h.passed.set k 0 }

/-- A hart has issued on a pipe (04 R85). -/
def noteIssue (s : State) (g h : Nat) (p : Pipe) : State :=
  match findLaunch s g with
  | some l => mapHart s g h fun x => x.issuesOn (bitsOf l.record.ctrl.toNat 10 2) (pipeIndex p)
  | none => s

/-- Put an instruction of n bytes into the queue, with 16 entries at most (05 R112); an instruction that finds the
queue empty starts at once, unless the CS runs ahead (log 5). -/
def enqueue (kind : VKind) (o : VOps) (n : Nat) (scal scal2 : Word) (aux : Nat) (taken : Option QDesc := none) :
    M Unit := do
  let h ← hartM
  if 16 ≤ h.viq.length then waitAt (queueWait h) else
  let e := h.entry kind o h.cs.pc scal scal2 aux taken
  advance n
  modHart fun h => h.enter e
  if h.viq.isEmpty && !(← get).ahead then
    let here ← hereM
    match ← runHead with
    | .waiting _ => pure ()
    | _ => modify fun s => noteIssue s here.gang here.hid (vPipe kind)

/-- A V word: its scalar operand is read at entry. -/
def issueV (kind : VKind) (o : VOps) : State → Result :=
  runScalar csOnly do
    let b ← getX o.b
    enqueue kind o 4 (if o.bs then b else 0) 0 0

/-- A matrix word traps ILLEGAL while the tiles are not live (05 R116). -/
def needTiles : M Unit := do
  if (← hartM).zlive then pure () else trap cILLEGAL

/-- A ZMX word. -/
def issueZ (kind : VKind) (o : VOps) : State → Result :=
  runScalar csOnly do
    needTiles
    let b ← getX o.b
    enqueue kind o 4 (if o.bs then b else 0) 0 0

end Sys2Proof.Machine
end

