-- ==== Sys2Proof/Machine/Alu.lean ====
section
/-! DEFINITION. Integer operations of both slices and of survey cores: majors 3 to 6 and their long and compressed
forms (11 R234 to R238, 09 R193, R203). -/

namespace Sys2Proof.Machine

/-! ### Operations on words -/

def w1 (b : Bool) : Word := if b then 1 else 0
def aluSll (a b : Word) : Word := a <<< (b.toNat % 64)
def aluSrl (a b : Word) : Word := a >>> (b.toNat % 64)
def aluSra (a b : Word) : Word := a.sshiftRight (b.toNat % 64)
def aluMin (a b : Word) : Word := if b.slt a then b else a
def aluMax (a b : Word) : Word := if a.slt b then b else a
def aluMinu (a b : Word) : Word := if b.ult a then b else a
def aluMaxu (a b : Word) : Word := if a.ult b then b else a
def aluMulh (a b : Word) : Word := wordOfInt (a.toInt * b.toInt / 2 ^ 64)
def aluMulhu (a b : Word) : Word := BitVec.ofNat 64 (a.toNat * b.toNat / 2 ^ 64)
def aluDiv (a b : Word) : Word := wordOfInt (divS a b)
def aluDivu (a b : Word) : Word := wordOfInt (divU a b)
def aluRem (a b : Word) : Word := wordOfInt (remS a b)
def aluRemu (a b : Word) : Word := wordOfInt (remU a b)

/-- Trailing zeros among the low n bits. -/
def trailZeros (x : Nat) : Nat → Nat
  | 0 => 0
  | n + 1 => if x % 2 = 1 then 0 else 1 + trailZeros (x / 2) n

def aluClz (a : Word) : Word := BitVec.ofNat 64 (leadZeros 64 a.toNat)
def aluCtz (a : Word) : Word := BitVec.ofNat 64 (trailZeros a.toNat 64)
def aluPop (a : Word) : Word := BitVec.ofNat 64 (popBits a.toNat 64)

/-- Position and length of a bit field (R235). -/
def fieldPos (b : Word) : Nat := b.toNat % 256
def fieldLen (b : Word) : Nat := min (b.toNat / 256 % 256) 64

def aluBext (a b : Word) : Word := BitVec.ofNat 64 (bextNat a.toNat (fieldPos b) (fieldLen b))
def aluBexts (a b : Word) : Word :=
  if fieldLen b = 0 then 0 else wordOfInt (signExt (fieldLen b) (bextNat a.toNat (fieldPos b) (fieldLen b)))
def aluBins (d a b : Word) : Word :=
  let pos := fieldPos b
  let mask : Word := BitVec.ofNat 64 (2 ^ fieldLen b - 1)
  if pos < 64 then (d &&& ~~~(mask <<< pos)) ||| ((a &&& mask) <<< pos) else d
def aluFshi (a b : Word) (sh : BitVec 6) : Word := BitVec.ofNat 64 ((a.toNat * 2 ^ 64 + b.toNat) >>> sh.toNat)

/-! ### Shapes -/

/-- d := f a b. -/
def alu2 (f : Word → Word → Word) (d a b : RegField) : State → Result :=
  runScalar both do
    let x ← getX a
    let y ← getX b
    setX d (f x y)
    advance 4

/-- d := f a. -/
def alu1 (f : Word → Word) (n : Nat) (d a : RegField) : State → Result :=
  runScalar both do
    let x ← getX a
    setX d (f x)
    advance n

/-- d := f pc. -/
def aluPc (f : Word → Word) (n : Nat) (d : RegField) : State → Result :=
  runScalar both do
    let pc ← getPc
    setX d (f pc)
    advance n

/-! ### Three-register operations (R234 to R236) -/

/-- `add` (11 R234). -/
def execAdd (d a b : RegField) : State → Result := alu2 (fun x y => x + y) d a b
/-- `sub` (11 R234). -/
def execSub (d a b : RegField) : State → Result := alu2 (fun x y => x - y) d a b
/-- `and` (11 R234). -/
def execAnd (d a b : RegField) : State → Result := alu2 (fun x y => x &&& y) d a b
/-- `or` (11 R234). -/
def execOr (d a b : RegField) : State → Result := alu2 (fun x y => x ||| y) d a b
/-- `xor` (11 R234). -/
def execXor (d a b : RegField) : State → Result := alu2 (fun x y => x ^^^ y) d a b
/-- `sll` (11 R234). -/
def execSll (d a b : RegField) : State → Result := alu2 aluSll d a b
/-- `srl` (11 R234). -/
def execSrl (d a b : RegField) : State → Result := alu2 aluSrl d a b
/-- `sra` (11 R234). -/
def execSra (d a b : RegField) : State → Result := alu2 aluSra d a b
/-- `slt` (11 R234). -/
def execSlt (d a b : RegField) : State → Result := alu2 (fun x y => w1 (x.slt y)) d a b
/-- `sltu` (11 R234). -/
def execSltu (d a b : RegField) : State → Result := alu2 (fun x y => w1 (x.ult y)) d a b
/-- `min` (11 R234). -/
def execMin (d a b : RegField) : State → Result := alu2 aluMin d a b
/-- `max` (11 R234). -/
def execMax (d a b : RegField) : State → Result := alu2 aluMax d a b
/-- `minu` (11 R234). -/
def execMinu (d a b : RegField) : State → Result := alu2 aluMinu d a b
/-- `maxu` (11 R234). -/
def execMaxu (d a b : RegField) : State → Result := alu2 aluMaxu d a b
/-- `mul` (11 R234). -/
def execMul (d a b : RegField) : State → Result := alu2 (fun x y => x * y) d a b
/-- `mulh` (11 R234). -/
def execMulh (d a b : RegField) : State → Result := alu2 aluMulh d a b
/-- `mulhu` (11 R234). -/
def execMulhu (d a b : RegField) : State → Result := alu2 aluMulhu d a b
/-- `div` (06 R139). -/
def execDiv (d a b : RegField) : State → Result := alu2 aluDiv d a b
/-- `divu` (06 R139). -/
def execDivu (d a b : RegField) : State → Result := alu2 aluDivu d a b
/-- `rem` (06 R139). -/
def execRem (d a b : RegField) : State → Result := alu2 aluRem d a b
/-- `remu` (06 R139). -/
def execRemu (d a b : RegField) : State → Result := alu2 aluRemu d a b
/-- `bext` (11 R235). -/
def execBext (d a b : RegField) : State → Result := alu2 aluBext d a b
/-- `bexts` (11 R235). -/
def execBexts (d a b : RegField) : State → Result := alu2 aluBexts d a b
/-- `bins` (11 R235): d is read before it is written. -/
def execBins (d a b : RegField) : State → Result := 
  runScalar both do
    let x ← getX a
    let y ← getX b
    let z ← getX d
    setX d (aluBins z x y)
    advance 4
/-- `fshi` (11 R236). -/
def execFshi (d a b : RegField) (sh : BitVec 6) : State → Result := alu2 (fun x y => aluFshi x y sh) d a b
/-- `clz` (11 R234). -/
def execClz (d a : RegField) : State → Result := alu1 aluClz 4 d a
/-- `ctz` (11 R234). -/
def execCtz (d a : RegField) : State → Result := alu1 aluCtz 4 d a
/-- `pop` (11 R234). -/
def execPop (d a : RegField) : State → Result := alu1 aluPop 4 d a

/-! ### Immediate operations (R237, R238, 09 R193) -/

/-- `addi` (11 R237). -/
def execAddi (d a : RegField) (imm : BitVec 12) : State → Result := alu1 (fun x => x + simm imm) 4 d a
/-- `andi` (11 R237). -/
def execAndi (d a : RegField) (imm : BitVec 12) : State → Result := alu1 (fun x => x &&& simm imm) 4 d a
/-- `ori` (11 R237). -/
def execOri (d a : RegField) (imm : BitVec 12) : State → Result := alu1 (fun x => x ||| simm imm) 4 d a
/-- `xori` (11 R237). -/
def execXori (d a : RegField) (imm : BitVec 12) : State → Result := alu1 (fun x => x ^^^ simm imm) 4 d a
/-- `slti` (11 R237). -/
def execSlti (d a : RegField) (imm : BitVec 12) : State → Result := alu1 (fun x => w1 (x.slt (simm imm))) 4 d a
/-- `sltui` (11 R237). -/
def execSltui (d a : RegField) (imm : BitVec 12) : State → Result := alu1 (fun x => w1 (x.ult (simm imm))) 4 d a
/-- `slli` (11 R237). -/
def execSlli (d a : RegField) (sh : BitVec 6) : State → Result := alu1 (fun x => x <<< sh.toNat) 4 d a
/-- `srli` (11 R237). -/
def execSrli (d a : RegField) (sh : BitVec 6) : State → Result := alu1 (fun x => x >>> sh.toNat) 4 d a
/-- `srai` (11 R237). -/
def execSrai (d a : RegField) (sh : BitVec 6) : State → Result := alu1 (fun x => x.sshiftRight sh.toNat) 4 d a
/-- `ldhi` (11 R238). -/
def execLdhi (d : RegField) (imm : BitVec 20) : State → Result := aluPc (fun _ => uImm imm) 4 d
/-- `adpc` (11 R238). -/
def execAdpc (d : RegField) (imm : BitVec 20) : State → Result := aluPc (fun pc => pc + uImm imm) 4 d
/-- Prefixed `addi` (09 R193). -/
def execAddiLong (d a : RegField) (imm : BitVec 37) : State → Result := alu1 (fun x => x + simm imm) 8 d a
/-- Prefixed `andi` (09 R193). -/
def execAndiLong (d a : RegField) (imm : BitVec 37) : State → Result := alu1 (fun x => x &&& simm imm) 8 d a
/-- Prefixed `ori` (09 R193). -/
def execOriLong (d a : RegField) (imm : BitVec 37) : State → Result := alu1 (fun x => x ||| simm imm) 8 d a
/-- Prefixed `xori` (09 R193). -/
def execXoriLong (d a : RegField) (imm : BitVec 37) : State → Result := alu1 (fun x => x ^^^ simm imm) 8 d a
/-- Prefixed `slti` (09 R193). -/
def execSltiLong (d a : RegField) (imm : BitVec 37) : State → Result := alu1 (fun x => w1 (x.slt (simm imm))) 8 d a
/-- Prefixed `sltui` (09 R193). -/
def execSltuiLong (d a : RegField) (imm : BitVec 37) : State → Result := alu1 (fun x => w1 (x.ult (simm imm))) 8 d a
/-- Prefixed `ldhi` (09 R193). -/
def execLdhiLong (d : RegField) (imm : BitVec 45) : State → Result := aluPc (fun _ => uImmLong imm) 8 d
/-- Prefixed `adpc`: the pc is that of the prefix word (11 R238). -/
def execAdpcLong (d : RegField) (imm : BitVec 45) : State → Result := aluPc (fun pc => pc + uImmLong imm) 8 d

/-! ### Compressed forms (09 R203) -/

/-- x := f x y, in a slot. -/
def slot2 (f : Word → Word → Word) (x y : RegField) : State → Result :=
  runScalar both do
    let u ← getX x
    let v ← getX y
    setX x (f u v)
    advance 2

/-- `c.mov`. -/
def execCMov (x y : RegField) : State → Result := alu1 (fun v => v) 2 x y
/-- `c.addi`. -/
def execCAddi (x : RegField) (i : BitVec 5) : State → Result := alu1 (fun v => v + simm i) 2 x x
/-- `c.add`. -/
def execCAdd (x y : RegField) : State → Result := slot2 (fun u v => u + v) x y
/-- `c.sub`. -/
def execCSub (x y : RegField) : State → Result := slot2 (fun u v => u - v) x y
/-- `c.and`. -/
def execCAnd (x y : RegField) : State → Result := slot2 (fun u v => u &&& v) x y
/-- `c.slli`. -/
def execCSlli (x : RegField) (sh : BitVec 5) : State → Result := alu1 (fun v => v <<< sh.toNat) 2 x x

end Sys2Proof.Machine
end

