-- ==== Sys2Proof/Machine/Branch.lean ====
section
/-! DEFINITION. Branches and jumps: majors 7 to 9 and their long and compressed forms (11 R239 to R241, 09 R186). -/

namespace Sys2Proof.Machine

/-- A conditional branch of n bytes (R239): the target is checked whether or not the branch is taken. The
offset counts from the word that holds the branch. -/
def branch (taken : Word → Bool) (n : Nat) (off : Word) (a : RegField) : State → Result :=
  runScalar both do
    let pc ← getPc
    let t := (pc &&& ~~~(3#64)) + off
    checkTargetHere t
    let x ← getX a
    if taken x then setPcM t else advance n

/-- `beqz`. -/
def execBeqz (a : RegField) (off : BitVec 15) : State → Result := branch (fun x => x == 0) 4 (wordOff off) a
/-- `bnez`. -/
def execBnez (a : RegField) (off : BitVec 15) : State → Result := branch (fun x => x != 0) 4 (wordOff off) a
/-- `bltz`. -/
def execBltz (a : RegField) (off : BitVec 15) : State → Result := branch (fun x => x.slt 0) 4 (wordOff off) a
/-- `bgez`. -/
def execBgez (a : RegField) (off : BitVec 15) : State → Result := branch (fun x => !x.slt 0) 4 (wordOff off) a
/-- `bgtz`. -/
def execBgtz (a : RegField) (off : BitVec 15) : State → Result := branch (fun x => (0#64).slt x) 4 (wordOff off) a
/-- `blez`. -/
def execBlez (a : RegField) (off : BitVec 15) : State → Result := branch (fun x => !(0#64).slt x) 4 (wordOff off) a
/-- `c.bnez`: the offset counts from the pair's word (09 R203). -/
def execCBnez (x : RegField) (off : BitVec 5) : State → Result := branch (fun v => v != 0) 2 (wordOff off) x

/-- The bits that a queue branch waits for: a survey core has no `qb`, and holds none (09 R204, log 12). -/
def branchBits : M (List Bool) := do
  match ← cpuM with
  | .slice _ => pure (← hartM).qb
  | .survey _ => pure []

/-- A queue branch (R240): target check, then the oldest bit of `qb`. -/
def queueBranch (want : Bool) (off : BitVec 15) : State → Result :=
  runScalar asSurvey do
    let pc ← getPc
    let t := pc + wordOff off
    checkTargetHere t
    match ← branchBits with
    | [] => waitAt .queue
    | b :: rest => do
      modHart fun h => { h with qb := rest }
      if b == want then setPcM t else advance 4

/-- `bqt` (R240). -/
def execBqt (off : BitVec 15) : State → Result := queueBranch true off
/-- `bqf` (R240). -/
def execBqf (off : BitVec 15) : State → Result := queueBranch false off

/-- Go to t, keeping the link of an instruction of n bytes in d (R241). -/
def jumpTo (n : Nat) (d : RegField) (t : Word) : M Unit := do
  let pc ← getPc
  checkTargetHere t
  setX d (pc + BitVec.ofNat 64 n)
  setPcM t

/-- `jal` (R241). -/
def execJal (d : RegField) (off : BitVec 20) : State → Result :=
  runScalar both do
    let pc ← getPc
    jumpTo 4 d (pc + wordOff off)

/-- `jalr` (R241): a is read before d is written. -/
def execJalr (d a : RegField) (imm : BitVec 15) : State → Result :=
  runScalar both do
    let x ← getX a
    jumpTo 4 d (x + simm imm)

/-- Prefixed `jalr` (09 R193). -/
def execJalrLong (d a : RegField) (imm : BitVec 40) : State → Result :=
  runScalar both do
    let x ← getX a
    jumpTo 8 d (x + simm imm)

/-- `c.j` (09 R203): it records no link. -/
def execCJ (off : BitVec 10) : State → Result :=
  runScalar both do
    let pc ← getPc
    let t := (pc &&& ~~~(3#64)) + wordOff off
    checkTargetHere t
    setPcM t

end Sys2Proof.Machine
end

