-- ==== Sys2Proof/Machine/Vector.lean ====
section
/-! DEFINITION. Queue entry of every vector, code, matrix and vector memory instruction: majors 17 to 26 (12 R253,
09 R191). What each does at the queue head is its body in `vecBody`. -/

namespace Sys2Proof.Machine

/-- `VADD` (R286). -/
def execVadd (o : VOps) : State → Result := issueV .vadd o
/-- `VSUB` (R286). -/
def execVsub (o : VOps) : State → Result := issueV .vsub o
/-- `VMUL` (R286). -/
def execVmul (o : VOps) : State → Result := issueV .vmul o
/-- `VMULH` (R286). -/
def execVmulh (o : VOps) : State → Result := issueV .vmulh o
/-- `VMAC` (R285). -/
def execVmac (o : VOps) : State → Result := issueV .vmac o
/-- `VAND` (R286). -/
def execVand (o : VOps) : State → Result := issueV .vand o
/-- `VOR` (R286). -/
def execVor (o : VOps) : State → Result := issueV .vor o
/-- `VXOR` (R286). -/
def execVxor (o : VOps) : State → Result := issueV .vxor o
/-- `VSLL` (R286). -/
def execVsll (o : VOps) : State → Result := issueV .vsll o
/-- `VSRL` (R286). -/
def execVsrl (o : VOps) : State → Result := issueV .vsrl o
/-- `VSRA` (R286). -/
def execVsra (o : VOps) : State → Result := issueV .vsra o
/-- `VMIN` (R286). -/
def execVmin (o : VOps) : State → Result := issueV .vmin o
/-- `VMAX` (R286). -/
def execVmax (o : VOps) : State → Result := issueV .vmax o
/-- `VMINU` (R286). -/
def execVminu (o : VOps) : State → Result := issueV .vminu o
/-- `VMAXU` (R286). -/
def execVmaxu (o : VOps) : State → Result := issueV .vmaxu o
/-- `VSEL` (R286). -/
def execVsel (o : VOps) : State → Result := issueV .vsel o
/-- `VADDS` (R288). -/
def execVadds (o : VOps) : State → Result := issueV .vadds o
/-- `VSUBS` (R288). -/
def execVsubs (o : VOps) : State → Result := issueV .vsubs o
/-- `VADDSU` (R288). -/
def execVaddsu (o : VOps) : State → Result := issueV .vaddsu o
/-- `VSUBSU` (R288). -/
def execVsubsu (o : VOps) : State → Result := issueV .vsubsu o
/-- `VDIV` (R287). -/
def execVdiv (o : VOps) : State → Result := issueV .vdiv o
/-- `VREM` (R287). -/
def execVrem (o : VOps) : State → Result := issueV .vrem o
/-- `VDIVU` (R287). -/
def execVdivu (o : VOps) : State → Result := issueV .vdivu o
/-- `VREMU` (R287). -/
def execVremu (o : VOps) : State → Result := issueV .vremu o
/-- `VABS` (R287). -/
def execVabs (o : VOps) : State → Result := issueV .vabs o
/-- `VCLZ` (R287). -/
def execVclz (o : VOps) : State → Result := issueV .vclz o
/-- `VPOP` (R287). -/
def execVpop (o : VOps) : State → Result := issueV .vpop o
/-- `VWMUL` (R289). -/
def execVwmul (o : VOps) : State → Result := issueV .vwmul o
/-- `VWMAC` (R289). -/
def execVwmac (o : VOps) : State → Result := issueV .vwmac o
/-- `VBEXT` (R287). -/
def execVbext (o : VOps) : State → Result := issueV .vbext o
/-- `VMOV` (R287). -/
def execVmov (o : VOps) : State → Result := issueV .vmov o
/-- `VMEQ` (R294). -/
def execVmeq (o : VOps) : State → Result := issueV .vmeq o
/-- `VMNE` (R294). -/
def execVmne (o : VOps) : State → Result := issueV .vmne o
/-- `VMLT` (R294). -/
def execVmlt (o : VOps) : State → Result := issueV .vmlt o
/-- `VMLE` (R294). -/
def execVmle (o : VOps) : State → Result := issueV .vmle o
/-- `VMLTU` (R294). -/
def execVmltu (o : VOps) : State → Result := issueV .vmltu o
/-- `VMLEU` (R294). -/
def execVmleu (o : VOps) : State → Result := issueV .vmleu o
/-- `VMFEQ` (R294). -/
def execVmfeq (o : VOps) : State → Result := issueV .vmfeq o
/-- `VMFLT` (R294). -/
def execVmflt (o : VOps) : State → Result := issueV .vmflt o
/-- `VMFLE` (R294). -/
def execVmfle (o : VOps) : State → Result := issueV .vmfle o
/-- `VMFUN` (R294). -/
def execVmfun (o : VOps) : State → Result := issueV .vmfun o
/-- `VMFIN` (R294). -/
def execVmfin (o : VOps) : State → Result := issueV .vmfin o
/-- `VMAND` (R295). -/
def execVmand (o : VOps) : State → Result := issueV .vmand o
/-- `VMOR` (R295). -/
def execVmor (o : VOps) : State → Result := issueV .vmor o
/-- `VMXOR` (R295). -/
def execVmxor (o : VOps) : State → Result := issueV .vmxor o
/-- `VMANDN` (R295). -/
def execVmandn (o : VOps) : State → Result := issueV .vmandn o
/-- `VFADD` (R291). -/
def execVfadd (o : VOps) : State → Result := issueV .vfadd o
/-- `VFSUB` (R291). -/
def execVfsub (o : VOps) : State → Result := issueV .vfsub o
/-- `VFMUL` (R291). -/
def execVfmul (o : VOps) : State → Result := issueV .vfmul o
/-- `VFDIV` (R291). -/
def execVfdiv (o : VOps) : State → Result := issueV .vfdiv o
/-- `VFMAC` (R285). -/
def execVfmac (o : VOps) : State → Result := issueV .vfmac o
/-- `VFNMAC` (R285). -/
def execVfnmac (o : VOps) : State → Result := issueV .vfnmac o
/-- `VFMIN` (R291). -/
def execVfmin (o : VOps) : State → Result := issueV .vfmin o
/-- `VFMAX` (R291). -/
def execVfmax (o : VOps) : State → Result := issueV .vfmax o
/-- `VFSQRT` (R291). -/
def execVfsqrt (o : VOps) : State → Result := issueV .vfsqrt o
/-- `VFRSQ` (R141). -/
def execVfrsq (o : VOps) : State → Result := issueV .vfrsq o
/-- `VFRCP` (R290). -/
def execVfrcp (o : VOps) : State → Result := issueV .vfrcp o
/-- `VFABS` (R292). -/
def execVfabs (o : VOps) : State → Result := issueV .vfabs o
/-- `VFNEG` (R292). -/
def execVfneg (o : VOps) : State → Result := issueV .vfneg o
/-- `VFCVT` (R292). -/
def execVfcvt (o : VOps) : State → Result := issueV .vfcvt o
/-- `VDEC` (R269). -/
def execVdec (o : VOps) : State → Result := issueV .vdec o
/-- `VENC` (R269). -/
def execVenc (o : VOps) : State → Result := issueV .venc o
/-- `VBND` (R270). -/
def execVbnd (o : VOps) : State → Result := issueV .vbnd o
/-- `VCNT` (R271). -/
def execVcnt (o : VOps) : State → Result := issueV .vcnt o
/-- `VTIER` (R269). -/
def execVtier (o : VOps) : State → Result := issueV .vtier o
/-- `VBITS` (R269). -/
def execVbits (o : VOps) : State → Result := issueV .vbits o
/-- `VSKIP` (R272). -/
def execVskip (o : VOps) : State → Result := issueV .vskip o
/-- `VCAT` (R273). -/
def execVcat (o : VOps) : State → Result := issueV .vcat o
/-- `VBGET` (R274). -/
def execVbget (o : VOps) : State → Result := issueV .vbget o
/-- `VPACK` (R275). -/
def execVpack (o : VOps) : State → Result := issueV .vpack o
/-- `VEXPAND` (R275). -/
def execVexpand (o : VOps) : State → Result := issueV .vexpand o
/-- `VREPACK` (R269). -/
def execVrepack (o : VOps) : State → Result := issueV .vrepack o
/-- `VREDSUM` (R297). -/
def execVredsum (o : VOps) : State → Result := issueV .vredsum o
/-- `VREDMIN` (R297). -/
def execVredmin (o : VOps) : State → Result := issueV .vredmin o
/-- `VREDMAX` (R297). -/
def execVredmax (o : VOps) : State → Result := issueV .vredmax o
/-- `VREDAND` (R297). -/
def execVredand (o : VOps) : State → Result := issueV .vredand o
/-- `VREDOR` (R297). -/
def execVredor (o : VOps) : State → Result := issueV .vredor o
/-- `VREDXOR` (R297). -/
def execVredxor (o : VOps) : State → Result := issueV .vredxor o
/-- `VFREDSUM` (R298). -/
def execVfredsum (o : VOps) : State → Result := issueV .vfredsum o
/-- `VFREDMIN` (R298). -/
def execVfredmin (o : VOps) : State → Result := issueV .vfredmin o
/-- `VFREDMAX` (R298). -/
def execVfredmax (o : VOps) : State → Result := issueV .vfredmax o
/-- `VFREDSQ` (R298). -/
def execVfredsq (o : VOps) : State → Result := issueV .vfredsq o
/-- `VSCAN` (R300). -/
def execVscan (o : VOps) : State → Result := issueV .vscan o
/-- `VFSCAN` (R300). -/
def execVfscan (o : VOps) : State → Result := issueV .vfscan o
/-- `VFIRST` (R301). -/
def execVfirst (o : VOps) : State → Result := issueV .vfirst o
/-- `VMCNT` (R301). -/
def execVmcnt (o : VOps) : State → Result := issueV .vmcnt o
/-- `VIOTA` (R301). -/
def execViota (o : VOps) : State → Result := issueV .viota o
/-- `VID` (R301). -/
def execVid (o : VOps) : State → Result := issueV .vid o
/-- `VSLIDEDN` (R277). -/
def execVslidedn (o : VOps) : State → Result := issueV .vslidedn o
/-- `VSLIDEUP` (R277). -/
def execVslideup (o : VOps) : State → Result := issueV .vslideup o
/-- `VGATHERV` (R277). -/
def execVgatherv (o : VOps) : State → Result := issueV .vgatherv o
/-- `VBCAST` (R277). -/
def execVbcast (o : VOps) : State → Result := issueV .vbcast o
/-- `VEXT` (R278). -/
def execVext (o : VOps) : State → Result := issueV .vext o
/-- `VINS` (R278). -/
def execVins (o : VOps) : State → Result := issueV .vins o
/-- `VZIP` (R276). -/
def execVzip (o : VOps) : State → Result := issueV .vzip o
/-- `VUNZIP` (R276). -/
def execVunzip (o : VOps) : State → Result := issueV .vunzip o
/-- `VREV` (R276). -/
def execVrev (o : VOps) : State → Result := issueV .vrev o
/-- `VBRK` (R279). -/
def execVbrk (o : VOps) : State → Result := issueV .vbrk o
/-- `VBRKB` (R279). -/
def execVbrkb (o : VOps) : State → Result := issueV .vbrkb o
/-- `VBPUT` (R280). -/
def execVbput (o : VOps) : State → Result := issueV .vbput o
/-- `VLD` (R312). -/
def execVld (o : VOps) : State → Result := issueV .vld o
/-- `VST` (R313). -/
def execVst (o : VOps) : State → Result := issueV .vst o
/-- `VLDFF` (R314). -/
def execVldff (o : VOps) : State → Result := issueV .vldff o
/-- `VLDX` (R315). -/
def execVldx (o : VOps) : State → Result := issueV .vldx o
/-- `VSTX` (R315). -/
def execVstx (o : VOps) : State → Result := issueV .vstx o
/-- `VLDW` (R316). -/
def execVldw (o : VOps) : State → Result := issueV .vldw o
/-- `VSPILL` (R317). -/
def execVspill (o : VOps) : State → Result := issueV .vspill o
/-- `VFILL` (R317). -/
def execVfill (o : VOps) : State → Result := issueV .vfill o
/-- `VAMOADD` (R320). -/
def execVamoadd (o : VOps) : State → Result := issueV .vamoadd o
/-- `VAMOMIN` (R320). -/
def execVamomin (o : VOps) : State → Result := issueV .vamomin o
/-- `VAMOMAX` (R320). -/
def execVamomax (o : VOps) : State → Result := issueV .vamomax o
/-- `VAMOAND` (R320). -/
def execVamoand (o : VOps) : State → Result := issueV .vamoand o
/-- `VAMOOR` (R320). -/
def execVamoor (o : VOps) : State → Result := issueV .vamoor o
/-- `VAMOXOR` (R320). -/
def execVamoxor (o : VOps) : State → Result := issueV .vamoxor o
/-- `VAMOSWP` (R320). -/
def execVamoswp (o : VOps) : State → Result := issueV .vamoswp o
/-- `VFAMOADD` (R320). -/
def execVfamoadd (o : VOps) : State → Result := issueV .vfamoadd o
/-- `WOPEN` (R323). -/
def execWopen (o : VOps) : State → Result := issueV .wopen o
/-- `WADD` (R324). -/
def execWadd (o : VOps) : State → Result := issueV .wadd o
/-- `WFADD` (R324). -/
def execWfadd (o : VOps) : State → Result := issueV .wfadd o
/-- `WMERGE` (R325). -/
def execWmerge (o : VOps) : State → Result := issueV .wmerge o
/-- `WCLOSE` (R325). -/
def execWclose (o : VOps) : State → Result := issueV .wclose o
/-- `ZZERO` (R333). -/
def execZzero (o : VOps) : State → Result := issueZ .zzero o
/-- `ZMMA` (R331). -/
def execZmma (o : VOps) : State → Result := issueZ .zmma o
/-- `ZOP` (R332). -/
def execZop (o : VOps) : State → Result := issueZ .zop o
/-- `ZDR` (R334). -/
def execZdr (o : VOps) : State → Result := issueZ .zdr o
/-- `ZACC` (R333). -/
def execZacc (o : VOps) : State → Result := issueZ .zacc o

/-- `VLD2` (R318): the pitch is read at entry. -/
def execVld2 (o : VOps) (p : RegField) : State → Result :=
  runScalar csOnly do
    let pitch ← getX p
    enqueue .vld2 o 8 0 pitch 0

/-- `VSTP` (R319): the pitch is read at entry; the entry names the second stream. -/
def execVstp (o : VOps) (p : RegField) (s2 : BitVec 4) : State → Result :=
  runScalar csOnly do
    let pitch ← getX p
    enqueue .vstp o 8 0 pitch s2.toNat

/-- A row move (15 R335): both scalars are read at entry. -/
def issueRows (kind : VKind) (a b : RegField) (tile : BitVec 2) (frow nrowm1 : BitVec 6) : State → Result :=
  runScalar csOnly do
    needTiles
    let x ← getX a
    let y ← getX b
    enqueue kind noOps 8 x y (packRows tile.toNat frow.toNat nrowm1.toNat)

/-- `ZLD` (R335). -/
def execZld (a b : RegField) (tile : BitVec 2) (frow nrowm1 : BitVec 6) : State → Result :=
  issueRows .zld a b tile frow nrowm1
/-- `ZST` (R335). -/
def execZst (a b : RegField) (tile : BitVec 2) (frow nrowm1 : BitVec 6) : State → Result :=
  issueRows .zst a b tile frow nrowm1

/-- `SNEXT` (R311): it takes the oldest entry of the descriptor queue at issue, or waits for one. -/
def execSnext (o : VOps) : State → Result :=
  runScalar csOnly do
    let h ← hartM
    if 16 ≤ h.viq.length then waitAt (queueWait h) else
    match (h.stream o.a).queue with
    | [] => waitAt .snext
    | q :: rest => do
      modHart fun h => h.setStream o.a { h.stream o.a with queue := rest }
      enqueue .snext o 4 0 0 0 (some q)

end Sys2Proof.Machine
end

