-- ==== Sys2Proof/Machine/Float.lean ====
section
/-! DEFINITION. Scalar floating point: major 15 (11 R246 to R249). -/

namespace Sys2Proof.Machine

/-- The precisions (R246) and their codes. -/
def precFmt (p : BitVec 2) : FloatFmt :=
  match p.toNat with
  | 0 => f32Fmt
  | 1 => f64Fmt
  | 2 => bf16Fmt
  | _ => f16Fmt

/-- A source of a precision: the low bits of its register. -/
def fpRead (p : BitVec 2) (x : Word) : FVal := decodeF (precFmt p) (x.toNat % 2 ^ (precFmt p).width)

/-- A result rounded to a precision, with the upper bits zero (05 R97). -/
def fpWrite (p : BitVec 2) (rm : Rnd) (v : FVal) : Word := BitVec.ofNat 64 (roundF (precFmt p) rm v)

/-- The rounding mode: code 7 takes RM from `vfmt`, and traps ILLFMT while it holds a reserved code (R246). -/
def fpRnd (r : BitVec 3) : M Rnd := do
  if r = 7#3 then
    let w := (← hartM).vc.vfmt
    if vfmtReserved w then trap cILLFMT else pure (vfRM w)
  else pure r.toNat

/-- A binary operation, rounded once (R247). -/
def fp2 (f : Rnd → FVal → FVal → FVal) (d a b : RegField) (p : BitVec 2) (r : BitVec 3) : State → Result :=
  runScalar csOnly do
    let rm ← fpRnd r
    let x ← getX a
    let y ← getX b
    setX d (fpWrite p rm (f rm (fpRead p x) (fpRead p y)))
    advance 4

/-- A unary operation, rounded to its precision. -/
def fp1 (f : Rnd → FVal → FVal) (d a : RegField) (p : BitVec 2) (r : BitVec 3) : State → Result :=
  runScalar csOnly do
    let rm ← fpRnd r
    let x ← getX a
    setX d (fpWrite p rm (f rm (fpRead p x)))
    advance 4

/-- `fadd` (R247). -/
def execFadd (d a b : RegField) (p : BitVec 2) (r : BitVec 3) : State → Result := fp2 fAdd d a b p r
/-- `fsub` (R247). -/
def execFsub (d a b : RegField) (p : BitVec 2) (r : BitVec 3) : State → Result := fp2 fSub d a b p r
/-- `fmul` (R247). -/
def execFmul (d a b : RegField) (p : BitVec 2) (r : BitVec 3) : State → Result := fp2 (fun _ => fMul) d a b p r
/-- `fdiv` (R247). -/
def execFdiv (d a b : RegField) (p : BitVec 2) (r : BitVec 3) : State → Result := fp2 (fun _ => fDiv) d a b p r
/-- `fsqrt` (R247). -/
def execFsqrt (d a : RegField) (p : BitVec 2) (r : BitVec 3) : State → Result := fp1 (fun _ => fSqrt) d a p r
/-- `frsq` (06 R141): at bf16 and f16 the f32 result is rounded again. -/
def execFrsq (d a : RegField) (p : BitVec 2) (r : BitVec 3) : State → Result :=
  fp1 (fun rm x => if p = 1#2 then fRsqrt64 x else rounded f32Fmt rm (fRsqrt32 x)) d a p r

/-- `fma` (R247): d is read before it is written, and one rounding is made. -/
def execFma (d a b : RegField) (p : BitVec 2) (r : BitVec 3) : State → Result :=
  runScalar csOnly do
    let rm ← fpRnd r
    let x ← getX a
    let y ← getX b
    let z ← getX d
    setX d (fpWrite p rm (fAdd rm (fMul (fpRead p x) (fpRead p y)) (fpRead p z)))
    advance 4

/-- The low bits of a register at a precision. -/
def fpBits (p : BitVec 2) (x : Word) : Nat := x.toNat % 2 ^ (precFmt p).width

/-- The smaller or larger (R248): one NaN gives the other operand unchanged, two the canonical NaN. `less` says that x
is the one to take. -/
def fpSelect (less : FVal → FVal → Bool) (p : BitVec 2) (x y : Word) : Word :=
  let u := fpRead p x
  let v := fpRead p y
  if u.isNan && v.isNan then BitVec.ofNat 64 (precFmt p).nan
  else if u.isNan then BitVec.ofNat 64 (fpBits p y)
  else if v.isNan then BitVec.ofNat 64 (fpBits p x)
  else if less u v then BitVec.ofNat 64 (fpBits p x) else BitVec.ofNat 64 (fpBits p y)

/-- x is below y, with −0 below +0. -/
def fpBelow (x y : FVal) : Bool := fLt x y || (fEq x y && x.neg && !y.neg)

/-- An operation that does not round (R248). -/
def fpPlain (f : Word → Word → Word) (d a b : RegField) : State → Result :=
  runScalar csOnly do
    let x ← getX a
    let y ← getX b
    setX d (f x y)
    advance 4

/-- `fmin` (R248). -/
def execFmin (d a b : RegField) (p : BitVec 2) : State → Result := fpPlain (fpSelect fpBelow p) d a b
/-- `fmax` (R248). -/
def execFmax (d a b : RegField) (p : BitVec 2) : State → Result := fpPlain (fpSelect (fun x y => fpBelow y x) p) d a b
/-- `feq` (R248). -/
def execFeq (d a b : RegField) (p : BitVec 2) : State → Result :=
  fpPlain (fun x y => w1 (fEq (fpRead p x) (fpRead p y))) d a b
/-- `flt` (R248). -/
def execFlt (d a b : RegField) (p : BitVec 2) : State → Result :=
  fpPlain (fun x y => w1 (fLt (fpRead p x) (fpRead p y))) d a b
/-- `fle` (R248). -/
def execFle (d a b : RegField) (p : BitVec 2) : State → Result :=
  fpPlain (fun x y => w1 (fLe (fpRead p x) (fpRead p y))) d a b

/-- The class word of a pattern (R248). -/
def fpClass (p : BitVec 2) (x : Word) : Word :=
  let f := precFmt p
  let bits := fpBits p x
  let expo := bitsOf bits f.mbits f.ebits
  let frac := bits % 2 ^ f.mbits
  let ones := 2 ^ f.ebits - 1
  let kind := if expo = 0 then (if frac = 0 then 0 else 1) else if expo = ones then (if frac = 0 then 3 else 4) else 2
  BitVec.ofNat 64 (kind + 8 * bitsOf bits (f.mbits + f.ebits) 1 + (if kind = 2 then 16 * expo else 0))

/-- `fclass` (R248). -/
def execFclass (d a : RegField) (p : BitVec 2) : State → Result :=
  runScalar csOnly do
    let x ← getX a
    setX d (fpClass p x)
    advance 4

/-- A register read as a conversion type (R249). -/
def fpTyped (ty : BitVec 3) (x : Word) : FVal :=
  match ty.toNat with
  | 0 => fpRead 0#2 x
  | 1 => fpRead 1#2 x
  | 2 => fpRead 2#2 x
  | 3 => fpRead 3#2 x
  | 4 => fOfInt x.toInt
  | _ => fOfInt x.toNat

/-- `fcvt` (R249). -/
def execFcvt (d a : RegField) (ty : BitVec 3) (p : BitVec 2) (r : BitVec 3) : State → Result :=
  runScalar csOnly do
    let rm ← fpRnd r
    let x ← getX a
    setX d (fpWrite p rm (fpTyped ty x))
    advance 4

/-- `fcvti` (R249): Convert to i64 or n64. -/
def execFcvti (d a : RegField) (ty : BitVec 3) (p : BitVec 2) (r : BitVec 3) : State → Result :=
  runScalar csOnly do
    let rm ← fpRnd r
    let x ← getX a
    setX d (BitVec.ofNat 64 (convert (.real (fpRead p x)) (if ty = 4#3 then 0x05 else 0x09) rm true))
    advance 4

end Sys2Proof.Machine
end

