-- ==== Sys2Proof/Machine/VecCfg.lean ====
section
/-! DEFINITION. Vector configuration, the set-length grant and gang synchronisation: majors 16 and 29 (12 R263 to R267,
04 R77, 11 R250 to R252). -/

namespace Sys2Proof.Machine

/-! ### The set-length grant (04 R77) -/

/-- A hart that has not executed `exit` and has not arrived at the round. -/
def Gang.awaits (g : Gang) (i : Nat) (h : Hart) : Bool := h.mode != .exited && !g.arrived.any fun a => a.1 == i

/-- The minimum of the contributions of a round. -/
def minContribution (l : List (Nat × Nat × Bool)) : Nat :=
  match l with
  | [] => 0
  | a :: rest => rest.foldl (fun m x => min m x.2.1) a.2.1

/-- A hart given the grant G of a completed round, when it had arrived. -/
def Hart.granted (l : List (Nat × Nat × Bool)) (g i : Nat) (h : Hart) : Hart :=
  match l.find? fun a => a.1 == i with
  | some a => { h with grant := some (g, a.2.2), vc := { h.vc with vl := BitVec.ofNat 64 g } }
  | none => h

/-- Complete the round once every hart that has not executed `exit` has arrived. -/
def Gang.settle (g : Gang) : Gang :=
  let live := g.arrived.filter fun a => (g.harts[a.1]?.map (·.mode != .exited)).getD false
  if live.isEmpty || (g.harts.mapIdx fun i h => g.awaits i h).any (·) then g
  else { g with arrived := [], harts := g.harts.mapIdx fun i h => h.granted live (minContribution live) i }

/-- The contribution of a request n under `vfmt`: min(n, VLMAX), or 0 while it holds a reserved code. -/
def contribution (vrlen n : Nat) (vfmt : Word) : Nat := if vfmtReserved vfmt then 0 else min n (vlmax vrlen vfmt)

/-- Take a completed grant: d and `vl` := G, with ILL as this hart's `vfmt` earned it. -/
def takeGrant (d : RegField) (g : Nat) (ill : Bool) : M Unit := do
  modHart fun h => { h with
    grant := none
    vc := { h.vc with vl := BitVec.ofNat 64 g, vstat := vstatIll h.vc.vstat ill } }
  setX d (BitVec.ofNat 64 g)
  advance 4

/-- `vsetg` (R265): it arrives once, and waits for its grant. -/
def execVsetg (d a : RegField) : State → Result :=
  runScalar csOnly do
    let here ← hereM
    let vrlen ← vrlenM
    let n ← getX a
    let h ← hartM
    if h.grant.isNone && !(← gangM).arrived.any (fun x => x.1 == here.hid) then
      modGang fun g => Gang.settle { g with
        arrived := g.arrived ++ [(here.hid, contribution vrlen n.toNat h.vc.vfmt, vfmtReserved h.vc.vfmt)] }
    match (← hartM).grant with
    | some (g, ill) => takeGrant d g ill
    | none => waitAt .vsetg

/-! ### Other configuration instructions -/

/-- `vsetl` (R264). -/
def execVsetl (d a : RegField) : State → Result :=
  runScalar csOnly do
    let vrlen ← vrlenM
    let n ← getX a
    let vfmt := (← hartM).vc.vfmt
    let vl : Word := BitVec.ofNat 64 (contribution vrlen n.toNat vfmt)
    modHart fun h => { h with vc := { h.vc with vl := vl, vstat := vstatIll h.vc.vstat (vfmtReserved vfmt) } }
    setX d vl
    advance 4

/-- `vsetf` (R266). -/
def execVsetf (d a : RegField) : State → Result :=
  runScalar csOnly do
    let x ← getX a
    enqueue .vsetf { noOps with d := d } 4 x 0 0

/-- `vclr` (R266). -/
def execVclr (d : RegField) : State → Result := runScalar csOnly (enqueue .vclr { noOps with d := d } 4 0 0 0)

/-- `vsetst` (R267). -/
def execVsetst : State → Result :=
  runScalar csOnly do
    needQueueEmpty
    modHart fun h => { h with vc := { h.vc with vstart := h.vc.vcont } }
    advance 4

/-- `vgetf` (R267). -/
def execVgetf (d a : RegField) : State → Result :=
  runScalar csOnly do
    needQueueEmpty
    setX d (BitVec.ofNat 64 ((← hartM).vreg a).fill)
    advance 4

/-! ### The gang barrier -/

/-- An arrival of the AS is given: it is counted once every older store of the AS is visible, and until then it is held
(R251). What the AS issues later is younger than the arrival. -/
def Hart.asArrives (h : Hart) : Hart :=
  if h.abuf.isEmpty then { h with asArr := h.asArr + 1 }
  else { h with asArr := h.asArr + 1, asHeld := h.asHeld ++ [(h.asArr, h.seq + 1)], seq := h.seq + 1 }

/-- `gbar` (R251): it waits for nothing. The AS performs the stores that can be; the arrival of the CS is counted at issue. -/
def execGbar (d : RegField) : State → Result :=
  runScalar bothHart do
    let here ← hereM
    if here.sl = .as then modify fun s => drainBuf s here.gang here.hid .as
    let h ← hartM
    match here.sl with
    | .as => modHart Hart.asArrives
    | .cs => modHart fun h => { h with csArr := h.csArr + 1 }
    setX d (BitVec.ofNat 64 (match here.sl with | .as => h.asArr | .cs => h.csArr))
    advance 4
    barrierM

/-- `garr` (R251): its arrival is counted when its marker fires. -/
def execGarr (d : RegField) : State → Result :=
  runScalar csOnly do
    let h ← hartM
    if 16 ≤ h.viq.length then waitAt (queueWait h) else
    modHart fun h => { h with csArr := h.csArr + 1 }
    setX d (BitVec.ofNat 64 h.csArr)
    enqueue .garr noOps 4 0 0 h.csArr

/-- `gwait` (R251). -/
def execGwait (a : RegField) : State → Result :=
  runScalar bothHart do
    let x ← getX a
    if (← gangM).ph ≤ x.toNat then waitAt .gwait else advance 4

end Sys2Proof.Machine
end

