-- ==== Sys2Proof/Machine/Queue.lean ====
section
/-! DEFINITION. Queue and stream set-up instructions: majors 13 and 14 (11 R242 to R245, 14 R307 to R309, R326,
05 R100 to R111). -/

namespace Sys2Proof.Machine

/-! ### Slip and fences -/

/-- SLIPUSE (05 R103). -/
def Hart.slipUse (h : Hart) : Nat := h.qa.length + h.s.foldl (fun n x => n + x.queue.length) 0

/-- LIMIT of `slip` (05 R102). -/
def Hart.slipLimit (h : Hart) : Nat := bitsOf h.slip.toNat 0 8

/-- A pending `fence.sv` performs the AS's older stores before the first push after it (14 R326). -/
def passFenceSv : M Unit := do
  if (← hartM).fenceSv then
    drain .as
    modHart fun h => { h with fenceSv := false }

/-- Queued instructions older than a pending `fence.vs` have not all completed. -/
def Hart.olderThanFence (h : Hart) : Bool := h.fenceVs && (h.viq ++ h.held).any (·.fenced)

/-- A pending `fence.vs` holds the first push after it until the older vector instructions have completed and their
accesses are visible (14 R326). The wait does not count towards R105. -/
def passFenceVs : M Unit := do
  let h ← hartM
  if h.olderThanFence then waitAt (queueWait h)
  else if h.fenceVs then
    drain .cs
    modHart fun h => { h with fenceVs := false }

/-- A push of the AS waits at R103 or for room, then for `fence.sv`. -/
def holdPush (room : Bool) : M Unit := do
  let h ← hartM
  if h.slipLimit ≤ h.slipUse || !room then waitAt .queue else passFenceSv

/-! ### Pushes and pops -/

/-- An entry of `qa` or `qc` as a slice of the hart pushes it: `qpush.rel` ties it to what is older in that slice, which
in the CS includes the vector queue (R245, log 144). -/
def Hart.qword (h : Hart) (rel : Bool) (sl : SliceId) (x : Word) : QWord :=
  if !rel then { word := x } else
  match sl with
  | .as => { word := x, lo := h.seq + 1, hi := h.seq + 1 }
  | .cs => { word := x, lo := (h.viq.head?.map (·.seq)).getD (h.seq + 1), hi := h.seq + 1 }

/-- What is issued after a `qpush.rel` is younger than its entry. -/
def Hart.younger (h : Hart) (rel : Bool) : Hart := if rel then { h with seq := h.seq + 1 } else h

/-- Push a word: `qa` from the AS, `qc` from the CS (11 R242, R243). -/
def pushWord (rel : Bool) (n : Nat) (a : RegField) (q : BitVec 2) : State → Result :=
  runScalar bothHart do
    let here ← hereM
    let h ← hartM
    match here.sl with
    | .as =>
      if q != 0#2 then trap cILLEGAL else
      holdPush (decide (h.qa.length < 64))
      let x ← getX a
      modHart fun h => { h.younger rel with qa := h.qa ++ [h.qword rel .as x] }
      advance n
    | .cs =>
      if q != 1#2 then trap cILLEGAL else
      if 16 ≤ h.qc.length then waitAt .queue else
      passFenceVs
      let x ← getX a
      modHart fun h => { h.younger rel with qc := h.qc ++ [h.qword rel .cs x] }
      advance n

/-- A vector instruction that an entry of `qc` was pushed behind has not completed. -/
def Hart.behind (h : Hart) (q : QWord) : Bool :=
  (h.viq ++ h.held).any fun e => decide (q.lo ≤ e.seq) && decide (e.seq < q.hi)

/-- A store that an entry was pushed behind is still pending. -/
def Hart.storesBehind (h : Hart) (sl : SliceId) (q : QWord) : Bool := (h.buf sl).any fun w => w.seq < q.hi

/-- Take an entry that slice `sl` pushed: what is older than a `qpush.rel` has become visible (R245). -/
def takeEntry (sl : SliceId) (q : QWord) : M Unit := do
  let here ← hereM
  if sl = .cs && (← hartM).behind q then waitAt .queue
  if (← hartM).storesBehind sl q then
    modify fun s => drainBuf s here.gang here.hid sl
    if (← hartM).storesBehind sl q then waitAt .queue

/-- Read the oldest entry: `qc` in the AS, `qa` in the CS; `take` also removes it. -/
def popWord (take : Bool) (n : Nat) (d : RegField) (q : BitVec 2) : State → Result :=
  runScalar bothHart do
    let here ← hereM
    let h ← hartM
    match here.sl with
    | .as =>
      if q != 1#2 then trap cILLEGAL else
      match h.qc with
      | [] => waitAt .queue
      | x :: _ => do
        if take then
          takeEntry .cs x
          modHart fun h => { h with qc := h.qc.drop 1 }
        setX d x.word
        advance n
    | .cs =>
      if q != 0#2 then trap cILLEGAL else
      match h.qa with
      | [] => waitAt .queue
      | x :: _ => do
        if take then
          takeEntry .as x
          modHart fun h => { h with qa := h.qa.drop 1 }
        setX d x.word
        advance n

/-- `qpush` (R243). -/
def execQpush (a : RegField) (q : BitVec 2) : State → Result := pushWord false 4 a q
/-- `qpush.rel` (R245). -/
def execQpushRel (a : RegField) (q : BitVec 2) : State → Result := pushWord true 4 a q
/-- `qpop` (R243). -/
def execQpop (d : RegField) (q : BitVec 2) : State → Result := popWord true 4 d q
/-- `qpop.acq` (R245): no younger access of the slice has been performed. -/
def execQpopAcq (d : RegField) (q : BitVec 2) : State → Result := popWord true 4 d q
/-- `qpeek` (R243). -/
def execQpeek (d : RegField) (q : BitVec 2) : State → Result := popWord false 4 d q
/-- `c.qpush` (09 R203). -/
def execCQpush (x : RegField) (q : BitVec 2) : State → Result := pushWord false 2 x q
/-- `c.qpop` (09 R203). -/
def execCQpop (x : RegField) (q : BitVec 2) : State → Result := popWord true 2 x q

/-- `qpushb` (R243). -/
def execQpushb (a : RegField) : State → Result :=
  runScalar csOnly do
    if 64 ≤ (← hartM).qb.length then waitAt .queue else
    passFenceVs
    let x ← getX a
    modHart fun h => { h with qb := h.qb ++ [x.getLsbD 0] }
    advance 4

/-- Entries of a queue. -/
def Hart.queueCount (h : Hart) (q : BitVec 2) : Nat :=
  match q.toNat with
  | 0 => h.qa.length
  | 1 => h.qc.length
  | _ => h.qb.length

/-- A queue emptied. -/
def Hart.clearQueue (h : Hart) (q : BitVec 2) : Hart :=
  match q.toNat with
  | 0 => { h with qa := [] }
  | 1 => { h with qc := [] }
  | _ => { h with qb := [] }

/-- `qcnt` (R244). -/
def execQcnt (d : RegField) (q : BitVec 2) : State → Result :=
  runScalar bothHart do
    if q = 3#2 then trap cILLEGAL else
    setX d (BitVec.ofNat 64 ((← hartM).queueCount q))
    advance 4

/-- `qclr` (R244, 05 R111). -/
def execQclr (q : BitVec 2) : State → Result :=
  runScalar bothHart do
    if q = 3#2 then trap cILLEGAL else
    modHart fun h => h.clearQueue q
    advance 4

/-! ### Streams -/

/-- The stream register a literal names. -/
def streamField (s : BitVec 4) : BitVec 5 := s.setWidth 5

/-- Push a descriptor: a base that is not canonical traps PROT (07 R142), a breach of 05 R107 traps ILLFMT, and
nothing is pushed then. -/
def pushDesc (s : BitVec 4) (d : Desc) (resv : Word) : M Unit := do
  if d.illegal resv then trap cILLFMT
  else if !canonical d.base.toNat then trap cPROT d.base
  else
    modHart fun h => h.setStream (streamField s)
      { h.stream (streamField s) with queue := (h.stream (streamField s)).queue ++ [{ desc := d, dfault := none }] }
    advance 4

/-- Room in a descriptor queue. -/
def Hart.descRoom (h : Hart) (s : BitVec 4) : Bool := (h.stream (streamField s)).queue.length < 4

/-- A push of a descriptor waits as a descriptor push (05 R103). -/
def holdDesc (s : BitVec 4) : M Unit := do
  let h ← hartM
  if h.slipLimit ≤ h.slipUse || !h.descRoom s then waitAt .desc else passFenceSv

/-- `sload` (14 R308). -/
def execSload (s : BitVec 4) (a : RegField) : State → Result :=
  runScalar asOnly do
    holdDesc s
    let va ← getX a
    if va.toNat % 32 != 0 then trap cPROT va else
    let b ← wideLoad va.toNat 32
    let w (k : Nat) : Word := BitVec.ofNat 64 (bytesToNat ((b.drop (8 * k)).take 8))
    pushDesc s { base := w 0, cfg := w 1, stride := w 2 } (w 3)

/-- CFG as `slin` and `sbit` build it, and the bits of b that must be 0 (14 R308). -/
def builtCfg (kind : Nat) (b : Word) (fmt : BitVec 5) : Word :=
  let x := b.toNat
  BitVec.ofNat 64 (kind * 2 ^ 62 + bitsOf x 56 3 * 2 ^ 59 + fmt.toNat * 2 ^ 54 + bitsOf x 63 1 * 2 ^ 53
    + bitsOf x 62 1 * 2 ^ 52 + bitsOf x 0 48)

def builtResv (b : Word) : Word := BitVec.ofNat 64 (bitsOf b.toNat 59 3 + bitsOf b.toNat 48 8)

/-- `slin` or `sbit`. -/
def buildDesc (kind : Nat) (s : BitVec 4) (a b : RegField) (fmt : BitVec 5) : State → Result :=
  runScalar asOnly do
    holdDesc s
    let base ← getX a
    let x ← getX b
    pushDesc s { base := base, cfg := builtCfg kind x fmt, stride := 0 } (builtResv x)

/-- `slin` (14 R308). -/
def execSlin (s : BitVec 4) (a b : RegField) (fmt : BitVec 5) : State → Result := buildDesc 0 s a b fmt
/-- `sbit` (14 R308). -/
def execSbit (s : BitVec 4) (a b : RegField) (fmt : BitVec 5) : State → Result := buildDesc 2 s a b fmt

/-- `sdrop` (14 R309, 05 R111). -/
def execSdrop (s : BitVec 4) : State → Result :=
  runScalar asOnly do
    modHart fun h => h.setStream (streamField s)
      { h.stream (streamField s) with adopted := none, pos := 0, ahead := 0, walk := [], dfault := none, cover := none, queue := [] }
    advance 4

/-- `spos` (14 R309). -/
def execSpos (s : BitVec 4) (a : RegField) : State → Result :=
  runScalar asOnly do
    let x := (← hartM).stream (streamField s)
    setX a (BitVec.ofNat 64 x.pos ||| (if x.adopted.isNone then 0x8000000000000000#64 else 0))
    advance 4

end Sys2Proof.Machine
end

