-- ==== Sys2Proof/Machine/Sys.lean ====
section
/-! DEFINITION. System instructions: major 0 and the gang's save as a whole (11 R226 to R232, 14 R326 to R328,
08 R170 to R174, 04 R89 to R92, 07 R154). -/

namespace Sys2Proof.Machine

/-! ### Instructions without a rendezvous -/

/-- `nop` (11 R226). -/
def execNop : State → Result := runScalar both (advance 4)
/-- `c.nop` (09 R203). -/
def execCNop : State → Result := runScalar both (advance 2)

/-- `brk` (11 R227). -/
def execBrk : State → Result := runScalar both (trap cBREAK)
/-- `trap` (11 R227). -/
def execTrap (n : BitVec 5) : State → Result := runScalar both (trap cSWTRAP 0 (n.setWidth 64))

/-- An encoding that is no instruction (09 R205): ILLEGAL, or BADTGT at a misplaced prefix. -/
def execIllegalEncoding (misplaced : Bool) : State → Result :=
  runScalar both do
    let pc ← getPc
    if misplaced then trap cBADTGT pc else trap cILLEGAL

/-- A supervisor function (09 R198, R204): PRIV on a compute hart. -/
def execSupervisorFunction (_fn _d _a _b : BitVec 5) : State → Result :=
  runScalar both do
    match ← cpuM with
    | .slice _ => trap cPRIV
    | .survey _ => throw (.refuse .supervisorOnSurvey)

/-- A survey core goes on at its `epc` (log 12). -/
def Survey.eret (x : Survey) : Survey :=
  { x with pc := x.tr.epca, tr := { x.tr with ecause := x.tr.ecause &&& ~~~(0x800#64) } }

/-- `eret` (07 R154, 09 R186): a saved pc that fails the checks traps in the slice as it resumes, with H = 0 (log 78). -/
def execEret : State → Result :=
  runScalar both do
    match ← cpuM with
    | .survey k =>
      let x := surveyOf (← get) k
      if !ecH x.tr.ecause then trap cILLEGAL else
      let back := modify fun s => mapSurvey s k fun x => x.eret
      match ← attempt (checkSurveyResume x.tr.epca) with
      | .trap t => do
        back
        throw (.trap t)
      | _ => back
    | .slice here =>
      let h ← hartM
      if !h.handlerOn || h.tr.took != here.sl then trap cILLEGAL else
      needQueueEmpty
      match ← attempt (checkResume here.sl (match here.sl with | .as => h.tr.epca | .cs => h.tr.epcc)) with
      | .ok _ => modHart fun h => h.eret here.sl
      | .wait w => waitAt w
      | .trap t => do
        modHart fun h => h.eret here.sl
        throw (.trap t)

/-- Stop a hart cooperatively after its slice sl has issued `yield` (04 R89): the other slice stops before its next
instruction, the queue drains, then the save begins. -/
def coopStop (s : State) (g h : Nat) (sl : SliceId) : State :=
  let s := mapHart s g h fun x => ((x.setCond sl .yielded).setCond (other sl) .stopped)
  match findHart s g h with
  | none => s
  | some x =>
    if x.viq.isEmpty then beginSave s g h true else mapHart s g h fun x => { x with mode := .draining }

/-- `yield` (04 R89, R91): nothing without a posted request. Once `cycle` has gone past the deadline it never issues: the
gang's harts are stopped by force, the slice before it. -/
def execYield : State → Result :=
  runScalar bothHart do
    let here ← hereM
    let h ← hartM
    if deadlinePassed (← get) h then modify fun s => forceGang s here.gang
    else
      advance 4
      if ypP h then modify fun s => coopStop s here.gang here.hid here.sl

/-- The word that `wait` and `cwait` observe: aligned, readable, not on a DEV page. An observation acquires at `.sys`: it
binds its value at the home, after the AS's own stores to the word (16 R369, log 62). -/
def observeWord (va : Word) : M Word := do
  if va.toNat % 8 != 0 then trap cPROT va else
  let f ← noDevLocate va.toNat 8 .load
  if pendingAt (← hartM).abuf f.locs then drain .as
  let b ← readLocs [] f.locs va.toNat
  pure (BitVec.ofNat 64 (bytesToNat b))

/-- A survey core's aligned word of local HBM (09 R204, log 12). -/
def surveyObserve (va : Word) : M Word := do
  let s ← get
  if va.toNat % 8 != 0 then trap cPROT va else
  match physLocs s va.toNat 8 with
  | none => trap cPROT va
  | some locs =>
    if locs.any (poisoned s) then trap cMCHK va else pure (BitVec.ofNat 64 (bytesToNat (homeRead s locs)))

/-- `wait` (11 R229). -/
def execWait (a b : RegField) : State → Result :=
  runScalar asSurvey do
    let va ← getX a
    let old ← getX b
    let x ← match ← cpuM with
      | .slice _ => observeWord va
      | .survey _ => surveyObserve va
    if x = old then waitAt .word else advance 4

/-- `fence.sv` (14 R326). -/
def execFenceSv : State → Result :=
  runScalar asOnly do
    modHart fun h => { h with fenceSv := true }
    advance 4

/-- Every instruction of the vector queue, the held ones too, is older than a `fence.vs`. -/
def Hart.fenceQueue (h : Hart) : Hart :=
  let mark (q : List VEntry) : List VEntry := q.map fun e => { e with fenced := true }
  { h with fenceVs := true, viq := mark h.viq, held := mark h.held }

/-- `fence.vs` (14 R326): every queued instruction is older than it. -/
def execFenceVs : State → Result :=
  runScalar csOnly do
    modHart Hart.fenceQueue
    advance 4

/-- `fence.vv` (14 R326). -/
def execFenceVv : State → Result := runScalar csOnly (enqueue .fenceVv noOps 4 0 0 0)

/-! ### Tiles (15 R328) -/

/-- `zstart`. -/
def execZstart (a : RegField) : State → Result :=
  runScalar csOnly do
    needQueueEmpty
    let x ← getX a
    if x = 0 || 64 < x.toNat then trap cILLEGAL else
    modHart fun h => { h with zl := x, zrow := 0, z := Vector.replicate 4 0, zlive := true }
    advance 4

/-- `zend`. -/
def execZend : State → Result :=
  runScalar csOnly do
    needQueueEmpty
    if (← hartM).zlive then modHart fun h => { h with zlive := false, zl := 0 }
    advance 4

/-! ### Rendezvous (11 R230) -/

/-- fn10 of the rendezvous instructions (09 R198). -/
def fnExit : Nat := 0x001
def fnFenceAll : Nat := 0x00B
def fnAdjFwd : Nat := 0x010
def fnAdjRev : Nat := 0x011
def fnAdjOff : Nat := 0x012

/-- Wait until every older instruction of both slices has completed, then make their accesses visible and fire every
`garr` marker. -/
def settleHart (fn10 : Nat) : M Unit := do
  if !(← hartM).viq.isEmpty then waitAt (.rendezvous fn10) else
  drain .as
  drain .cs
  modHart fun h => { h with markers := [], asHeld := [] }
  barrierM

/-- `fence.all` (14 R327). -/
def execFenceAll : State → Result :=
  rendezvous fnFenceAll do
    settleHart fnFenceAll
    modHart fun h =>
      { h.dropWalks with as_ := { h.as_ with fbuf := [] }, cs := { h.cs with fbuf := [] } }

/-- A hart's save is complete. -/
def Hart.savedWhole (h : Hart) : Bool := (h.save.map (·.done)).getD false

/-- Saves of a gang's harts are all complete, that of hart 0 with the gang state; another hart that has exited needs none
(R76). -/
def Gang.saved (g : Gang) : Bool :=
  g.harts.any (fun h => h.mode != .exited) &&
    g.harts.zipIdx.all fun (h, k) =>
      if k = 0 then h.savedWhole && (h.save.map (·.gang)).getD false else h.savedWhole || h.mode == .exited

/-- A resident gang whose last save is complete leaves its place (04 R92): it goes to the placement queue, and its
resources are free. -/
def leaveIfSaved (s : State) (g : Nat) : State :=
  match findGang s g with
  | some x =>
    if x.st == .resident && x.saved then mapGang s g fun x => { x with st := .saved, qsince := s.ntime } else s
  | none => s

/-- A gang one of whose harts has executed `exit`: with its last hart it has ended (R81). -/
def Gang.afterExit (g : Gang) : Gang :=
  let g := g.settle.advance
  if g.harts.all (·.mode == .exited) then { g with st := .ended false, chamber := [] } else g

/-- A hart after `exit` (11 R231): its registers stand, and everything else it held is gone. -/
def Hart.ended (h : Hart) : Hart :=
  { h with
    mode := .exited
    qa := [], qc := [], qb := []
    s := h.s.map fun _ =>
      { adopted := none, pos := 0, ahead := 0, walk := [], dfault := none, cover := none, queue := [] }
    zlive := false
    windows := []
    tcm := []
    fenceSv := false
    fenceVs := false
    grant := none
    save := none
    answer := none }

/-- `exit` (11 R231): ILLEGAL in a handler; else the hart ends, and leaves its set-length round and its barrier. -/
def execExit (s : State) : Result :=
  match here? s with
  | some h =>
    if ((findHart s h.gang h.hid).map Hart.handlerOn).getD false then runScalar both (trap cILLEGAL) s
    else rendezvous fnExit (do
      settleHart fnExit
      modHart Hart.ended
      modGang Gang.afterExit
      modify fun s => leaveIfSaved (openGangArea s h.gang) h.gang) s
  | none => runScalar bothHart (trap cILLEGAL) s

/-! ### Mode switches (08 R168 to R174) -/

/-- The field conditions of R170. -/
def Region.fieldOk (r : Region) : Bool :=
  (r.fmt == 0x0B || r.fmt == 0x0C || r.fmt == 0x0D) && r.acc ≤ 1 && r.len != 0
    && bitsOf r.ctl.toNat 48 7 == 0 && bitsOf r.win.toNat 48 16 == 0
    && r.pbase.toNat % r.size == 0 && r.adjbase.toNat % 4 == 0

/-- The primal and adjoint ranges. -/
def Region.ranges (r : Region) : List (Nat × Nat) :=
  [(r.pbase.toNat, r.primalEnd), (r.adjbase.toNat, r.adjbase.toNat + 4 * r.len)]

def overlap (x y : Nat × Nat) : Bool := x.1 < y.2 && y.1 < x.2

/-- Whether a valid entry offends, given the valid entries before it. -/
def Region.offends (before : List Region) (r : Region) : Bool :=
  r.valid && (!r.fieldOk || overlap (r.pbase.toNat, r.primalEnd) (r.adjbase.toNat, r.adjbase.toNat + 4 * r.len)
    || before.any fun b => b.valid && b.ranges.any fun x => r.ranges.any (overlap x))

/-- The index of the first offending entry. -/
def firstOffender : List Region → List Region → Nat → Option Nat
  | _, [], _ => none
  | before, r :: rest, i => if r.offends before then some i else firstOffender (before ++ [r]) rest (i + 1)

/-- The 16 entries in 512 bytes. -/
def parseTable (b : List Byte) : List Region :=
  (List.range 16).map fun i =>
    let w (k : Nat) : Word := BitVec.ofNat 64 (bytesToNat ((b.drop (32 * i + 8 * k)).take 8))
    { pbase := w 0, adjbase := w 1, ctl := w 2, win := w 3 }

/-- Read and check the region table (R170). -/
def readTable : M (List Region) := do
  let base := (← hartM).tp.dtab
  if base = 0 then pure [] else
  let b ← loadBytes .as base.toNat 512
  let t := parseTable b
  match firstOffender [] t 0 with
  | some i => trap cPROT (base + BitVec.ofNat 64 (32 * i))
  | none => pure t

/-- A switch (R174): older accesses, the table, then the mode. -/
def adjSwitch (fn10 : Nat) (mode : BitVec 2) : State → Result :=
  rendezvous fn10 do
    settleHart fn10
    let t ← readTable
    modHart fun h => { h with tp := { h.tp with adjm := mode, table := some t } }

/-- `adj.fwd`. -/
def execAdjFwd : State → Result := adjSwitch fnAdjFwd 1
/-- `adj.rev`. -/
def execAdjRev : State → Result := adjSwitch fnAdjRev 2
/-- `adj.off`. -/
def execAdjOff : State → Result := adjSwitch fnAdjOff 0

end Sys2Proof.Machine
end

