-- ==== Sys2Proof/Machine/Ctl.lean ====
section
/-! DEFINITION. Control registers: majors 1 and 2 (05 R98 to R102, 11 R233, 04 R87, 06 R123, 08 R168, R175,
07 R152). -/

namespace Sys2Proof.Machine

/-- Access of a register from a slice (R98). -/
inductive Access where
  | absent | ro | rw
  deriving DecidableEq, Repr

/-- Access from the AS. -/
def accessAs (n : Nat) : Access :=
  match n with
  | 0x021 | 0x022 | 0x023 | 0x024 | 0x030 | 0x050 | 0x051 | 0x052 | 0x053 | 0x054 | 0x055 => .rw
  | 0x002 | 0x020 | 0x031 | 0x040 | 0x041 | 0x042 | 0x043 | 0x044 | 0x045 | 0x056 | 0x060 | 0x061 => .ro
  | _ => .absent

/-- Access from the CS. -/
def accessCs (n : Nat) : Access :=
  match n with
  | 0x001 | 0x003 | 0x00A | 0x011 | 0x050 | 0x051 | 0x052 | 0x053 | 0x054 | 0x055 => .rw
  | 0x000 | 0x002 | 0x004 | 0x005 | 0x006 | 0x007 | 0x008 | 0x009 | 0x010 | 0x020 | 0x021 | 0x022 | 0x023 | 0x024
  | 0x030 | 0x031 | 0x040 | 0x041 | 0x042 | 0x043 | 0x044 | 0x045 | 0x056 | 0x060 | 0x061 => .ro
  | _ => .absent

def accessOf : SliceId → Nat → Access
  | .as => accessAs
  | .cs => accessCs

/-- Registers whose GETC in the CS waits for the vector instruction queue (R99). -/
def getWaits (n : Nat) : Bool :=
  match n with
  | 0x000 | 0x003 | 0x004 | 0x005 | 0x006 | 0x007 | 0x008 | 0x009 | 0x011 | 0x031 => true
  | _ => false

/-- Registers whose SETC in the CS waits for it: those of R99's list, so a SETC that is ignored waits only where it names one of
them (R233, log 169). -/
def setWaits (n : Nat) : Bool :=
  match n with
  | 0x001 | 0x003 | 0x00A | 0x011 => true
  | _ => false

/-- `qstat` (R101). -/
def Hart.qstat (h : Hart) : Word :=
  let dqne := h.s.toList.zipIdx.foldl (fun n (x, k) => n + (if x.queue.isEmpty then 0 else 2 ^ k)) 0
  BitVec.ofNat 64 (h.slipUse * 2 ^ 48 + dqne * 2 ^ 32 + h.qb.length * 2 ^ 16 + h.qc.length * 2 ^ 8 + h.qa.length)

/-- The control register n of a hart, as slice sl reads it. -/
def readCtl (s : State) (vrlen : Nat) (h : Hart) (sl : SliceId) (n : Nat) : Word :=
  match n with
  | 0x000 => h.vc.vl
  | 0x001 => h.vc.vfmt
  | 0x002 => BitVec.ofNat 64 vrlen
  | 0x003 => h.vc.vstart
  | 0x004 => h.vc.vcont
  | 0x005 => h.vc.vstat
  | 0x006 => h.vc.gn
  | 0x007 => h.vc.gbd
  | 0x008 => h.vc.gba
  | 0x009 => h.vc.gbb
  | 0x00A => h.vc.vcap
  | 0x010 => h.zl
  | 0x011 => h.zrow
  | 0x020 => h.tp.adjm.setWidth 64
  | 0x021 => h.tp.tapeb
  | 0x022 => h.tp.tapeh
  | 0x023 => h.tp.tapel
  | 0x024 => h.tp.dtab
  | 0x030 => h.slip
  | 0x031 => h.qstat
  | 0x040 => h.hid
  | 0x041 => h.gsz
  | 0x042 => h.gix
  | 0x043 => h.gcnt
  | 0x044 => h.kargs
  | 0x045 => h.ypend
  | 0x050 => h.tr.ecause
  | 0x051 => h.tr.epca
  | 0x052 => h.tr.epcc
  | 0x053 => h.tr.eaddr
  | 0x054 => h.tr.einfo
  | 0x055 => h.evec sl
  | 0x056 => h.tr.emask
  | 0x060 => s.cycle
  | 0x061 => BitVec.ofNat 64 (s.ntime / 720720)
  | _ => 0

/-- `slip` as a SETC leaves it: a write of 0 or of more than 128 is ignored (R102, 10 R223). -/
def slipWrite (old x : Word) : Word := if x = 0 || 128 < x.toNat then old else x

/-- `ecause` as a SETC leaves it: H and the reserved bits keep their values (07 R152). -/
def ecauseWrite (old x : Word) : Word := (x &&& 0xFFFFFFFFFFFF03FF#64) ||| (old &&& 0xFC00#64)

/-- A program counter as a register keeps it: bit 0 is 0 (09 R183). -/
def pcForm (x : Word) : Word := x &&& ~~~(1#64)

/-- `vcap` as a SETC leaves it (R115). -/
def vcapWrite (vrlen : Nat) (x : Word) : Word := if 8 * vrlen < x.toNat then BitVec.ofNat 64 (8 * vrlen) else x

/-- A hart with control register n written field by field (11 R233). -/
def Hart.writeCtl (h : Hart) (vrlen : Nat) (sl : SliceId) (n : Nat) (x : Word) : Hart :=
  match n with
  | 0x001 => { h with vc := { h.vc with vfmt := x &&& 0xFFFFFFFF#64 } }
  | 0x003 => { h with vc := { h.vc with vstart := x } }
  | 0x00A => { h with vc := { h.vc with vcap := vcapWrite vrlen x } }
  | 0x011 => { h with zrow := x }
  | 0x021 => { h with tp := { h.tp with tapeb := x &&& ~~~(7#64) } }
  | 0x022 => { h with tp := { h.tp with tapeh := x &&& ~~~(7#64) } }
  | 0x023 => { h with tp := { h.tp with tapel := x &&& ~~~(7#64) } }
  | 0x024 => { h with tp := { h.tp with dtab := x &&& ~~~(511#64) } }
  | 0x030 => { h with slip := slipWrite h.slip x }
  | 0x050 => { h with tr := { h.tr with ecause := ecauseWrite h.tr.ecause x } }
  | 0x051 => { h with tr := { h.tr with epca := pcForm x } }
  | 0x052 => { h with tr := { h.tr with epcc := pcForm x } }
  | 0x053 => { h with tr := { h.tr with eaddr := x } }
  | 0x054 => { h with tr := { h.tr with einfo := x } }
  | 0x055 =>
    match sl with
    | .as => { h with tr := { h.tr with evecA := x &&& ~~~(3#64) } }
    | .cs => { h with tr := { h.tr with evecC := x &&& ~~~(3#64) } }
  | _ => h

/-- The control register n of a survey core, where the model holds it: its trap registers, `cycle` and `ntime`. The
others of the AS read as a free value there (log 12). -/
def surveyCtl (s : State) (x : Survey) (n : Nat) : Option Word :=
  match n with
  | 0x050 => some x.tr.ecause
  | 0x051 => some x.tr.epca
  | 0x052 => some x.tr.epcc
  | 0x053 => some x.tr.eaddr
  | 0x054 => some x.tr.einfo
  | 0x055 => some x.tr.evecA
  | 0x056 => some x.tr.emask
  | 0x060 => some s.cycle
  | 0x061 => some (BitVec.ofNat 64 (s.ntime / 720720))
  | _ => none

/-- A survey core with control register n written field by field. -/
def Survey.writeCtl (x : Survey) (n : Nat) (v : Word) : Survey :=
  match n with
  | 0x050 => { x with tr := { x.tr with ecause := ecauseWrite x.tr.ecause v } }
  | 0x051 => { x with tr := { x.tr with epca := pcForm v } }
  | 0x052 => { x with tr := { x.tr with epcc := pcForm v } }
  | 0x053 => { x with tr := { x.tr with eaddr := v } }
  | 0x054 => { x with tr := { x.tr with einfo := v } }
  | 0x055 => { x with tr := { x.tr with evecA := v &&& ~~~(3#64) } }
  | _ => x

/-- What a survey core reads of control register n. -/
def surveyGet (k n : Nat) : M Word := do
  let s ← get
  match surveyCtl s (surveyOf s k) n with
  | some v => pure v
  | none => do
    let (v, s) := takeFree s
    set s
    pure v

/-- `getc` (11 R233). -/
def execGetc (d : RegField) (n : BitVec 15) : State → Result :=
  runScalar both do
    match ← cpuM with
    | .survey k =>
      if accessAs n.toNat = .absent then trap cILLEGAL else
      setX d (← surveyGet k n.toNat)
      advance 4
    | .slice here =>
      if accessOf here.sl n.toNat = .absent then trap cILLEGAL else
      if here.sl = .cs && getWaits n.toNat then needQueueEmpty
      let vrlen ← vrlenM
      setX d (readCtl (← get) vrlen (← hartM) here.sl n.toNat)
      advance 4

/-- `setc` (11 R233): a register that is ro for the slice is left as it is. What the AS writes to `slip`, the tape registers or
`dtab` the CS sees at once (log 166). -/
def execSetc (n : BitVec 15) (a : RegField) : State → Result :=
  runScalar both do
    match ← cpuM with
    | .survey k =>
      if accessAs n.toNat = .absent then trap cILLEGAL else
      let x ← getX a
      modify fun s => mapSurvey s k fun y => y.writeCtl n.toNat x
      advance 4
    | .slice here =>
      let acc := accessOf here.sl n.toNat
      if acc = .absent then trap cILLEGAL else
      if here.sl = .cs && setWaits n.toNat then needQueueEmpty
      let x ← getX a
      let vrlen ← vrlenM
      if acc = .rw then modHart fun h => h.writeCtl vrlen here.sl n.toNat x
      advance 4

end Sys2Proof.Machine
end

