-- ==== Sys2Proof/Machine/Complete.lean ====
section
/-! DEFINITION. Completion objects and additions, the ends of forked operations, and accesses of agents outside a hart
(03 R56, R57, R392, 07 R393, 15 R341, R342). -/

namespace Sys2Proof.Machine

/-! ### Accesses of an agent outside a hart -/

/-- Run an access of an agent that takes no trap: its value, its trap or its wait, and the state reached. -/
def tried {α : Type} (x : M α) (s : State) : Tried α × State :=
  match attempt x s with
  | .ok r s => (r, s)
  | .error _ s => (.wait .link, s)

/-- n bytes at va through a context, page by page; `k` bounds the number of pages. -/
def readThrough (x : Xlat) : (k : Nat) → (va n : Nat) → M (List Byte)
  | 0, _, _ => pure []
  | k + 1, va, n => do
    let m := min n (65536 - va % 65536)
    let f ← locate x .load va m
    let b ← readLocs [] f.locs va
    if n ≤ m then pure b else pure (b ++ (← readThrough x k (va + m) (n - m)))

/-- Pages that n bytes may touch. -/
def pagesOf (n : Nat) : Nat := n / 65536 + 2

def readCtx (x : Xlat) (va n : Nat) : M (List Byte) := if n = 0 then pure [] else readThrough x (pagesOf n) va n

/-- Two parts of an access together. -/
def Found.append (f g : Found) : Found :=
  { locs := f.locs ++ g.locs, dev := f.dev || g.dev, sa := f.sa && g.sa, kinds := f.kinds ++ g.kinds,
    leaves := f.leaves ++ g.leaves }

/-- Locate n bytes at va for an access, page by page. -/
def locateThrough (x : Xlat) (acc : Acc) : (k : Nat) → (va n : Nat) → M Found
  | 0, _, _ => pure { locs := [] }
  | k + 1, va, n => do
    let m := min n (65536 - va % 65536)
    let f ← locate x acc va m
    if n ≤ m then pure f else pure (f.append (← locateThrough x acc k (va + m) (n - m)))

def locateCtx (x : Xlat) (acc : Acc) (va n : Nat) : M Found :=
  if n = 0 then pure { locs := [] } else locateThrough x acc (pagesOf n) va n

/-- Read n bytes at va that must be reachable: host memory that does not answer is a refusal (03 R74, 15 R349). -/
def readReachable (x : Xlat) (va n : Nat) : M (List Byte) := do
  let f ← locateCtx x .load va n
  if f.locs.any isHost && !(← get).dev.hostUp then trap cPROT (BitVec.ofNat 64 va) else readLocs [] f.locs va

/-- A store of located bytes by such an agent: D in its leaves, then its home. -/
def writeFound (f : Found) (bytes : List Byte) : M Unit := do
  f.markDirty
  modify fun s => homeWrite s f.locs bytes

/-! ### Completion additions (R56, R392) -/

/-- The number of a kind of agent in a poison notice. -/
def Adder.code : Adder → Word
  | .sequencer => 0
  | .operation => 1
  | .csig => 2
  | .nsig => 3
  | .peer => 4

/-- The object's value after an addition of n with error flag e (R56). -/
def completionValue (old n : Nat) (e : Bool) : Nat :=
  (old % 2 ^ 63 + n) % 2 ^ 63 + (if e || old.testBit 63 then 2 ^ 63 else 0)

/-- An addition at the object's home; a poisoned unit is left as it is, and the poison recovery owner is told. -/
def completionAdd (by_ : Adder) (pa : Nat) (tag : Word) (locs : List Nat) (n : Nat) (e : Bool) (s : State) : State :=
  if locs.any (poisoned s) then notify s 7 .poison [BitVec.ofNat 64 pa, by_.code, tag]
  else homeWrite s locs (natToBytes (completionValue (bytesToNat (homeRead s locs)) n e) 8)

/-- TAG and OWNER as a notice quotes them (07 R155). -/
def Launch.tagOwner (l : Launch) : Word := l.record.ids &&& 0xFFFFFFFF00000000#64 ||| (ctxOwner l.ctx).setWidth 64

def tagOwnerOf (s : State) (g : Nat) : Word := ((findLaunch s g).map (·.tagOwner)).getD 0

/-- The conditions of R57 on the leaf of an object's page. -/
def leafR57 (p : Word) : Bool := pteW p && !pteDEV p && (pteLOC p != 3 || pteSA p)

/-- A completion object as an agent finds it when it makes an addition, with D set in its leaf: its locations and physical
address, and where the addition must wait for a link to its home (01 R31) the leaf that it translated through. -/
def objectPlace (x : Xlat) (va : Word) : M (List Nat × Nat × Option TlbEntry) := do
  let found ← attempt (locate x .store va.toNat 8)
  match found with
  | .trap t => throw (.trap t)
  | .ok f =>
    f.markDirty
    if inWindowSpan va.toNat then return (f.locs, va.toNat, none)
    let e ← leafFor x .store va.toNat va.toNat
    return (f.locs, leafPa e va.toNat, none)
  | .wait _ =>
    let e ← leafFor x .store va.toNat va.toNat
    modify fun s => setDirty s e
    return (locRange (peerLoc (leafPa e va.toNat)) 8, leafPa e va.toNat, some e)

/-- The check of R341 step 2 on an object, for an agent that may or may not reach the windows. -/
def objectCheck (x : Xlat) (va : Word) : M Unit := do
  if va.toNat % 8 != 0 || !canonical va.toNat then trap cPROT va
  else if inWindowSpan va.toNat then do
    let _ ← locate x .load va.toNat 8
  else
    let e ← pageLeaf x .load false va.toNat va.toNat
    if !pteW e.pte || pteDEV e.pte then trap cPROT va
    else if pteLOC e.pte = 3 && !pteSA e.pte then trap cATOMATTR va
    else pure ()

/-- An addition to an object as an agent found it: where no live link leads to its home it waits (01 R31). -/
def addAt (p : List Nat × Nat × Option TlbEntry) (by_ : Adder) (tag : Word) (n : Nat) (e : Bool) (gang : Option Nat) (s : State) :
    State :=
  match p with
  | (_, pa, some leaf) =>
    let links := routeLinks (routeEntry s (pa / 2 ^ 46))
    let a : PendingAdd := { pa := pa, links := links, leaf := leaf, by_ := by_, tag := tag, n := n, err := e, gang := gang }
    { s with adds := s.adds ++ [a] }
  | (locs, pa, none) => completionAdd by_ pa tag locs n e s

/-- An addition through a context. Where the object can no longer be reached none is made (log 114). -/
def addThrough (x : Xlat) (by_ : Adder) (tag va : Word) (n : Nat) (e : Bool) (gang : Option Nat) (s : State) : State :=
  match tried (objectPlace x va) s with
  | (.ok p, s) => addAt p by_ tag n e gang s
  | (_, s) => s

/-- Make the waiting additions to whose homes a live link leads again (01 R31). -/
def makeAdds (s : State) : State :=
  let goes (a : PendingAdd) : Bool := !(liveLinks s a.links).isEmpty
  (s.adds.filter goes).foldl (fun s a => completionAdd a.by_ a.pa a.tag (locRange (peerLoc a.pa) 8) a.n a.err s)
    { s with adds := s.adds.filter fun a => !goes a }

/-! ### Operations (15 R342) -/

def findOp (s : State) (id : Nat) : Option Op := s.ops.find? fun o => o.id == id

def mapOp (s : State) (id : Nat) (f : Op → Op) : State :=
  { s with ops := s.ops.map fun o => if o.id = id then f o else o }

/-- A copy reaches the issuing hart's windows while the hart holds them in the gallery where the copy was forked; no other
operation does (05 R117, R393). -/
def opXlat (s : State) (op : Op) : Xlat :=
  let x := hartXlat s op.gang op.hid
  let here := match findGang s op.gang with
    | some g => g.holds && x.gallery == op.gallery
    | none => false
  let live := here && ((findHart s op.gang op.hid).map (·.mode != .exited)).getD false
  match op.body with
  | .copy _ => { x with hart := if live then x.hart else none, gang := if here then x.gang else none }
  | _ => { x with hart := none, gang := none }

/-- The end of an operation: its addition to its object, if it has one. -/
def endOp (s : State) (op : Op) (e : Bool) : State :=
  let s := if op.obj = 0 then s
    else addThrough (opXlat s op) .operation (tagOwnerOf s op.gang) op.obj 1 e (some op.gang) s
  { s with ops := s.ops.filter fun o => o.id != op.id }

/-- A translation fault of a copy or collective waits for its owner's answer (R342); `kind` is 0 for a copy and 1 for
a collective. -/
def opWaits (t : TrapInfo) : Bool := t.cause = cPGFAULT || (t.cause = cPROT && t.leaf)

def postOpFault (s : State) (op : Op) (kind : Word) (t : TrapInfo) : State :=
  notify (mapOp s op.id fun o => { o with tfault := some (t.eaddr, t.einfo) }) 0 .opFault
    [tagOwnerOf s op.gang, kind, t.eaddr, t.einfo]

/-! ### Collectives in progress (R345, 01 R34) -/

/-- The operations of the members that have issued. -/
def CollOp.ops (c : CollOp) (s : State) : List Op := c.members.filterMap fun m => findOp s m.2

/-- End a collective operation in every member here with error flag e; `whole` says that every member has issued. -/
def endColl (s : State) (c : CollOp) (e : Bool) (whole : Bool := false) : State :=
  let s := { s with colls := s.colls.map fun x =>
      if x.id = c.id && x.num = c.num then { x with ended := true, complete := x.complete || whole } else x }
  (c.ops s).foldl (fun s o => endOp s o e) s

/-- A write of END: each operation of the id that some member here has issued and that has not ended. -/
def endAll (s : State) (id : Nat) : State :=
  (s.colls.filter fun c => c.id == id && !c.ended && !c.members.isEmpty).foldl (fun s c => endColl s c true) s

end Sys2Proof.Machine
end

