-- ==== Sys2Proof/Machine/Shake.lean ====
section
/-! DEFINITION. SHAKE256 and SHAKE128 as FIPS 202 specifies them: with 512 bits of output SHAKE256 is the digest of every
signed object (02 R39, 03 R74), and ML-DSA-65 is built on both. -/

namespace Sys2Proof.Machine

/-! ### The permutation -/

/-- The 25 lanes of a Keccak state: lane (x, y) is number x + 5y. -/
abbrev Lanes := List Word

def Lanes.at (a : Lanes) (x y : Nat) : Word := (a[x % 5 + 5 * (y % 5)]?).getD 0

/-- The state whose lane (x, y) is f x y. -/
def lanesOf (f : Nat → Nat → Word) : Lanes := (List.range 25).map fun k => f (k % 5) (k / 5)

/-- The rotation of each lane, by its number. -/
def rhoOffsets : List Nat :=
  [0, 1, 62, 28, 27, 36, 44, 6, 55, 20, 3, 10, 43, 25, 39, 41, 45, 15, 21, 8, 18, 2, 61, 56, 14]

/-- Step theta: each lane takes the parities of two columns. -/
def keccakTheta (a : Lanes) : Lanes :=
  let parity := (List.range 5).map fun x => (List.range 5).foldl (fun p y => p ^^^ a.at x y) 0
  let col (x : Nat) : Word := (parity[x % 5]?).getD 0
  lanesOf fun x y => a.at x y ^^^ col (x + 4) ^^^ (col (x + 1)).rotateLeft 1

/-- Steps rho and pi: lanes rotate, then change places. -/
def keccakRhoPi (a : Lanes) : Lanes :=
  let turned (x y : Nat) : Word := (a.at x y).rotateLeft ((rhoOffsets[x % 5 + 5 * (y % 5)]?).getD 0)
  lanesOf fun x y => turned (x + 3 * y) x

/-- Step chi: the one step that is not linear. -/
def keccakChi (b : Lanes) : Lanes := lanesOf fun x y => b.at x y ^^^ (~~~(b.at (x + 1) y) &&& b.at (x + 2) y)

/-- One step of the register that gives the round constants: x^8 + x^6 + x^5 + x^4 + 1. -/
def lfsrStep (r : Nat) : Nat := if 128 ≤ r then (2 * r) % 256 ^^^ 0x71 else 2 * r

/-- The register after t steps from 1. -/
def lfsrAt : Nat → Nat
  | 0 => 1
  | t + 1 => lfsrStep (lfsrAt t)

/-- The constant of round i: bit 2^j - 1 is the register's low bit after j + 7i steps. -/
def roundConstant (i : Nat) : Word :=
  BitVec.ofNat 64 (((List.range 7).map fun j => if lfsrAt (j + 7 * i) % 2 = 1 then 2 ^ (2 ^ j - 1) else 0).sum)

/-- Step iota: lane (0, 0) takes the round's constant. -/
def keccakIota (i : Nat) (a : Lanes) : Lanes := lanesOf fun x y => if x = 0 ∧ y = 0 then a.at 0 0 ^^^ roundConstant i else a.at x y

/-- The 24 rounds. -/
def keccakF (a : Lanes) : Lanes :=
  (List.range 24).foldl (fun a i => keccakIota i (keccakChi (keccakRhoPi (keccakTheta a)))) a

/-! ### The sponge -/

/-- Bytes that one block takes in or gives: of SHAKE256, and of SHAKE128. -/
def rate256 : Nat := 136
def rate128 : Nat := 168

/-- The bytes with the suffix of SHAKE and the padding, up to a whole number of blocks. -/
def shakePad (rate : Nat) (b : List Byte) : List Byte :=
  let room := rate - b.length % rate
  if room = 1 then b ++ [0x9F#8] else b ++ [0x1F#8] ++ List.replicate (room - 2) 0#8 ++ [0x80#8]

/-- One block taken into the state. -/
def absorb (a : Lanes) (block : List Byte) : Lanes :=
  keccakF (lanesOf fun x y =>
    a.at x y ^^^ BitVec.ofNat 64 (bytesToNat ((block.drop (8 * (x + 5 * y))).take 8)))

/-- n blocks of the bytes taken in. -/
def absorbBlocks (rate : Nat) : (n : Nat) → Lanes → List Byte → Lanes
  | 0, a, _ => a
  | n + 1, a, b => absorbBlocks rate n (absorb a (b.take rate)) (b.drop rate)

/-- n + 1 blocks given by the state. -/
def squeeze (rate : Nat) : (n : Nat) → Lanes → List Byte
  | 0, a => (a.flatMap fun w => natToBytes w.toNat 8).take rate
  | n + 1, a => (a.flatMap fun w => natToBytes w.toNat 8).take rate ++ squeeze rate n (keccakF a)

/-- n bytes of SHAKE of the bytes, at a rate. -/
def shake (rate : Nat) (b : List Byte) (n : Nat) : List Byte :=
  let p := shakePad rate b
  let a := absorbBlocks rate (p.length / rate) (List.replicate 25 0) p
  (squeeze rate ((n - 1) / rate) a).take n

/-- SHAKE256 with 512 bits of output, byte 0 in the low bits. -/
def shake256 (b : List Byte) : BitVec 512 := BitVec.ofNat 512 (bytesToNat (shake rate256 b 64))

end Sys2Proof.Machine
end

