-- ==== Sys2Proof/Machine/MlDsa.lean ====
section
/-! DEFINITION. ML-DSA-65 as FIPS 204 specifies it, in its pure form with an empty context string: every signature that the
device checks or makes (02 R39). Polynomials are lists of 256 coefficients modulo q. -/

namespace Sys2Proof.Machine

/-! ### Parameters -/

def dsaQ : Nat := 8380417
/-- Rows and columns of the matrix. -/
def dsaK : Nat := 6
def dsaL : Nat := 5
/-- Coefficients of a challenge that are not 0. -/
def dsaTau : Nat := 49
/-- Bound of a masking coefficient, and half the range of low-order rounding. -/
def dsaGamma1 : Nat := 524288
def dsaGamma2 : Nat := 261888
/-- Bound of a secret coefficient, of what a challenge makes of secrets, and of the number of hints. -/
def dsaEta : Nat := 4
def dsaBeta : Nat := 196
def dsaOmega : Nat := 55
/-- Bytes of a challenge's hash, and of a signature. -/
def dsaHash : Nat := 48
def dsaSigBytes : Nat := 3309

abbrev Poly := List Nat

/-! ### Arithmetic modulo q -/

def qAdd (x y : Nat) : Nat := (x + y) % dsaQ
def qSub (x y : Nat) : Nat := (x + dsaQ - y) % dsaQ
def qMul (x y : Nat) : Nat := x * y % dsaQ
/-- An integer as a number modulo q. -/
def qOf (x : Int) : Nat := (x % (dsaQ : Int)).toNat
/-- The representative of smallest absolute value. -/
def qSigned (x : Nat) : Int := if x ≤ dsaQ / 2 then x else (x : Int) - dsaQ

/-- x to the power n modulo q, by squaring; `k` bounds the number of bits of n. -/
def qPow (x : Nat) : (k n : Nat) → Nat
  | 0, _ => 1
  | k + 1, n =>
    let h := qPow (qMul x x) k (n / 2)
    if n % 2 = 1 then qMul x h else h

def polyZip (f : Nat → Nat → Nat) (p r : Poly) : Poly := (p.zip r).map fun c => f c.1 c.2
def polyAdd : Poly → Poly → Poly := polyZip qAdd
def polySub : Poly → Poly → Poly := polyZip qSub
def polyMul : Poly → Poly → Poly := polyZip qMul
def polyZero : Poly := List.replicate 256 0

/-- The eight bits of a number in reverse order. -/
def bitRev8 (x : Nat) : Nat := (List.range 8).foldl (fun r k => 2 * r + x / 2 ^ k % 2) 0

/-- The root of node m of the transform's tree, and its inverse: powers of 1753, a root of unity of order 512. -/
def dsaRoot (m : Nat) : Nat := qPow 1753 9 (bitRev8 m)
def dsaRootInv (m : Nat) : Nat := qPow 1753 9 (512 - bitRev8 m)

/-- The number-theoretic transform below node m, of 2^d coefficients. -/
def nttAt : (d m : Nat) → Poly → Poly
  | 0, _, p => p
  | d + 1, m, p =>
    let lo := p.take (2 ^ d)
    let hi := (p.drop (2 ^ d)).map (qMul (dsaRoot m))
    nttAt d (2 * m) (polyAdd lo hi) ++ nttAt d (2 * m + 1) (polySub lo hi)

/-- Its inverse, but for the factor 2^d. -/
def inttAt : (d m : Nat) → Poly → Poly
  | 0, _, p => p
  | d + 1, m, p =>
    let lo := inttAt d (2 * m) (p.take (2 ^ d))
    let hi := inttAt d (2 * m + 1) (p.drop (2 ^ d))
    polyAdd lo hi ++ (polySub lo hi).map (qMul (dsaRootInv m))

def ntt (p : Poly) : Poly := nttAt 8 1 p
/-- 8347681 is the inverse of 256. -/
def intt (p : Poly) : Poly := (inttAt 8 1 p).map (qMul 8347681)

/-- The sum of products of two lists of transforms. -/
def polyDot (l r : List Poly) : Poly := (l.zip r).foldl (fun a c => polyAdd a (polyMul c.1 c.2)) polyZero

/-- A product of a transformed polynomial with each of a list. -/
def polyTimes (c : Poly) (l : List Poly) : List Poly := l.map fun p => intt (polyMul c p)

/-! ### Packing -/

/-- n numbers of w bits each from bytes. -/
def unpackBits (w n : Nat) (b : List Byte) : List Nat :=
  let x := bytesToNat b
  (List.range n).map fun k => x / 2 ^ (w * k) % 2 ^ w

/-- Numbers of w bits each as bytes. -/
def packBits (w : Nat) (l : List Nat) : List Byte :=
  natToBytes (l.foldr (fun x n => x + 2 ^ w * n) 0) (w * l.length / 8)

/-- n polynomials whose coefficients are top minus a number of w bits. -/
def unpackPolys (w top n : Nat) (b : List Byte) : List Poly :=
  (List.range n).map fun k => (unpackBits w 256 ((b.drop (32 * w * k)).take (32 * w))).map fun v => qSub (top % dsaQ) v

/-- The places of a list of hints; none where the list is not in its one form. -/
def unpackHints (y : List Byte) : Option (List (List Nat)) :=
  let at_ (k : Nat) : Nat := ((y[k]?).map (·.toNat)).getD 0
  let ends := (List.range dsaK).map fun i => at_ (dsaOmega + i)
  let begins := 0 :: ends
  let rising (l : List Nat) : Bool := (l.zip (l.drop 1)).all fun c => decide (c.1 < c.2)
  let places (i : Nat) : List Nat :=
    let lo := (begins[i]?).getD 0
    ((List.range ((ends[i]?).getD 0 - lo)).map fun k => at_ (lo + k))
  let fits := (begins.zip ends).all (fun c => decide (c.1 ≤ c.2)) && ends.all fun x => decide (x ≤ dsaOmega)
  let last := (ends.getLast?).getD 0
  if fits && ((List.range dsaK).all fun i => rising (places i))
      && (List.range (dsaOmega - last)).all fun k => at_ (last + k) == 0 then some ((List.range dsaK).map places)
  else none

/-- Hints as bytes. -/
def packHints (h : List (List Nat)) : List Byte :=
  let all := h.flatten
  let counts := (List.range dsaK).map fun i => ((h.take (i + 1)).map List.length).sum
  (all ++ List.replicate (dsaOmega - all.length) 0 ++ counts).map (BitVec.ofNat 8)

/-! ### Rounding -/

/-- High and low parts of a number modulo q. -/
def dsaParts (r : Nat) : Nat × Int :=
  let r0 := r % (2 * dsaGamma2)
  let low : Int := if r0 ≤ dsaGamma2 then r0 else (r0 : Int) - 2 * dsaGamma2
  if (r : Int) - low = dsaQ - 1 then (0, low - 1) else (((r : Int) - low).toNat / (2 * dsaGamma2), low)

def highPart (r : Nat) : Nat := (dsaParts r).1

/-- The high part that a hint leads to. -/
def hinted (h : Bool) (r : Nat) : Nat :=
  let (r1, r0) := dsaParts r
  if !h then r1 else if 0 < r0 then (r1 + 1) % 16 else (r1 + 15) % 16

/-- Every coefficient lies strictly within a bound of 0. -/
def polysBelow (bound : Nat) (l : List Poly) : Bool := l.all fun p => p.all fun x => decide ((qSigned x).natAbs < bound)

/-! ### Sampling -/

/-- Coefficients below q from three bytes each, 256 of them. -/
def threeByteCoeffs (b : List Byte) : (n : Nat) → List Nat
  | 0 => []
  | n + 1 =>
    let x := bytesToNat (b.take 3) % 2 ^ 23
    if x < dsaQ then x :: threeByteCoeffs (b.drop 3) n else threeByteCoeffs (b.drop 3) n

/-- A transformed polynomial of the matrix. The 298 candidates are as many as FIPS 204 asks for at the least. -/
def matrixPoly (rho : List Byte) (r s : Nat) : Poly :=
  ((threeByteCoeffs (shake rate128 (rho ++ [BitVec.ofNat 8 s, BitVec.ofNat 8 r]) 894) 298) ++ polyZero).take 256

/-- The matrix, by rows. -/
def expandMatrix (rho : List Byte) : List (List Poly) :=
  (List.range dsaK).map fun r => (List.range dsaL).map fun s => matrixPoly rho r s

/-- The matrix times a column of transforms. -/
def matrixTimes (a : List (List Poly)) (v : List Poly) : List Poly := a.map fun row => intt (polyDot row v)

/-- The first byte of at most i, and what follows it. -/
def nextAtMost (i : Nat) : List Byte → Nat × List Byte
  | [] => (0, [])
  | b :: rest => if b.toNat ≤ i then (b.toNat, rest) else nextAtMost i rest

/-- n places of a challenge set from index i on; `signs` are the bits that are left. -/
def ballLoop : (n i signs : Nat) → List Byte → Poly → Poly
  | 0, _, _, _, c => c
  | n + 1, i, signs, b, c =>
    let (j, rest) := nextAtMost i b
    let old := c.getD j 0
    ballLoop n (i + 1) (signs / 2) rest ((c.set i old).set j (if signs % 2 = 1 then dsaQ - 1 else 1))

/-- The challenge of a hash. -/
def sampleInBall (hash : List Byte) : Poly :=
  let b := shake rate256 hash 272
  ballLoop dsaTau (256 - dsaTau) (bytesToNat (b.take 8)) (b.drop 8) polyZero

/-! ### Messages -/

/-- The representative of a message under the hash of a public key: pure form, empty context. -/
def messageRep (tr msg : List Byte) : List Byte := shake rate256 (tr ++ [0#8, 0#8] ++ msg) 64

/-- The hash of a challenge. -/
def challengeHash (mu : List Byte) (w1 : List Poly) : List Byte :=
  shake rate256 (mu ++ w1.flatMap (packBits 4)) dsaHash

/-! ### Verifying -/

/-- Whether a signature of a message verifies under a public key of 1,952 bytes. -/
def mlDsaVerify (pk msg sig : List Byte) : Bool :=
  let t1 := (List.range dsaK).map fun k => unpackBits 10 256 ((pk.drop (32 + 320 * k)).take 320)
  let hash := sig.take dsaHash
  let z := unpackPolys 20 dsaGamma1 dsaL (sig.drop dsaHash)
  match unpackHints (sig.drop (dsaHash + 640 * dsaL)) with
  | none => false
  | some hints =>
    let mu := messageRep (shake rate256 pk 64) msg
    let c := ntt (sampleInBall hash)
    let az := (expandMatrix (pk.take 32)).map fun row => polyDot row (z.map ntt)
    let w := (az.zip t1).map fun x => intt (polySub x.1 (polyMul c (ntt (x.2.map fun v => v * 2 ^ 13 % dsaQ))))
    let w1 := (w.zip hints).map fun x => x.1.zipIdx.map fun y => hinted (x.2.contains y.2) y.1
    pk.length == 1952 && sig.length == dsaSigBytes && polysBelow (dsaGamma1 - dsaBeta) z && challengeHash mu w1 == hash

/-! ### Signing -/

/-- The masking polynomials of an attempt. -/
def expandMask (seed : List Byte) (kappa : Nat) : List Poly :=
  (List.range dsaL).flatMap fun r => unpackPolys 20 dsaGamma1 1 (shake rate256 (seed ++ natToBytes (kappa + r) 2) 640)

/-- A private key of 4,032 bytes, in its parts: the matrix, s1, s2 and t0 transformed. -/
structure SignKey where
  a : List (List Poly)
  key : List Byte
  tr : List Byte
  s1 : List Poly
  s2 : List Poly
  t0 : List Poly

def SignKey.parse (sk : List Byte) : SignKey :=
  { a := expandMatrix (sk.take 32)
    key := (sk.drop 32).take 32
    tr := (sk.drop 64).take 64
    s1 := (unpackPolys 4 dsaEta dsaL (sk.drop 128)).map ntt
    s2 := (unpackPolys 4 dsaEta dsaK (sk.drop (128 + 128 * dsaL))).map ntt
    t0 := (unpackPolys 13 4096 dsaK (sk.drop (128 + 128 * (dsaL + dsaK)))).map ntt }

/-- One attempt of signing; none where it must be made again. -/
def signOnce (k : SignKey) (mu seed : List Byte) (kappa : Nat) : Option (List Byte) :=
  let y := expandMask seed kappa
  let w := matrixTimes k.a (y.map ntt)
  let hash := challengeHash mu (w.map fun p => p.map highPart)
  let c := ntt (sampleInBall hash)
  let z := (y.zip (polyTimes c k.s1)).map fun x => polyAdd x.1 x.2
  let r := (w.zip (polyTimes c k.s2)).map fun x => polySub x.1 x.2
  let ct0 := polyTimes c k.t0
  let hints := (r.zip ct0).map fun x =>
    ((polyAdd x.1 x.2).zip x.1).zipIdx.filterMap fun y => if highPart y.1.1 != highPart y.1.2 then some y.2 else none
  let lows := r.map fun p => p.map fun x => qOf (dsaParts x).2
  if polysBelow (dsaGamma1 - dsaBeta) z && polysBelow (dsaGamma2 - dsaBeta) lows && polysBelow dsaGamma2 ct0
      && (hints.map List.length).sum ≤ dsaOmega then
    some (hash ++ z.flatMap (fun p => packBits 20 (p.map fun x => qSub dsaGamma1 x)) ++ packHints hints)
  else none

/-- Attempts from kappa on, at most n of them. -/
def signLoop (k : SignKey) (mu seed : List Byte) : (n kappa : Nat) → Option (List Byte)
  | 0, _ => none
  | n + 1, kappa =>
    match signOnce k mu seed kappa with
    | some sig => some sig
    | none => signLoop k mu seed n (kappa + dsaL)

/-- The signature of a message under a private key, with 32 random bytes. The attempts are as many as FIPS 204 asks for at
the least. -/
def mlDsaSign (sk msg rnd : List Byte) : Option (List Byte) :=
  let k := SignKey.parse sk
  let mu := messageRep k.tr msg
  signLoop k mu (shake rate256 (k.key ++ rnd ++ mu) 64) 814 0

/-! ### The device's signatures -/

/-- A signature over a digest verifies under one of the keys that bedrock checks (02 R39). -/
def verifiesDigest (key : Config.Key) (digest : BitVec 512) (sig : List Byte) : Bool :=
  mlDsaVerify (Config.publicKey key) (natToBytes digest.toNat 64) sig

/-- The signature that bedrock makes over a digest. -/
def signDigest (digest : BitVec 512) (rnd : List Byte) : Option (List Byte) :=
  mlDsaSign Config.attestationKey (natToBytes digest.toNat 64) rnd

end Sys2Proof.Machine
end

