-- ==== Sys2Proof/Machine/Launch.lean ====
section
/-! DEFINITION. Launch ports: records, their checks, admission, wait conditions and refusals (03 R56 to R75,
02 R39 to R44). -/

namespace Sys2Proof.Machine

/-! ### Ports (R58 to R62) -/

def portOf (s : State) (p : BitVec 8) : Port := s.dev.ports[p.toNat]'p.isLt

def setPort (s : State) (p : BitVec 8) (x : Port) : State :=
  { s with dev := { s.dev with ports := s.dev.ports.set p.toNat x p.isLt } }

/-- The queue of a port: its accepted records that have not passed, in arrival order. -/
def portQueue (s : State) (p : Nat) : List Launch := s.launches.filter fun l => l.port == p && !l.passed

/-- Port status (R62). -/
def portStatus (s : State) (p : BitVec 8) : Word :=
  let x := portOf s p
  BitVec.ofNat 64 (x.acc.toNat * 2 ^ 32 + x.ref.toNat * 2 ^ 16 + x.last.toNat * 2 ^ 8 + (portQueue s p.toNat).length)

/-- The port context as it stands (R59, R60). -/
def portCtx (s : State) (p : BitVec 8) : PortCtx :=
  { w0 := devReg s (0x50000 + 16 * p.toNat), w1 := devReg s (0x50008 + 16 * p.toNat) }

def PortCtx.en (c : PortCtx) : Bool := c.w0.getLsbD 63
def PortCtx.pceil (c : PortCtx) : Nat := bitsOf c.w1.toNat 0 2

/-! ### Records (R63, R64) -/

/-- A record of 64 bytes. -/
def parseRecord (b : List Byte) : Record :=
  let w (k : Nat) : Word := BitVec.ofNat 64 (bytesToNat ((b.drop (8 * k)).take 8))
  { ctrl := w 0, code := w 1, kargs := w 2, save := w 3, waita := w 4, waitv := w 5, donea := w 6, ids := w 7 }

def Record.gangs (r : Record) : Nat := bitsOf r.ctrl.toNat 32 32
def Record.svst (r : Record) : Nat := bitsOf r.ctrl.toNat 16 16
def Record.werr (r : Record) : Bool := r.ctrl.getLsbD 15
def Record.ycls (r : Record) : Nat := bitsOf r.ctrl.toNat 12 3
def Record.pri (r : Record) : Nat := bitsOf r.ctrl.toNat 10 2
def Record.gsz (r : Record) : Nat := bitsOf r.ctrl.toNat 6 4 + 1
def Record.vrl (r : Record) : Nat := bitsOf r.ctrl.toNat 3 3
def Record.ver (r : Record) : Nat := bitsOf r.ctrl.toNat 0 3
def Record.gbase (r : Record) : Nat := bitsOf r.ids.toNat 0 32

/-- The save-area size of a class (07 R164). -/
def saveSize (vrl : Nat) : Nat := 12 * 1024 + 37 * (4096 * 2 ^ vrl) + 4864 * 1024

/-- The FIELD check. -/
def Record.fieldOk (r : Record) (c : PortCtx) : Bool :=
  r.vrl ≤ 4 && 1 ≤ r.gangs && r.gbase + r.gangs ≤ 2 ^ 32 && c.pceil ≤ r.pri
    && r.code.toNat % 65536 == 0 && r.save.toNat % 65536 == 0 && r.waita.toNat % 8 == 0 && r.donea.toNat % 8 == 0
    && (r.save == 0 || saveSize r.vrl ≤ r.svst * 65536)

/-- How a check of a record ends: it holds, it fails, or it waits for a link to a peer (01 R31). -/
inductive Check where
  | holds | fails | stalls
  deriving DecidableEq, Repr

/-- The check that an access comes to its end. -/
def accessCheck {α : Type} (x : M α) (s : State) : Check × State :=
  match tried x s with
  | (.ok _, s) => (.holds, s)
  | (.trap _, s) => (.fails, s)
  | (.wait (.coldText _), s) => (.holds, s)
  | (.wait _, s) => (.stalls, s)

/-- A further check, once one holds. -/
def Check.also (c : Check × State) (f : State → Check × State) : Check × State :=
  match c with
  | (.holds, s) => f s
  | r => r

/-- An instruction fetch at CODE takes no trap; one from a cold page without W takes none (R66, R75). -/
def codeOk (x : Xlat) (code : Nat) (s : State) : Check × State :=
  accessCheck (do readLocs [] (← locate x .fetch code 4).locs code) s

/-- An object, if any, can be loaded: every trap of such a load counts, that of poisoned data too. -/
def loadOk (x : Xlat) (va : Word) (s : State) : Check × State :=
  if va = 0 then (.holds, s) else accessCheck (readCtx x va.toNat 8) s

/-- An object, if any, meets R57. -/
def attrOk (x : Xlat) (va : Word) (s : State) : Check × State :=
  if va = 0 then (.holds, s) else
  accessCheck (do if leafR57 (← pageLeaf x .load false va.toNat va.toNat).pte then pure () else trap cPROT va) s

/-! ### The done object (R66, R68) -/

/-- TAG and OWNER of a record under its port context. -/
def tagOwnerRec (r : Record) (c : PortCtx) : Word := r.ids &&& 0xFFFFFFFF00000000#64 ||| (ctxOwner c).setWidth 64

/-- An addition of the sequencer to a record's done object, when the conditions of R66 hold. An object that cannot be
reached any more receives none, and no notice is sent (log 114). One whose unit is poisoned is left: with a notice at the
end of a gang (R392), while a refusal makes no addition to an object that a load would trap at (R66). -/
def doneAdd (s : State) (port : Nat) (r : Record) (c : PortCtx) (n : Nat) (e : Bool) (refusal : Bool := false) : State :=
  let x := ctxXlat (portDie port) c
  if !c.en || r.donea = 0 || r.donea.toNat % 8 != 0 then s else
  match (if refusal then loadOk x r.donea s else accessCheck (locate x .load r.donea.toNat 8) s) with
  | (.fails, s) => s
  | (_, s) =>
    match attrOk x r.donea s with
    | (.holds, s) => addThrough x .sequencer (tagOwnerRec r c) r.donea n e none s
    | (_, s) => s

/-- The refusal of a record (R66). -/
def refuse (s : State) (p : BitVec 8) (code : Nat) (rec? : Option (Record × PortCtx)) : State :=
  let x := portOf s p
  let s := setPort s p { x with ref := x.ref + 1, last := BitVec.ofNat 4 code }
  match rec? with
  | some (r, c) => if code = 1 || code = 5 then s else doneAdd s p.toNat r c r.gangs true true
  | none => s

/-! ### Code objects (R71 to R74) -/

/-- A section-table entry. -/
structure Section where
  type : Nat
  flags : Nat
  off : Nat
  size : Nat
  load : Nat
  deriving DecidableEq, Repr

def leNat (b : List Byte) (off n : Nat) : Nat := bytesToNat ((b.drop off).take n)

def parseSections (b : List Byte) (n : Nat) : List Section :=
  (List.range n).map fun i =>
    { type := leNat b (32 * i) 4, flags := leNat b (32 * i + 4) 4, off := leNat b (32 * i + 8) 8,
      size := leNat b (32 * i + 16) 8, load := leNat b (32 * i + 24) 8 }

/-- What `.meta` gives, with addresses made absolute. -/
structure MetaInfo where
  vrl : Nat
  maxGang : Nat
  counter : Nat
  version : Nat
  emask : Word
  asVec : Word
  csVec : Word
  asEntry : Word
  csEntry : Word
  imageSize : Nat
  metaOff : Nat
  deriving DecidableEq, Repr

/-- The header conditions of R72; answers the section count, the table's offset and the image size. -/
def headerOk (h : List Byte) : Option (Nat × Nat × Nat) :=
  let n := leNat h 6 2
  let size := leNat h 8 8
  let tab := leNat h 16 8
  if leNat h 0 4 = 0x014F5844 && leNat h 4 2 = 1 && 1 ≤ n && n ≤ 16 && (h.drop 24).all (· == 0#8)
      && tab + 32 * n ≤ size then some (n, tab, size) else none

/-- The conditions of R72 on one entry. -/
def Section.ok (x : Section) (image : Nat) : Bool :=
  1 ≤ x.type && x.type ≤ 10 && x.flags == 0
    && (if x.type = 7 then decide (image ≤ x.load) else x.load == x.off && decide (x.off + x.size ≤ image))
    && (4 < x.type || x.load % 65536 == 0)

def findSection (l : List Section) (t : Nat) : Option Section := l.find? fun x => x.type == t

def distinctTypes : List Section → Bool
  | [] => true
  | x :: rest => !(rest.any fun y => y.type == x.type) && distinctTypes rest

/-- A vector or entry lies in its part, word-aligned (R73). -/
def inPart (v : Nat) (p : Section) : Bool := v % 4 == 0 && v < p.size

/-- `.meta` against R73. -/
def parseMeta (code : Word) (m : List Byte) (image metaOff : Nat) (ha hc : Section) : Option MetaInfo :=
  let asv := leNat m 16 8
  let csv := leNat m 24 8
  let ase := leNat m 32 8
  let cse := leNat m 40 8
  let abs (p : Section) (v : Nat) : Word := code + BitVec.ofNat 64 (p.load + v)
  if leNat m 0 2 = 1 && leNat m 2 1 ≤ 4 && 1 ≤ leNat m 3 1 && leNat m 3 1 ≤ 16 && 8 ≤ leNat m 4 1 && leNat m 4 1 ≤ 31
      && leNat m 5 1 ≤ 63 && leNat m 6 2 = 0 && (m.drop 48).all (· == 0#8)
      && inPart asv ha && inPart ase ha && inPart csv hc && inPart cse hc then
    some
      { vrl := leNat m 2 1, maxGang := leNat m 3 1, counter := leNat m 4 1, version := leNat m 5 1
        emask := BitVec.ofNat 64 (leNat m 8 8), asVec := abs ha asv, csVec := abs hc csv, asEntry := abs ha ase
        csEntry := abs hc cse, imageSize := image, metaOff := metaOff }
  else none

/-- Read and check a code object (R72, R73). -/
def readMeta (x : Xlat) (code : Word) : M (Option MetaInfo) := do
  let h ← readReachable x code.toNat 64
  match headerOk h with
  | none => pure none
  | some (n, tab, image) =>
    let t ← readReachable x (code.toNat + tab) (32 * n)
    let secs := parseSections t n
    if !(secs.all (·.ok image)) || !distinctTypes secs then pure none else
    match findSection secs 1, findSection secs 2, findSection secs 10 with
    | some ha, some hc, some mt =>
      if mt.size < 3437 then pure none else
      let m ← readReachable x (code.toNat + mt.off) 128
      pure (parseMeta code m image mt.off ha hc)
    | _, _, _ => pure none

/-! ### Admission (02 R43, R44, R51) -/

/-- The image with the signature bytes read as zero (R74). -/
def maskedImage (b : List Byte) (metaOff : Nat) : List Byte :=
  b.zipIdx.map fun (x, i) => if metaOff + 128 ≤ i && i < metaOff + 3437 then 0#8 else x

/-- Use an entry of the admission cache: it becomes the most recently used. -/
def cacheUse (c : List AdmitEntry) (e : AdmitEntry) : List AdmitEntry := c.erase e ++ [e]

/-- Insert an entry; the 257th drops the least recently used. -/
def cacheInsert (c : List AdmitEntry) (e : AdmitEntry) : List AdmitEntry :=
  (c ++ [e]).drop (c.length + 1 - 256)

/-- Admission of a digest (R43); without the keys bedrock refuses (R51). -/
def admitDigest (b : Bedrock) (digest : BitVec 512) (counter version : Nat) (sigOk : Bool) : Bool × Bedrock :=
  let fuse (k : Nat) : Nat := (b.fuses[k]?).getD 0
  if !b.keys || version < fuse counter || counter < 8 then (false, b) else
  match b.cache.find? fun e => e.digest == digest with
  | some e =>
    if e.version < fuse e.counter then (false, { b with cache := b.cache.erase e })
    else (true, { b with cache := cacheUse b.cache e })
  | none =>
    if sigOk then
      (true, { b with cache := cacheInsert b.cache { digest := digest, counter := counter, version := version } })
    else (false, b)

/-- A byte of an image that bedrock cannot read: a refusal, with a notice where it is poisoned (R74). -/
def imageUnread (s : State) (t : TrapInfo) (tag : Word) : State :=
  if t.cause = cMCHK then notify s 7 .poison [t.eaddr, 5, tag] else s

/-- How the admission of a code object ends: under a digest, refused, or waiting for a link. -/
inductive Admitted where
  | yes (digest : BitVec 512)
  | no
  | stalls
  deriving DecidableEq, Repr

/-- Admission of a code object: the image is read, its digest formed and checked under the key of its counter (R74, 02 R43,
log 159). Verdicts are kept with an admission: a new one has none (15 R349). -/
def admitCode (x : Xlat) (code : Word) (m : MetaInfo) (tag : Word) (s : State) : Admitted × State :=
  if !s.bed.keys || m.version < (s.bed.fuses[m.counter]?).getD 0 then (.no, s) else
  match tried (readReachable x code.toNat m.imageSize) s with
  | (.ok image, s) =>
    let digest := shake256 (maskedImage image m.metaOff)
    let sig := (image.drop (m.metaOff + 128)).take 3309
    let ok := verifiesDigest (.counter (BitVec.ofNat 5 m.counter)) digest sig
    let known := s.bed.cache.any fun e => e.digest == digest
    match admitDigest s.bed digest m.counter m.version ok with
    | (true, b) =>
      (.yes digest, { s with bed := b, verdicts := if known then s.verdicts else s.verdicts.filter fun v => v.1 != digest })
    | (false, b) => (.no, { s with bed := b })
  | (.trap t, s) => (.no, imageUnread s t tag)
  | (.wait _, s) => (.stalls, s)

/-! ### Passing wait conditions (R67) -/

def findLaunchId (s : State) (id : Nat) : Option Launch := s.launches.find? fun l => l.id == id

def mapLaunch (s : State) (id : Nat) (f : Launch → Launch) : State :=
  { s with launches := s.launches.map fun l => if l.id = id then f l else l }

/-- Refuse an accepted record (R66): it leaves its queue. -/
def refuseAccepted (s : State) (l : Launch) (code : Nat) : State :=
  refuse { s with launches := s.launches.filter fun x => x.id != l.id } (BitVec.ofNat 8 l.port) code
    (some (l.record, l.ctx))

/-- Let records at the head of a port pass, in queue order (R67). -/
def passHeads (p : Nat) : Nat → State → State
  | 0, s => s
  | n + 1, s =>
    match portQueue s p with
    | [] => s
    | l :: _ =>
      match l.seen with
      | none => s
      | some v =>
        if l.record.werr && v.getLsbD 63 then passHeads p n (refuseAccepted s l 9)
        else passHeads p n (mapLaunch s l.id fun l => { l with passed := true, since := s.ntime })

/-! ### Checking a record (R66) -/

/-- The launch an accepted record makes. -/
def newLaunch (s : State) (p : Nat) (r : Record) (c : PortCtx) (m : MetaInfo) (digest : BitVec 512) : Launch :=
  { id := s.nextLaunch, port := p, record := r, ctx := c, asEntry := m.asEntry, csEntry := m.csEntry
    asVec := m.asVec, csVec := m.csVec, emask := m.emask, digest := digest, passed := false
    seen := if r.waita = 0 then some 0 else none, since := 0, placed := 0, ended := 0 }

/-- Accept a record: ACC counts it, and with WAITA = 0 it passes once the records ahead of it have. -/
def acceptRecord (s : State) (p : BitVec 8) (r : Record) (c : PortCtx) (m : MetaInfo) (digest : BitVec 512) : State :=
  let x := portOf s p
  let s := setPort s p { x with acc := x.acc + 1 }
  passHeads p.toNat 16 { s with launches := s.launches ++ [newLaunch s p.toNat r c m digest],
                                nextLaunch := s.nextLaunch + 1 }

/-- How the checks of a record end: a refusal, what `.meta` gave with the digest, or a wait for a link. -/
inductive Checked where
  | refused (code : Nat)
  | admitted (m : MetaInfo) (digest : BitVec 512)
  | stalls
  deriving DecidableEq, Repr

/-- The checks of the code object; one whose header or `.meta` cannot be read is refused with ADMIT (R74, log 36). -/
def codeChecks (x : Xlat) (r : Record) (tag : Word) (s : State) : State × Checked :=
  match tried (readMeta x r.code) s with
  | (.ok (some m), s) =>
    if m.vrl != r.vrl || m.maxGang < r.gsz then (s, .refused 10) else
    match admitCode x r.code m tag s with
    | (.yes digest, s) => (s, .admitted m digest)
    | (.no, s) => (s, .refused 6)
    | (.stalls, s) => (s, .stalls)
  | (.ok none, s) => (s, .refused 10)
  | (.trap t, s) => (imageUnread s t tag, .refused 6)
  | (.wait _, s) => (s, .stalls)

/-- The checks from CODE on. -/
def lateChecks (s : State) (p : BitVec 8) (r : Record) (c : PortCtx) : State × Checked :=
  let x := ctxXlat (portDie p.toNat) c
  match Check.also (Check.also (codeOk x r.code.toNat s) (loadOk x r.waita)) (loadOk x r.donea) with
  | (.fails, s) => (s, .refused 7)
  | (.stalls, s) => (s, .stalls)
  | (.holds, s) =>
    match Check.also (attrOk x r.waita s) (attrOk x r.donea) with
    | (.holds, s) => codeChecks x r (tagOwnerRec r c) s
    | (_, s) => (s, .refused 8)

/-- What becomes of a record written to a port: accepted, refused, or waiting at the port for a link that its checks need
(01 R31). -/
inductive PortEnd where
  | accepted | refused | stalls
  deriving DecidableEq, Repr

/-- A write to a port (R58, R66): `asid` is the issuing hart's for a device-side launch (R69). -/
def portWrite (s : State) (p : BitVec 8) (off : Nat) (data : List Byte) (asid : Option (BitVec 16)) : PortEnd × State :=
  if data.length != 64 || off != 0 then (.refused, refuse s p 1 none) else
  let r := parseRecord data
  let c := portCtx s p
  let no (s : State) (code : Nat) : PortEnd × State := (.refused, refuse s p code (some (r, c)))
  if 16 ≤ (portQueue s p.toNat).length then no s 2
  else if !c.en || (asid.map (· != ctxAsid c)).getD false then no s 5
  else if r.ver != 1 then no s 3
  else if !r.fieldOk c then no s 4
  else
    match lateChecks s p r c with
    | (s, .refused code) => no s code
    | (s, .admitted m digest) => (.accepted, acceptRecord s p r c m digest)
    | (s, .stalls) => (.stalls, s)

/-- A record held for a port (01 R31, 02 R50). -/
def holdsFor (s : State) (p : BitVec 8) : Bool :=
  s.heldReqs.any fun r => match r with | .record q _ _ => q == p | _ => false

/-- A record written from outside: one that its port cannot check yet is held, and those behind it (01 R31), outside the port's
queue, whose DEPTH counts accepted records only (log 165). -/
def recordArrives (s : State) (p : BitVec 8) (off : Nat) (data : List Byte) : State :=
  let hold (s : State) : State := { s with heldReqs := s.heldReqs ++ [.record p off data] }
  if holdsFor s p then hold s else
  match portWrite s p off data none with
  | (.stalls, s) => hold s
  | (_, s) => s

/-- The first launch write or mailbox request ends idle (R48). -/
def wakeIdle (s : State) : State := if s.bed.pwr = 1 then { s with bed := { s.bed with pwr := 0 } } else s

/-- Hold a request. -/
def holdReq (s : State) (r : HeldReq) : State := { s with heldReqs := s.heldReqs ++ [r] }

/-- A write to a launch port, whatever its size: in retain it is held at the port, and it ends idle (02 R48, log 164). -/
def portArrives (port : BitVec 8) (off : Nat) (data : List Byte) (s : State) : State :=
  if s.bed.pwr = 2 then holdReq s (.record port off data) else recordArrives (wakeIdle s) port off data

/-! ### Observing wait objects (R67) -/

/-- Whether a value passes a record's condition. -/
def Record.passes (r : Record) (v : Word) : Bool := r.waitv.toNat ≤ v.toNat % 2 ^ 63

/-- Take an observed value of a record's wait object. -/
def observeValue (s : State) (l : Launch) (v : Word) : State :=
  if l.record.passes v then
    passHeads l.port (portQueue s l.port).length (mapLaunch s l.id fun l => { l with seen := some v })
  else s

/-- Refuse an accepted record whose wait object cannot be observed; the records behind it go on (R66, R67). -/
def refuseWait (s : State) (l : Launch) : State :=
  let s := refuseAccepted s l 7
  passHeads l.port (portQueue s l.port).length s

/-- Whether a wait object is on a peer or host page, where the dependence owner observes it (R67). -/
def waitRemote (x : Xlat) (va : Nat) : M Bool := do
  if !canonical va || inWindowSpan va then return false
  let e ← pageLeaf x .load true va va
  let s ← get
  let dest := leafPa e va / 2 ^ 46
  return pteLOC e.pte = 3 || (pteLOC e.pte = 2 && (dest == s.dev.pkg.toNat || routeOn (routeEntry s dest)))

/-- An observation by the sequencer (R67); `again` also of an object that has been seen to pass (02 R50). -/
def observeWait (s : State) (l : Launch) (again : Bool := false) : State :=
  if l.passed || l.record.waita = 0 || (l.seen.isSome && !again) then s
  else
    let x := ctxXlat (portDie l.port) l.ctx
    let va := l.record.waita.toNat
    let bad (t : TrapInfo) (s : State) : State :=
      refuseWait (if t.cause = cMCHK then notify s 7 .poison [l.record.waita, 0, l.tagOwner] else s) l
    match tried (waitRemote x va) s with
    | (.ok true, s) =>
      let words := [l.tagOwner, BitVec.ofNat 64 l.id, l.record.waita, l.record.waitv]
      if l.seen.isSome || s.notices.contains { duty := 3, kind := .dependence, words := words } then s
      else notify s 3 .dependence words
    | (.ok false, s) =>
      match tried (readCtx x va 8) s with
      | (.ok b, s) => observeValue s l (BitVec.ofNat 64 (bytesToNat b))
      | (.trap t, s) => bad t s
      | (.wait _, s) => s
    | (.trap t, s) => bad t s
    | (.wait _, s) => s

end Sys2Proof.Machine
end

