-- ==== Sys2Proof/Machine/Registers.lean ====
section
/-! DEFINITION. The device register space as agents read and write it, and the registers bedrock publishes
(01 R10, R13, R14, R17 to R19, R22, R29, R34, 02 R45, R54, 03 R59, R60, R62, 07 R147). -/

namespace Sys2Proof.Machine

/-! ### Bedrock's registers (02 R45, R54) -/

/-- DSTATE. -/
def dstate (b : Bedrock) : Word :=
  BitVec.ofNat 64 (b.pwr.toNat * 2 ^ 10 + b.hidbg.toNat * 2 ^ 8 + b.dbg.toNat * 2 ^ 4 + b.sec.toNat)

/-- DUTY. -/
def dutyReg (b : Bedrock) : Word := b.duty.setWidth 64

/-! ### Who writes what (R10) -/

/-- The owner of a duty. -/
def dutyOwner (b : Bedrock) (n : Nat) : RegAgent := if b.duty.getLsbD n then .host else .survey

/-- The owner of the register at an aligned offset outside the ports; none where there is no register. -/
def regOwner (b : Bedrock) (off : Nat) : Option RegAgent :=
  let within (lo n : Nat) : Bool := decide (lo ≤ off) && decide (off < lo + n)
  if within 0x10000 0x400 || within 0x30000 0x1000 || within 0x50000 0x1000 then some .survey
  else if within 0x20000 0x80 then some (dutyOwner b 5)
  else if within 0x40000 0x200 || within 0x70000 0x1000 then some (dutyOwner b 4)
  else if within 0x60000 0x40 then some (dutyOwner b 0)
  else none

/-! ### Reads -/

/-- The register read at an aligned offset: a port's status in each of its lanes (R62); an offset with no register
reads 0. -/
def readReg (s : State) (off : Nat) : Word :=
  if off < 0x4000 then portStatus s (BitVec.ofNat 8 (off / 64))
  else if (regOwner s.bed off).isSome then devReg s off
  else 0

/-- One byte of the register space. -/
def readRegByte (s : State) (off : Nat) : Byte := (readReg s (off / 8 * 8) >>> (off % 8 * 8)).setWidth 8

/-- One byte of the registers bedrock publishes: DSTATE at 0 and DUTY at 8. -/
def readPubByte (s : State) (off : Nat) : Byte :=
  let w := if off < 8 then dstate s.bed else if off < 16 then dutyReg s.bed else 0
  (w >>> (off % 8 * 8)).setWidth 8

/-! ### Writes -/

/-- Whether a descriptor obeys R19. -/
def ilValid (w0 w1 : Word) : Bool :=
  let size := bitsOf w1.toNat 32 25
  match ilMode w0 with
  | 0 => size % 512 == 0 && ilRowb w1 + size / 256 ≤ 65536
  | 1 => ilRowb w1 + 2 * size ≤ 65536
  | 2 => ilRowb w1 + 64 * size ≤ 65536
  | _ => false

/-- The writable fields of the descriptor's words (R17, R18). -/
def ilMask0 : Word := 0x8C0FFFFFFFFF0000
def ilMask1 : Word := 0x01FFFFFFFFFFFF9F

/-- A write to an interleave descriptor (R19). One that sets EN against a condition writes the other fields, and EN stays
0 (log 158). -/
def writeInterleave (s : State) (off : Nat) (v : Word) : State :=
  let base := off / 16 * 16
  let w0 := devReg s base
  let w1 := devReg s (base + 8)
  if off % 16 = 8 then (if ilEn w0 then s else setDevReg s off (v &&& ilMask1)) else
  let v := v &&& ilMask0
  if ilEn v then
    if ilEn w0 then s
    else setDevReg s off (if ilValid v w1 then v else v &&& ~~~(0x8000000000000000#64))
  else setDevReg s off v

/-- Fields of a layer-remap register (R13). -/
def rmState (w : Word) : Nat := bitsOf w.toNat 62 2
def rmLayer (w : Word) : Nat := bitsOf w.toNat 56 4
def rmProg (w : Word) : Nat := bitsOf w.toNat 32 16
def rmDone (w : Word) : Bool := w.getLsbD 1
def rmFault (w : Word) : Bool := w.getLsbD 0

def mkRemap (state layer prog : Nat) (done fault : Bool) : Word :=
  BitVec.ofNat 64 (state * 2 ^ 62 + layer * 2 ^ 56 + prog * 2 ^ 32 + done.toNat * 2 + fault.toNat)

/-- A layer-remap register after a write (R13, R14); answers also whether a switch begins (R16). -/
def remapAfter (w v : Word) : Word × Bool :=
  let fault := rmFault w && !rmFault v
  match rmState w, rmState v with
  | 0, 0 => (mkRemap 0 (rmLayer v) (rmProg w) (rmDone w) fault, false)
  | 0, 1 => (mkRemap 1 (rmLayer v) 0 false fault, false)
  | 1, 0 => (mkRemap 0 (rmLayer w) 0 false fault, false)
  | 1, 1 => (mkRemap 1 (rmLayer w) (rmProg w) (rmDone w) fault, false)
  | 1, 2 => if rmDone w then (mkRemap 2 (rmLayer w) (rmProg w) true fault, true) else (w, false)
  | _, _ => (w, false)

/-- A write to a layer-remap register. As a switch begins, later accesses find the spare layer: those that the controllers
hold until it is done are later ones too (R16, log 157). -/
def writeRemap (s : State) (off : Nat) (v : Word) : State :=
  let (w, switch) := remapAfter (devReg s off) v
  let stack := (off - 0x20000) / 8
  let begins := rmState (devReg s off) = 0 && rmState w = 1
  let ends := rmState (devReg s off) = 1 && rmState w = 0
  let s := setDevReg s off w
  let s := if begins || ends then dropSpare s stack else s
  if switch then
    switchMarks { s with dev := { s.dev with switching := insertRising stack s.dev.switching } } stack (rmLayer w)
  else s

/-- A write to a shootdown register (07 R147): ignored while GO = 1. -/
def shootAfter (w v : Word) : Word :=
  if w.getLsbD 63 then w else
  let fields := v &&& 0x387FFFFFFFFFFFFF#64
  if v.getLsbD 63 then fields ||| 0x8000000000000000#64 else fields ||| (w &&& 0x4000000000000000#64)

/-- A write to a route header (01 R34): END acts at once and is not kept. -/
def writeHeader (s : State) (off : Nat) (v : Word) : State :=
  if off % 16 = 8 then setDevReg s off (v &&& 0x000FFFFFFFFFFFC0#64)
  else
    let s := setDevReg s off (v &&& 0x8000000000000FFF#64)
    if v.getLsbD 62 then endAll s ((off - 0x70000) / 16) else s

/-- A destination that a changed route reaches over a live link is no longer one whose loss has timed out (01 R31). -/
def regainRoutes (s : State) : State :=
  { s with dev := { s.dev with linkLost := s.dev.linkLost.filter (cutOff s) } }

/-- A write of an aligned 8-byte register by its owner. -/
def writeOwned (s : State) (off : Nat) (v : Word) : State :=
  if off < 0x20000 then writeInterleave s off v
  else if off < 0x30000 then writeRemap s off v
  else if off < 0x40000 then setDevReg s off (v &&& 0x103FF#64)
  else if off < 0x50000 then regainRoutes (setDevReg s off (v &&& 0x1FFFF#64))
  else if off < 0x60000 then
    setDevReg s off (v &&& (if off % 16 = 8 then 0x0000FFFF00000003#64 else 0x800FFFFFFFFFFFFF#64))
  else if off < 0x70000 then setDevReg s off (shootAfter (devReg s off) v)
  else writeHeader s off v

/-- A write of 8 bytes to a register by an agent: only the owner of an aligned register writes it (R10). -/
def writeReg (s : State) (off : Nat) (v : Word) (by_ : RegAgent) : State :=
  if off % 8 = 0 && regOwner s.bed off == some by_ then writeOwned s off v
  else s

end Sys2Proof.Machine
end

