-- ==== Sys2Proof/Machine/LoadStore.lean ====
section
/-! DEFINITION. Scalar loads, stores and atomics, and the adjoint instructions: majors 10, 11, 12 and 27 with their
long and compressed forms (14 R302 to R306, 08 R171 to R180, 15 R337 to R339), and a survey core's accesses
(09 R204, log 12). -/

namespace Sys2Proof.Machine

/-! ### Locating a scalar access (14 R303) -/

/-- The alignment check of R303 step 3, made before anything of the access is: `always` for `ld.acq` and `sd.rel`,
else only on a page with DEV. An access that runs past its window is refused there first (step 1). -/
def alignCheck (acc : Acc) (va n : Nat) (always : Bool) : M Unit := do
  let bad {α : Type} : M α := trap cPROT (BitVec.ofNat 64 va) acc.code
  if va % n = 0 || !canonical va || !canonical ((va + n - 1) % 2 ^ 64) then pure ()
  else if inWindowSpan va then (if always && insideWindow va n then bad else pure ())
  else
    let here ← hereM
    let x := hartXlat (← get) here.gang here.hid
    let e ← pageLeaf x acc true va va
    let dev2 ← if va % 65536 + n ≤ 65536 then pure false else do
      let e2 ← pageLeaf x acc true ((va + n - 1) / 65536 * 65536 % 2 ^ 64) va
      pure (pteDEV e2.pte)
    if always || pteDEV e.pte || dev2 then bad else pure ()

/-- Locate a scalar access of the AS under the checks of R303. -/
def scalarLocate (acc : Acc) (va n : Nat) (always : Bool) : M Found := do
  alignCheck acc va n always
  locateHere acc va n

/-- The bytes of a scalar load. Loads and stores to DEV pages keep their program order (R304); an acquire that binds its
value at the home (16 R369) first performs the stores that its bytes would come from. -/
def scalarLoad (va n : Nat) (acq atHome : Bool) : M (List Byte) := do
  let f ← scalarLocate .load va n acq
  if f.dev || (atHome && pendingAt (← hartM).abuf f.locs) then drain .as
  readLocs (← hartM).abuf f.locs va

/-- A scalar store; a release first performs every older store of the AS (R304). -/
def scalarStore (va : Nat) (bytes : List Byte) (rel : Bool) : M Unit := do
  let f ← scalarLocate .store va bytes.length rel
  if rel then drain .as
  issueStore .as f bytes

/-! ### A survey core's accesses (log 12) -/

/-- n bytes that a survey core reads at a physical address: the register space, bedrock's registers, or local HBM. -/
def surveyLoad (va n : Nat) : M (List Byte) := do
  let s ← get
  if Config.regWindow ≤ va && va + n ≤ Config.regWindow + 0x100000 then
    pure ((List.range n).map fun k => readRegByte s (va - Config.regWindow + k))
  else if Config.pubWindow ≤ va && va + n ≤ Config.pubWindow + 16 then
    pure ((List.range n).map fun k => readPubByte s (va - Config.pubWindow + k))
  else
    match physLocs s va n with
    | none => trap cPROT (BitVec.ofNat 64 va)
    | some locs =>
      if locs.any (poisoned s) then trap cMCHK (BitVec.ofNat 64 va) else pure (homeRead s locs)

/-- A survey core's store; in the register space an aligned store of 8 bytes writes a register as the survey firmware,
and in the port range any store is a write of the wrong size (03 R58). A narrower or misaligned store to a register
outside the ports writes nothing (log 142). -/
def surveyStore (va : Nat) (bytes : List Byte) : M Unit := do
  let s ← get
  let n := bytes.length
  if Config.regWindow ≤ va && va + n ≤ Config.regWindow + 0x100000 then
    let off := va - Config.regWindow
    if off < 0x4000 then modify (portArrives (BitVec.ofNat 8 (off / 64)) (off % 64) bytes)
    else if n = 8 && off % 8 = 0 then modify fun s => writeReg s off (BitVec.ofNat 64 (bytesToNat bytes)) .survey
    else pure ()
  else if Config.pubWindow ≤ va && va + n ≤ Config.pubWindow + 16 then pure ()
  else
    match physLocs s va n with
    | none => trap cPROT (BitVec.ofNat 64 va) Acc.store.code
    | some locs => modify fun s => homeWrite s locs bytes

/-! ### Loads -/

/-- The region that a scalar access touches while the mode is not off. -/
def touchesHere (va n : Nat) : M (Option (Nat × Region)) := do pure ((← hartM).touches va n)

/-- A value extended from n bytes. -/
def extendBytes (n : Nat) (signed : Bool) (x : Nat) : Word :=
  if signed then wordOfInt (signExt (8 * n) x) else BitVec.ofNat 64 x

/-- A load that touches a region in reverse mode (08 R178, 21 R389): the page is translated, and the destination's low
32 bits are added to the element's adjoint cell. -/
def adjointLoad (i : Nat) (r : Region) (d : RegField) (va n : Nat) : M Unit := do
  let f ← locateHere .load va n
  regionCheck r .load va n none
  if f.dev && va % n != 0 then trap cPROT (BitVec.ofNat 64 va) else
  let x ← getX d
  accumulate .as i r va (r.index va) 0 (x.toNat % 2 ^ 32)

/-- A load of a hart's AS. -/
def hartLoad (n : Nat) (signed acq atHome : Bool) (d : RegField) (va : Nat) : M Unit := do
  let plain : M Unit := do
    let b ← scalarLoad va n acq atHome
    setX d (extendBytes n signed (bytesToNat b))
  match ← touchesHere va n with
  | none => plain
  | some (i, r) =>
    if (← hartM).adjMode = 2 then adjointLoad i r d va n
    else do
      let _ ← scalarLocate .load va n acq
      regionCheck r .load va n none
      plain

/-- A load of `n` bytes from a + off, in an instruction of `len` bytes (14 R302). -/
def load (n : Nat) (signed acq atHome : Bool) (len : Nat) (d a : RegField) (off : Word) : State → Result :=
  runScalar asSurvey do
    let va := ((← getX a) + off).toNat
    match ← cpuM with
    | .slice _ => hartLoad n signed acq atHome d va
    | .survey _ => do
      if acq && va % n != 0 then trap cPROT (BitVec.ofNat 64 va) else
      let b ← surveyLoad va n
      setX d (extendBytes n signed (bytesToNat b))
    advance len

/-- `lb`. -/
def execLb (d a : RegField) (imm : BitVec 12) : State → Result := load 1 true false false 4 d a (simm imm)
/-- `lh`. -/
def execLh (d a : RegField) (imm : BitVec 12) : State → Result := load 2 true false false 4 d a (simm imm)
/-- `lw`. -/
def execLw (d a : RegField) (imm : BitVec 12) : State → Result := load 4 true false false 4 d a (simm imm)
/-- `ld`. -/
def execLd (d a : RegField) (imm : BitVec 12) : State → Result := load 8 true false false 4 d a (simm imm)
/-- `lbu`. -/
def execLbu (d a : RegField) (imm : BitVec 12) : State → Result := load 1 false false false 4 d a (simm imm)
/-- `lhu`. -/
def execLhu (d a : RegField) (imm : BitVec 12) : State → Result := load 2 false false false 4 d a (simm imm)
/-- `lwu`. -/
def execLwu (d a : RegField) (imm : BitVec 12) : State → Result := load 4 false false false 4 d a (simm imm)
/-- The offset of `ld.acq` and `sd.rel` (09 R188). -/
def off9 (off : BitVec 9) : Word := off.signExtend 64 <<< 3
/-- `ld.acq`: the AS performs its loads in order, and nothing younger before it. At `.dom` and `.sys` it binds its value
at the home (16 R369). -/
def execLdAcq (d a : RegField) (scope : BitVec 3) (off : BitVec 9) : State → Result := fun s =>
  if 6 ≤ scope.toNat then runScalar both (trap cILLEGAL) s else load 8 true true (4 ≤ scope.toNat) 4 d a (off9 off) s
/-- Prefixed `lb` (09 R193). -/
def execLbLong (d a : RegField) (imm : BitVec 37) : State → Result := load 1 true false false 8 d a (simm imm)
/-- Prefixed `lh`. -/
def execLhLong (d a : RegField) (imm : BitVec 37) : State → Result := load 2 true false false 8 d a (simm imm)
/-- Prefixed `lw`. -/
def execLwLong (d a : RegField) (imm : BitVec 37) : State → Result := load 4 true false false 8 d a (simm imm)
/-- Prefixed `ld`. -/
def execLdLong (d a : RegField) (imm : BitVec 37) : State → Result := load 8 true false false 8 d a (simm imm)
/-- Prefixed `lbu`. -/
def execLbuLong (d a : RegField) (imm : BitVec 37) : State → Result := load 1 false false false 8 d a (simm imm)
/-- Prefixed `lhu`. -/
def execLhuLong (d a : RegField) (imm : BitVec 37) : State → Result := load 2 false false false 8 d a (simm imm)
/-- Prefixed `lwu`. -/
def execLwuLong (d a : RegField) (imm : BitVec 37) : State → Result := load 4 false false false 8 d a (simm imm)
/-- The address register of `c.ld` and `c.sd`, and their offset (09 R203). -/
def spReg : RegField := 30#5
def spOff (y : BitVec 5) : Word := y.setWidth 64 <<< 3
/-- `c.ld`. -/
def execCLd (x : RegField) (y : BitVec 5) : State → Result := load 8 true false false 2 x spReg (spOff y)

/-! ### Stores -/

/-- A store that touches a region in reverse mode (08 R179): one run of one element. -/
def adjointStore (r : Region) (b : RegField) (va n : Nat) : M Unit := do
  let _ ← scalarLocate .store va n false
  regionCheck r .store va n none
  match ← tapePop .as false r va n (r.index va) 1 with
  | c :: _ => setX b (BitVec.ofNat 64 c)
  | [] => pure ()

/-- A store of a hart's AS. -/
def hartStore (n : Nat) (rel : Bool) (b : RegField) (va : Nat) : M Unit := do
  let x ← getX b
  let bytes := natToBytes x.toNat n
  match ← touchesHere va n with
  | none => scalarStore va bytes rel
  | some (i, r) =>
    if (← hartM).adjMode = 2 then adjointStore r b va n
    else do
      let _ ← scalarLocate .store va n rel
      regionCheck r .store va n none
      if r.tape then
        let f ← tapePush .as i va n
        issueStore .as f bytes
      else scalarStore va bytes rel

/-- A store of `n` bytes to a + off (14 R302). -/
def store (n : Nat) (rel : Bool) (len : Nat) (a b : RegField) (off : Word) : State → Result :=
  runScalar asSurvey do
    let va := ((← getX a) + off).toNat
    match ← cpuM with
    | .slice _ => hartStore n rel b va
    | .survey _ => do
      if rel && va % n != 0 then trap cPROT (BitVec.ofNat 64 va) Acc.store.code else
      let x ← getX b
      surveyStore va (natToBytes x.toNat n)
    advance len

/-- `sb`. -/
def execSb (a b : RegField) (imm : BitVec 12) : State → Result := store 1 false 4 a b (simm imm)
/-- `sh`. -/
def execSh (a b : RegField) (imm : BitVec 12) : State → Result := store 2 false 4 a b (simm imm)
/-- `sw`. -/
def execSw (a b : RegField) (imm : BitVec 12) : State → Result := store 4 false 4 a b (simm imm)
/-- `sd`. -/
def execSd (a b : RegField) (imm : BitVec 12) : State → Result := store 8 false 4 a b (simm imm)
/-- `sd.rel`. -/
def execSdRel (a b : RegField) (scope : BitVec 3) (off : BitVec 9) : State → Result := fun s =>
  if 6 ≤ scope.toNat then runScalar both (trap cILLEGAL) s else store 8 true 4 a b (off9 off) s
/-- Prefixed `sb` (09 R193). -/
def execSbLong (a b : RegField) (imm : BitVec 37) : State → Result := store 1 false 8 a b (simm imm)
/-- Prefixed `sh`. -/
def execShLong (a b : RegField) (imm : BitVec 37) : State → Result := store 2 false 8 a b (simm imm)
/-- Prefixed `sw`. -/
def execSwLong (a b : RegField) (imm : BitVec 37) : State → Result := store 4 false 8 a b (simm imm)
/-- Prefixed `sd`. -/
def execSdLong (a b : RegField) (imm : BitVec 37) : State → Result := store 8 false 8 a b (simm imm)
/-- `c.sd`. -/
def execCSd (x : RegField) (y : BitVec 5) : State → Result := store 8 false 2 spReg x (spOff y)

/-! ### Atomics (14 R305, R306) -/

/-- A hart's AMO: one indivisible update at the home, of the old number. -/
def hartAmo (n : Nat) (va : Nat) (f : Nat → Nat) : M Nat := do
  let l ← atomicLocate va n
  atomicRegionCheck va n .atomic
  homeUpdate .as l va f

/-- A survey core's AMO (log 12); `writes` says of the old number whether anything is written. -/
def surveyAmo (n : Nat) (va : Nat) (f : Nat → Nat) (writes : Nat → Bool) : M Nat := do
  if va % n != 0 then trap cPROT (BitVec.ofNat 64 va) Acc.atomic.code else
  let old := bytesToNat (← surveyLoad va n)
  if writes old then surveyStore va (natToBytes (f old) n)
  pure old

/-- An AMO of n bytes: `f d b old` is the new value, and a `cas` writes only where `writes d old`. Its order and scope
ask for nothing more, since the AS's older stores are performed first. -/
def amo (n : Nat) (f : Word → Word → Nat → Nat) (d a b : RegField) (scope : BitVec 3)
    (writes : Word → Nat → Bool := fun _ _ => true) : State → Result :=
  runScalar asSurvey do
    if 6 ≤ scope.toNat then trap cILLEGAL else
    let va := (← getX a).toNat
    let y ← getX b
    let x ← getX d
    let old ← match ← cpuM with
      | .slice _ => hartAmo n va (f x y)
      | .survey _ => surveyAmo n va (f x y) (writes x)
    setX d (extendBytes n true old)
    advance 4

/-- The smaller or larger of two 8-byte numbers. -/
def amoPick (f : Word → Word → Word) (b : Word) (old : Nat) : Nat := (f (BitVec.ofNat 64 old) b).toNat

/-- `add.w`. -/
def execAmoAddW (d a b : RegField) (scope : BitVec 3) (_order : BitVec 2) : State → Result :=
  amo 4 (fun _ y old => (old + y.toNat) % 2 ^ 32) d a b scope
/-- `add.d`. -/
def execAmoAddD (d a b : RegField) (scope : BitVec 3) (_order : BitVec 2) : State → Result :=
  amo 8 (fun _ y old => (old + y.toNat) % 2 ^ 64) d a b scope
/-- `swp.w`. -/
def execAmoSwpW (d a b : RegField) (scope : BitVec 3) (_order : BitVec 2) : State → Result :=
  amo 4 (fun _ y _ => y.toNat % 2 ^ 32) d a b scope
/-- `swp.d`. -/
def execAmoSwpD (d a b : RegField) (scope : BitVec 3) (_order : BitVec 2) : State → Result :=
  amo 8 (fun _ y _ => y.toNat) d a b scope
/-- `cas.w`: d supplies the expected value. -/
def execAmoCasW (d a b : RegField) (scope : BitVec 3) (_order : BitVec 2) : State → Result :=
  amo 4 (fun x y old => if old = x.toNat % 2 ^ 32 then y.toNat % 2 ^ 32 else old) d a b scope
    fun x old => old == x.toNat % 2 ^ 32
/-- `cas.d`. -/
def execAmoCasD (d a b : RegField) (scope : BitVec 3) (_order : BitVec 2) : State → Result :=
  amo 8 (fun x y old => if old = x.toNat then y.toNat else old) d a b scope
    fun x old => old == x.toNat
/-- `and`. -/
def execAmoAnd (d a b : RegField) (scope : BitVec 3) (_order : BitVec 2) : State → Result :=
  amo 8 (fun _ y old => old &&& y.toNat) d a b scope
/-- `or`. -/
def execAmoOr (d a b : RegField) (scope : BitVec 3) (_order : BitVec 2) : State → Result :=
  amo 8 (fun _ y old => old ||| y.toNat) d a b scope
/-- `xor`. -/
def execAmoXor (d a b : RegField) (scope : BitVec 3) (_order : BitVec 2) : State → Result :=
  amo 8 (fun _ y old => old ^^^ y.toNat) d a b scope
/-- `min`. -/
def execAmoMin (d a b : RegField) (scope : BitVec 3) (_order : BitVec 2) : State → Result :=
  amo 8 (fun _ y old => amoPick aluMin y old) d a b scope
/-- `max`. -/
def execAmoMax (d a b : RegField) (scope : BitVec 3) (_order : BitVec 2) : State → Result :=
  amo 8 (fun _ y old => amoPick aluMax y old) d a b scope
/-- `minu`. -/
def execAmoMinu (d a b : RegField) (scope : BitVec 3) (_order : BitVec 2) : State → Result :=
  amo 8 (fun _ y old => amoPick aluMinu y old) d a b scope
/-- `maxu`. -/
def execAmoMaxu (d a b : RegField) (scope : BitVec 3) (_order : BitVec 2) : State → Result :=
  amo 8 (fun _ y old => amoPick aluMaxu y old) d a b scope

/-! ### Adjoint instructions (15 R337 to R339) -/

/-- The cell of the primal element that contains a byte, by the table copy of the latest switch. -/
def adjointCell (va : Nat) (acc : Acc) : M Nat := do
  match (← hartM).region va 1 with
  | some (_, r) => pure (r.adjbase.toNat + 4 * r.index va)
  | none => trap cPROT (BitVec.ofNat 64 va) acc.code

/-- `adjld`. -/
def execAdjld (d a : RegField) : State → Result :=
  runScalar asOnly do
    let va := (← getX a).toNat
    let cell ← adjointCell va .load
    let b ← scalarLoad cell 4 false false
    setX d (BitVec.ofNat 64 (bytesToNat b))
    advance 4

/-- `adjst`. -/
def execAdjst (a b : RegField) : State → Result :=
  runScalar asOnly do
    let va := (← getX a).toNat
    let x ← getX b
    let cell ← adjointCell va .store
    scalarStore cell (natToBytes x.toNat 4) false
    advance 4

/-- `tmark` (15 R338). -/
def execTmark (a : RegField) : State → Result :=
  runScalar asOnly do
    let x ← getX a
    let h ← hartM
    let top := h.tp.tapeh.toNat
    match h.adjMode with
    | 1 =>
      if h.tp.tapel.toNat < top + 16 then trap cTAPEFULL x else
      storeBytes .as top (natToBytes x.toNat 8 ++ List.replicate 8 0)
      setTapeh (top + 16)
    | 2 =>
      if top < h.tp.tapeb.toNat + 16 then trap cTAPEMIS x else
      let b ← loadBytes .as (top - 16) 16
      if bytesToNat (b.take 8) != x.toNat || bytesToNat (b.drop 8) != 0 then trap cTAPEMIS x else
      setTapeh (top - 16)
    | _ => pure ()
    advance 4

/-- `trew` (15 R339). -/
def execTrew (a : RegField) : State → Result :=
  runScalar asOnly do
    let x ← getX a
    let t := (← hartM).tp
    if x.toNat % 8 != 0 || x.toNat < t.tapeb.toNat || t.tapeh.toNat < x.toNat then trap cTAPEMIS x else
    drain .as
    setTapeh x.toNat
    advance 4

end Sys2Proof.Machine
end

