-- ==== Sys2Proof/Machine/Engine.lean ====
section
/-! DEFINITION. Engine commands (major 28), copies and collectives (15 R340 to R348, 01 R32 to R34, 20 R386, R387). -/

namespace Sys2Proof.Machine

/-! ### Issue of a command (R341) -/

/-- A number in a descriptor or block. -/
def leWord (b : List Byte) (off : Nat) : Word := BitVec.ofNat 64 (leNat b off 8)

/-- Step 1: the alignment of a. -/
def commandAlign (va : Word) (n : Nat) : M Unit := if va.toNat % n != 0 then trap cPROT va else pure ()

/-- Step 2: the object, unless it names none. Only a copy's may lie in a window (05 R117, R393). -/
def commandObject (obj : Word) (windows : Bool) : M Unit := do
  if obj = 0 then pure () else
  if !windows && inWindowSpan obj.toNat then trap cPROT obj else
  let here ← hereM
  objectCheck (hartXlat (← get) here.gang here.hid) obj

/-- Operations in the queue a copy or collective would enter. -/
def copiesAt (s : State) (gallery : Nat) : Nat :=
  (s.ops.filter fun o =>
    match o.body with
    | .copy _ => (findGang s o.gang).any fun g => g.die * 32 + g.gallery == gallery
    | _ => false).length

def collsAt (s : State) (die : Nat) : Nat :=
  (s.ops.filter fun o =>
    match o.body with
    | .coll _ _ _ => (findGang s o.gang).any fun g => g.die == die
    | _ => false).length

/-- Step 4 and 5: wait for room, then fork: every older access of the AS is visible first. -/
def forkOp (full : Bool) (obj : Word) (body : OpBody) : M Op := do
  if full then waitAt .engine else
  drain .as
  let here ← hereM
  let s ← get
  let op : Op :=
    { id := s.nextOp, gang := here.gang, hid := here.hid, gallery := (hartXlat s here.gang here.hid).gallery, body := body
      obj := obj, done := 0, sent := 0, tfault := none }
  set { s with ops := s.ops ++ [op], nextOp := s.nextOp + 1 }
  pure op

/-! ### Copies (R343, R344) -/

/-- A copy descriptor. -/
def parseCopy (b : List Byte) (n : Nat) : CopyDesc :=
  { from_ := leWord b 0, to_ := leWord b 8, ctl := leWord b 16, arr := leWord b 24
    dims := (List.range n).map fun j => (leWord b (32 + 24 * j), leWord b (40 + 24 * j), leWord b (48 + 24 * j)) }

def CopyDesc.fmtF (d : CopyDesc) : Fmt := bitsOf d.ctl.toNat 0 5
def CopyDesc.fmtT (d : CopyDesc) : Fmt := bitsOf d.ctl.toNat 5 5
def ndimOf (ctl : Word) : Nat := bitsOf ctl.toNat 10 4 + 1

/-- Elements of a copy. -/
def CopyDesc.total (d : CopyDesc) : Nat := d.dims.foldl (fun n x => n * x.1.toNat) 1

/-- The conditions under which a copy ends in error without accessing memory (R343). -/
def CopyDesc.bad (d : CopyDesc) : Bool :=
  let fixed (f : Fmt) : Bool := fmtInteger f || fmtFloat f
  let stride0 (f : (Word × Word × Word) → Word) : Word := (d.dims.head?.map f).getD 0
  !fixed d.fmtF || !fixed d.fmtT || bitsOf d.ctl.toNat 14 50 != 0
    || (fmtWidth d.fmtF < 8 && stride0 (·.2.1) != 0) || (fmtWidth d.fmtT < 8 && stride0 (·.2.2) != 0)
    || d.dims.any fun x => x.1 == 0 || 2 ^ 32 ≤ x.1.toNat

/-- The index along each dimension of an element in linear order. -/
def indices : List Nat → Nat → List Nat
  | [], _ => []
  | n :: rest, k => (k % n) :: indices rest (k / n)

/-- The bit address of an element of width w. -/
def elemBit (base : Word) (w : Nat) (strides idx : List Nat) : Nat :=
  let far := ((strides.zip idx).drop 1).foldl (fun a x => a + x.1 * x.2) base.toNat
  let i0 := idx.headD 0
  if w < 8 then (far % 2 ^ 64) * 8 + i0 * w else (far + strides.headD 0 * i0) % 2 ^ 64 * 8

/-- Move element k of a copy. -/
def copyElem (x : Xlat) (d : CopyDesc) (k : Nat) : M Unit := do
  let idx := indices (d.dims.map fun x => x.1.toNat) k
  let wf := fmtWidth d.fmtF
  let wt := fmtWidth d.fmtT
  let src := elemBit d.from_ wf (d.dims.map fun x => x.2.1.toNat) idx
  let dst := elemBit d.to_ wt (d.dims.map fun x => x.2.2.toNat) idx
  let b ← readCtx x (src / 8) ((wf + 7) / 8)
  let bits := bitsOf (bytesToNat b) (src % 8) wf
  let out := if d.fmtF = d.fmtT then bits else convert (decodeFixed d.fmtF bits) d.fmtT 0 true
  let n := (wt + 7) / 8
  let f ← locateCtx x .store (dst / 8) n
  if wt < 8 then
    let old ← readLocs [] f.locs (dst / 8)
    writeFound f (natToBytes (putBits (bytesToNat old) (dst % 8) wt out) n)
  else writeFound f (natToBytes out n)

/-- How a part of an operation ended. -/
inductive OpEnd where
  | ok
  | faults (t : TrapInfo)   -- waits for its owner's answer
  | error
  | stall                   -- no live link to its destination yet (01 R31)
  deriving DecidableEq, Repr

/-- The end of a tried part. -/
def opEndOf {α : Type} : Tried α → OpEnd
  | .ok _ => .ok
  | .trap t => if opWaits t then .faults t else .error
  | .wait _ => .stall

/-- Move n elements from k on; answers how many were moved. -/
def copyRun (x : Xlat) (d : CopyDesc) : (n k : Nat) → State → Nat × OpEnd × State
  | 0, k, s => (k, .ok, s)
  | n + 1, k, s =>
    match tried (copyElem x d k) s with
    | (.ok _, s) => copyRun x d n (k + 1) s
    | (r, s) => (k, opEndOf r, s)

/-- Add to the arrival counter the destination bytes completed since the last addition. -/
def addArrival (x : Xlat) (d : CopyDesc) (bytes sent : Nat) (s : State) : OpEnd × State :=
  if d.arr = 0 then (.ok, s)
  else if d.arr.toNat % 8 != 0 then (.error, s)
  else
    let r := tried (do
      let l ← locate x .atomic d.arr.toNat 8
      let old ← readLocs [] l.locs d.arr.toNat
      writeFound l (natToBytes (bytesToNat old + (bytes - sent)) 8)) s
    (opEndOf r.1, r.2)

/-- What becomes of an operation at the end of a part. -/
def afterPart (s : State) (op : Op) (kind : Word) (r : OpEnd) : State :=
  match r with
  | .ok => s
  | .faults t => postOpFault s op kind t
  | .error => endOp s op true
  | .stall => s

/-- Destination bytes completed after k elements. -/
def CopyDesc.bytesDone (d : CopyDesc) (k : Nat) : Nat :=
  if k = d.total then (k * fmtWidth d.fmtT + 7) / 8 else k * fmtWidth d.fmtT / 8

/-- Run at most n further elements of a copy and add to its arrival counter; at the last element it ends. -/
def runCopy (s : State) (op : Op) (d : CopyDesc) (n : Nat) (finish : Bool) : State :=
  if d.bad then endOp s op true else
  let x := opXlat s op
  let (k, r, s) := copyRun x d (min n (d.total - op.done)) op.done s
  let s := mapOp s op.id fun o => { o with done := k }
  if r != .ok then afterPart s op 0 r else
  let (r, s) := addArrival x d (d.bytesDone k) op.sent s
  if r != .ok then afterPart s op 0 r else
  let s := mapOp s op.id fun o => { o with sent := d.bytesDone k }
  if finish && k = d.total then endOp s op false else s

/-! ### Collectives (R345, 01 R34) -/

def CollDesc.memb (d : CollDesc) : Nat := bitsOf d.ctl.toNat 52 12
def CollDesc.root (d : CollDesc) : Nat := bitsOf d.ctl.toNat 40 12
def CollDesc.count (d : CollDesc) : Nat := bitsOf d.ctl.toNat 8 32
def CollDesc.fmt (d : CollDesc) : Fmt := bitsOf d.ctl.toNat 3 5
def CollDesc.op (d : CollDesc) : Nat := bitsOf d.ctl.toNat 0 3

/-- Whether a listed package is a member of the domain, or this package. -/
def routeMember (s : State) (p : BitVec 8) : Bool :=
  p.toNat < 64 && (p.toNat == s.dev.pkg.toNat ||
    routeOn (routeEntry s p.toNat))

/-- The route of an id as the collective engine captures it; none where it is invalid. -/
def readRoute (s : State) (id : Nat) : Option (List (BitVec 8)) × State :=
  let w0 := devReg s (0x70000 + 16 * id)
  let w1 := devReg s (0x70008 + 16 * id)
  let mm1 := bitsOf w0.toNat 0 12
  let pa := bitsOf w1.toNat 6 46 * 64
  if !w0.getLsbD 63 || mm1 = 0 then (none, s) else
  match physLocs s pa (mm1 + 1) with
  | none => (none, s)
  | some locs =>
    if locs.any (poisoned s) then (none, notify s 7 .poison [BitVec.ofNat 64 pa, 6, 0])
    else
      let l := homeRead s locs
      (if l.all (routeMember s) then some l else none, s)

/-- Whether an operation has received a `coll` with MEMB = j. One that is complete has received those of every member,
in whatever package it issued. -/
def CollOp.received (c : CollOp) (j : Nat) : Bool :=
  c.members.any (fun m => m.1 == j) || (c.complete && (c.route.map fun r => decide (j < r.length)).getD false)

/-- The lowest-numbered operation of an id that has not received a `coll` with MEMB = j yet. -/
def collNumber (s : State) (id j : Nat) : Nat → Nat → Nat
  | 0, k => k
  | n + 1, k =>
    if s.colls.any fun c => c.id == id && c.num == k && c.received j then collNumber s id j n (k + 1)
    else k

def findColl (s : State) (id num : Nat) : Option CollOp := s.colls.find? fun c => c.id == id && c.num == num

def setColl (s : State) (c : CollOp) : State :=
  if (findColl s c.id c.num).isSome then
    { s with colls := s.colls.map fun x => if x.id = c.id && x.num = c.num then c else x }
  else { s with colls := s.colls ++ [c] }

/-- A forked `coll` joins the operation its MEMB gives it (R345, 01 R34). -/
def joinColl (s : State) (op : Op) (id : Nat) (d : CollDesc) : State :=
  let j := d.memb
  let num := collNumber s id j s.colls.length 0
  let (c, s) : CollOp × State := match findColl s id num with
    | some c => (c, s)
    | none =>
      let (route, s) := readRoute s id
      ({ id := id, num := num, route := route, members := [], ended := false, complete := false }, s)
  let tooHigh := (c.route.map fun r => decide (r.length ≤ j)).getD false
  if tooHigh then endOp s op true else
  let s := { s with ops := s.ops.map fun o => if o.id = op.id then { o with body := .coll id num d } else o }
  let c := { c with members := c.members ++ [(j, op.id)] }
  let s := setColl s c
  match c.route with
  | none => endColl s c true
  | some r =>
    if c.ended || (r[j]?.map (·.toNat)).getD 64 != s.dev.pkg.toNat then endColl s c true else s

/-- A member's descriptor. -/
def CollOp.desc (c : CollOp) (s : State) (j : Nat) : Option CollDesc :=
  ((c.members.find? fun m => m.1 == j).bind fun m => findOp s m.2).bind fun o =>
    match o.body with
    | .coll _ _ d => some d
    | _ => none

/-- The operation of member j. -/
def CollOp.op (c : CollOp) (s : State) (j : Nat) : Option Op :=
  (c.members.find? fun m => m.1 == j).bind fun m => findOp s m.2

/-- The five element formats. -/
def collFmt (f : Fmt) : Bool := f == 0x0D || f == 0x0C || f == 0x0B || f == 0x04 || f == 0x05

/-- The errors that a member's descriptor shows against the first's (R345). -/
def collAgree (m : Nat) (d0 d : CollDesc) : Bool :=
  d.op ≤ 4 && collFmt d.fmt && d.resv == 0 && d.op == d0.op && d.fmt == d0.fmt && d.count == d0.count
    && (d.op != 2 || (d.root == d0.root && d.root < m)) && (d.op != 4 || d.count % m == 0)

/-- Elements as patterns. -/
def parseElems (w : Nat) (n : Nat) (b : List Byte) : List Nat :=
  (List.range n).map fun k => bytesToNat ((b.drop (w / 8 * k)).take (w / 8))

/-- Add or compare element by element. -/
def zipFold {α : Type} (f : α → α → α) : List (List α) → List α
  | [] => []
  | l :: rest => rest.foldl (fun acc x => (acc.zip x).map fun p => f p.1 p.2) l

/-- An f32 partial as it crosses a gateway and is decoded there (01 R32, R33): `jxr.b` with q, scale 0. -/
def crossGateway (q : Nat) (v : FVal) : FVal :=
  rounded f32Fmt 0 (decodeCode 0x13 0 (encodeReal 0x13 0 q 0 v).1).toF

/-- The packages of a route in ascending id. -/
def routePackages (r : List (BitVec 8)) : List Nat := (List.range 64).filter fun p => r.any fun b => b.toNat == p

/-- Combine per package in ascending MEMB, then over packages in ascending id; `cross` is what a partial becomes on
its way when the operation spans packages. -/
def combine {α : Type} (r : List (BitVec 8)) (elems : Nat → List α) (f : α → α → α) (cross : α → α) : List α :=
  let pkgs := routePackages r
  let partials := pkgs.map fun p =>
    zipFold f (((List.range r.length).filter fun j => (r[j]?.map (·.toNat)).getD 64 == p).map elems)
  let sent := if pkgs.length ≤ 1 then partials else partials.map fun l => l.map cross
  zipFold f sent

/-- The reduction of every member's elements, as patterns of the format (R345, 01 R33). -/
def reduceAll (r : List (BitVec 8)) (fmt : Fmt) (isMax : Bool) (elems : Nat → List Nat) : List Nat :=
  let w := fmtWidth fmt
  if fmtFloat fmt then
    let vals (j : Nat) : List FVal := (elems j).map fun x => rounded f32Fmt 0 (decodeF (floatFmt fmt) x)
    let out := if isMax then combine r vals fMax (crossGateway 0) else combine r vals (addIn f32Fmt) (crossGateway 8)
    out.map (roundF (floatFmt fmt) 0)
  else if isMax then
    (combine r (fun j => (elems j).map (signExt w)) (fun x y => max x y) id).map (wrapNat w)
  else combine r elems (fun x y => (x + y) % 2 ^ w) id

/-- What TO of member j receives. -/
def collResult (r : List (BitVec 8)) (d : CollDesc) (elems : Nat → List Nat) (j : Nat) : List Nat :=
  let m := r.length
  match d.op with
  | 0 => reduceAll r d.fmt false elems
  | 1 => reduceAll r d.fmt true elems
  | 2 => elems d.root
  | 3 => (List.range m).flatMap elems
  | _ => let n := d.count / m; ((reduceAll r d.fmt false elems).drop (j * n)).take n

/-- Elements written to TO. -/
def collOut (m : Nat) (d : CollDesc) : Nat :=
  match d.op with
  | 3 => m * d.count
  | 4 => d.count / m
  | _ => d.count

/-- Every member's part of an access, in ascending MEMB: the first that does not succeed, or what each gave. -/
def forMembers {α : Type} (f : Op → CollDesc → M α) : List (Nat × Op × CollDesc) → State →
    (Op × OpEnd ⊕ List (Nat × α)) × State
  | [], s => (.inr [], s)
  | (j, o, d) :: rest, s =>
    match tried (f o d) s with
    | (.ok a, s) =>
      match forMembers f rest s with
      | (.inr l, s) => (.inr ((j, a) :: l), s)
      | r => r
    | (r, s) => (.inl (o, opEndOf r), s)

/-- What becomes of a collective when a member's part did not succeed. -/
def collStopped (s : State) (c : CollOp) (o : Op) (r : OpEnd) : State :=
  match r with
  | .faults t => postOpFault s o 1 t
  | .error => endColl s c true true
  | _ => s

/-- The members here, in ascending MEMB. -/
def localMembers (s : State) (c : CollOp) (r : List (BitVec 8)) : List (Nat × Op × CollDesc) :=
  (List.range r.length).filterMap fun j =>
    match c.op s j, c.desc s j with
    | some o, some d => some (j, o, d)
    | _, _ => none

/-- Members of other packages that the outside has supplied. -/
def remoteElems (remote : List RemoteMember) (j : Nat) : List Nat :=
  ((remote.find? fun x => x.memb == j).map (·.elems)).getD []

/-- Bytes of a TCM or chamber window among n bytes at va, or the window va lies in. -/
def meetsWindow (va n : Nat) : Bool :=
  let meets (base : Nat) : Bool := decide (base < va + max 1 n) && decide (va < base + Config.spanBytes)
  meets Config.tcmBase || meets Config.chamberBase

/-- A member's FROM or TO in a window is an error, whether the operation reads or writes there or not (R345). -/
def CollDesc.inWindow (d : CollDesc) (m : Nat) : Bool :=
  let w := fmtWidth d.fmt / 8
  meetsWindow d.from_.toNat (d.count * w) || meetsWindow d.to_.toNat (collOut m d * w)

/-- Complete a collective whose members have all issued: every FROM is read before any TO is written (R386). -/
def runColl (s : State) (c : CollOp) (r : List (BitVec 8)) (d : CollDesc) (remote : List RemoteMember) : State :=
  let mine := localMembers s c r
  let w := fmtWidth d.fmt
  let reads (o : Op) (x : CollDesc) : M (List Nat) := do
    if x.op = 2 && x.memb != x.root then pure [] else
    pure (parseElems w x.count (← readCtx (opXlat (← get) o) x.from_.toNat (x.count * (w / 8))))
  let writes (o : Op) (x : CollDesc) : M Found := do
    locateCtx (opXlat (← get) o) .store x.to_.toNat (collOut r.length x * (w / 8))
  if mine.any fun x => x.2.2.inWindow r.length then endColl s c true true else
  match forMembers reads mine s with
  | (.inl (o, e), s) => collStopped s c o e
  | (.inr froms, s) =>
    match forMembers writes mine s with
    | (.inl (o, e), s) => collStopped s c o e
    | (.inr places, s) =>
      let elems (j : Nat) : List Nat := ((froms.find? fun x => x.1 == j).map (·.2)).getD (remoteElems remote j)
      let s := places.foldl (fun s (j, f) =>
        homeWrite (f.leaves.foldl setDirty s) f.locs ((collResult r d elems j).flatMap fun x => natToBytes x (w / 8))) s
      endColl s c false true

/-! ### Instructions -/

/-- `cpy` (R343). -/
def execCpy (a e : RegField) : State → Result :=
  runScalar asOnly do
    let va ← getX a
    let obj ← getX e
    commandAlign va 32
    commandObject obj true
    let head ← wideLoad va.toNat 32
    let n := ndimOf (leWord head 16)
    let b ← wideLoad va.toNat (32 + 24 * n)
    let g ← gangM
    let full := decide (64 ≤ copiesAt (← get) (g.die * 32 + g.gallery))
    let _ ← forkOp full obj (.copy (parseCopy b n))
    advance 8

/-- `coll` (R345). -/
def execColl (id : BitVec 8) (a e : RegField) : State → Result :=
  runScalar asOnly do
    let va ← getX a
    let obj ← getX e
    commandAlign va 32
    commandObject obj false
    let b ← wideLoad va.toNat 32
    let d : CollDesc := { from_ := leWord b 0, to_ := leWord b 8, ctl := leWord b 16, resv := leWord b 24 }
    let g ← gangM
    let op ← forkOp (decide (256 ≤ collsAt (← get) g.die)) obj (.coll id.toNat 0 d)
    modify fun s => joinColl s op id.toNat d
    advance 8

/-- One window of a near-bank command (R346): the checks, the translation it keeps, and the leaf in which a window for
writing sets D. -/
def nbeWindow (x : Xlat) (chan : Nat) (va w1 : Word) : M (NbeWindow × Option TlbEntry) := do
  let len := bitsOf w1.toNat 0 48
  let rd := w1.getLsbD 62
  let wr := w1.getLsbD 63
  let prot {α : Type} : M α := trap cPROT va (if rd || !wr then 0 else 1)
  if len = 0 then pure ({ va := va, len := w1, pa := 0, d0 := 0, d1 := 0, dev := false }, none) else
  if !canonical va.toNat then prot else
  let e ← pageLeaf x (if rd || !wr then .load else .store) (rd || wr) va.toNat va.toNat
  if rd && wr && !pteW e.pte then trap cPROT va 1 else
  if 2 ^ pageBits e.level < va.toNat % 2 ^ pageBits e.level + len || pteLOC e.pte != 0 then prot else
  let pa := leafPa e va.toNat
  let (d0, d1) := descWords (← get) (pteIR e.pte)
  let o := pa - ilBase d0
  let inside := ilEn d0 && decide (ilBase d0 ≤ pa) && decide (pa + len ≤ ilBase d0 + ilSize d1)
  let reach := if ilMode d0 = 0 then o / 256 == (o + len - 1) / 256 && o / 256 % 512 == chan else ilChan d1 == chan
  if !inside || !reach then prot else
  pure ({ va := va, len := w1, pa := pa, d0 := d0, d1 := d1, dev := pteDEV e.pte }, if wr then some e else none)

/-- The engine of a channel. -/
def findNbe (s : State) (chan : Nat) : NbeEng :=
  (s.nbes.find? fun x => x.chan == chan).getD { chan := chan, run := none, queue := [] }

/-- An engine replaced; an idle engine is none. -/
def setNbe (s : State) (x : NbeEng) : State :=
  let rest := s.nbes.filter fun y => y.chan != x.chan
  { s with nbes := if x.run.isNone && x.queue.isEmpty then rest else rest ++ [x] }

/-- `nbe` (R346). -/
def execNbe (prog : BitVec 8) (a b e : RegField) : State → Result :=
  runScalar asOnly do
    let va ← getX a
    let chan ← getX b
    let obj ← getX e
    commandAlign va 64
    if 511 < chan.toNat then trap cPROT else
    commandObject obj false
    let blk ← wideLoad va.toNat 192
    let here ← hereM
    let x := { hartXlat (← get) here.gang here.hid with hart := none, gang := none }
    let wins ← (List.range 8).mapM fun k => nbeWindow x chan.toNat (leWord blk (16 * k)) (leWord blk (16 * k + 8))
    let ks := (List.range 8).map fun k => BitVec.ofNat 32 (leNat blk (128 + 4 * k) 4)
    let eng := findNbe (← get) chan.toNat
    let waiting := eng.queue.length - (if eng.run.isNone then 1 else 0)
    let op ← forkOp (decide (32 ≤ waiting)) obj (.nbe chan.toNat prog.toNat (wins.map (·.1)) ks ((blk.drop 160).all (· == 0#8)))
    modify fun s =>
      let s := (wins.filterMap (·.2)).foldl setDirty s
      let n := findNbe s chan.toNat
      setNbe s { n with queue := n.queue ++ [op.id] }
    advance 8

/-- The completion addition of a `launch` (R347). -/
def launchAdd (obj : Word) (e : Bool) : M Unit := do
  let here ← hereM
  modify fun s =>
    if obj = 0 then s else
    addThrough { hartXlat s here.gang here.hid with hart := none, gang := none } .operation (tagOwnerOf s here.gang) obj 1 e
      (some here.gang) s

/-- `launch` (R347): the record arrives at its port at once, unless the port waits for a link (01 R31). -/
def execLaunch (port : BitVec 8) (a e : RegField) : State → Result :=
  runScalar asOnly do
    let va ← getX a
    let obj ← getX e
    commandAlign va 64
    commandObject obj false
    let rec_ ← wideLoad va.toNat 64
    let here ← hereM
    let asid := (hartXlat (← get) here.gang here.hid).asid
    drain .as
    if holdsFor (← get) port then waitAt .link else
    let (r, s) := portWrite (← get) port 0 rec_ (some asid)
    set s
    if r = .stalls then waitAt .link else
    launchAdd obj (r != .accepted)
    advance 8

/-- `cwait` (R348). -/
def execCwait (d a b : RegField) : State → Result :=
  runScalar asOnly do
    let va ← getX a
    let y ← getX b
    let x ← observeWord va
    if y.toNat ≤ x.toNat % 2 ^ 63 then
      setX d x
      advance 4
    else waitAt .cwait

/-- `csig` (R348). -/
def execCsig (a b : RegField) : State → Result :=
  runScalar asOnly do
    let va ← getX a
    let y ← getX b
    let here ← hereM
    let x := hartXlat (← get) here.gang here.hid
    objectCheck x va
    drain .as
    let p ← objectPlace x va
    modify fun s => addAt p .csig (tagOwnerOf s here.gang) (y.toNat % 2 ^ 63) (y.getLsbD 63) none s
    advance 4

end Sys2Proof.Machine
end

