-- ==== Sys2Proof/Machine/Nbe.lean ====
section
/-! DEFINITION. Near-bank engines (15 R346 to R354, 01 R26, 17 to 20 R384, R385) and the activate hints of a channel
(01 R25). -/

namespace Sys2Proof.Machine

/-! ### Strip-ahead hints (01 R22, R25) -/

/-- The controller of a channel. -/
def findChan (s : State) (chan : Nat) : Chan :=
  (s.dev.chans.find? fun x => x.chan == chan).getD { chan := chan, reqs := [], hints := [], opened := [] }

/-- A controller replaced; one with nothing in it is none. -/
def setChan (s : State) (x : Chan) : State :=
  let rest := s.dev.chans.filter fun y => y.chan != x.chan
  let idle := x.reqs.isEmpty && x.hints.isEmpty && x.opened.isEmpty
  { s with dev := { s.dev with chans := if idle then rest else rest ++ [x] } }

/-- HINTEN of a channel. -/
def hintEn (s : State) (chan : Nat) : Bool := (devReg s (0x30000 + 8 * chan)).getLsbD 16

/-- The bank of a hint is precharged and no request for it is queued. -/
def Chan.acts (c : Chan) (bank : Nat) : Bool := !c.reqs.any (fun r => r.bank == bank) && !c.opened.any fun o => o.1 == bank

/-- A hint arrives (R25): it is dropped when hints are not accepted, a request for its bank is queued or the bank is open;
else the controller has it until it acts on it (log 108). -/
def hintArrives (s : State) (chan bank row : Nat) : State :=
  let c := findChan s chan
  if !hintEn s chan || !c.acts bank then s else setChan s { c with hints := c.hints ++ [(bank, row, 0)] }

/-! ### Executing an instruction -/

/-- How an instruction of an engine's program ends. -/
inductive NbeEnd where
  | next (r : NbeRun) (s : State)
  | wait
  | error (s : State)
  | done (s : State)

/-- The engine that moves. -/
def engineHere (s : State) : Option NbeEng :=
  match s.cur with
  | .engine chan => s.nbes.find? fun x => x.chan == chan
  | _ => none

/-- End the operation an engine runs, and free the engine (R354). -/
def nbeFinish (s : State) (e : NbeEng) (op : Nat) (err : Bool) : State :=
  let s := match findOp s op with
    | some o => endOp s o err
    | none => s
  setNbe s { e with run := none }

/-- Run one instruction of the program of the engine that moves: it counts the instruction and goes on to the next
word unless `body` says otherwise. -/
def runNbe (body : NbeEng → NbeRun → State → NbeEnd) (s : State) : Result :=
  match engineHere s with
  | none => .fault .noAgent
  | some e =>
    match e.run with
    | none => .fault .noAgent
    | some r =>
      if 2 ^ 32 ≤ r.count then .next (nbeFinish s e r.op true) else
      match body e { r with count := r.count + 1, pc := r.pc + 1 } s with
      | .next r s => .next (setNbe s { e with run := some r })
      | .wait => .next s
      | .error s => .next (nbeFinish s e r.op true)
      | .done s => .next (nbeFinish s e r.op false)

/-! ### Windows (R353) -/

/-- The windows of an operation. -/
def nbeWins (s : State) (op : Nat) : List NbeWindow :=
  match findOp s op with
  | some o =>
    match o.body with
    | .nbe _ _ wins _ _ => wins
    | _ => []
  | none => []

def NbeWindow.size (w : NbeWindow) : Nat := bitsOf w.len.toNat 0 48
def NbeWindow.rd (w : NbeWindow) : Bool := w.len.getLsbD 62
def NbeWindow.wr (w : NbeWindow) : Bool := w.len.getLsbD 63

/-- Which permission an access needs. -/
inductive Need where
  | none | read | write
  deriving DecidableEq, Repr

def NbeWindow.grants (w : NbeWindow) : Need → Bool
  | .none => true
  | .read => w.rd
  | .write => w.wr

/-- The locations of n bytes at an offset of a window, when the window admits them. -/
def NbeWindow.span (w : NbeWindow) (off n : Nat) (need : Need) : Option (List Nat) :=
  if w.size < off + n || !w.grants need then none
  else (List.range n).mapM fun k => hbmMap w.d0 w.d1 (w.pa + off + k)

def NbeRun.getB (r : NbeRun) (x : BitVec 3) : BitVec 48 := r.b[x.toNat]'x.isLt
def NbeRun.getK (r : NbeRun) (x : BitVec 3) : BitVec 32 := r.k[x.toNat]'x.isLt
def NbeRun.setB (r : NbeRun) (x : BitVec 3) (v : BitVec 48) : NbeRun := { r with b := r.b.set x.toNat v x.isLt }
def NbeRun.setK (r : NbeRun) (x : BitVec 3) (v : BitVec 32) : NbeRun := { r with k := r.k.set x.toNat v x.isLt }

/-- Window x and its place at offset bx. -/
def winSpan (s : State) (r : NbeRun) (x : BitVec 3) (n : Nat) (need : Need) : Option (NbeWindow × List Nat) :=
  match (nbeWins s r.op)[x.toNat]? with
  | none => none
  | some w => (w.span (r.getB x).toNat n need).map fun l => (w, l)

/-- Read n bytes at window x, offset bx; none is an error of the operation. -/
def winRead (s : State) (r : NbeRun) (x : BitVec 3) (n : Nat) : Option (List Byte) :=
  match winSpan s r x n .read with
  | none => none
  | some (_, l) => if l.any (poisoned s) then none else some (homeRead s l)

/-- The offset register moved on by n bytes, wrapping at its width. -/
def NbeRun.moveB (r : NbeRun) (x : BitVec 3) (n : Nat) : NbeRun := r.setB x (r.getB x + BitVec.ofNat 48 n)

/-! ### Buffers -/

/-- Result cell i. -/
def NbeRun.cell (r : NbeRun) (i : Nat) : BitVec 32 := ((r.rbuf.find? fun c => c.1 == i).map (·.2)).getD 0
/-- A result cell written; a cell of 0 is not listed. -/
def NbeRun.setCell (r : NbeRun) (i : Nat) (v : BitVec 32) : NbeRun :=
  let rest := r.rbuf.filter fun c => c.1 != i
  { r with rbuf := if v = 0 then rest else insertKey i v rest }

/-- Cells of the result buffer and bytes of the vector buffer (R350). -/
def nbeCells : Nat := 4096
def nbeVbytes : Nat := 65536
/-- The decode buffer in bits. -/
def nbeDecBits : Nat := 32768

/-! ### Control and registers (R351) -/

/-- `nset`. -/
def execNset (k : Bool) (x : BitVec 3) (imm : BitVec 24) : State → Result :=
  runNbe fun _ r s => .next (if k then r.setK x (imm.setWidth 32) else r.setB x (imm.signExtend 48)) s

/-- `nadd` with an immediate. -/
def execNaddImm (k : Bool) (x y : BitVec 3) (imm : BitVec 13) : State → Result :=
  runNbe fun _ r s =>
    .next (if k then r.setK x (r.getK y + imm.signExtend 32) else r.setB x (r.getB y + imm.signExtend 48)) s

/-- `nadd` of two registers. -/
def execNaddReg (k : Bool) (x y : BitVec 3) : State → Result :=
  runNbe fun _ r s => .next (if k then r.setK x (r.getK x + r.getK y) else r.setB x (r.getB x + r.getB y)) s

/-- `nloop`: a target before word 0 is an error (a checked program has none). -/
def execNloop (x : BitVec 3) (imm : BitVec 13) : State → Result :=
  runNbe fun _ r s =>
    let v := r.getK x - 1
    let r := r.setK x v
    if v = 0 then .next r s
    else if r.pc < imm.toNat + 1 then .error s
    else .next { r with pc := r.pc - 1 - imm.toNat } s

/-- `nwait`: every older access has been performed. -/
def execNwait : State → Result := runNbe fun _ r s => .next r s
/-- `nnop`. -/
def execNnop : State → Result := runNbe fun _ r s => .next r s
/-- `nend` (R354). -/
def execNend : State → Result := runNbe fun _ _ s => .done s

/-! ### Memory (R353, R384) -/

/-- `nact`: an activate hint for the row of the place; none is sent for a page marked DEV (01 R25). -/
def execNact (x : BitVec 3) : State → Result :=
  runNbe fun _ r s =>
    match winSpan s r x 1 .none with
    | some (w, l :: _) => .next r (if w.dev then s else hintArrives s (hbmChan l) (hbmBank l) (hbmRow l))
    | _ => .error s

/-- `nrd`. -/
def execNrd (x : BitVec 3) (imm : BitVec 13) : State → Result :=
  runNbe fun _ r s =>
    let n := 64 * (imm.toNat + 1)
    if nbeDecBits < r.decLen + 8 * n then .error s else
    match winRead s r x n with
    | none => .error s
    | some b => .next ({ r with dec := r.dec + bytesToNat b * 2 ^ r.decLen, decLen := r.decLen + 8 * n }.moveB x n) s

/-- `nldx`. -/
def execNldx (x y : BitVec 3) (imm : BitVec 13) : State → Result :=
  runNbe fun _ r s =>
    let n := 64 * (imm.toNat + 1)
    let at_ := (r.getK y).toNat
    if at_ % 64 != 0 || nbeVbytes < at_ + n then .error s else
    match winRead s r x n with
    | none => .error s
    | some b => .next ({ r with vbuf := memWriteAll r.vbuf ((locRange at_ n).zip b) }.moveB x n) s

/-- The formats of `nst` and `ncvt`. -/
def cellFmt (f : Nat) : Bool :=
  f == 0x02 || f == 0x06 || f == 0x03 || f == 0x07 || f == 0x04 || f == 0x08 || f == 0x0A || f == 0x0B || f == 0x0C
    || f == 0x0D

/-- A unit that the write covers only in part carries a poison mark (R384). -/
def partlyPoisoned (s : State) (locs : List Nat) : Bool :=
  let whole := coveredUnits locs
  locs.any fun l => poisoned s l && !whole.contains (l / 32)

/-- `nst`. -/
def execNst (x y : BitVec 3) (fmt : BitVec 5) (imm : BitVec 13) : State → Result :=
  runNbe fun _ r s =>
    let w := fmtWidth fmt.toNat
    let n := imm.toNat
    let c0 := (r.getK y).toNat
    if !cellFmt fmt.toNat || n = 0 || nbeCells < c0 + n then .error s else
    match winSpan s r x (n * (w / 8)) .write with
    | none => .error s
    | some (_, l) =>
      if partlyPoisoned s l then .error s else
      let bytes := (List.range n).flatMap fun j => natToBytes (r.cell (c0 + j)).toNat (w / 8)
      .next (r.moveB x (n * (w / 8))) (homeWrite s l bytes)

/-- The place of an 8-byte word that must be aligned. -/
def winWord (s : State) (r : NbeRun) (x : BitVec 3) (need : Need) : Option (NbeWindow × List Nat) :=
  match winSpan s r x 8 need with
  | some (w, l) => if (w.va.toNat + (r.getB x).toNat) % 8 = 0 then some (w, l) else none
  | none => none

/-- `nsig`. -/
def execNsig (x : BitVec 3) (imm : BitVec 13) : State → Result :=
  runNbe fun _ r s =>
    match winWord s r x .write with
    | none => .error s
    | some (w, l) =>
      let tag := ((findOp s r.op).map fun o => tagOwnerOf s o.gang).getD 0
      .next r (completionAdd .nsig (w.pa + (r.getB x).toNat) tag l imm.toNat false s)

/-- `nbar`: bit 63 of the word is an error; else it waits for the count. -/
def execNbar (x y : BitVec 3) : State → Result :=
  runNbe fun _ r s =>
    match winWord s r x .read with
    | none => .error s
    | some (_, l) =>
      if l.any (poisoned s) then .error s else
      let v := bytesToNat (homeRead s l)
      if v.testBit 63 then .error s
      else if (r.getK y).toNat ≤ v then .next r s
      else .wait

/-! ### Arithmetic (R352) -/

/-- The formats of `ndec`. -/
def weightFmt (f : Nat) : Bool :=
  f == 0x00 || f == 0x01 || f == 0x02 || f == 0x03 || f == 0x06 || f == 0x07 || f == 0x0A || f == 0x0B || f == 0x0C
    || fmtCode f

/-- A floating value as an f32 pattern. -/
def toF32 (v : FVal) : Nat := roundF f32Fmt 0 v

/-- A weight as the latch holds it: an exact integer, or the pattern of the f32 it rounds to. -/
def weightOf (v : Val) : Int :=
  match v with
  | .int x => x
  | .real f => (toF32 f : Int)

/-- Take n elements from the head of the decode buffer: the weights, and the bits taken. -/
def takeWeights (f : Fmt) (scale : Int) : (n : Nat) → (dec len : Nat) → (out : List Int) → Option (List Int × Nat × Nat)
  | 0, dec, len, out => some (out.reverse, dec, len)
  | n + 1, dec, len, out =>
    let w := if fmtCode f then codeLen f (dec % 4) else fmtWidth f
    if len < w || (fmtCode f && len < 2) then none else
    let bits := dec % 2 ^ w
    if patReserved f bits w then none
    else takeWeights f scale n (dec / 2 ^ w) (len - w) (weightOf (patValue f scale bits) :: out)

/-- `ndec`. -/
def execNdec (fmt : BitVec 5) (imm : BitVec 13) : State → Result :=
  runNbe fun _ r s =>
    let f := fmt.toNat
    let n := bitsOf imm.toNat 0 9 + 1
    let sc := signExt 4 (bitsOf imm.toNat 9 4)
    if !weightFmt f then .error s else
    match takeWeights f sc n r.dec r.decLen [] with
    | none => .error s
    | some (l, dec, len) => .next { r with latch := l, latchInt := fmtInteger f || fmtJxi f, dec := dec, decLen := len } s

/-- The formats of `nmac`. -/
def vecFmt (f : Nat) : Bool :=
  f == 0x02 || f == 0x06 || f == 0x03 || f == 0x0A || f == 0x0B || f == 0x0C || f == 0x0D

/-- The pattern of vector element i. -/
def NbeRun.vecElem (r : NbeRun) (w i : Nat) : Nat :=
  bytesToNat ((locRange (i * (w / 8)) (w / 8)).map (memRead r.vbuf))

/-- The sum of products with both sides integer. -/
def intDot (r : NbeRun) (f : Fmt) (k : Nat) : Int :=
  r.latch.zipIdx.foldl (fun acc (x, j) =>
    match decodeFixed f (r.vecElem (fmtWidth f) (k + j)) with
    | .int y => acc + x * y
    | .real _ => acc) 0

/-- A weight as a floating value. -/
def latchF (r : NbeRun) (x : Int) : FVal := if r.latchInt then fOfInt x else decodeF f32Fmt x.toNat

/-- GroupSum of group g over the values at hand, and the groups in ascending order (06 R140). -/
def foldGroups (add : FVal → FVal → FVal) (vals : List (Nat × FVal)) : Nat → Nat → Option FVal → Option FVal
  | 0, _, acc => acc
  | n + 1, g, acc =>
    let node (j : Nat) : Option FVal := (vals.find? fun x => x.1 == 64 * g + j).map (·.2)
    foldGroups add vals n (g + 1) (addOpt add acc (groupSum add ((List.range 64).map node)))

/-- The sum of products, each rounded to f32, by the tree of 06 R140. -/
def floatDot (r : NbeRun) (f : Fmt) (k : Nat) : Option FVal :=
  let prods := r.latch.zipIdx.map fun (x, j) =>
    (j, rounded f32Fmt 0 (fMul (latchF r x) (decodeFixed f (r.vecElem (fmtWidth f) (k + j))).toF))
  foldGroups (addIn f32Fmt) prods (ceilDiv r.latch.length 64) 0 none

/-- `nmac`. -/
def execNmac (x y : BitVec 3) (fmt : BitVec 5) : State → Result :=
  runNbe fun _ r s =>
    let f := fmt.toNat
    let c := (r.getK x).toNat
    let k := (r.getK y).toNat
    if !vecFmt f || nbeCells ≤ c || nbeVbytes < (k + r.latch.length) * (fmtWidth f / 8) then .error s
    else if r.latchInt && fmtInteger f then
      .next (r.setCell c (BitVec.ofInt 32 ((r.cell c).toNat + intDot r f k))) s
    else
      match floatDot r f k with
      | none => .next r s
      | some v => .next (r.setCell c (BitVec.ofNat 32 (toF32 (fAdd 0 (decodeF f32Fmt (r.cell c).toNat) v)))) s

/-- The sum of n cells from c on, in ascending order. -/
def cellSum (r : NbeRun) (float : Bool) (c n : Nat) : BitVec 32 :=
  let cells := (List.range n).map fun j => r.cell (c + j)
  if float then
    match cells with
    | [] => 0
    | v :: rest => BitVec.ofNat 32 (rest.foldl (fun acc x => addF32 acc x.toNat) v.toNat)
  else cells.foldl (· + ·) 0

/-- `nred`. -/
def execNred (k : Bool) (x y : BitVec 3) (imm : BitVec 13) : State → Result :=
  runNbe fun _ r s =>
    let n := imm.toNat
    let c := (r.getK x).toNat
    let c0 := (r.getK y).toNat
    if n = 0 || nbeCells ≤ c || nbeCells < c0 + n then .error s
    else .next (r.setCell c (cellSum r k c0 n)) s

/-- A cell converted (06 R130, with RNE and SAT). -/
def cellConvert (float : Bool) (f : Fmt) (v : BitVec 32) : BitVec 32 :=
  BitVec.ofNat 32 (convert (if float then .real (decodeF f32Fmt v.toNat) else .int v.toInt) f 0 true)

/-- `ncvt`. -/
def execNcvt (k : Bool) (y : BitVec 3) (fmt : BitVec 5) (imm : BitVec 13) : State → Result :=
  runNbe fun _ r s =>
    let n := imm.toNat
    let c0 := (r.getK y).toNat
    if !cellFmt fmt.toNat || n = 0 || nbeCells < c0 + n then .error s
    else
      .next ((List.range n).foldl (fun r j => r.setCell (c0 + j) (cellConvert k fmt.toNat (r.cell (c0 + j)))) r) s

/-! ### Starting a command (R346, R349, R350) -/

/-- The words of program i of a code object's `.nbe` section; none where the section has no such program. -/
def readProgram (x : Xlat) (code : Word) (i : Nat) : M (Option (List TextWord)) := do
  let h ← readReachable x code.toNat 64
  match headerOk h with
  | none => pure none
  | some (n, tab, _) =>
    let t ← readReachable x (code.toNat + tab) (32 * n)
    match findSection (parseSections t n) 9 with
    | none => pure none
    | some sec =>
      let base := code.toNat + sec.load
      let c ← readReachable x base 4
      if bytesToNat c ≤ i || sec.size < 16 + 8 * i then pure none else
      let e ← readReachable x (base + 8 + 8 * i) 8
      let at_ := 4 * leNat e 0 4
      let len := leNat e 4 2
      if len = 0 || 1024 < len || sec.size < at_ + 4 * len then pure none else
      let b ← readReachable x (base + at_) (4 * len)
      pure (some ((List.range len).map fun k => BitVec.ofNat 32 (leNat b (4 * k) 4)))

/-- The verdict on a program of an admitted code object (R349). -/
def verdictOf (s : State) (digest : BitVec 512) (i : Nat) : Option Verdict :=
  (s.verdicts.find? fun v => v.1 == digest && v.2.1 == i).map (·.2.2)

/-- The verdict kept. -/
def setVerdict (s : State) (digest : BitVec 512) (i : Nat) (v : Verdict) : State :=
  { s with verdicts := (s.verdicts.filter fun x => !(x.1 == digest && x.2.1 == i)) ++ [(digest, i, v)] }

/-- The state of an engine at the start of an operation (R350). -/
def NbeRun.start (op : Nat) (prog : List TextWord) (ks : List (BitVec 32)) : NbeRun :=
  { op := op, prog := prog, pc := 0, b := Vector.replicate 8 0, k := Vector.ofFn fun i => (ks[i.val]?).getD 0
    dec := 0, decLen := 0, latch := [], latchInt := true, vbuf := [], rbuf := [], count := 0 }

/-- Start the command at the head of an engine's queue: refused in error, held for a verdict or a link, or run. `check` is
the test of the program's words (R349), made before its first run. -/
def nbeStart (check : List TextWord → Bool) (s : State) (e : NbeEng) (op : Op) (prog : Nat) (ks : List (BitVec 32))
    (resvOk : Bool) : State :=
  let rest := { e with queue := e.queue.drop 1 }
  let fail (s : State) : State := setNbe (endOp s op true) rest
  if !resvOk then fail s else
  match findLaunch s op.gang with
  | none => fail s
  | some l =>
    match tried (readProgram (opXlat s op) l.record.code prog) s with
    | (.ok (some words), s) =>
      let run (s : State) : State := setNbe s { rest with run := some (NbeRun.start op.id words ks) }
      match verdictOf s l.digest prog with
      | some .passed => run s
      | some .refused => fail s
      | some .answered =>
        if check words then run (setVerdict s l.digest prog .passed) else fail (setVerdict s l.digest prog .refused)
      | none =>
        let words := [l.tagOwner, l.record.code, (ctxAsid l.ctx).setWidth 64, BitVec.ofNat 64 prog, BitVec.ofNat 64 l.id]
        if s.notices.contains { duty := 6, kind := .nbeVerdict, words := words } then s
        else notify s 6 .nbeVerdict words
    | (.ok none, s) => fail s
    | (.trap t, s) => fail (if t.cause = cMCHK then notify s 7 .poison [t.eaddr, 1, l.tagOwner] else s)
    | (.wait _, s) => s

/-- The engine that moves takes its next command, when it runs none. -/
def nbeNext (check : List TextWord → Bool) (s : State) (e : NbeEng) : State :=
  match e.queue with
  | [] => s
  | id :: _ =>
    match findOp s id with
    | none => setNbe s { e with queue := e.queue.drop 1 }
    | some op =>
      match op.body with
      | .nbe _ prog _ ks resvOk => nbeStart check s e op prog ks resvOk
      | _ => setNbe s { e with queue := e.queue.drop 1 }

/-- A word that is no near-bank instruction, or a program that ran past its last word, ends the operation in error. -/
def nbeBadWord (s : State) : State :=
  match engineHere s with
  | some e =>
    match e.run with
    | some r => nbeFinish s e r.op true
    | none => s
  | none => s

end Sys2Proof.Machine
end

