-- ==== Sys2Proof/Machine/Sched.lean ====
section
/-! DEFINITION. The launch sequencer's placement, yield requests, kills and ends of gangs, and the answers to system
traps (04 R76 to R93, 03 R65, R68, 07 R154). -/

namespace Sys2Proof.Machine

/-! ### Device events -/

/-- The clocks of cores, galleries and engines run (02 R48). -/
def clocked (s : State) : Bool := s.bed.pwr == 0 && !s.bed.off

/-- They run, and no entry to retain is under way. -/
def awake (s : State) : Bool := clocked s && !s.bed.retainPending

/-- The device has power. -/
def powered (s : State) : Bool := !s.bed.off

/-- A device event: where it cannot happen it changes nothing (log 13). -/
def event (ok : State → Bool) (f : State → State) (s : State) : Result := .next (if ok s then f s else s)

/-! ### Reservations (R78, R80, 05 R118, R120) -/

/-- What is reserved in a core: contexts, VRF and mask bytes, TCM blocks. -/
structure CoreUse where
  ctxs : List Nat
  vrf : Nat
  masks : Nat
  tcm : Nat
  deriving DecidableEq, Repr

/-- What is reserved in a gallery: its cores in order, and chamber blocks. -/
structure GalleryUse where
  cores : List CoreUse
  chamber : Nat
  deriving DecidableEq, Repr

/-- What a hart needs; none for a hart that has exited. -/
structure HartNeed where
  vrlen : Nat
  tcm : Nat
  deriving DecidableEq, Repr

def coreVrf : Nat := 2097152
def coreMasks : Nat := 327680

/-- VRLEN of a launch. -/
def Launch.vrlen (l : Launch) : Nat := vrlenOf l.record.ctrl

/-- A core with one more hart. -/
def CoreUse.add (c : CoreUse) (ctx : Nat) (n : HartNeed) : CoreUse :=
  { ctxs := ctx :: c.ctxs, vrf := c.vrf + 32 * n.vrlen, masks := c.masks + 5 * n.vrlen, tcm := c.tcm + n.tcm }

/-- The lowest free context of a core, when the hart fits in it. -/
def CoreUse.fits (c : CoreUse) (n : HartNeed) : Option Nat :=
  if c.vrf + 32 * n.vrlen ≤ coreVrf && c.masks + 5 * n.vrlen ≤ coreMasks && c.tcm + n.tcm ≤ 8 then
    (List.range 4).find? fun x => !c.ctxs.contains x
  else none

/-- What the gangs of a gallery hold, those of `skip` apart. -/
def galleryUse (s : State) (die gallery : Nat) (skip : List Nat) : GalleryUse :=
  let mine := s.gangs.filter fun g => g.holds && g.die == die && g.gallery == gallery && !skip.contains g.id
  let core (k : Nat) : CoreUse :=
    mine.foldl (fun c g =>
      let vrlen := ((findLaunch s g.id).map (·.vrlen)).getD 0
      g.harts.foldl (fun c h =>
        if h.mode != .exited && h.core == k then c.add h.ctx { vrlen := vrlen, tcm := h.tcm.length } else c) c)
      { ctxs := [], vrf := 0, masks := 0, tcm := 0 }
  { cores := (List.range 16).map core, chamber := (mine.map (·.chamber.length)).sum }

/-- The core for a hart: of those that can take it the one with the most free VRF, the lowest numbered among equals;
with the context it takes there. -/
def chooseCore (u : GalleryUse) (n : HartNeed) : Option (Nat × Nat) :=
  u.cores.zipIdx.foldl (fun best (c, k) =>
    match c.fits n with
    | none => best
    | some x =>
      match best with
      | none => some (k, x)
      | some (j, y) =>
        if c.vrf < ((u.cores[j]?).map (·.vrf)).getD 0 then some (k, x) else some (j, y)) none

/-- Cores and contexts for the harts of a gang, in `hid` order. -/
def assignHarts (u : GalleryUse) : List (Option HartNeed) → Option (List (Nat × Nat))
  | [] => some []
  | none :: rest => (assignHarts u rest).map ((0, 0) :: ·)
  | some n :: rest =>
    match chooseCore u n with
    | none => none
    | some (k, x) =>
      let u := { u with cores := u.cores.modify k fun c => c.add x n }
      (assignHarts u rest).map ((k, x) :: ·)

/-- The same, when the gallery has the chamber blocks too. -/
def assignGang (u : GalleryUse) (needs : List (Option HartNeed)) (chamber : Nat) : Option (List (Nat × Nat)) :=
  if u.chamber + chamber ≤ 64 then assignHarts u needs else none

/-! ### The placement queue (R82) -/

/-- A gang in the placement queue of a die. -/
structure Waiting where
  id : Nat
  cls : Nat
  since : Nat
  needs : List (Option HartNeed)
  chamber : Nat
  deriving DecidableEq, Repr

/-- The effective class of a gang in the queue. -/
def effClass (s : State) (l : Launch) (id : Nat) : Nat := l.record.pri - (assoc id s.aged).getD 0

/-- The next gang of a launch that has not been placed. -/
def Launch.nextGang (l : Launch) : Nat := l.id * 2 ^ 32 + l.placed

/-- The gangs of a die's queue that may be placed: of each record the lowest-numbered gang that has not been placed
once, and the saved gangs. -/
def placeable (s : State) (die : Nat) : List Waiting :=
  let fresh := (s.launches.filter fun l => portDie l.port == die && l.passed && l.placed < l.record.gangs).map fun l =>
    { id := l.nextGang, cls := effClass s l l.nextGang, since := l.since,
      needs := List.replicate l.record.gsz (some { vrlen := l.vrlen, tcm := 0 }), chamber := 0 : Waiting }
  let saved := s.gangs.filterMap fun g =>
    match findLaunch s g.id with
    | some l =>
      if g.st = .saved && portDie l.port = die then
        some { id := g.id, cls := effClass s l g.id, since := g.qsince,
               needs := g.harts.map fun h =>
                 if h.mode = .exited then none else some { vrlen := l.vrlen, tcm := h.tcm.length },
               chamber := g.chamber.length : Waiting }
      else none
    | none => none
  fresh ++ saved

/-- The order of the queue: class, then time, then number. -/
def Waiting.before (x y : Waiting) : Bool :=
  x.cls < y.cls || (x.cls = y.cls && (x.since < y.since || (x.since = y.since && x.id < y.id)))

def insertWaiting (x : Waiting) : List Waiting → List Waiting
  | [] => [x]
  | y :: rest => if x.before y then x :: y :: rest else y :: insertWaiting x rest

/-- The queue of a die in order. -/
def placeQueue (s : State) (die : Nat) : List Waiting := (placeable s die).foldr insertWaiting []

/-- The galleries of a die in the order of R80. -/
def galleryOrder (s : State) (die : BitVec 3) : List Nat :=
  let last := s.lastGallery[die.toNat]'die.isLt
  (List.range 32).map fun k => (last + 1 + k) % 32

/-- Where a gang of the queue fits. -/
def fitGang (s : State) (die : BitVec 3) (w : Waiting) : Option (Nat × List (Nat × Nat)) :=
  (galleryOrder s die).findSome? fun k =>
    (assignGang (galleryUse s die.toNat k []) w.needs w.chamber).map fun a => (k, a)

/-! ### First residency (03 R65, 05 R98) -/

def Slice.start (pc : Word) : Slice := { pc := pc, fbuf := [], cond := .running }

def Stream.empty : Stream :=
  { adopted := none, pos := 0, ahead := 0, walk := [], dfault := none, cover := none, queue := [] }

/-- A hart as it first becomes resident. -/
def Hart.fresh (l : Launch) (num hid core ctx : Nat) : Hart where
  core := core
  ctx := ctx
  mode := .active
  sysTrap := false
  coop := false
  as_ := Slice.start l.asEntry
  cs := Slice.start l.csEntry
  a := Vector.replicate 32 0
  c := Vector.replicate 32 0
  v := Vector.replicate 32 { bits := 0, fill := 0 }
  m := Vector.replicate 8 0
  mdone := 0
  mfault := 0
  s := Vector.replicate 16 Stream.empty
  z := Vector.replicate 4 0
  zlive := false
  zl := 0
  zrow := 0
  qa := []
  qc := []
  qb := []
  vc := { vl := 0, vfmt := 0, vstart := 0, vcont := 0, vstat := 0, gn := 0, gbd := 0, gba := 0, gbb := 0, vcap := 0 }
  tr :=
    { ecause := 0, epca := 0, epcc := 0, eaddr := 0, einfo := 0, evecA := l.asVec, evecC := l.csVec, emask := l.emask,
      took := .as }
  tp := { adjm := 0, tapeb := 0, tapeh := 0, tapel := 0, dtab := 0, table := none }
  slip := 128
  ypend := 0
  gsz := BitVec.ofNat 64 l.record.gsz
  gix := BitVec.ofNat 64 (l.record.gbase + num)
  gcnt := BitVec.ofNat 64 l.record.gangs
  kargs := l.record.kargs
  hid := BitVec.ofNat 64 hid
  viq := []
  held := []
  markers := []
  fenceSv := false
  fenceVs := false
  seq := 0
  windows := []
  tcm := []
  waitCount := 0
  asArr := 0
  asHeld := []
  csArr := 0
  grant := none
  abuf := []
  cbuf := []
  issueClass := List.replicate 6 l.record.pri
  passed := List.replicate 6 0
  save := none
  answer := none

/-- A gang as it is first placed. -/
def Gang.fresh (s : State) (l : Launch) (die gallery : Nat) (places : List (Nat × Nat)) : Gang where
  id := l.nextGang
  st := .resident
  die := die
  gallery := gallery
  harts := places.zipIdx.map fun (p, hid) => Hart.fresh l l.placed hid p.1 p.2
  since := s.cycle.toNat
  qsince := s.ntime
  ph := 0
  arrived := []
  chamber := []

/-- A gang leaves the placement queue for gallery k. -/
def leaveQueue (s : State) (die : BitVec 3) (k : Nat) : State :=
  { s with
    lastGallery := s.lastGallery.set die.toNat k die.isLt }

/-- A gang that becomes resident, or has ended, is at its record's class again (R82). -/
def forgetAge (s : State) (id : Nat) : State := { s with aged := s.aged.filter fun c => c.1 != id }

/-- Bind free blocks for the blocks that a saved gang had bound; they are loaded by its restore. -/
def rebind (s : State) (old : Gang) : State :=
  let s := old.harts.zipIdx.foldl (fun s (h, hid) =>
    h.tcm.foldl (fun s (j, _) =>
      match findGang s old.id, findHart s old.id hid with
      | some g, some y => ((bindTcm s g old.id hid y j).map (·.2)).getD s
      | _, _ => s) s) s
  old.chamber.foldl (fun s (j, _) =>
    match findGang s old.id with
    | some g => ((bindChamber s g j).map (·.2)).getD s
    | none => s) s

/-- Reserve for a saved gang; its restore follows (R81, 07 R167). -/
def placeSaved (s : State) (die : BitVec 3) (k : Nat) (old : Gang) (places : List (Nat × Nat)) : State :=
  let s := mapGang s old.id fun g =>
    { g with
      st := .restoring, gallery := k, chamber := []
      harts := g.harts.zipIdx.map fun (h, hid) =>
        match places[hid]? with
        | some p => { h with core := p.1, ctx := p.2, tcm := [] }
        | none => h }
  leaveQueue (rebind s old) die k

/-- Place a gang of the queue in a gallery. -/
def placeGang (s : State) (die : BitVec 3) (w : Waiting) (k : Nat) (places : List (Nat × Nat)) : State :=
  match findGang s w.id with
  | some g => placeSaved s die k g places
  | none =>
    match findLaunch s w.id with
    | some l =>
      let s := { s with gangs := s.gangs ++ [Gang.fresh s l die.toNat k places] }
      forgetAge (leaveQueue (mapLaunch s l.id fun l => { l with placed := l.placed + 1 }) die k) w.id
    | none => s

/-- `GANG_PLACE` (R80 to R82): the first gang in queue order that fits is placed. -/
def execGangPlace (die : BitVec 3) : State → Result :=
  event awake fun s =>
    match (placeQueue s die.toNat).findSome? fun w => (fitGang s die w).map fun p => (w, p) with
    | some (w, k, places) => placeGang s die w k places
    | none => s

/-! ### Aging (R82, R85) -/

/-- 1 ms in units of `ntime`. -/
def oneMs : Nat := 720720 * 1000000

/-- When a gang of the queue entered it. -/
def queuedSince (s : State) (id : Nat) : Option Nat :=
  match findGang s id with
  | some g => if g.st = .saved then some g.qsince else none
  | none =>
    match findLaunch s id with
    | some l =>
      let n := id % 2 ^ 32
      if l.passed && decide (l.placed ≤ n) && decide (n < l.record.gangs) then some l.since else none
    | none => none

/-- `CLASS_AGING` (R82): a further 1 ms in the queue makes the gang one class more urgent. -/
def execClassAging (gang : Nat) : State → Result :=
  event awake fun s =>
    match findLaunch s gang, queuedSince s gang with
    | some l, some since =>
      let k := (assoc gang s.aged).getD 0
      if k < l.record.pri && (k + 1) * oneMs ≤ s.ntime - since then { s with aged := insertKey gang (k + 1) s.aged }
      else s
    | _, _ => s

/-- A hart that has been passed over for 256 cycles by a pipe's chooser: one class more urgent there, down to class 0 (R85). -/
def Hart.passedOver (h : Hart) (k : Nat) : Hart :=
  if 256 ≤ (h.passed[k]?).getD 0 then
    { h with issueClass := h.issueClass.modify k (· - 1), passed := h.passed.modify k (· - 256) }
  else h

/-- The place in its vector queue of the oldest instruction that a hart holds for a pipe. -/
def Hart.oldestOn (h : Hart) (k : Nat) : Option Nat := h.viq.findIdx? fun e => pipeIndex (vPipe e.kind) == k

/-- A hart is ready for a pipe when the oldest instruction that it holds for it can issue (R84): its slice has one, or the head
of its vector queue is of that pipe and does not wait, or the oldest of that pipe is one of which `behind` says that it can go
on behind older ones. -/
def Hart.readyFor (h : Hart) (behind : Nat → Bool) (k : Nat) : Bool :=
  !h.sysTrap &&
    match k with
    | 0 => h.mode == .active && h.as_.cond == .running
    | 1 => h.mode == .active && h.cs.cond == .running
    | _ => (h.mode == .active || h.mode == .draining) &&
      match h.oldestOn k with
      | none => false
      | some 0 => h.cs.cond != .waiting .counter
      | some j => behind j

/-- Passed-over counts after n clocks: a pipe for which the hart is not ready counts from 0 again (R85). -/
def Hart.passClocks (h : Hart) (behind : Nat → Bool) (n : Nat) : Hart :=
  { h with passed := h.passed.mapIdx fun k x => if h.readyFor behind k then x + n else 0 }

/-- `ISSUE_CLASS_AGING` (R85). -/
def execIssueClassAging (gang : Nat) (hid : BitVec 4) (pipe : Pipe) : State → Result :=
  event awake fun s =>
    match findGang s gang with
    | some g => if g.st = .resident then mapHart s gang hid.toNat fun h => h.passedOver (pipeIndex pipe) else s
    | none => s

/-! ### Yield requests (R83, R87, R88, R93) -/

/-- The interval of a yield class. -/
def yieldInterval (ycls : Nat) : Nat := if ycls = 7 then 1 else 1024 * 4 ^ ycls

/-- A request is posted to the gang: a hart that has not exited shows it. -/
def Gang.posted (g : Gang) : Bool := g.harts.any fun h => ypP h && h.mode != .exited

/-- `ypend` as a posting leaves it. -/
def ypendPosted (cycle : Nat) (why ycls : Nat) : Word :=
  BitVec.ofNat 64 (2 ^ 63 + why * 2 ^ 61 + (cycle + yieldInterval ycls) % 2 ^ 48)

/-- Every hart of a gang that is waiting, with a request posted, stops (R91). -/
def stopWaiting (s : State) (g : Nat) (n : Nat) : State := (List.range n).foldl (fun s h => stopIfWaiting s g h) s

/-- Post a yield request to a resident gang; a second one is ignored. -/
def postYield (s : State) (gang why : Nat) : State :=
  match findGang s gang, findLaunch s gang with
  | some g, some l =>
    if g.st != .resident || g.posted then s else
    let w := ypendPosted s.cycle.toNat why l.record.ycls
    stopWaiting (mapGang s gang fun g => { g with harts := g.harts.map fun h => { h with ypend := w } }) gang
      g.harts.length
  | _, _ => s

/-- `SYSTEM_YIELD_REQUEST` (R93). -/
def execSystemYieldRequest (gang : Nat) : State → Result := event awake fun s => postYield s gang 1

/-- Whether every hart of a gang is waiting. -/
def Gang.allWaiting (g : Gang) : Bool := g.harts.all Hart.isWaiting

/-- A gang that may be a victim, as it is ranked: waiting gangs first, then the least urgent PRI, then the most recently
resident. Among equals the one later in `State.gangs` comes first (log 146). -/
structure Victim where
  id : Nat
  waiting : Bool
  pri : Nat
  since : Nat
  deriving DecidableEq, Repr

def Victim.before (x y : Victim) : Bool :=
  if x.waiting != y.waiting then x.waiting
  else y.pri < x.pri || (x.pri = y.pri && y.since < x.since)

def insertVictim (x : Victim) : List Victim → List Victim
  | [] => [x]
  | y :: rest => if x.before y then x :: y :: rest else y :: insertVictim x rest

/-- The resident gangs of a gallery that may be victims of a head of class `cls`, in order. -/
def victimsOf (s : State) (die gallery cls : Nat) : List Victim :=
  let l := s.gangs.filterMap fun g =>
    match findLaunch s g.id with
    | some l =>
      let w := g.allWaiting
      if g.st = .resident && g.die = die && g.gallery = gallery && !g.posted
          && (w || (decide (cls ≤ l.record.pri) && decide (32000 ≤ s.cycle.toNat - g.since))) then
        some { id := g.id, waiting := w, pri := l.record.pri, since := g.since : Victim }
      else none
    | none => none
  l.foldr insertVictim []

/-- Gangs of a gallery that already have a request and will leave it. -/
def leaving (s : State) (die gallery : Nat) : List Nat :=
  (s.gangs.filter fun g => g.st == .resident && g.die == die && g.gallery == gallery && g.posted).map (·.id)

/-- Take victims in order until the head fits; none when it does not fit without all of them either. -/
def takeVictims (s : State) (die gallery : Nat) (w : Waiting) (gone taken : List Nat) : List Victim → Option (List Nat)
  | [] => if (assignGang (galleryUse s die gallery (gone ++ taken)) w.needs w.chamber).isSome then some taken else none
  | v :: rest =>
    if (assignGang (galleryUse s die gallery (gone ++ taken)) w.needs w.chamber).isSome then some taken
    else takeVictims s die gallery w gone (taken ++ [v.id]) rest

/-- `VICTIM_SELECT` (R83). -/
def execVictimSelect (die : BitVec 3) : State → Result :=
  event awake fun s =>
    match placeQueue s die.toNat with
    | [] => s
    | w :: _ =>
      if (fitGang s die w).isSome then s else
      match (galleryOrder s die).findSome? fun k =>
          takeVictims s die.toNat k w (leaving s die.toNat k) [] (victimsOf s die.toNat k w.cls) with
      | some l => l.foldl (fun s g => postYield s g 0) s
      | none => s

/-! ### Kills (R93) -/

/-- A hart stopped by a kill: what was in flight is abandoned, and it waits for nothing any more. -/
def Hart.killed (h : Hart) : Hart :=
  { h.ended with
    viq := [], held := [], markers := [], asHeld := [], sysTrap := false
    as_ := { h.as_ with cond := .stopped }, cs := { h.cs with cond := .stopped } }

/-- Kill a gang: every hart stops at once, with its issued stores performed. -/
def killGang (s : State) (gang : Nat) : State :=
  match findGang s gang with
  | none => s
  | some g =>
    match g.st with
    | .ended _ => s
    | _ =>
      let s := mapGang s gang fun g => { g with harts := g.harts.map (·.closeStores) }
      let s := (List.range g.harts.length).foldl (fun s h => drainBuf (drainBuf s gang h .as) gang h .cs) s
      forgetAge (mapGang s gang fun g =>
        { g with st := .ended true, harts := g.harts.map Hart.killed, arrived := [], chamber := [] }) gang

/-- `GANG_KILL` (R93). -/
def execGangKill (gang : Nat) : State → Result := event powered fun s => killGang s gang

/-! ### Forced stops (R90, R91) -/

/-- `FORCED_STOP` (R90). -/
def execForcedStop (gang : Nat) : State → Result :=
  event awake fun s => forceGang s gang

/-! ### Ends (R81, 03 R68) -/

/-- A gang that has ended, with no store left and every forked operation joined. -/
def Gang.over (s : State) (g : Gang) : Bool :=
  (g.st == .ended false || g.st == .ended true)
    && g.harts.all (fun h => h.abuf.isEmpty && h.cbuf.isEmpty)
    && !s.ops.any (fun o => o.gang == g.id) && !s.adds.any fun a => a.gang == some g.id

/-- A launch one of whose gangs has ended; with its last gang it is complete. -/
def countEnd (s : State) (l : Launch) : State :=
  if l.ended + 1 = l.record.gangs then { s with launches := s.launches.filter fun x => x.id != l.id }
  else mapLaunch s l.id fun l => { l with ended := l.ended + 1 }

/-- `GANG_END` (03 R68): the addition to the done object. -/
def execGangEnd (gang : Nat) : State → Result :=
  event awake fun s =>
    match findGang s gang, findLaunch s gang with
    | some g, some l =>
      if g.over s then
        let s := doneAdd s l.port l.record l.ctx 1 (g.st == .ended true)
        countEnd { s with gangs := s.gangs.filter fun x => x.id != gang } l
      else s
    | _, _ => s

/-! ### Answers to system traps (07 R154, 08 R180) -/

/-- The tape registers as the tape spill owner has set them. -/
def Hart.setTape (h : Hart) (t : Word × Word) : Hart :=
  { h with tp := { h.tp with tapeh := t.1 &&& ~~~(7#64), tapel := t.2 &&& ~~~(7#64) } }

/-- Causes at which the tape spill owner may have set them. -/
def tapeCause (h : Hart) : Bool :=
  let c := bitsOf h.tr.ecause.toNat 0 8
  c == 0x14 || c == 0x15

/-- A hart after a *resume* answer. -/
def Hart.answered (h : Hart) (tape : Option (Word × Word)) : Hart :=
  match tape with
  | some t => (if tapeCause h then h.setTape t else h).resume
  | none => h.resume

/-- A slice goes on when its hart is answered *resume*: with a handler running, the one that took the trap alone. -/
def Hart.resumes (x : Hart) (sl : SliceId) : Bool := !x.sysTrap && (!x.handlerOn || x.tr.took == sl)

/-- The checks of 09 R186 on the pc at which a slice resumes; where they fail the slice traps instead of resuming. They may
wait for cold text or a link. -/
def resumeChecked (s : State) (gang h : Nat) (sl : SliceId) : Except WaitAt State :=
  match findHart s gang h with
  | none => .ok s
  | some x =>
    if !x.resumes sl then .ok s else
    match tried (checkResume sl (x.slice sl).pc) { s with cur := .slice gang h sl } with
    | (.ok _, s1) => .ok { s1 with cur := s.cur }
    | (.trap t, s1) => .ok (takeTrap { s1 with cur := s.cur } gang h sl none t)
    | (.wait w, _) => .error w

/-- A *resume* answer reaches a hart. While its checks wait it stands, and the hart stays stopped. -/
def resumeHart (s : State) (gang h : Nat) (tape : Option (Word × Word)) : State :=
  match (resumeChecked (mapHart s gang h fun x => x.answered tape) gang h .as).bind fun s => resumeChecked s gang h .cs with
  | .ok s => s
  | .error _ => mapHart s gang h fun x => { x with answer := some tape }

/-- A hart takes an answer that has come and stands. -/
def takeAnswer (s : State) (g h : Nat) : State :=
  match findHart s g h with
  | some x =>
    match x.answer with
    | some t => if x.mode = .active then resumeHart (mapHart s g h fun x => { x with answer := none }) g h t else s
    | none => s
  | none => s

/-- Harts of resident gangs, as gang and index. -/
def hartsInPlace (s : State) : List (Nat × Nat) :=
  s.gangs.flatMap fun g => if g.st = .resident then (List.range g.harts.length).map fun h => (g.id, h) else []

/-- Every answer that stands is looked at again. -/
def retryAnswers (s : State) : State := (hartsInPlace s).foldl (fun s x => takeAnswer s x.1 x.2) s

/-- `TRAP_RESUME` (07 R154): a hart that has meanwhile been stopped otherwise takes the answer when it goes on. -/
def execTrapResume (gang : Nat) (hid : BitVec 4) (tape : Option (Word × Word)) : State → Result :=
  event powered fun s =>
    match findHart s gang hid.toNat with
    | some h =>
      if !h.sysTrap then s
      else if h.mode = .active then resumeHart s gang hid.toNat tape
      else mapHart s gang hid.toNat fun x => { x with answer := some tape }
    | none => s

/-- `TRAP_KILL` (07 R154). -/
def execTrapKill (gang : Nat) (hid : BitVec 4) : State → Result :=
  event powered fun s =>
    match findHart s gang hid.toNat with
    | some h => if h.sysTrap then killGang s gang else s
    | none => s

end Sys2Proof.Machine
end

