-- ==== Sys2Proof/Machine/Save.lean ====
section
/-! DEFINITION. The save area of a hart, saving and restoring (07 R163 to R167, 04 R92, 05 R118, R120). -/

namespace Sys2Proof.Machine

/-! ### The layout of a save area (R163) -/

/-- A write of the save: its offset and bytes. -/
structure Chunk where
  off : Nat
  bytes : List Byte
  deriving DecidableEq, Repr

def offMasks : Nat := 0x3000
def offVregs (v : Nat) : Nat := 0x3000 + 5 * v
def offTiles (v : Nat) : Nat := 0x3000 + 37 * v
def offTcm (v : Nat) : Nat := 0x3000 + 37 * v + 65536
def offChamber (v : Nat) : Nat := 0x3000 + 37 * v + 65536 + 524288

/-- Control registers by number, those of the vector unit and tiles first. -/
def savedCtl : List Nat :=
  [0x000, 0x001, 0x002, 0x003, 0x004, 0x005, 0x006, 0x007, 0x008, 0x009, 0x00A, 0x010, 0x011, 0x020, 0x021, 0x022,
   0x023, 0x024, 0x030, 0x031, 0x040, 0x041, 0x042, 0x043, 0x044, 0x045, 0x050, 0x051, 0x052, 0x053, 0x054, 0x055,
   0x056, 0x060, 0x061]

def wordChunk (off : Nat) (w : Word) : Chunk := { off := off, bytes := natToBytes w.toNat 8 }

/-- The bits for the blocks bound. -/
def blockBits (l : List (Nat × Nat)) : Nat := l.foldl (fun n c => n + 2 ^ c.1) 0

/-- Region A without the status word, the gang state and the chamber bitmap. -/
def chunksA (s : State) (v : Nat) (h : Hart) : List Chunk :=
  [wordChunk 0x008 h.as_.pc, wordChunk 0x010 h.cs.pc, wordChunk 0x018 h.tr.evecA, wordChunk 0x020 h.tr.evecC,
   wordChunk 0x028 (BitVec.ofNat 64 (blockBits h.tcm))]
  ++ savedCtl.map (fun n => wordChunk (0x100 + 8 * n) (readCtl s v h .as n))
  ++ h.v.toList.zipIdx.map (fun (x, k) => wordChunk (0x600 + 8 * k) (BitVec.ofNat 64 x.fill))
  ++ h.a.toList.zipIdx.map (fun (x, k) => wordChunk (0x800 + 8 * k) x)
  ++ h.c.toList.zipIdx.map (fun (x, k) => wordChunk (0x900 + 8 * k) x)

/-- Bytes whose values the spec does not lay out, from the k0-th free value on (log 16). -/
def freeBytes (s : State) (k0 n : Nat) : List Byte :=
  (List.range n).map fun k => ((Config.freeValue (s.freeCtr + k0 + k / 8)) >>> (k % 8 * 8)).setWidth 8

/-- The gang state and the chamber bitmap in the area of hart 0. -/
def chunksGang (s : State) (g : Gang) : List Chunk :=
  [wordChunk 0x030 (BitVec.ofNat 64 (blockBits g.chamber)), { off := 0xC00, bytes := freeBytes s 1024 0x400 }]

/-- Regions B to F of a hart. -/
def chunksBF (s : State) (v : Nat) (core : Nat) (h : Hart) : List Chunk :=
  [{ off := 0x1000, bytes := freeBytes s 0 0x2000 }]
  ++ (h.m.toList.zipIdx.drop 1).map (fun (x, k) => { off := offMasks + (k - 1) * (v / 2), bytes := natToBytes x (v / 2) })
  ++ [{ off := offMasks + 7 * (v / 2), bytes := natToBytes h.mdone (v / 2) },
      { off := offMasks + 4 * v, bytes := natToBytes h.mfault (v / 2) }]
  ++ (h.v.toList.zipIdx.filter fun x => x.1.fill != 0).map (fun (x, k) =>
      { off := offVregs v + k * v, bytes := natToBytes x.bits (ceilDiv x.fill 512 * 64) })
  ++ (if h.zlive then
        h.z.toList.zipIdx.map fun (x, k) => { off := offTiles v + 16384 * k, bytes := natToBytes x 16384 }
      else [])
  ++ h.tcm.map (fun (j, p) =>
      { off := offTcm v + Config.tcmBlock * j,
        bytes := homeRead s (locRange (tcmLoc core (p * Config.tcmBlock)) Config.tcmBlock) })

/-- Region G. -/
def chunksG (s : State) (v : Nat) (g : Gang) : List Chunk :=
  g.chamber.map fun (j, p) =>
    { off := offChamber v + Config.chamberBlock * j,
      bytes := homeRead s (locRange (chamberLoc (g.die * 32 + g.gallery) (p * Config.chamberBlock)) Config.chamberBlock) }

/-- Insert a write in ascending offset. -/
def insertChunk (c : Chunk) : List Chunk → List Chunk
  | [] => [c]
  | d :: rest => if c.off ≤ d.off then c :: d :: rest else d :: insertChunk c rest

/-- Every hart of a gang has stopped for its save, or has exited. -/
def Gang.allStopped (g : Gang) : Bool := g.harts.all fun h => h.mode == .saving || h.mode == .exited

/-- The writes of a hart's save in the order of R165, the status word apart; the gang state with those of hart 0 once it can
change no more. -/
def saveChunks (s : State) (v : Nat) (g : Gang) (hid : Nat) (h : Hart) : List Chunk :=
  let own := if h.mode = .exited then [] else chunksA s v h ++ chunksBF s v (coreOf g h) h
  let gang := if hid = 0 && g.allStopped then chunksGang s g ++ chunksG s v g else []
  (own ++ gang).foldr insertChunk []

/-- The status word. -/
def statusWord (h : Hart) : Word :=
  BitVec.ofNat 64 (1 + h.coop.toNat * 2 + h.handlerOn.toNat * 4 + (h.handlerOn && h.tr.took == .cs).toNat * 8)

/-! ### Saving (R165, R166) -/

/-- The CXE's accesses translate through the hart's own page tables and reach no window (R393). -/
def cxeXlat (s : State) (g h : Nat) : Xlat := (hartXlat s g h).noWindows

/-- How writing ended. -/
inductive SaveEnd where
  | complete
  | stopped (reason : Nat) (va : Word)   -- at the offset the save record holds
  | stall
  deriving DecidableEq, Repr

/-- Write a chunk at an area of length limit. -/
def writeChunk (x : Xlat) (base : Word) (limit : Nat) (c : Chunk) (s : State) : SaveEnd × State :=
  if limit < c.off + c.bytes.length then (.stopped 2 0, s) else
  let va := (base + BitVec.ofNat 64 c.off).toNat
  match tried (do
    let f ← locateCtx x .store va c.bytes.length
    writeFound f c.bytes) s with
  | (.ok _, s) => (.complete, s)
  | (.trap t, s) => (.stopped 1 t.eaddr, s)
  | (.wait _, s) => (.stall, s)

/-- Write the chunks in order: how it ended, and the offset of the first not written. -/
def writeChunks (x : Xlat) (base : Word) (limit : Nat) : List Chunk → State → SaveEnd × Nat × State
  | [], s => (.complete, 0, s)
  | c :: rest, s =>
    match writeChunk x base limit c s with
    | (.complete, s) => writeChunks x base limit rest s
    | (r, s) => (r, c.off, s)

/-- The writes that remain of a save: those from the offset reached, then the status word. -/
def remaining (all : List Chunk) (off : Nat) (status : Word) : List Chunk :=
  all.filter (fun c => off ≤ c.off) ++ [wordChunk 0 status]

/-- One past the last offset of an area: the offset a save keeps when only the status word is left. -/
def areaEnd : Nat := 2 ^ 32

def mapSave (s : State) (g h : Nat) (f : Save → Save) : State :=
  mapHart s g h fun x => { x with save := x.save.map f }

/-- Whether the CXE may write a hart's area to its end. That of hart 0 may be complete before the other harts have stopped; its
gang state and chamber blocks are written once they have, in a save of the area anew (R92, log 161). -/
def Gang.maySave (g : Gang) (hid : Nat) (h : Hart) (v : Save) : Bool :=
  if hid = 0 && g.allStopped then !v.done || !v.gang
  else !v.done && (hid != 0 || h.mode != .exited)

/-- A hart whose save is being written. -/
def savingHart (s : State) (g h : Nat) : Option (Gang × Hart × Save) :=
  match findGang s g, findHart s g h with
  | some x, some y =>
    match y.save with
    | some v => if v.st = .writing && x.st = .resident && x.maySave h y v then some (x, y, v) else none
    | none => none
  | _, _ => none

/-- Write what remains of a save. -/
def runSave (s : State) (g h : Nat) (x : Gang) (y : Hart) (v : Save) : SaveEnd × Nat × State :=
  let vrlen := ((findLaunch s g).map (·.vrlen)).getD 4096
  writeChunks (cxeXlat s g h) v.base v.limit (remaining (saveChunks s vrlen x h y) v.off (statusWord y)) s

/-- The offset a save keeps when it stopped before the write at `off`. -/
def keptOff (off : Nat) : Nat := if off = 0 then areaEnd else off

/-- Free values that a save writes are used up. -/
def useFree (s : State) : State := { s with freeCtr := s.freeCtr + 1152 }

/-- `SAVE_COMPLETE` (R165): the rest of the area, then COMPLETE; with its last hart the gang is saved (04 R92). -/
def execSaveComplete (gang : Nat) (hid : BitVec 4) : State → Result :=
  event clocked fun s =>
    match savingHart s gang hid.toNat with
    | some (x, y, v) =>
      match runSave s gang hid.toNat x y v with
      | (.complete, _, s) =>
        leaveIfSaved (mapSave (useFree s) gang hid.toNat fun v =>
          { v with done := true, gang := x.allStopped, off := 0 }) gang
      | _ => s
    | none => s

/-- `SAVE_INCOMPLETE` (R166): a write faults or would pass L. -/
def execSaveIncomplete (gang : Nat) (hid : BitVec 4) : State → Result :=
  event clocked fun s =>
    match savingHart s gang hid.toNat with
    | some (x, y, v) =>
      match runSave s gang hid.toNat x y v with
      | (.stopped reason va, off, s) =>
        let s := mapSave (useFree s) gang hid.toNat fun v => { v with st := .incomplete reason va, off := keptOff off }
        notify s 1 .saveIncomplete
          [tagOwnerOf s gang, y.gix, y.hid, BitVec.ofNat 64 off, BitVec.ofNat 64 reason, va]
      | _ => s
    | none => s

/-- A save that awaits its owner's answer. -/
def incomplete? (s : State) (g h : Nat) : Option Save :=
  match findHart s g h with
  | some y =>
    match y.save with
    | some v =>
      match v.st with
      | .incomplete _ _ => some v
      | _ => none
    | none => none
  | none => none

/-- `SAVE_CONTINUE` (R166). -/
def execSaveContinue (gang : Nat) (hid : BitVec 4) (limit : Nat) : State → Result :=
  event powered fun s =>
    match incomplete? s gang hid.toNat with
    | some v =>
      if (if v.off = areaEnd then 0 else v.off) ≤ limit then
        mapSave s gang hid.toNat fun v => { v with st := .writing, limit := limit }
      else s
    | none => s

/-- `SAVE_RESTART` (R166). -/
def execSaveRestart (gang : Nat) (hid : BitVec 4) (base : Word) (limit : Nat) : State → Result :=
  event powered fun s =>
    match incomplete? s gang hid.toNat with
    | some _ => mapSave s gang hid.toNat fun v => { v with st := .writing, base := base, limit := limit, off := 0 }
    | none => s

/-- `SAVE_KILL` (R166). -/
def execSaveKill (gang : Nat) (hid : BitVec 4) : State → Result :=
  event powered fun s =>
    match incomplete? s gang hid.toNat with
    | some _ => killGang s gang
    | none => s

/-- `SAVE_AREA_PROVIDED` (R164). -/
def execSaveAreaProvided (gang : Nat) (hid : BitVec 4) (base : Word) (limit : Nat) : State → Result :=
  event powered fun s =>
    mapSave s gang hid.toNat fun v =>
      if v.st = .needArea then { v with st := .writing, base := base, limit := limit } else v

/-! ### Restoring (R167) -/

/-- Read part of an area. -/
def areaRead (x : Xlat) (base : Word) (off n : Nat) : M (List Byte) := readCtx x (base + BitVec.ofNat 64 off).toNat n

def areaNat (x : Xlat) (base : Word) (off n : Nat) : M Nat := do pure (bytesToNat (← areaRead x base off n))

def areaWord (x : Xlat) (base : Word) (off : Nat) : M Word := do pure (BitVec.ofNat 64 (← areaNat x base off 8))

/-- The 32 words from an offset on. -/
def areaFile (x : Xlat) (base : Word) (off : Nat) : M (Vector Word 32) := do
  let b ← areaRead x base off 256
  pure (Vector.ofFn fun k => BitVec.ofNat 64 (bytesToNat ((b.drop (8 * k.val)).take 8)))

/-- The vector registers: bits below each fill. -/
def areaVregs (x : Xlat) (base : Word) (v : Nat) : (n k : Nat) → List VReg → M (List VReg)
  | 0, _, out => pure out.reverse
  | n + 1, k, out => do
    let fill := min (← areaNat x base (0x600 + 8 * k) 8) (8 * v)
    let bits ← areaNat x base (offVregs v + k * v) (ceilDiv fill 512 * 64)
    areaVregs x base v n (k + 1) ({ bits := bits % 2 ^ fill, fill := fill } :: out)

/-- A list of numbers of n bytes each, a stride apart. -/
def areaNats (x : Xlat) (base : Word) (n stride : Nat) : (k off : Nat) → List Nat → M (List Nat)
  | 0, _, out => pure out.reverse
  | k + 1, off, out => do areaNats x base n stride k (off + stride) ((← areaNat x base off n) :: out)

/-- The bits of control register n that are not reserved (R152, 09 R183, 05 R102, 06 R123, 08 R168, R175, 12 R254). -/
def ctlMask (n : Nat) : Word :=
  match n with
  | 0x001 => 0xFFFFFFFF#64
  | 0x005 => 0x1F#64
  | 0x021 | 0x022 | 0x023 => ~~~(7#64)
  | 0x024 => ~~~(511#64)
  | 0x030 => 0xFF#64
  | 0x050 => 0xFFFFFFFFFFFF0BFF#64
  | 0x051 | 0x052 => ~~~(1#64)
  | _ => ~~~(0#64)

/-- The vector control registers in a page of control registers. -/
def loadVctl (w : Nat → Word) : VCtl :=
  { vl := w 0x000, vfmt := w 0x001, vstart := w 0x003, vcont := w 0x004, vstat := w 0x005, gn := w 0x006
    gbd := w 0x007, gba := w 0x008, gbb := w 0x009, vcap := w 0x00A }

/-- The blocks that a bitmap read back names, each with one of the blocks reserved for it in order (05 R118, R120, log 33). -/
def reboundBlocks (bits n : Nat) (held : List (Nat × Nat)) : List (Nat × Nat) :=
  ((List.range n).filter bits.testBit).zip (held.map (·.2))

/-- The registers of regions A, C, D and E read back into a hart, reserved bits as 0; what region B stands for and the
region table copy are kept by the model beside the area (log 33), but its bytes are read. -/
def loadHart (x : Xlat) (base : Word) (v : Nat) (h : Hart) : M Hart := do
  let status ← areaNat x base 0 8
  let asPc ← areaWord x base 0x008
  let csPc ← areaWord x base 0x010
  let evA ← areaWord x base 0x018
  let evC ← areaWord x base 0x020
  let bound ← areaNat x base 0x028 8
  let ctl ← areaRead x base 0x100 (8 * 0x62)
  let w (n : Nat) : Word := BitVec.ofNat 64 (bytesToNat ((ctl.drop (8 * n)).take 8)) &&& ctlMask n
  let a ← areaFile x base 0x800
  let c ← areaFile x base 0x900
  let _ ← areaRead x base 0x1000 0x2000
  let ms ← areaNats x base (v / 2) (v / 2) 8 offMasks []
  let mf ← areaNat x base (offMasks + 4 * v) (v / 2)
  let vs ← areaVregs x base v 32 0 []
  let zs ← if h.zlive then areaNats x base 16384 16384 4 (offTiles v) [] else pure []
  pure
    { h with
      as_ := { h.as_ with pc := asPc &&& ~~~(1#64), fbuf := [] }
      cs := { h.cs with pc := csPc &&& ~~~(1#64), fbuf := [] }
      a := a
      c := c
      m := Vector.ofFn fun k => if k.val = 0 then 0 else (ms[k.val - 1]?).getD 0
      mdone := (ms[7]?).getD 0
      mfault := mf
      v := Vector.ofFn fun k => (vs[k.val]?).getD { bits := 0, fill := 0 }
      z := Vector.ofFn fun k => (zs[k.val]?).getD 0
      tcm := reboundBlocks bound 8 h.tcm
      zl := w 0x010
      zrow := w 0x011
      vc := loadVctl w
      tp := { h.tp with
        adjm := (w 0x020).setWidth 2, tapeb := w 0x021, tapeh := w 0x022, tapel := w 0x023, dtab := w 0x024 }
      slip := w 0x030
      hid := w 0x040
      gsz := w 0x041
      gix := w 0x042
      gcnt := w 0x043
      kargs := w 0x044
      tr :=
        { ecause := w 0x050, epca := w 0x051, epcc := w 0x052, eaddr := w 0x053, einfo := w 0x054
          evecA := evA &&& ~~~(3#64), evecC := evC &&& ~~~(3#64), emask := w 0x056
          took := if status.testBit 3 then .cs else .as } }

/-- Load the bound blocks of a hart's TCM, or of the gang's chamber, from their region. -/
def loadBlocks (x : Xlat) (base : Word) (off block : Nat) (place : Nat → Nat) : List (Nat × Nat) → M Unit
  | [] => pure ()
  | (j, p) :: rest => do
    let b ← areaRead x base (off + block * j) block
    modify fun s => homeWrite s (locRange (place p) block) b
    loadBlocks x base off block place rest

/-- Read a hart's area back. -/
def restoreHart (x : Xlat) (base : Word) (v : Nat) (g : Gang) (hid : Nat) (h : Hart) : M Hart := do
  let y ← if h.mode = .exited then pure h else do
    let y ← loadHart x base v h
    loadBlocks x base (offTcm v) Config.tcmBlock (fun p => tcmLoc (coreOf g h) (p * Config.tcmBlock)) y.tcm
    pure y
  if hid = 0 then
    let bound ← areaNat x base 0x030 8
    let _ ← areaRead x base 0xC00 0x400
    let chamber := reboundBlocks bound 64 g.chamber
    loadBlocks x base (offChamber v) Config.chamberBlock
      (fun p => chamberLoc (g.die * 32 + g.gallery) (p * Config.chamberBlock)) chamber
    modify fun s => mapGang s g.id fun g => { g with chamber := chamber }
  pure y

/-- A hart that may issue again after its gang's restore (R167): walk-ahead data and fetch buffers are empty, `ypend`
and the mutual-wait count are 0, a row move goes on at `zrow`; with H = 1 only the slice that took the trap goes on. -/
def Hart.restart (h : Hart) : Hart :=
  let stop (sl : SliceId) : Cond :=
    if h.sysTrap || (h.handlerOn && h.tr.took != sl) then .stopped else .running
  { h.dropWalks.takeRow with
    mode := .active
    ypend := 0
    waitCount := 0
    save := none
    as_ := { h.as_ with fbuf := [], cond := stop .as }
    cs := { h.cs with fbuf := [], cond := stop .cs } }

/-- Every area of a restoring gang has been read. -/
def Gang.restored (g : Gang) : Bool :=
  g.harts.all fun h => match h.save with
    | some v => v.st == .restored
    | none => h.mode == .exited

/-- A gang whose last area has been read is resident, at its record's class again (04 R82, R87). -/
def becomeResident (s : State) (gang : Nat) : State :=
  match findGang s gang with
  | some g =>
    if g.restored then
      let s := mapGang (forgetAge s gang) gang fun g =>
        { g with
          st := .resident, since := s.cycle.toNat
          harts := g.harts.map fun h => if h.mode = .exited then { h with save := none, ypend := 0 } else h.restart }
      (List.range g.harts.length).foldl (fun s h => takeAnswer s gang h) s
    else s
  | none => s

/-- A hart of a restoring gang whose area has not been read. -/
def restoringHart (s : State) (g h : Nat) : Option (Gang × Hart × Save) :=
  match findGang s g, findHart s g h with
  | some x, some y =>
    match y.save with
    | some v => if v.st != .restored && x.st = .restoring then some (x, y, v) else none
    | none => none
  | _, _ => none

def runRestore (s : State) (g h : Nat) (x : Gang) (y : Hart) (v : Save) : Tried Hart × State :=
  let vrlen := ((findLaunch s g).map (·.vrlen)).getD 4096
  tried (restoreHart (cxeXlat s g h) v.base vrlen x h y) s

/-- `RESTORE_COMPLETE` (R167): a hart's area is read; poisoned data kills the gang. -/
def execRestoreComplete (gang : Nat) (hid : BitVec 4) : State → Result :=
  event clocked fun s =>
    match restoringHart s gang hid.toNat with
    | some (x, y, v) =>
      match runRestore s gang hid.toNat x y v with
      | (.ok z, s) =>
        let s := mapHart s gang hid.toNat fun _ => { z with save := some { v with st := .restored } }
        becomeResident s gang
      | (.trap t, s) =>
        if t.cause = cMCHK then killGang (notify s 7 .poison [t.eaddr, 7, tagOwnerOf s gang]) gang else s
      | (.wait _, s) => s
    | none => s

/-- `RESTORE_FAULT` (R167): the reservations are released, and the owner is told. -/
def execRestoreFault (gang : Nat) (hid : BitVec 4) : State → Result :=
  event clocked fun s =>
    match restoringHart s gang hid.toNat with
    | some (x, y, v) =>
      match runRestore s gang hid.toNat x y v with
      | (.trap t, s) =>
        if t.cause = cMCHK then s else
        let s := mapGang s gang fun g =>
          { g with
            st := .awaiting
            harts := g.harts.map fun h => { h with save := h.save.map fun v => { v with st := .writing } } }
        notify s 1 .restoreFault [tagOwnerOf s gang, y.gix, y.hid, t.eaddr]
      | _ => s
    | none => s

/-- `RESTORE_ANSWER` (R167): the gang may be placed again. -/
def execRestoreAnswer (gang : Nat) : State → Result :=
  event powered fun s =>
    mapGang s gang fun g => if g.st = .awaiting then { g with st := .saved } else g

end Sys2Proof.Machine
end

