-- ==== Sys2Proof/Machine/Device.lean ====
section
/-! DEFINITION. Events of the launch ports and wait objects, device registers, shootdowns, spare layers, channels, links
and the host (03 R66, R67, 01 R10 to R34, 07 R147, R148, 16 R369 to R371). -/

namespace Sys2Proof.Machine

/-! ### Power state at a request (02 R48, R50) -/

/-- The device is in retain, or is entering it: requests of peers are held (R50). -/
def holdsRequests (s : State) : Bool := s.bed.pwr == 2 || s.bed.retainPending

/-- A device whose boot has finished (R40). -/
def booted (s : State) : Bool := !s.bed.off && s.bed.stage == 3

/-! ### Launch records and wait objects (03 R66, R67) -/

/-- `LAUNCH_RECORD_WRITE`. -/
def execLaunchRecordWrite (port : BitVec 8) (off : Nat) (data : List Byte) : State → Result :=
  event booted (portArrives port off data)

/-- `WAIT_OBJECT_OBSERVE`. -/
def execWaitObjectObserve (launch : Nat) : State → Result :=
  event awake fun s =>
    match findLaunchId s launch with
    | some l => observeWait s l
    | none => s

/-- A launch whose wait object the dependence owner resolves: its notice has been posted, and it still waits. -/
def dependent (s : State) (launch : Nat) : Option Launch :=
  match findLaunchId s launch with
  | some l =>
    let asked := s.notices.any fun n => n.kind == .dependence && (n.words[1]?).getD 0 == BitVec.ofNat 64 launch
    if asked && !l.passed && l.seen.isNone then some l else none
  | none => none

/-- `DEPENDENCE_RELEASE`; an owner's answer takes effect at once in every power state (log 164). -/
def execDependenceRelease (launch : Nat) (v : Word) : State → Result :=
  event powered fun s =>
    match dependent s launch with
    | some l => observeValue s l v
    | none => s

/-- `DEPENDENCE_FAIL`; an owner's answer takes effect at once in every power state (log 164). -/
def execDependenceFail (launch : Nat) : State → Result :=
  event powered fun s =>
    match dependent s launch with
    | some l => refuseWait s l
    | none => s

/-! ### Device registers (01 R10) -/

/-- `REGISTER_WRITE`; to a launch port it is a launch write of the wrong size, which arrives as any other (03 R58, log 164). -/
def execRegisterWrite (off : BitVec 20) (v : Word) (by_ : RegAgent) : State → Result :=
  event powered fun s =>
    if off.toNat < 0x4000 then portArrives (BitVec.ofNat 8 (off.toNat / 64)) (off.toNat % 64) (natToBytes v.toNat 8) s
    else writeReg s off.toNat v by_

/-- `INTERLEAVE_DESCRIPTOR_WRITE` (01 R19). -/
def execInterleaveDescriptorWrite (n : BitVec 6) (word1 : Bool) (v : Word) (by_ : RegAgent) : State → Result :=
  event powered fun s => writeReg s (0x10000 + 16 * n.toNat + (if word1 then 8 else 0)) v by_

/-- `COLL_END` (01 R34): END written with the header's other fields as they are. -/
def execCollEnd (id : BitVec 8) (by_ : RegAgent) : State → Result :=
  event powered fun s =>
    let off := 0x70000 + 16 * id.toNat
    writeReg s off (devReg s off ||| 0x4000000000000000#64) by_

/-- `END_FROM_OTHER_PACKAGE` (01 R34). Members here that issue later find the operation ended. -/
def execEndFromOtherPackage (id : BitVec 8) (num : Nat) : State → Result :=
  event powered fun s =>
    match findColl s id.toNat num with
    | some c => if c.ended then s else endColl s c true
    | none =>
      setColl s { id := id.toNat, num := num, route := none, members := [], ended := true, complete := false }

/-! ### Shootdowns (07 R147, R148) -/

def shootOff (die : BitVec 3) : Nat := 0x60000 + 8 * die.toNat

/-- `SHOOTDOWN_GO`. -/
def execShootdownGo (die : BitVec 3) (v : Word) (by_ : RegAgent) : State → Result :=
  event powered fun s => writeReg s (shootOff die) (v ||| 0x8000000000000000#64) by_

/-- The number of low address bits that a range leaves open; none is every address. -/
def rangeBits (w : Word) : Option Nat :=
  match bitsOf w.toNat 60 2 with
  | 0 => some 16
  | 1 => some 29
  | 2 => some 42
  | _ => none

/-- Whether a page of pb address bits at number vpn has a byte in the named range. -/
def inRange (w : Word) (pb vpn : Nat) : Bool :=
  match rangeBits w with
  | none => true
  | some rb =>
    let m := max pb rb
    vpn * 2 ^ pb / 2 ^ m == bitsOf w.toNat 16 39 * 2 ^ 16 / 2 ^ m

def sameAsid (w : Word) (asid : BitVec 16) : Bool := w.getLsbD 59 || asid == w.extractLsb' 0 16

/-- A held translation that a shootdown on a die drops. -/
def TlbEntry.dropped (e : TlbEntry) (die : Nat) (w : Word) : Bool :=
  e.gallery / 32 == die && sameAsid w e.asid && inRange w (pageBits e.level) e.vpn

/-- A near-bank operation forked on the die keeps a window's translation in the range (15 R346). -/
def keepsWindow (s : State) (die : Nat) (w : Word) : Bool :=
  s.ops.any fun o =>
    match o.body with
    | .nbe _ _ wins _ _ =>
      ((findGang s o.gang).map (·.die)).getD die == die && sameAsid w (hartXlat s o.gang o.hid).asid &&
        wins.any fun x => x.size != 0 && inRange w 16 (x.va.toNat % 2 ^ 55 / 65536)
    | _ => false

/-- The harts of a die, as gang and index. -/
def hartsOfDie (s : State) (die : Nat) : List (Nat × Nat) :=
  s.gangs.flatMap fun g => if g.die = die then (List.range g.harts.length).map fun h => (g.id, h) else []

/-- `SHOOTDOWN_DONE`: translations and walk-ahead data of the range go, and the stores and additions that used them have been
performed: a request that an instruction still adds to is waited for (19 R383). -/
def execShootdownDone (die : BitVec 3) : State → Result :=
  event powered fun s =>
    let w := devReg s (shootOff die)
    if !w.getLsbD 63 || keepsWindow s die.toNat w || s.adds.any (fun a => a.leaf.dropped die.toNat w) then s else
    let s0 := s
    let s := { s with tlb := s.tlb.filter fun e => !e.dropped die.toNat w }
    let harts := hartsOfDie s die.toNat
    let s := harts.foldl (fun s (g, h) =>
      mapHart (drainBuf (drainBuf s g h .as) g h .cs) g h Hart.dropWalks) s
    let kept := harts.any fun (g, h) => ((findHart s g h).map fun x => !x.abuf.isEmpty || !x.cbuf.isEmpty).getD false
    if kept then s0 else
    setDevReg s (shootOff die) ((w &&& 0x3FFFFFFFFFFFFFFF#64) ||| 0x4000000000000000#64)

/-! ### Spare layers (01 R13 to R16) -/

def remapOff (stack : BitVec 4) : Nat := 0x20000 + 8 * stack.toNat

/-- `REMAP_START_COPY`. -/
def execRemapStartCopy (stack layer : BitVec 4) (by_ : RegAgent) : State → Result :=
  event powered fun s => writeReg s (remapOff stack) (mkRemap 1 layer.toNat 0 false false) by_

/-- `REMAP_ABANDON`. -/
def execRemapAbandon (stack : BitVec 4) (by_ : RegAgent) : State → Result :=
  event powered fun s =>
    writeReg s (remapOff stack) (mkRemap 0 (rmLayer (devReg s (remapOff stack))) 0 false false) by_

/-- `REMAP_SWITCH`. -/
def execRemapSwitch (stack : BitVec 4) (by_ : RegAgent) : State → Result :=
  event powered fun s =>
    writeReg s (remapOff stack) (mkRemap 2 (rmLayer (devReg s (remapOff stack))) 0 false false) by_

/-- `REMAP_FAULT_CLEAR`: FAULT written with the state and layer as they are. -/
def execRemapFaultClear (stack : BitVec 4) (by_ : RegAgent) : State → Result :=
  event powered fun s =>
    let w := devReg s (remapOff stack)
    writeReg s (remapOff stack) (mkRemap (rmState w) (rmLayer w) 0 false true) by_

/-- A layer-remap register after the block PROG has been copied. -/
def blockCopied (w : Word) (bad : Bool) : Word :=
  let p := rmProg w
  if p = 65535 then mkRemap 1 (rmLayer w) p true (rmFault w || bad)
  else mkRemap 1 (rmLayer w) (p + 1) false (rmFault w || bad)

/-- `REMAP_BLOCK_COPIED`: the block's marks go with it, and an uncorrectable error in it sets FAULT (R15). -/
def execRemapBlockCopied (stack : BitVec 4) : State → Result :=
  event powered fun s =>
    let w := devReg s (remapOff stack)
    if holdsRequests s || rmState w != 1 || rmDone w then s else
    let bad := s.poison.any (inLayerBlock stack.toNat (rmLayer w) (rmProg w))
    setDevReg (copyMarks s stack.toNat (rmLayer w) (rmProg w)) (remapOff stack) (blockCopied w bad)

/-- `REMAP_SWITCH_DONE`. -/
def execRemapSwitchDone (stack : BitVec 4) : State → Result :=
  event powered fun s =>
    let rest := s.dev.switching.filter fun k => k != stack.toNat
    { s with dev := { s.dev with switching := rest } }

/-! ### Channel controllers (01 R22 to R25) -/

/-- The age cap of a channel in controller clocks. -/
def ageCap (s : State) (chan : Nat) : Nat := (bitsOf (devReg s (0x30000 + 8 * chan)).toNat 0 10 + 1) * 16

/-- A request is queued at its channel (R23); a hint for its bank is dropped (R25). -/
def requestArrives (s : State) (chan : Nat) (r : ChanReq) : State :=
  let c := findChan s chan
  setChan s { c with
    reqs := c.reqs ++ [{ r with age := 0, capped := false }], hints := c.hints.filter fun h => h.1 != r.bank }

/-- `REQUEST_CAPPED` (R23). -/
def execRequestCapped (chan : BitVec 9) (idx : Nat) : State → Result :=
  event powered fun s =>
    let c := findChan s chan.toNat
    let cap (r : ChanReq) : ChanReq := if ageCap s chan.toNat ≤ r.age then { r with capped := true } else r
    setChan s { c with reqs := c.reqs.modify idx cap }

/-- Two requests may issue in either order (R24): neither is a near-bank command, and their banks or bytes differ. -/
def ChanReq.commutes (r q : ChanReq) : Bool :=
  !r.nbe && !q.nbe && !(r.bank == q.bank && r.row == q.row && decide (r.col < q.col + q.len) && decide (q.col < r.col + r.len))

/-- The index of the first request that meets a test and commutes with every older one. -/
def pickRequest (f : ChanReq → Bool) (older : List ChanReq) : List ChanReq → Option Nat
  | [] => none
  | r :: rest => if f r && older.all r.commutes then some older.length else pickRequest f (older ++ [r]) rest

/-- A request to the failing layer of a stack whose switch is in progress: its controller holds it (R16). -/
def heldBySwitch (s : State) (chan : Nat) (r : ChanReq) : Bool :=
  let stack := chan / 32
  s.dev.switching.contains stack &&
    inLayer stack (rmLayer (devReg s (0x20000 + 8 * stack))) (hbmLoc chan r.bank r.row r.col / 32)

/-- The request that issues next (R22 to R24): a capped one first, oldest first; else the oldest to an open row; else the
oldest. -/
def nextRequest (c : Chan) (cap : Nat) : Option Nat :=
  let late (r : ChanReq) : Bool := r.capped || decide (cap ≤ r.age)
  let hit (r : ChanReq) : Bool := c.opened.any fun o => o.1 == r.bank && o.2 == r.row
  let first := if c.reqs.isEmpty then none else some 0
  ((pickRequest late [] c.reqs).or (if c.reqs.any late then first else none)).or ((pickRequest hit [] c.reqs).or first)

/-- The place in a list of the k-th element that meets a test. -/
def nthWhere {α : Type} (f : α → Bool) (l : List α) (k : Nat) : Option Nat :=
  ((l.zipIdx.filter fun x => f x.1)[k]?).map (·.2)

/-- The controller issues: a request that no switch holds, whose row it opens; with none queued it acts on the oldest hint
that is younger than 64 clocks, or drops one whose bank has been opened (R16, R25). -/
def chanIssue (s : State) (chan : Nat) : State :=
  let c := findChan s chan
  let free (r : ChanReq) : Bool := !heldBySwitch s chan r
  match (nextRequest { c with reqs := c.reqs.filter free } (ageCap s chan)).bind (nthWhere free c.reqs) with
  | some k =>
    match c.reqs[k]? with
    | some r => setChan s { c with reqs := c.reqs.eraseIdx k, opened := insertKey r.bank r.row c.opened }
    | none => s
  | none =>
    match c.hints with
    | [] => s
    | (bank, row, age) :: rest =>
      let c := { c with hints := rest }
      setChan s (if hintEn s chan && age < 64 && c.acts bank then { c with opened := insertKey bank row c.opened } else c)

/-- The normal page policy closes the open row of a bank (R25). -/
def closeBank (s : State) (chan bank : Nat) : State :=
  let c := findChan s chan
  setChan s { c with opened := c.opened.filter fun o => o.1 != bank }

/-- The physical addresses, in units of 256 bytes or 1 KiB, that a descriptor maps to a row: where each starts, and its
length. -/
def rowUnits (w0 w1 : Word) (chan bank row : Nat) : List (Nat × Nat) :=
  let co := ((row - ilRowb w1) * 32 + bank) * 1024
  if !ilEn w0 || row < ilRowb w1 then [] else
  match ilMode w0 with
  | 0 => (List.range 4).map fun j => (ilBase w0 + ((co / 256 + j) * 512 + chan) * 256, 256)
  | 1 => if ilChan w1 = chan then [(ilBase w0 + co, 1024)] else []
  | 2 => if ilChan w1 = chan && ilBank w1 = bank then [(ilBase w0 + (row - ilRowb w1) * 1024, 1024)] else []
  | _ => []

/-- A held translation of a DEV page that has bytes of a row. -/
def TlbEntry.devRow (s : State) (e : TlbEntry) (chan bank row : Nat) : Bool :=
  let w := descWords s (pteIR e.pte)
  let lo := ptePPN e.pte * 65536
  pteDEV e.pte && pteLOC e.pte == 0 &&
    (rowUnits w.1 w.2 chan bank row).any fun u => decide (u.1 < lo + 2 ^ pageBits e.level) && decide (lo < u.1 + u.2)

/-- `STRIP_AHEAD_HINT` (R25): none is sent for a page marked DEV. -/
def execStripAheadHint (chan : BitVec 9) (bank : BitVec 5) (row : BitVec 16) : State → Result :=
  event clocked fun s =>
    if s.tlb.any fun e => e.devRow s chan.toNat bank.toNat row.toNat then s
    else hintArrives s chan.toNat bank.toNat row.toNat

/-- `HINT_EXPIRY` (R25): a hint not acted on within 64 clocks. -/
def execHintExpiry (chan : BitVec 9) (idx : Nat) : State → Result :=
  event powered fun s =>
    let c := findChan s chan.toNat
    match c.hints[idx]? with
    | some (_, _, age) => if 64 ≤ age then setChan s { c with hints := c.hints.eraseIdx idx } else s
    | none => s

/-! ### Links (01 R27 to R31) -/

def mapLink (s : State) (k : BitVec 4) (f : Link → Link) : State :=
  { s with dev := { s.dev with links := s.dev.links.set k.toNat (f (s.dev.links[k.toNat]'k.isLt)) k.isLt } }

/-- `LINK_LANE_LOSS` (R27). -/
def execLinkLaneLoss (link : BitVec 4) : State → Result :=
  event powered fun s => mapLink s link fun l => { l with lanes := 4 }

/-- A request that has no live link is sent on the one that R30 chooses among its links, if one is live now. -/
def Hop.resend (s : State) (h : Hop) : Hop :=
  let live := (h.link.map fun k => (liveLinks s h.links).contains k).getD false
  if live then h else { h with link := linkFor s h.links h.block }

/-- Every pending store of every hart changed. -/
def mapStores (s : State) (f : List PWrite → List PWrite) : State :=
  { s with gangs := s.gangs.map fun g =>
      { g with harts := g.harts.map fun h => { h with abuf := f h.abuf, cbuf := f h.cbuf } } }

/-- Requests in flight go on over the links that are live now (R31). -/
def resendAll (s : State) : State :=
  mapStores s fun b => b.map fun w => { w with hops := w.hops.map (Hop.resend s) }

/-- `LINK_FAILURE` (R31): its requests are resent on the other live links. -/
def execLinkFailure (link : BitVec 4) : State → Result :=
  event powered fun s => resendAll (mapLink s link fun l => { l with live := false })

/-- A slice that waits for a link looks again. -/
def Slice.relink (x : Slice) : Slice := if x.cond = .waiting .link then { x with cond := .running } else x

/-- What waits for a link looks again: slices, records at their ports and *resume* answers. -/
def recheckLinks (s : State) : State :=
  let s := { s with gangs := s.gangs.map fun g =>
      { g with harts := g.harts.map fun h => { h with as_ := h.as_.relink, cs := h.cs.relink } } }
  let s := if s.bed.pwr = 2 then s else
    s.heldReqs.foldl (fun s r => match r with
      | .record port off data => recordArrives s port off data
      | r => { s with heldReqs := s.heldReqs ++ [r] }) { s with heldReqs := [] }
  retryAnswers s

/-- A pending store without the bytes whose requests have no live link. -/
def PWrite.dropLost (w : PWrite) : PWrite :=
  let lost := (w.hops.filter fun h => h.link.isNone).map (·.block)
  { w with
    cells := w.cells.filter fun c => !(isPeer c.1 && lost.contains ((c.1 - 2 ^ 53) / 64))
    hops := w.hops.filter fun h => h.link.isSome }

/-- `LINK_LOSS_TIMEOUT` (R31): accesses to a destination with no live link left report MCHK; stores and additions are
dropped. -/
def execLinkLossTimeout : State → Result :=
  event powered fun s =>
    let lost := (List.range 64).filter (cutOff s)
    let s := mapStores s fun b => (b.map PWrite.dropLost).filter fun w => !w.cells.isEmpty
    recheckLinks { s with
      dev := { s.dev with linkLost := lost.foldr insertRising s.dev.linkLost }
      adds := s.adds.filter fun a => !(liveLinks s a.links).isEmpty }

/-- `LIVE_LINK_RETURN` (R31). -/
def execLiveLinkReturn (link : BitVec 4) : State → Result :=
  event powered fun s =>
    let s := resendAll (mapLink s link fun l => { l with live := true })
    recheckLinks (makeAdds { s with dev := { s.dev with linkLost := s.dev.linkLost.filter (cutOff s) } })

/-! ### Requests of peers (01 R28, R30, 16 R369) -/

/-- The smaller of two numbers of n bytes as signed ones, or the larger. -/
def signedPick (larger : Bool) (n x y : Nat) : Nat :=
  let less := decide (signExt (8 * n) x < signExt (8 * n) y)
  if less != larger then x else y

/-- What an atomic writes over the number at its place (14 R305, R320); a `cas` that finds another number writes nothing. -/
def atomicResult (x : AtomicOp) (old : Nat) : Option Nat :=
  let m := 2 ^ (8 * x.bytes)
  let y := x.operand.toNat % m
  match x.fn with
  | .add => some ((old + y) % m)
  | .swp => some y
  | .cas => if old = x.expected.toNat % m then some y else none
  | .and => some (old &&& y)
  | .or => some (old ||| y)
  | .xor => some (old ^^^ y)
  | .min => some (signedPick false x.bytes old y)
  | .max => some (signedPick true x.bytes old y)
  | .minu => some (min old y)
  | .maxu => some (max old y)
  | .fadd => some (addF32 old y)

/-- An atomic performed at its home. -/
def atomicAt (s : State) (l : List Nat) (x : AtomicOp) : State :=
  if l.any (poisoned s) then s else
  match atomicResult x (bytesToNat (homeRead s l)) with
  | some v => homeWrite s l (natToBytes v x.bytes)
  | none => s

/-- Serve a peer's request at its home here; an address without a home is answered without effect. -/
def servePeer (s : State) (r : PeerReq) : State :=
  let pa := r.addr.toNat
  match r.op with
  | .load _ => s
  | .store data =>
    match physLocs s pa data.length with
    | some l => homeWrite s l data
    | none => s
  | .atomic x =>
    match physLocs s pa x.bytes with
    | some l => atomicAt s l x
    | none => s
  | .addition n e =>
    match physLocs s pa 8 with
    | some l => completionAdd .peer pa 0 l (n.toNat % 2 ^ 63) e s
    | none => s

/-- `PEER_REQUEST`: held at the I/O die in retain (02 R50). -/
def execPeerRequest (r : PeerReq) : State → Result :=
  event powered fun s => if holdsRequests s then holdReq s (.peer r) else servePeer s r

/-! ### Requests of the host (01 R36, 16 R370, R371) -/

/-- The location of a byte as the host addresses it: through the descriptor that its decoder's region maps to (R36). -/
def hostByte (s : State) (pa : Nat) : Option Nat :=
  (s.dev.hostMap.find? fun r => decide (r.base ≤ pa) && decide (pa < r.base + r.size)).bind fun r =>
    let w := descWords s r.desc.toNat
    hbmMap w.1 w.2 pa

def hostLocs (s : State) (pa n : Nat) : Option (List Nat) := (List.range n).mapM fun k => hostByte s (pa + k)

/-- Serve a CXL.mem access: n bytes read, or the bytes written. -/
def serveHost (s : State) (pa : BitVec 52) (wr : Option (List Byte)) : State :=
  match wr with
  | none => s
  | some data =>
    match hostLocs s pa.toNat data.length with
    | some l => homeWrite s l data
    | none => s

/-- `HOST_CXL_MEM_ACCESS`: held in retain (02 R50). -/
def execHostCxlMemAccess (pa : BitVec 52) (n : Nat) (wr : Option (List Byte)) : State → Result :=
  event powered fun s => if s.bed.pwr = 2 then holdReq s (.host pa n wr) else serveHost s pa wr

/-- Serve a host atomic. On a page without SA it is a read now and a write put behind what stands on the agenda: an update
made in between is lost (R371). -/
def serveHostAtomic (s : State) (pa : BitVec 52) (sa : Bool) (x : AtomicOp) : State :=
  match hostLocs s pa.toNat x.bytes with
  | none => s
  | some l =>
    if sa then atomicAt s l x else
    match atomicResult x (bytesToNat (homeRead s l)) with
    | some v => { s with agenda := s.agenda ++ [.event (.hostCxlMemAccess pa x.bytes (some (natToBytes v x.bytes)))] }
    | none => s

/-- `HOST_ATOMIC`. -/
def execHostAtomic (pa : BitVec 52) (sa : Bool) (x : AtomicOp) : State → Result :=
  event powered fun s => if s.bed.pwr = 2 then holdReq s (.hostAtomic pa sa x) else serveHostAtomic s pa sa x

end Sys2Proof.Machine
end

