-- ==== Sys2Proof/Machine/EngineEv.lean ====
section
/-! DEFINITION. Events of the engines, of the siphon and of waiting harts (15 R342 to R345, R349, 03 R75, 05 R105, R109,
R110, 11 R229, R251, 16 R358, R361, R362). -/

namespace Sys2Proof.Machine

/-! ### Copies and collectives (15 R342 to R345, 01 R32 to R34) -/

/-- An operation whose translation fault awaits an answer. -/
def faulted? (s : State) (op : Nat) : Option Op := (findOp s op).bind fun o => if o.tfault.isSome then some o else none

/-- `OP_FAULT_RESUME`: the operation translates again when it goes on. -/
def execOpFaultResume (op : Nat) : State → Result :=
  event powered fun s =>
    match faulted? s op with
    | some _ => mapOp s op fun o => { o with tfault := none }
    | none => s

/-- `OP_FAULT_FAIL`: a collective ends in error in every member here. -/
def execOpFaultFail (op : Nat) : State → Result :=
  event powered fun s =>
    match faulted? s op with
    | some o =>
      match o.body with
      | .coll id num _ =>
        match findColl s id num with
        | some c => endColl s c true true
        | none => endOp s o true
      | _ => endOp s o true
    | none => s

/-- Run a copy that awaits no answer. -/
def copyPart (s : State) (op : Nat) (n : Nat) (finish needsArr : Bool) : State :=
  match findOp s op with
  | some o =>
    match o.body with
    | .copy d => if o.tfault.isSome || (needsArr && d.arr = 0) then s else runCopy s o d n finish
    | _ => s
  | none => s

/-- `ARRIVAL_COUNTER_ADDITION` (R344): after a group of at most n further elements. -/
def execArrivalCounterAddition (op n : Nat) : State → Result := event clocked fun s => copyPart s op n false true

/-- `COPY_COMPLETE` (R342): the rest of the copy, and its end. -/
def execCopyComplete (op : Nat) : State → Result :=
  event clocked fun s =>
    match findOp s op with
    | some o =>
      match o.body with
      | .copy d => copyPart s op d.total true false
      | _ => s
    | none => s

/-- Every member of a route has issued, here or in its own package, and no member here awaits an answer. -/
def CollOp.ready (c : CollOp) (s : State) (r : List (BitVec 8)) (remote : List RemoteMember) : Bool :=
  !c.ended && ((c.ops s).all fun o => o.tfault.isNone) &&
    r.zipIdx.all fun (p, j) =>
      if p.toNat = s.dev.pkg.toNat then c.members.any fun m => m.1 == j else remote.any fun x => x.memb == j

/-- The elements a member of another package must supply. -/
def remoteOk (d : CollDesc) (x : RemoteMember) : Bool :=
  (d.op = 2 && x.memb != d.root) || x.elems.length == d.count

/-- Complete a collective that is ready: in error where members disagree. -/
def completeColl (s : State) (c : CollOp) (r : List (BitVec 8)) (remote : List RemoteMember) : State :=
  let mine := localMembers s c r
  let others := remote.filter fun x => (r[x.memb]?).any fun p => p.toNat != s.dev.pkg.toNat
  match mine with
  | [] => s
  | (_, _, d) :: _ =>
    if !(mine.all fun x => collAgree r.length d x.2.2) || !(others.all (·.agrees)) then endColl s c true true
    else if !(others.all (remoteOk d)) then s
    else runColl s c r d others

/-- `COLLECTIVE_COMPLETE` (R345). -/
def execCollectiveComplete (id : BitVec 8) (num : Nat) (remote : List RemoteMember) : State → Result :=
  event clocked fun s =>
    match findColl s id.toNat num with
    | some c =>
      match c.route with
      | some r => if c.ready s r remote then completeColl s c r remote else s
      | none => s
    | none => s

/-! ### Near-bank verdicts (15 R349) -/

/-- The digests of the code objects that notices name for a program of a code object under an address space. -/
def askedVerdicts (s : State) (code : Word) (asid : BitVec 16) (prog : Nat) : List (BitVec 512) :=
  (s.notices.filter fun n => n.kind == .nbeVerdict
      && (n.words.drop 1).take 3 == [code, asid.setWidth 64, BitVec.ofNat 64 prog]).filterMap fun n =>
    (n.words[4]?).bind fun id => (findLaunchId s id.toNat).map (·.digest)

/-- `NBE_VERDICT`: once for a program that a notice names. A program that the owner lets run is looked at before its first
run. -/
def execNbeVerdict (code : Word) (asid : BitVec 16) (prog : BitVec 8) (ok : Bool) : State → Result :=
  event powered fun s =>
    match (askedVerdicts s code asid prog.toNat).find? fun d => (verdictOf s d prog.toNat).isNone with
    | some d => setVerdict s d prog.toNat (if ok then .answered else .refused)
    | none => s

/-! ### Cold text (03 R75) -/

/-- The page that a slice waits for. -/
def Cond.coldPage? : Cond → Option Nat
  | .waiting (.coldText page) => some page
  | _ => none

/-- A slice that waits for cold text looks again. -/
def Slice.refetch (x : Slice) : Slice := if x.cond.coldPage?.isSome then { x with cond := .running } else x

def recheckCold (s : State) : State :=
  { s with gangs := s.gangs.map fun g =>
      { g with harts := g.harts.map fun h => { h with as_ := h.as_.refetch, cs := h.cs.refetch } } }

/-- The entry of a page copied into local HBM: LOC local HBM, COLD 0, the new frame and its descriptor. -/
def warmPte (p : Word) (ir : BitVec 6) (ppn : BitVec 36) : Word :=
  (p &&& 0xFC0000000000F1FF#64) ||| BitVec.ofNat 64 (ppn.toNat * 2 ^ 16 + ir.toNat * 2 ^ 52)

/-- Which wait of a hart a copy of a cold page ends: that of a slice, or that of the checks on a *resume* answer in a slice
(09 R186). -/
inductive ColdWait where
  | slice (sl : SliceId)
  | answer (tape : Option (Word × Word)) (sl : SliceId)
  deriving DecidableEq, Repr

/-- The slice whose checks wait for a page as a hart takes an answer. -/
def answerCold (s : State) (g hid page : Nat) : Option SliceId :=
  let waits (sl : SliceId) (s : State) : Bool :=
    match resumeChecked s g hid sl with
    | .error (.coldText p) => p == page
    | _ => false
  match resumeChecked s g hid .as with
  | .ok s1 => if waits .cs s1 then some .cs else none
  | .error _ => if waits .as s then some .as else none

/-- A hart as an answer that stands leaves it. -/
def withAnswer (s : State) (g hid : Nat) (tape : Option (Word × Word)) : State :=
  mapHart s g hid fun h => { h.answered tape with answer := none }

/-- The wait of a hart of a resident gang for a page. -/
def coldWait (s : State) (g hid page : Nat) : Option ColdWait :=
  match findGang s g, findHart s g hid with
  | some x, some h =>
    if x.st != .resident || !(h.mode = .active || h.mode = .debugHalt) then none
    else if h.as_.cond.coldPage? = some page then some (.slice .as)
    else if h.cs.cond.coldPage? = some page then some (.slice .cs)
    else if h.mode = .active then
      h.answer.bind fun tape => (answerCold (withAnswer s g hid tape) g hid page).map (.answer tape)
    else none
  | _, _ => none

/-- A failed copy: MCHK in the fetching slice. -/
def coldFailed (s : State) (g hid : Nat) (w : ColdWait) (va : Nat) : State :=
  let t : TrapInfo := { cause := cMCHK, eaddr := BitVec.ofNat 64 va }
  match w with
  | .slice sl => takeTrap s g hid sl none t
  | .answer tape sl => takeTrap (withAnswer s g hid tape) g hid sl none t

/-- A page copied from host memory to its new frame, its entry rewritten. -/
def coldCopied (s : State) (e : TlbEntry) (src dst : List Nat) (ir : BitVec 6) (ppn : BitVec 36) : State :=
  let s := homeWrite s dst (homeRead s src)
  let s := homeWrite s (locRange e.pteLoc 8) (natToBytes (warmPte e.pte ir ppn).toNat 8)
  retryAnswers (recheckCold { s with tlb := s.tlb.filter fun x => x.pteLoc != e.pteLoc })

/-- The new frame's locations. -/
def frameLocs (s : State) (ir : BitVec 6) (ppn : BitVec 36) : Option (List Nat) :=
  let w := descWords s ir.toNat
  (List.range 65536).mapM fun k => hbmMap w.1 w.2 (ppn.toNat * 65536 + k)

/-- The cold page of an address: its leaf, of level 3 (log 147), and the page's bytes in host memory. -/
def coldPage (x : Xlat) (va : Nat) : M (TlbEntry × List Nat) := do
  let e ← leafFor x .fetch va va
  if !pteCOLD e.pte || e.level != 3 then trap cPROT else
  let page := va / 65536 * 65536
  let src ← physAccess .load e.pte (leafPa e page) page 65536
  pure (e, src)

/-- `COLD_TEXT_COPIED`: the page of `va`, which a slice of the hart waits for; `reachable` tells whether host memory
answered. -/
def execColdTextCopied (gang : Nat) (hid : BitVec 4) (va : Word) (ir : BitVec 6) (ppn : BitVec 36)
    (reachable : Bool) : State → Result :=
  event powered fun s =>
    match coldWait s gang hid.toNat (va.toNat / 65536) with
    | none => s
    | some w =>
      match tried (coldPage (hartXlat s gang hid.toNat) va.toNat) s with
      | (.ok (e, src), s) =>
        if !reachable then coldFailed s gang hid.toNat w va.toNat else
        match src.findIdx? (poisoned s) with
        | some k => coldFailed s gang hid.toNat w (va.toNat / 65536 * 65536 + k)
        | none =>
          match frameLocs s ir ppn with
          | some dst => coldCopied s e src dst ir ppn
          | none => s
      | (_, s) => s

/-! ### Waiting harts (05 R105, 11 R229, R251) -/

/-- A slice is at a queue push or pop. -/
def atQueue (c : Cond) : Bool := c == .waiting .queue

/-- `QDEADLOCK_EXPIRY` (05 R105): the AS takes it. -/
def execQdeadlockExpiry (gang : Nat) (hid : BitVec 4) : State → Result :=
  event awake fun s =>
    match findHart s gang hid.toNat with
    | some h =>
      if h.mutual && 65536 ≤ h.waitCount then
        let info : Word := BitVec.ofNat 64 ((atQueue h.as_.cond).toNat + (atQueue h.cs.cond).toNat * 2)
        takeTrap s gang hid.toNat .as none { cause := cQDEADLOCK, einfo := info } true
      else s
    | none => s

/-- `WAIT_RECHECK` (11 R229, 15 R348). -/
def execWaitRecheck (gang : Nat) (hid : BitVec 4) : State → Result :=
  event awake fun s =>
    mapHart s gang hid.toNat fun h =>
      if h.mode = .active && (h.as_.cond == .waiting .word || h.as_.cond == .waiting .cwait) then
        h.setCond .as .running
      else h

/-- The oldest of a list of arrivals that waits for no older store of a buffer. -/
def firstFree (l : List (Nat × Nat)) (buf : List PWrite) : Option Nat :=
  l.findIdx? fun m => buf.all fun w => decide (m.2 ≤ w.seq)

/-- A marker of `garr` fires, or an arrival of the AS that was held is counted (11 R251). -/
def Hart.fireMarker (h : Hart) : Option Hart :=
  match firstFree h.markers h.cbuf, firstFree h.asHeld h.abuf with
  | some k, _ => some { h with markers := h.markers.eraseIdx k }
  | none, some k => some { h with asHeld := h.asHeld.eraseIdx k }
  | none, none => none

/-- `GARR_MARKER_FIRE` (11 R251): while the hart holds its place. It counts held arrivals of the AS too. -/
def execGarrMarkerFire (gang : Nat) (hid : BitVec 4) : State → Result :=
  event clocked fun s =>
    match findGang s gang, findHart s gang hid.toNat with
    | some g, some h =>
      if g.st != .resident then s else
      match h.fireMarker with
      | some h' => mapGang (mapHart s gang hid.toNat fun _ => h') gang Gang.advance
      | none => s
    | _, _ => s

/-! ### Stores reaching their homes (16 R358, R361, R362) -/

/-- The pending store idx of a buffer can be performed: its instruction adds nothing to it (19 R383), a link carries it
(01 R31), and it may pass those that are older. -/
def mayPerform (sl : SliceId) (buf : List PWrite) (idx : Nat) (w : PWrite) : Bool :=
  !w.open_ && !w.cutOff && (buf.take idx).all fun older => mayPass sl older w

/-- `WRITE_PERFORMED_AT_HOME`. -/
def execWritePerformedAtHome (gang : Nat) (hid : BitVec 4) (agent : SliceId) (idx : Nat) : State → Result :=
  event powered fun s =>
    match findHart s gang hid.toNat with
    | some h =>
      match (h.buf agent)[idx]? with
      | some w =>
        if mayPerform agent (h.buf agent) idx w then
          mapHart (performWrite s w) gang hid.toNat fun h => h.setBuf agent ((h.buf agent).eraseIdx idx)
        else s
      | none => s
    | none => s

/-! ### The siphon (05 R109, R110) -/

/-- The record of a fault that the siphon met at position p. -/
def walkFault (t : TrapInfo) (p : Nat) : DFault :=
  let t := streamFault t
  { cause := t.cause, va := t.eaddr, info := t.einfo, pos := p }

/-- What the siphon reads of one element ahead. -/
inductive Ahead where
  | stop
  | read (cells : List (Nat × Byte)) (next : Nat)

/-- Read the bytes of an element ahead of use; nothing on a DEV page, nor where a reverse load would read: what the siphon
fetched there it discards, poison included (21 R389). -/
def readAhead (a : ElemAt) : M (Option (List (Nat × Byte))) := do
  let here ← hereM
  let f ← locate (hartXlat (← get) here.gang here.hid) .load a.va a.bytes
  if f.dev then pure none else
  if (← hartM).revTouch a then pure (some []) else
  let b ← readLocs (← hartM).cbuf f.locs a.va
  pure (some ((List.range a.bytes).map (a.va + ·) |>.zip b))

/-- Whether an element lies within 64 KiB of the one at the position, and below the arrival counter last observed. -/
def mayRead (d : Desc) (st : Stream) (p n : Nat) : Bool :=
  let here := (d.elemAt st.pos n).va
  let there := (d.elemAt p n).va
  (decide (here ≤ there) && decide (there - here < 65536) || decide (there ≤ here) && decide (here - there < 65536))
    && (match st.cover with
        | none => true
        | some c => decide (ceilDiv ((if d.kind = 2 then d.boff + p else n * p) + n) 8 ≤ c))

/-- Read the element at position p of a load stream. -/
def walkElem (d : Desc) (st : Stream) (p : Nat) : M Ahead := do
  let one (n : Nat) : M Ahead := do
    if d.len < p + (if d.kind = 2 then n else 1) || !mayRead d st p n then pure .stop else
    match ← readAhead (d.elemAt p n) with
    | none => pure .stop
    | some cells => pure (.read cells (p + if d.kind = 2 then n else 1))
  if d.kind = 2 then
    if d.len < p + 2 || !mayRead d st p 2 then pure .stop else
    let a := d.elemAt p 2
    match ← readAhead a with
    | none => pure .stop
    | some cells => one (codeLen d.fmt (bitsOf (bytesToNat (cells.map (·.2))) a.off 2))
  else one (fmtWidth d.fmt)

/-- Translate the pages of n bits of the element at position p, reading nothing; whether the siphon goes on, which it does
not at a DEV page. -/
def translateAhead (x : Xlat) (d : Desc) (p n : Nat) : M Bool := do
  let a := d.elemAt p n
  let acc : Acc := if d.wr then .store else .load
  if inWindowSpan a.va || !canonical a.va then return true
  let e ← pageLeaf x acc true a.va a.va
  if pteDEV e.pte then return false
  let va2 := a.va / 65536 * 65536 + 65536
  if a.va + a.bytes ≤ va2 || !canonical va2 then return true
  return !pteDEV (← pageLeaf x acc true va2 a.va).pte

/-- What the siphon translates of a store stream at position p, and the position after: an element, or of a KIND 2 stream
the byte at p, since the lengths of its codes are not known before they are stored. -/
def storeAhead (d : Desc) (p : Nat) : Nat × Nat :=
  if d.kind = 2 then (1, p + 8 - (d.elemAt p 1).off) else (fmtWidth d.fmt, p + 1)

/-- How many pages a stream goes on to from the element at one position to that at another. -/
def Desc.pagesTo (d : Desc) (pos p : Nat) : Nat :=
  let page (k : Nat) : Nat := (d.elemAt k 1).va / 65536
  if d.kind = 1 then ((List.range (p - pos)).filter fun k => page (pos + k) != page (pos + k + 1)).length
  else (page p + 2 ^ 48 - page pos) % 2 ^ 48

/-- Positions a stream holds from p on. -/
def Desc.holds (d : Desc) (p : Nat) : Bool := if d.kind = 2 then p + 2 ≤ d.len else p < d.len

/-- One action of the siphon on an adopted descriptor: it holds translations for the next 4 pages (R109). -/
def walkAdopted (s : State) (g hid : Nat) (r : BitVec 5) (st : Stream) (d : Desc) : State :=
  let p := max st.ahead st.pos
  if st.dfault.isSome || !d.holds p then s else
  let put (s : State) (f : Stream → Stream) : State := mapHart s g hid fun h => h.setStream r (f (h.stream r))
  if d.wr then
    if 4 < d.pagesTo st.pos p then s else
    match tried (translateAhead (hartXlat s g hid) d p (storeAhead d p).1) s with
    | (.ok goes, s) => put s fun st => { st with ahead := if goes then (storeAhead d p).2 else p }
    | (.trap t, s) => put s fun st => { st with dfault := some (walkFault t p) }
    | (.wait _, s) => s
  else
    let r1 := tried (walkElem d st p) { s with cur := .slice g hid .cs }
    let s1 := { r1.2 with cur := s.cur }
    match r1.1 with
    | .ok (.read cells next) => put s1 fun st => { st with walk := st.walk ++ cells, ahead := next }
    | .ok .stop => s1
    | .trap t => put s1 fun st => { st with dfault := some (walkFault t p) }
    | .wait _ => s1

/-- The siphon translates the first page of the oldest queued descriptor. -/
def walkQueued (s : State) (g hid : Nat) (r : BitVec 5) (st : Stream) : State :=
  match st.queue with
  | q :: rest =>
    if q.dfault.isSome || !q.desc.holds 0 then s else
    let n := if q.desc.kind = 2 then 2 else fmtWidth q.desc.fmt
    match tried (translateAhead (hartXlat s g hid) q.desc 0 n) s with
    | (.trap t, s) =>
      mapHart s g hid fun h => h.setStream r { h.stream r with queue := { q with dfault := some (walkFault t 0) } :: rest }
    | (_, s) => s
  | [] => s

/-- `SIPHON_WALK_AHEAD`. -/
def execSiphonWalkAhead (gang : Nat) (hid : BitVec 4) (stream : BitVec 4) : State → Result :=
  event awake fun s =>
    match findGang s gang, findHart s gang hid.toNat with
    | some g, some h =>
      if g.st != .resident || !(h.mode = .active || h.mode = .draining) then s else
      let r : BitVec 5 := stream.setWidth 5
      let st := h.stream r
      match st.adopted with
      | some d => if d.holds (max st.ahead st.pos) && st.dfault.isNone then walkAdopted s gang hid.toNat r st d
                  else walkQueued s gang hid.toNat r st
      | none => walkQueued s gang hid.toNat r st
    | _, _ => s

end Sys2Proof.Machine
end

