-- ==== Sys2Proof/Machine/Power.lean ====
section
/-! DEFINITION. Boot, power states, debug, attestation and admission requests (02 R38 to R54, 01 R37). -/

namespace Sys2Proof.Machine

/-! ### Boot and power (R40, R46, R48) -/

/-- The digest of a signed object (R39). -/
def imageDigest (x : Signed) : BitVec 512 := shake256 x.bytes

/-- A signature holds under a key. -/
def signedBy (key : Config.Key) (x : Signed) : Bool := verifiesDigest key (imageDigest x) x.sig

/-- A certificate that bedrock accepts: its signature holds and it is bound to the device identity (R46). -/
def certAccepted (key : Config.Key) (c : Option Signed) : Bool :=
  match c with
  | some x => signedBy key x && Config.certBound x.bytes
  | none => false

/-- The security state chosen at cold reset (R46). -/
def secChoice (b : BootInputs) : BitVec 2 :=
  if !b.provisioned || certAccepted .odrek b.returnCert then 2 else if certAccepted .owner b.ownerCert then 1 else 0

/-- How many boot steps pass (R40): the patch under the root key and counter 0, the boot configuration, the survey firmware
under counter 1 (log 148). -/
def bootStage (fuses : Vector Nat 32) (b : BootInputs) : Nat :=
  if !(signedBy .root b.patch && fuses[0] ≤ b.patch.version) then 0
  else if !signedBy .odrek b.config then 1
  else if !(signedBy .odrek b.survey && fuses[1] ≤ b.survey.version) then 2
  else 3

/-- A survey core released at its firmware's entry. -/
def Survey.released (entry : Word) : Survey := { Survey.reset with mode := .running, pc := entry &&& ~~~(3#64) }

/-- Bedrock after so many boot steps; the fuses stand. -/
def bootBedrock (fuses : Vector Nat 32) (b : BootInputs) (stage : Nat) : Bedrock :=
  { Bedrock.reset with
    stage := stage
    sec := secChoice b
    fuses := fuses
    duty := if 2 ≤ stage then b.duty else 0
    patchDigest := if 1 ≤ stage then imageDigest b.patch else 0
    configDigest := if 2 ≤ stage then imageDigest b.config else 0
    surveyDigest := if 3 ≤ stage then imageDigest b.survey else 0 }

/-- The units outside the harts after so many boot steps: the boot configuration in force from the second on, the survey
firmware loaded and its cores released by the third. Whether host memory answers is the host's. -/
def bootDevice (hostUp : Bool) (b : BootInputs) (stage : Nat) : Device :=
  let d := { Device.reset with hostUp := hostUp }
  let d := if 2 ≤ stage then { d with cavernMiB := max 64 (min 192 b.cavernMiB), pkg := b.pkg } else d
  if stage = 3 then
    { d with
      firmware := b.survey.bytes, firmwareBase := b.textBase, firmwareEntry := b.entry
      surveys := Vector.replicate 4 (Survey.released b.entry) }
  else d

/-- The part after a cold reset: every register at its reset value, the boot sequence run. Memory, its poison marks and
the fuses stand (log 34). -/
def coldReset (s : State) (b : BootInputs) : State :=
  let stage := bootStage s.bed.fuses b
  { State.reset with
    agenda := s.agenda
    freeCtr := s.freeCtr
    mem := s.mem
    poison := s.poison
    bed := bootBedrock s.bed.fuses b stage
    dev := bootDevice s.dev.hostUp b stage }

/-- `COLD_RESET`. -/
def execColdReset (b : BootInputs) (s : State) : Result := .next (coldReset s b)

/-- A location outside the device: of the host or of a peer. -/
def isOutside (loc : Nat) : Bool := 2 ^ 52 ≤ loc

/-- `POWER_OFF` (R48): keys, cache, contexts and the device's memory are gone; the fuses stand, and so does what lies in
the host and in peers. -/
def execPowerOff (s : State) : Result :=
  .next
    { State.reset with
      agenda := s.agenda
      freeCtr := s.freeCtr
      mem := s.mem.filter fun c => isOutside c.1
      poison := s.poison.filter fun u => isOutside (32 * u)
      dev := { Device.reset with hostUp := s.dev.hostUp }
      bed := { Bedrock.reset with off := true, keys := false, fuses := s.bed.fuses } }

/-- `IDLE_ENTRY`. -/
def execIdleEntry : State → Result := event awake fun s => { s with bed := { s.bed with pwr := 1 } }

/-! ### Retain (R48 to R50) -/

/-- The gangs in place with a hart halted by debug. -/
def haltedGangs (s : State) : List Nat :=
  (s.gangs.filter fun g => g.st == .resident && g.harts.any fun h => h.mode == .debugHalt).map (·.id)

/-- Stop a hart of a gang that the entry saves: a halted hart cooperatively, and one that has not stopped by force. One
that has yielded goes on draining (04 R89). -/
def convertHart (s : State) (g h : Nat) : State :=
  match findHart s g h with
  | some x =>
    match x.mode with
    | .debugHalt => beginSave s g h true
    | .active => beginSave s g h x.isWaiting
    | _ => s
  | none => s

def convertGang (s : State) (g : Nat) : State :=
  match findGang s g with
  | some x => if x.st = .resident then (List.range x.harts.length).foldl (fun s h => convertHart s g h) s else s
  | none => s

/-- The survey cores that debug halted are reset: they begin at their firmware's entry again (log 149). -/
def resetHalted (s : State) : State :=
  let restart (x : Survey) : Survey := if x.mode = .halted then Survey.released s.dev.firmwareEntry else x
  { s with dev := { s.dev with surveys := s.dev.surveys.map restart } }

/-- A stopped hart counts as waiting: with a request posted its save begins (04 R91). -/
def stopPosted (s : State) (g h : Nat) : State :=
  match findHart s g h with
  | some x => if ypP x && x.mode = .active then beginSave s g h true else s
  | none => s

/-- The stores of the harts in place are performed at their homes. -/
def performStores (s : State) : State :=
  (hartsInPlace s).foldl (fun s (g, h) =>
    drainBuf (drainBuf (mapHart s g h (·.closeStores)) g h .as) g h .cs) s

/-- The entry begins: debug halts are converted, every other hart stops where it stands (log 150). -/
def retainBegin (s : State) : State :=
  let s := { s with bed := { s.bed with retainPending := true, converting := haltedGangs s } }
  let s := s.bed.converting.foldl convertGang s
  (hartsInPlace s).foldl (fun s x => stopPosted s x.1 x.2) s

/-- Run the copies, and the collectives whose members all lie here and have all issued, to their end. -/
def runEngines (s : State) : State :=
  let s := s.ops.foldl (fun s o => match o.body with | .copy d => copyPart s o.id d.total true false | _ => s) s
  s.colls.foldl (fun s c =>
    match c.route with
    | some r =>
      if (r.all fun p => p.toNat == s.dev.pkg.toNat) && c.ready s r [] then completeColl s c r [] else s
    | none => s) s

/-- Nothing holds the entry up: the converted gangs are saved, no copy is left, no copy or collective awaits an answer,
the near-bank engines are idle, and every store of a hart in place has been performed. -/
def retainReady (s : State) : Bool :=
  (s.bed.converting.all fun g => ((findGang s g).map (·.st != .resident)).getD true)
    && (s.ops.all fun o => o.tfault.isNone && (match o.body with | .copy _ => false | _ => true))
    && s.nbes.isEmpty
    && (hartsInPlace s).all fun x =>
      ((findHart s x.1 x.2).map fun h => h.abuf.isEmpty && h.cbuf.isEmpty).getD true

/-- The entry completes: no hart and no survey core remains halted (R49). -/
def retainComplete (s : State) : State :=
  let s := resetHalted s
  { s with bed := { s.bed with pwr := 2, dbg := 0, retainPending := false, converting := [] } }

/-- `RETAIN_ENTER`: it goes on with an entry that something has held up. A hart whose draining ended in a trap has not
stopped, and stops now. -/
def execRetainEnter : State → Result :=
  event (fun s => powered s && s.bed.pwr.toNat ≤ 1) fun s =>
    let s := if s.bed.retainPending then s.bed.converting.foldl convertGang s else retainBegin (wakeIdle s)
    let s := performStores (runEngines s)
    if retainReady s then retainComplete s else s

/-- Serve a held request. -/
def serveHeld (s : State) (r : HeldReq) : State :=
  match r with
  | .record port off data => recordArrives s port off data
  | .peer r => servePeer s r
  | .host pa _ wr => serveHost s pa wr
  | .hostAtomic pa sa x => serveHostAtomic s pa sa x

/-- `RETAIN_EXIT`: every wait object is observed again, and what was held is served in arrival order. -/
def execRetainExit : State → Result :=
  event (fun s => powered s && s.bed.pwr == 2) fun s =>
    let s := { s with bed := { s.bed with pwr := 0 } }
    let s := (s.launches.map (·.id)).foldl (fun s id =>
      match findLaunchId s id with
      | some l => observeWait s l true
      | none => s) s
    s.heldReqs.foldl serveHeld { s with heldReqs := [] }

/-! ### The core clock (01 R37) -/

/-- `POWER_LIMIT_EXCEEDED`: one step of 100 MHz, to no less than 800 MHz. -/
def execPowerLimitExceeded : State → Result := event powered fun s => { s with clock := max 8 (s.clock - 1) }

/-- `CLOCK_RAISE`: one step, to no more than 1.6 GHz. -/
def execClockRaise : State → Result := event powered fun s => { s with clock := min 16 (s.clock + 1) }

/-! ### Debug (R47, R49, R51) -/

/-- The highest level a security state permits. -/
def debugMax (sec : BitVec 2) : Nat := if sec = 2 then 3 else if sec = 1 then 2 else 1

/-- `DEBUG_REQUEST`, granted in every power state, which it leaves as it is (log 164). -/
def execDebugRequest (level : BitVec 2) : State → Result :=
  event powered fun s =>
    let b := s.bed
    if debugMax b.sec < level.toNat && b.dbg.toNat ≤ level.toNat then s else
    { s with bed := { b with
        dbg := level
        hidbg := if b.hidbg.toNat < level.toNat then level else b.hidbg
        keys := b.keys && level != 3 } }

/-- Whether a request on a hart is granted: at invasive-hart debug, in Owner-debug for the owner's harts only. -/
def debugsHart (s : State) (owner : BitVec 16) (gang : Nat) : Bool :=
  decide (2 ≤ s.bed.dbg.toNat) &&
    (s.bed.sec == 2 || (s.bed.sec == 1 && ((findLaunch s gang).map fun l => ctxOwner l.ctx == owner).getD false))

/-- Bits of a part of 64 that lie below a limit. -/
def partBelow (limit k : Nat) : Nat := min 64 (limit - 64 * k)

/-- What a debug read of a hart returns (R47). -/
def debugRead (s : State) (vrlen : Nat) (h : Hart) (r : DebugReg) : Word :=
  let part (x k : Nat) : Word := BitVec.ofNat 64 (bitsOf x (64 * k) 64)
  match r with
  | .scalar sl r => h.getReg sl r
  | .pc sl => (h.slice sl).pc
  | .ctl sl n => readCtl s vrlen h sl n.toNat
  | .fill r => BitVec.ofNat 64 (h.vreg r).fill
  | .vector r k => part (h.vreg r).bits k
  | .mask r k =>
    if r = 0 then part (2 ^ (4 * vrlen) - 1) k
    else if r = 8 then part h.mdone k
    else if r = 9 then part h.mfault k
    else part ((h.m[r.toNat]?).getD 0) k
  | .tile r k => part (h.tile r.toNat) k

/-- A hart after a debug write (R47). A control register takes it as from a `setc` of its slice (log 151). -/
def debugWrite (vrlen : Nat) (h : Hart) (r : DebugReg) (v : Word) : Hart :=
  let put (limit x k : Nat) : Nat := putBits x (64 * k) (partBelow limit k) v.toNat
  match r with
  | .scalar sl r => h.setReg sl r v
  | .pc sl => h.setPc sl (v &&& ~~~(1#64))
  | .ctl sl n => if accessOf sl n.toNat = .rw then h.writeCtl vrlen sl n.toNat v else h
  | .fill r => h.setVreg r ((h.vreg r).withFill (min v.toNat (8 * vrlen)))
  | .vector r k => h.setVreg r { h.vreg r with bits := put (h.vreg r).fill (h.vreg r).bits k }
  | .mask r k =>
    if r = 8 then { h with mdone := put (4 * vrlen) h.mdone k }
    else if r = 9 then { h with mfault := put (4 * vrlen) h.mfault k }
    else h.setMask r.toNat (put (4 * vrlen) ((h.m[r.toNat]?).getD 0) k)
  | .tile r k => h.setTile r.toNat (put 131072 (h.tile r.toNat) k)

/-- A debug read's value kept, if there is one. -/
def debugReturns (s : State) (v : Option Word) : State := { s with bed := { s.bed with debugOut := v } }

/-- What some bytes give a debug read: at most 8 of them. -/
def debugBytes (r : Tried (List Byte)) : Option Word :=
  match r with
  | .ok b => some (BitVec.ofNat 64 (bytesToNat b))
  | _ => none

/-- Memory read for a hart by debug: through its page tables, without its windows (07 R393), with its own pending scalar
stores (log 151). -/
def debugLoad (s : State) (gang hid : Nat) (va n : Nat) : M (List Byte) := do
  let f ← locateCtx (hartXlat s gang hid).noWindows .load va (min n 8)
  readLocs (((findHart s gang hid).map (·.abuf)).getD []) f.locs va

/-- Memory written for a hart by debug, at its home. -/
def debugStore (s : State) (gang hid : Nat) (va : Nat) (data : List Byte) : M Unit := do
  let b := data.take 8
  writeFound (← locateCtx (hartXlat s gang hid).noWindows .store va b.length) b

/-- A hart halted by debug; with a request posted its save begins (04 R91). -/
def debugHalt (s : State) (gang hid : Nat) (h : Hart) : State :=
  if h.mode = .active && !holdsRequests s then
    stopIfWaiting (mapHart s gang hid fun h => { h with mode := .debugHalt }) gang hid
  else s

/-- A step of a halted hart: a turn of each slice, then a halt. -/
def debugStep (s : State) (owner : BitVec 16) (gang : Nat) (hid : BitVec 4) : State :=
  let turn (sl : SliceId) : Move := .turn (.slice gang hid.toNat sl)
  let s := takeAnswer (mapHart s gang hid.toNat fun h => { h with mode := .active }) gang hid.toNat
  { s with agenda := [turn .as, turn .cs, .event (.debugHaltRequest owner (.hart gang hid) .halt)] ++ s.agenda }

/-- A debug request on a hart (R47): it reads and writes a running hart too (log 152). -/
def debugHart (s : State) (owner : BitVec 16) (gang : Nat) (hid : BitVec 4) (act : DebugAct) : State :=
  match findHart s gang hid.toNat with
  | none => s
  | some h =>
    let vrlen := ((findLaunch s gang).map (·.vrlen)).getD 4096
    match act with
    | .halt => debugHalt s gang hid.toNat h
    | .step => if h.mode = .debugHalt && !holdsRequests s then debugStep s owner gang hid else s
    | .read r => debugReturns s (some (debugRead s vrlen h r))
    | .write r v => mapHart s gang hid.toNat fun h => debugWrite vrlen h r v
    | .memRead va n =>
      let r := tried (debugLoad s gang hid.toNat va.toNat n) s
      debugReturns r.2 (debugBytes r.1)
    | .memWrite va data => (tried (debugStore s gang hid.toNat va.toNat data) s).2

/-- A debug request on a survey core, at firmware debug: its memory is what the core reaches (log 12). -/
def debugSurvey (s : State) (owner : BitVec 16) (k : BitVec 2) (act : DebugAct) : State :=
  let x := surveyOf s k.toNat
  match act with
  | .halt =>
    if x.mode = .running && !holdsRequests s then mapSurvey s k.toNat fun x => { x with mode := .halted } else s
  | .step =>
    if x.mode = .halted && !holdsRequests s then
      let s := mapSurvey s k.toNat fun x => { x with mode := .running }
      { s with agenda :=
          [.turn (.survey k.toNat), .event (.debugHaltRequest owner (.survey k) .halt)] ++ s.agenda }
    else s
  | .read _ => s
  | .write _ _ => s
  | .memRead va n =>
    let r := tried (surveyLoad va.toNat (min n 8)) s
    debugReturns r.2 (debugBytes r.1)
  | .memWrite va data => (tried (surveyStore va.toNat (data.take 8)) s).2

/-- `DEBUG_HALT_REQUEST`, performed in every power state, which it leaves as it is (log 164). -/
def execDebugHaltRequest (owner : BitVec 16) (target : DebugTarget) (act : DebugAct) : State → Result :=
  event powered fun s =>
    match target with
    | .hart gang hid => if debugsHart s owner gang then debugHart s owner gang hid act else s
    | .survey k => if s.bed.dbg = 3 then debugSurvey s owner k act else s

/-! ### Requests to bedrock (R38, R42, R43, R52) -/

/-- The fields of a quote, in order. -/
def quoteFields (b : Bedrock) (nonce : BitVec 256) : List Byte :=
  natToBytes nonce.toNat 32 ++ natToBytes (dstate b).toNat 8 ++ b.fuses.toList.map (fun n => BitVec.ofNat 8 n)
    ++ natToBytes b.patchDigest.toNat 64 ++ natToBytes b.surveyDigest.toNat 64 ++ natToBytes b.configDigest.toNat 64

/-- A quote and its signature over the digest of its fields; what the signature draws at random is free (log 7). -/
def signedQuote (s : State) (f : List Byte) : List (List Byte) :=
  ((signDigest (shake256 f) (freeBytes s 0 32)).map fun sig => f ++ sig).toList

/-- `QUOTE_REQUEST` (R51, R52): refused without the keys. -/
def execQuoteRequest (nonce : BitVec 256) : State → Result :=
  event powered fun s =>
    let s := wakeIdle s
    if !s.bed.keys then s else
    let f := quoteFields s.bed nonce
    { s with freeCtr := s.freeCtr + 4, bed := { s.bed with quotes := s.bed.quotes ++ signedQuote s f } }

/-- `COUNTER_ADVANCE` (R42): the command is signed by the key that owns the counter. A device whose boot has not finished
answers only attestation and recovery requests (R40). -/
def execCounterAdvance (counter : BitVec 5) (value : Nat) (sig : List Byte) : State → Result :=
  event booted fun s =>
    let s := wakeIdle s
    let now := s.bed.fuses[counter.toNat]'counter.isLt
    let signed := verifiesDigest (.counter counter) (shake256 (Config.counterCommand counter value)) sig
    if !signed || 63 < value || value ≤ now then s else
    { s with bed := { s.bed with fuses := s.bed.fuses.set counter.toNat value counter.isLt } }

/-- `MODULE_ADMISSION_REQUEST` (R40, R43): the digest is taken over the image, and checked under the key of its counter
(log 159). -/
def execModuleAdmissionRequest (image : List Byte) (counter : BitVec 5) (version : BitVec 6) (sig : List Byte) :
    State → Result :=
  event booted fun s =>
    let s := wakeIdle s
    let digest := shake256 image
    let ok := verifiesDigest (.counter counter) digest sig
    { s with bed := (admitDigest s.bed digest counter.toNat version.toNat ok).2 }

end Sys2Proof.Machine
end

