-- ==== Sys2Proof/Machine/Dispatch.lean ====
section
/-! DEFINITION. The meaning of every instruction and device event, one arm per constructor of `Instr`. -/

namespace Sys2Proof.Machine

/-- What an instruction or event does at a state. -/
def exec (i : Instr) (s : State) : Host.Outcome State Fault Refusal :=
  match i with
  | .coldReset b => Sys2Proof.Machine.execColdReset b s
  | .powerOff => Sys2Proof.Machine.execPowerOff s
  | .retainEnter => Sys2Proof.Machine.execRetainEnter s
  | .retainExit => Sys2Proof.Machine.execRetainExit s
  | .powerLimitExceeded => Sys2Proof.Machine.execPowerLimitExceeded s
  | .clockRaise => Sys2Proof.Machine.execClockRaise s
  | .debugRequest level => Sys2Proof.Machine.execDebugRequest level s
  | .quoteRequest nonce => Sys2Proof.Machine.execQuoteRequest nonce s
  | .counterAdvance counter value ownerSigned => Sys2Proof.Machine.execCounterAdvance counter value ownerSigned s
  | .launchRecordWrite port off data => Sys2Proof.Machine.execLaunchRecordWrite port off data s
  | .waitObjectObserve launch => Sys2Proof.Machine.execWaitObjectObserve launch s
  | .dependenceRelease launch v => Sys2Proof.Machine.execDependenceRelease launch v s
  | .dependenceFail launch => Sys2Proof.Machine.execDependenceFail launch s
  | .gangPlace die => Sys2Proof.Machine.execGangPlace die s
  | .classAging gang => Sys2Proof.Machine.execClassAging gang s
  | .victimSelect die => Sys2Proof.Machine.execVictimSelect die s
  | .systemYieldRequest gang => Sys2Proof.Machine.execSystemYieldRequest gang s
  | .gangKill gang => Sys2Proof.Machine.execGangKill gang s
  | .issueClassAging gang hid pipe => Sys2Proof.Machine.execIssueClassAging gang hid pipe s
  | .forcedStop gang => Sys2Proof.Machine.execForcedStop gang s
  | .saveComplete gang hid => Sys2Proof.Machine.execSaveComplete gang hid s
  | .saveIncomplete gang hid => Sys2Proof.Machine.execSaveIncomplete gang hid s
  | .saveContinue gang hid limit => Sys2Proof.Machine.execSaveContinue gang hid limit s
  | .saveRestart gang hid base limit => Sys2Proof.Machine.execSaveRestart gang hid base limit s
  | .saveKill gang hid => Sys2Proof.Machine.execSaveKill gang hid s
  | .restoreComplete gang hid => Sys2Proof.Machine.execRestoreComplete gang hid s
  | .restoreFault gang hid => Sys2Proof.Machine.execRestoreFault gang hid s
  | .restoreAnswer gang => Sys2Proof.Machine.execRestoreAnswer gang s
  | .gangEnd gang => Sys2Proof.Machine.execGangEnd gang s
  | .trapResume gang hid tape => Sys2Proof.Machine.execTrapResume gang hid tape s
  | .trapKill gang hid => Sys2Proof.Machine.execTrapKill gang hid s
  | .opFaultResume op => Sys2Proof.Machine.execOpFaultResume op s
  | .opFaultFail op => Sys2Proof.Machine.execOpFaultFail op s
  | .coldTextCopied gang hid va ir ppn reachable => Sys2Proof.Machine.execColdTextCopied gang hid va ir ppn reachable s
  | .nbeVerdict code asid prog ok => Sys2Proof.Machine.execNbeVerdict code asid prog ok s
  | .qdeadlockExpiry gang hid => Sys2Proof.Machine.execQdeadlockExpiry gang hid s
  | .waitRecheck gang hid => Sys2Proof.Machine.execWaitRecheck gang hid s
  | .garrMarkerFire gang hid => Sys2Proof.Machine.execGarrMarkerFire gang hid s
  | .siphonWalkAhead gang hid stream => Sys2Proof.Machine.execSiphonWalkAhead gang hid stream s
  | .arrivalCounterAddition op n => Sys2Proof.Machine.execArrivalCounterAddition op n s
  | .copyComplete op => Sys2Proof.Machine.execCopyComplete op s
  | .collectiveComplete id num remote => Sys2Proof.Machine.execCollectiveComplete id num remote s
  | .collEnd id by_ => Sys2Proof.Machine.execCollEnd id by_ s
  | .shootdownGo die v by_ => Sys2Proof.Machine.execShootdownGo die v by_ s
  | .shootdownDone die => Sys2Proof.Machine.execShootdownDone die s
  | .remapStartCopy stack layer by_ => Sys2Proof.Machine.execRemapStartCopy stack layer by_ s
  | .remapAbandon stack by_ => Sys2Proof.Machine.execRemapAbandon stack by_ s
  | .remapSwitch stack by_ => Sys2Proof.Machine.execRemapSwitch stack by_ s
  | .remapFaultClear stack by_ => Sys2Proof.Machine.execRemapFaultClear stack by_ s
  | .remapBlockCopied stack => Sys2Proof.Machine.execRemapBlockCopied stack s
  | .remapSwitchDone stack => Sys2Proof.Machine.execRemapSwitchDone stack s
  | .interleaveDescriptorWrite n word1 v by_ => Sys2Proof.Machine.execInterleaveDescriptorWrite n word1 v by_ s
  | .registerWrite off v by_ => Sys2Proof.Machine.execRegisterWrite off v by_ s
  | .requestCapped chan idx => Sys2Proof.Machine.execRequestCapped chan idx s
  | .stripAheadHint chan bank row => Sys2Proof.Machine.execStripAheadHint chan bank row s
  | .hintExpiry chan idx => Sys2Proof.Machine.execHintExpiry chan idx s
  | .peerRequest r => Sys2Proof.Machine.execPeerRequest r s
  | .linkLaneLoss link => Sys2Proof.Machine.execLinkLaneLoss link s
  | .linkFailure link => Sys2Proof.Machine.execLinkFailure link s
  | .linkLossTimeout => Sys2Proof.Machine.execLinkLossTimeout s
  | .hostCxlMemAccess pa n wr => Sys2Proof.Machine.execHostCxlMemAccess pa n wr s
  | .hostAtomic pa sa add => Sys2Proof.Machine.execHostAtomic pa sa add s
  | .idleEntry => Sys2Proof.Machine.execIdleEntry s
  | .debugHaltRequest owner target act => Sys2Proof.Machine.execDebugHaltRequest owner target act s
  | .moduleAdmissionRequest image counter version sig => Sys2Proof.Machine.execModuleAdmissionRequest image counter version sig s
  | .liveLinkReturn link => Sys2Proof.Machine.execLiveLinkReturn link s
  | .endFromOtherPackage id num => Sys2Proof.Machine.execEndFromOtherPackage id num s
  | .saveAreaProvided gang hid base limit => Sys2Proof.Machine.execSaveAreaProvided gang hid base limit s
  | .writePerformedAtHome gang hid agent idx => Sys2Proof.Machine.execWritePerformedAtHome gang hid agent idx s
  | .illegalEncoding misplaced => Sys2Proof.Machine.execIllegalEncoding misplaced s
  | .nop => Sys2Proof.Machine.execNop s
  | .exit => Sys2Proof.Machine.execExit s
  | .brk => Sys2Proof.Machine.execBrk s
  | .trap n => Sys2Proof.Machine.execTrap n s
  | .eret => Sys2Proof.Machine.execEret s
  | .yield => Sys2Proof.Machine.execYield s
  | .wait a b => Sys2Proof.Machine.execWait a b s
  | .fenceSv => Sys2Proof.Machine.execFenceSv s
  | .fenceVs => Sys2Proof.Machine.execFenceVs s
  | .fenceVv => Sys2Proof.Machine.execFenceVv s
  | .fenceAll => Sys2Proof.Machine.execFenceAll s
  | .adjFwd => Sys2Proof.Machine.execAdjFwd s
  | .adjRev => Sys2Proof.Machine.execAdjRev s
  | .adjOff => Sys2Proof.Machine.execAdjOff s
  | .zstart a => Sys2Proof.Machine.execZstart a s
  | .zend => Sys2Proof.Machine.execZend s
  | .supervisorFunction fn d a b => Sys2Proof.Machine.execSupervisorFunction fn d a b s
  | .getc d n => Sys2Proof.Machine.execGetc d n s
  | .setc n a => Sys2Proof.Machine.execSetc n a s
  | .add d a b => Sys2Proof.Machine.execAdd d a b s
  | .sub d a b => Sys2Proof.Machine.execSub d a b s
  | .and d a b => Sys2Proof.Machine.execAnd d a b s
  | .or d a b => Sys2Proof.Machine.execOr d a b s
  | .xor d a b => Sys2Proof.Machine.execXor d a b s
  | .sll d a b => Sys2Proof.Machine.execSll d a b s
  | .srl d a b => Sys2Proof.Machine.execSrl d a b s
  | .sra d a b => Sys2Proof.Machine.execSra d a b s
  | .slt d a b => Sys2Proof.Machine.execSlt d a b s
  | .sltu d a b => Sys2Proof.Machine.execSltu d a b s
  | .min d a b => Sys2Proof.Machine.execMin d a b s
  | .max d a b => Sys2Proof.Machine.execMax d a b s
  | .minu d a b => Sys2Proof.Machine.execMinu d a b s
  | .maxu d a b => Sys2Proof.Machine.execMaxu d a b s
  | .mul d a b => Sys2Proof.Machine.execMul d a b s
  | .mulh d a b => Sys2Proof.Machine.execMulh d a b s
  | .mulhu d a b => Sys2Proof.Machine.execMulhu d a b s
  | .div d a b => Sys2Proof.Machine.execDiv d a b s
  | .divu d a b => Sys2Proof.Machine.execDivu d a b s
  | .rem d a b => Sys2Proof.Machine.execRem d a b s
  | .remu d a b => Sys2Proof.Machine.execRemu d a b s
  | .clz d a => Sys2Proof.Machine.execClz d a s
  | .ctz d a => Sys2Proof.Machine.execCtz d a s
  | .pop d a => Sys2Proof.Machine.execPop d a s
  | .bext d a b => Sys2Proof.Machine.execBext d a b s
  | .bexts d a b => Sys2Proof.Machine.execBexts d a b s
  | .bins d a b => Sys2Proof.Machine.execBins d a b s
  | .fshi d a b sh => Sys2Proof.Machine.execFshi d a b sh s
  | .addi d a imm => Sys2Proof.Machine.execAddi d a imm s
  | .andi d a imm => Sys2Proof.Machine.execAndi d a imm s
  | .ori d a imm => Sys2Proof.Machine.execOri d a imm s
  | .xori d a imm => Sys2Proof.Machine.execXori d a imm s
  | .slti d a imm => Sys2Proof.Machine.execSlti d a imm s
  | .sltui d a imm => Sys2Proof.Machine.execSltui d a imm s
  | .slli d a sh => Sys2Proof.Machine.execSlli d a sh s
  | .srli d a sh => Sys2Proof.Machine.execSrli d a sh s
  | .srai d a sh => Sys2Proof.Machine.execSrai d a sh s
  | .ldhi d imm => Sys2Proof.Machine.execLdhi d imm s
  | .adpc d imm => Sys2Proof.Machine.execAdpc d imm s
  | .addiLong d a imm => Sys2Proof.Machine.execAddiLong d a imm s
  | .andiLong d a imm => Sys2Proof.Machine.execAndiLong d a imm s
  | .oriLong d a imm => Sys2Proof.Machine.execOriLong d a imm s
  | .xoriLong d a imm => Sys2Proof.Machine.execXoriLong d a imm s
  | .sltiLong d a imm => Sys2Proof.Machine.execSltiLong d a imm s
  | .sltuiLong d a imm => Sys2Proof.Machine.execSltuiLong d a imm s
  | .ldhiLong d imm => Sys2Proof.Machine.execLdhiLong d imm s
  | .adpcLong d imm => Sys2Proof.Machine.execAdpcLong d imm s
  | .jalrLong d a imm => Sys2Proof.Machine.execJalrLong d a imm s
  | .lbLong d a imm => Sys2Proof.Machine.execLbLong d a imm s
  | .lhLong d a imm => Sys2Proof.Machine.execLhLong d a imm s
  | .lwLong d a imm => Sys2Proof.Machine.execLwLong d a imm s
  | .ldLong d a imm => Sys2Proof.Machine.execLdLong d a imm s
  | .lbuLong d a imm => Sys2Proof.Machine.execLbuLong d a imm s
  | .lhuLong d a imm => Sys2Proof.Machine.execLhuLong d a imm s
  | .lwuLong d a imm => Sys2Proof.Machine.execLwuLong d a imm s
  | .sbLong a b imm => Sys2Proof.Machine.execSbLong a b imm s
  | .shLong a b imm => Sys2Proof.Machine.execShLong a b imm s
  | .swLong a b imm => Sys2Proof.Machine.execSwLong a b imm s
  | .sdLong a b imm => Sys2Proof.Machine.execSdLong a b imm s
  | .beqz a off => Sys2Proof.Machine.execBeqz a off s
  | .bnez a off => Sys2Proof.Machine.execBnez a off s
  | .bltz a off => Sys2Proof.Machine.execBltz a off s
  | .bgez a off => Sys2Proof.Machine.execBgez a off s
  | .bgtz a off => Sys2Proof.Machine.execBgtz a off s
  | .blez a off => Sys2Proof.Machine.execBlez a off s
  | .bqt off => Sys2Proof.Machine.execBqt off s
  | .bqf off => Sys2Proof.Machine.execBqf off s
  | .jal d off => Sys2Proof.Machine.execJal d off s
  | .jalr d a imm => Sys2Proof.Machine.execJalr d a imm s
  | .lb d a imm => Sys2Proof.Machine.execLb d a imm s
  | .lh d a imm => Sys2Proof.Machine.execLh d a imm s
  | .lw d a imm => Sys2Proof.Machine.execLw d a imm s
  | .ld d a imm => Sys2Proof.Machine.execLd d a imm s
  | .lbu d a imm => Sys2Proof.Machine.execLbu d a imm s
  | .lhu d a imm => Sys2Proof.Machine.execLhu d a imm s
  | .lwu d a imm => Sys2Proof.Machine.execLwu d a imm s
  | .ldAcq d a scope off => Sys2Proof.Machine.execLdAcq d a scope off s
  | .sb a b imm => Sys2Proof.Machine.execSb a b imm s
  | .sh a b imm => Sys2Proof.Machine.execSh a b imm s
  | .sw a b imm => Sys2Proof.Machine.execSw a b imm s
  | .sd a b imm => Sys2Proof.Machine.execSd a b imm s
  | .sdRel a b scope off => Sys2Proof.Machine.execSdRel a b scope off s
  | .amoAddW d a b scope order => Sys2Proof.Machine.execAmoAddW d a b scope order s
  | .amoAddD d a b scope order => Sys2Proof.Machine.execAmoAddD d a b scope order s
  | .amoSwpW d a b scope order => Sys2Proof.Machine.execAmoSwpW d a b scope order s
  | .amoSwpD d a b scope order => Sys2Proof.Machine.execAmoSwpD d a b scope order s
  | .amoCasW d a b scope order => Sys2Proof.Machine.execAmoCasW d a b scope order s
  | .amoCasD d a b scope order => Sys2Proof.Machine.execAmoCasD d a b scope order s
  | .amoAnd d a b scope order => Sys2Proof.Machine.execAmoAnd d a b scope order s
  | .amoOr d a b scope order => Sys2Proof.Machine.execAmoOr d a b scope order s
  | .amoXor d a b scope order => Sys2Proof.Machine.execAmoXor d a b scope order s
  | .amoMin d a b scope order => Sys2Proof.Machine.execAmoMin d a b scope order s
  | .amoMax d a b scope order => Sys2Proof.Machine.execAmoMax d a b scope order s
  | .amoMinu d a b scope order => Sys2Proof.Machine.execAmoMinu d a b scope order s
  | .amoMaxu d a b scope order => Sys2Proof.Machine.execAmoMaxu d a b scope order s
  | .qpush a q => Sys2Proof.Machine.execQpush a q s
  | .qpop d q => Sys2Proof.Machine.execQpop d q s
  | .qpeek d q => Sys2Proof.Machine.execQpeek d q s
  | .qpushb a => Sys2Proof.Machine.execQpushb a s
  | .qcnt d q => Sys2Proof.Machine.execQcnt d q s
  | .qclr q => Sys2Proof.Machine.execQclr q s
  | .qpushRel a q => Sys2Proof.Machine.execQpushRel a q s
  | .qpopAcq d q => Sys2Proof.Machine.execQpopAcq d q s
  | .sload st a => Sys2Proof.Machine.execSload st a s
  | .slin st a b fmt => Sys2Proof.Machine.execSlin st a b fmt s
  | .sbit st a b fmt => Sys2Proof.Machine.execSbit st a b fmt s
  | .sdrop st => Sys2Proof.Machine.execSdrop st s
  | .spos st a => Sys2Proof.Machine.execSpos st a s
  | .fadd d a b prec rnd => Sys2Proof.Machine.execFadd d a b prec rnd s
  | .fsub d a b prec rnd => Sys2Proof.Machine.execFsub d a b prec rnd s
  | .fmul d a b prec rnd => Sys2Proof.Machine.execFmul d a b prec rnd s
  | .fdiv d a b prec rnd => Sys2Proof.Machine.execFdiv d a b prec rnd s
  | .fsqrt d a prec rnd => Sys2Proof.Machine.execFsqrt d a prec rnd s
  | .frsq d a prec rnd => Sys2Proof.Machine.execFrsq d a prec rnd s
  | .fma d a b prec rnd => Sys2Proof.Machine.execFma d a b prec rnd s
  | .fmin d a b prec => Sys2Proof.Machine.execFmin d a b prec s
  | .fmax d a b prec => Sys2Proof.Machine.execFmax d a b prec s
  | .fcvt d a ty prec rnd => Sys2Proof.Machine.execFcvt d a ty prec rnd s
  | .feq d a b prec => Sys2Proof.Machine.execFeq d a b prec s
  | .flt d a b prec => Sys2Proof.Machine.execFlt d a b prec s
  | .fle d a b prec => Sys2Proof.Machine.execFle d a b prec s
  | .fclass d a prec => Sys2Proof.Machine.execFclass d a prec s
  | .fcvti d a ty prec rnd => Sys2Proof.Machine.execFcvti d a ty prec rnd s
  | .vsetl d a => Sys2Proof.Machine.execVsetl d a s
  | .vsetg d a => Sys2Proof.Machine.execVsetg d a s
  | .vsetf d a => Sys2Proof.Machine.execVsetf d a s
  | .vsetst => Sys2Proof.Machine.execVsetst s
  | .vclr d => Sys2Proof.Machine.execVclr d s
  | .vgetf d a => Sys2Proof.Machine.execVgetf d a s
  | .vadd o => Sys2Proof.Machine.execVadd o s
  | .vsub o => Sys2Proof.Machine.execVsub o s
  | .vmul o => Sys2Proof.Machine.execVmul o s
  | .vmulh o => Sys2Proof.Machine.execVmulh o s
  | .vmac o => Sys2Proof.Machine.execVmac o s
  | .vand o => Sys2Proof.Machine.execVand o s
  | .vor o => Sys2Proof.Machine.execVor o s
  | .vxor o => Sys2Proof.Machine.execVxor o s
  | .vsll o => Sys2Proof.Machine.execVsll o s
  | .vsrl o => Sys2Proof.Machine.execVsrl o s
  | .vsra o => Sys2Proof.Machine.execVsra o s
  | .vmin o => Sys2Proof.Machine.execVmin o s
  | .vmax o => Sys2Proof.Machine.execVmax o s
  | .vminu o => Sys2Proof.Machine.execVminu o s
  | .vmaxu o => Sys2Proof.Machine.execVmaxu o s
  | .vsel o => Sys2Proof.Machine.execVsel o s
  | .vadds o => Sys2Proof.Machine.execVadds o s
  | .vsubs o => Sys2Proof.Machine.execVsubs o s
  | .vaddsu o => Sys2Proof.Machine.execVaddsu o s
  | .vsubsu o => Sys2Proof.Machine.execVsubsu o s
  | .vdiv o => Sys2Proof.Machine.execVdiv o s
  | .vrem o => Sys2Proof.Machine.execVrem o s
  | .vdivu o => Sys2Proof.Machine.execVdivu o s
  | .vremu o => Sys2Proof.Machine.execVremu o s
  | .vabs o => Sys2Proof.Machine.execVabs o s
  | .vclz o => Sys2Proof.Machine.execVclz o s
  | .vpop o => Sys2Proof.Machine.execVpop o s
  | .vwmul o => Sys2Proof.Machine.execVwmul o s
  | .vwmac o => Sys2Proof.Machine.execVwmac o s
  | .vbext o => Sys2Proof.Machine.execVbext o s
  | .vmov o => Sys2Proof.Machine.execVmov o s
  | .vmeq o => Sys2Proof.Machine.execVmeq o s
  | .vmne o => Sys2Proof.Machine.execVmne o s
  | .vmlt o => Sys2Proof.Machine.execVmlt o s
  | .vmle o => Sys2Proof.Machine.execVmle o s
  | .vmltu o => Sys2Proof.Machine.execVmltu o s
  | .vmleu o => Sys2Proof.Machine.execVmleu o s
  | .vmfeq o => Sys2Proof.Machine.execVmfeq o s
  | .vmflt o => Sys2Proof.Machine.execVmflt o s
  | .vmfle o => Sys2Proof.Machine.execVmfle o s
  | .vmfun o => Sys2Proof.Machine.execVmfun o s
  | .vmfin o => Sys2Proof.Machine.execVmfin o s
  | .vmand o => Sys2Proof.Machine.execVmand o s
  | .vmor o => Sys2Proof.Machine.execVmor o s
  | .vmxor o => Sys2Proof.Machine.execVmxor o s
  | .vmandn o => Sys2Proof.Machine.execVmandn o s
  | .vfadd o => Sys2Proof.Machine.execVfadd o s
  | .vfsub o => Sys2Proof.Machine.execVfsub o s
  | .vfmul o => Sys2Proof.Machine.execVfmul o s
  | .vfdiv o => Sys2Proof.Machine.execVfdiv o s
  | .vfmac o => Sys2Proof.Machine.execVfmac o s
  | .vfnmac o => Sys2Proof.Machine.execVfnmac o s
  | .vfmin o => Sys2Proof.Machine.execVfmin o s
  | .vfmax o => Sys2Proof.Machine.execVfmax o s
  | .vfsqrt o => Sys2Proof.Machine.execVfsqrt o s
  | .vfrsq o => Sys2Proof.Machine.execVfrsq o s
  | .vfrcp o => Sys2Proof.Machine.execVfrcp o s
  | .vfabs o => Sys2Proof.Machine.execVfabs o s
  | .vfneg o => Sys2Proof.Machine.execVfneg o s
  | .vfcvt o => Sys2Proof.Machine.execVfcvt o s
  | .vdec o => Sys2Proof.Machine.execVdec o s
  | .venc o => Sys2Proof.Machine.execVenc o s
  | .vbnd o => Sys2Proof.Machine.execVbnd o s
  | .vcnt o => Sys2Proof.Machine.execVcnt o s
  | .vtier o => Sys2Proof.Machine.execVtier o s
  | .vbits o => Sys2Proof.Machine.execVbits o s
  | .vskip o => Sys2Proof.Machine.execVskip o s
  | .vcat o => Sys2Proof.Machine.execVcat o s
  | .vbget o => Sys2Proof.Machine.execVbget o s
  | .vpack o => Sys2Proof.Machine.execVpack o s
  | .vexpand o => Sys2Proof.Machine.execVexpand o s
  | .vrepack o => Sys2Proof.Machine.execVrepack o s
  | .vredsum o => Sys2Proof.Machine.execVredsum o s
  | .vredmin o => Sys2Proof.Machine.execVredmin o s
  | .vredmax o => Sys2Proof.Machine.execVredmax o s
  | .vredand o => Sys2Proof.Machine.execVredand o s
  | .vredor o => Sys2Proof.Machine.execVredor o s
  | .vredxor o => Sys2Proof.Machine.execVredxor o s
  | .vfredsum o => Sys2Proof.Machine.execVfredsum o s
  | .vfredmin o => Sys2Proof.Machine.execVfredmin o s
  | .vfredmax o => Sys2Proof.Machine.execVfredmax o s
  | .vfredsq o => Sys2Proof.Machine.execVfredsq o s
  | .vscan o => Sys2Proof.Machine.execVscan o s
  | .vfscan o => Sys2Proof.Machine.execVfscan o s
  | .vfirst o => Sys2Proof.Machine.execVfirst o s
  | .vmcnt o => Sys2Proof.Machine.execVmcnt o s
  | .viota o => Sys2Proof.Machine.execViota o s
  | .vid o => Sys2Proof.Machine.execVid o s
  | .vslidedn o => Sys2Proof.Machine.execVslidedn o s
  | .vslideup o => Sys2Proof.Machine.execVslideup o s
  | .vgatherv o => Sys2Proof.Machine.execVgatherv o s
  | .vbcast o => Sys2Proof.Machine.execVbcast o s
  | .vext o => Sys2Proof.Machine.execVext o s
  | .vins o => Sys2Proof.Machine.execVins o s
  | .vzip o => Sys2Proof.Machine.execVzip o s
  | .vunzip o => Sys2Proof.Machine.execVunzip o s
  | .vrev o => Sys2Proof.Machine.execVrev o s
  | .vbrk o => Sys2Proof.Machine.execVbrk o s
  | .vbrkb o => Sys2Proof.Machine.execVbrkb o s
  | .vbput o => Sys2Proof.Machine.execVbput o s
  | .vld o => Sys2Proof.Machine.execVld o s
  | .vst o => Sys2Proof.Machine.execVst o s
  | .vldff o => Sys2Proof.Machine.execVldff o s
  | .vldx o => Sys2Proof.Machine.execVldx o s
  | .vstx o => Sys2Proof.Machine.execVstx o s
  | .vldw o => Sys2Proof.Machine.execVldw o s
  | .vspill o => Sys2Proof.Machine.execVspill o s
  | .vfill o => Sys2Proof.Machine.execVfill o s
  | .snext o => Sys2Proof.Machine.execSnext o s
  | .vld2 o p => Sys2Proof.Machine.execVld2 o p s
  | .vstp o p s2 => Sys2Proof.Machine.execVstp o p s2 s
  | .vamoadd o => Sys2Proof.Machine.execVamoadd o s
  | .vamomin o => Sys2Proof.Machine.execVamomin o s
  | .vamomax o => Sys2Proof.Machine.execVamomax o s
  | .vamoand o => Sys2Proof.Machine.execVamoand o s
  | .vamoor o => Sys2Proof.Machine.execVamoor o s
  | .vamoxor o => Sys2Proof.Machine.execVamoxor o s
  | .vamoswp o => Sys2Proof.Machine.execVamoswp o s
  | .vfamoadd o => Sys2Proof.Machine.execVfamoadd o s
  | .wopen o => Sys2Proof.Machine.execWopen o s
  | .wadd o => Sys2Proof.Machine.execWadd o s
  | .wfadd o => Sys2Proof.Machine.execWfadd o s
  | .wmerge o => Sys2Proof.Machine.execWmerge o s
  | .wclose o => Sys2Proof.Machine.execWclose o s
  | .zzero o => Sys2Proof.Machine.execZzero o s
  | .zmma o => Sys2Proof.Machine.execZmma o s
  | .zop o => Sys2Proof.Machine.execZop o s
  | .zdr o => Sys2Proof.Machine.execZdr o s
  | .zacc o => Sys2Proof.Machine.execZacc o s
  | .zld a b tile frow nrowm1 => Sys2Proof.Machine.execZld a b tile frow nrowm1 s
  | .zst a b tile frow nrowm1 => Sys2Proof.Machine.execZst a b tile frow nrowm1 s
  | .adjld d a => Sys2Proof.Machine.execAdjld d a s
  | .adjst a b => Sys2Proof.Machine.execAdjst a b s
  | .tmark a => Sys2Proof.Machine.execTmark a s
  | .trew a => Sys2Proof.Machine.execTrew a s
  | .cpy a e => Sys2Proof.Machine.execCpy a e s
  | .coll id a e => Sys2Proof.Machine.execColl id a e s
  | .nbe prog a b e => Sys2Proof.Machine.execNbe prog a b e s
  | .launch port a e => Sys2Proof.Machine.execLaunch port a e s
  | .cwait d a b => Sys2Proof.Machine.execCwait d a b s
  | .csig a b => Sys2Proof.Machine.execCsig a b s
  | .gbar d => Sys2Proof.Machine.execGbar d s
  | .garr d => Sys2Proof.Machine.execGarr d s
  | .gwait a => Sys2Proof.Machine.execGwait a s
  | .cNop => Sys2Proof.Machine.execCNop s
  | .cMov x y => Sys2Proof.Machine.execCMov x y s
  | .cAddi x imm => Sys2Proof.Machine.execCAddi x imm s
  | .cAdd x y => Sys2Proof.Machine.execCAdd x y s
  | .cSub x y => Sys2Proof.Machine.execCSub x y s
  | .cAnd x y => Sys2Proof.Machine.execCAnd x y s
  | .cSlli x sh => Sys2Proof.Machine.execCSlli x sh s
  | .cLd x y => Sys2Proof.Machine.execCLd x y s
  | .cSd x y => Sys2Proof.Machine.execCSd x y s
  | .cQpush x q => Sys2Proof.Machine.execCQpush x q s
  | .cQpop x q => Sys2Proof.Machine.execCQpop x q s
  | .cBnez x off => Sys2Proof.Machine.execCBnez x off s
  | .cJ off => Sys2Proof.Machine.execCJ off s
  | .nset k x imm => Sys2Proof.Machine.execNset k x imm s
  | .naddImm k x y imm => Sys2Proof.Machine.execNaddImm k x y imm s
  | .naddReg k x y => Sys2Proof.Machine.execNaddReg k x y s
  | .nloop x imm => Sys2Proof.Machine.execNloop x imm s
  | .nact x => Sys2Proof.Machine.execNact x s
  | .nrd x imm => Sys2Proof.Machine.execNrd x imm s
  | .ndec fmt imm => Sys2Proof.Machine.execNdec fmt imm s
  | .nldx x y imm => Sys2Proof.Machine.execNldx x y imm s
  | .nmac x y fmt => Sys2Proof.Machine.execNmac x y fmt s
  | .nred k x y imm => Sys2Proof.Machine.execNred k x y imm s
  | .nst x y fmt imm => Sys2Proof.Machine.execNst x y fmt imm s
  | .nsig x imm => Sys2Proof.Machine.execNsig x imm s
  | .nwait => Sys2Proof.Machine.execNwait s
  | .nbar x y => Sys2Proof.Machine.execNbar x y s
  | .ncvt k y fmt imm => Sys2Proof.Machine.execNcvt k y fmt imm s
  | .nend => Sys2Proof.Machine.execNend s
  | .nnop => Sys2Proof.Machine.execNnop s

end Sys2Proof.Machine
end

