-- ==== Sys2Proof/WellFormed.lean ====
section
/-! DEFINITION. Which terms of `Instr` the encoding admits: register kinds, literal ranges, chain and scalar
bits (09 R189 to R203, 15 R194, R349, R351, R352). A device event has no encoding and is always well formed. -/

namespace Sys2Proof

/-- A scope code that is not reserved (09 R189). -/
def scopeOk (s : BitVec 3) : Bool := s.toNat ≤ 5

/-- A rounding code that is not reserved (09 R201). -/
def rndOk (r : BitVec 3) : Bool := r.toNat ≤ 3 || r.toNat == 7

/-- A queue id (09 R190). -/
def queueOk (q : BitVec 2) : Bool := q.toNat ≤ 2

/-- Register kinds narrower than five bits (09 R190). -/
def isMask (r : BitVec 5) : Bool := r.toNat < 8
def isStream (r : BitVec 5) : Bool := r.toNat < 16
def isTile (r : BitVec 5) : Bool := r.toNat < 4

namespace VOps

/-- b is a vector, or a scalar whose chain bit is clear (09 R191). -/
def bAny (o : VOps) : Bool := !(o.bs && o.cb)
/-- b is a scalar (09 R191). -/
def bScalar (o : VOps) : Bool := o.bs && !o.cb
/-- b is a vector (09 R191). -/
def bVector (o : VOps) : Bool := !o.bs
/-- b is not used (09 R190, R191). -/
def bNone (o : VOps) : Bool := !o.bs && !o.cb && o.b == 0#5
def noMask (o : VOps) : Bool := o.m == 0#3
def aNone (o : VOps) : Bool := !o.ca && o.a == 0#5
/-- a names a stream register or a literal window id (14 R310, R322). -/
def aStream (o : VOps) : Bool := !o.ca && isStream o.a
def aMask (o : VOps) : Bool := !o.ca && isMask o.a
def aTile (o : VOps) : Bool := !o.ca && isTile o.a
def dNone (o : VOps) : Bool := o.d == 0#5

end VOps

/-- Formats `ndec` accepts (15 R352). -/
def ndecFmt (f : BitVec 5) : Bool :=
  match f.toNat with
  | 0x00 | 0x01 | 0x02 | 0x03 | 0x06 | 0x07 | 0x0A | 0x0B | 0x0C | 0x10 | 0x11 | 0x12 | 0x13 => true
  | _ => false

/-- Formats `nmac` accepts (15 R352). -/
def nmacFmt (f : BitVec 5) : Bool :=
  match f.toNat with
  | 0x02 | 0x06 | 0x03 | 0x0A | 0x0B | 0x0C | 0x0D => true
  | _ => false

/-- Formats `ncvt` and `nst` accept (15 R352). -/
def ncvtFmt (f : BitVec 5) : Bool :=
  match f.toNat with
  | 0x02 | 0x06 | 0x03 | 0x07 | 0x04 | 0x08 | 0x0A | 0x0B | 0x0C | 0x0D => true
  | _ => false

/-- A count of 1 to 4,096 in imm13 (15 R351). -/
def cellCount (n : BitVec 13) : Bool := 1 ≤ n.toNat && n.toNat ≤ 4096

open VOps in
/-- The encoding admits the term. -/
def Instr.wf : Instr → Bool
  | .ldAcq _ _ s _ | .sdRel _ _ s _ => scopeOk s
  | .amoAddW _ _ _ s _ | .amoAddD _ _ _ s _ | .amoSwpW _ _ _ s _ | .amoSwpD _ _ _ s _
  | .amoCasW _ _ _ s _ | .amoCasD _ _ _ s _ | .amoAnd _ _ _ s _ | .amoOr _ _ _ s _
  | .amoXor _ _ _ s _ | .amoMin _ _ _ s _ | .amoMax _ _ _ s _ | .amoMinu _ _ _ s _
  | .amoMaxu _ _ _ s _ => scopeOk s
  | .qpush _ q | .qpushRel _ q | .qpop _ q | .qpopAcq _ q | .qpeek _ q | .qcnt _ q | .qclr q
  | .cQpush _ q | .cQpop _ q => queueOk q
  | .fadd _ _ _ _ r | .fsub _ _ _ _ r | .fmul _ _ _ _ r | .fdiv _ _ _ _ r | .fma _ _ _ _ r
  | .fsqrt _ _ _ r | .frsq _ _ _ r => rndOk r
  | .fcvt _ _ t _ r => t.toNat ≤ 5 && rndOk r
  | .fcvti _ _ t _ r => (t.toNat == 4 || t.toNat == 5) && rndOk r
  -- VIA, binary VIB, binary VFP, binary VRED (13 R281, R286, R287, R290, R296)
  | .vadd o | .vsub o | .vmul o | .vmulh o | .vmac o | .vand o | .vor o | .vxor o | .vsll o | .vsrl o
  | .vsra o | .vmin o | .vmax o | .vminu o | .vmaxu o | .vsel o
  | .vadds o | .vsubs o | .vaddsu o | .vsubsu o | .vdiv o | .vrem o | .vdivu o | .vremu o
  | .vwmul o | .vwmac o | .vbext o
  | .vfadd o | .vfsub o | .vfmul o | .vfdiv o | .vfmac o | .vfnmac o | .vfmin o | .vfmax o
  | .vredsum o | .vredmin o | .vredmax o | .vredand o | .vredor o | .vredxor o
  | .vfredsum o | .vfredmin o | .vfredmax o | .vfredsq o | .vscan o | .vfscan o => o.bAny
  -- unary (13 R281), element-wise code conversions (12 R268), vbrk, vbrkb (12 R276)
  | .vabs o | .vclz o | .vpop o | .vmov o
  | .vfsqrt o | .vfrsq o | .vfrcp o | .vfabs o | .vfneg o | .vfcvt o
  | .vdec o | .venc o | .vtier o | .vbits o | .vrepack o | .vbrk o | .vbrkb o => o.bNone
  -- compares (13 R294)
  | .vmeq o | .vmne o | .vmlt o | .vmle o | .vmltu o | .vmleu o | .vmfeq o | .vmflt o | .vmfle o
  | .vmfun o => o.bAny && isMask o.d
  | .vmfin o => o.bNone && isMask o.d
  | .vmand o | .vmor o | .vmxor o | .vmandn o =>
    isMask o.d && o.aMask && isMask o.b && !o.bs && !o.cb && o.noMask
  | .vfirst o | .vmcnt o | .viota o => o.aMask && o.bNone
  | .vid o => o.aNone && o.bNone
  -- VCODE (12 R268)
  | .vbnd o => isMask o.d && o.bNone && o.noMask
  | .vcnt o => o.dNone && o.bScalar && o.noMask
  | .vskip o | .vbget o => o.bScalar
  | .vcat o => o.bNone && o.noMask && o.d != o.a
  | .vpack o | .vexpand o => o.bNone && o.d != o.a
  -- VPERM (12 R276)
  | .vslidedn o | .vslideup o | .vunzip o => o.bScalar && o.d != o.a
  | .vgatherv o | .vzip o => o.bVector && o.d != o.a && o.d != o.b
  | .vbcast o => o.bScalar
  | .vext o | .vins o | .vbput o => o.bScalar && o.noMask && o.d != o.a
  | .vrev o => o.bNone && o.d != o.a
  -- VMEM (14 R310)
  | .vld o | .vldff o => o.aStream && o.bNone
  | .vst o => isStream o.d && o.aNone && o.bVector
  | .vldx o => o.aStream && o.bVector && o.d != o.b
  | .vstx o => isStream o.d && o.bVector
  | .vldw o => o.aStream && o.bScalar
  | .vspill o => isStream o.d && o.aNone && o.bVector && o.noMask
  | .vfill o => o.aStream && o.bNone && o.noMask
  | .snext o => o.dNone && o.aStream && o.bNone && o.noMask
  | .vld2 o _ => o.aStream && o.bNone
  | .vstp o _ _ => o.dNone && o.aStream && o.bVector
  -- VATOM (14 R320, R322)
  | .vamoadd o | .vamomin o | .vamomax o | .vamoand o | .vamoor o | .vamoxor o | .vamoswp o
  | .vfamoadd o | .wadd o | .wfadd o => o.aStream && o.bAny
  | .wopen o => o.dNone && o.aNone && o.bScalar && o.noMask
  | .wmerge o | .wclose o => o.dNone && o.aStream && o.bNone && o.noMask
  -- ZMX (15 R329)
  | .zzero o => isTile o.d && o.aNone && o.bNone && o.noMask
  | .zmma o | .zop o => isTile o.d && o.bVector
  | .zdr o => o.aTile && o.bScalar
  | .zacc o => isTile o.d && o.bScalar
  | .zld _ _ _ f n | .zst _ _ _ f n => f.toNat + n.toNat < 64
  -- near-bank words (15 R349, R351, R352)
  | .nloop _ i => 1 ≤ i.toNat
  | .nrd _ i => i.toNat ≤ 63
  | .ndec f _ => ndecFmt f
  | .nldx _ _ i => i.toNat ≤ 1023
  | .nmac _ _ f => nmacFmt f
  | .nred _ _ _ i => cellCount i
  | .nst _ _ f i => ncvtFmt f && cellCount i
  | .ncvt _ _ f i => ncvtFmt f && cellCount i
  | _ => true

end Sys2Proof
end

