-- ==== Sys2Proof/Decode.lean ====
section
/-! DEFINITION. The decoder of Decras text (09 R182 to R203) and of near-bank words (15 R351), total on any
bytes and rejecting by name, and after it the encoder from the same formats. -/

noncomputable section

namespace Sys2Proof

/-- Why bytes are no instruction. All of these trap under 09 R205; a near-bank word that is none is refused
by the verification of 15 R349. -/
inductive DecodeError where
  | truncated        -- fewer bytes than the instruction has
  | illegalFrame     -- frame 0b00 (R182)
  | reservedMajor    -- majors 30 and 31 (R197)
  | reservedCode     -- a function, op or cond code with no instruction (R197 to R203)
  | unusedBits       -- a nonzero bit the instruction does not use (R190)
  | outOfKind        -- a register, literal, scope or rounding field outside its kind (R189 to R191, R201)
  | missingPrefix    -- a base word that requires a prefix, without one (R185, R192)
  | badPrefix        -- a prefix word whose base word or pmajor does not fit (R185, R192)
  deriving DecidableEq, Repr

/-! ### Fields -/

/-- Bits [lo + n - 1 : lo] of a word. -/
abbrev bitsAt (w : TextWord) (lo n : Nat) : BitVec n := w.extractLsb' lo n

/-- Accept `i` when the unused bits are zero. -/
def unusedZero (ok : Bool) (i : Instr) : Except DecodeError Instr :=
  if ok then .ok i else .error .unusedBits

/-- The frame of a word (R182). -/
def frameOf (w : TextWord) : BitVec 2 := bitsAt w 0 2
/-- The major of a base word, or the pmajor of a prefix word (R187). -/
def majorOf (w : TextWord) : BitVec 5 := bitsAt w 2 5
def fD (w : TextWord) : BitVec 5 := bitsAt w 7 5
def fA (w : TextWord) : BitVec 5 := bitsAt w 12 5
def fB (w : TextWord) : BitVec 5 := bitsAt w 17 5
def fFn10 (w : TextWord) : BitVec 10 := bitsAt w 22 10
def fImm15 (w : TextWord) : BitVec 15 := bitsAt w 17 15
def fImm12 (w : TextWord) : BitVec 12 := bitsAt w 20 12
def fFn3 (w : TextWord) : BitVec 3 := bitsAt w 17 3
def fImm20 (w : TextWord) : BitVec 20 := bitsAt w 12 20
/-- The S12 immediate (R187). -/
def fImmS (w : TextWord) : BitVec 12 := bitsAt w 25 7 ++ bitsAt w 7 5
def fFn3S (w : TextWord) : BitVec 3 := bitsAt w 22 3
def fFn4 (w : TextWord) : BitVec 4 := bitsAt w 28 4
def fFn5 (w : TextWord) : BitVec 5 := bitsAt w 22 5
/-- The V operand fields (R187). -/
def fV (w : TextWord) : VOps where
  bs := bitsAt w 27 1 == 1#1
  cb := bitsAt w 26 1 == 1#1
  ca := bitsAt w 25 1 == 1#1
  m := bitsAt w 22 3
  b := bitsAt w 17 5
  a := bitsAt w 12 5
  d := bitsAt w 7 5

def zB (w : TextWord) : Bool := fB w == 0#5
def zA (w : TextWord) : Bool := fA w == 0#5
def zD (w : TextWord) : Bool := fD w == 0#5

/-- SYS, major 0 (R198). -/
def decodeSys (w : TextWord) : Except DecodeError Instr :=
  if bitsAt w 27 5 == 1#5 then .ok (.supervisorFunction (bitsAt w 22 5) (fD w) (fA w) (fB w)) else
  match (fFn10 w).toNat with
  | 0 => unusedZero (zB w && zA w && zD w) .nop
  | 1 => unusedZero (zB w && zA w && zD w) .exit
  | 2 => unusedZero (zB w && zA w && zD w) .brk
  | 3 => unusedZero (zA w && zD w) (.trap (fB w))
  | 4 => unusedZero (zB w && zA w && zD w) .eret
  | 5 => unusedZero (zB w && zA w && zD w) .yield
  | 6 => unusedZero (zD w) (.wait (fA w) (fB w))
  | 8 => unusedZero (zB w && zA w && zD w) .fenceSv
  | 9 => unusedZero (zB w && zA w && zD w) .fenceVs
  | 10 => unusedZero (zB w && zA w && zD w) .fenceVv
  | 11 => unusedZero (zB w && zA w && zD w) .fenceAll
  | 16 => unusedZero (zB w && zA w && zD w) .adjFwd
  | 17 => unusedZero (zB w && zA w && zD w) .adjRev
  | 18 => unusedZero (zB w && zA w && zD w) .adjOff
  | 20 => unusedZero (zB w && zD w) (.zstart (fA w))
  | 21 => unusedZero (zB w && zA w && zD w) .zend
  | _ => .error .reservedCode

/-- ALU, major 3 (R199). -/
def decodeAlu (w : TextWord) : Except DecodeError Instr :=
  if bitsAt w 28 4 == 8#4 then .ok (.fshi (fD w) (fA w) (fB w) (bitsAt w 22 6)) else
  match (fFn10 w).toNat with
  | 0 => .ok (.add (fD w) (fA w) (fB w))
  | 1 => .ok (.sub (fD w) (fA w) (fB w))
  | 2 => .ok (.and (fD w) (fA w) (fB w))
  | 3 => .ok (.or (fD w) (fA w) (fB w))
  | 4 => .ok (.xor (fD w) (fA w) (fB w))
  | 5 => .ok (.sll (fD w) (fA w) (fB w))
  | 6 => .ok (.srl (fD w) (fA w) (fB w))
  | 7 => .ok (.sra (fD w) (fA w) (fB w))
  | 8 => .ok (.slt (fD w) (fA w) (fB w))
  | 9 => .ok (.sltu (fD w) (fA w) (fB w))
  | 10 => .ok (.min (fD w) (fA w) (fB w))
  | 11 => .ok (.max (fD w) (fA w) (fB w))
  | 12 => .ok (.minu (fD w) (fA w) (fB w))
  | 13 => .ok (.maxu (fD w) (fA w) (fB w))
  | 16 => .ok (.mul (fD w) (fA w) (fB w))
  | 17 => .ok (.mulh (fD w) (fA w) (fB w))
  | 18 => .ok (.mulhu (fD w) (fA w) (fB w))
  | 19 => .ok (.div (fD w) (fA w) (fB w))
  | 20 => .ok (.divu (fD w) (fA w) (fB w))
  | 21 => .ok (.rem (fD w) (fA w) (fB w))
  | 22 => .ok (.remu (fD w) (fA w) (fB w))
  | 24 => unusedZero (zB w) (.clz (fD w) (fA w))
  | 25 => unusedZero (zB w) (.ctz (fD w) (fA w))
  | 26 => unusedZero (zB w) (.pop (fD w) (fA w))
  | 28 => .ok (.bext (fD w) (fA w) (fB w))
  | 29 => .ok (.bexts (fD w) (fA w) (fB w))
  | 30 => .ok (.bins (fD w) (fA w) (fB w))
  | _ => .error .reservedCode

/-- ALUI, major 4 (R188, R197). -/
def decodeAlui (w : TextWord) : Except DecodeError Instr :=
  match (fFn3 w).toNat with
  | 0 => .ok (.addi (fD w) (fA w) (fImm12 w))
  | 1 => .ok (.andi (fD w) (fA w) (fImm12 w))
  | 2 => .ok (.ori (fD w) (fA w) (fImm12 w))
  | 3 => .ok (.xori (fD w) (fA w) (fImm12 w))
  | 4 => .ok (.slti (fD w) (fA w) (fImm12 w))
  | 5 => .ok (.sltui (fD w) (fA w) (fImm12 w))
  | 6 => unusedZero (bitsAt w 26 6 == 0#6) (.slli (fD w) (fA w) (bitsAt w 20 6))
  | _ =>
    if bitsAt w 26 1 == 1#1 then unusedZero (bitsAt w 27 5 == 0#5) (.srai (fD w) (fA w) (bitsAt w 20 6))
    else unusedZero (bitsAt w 27 5 == 0#5) (.srli (fD w) (fA w) (bitsAt w 20 6))

/-- BR, major 7 (R197). -/
def decodeBr (w : TextWord) : Except DecodeError Instr :=
  match (fD w).toNat with
  | 0 => .ok (.beqz (fA w) (fImm15 w))
  | 1 => .ok (.bnez (fA w) (fImm15 w))
  | 2 => .ok (.bltz (fA w) (fImm15 w))
  | 3 => .ok (.bgez (fA w) (fImm15 w))
  | 4 => .ok (.bgtz (fA w) (fImm15 w))
  | 5 => .ok (.blez (fA w) (fImm15 w))
  | 8 => unusedZero (zA w) (.bqt (fImm15 w))
  | 9 => unusedZero (zA w) (.bqf (fImm15 w))
  | _ => .error .reservedCode

/-- LD, major 10 (R188, R197). -/
def decodeLd (w : TextWord) : Except DecodeError Instr :=
  match (fFn3 w).toNat with
  | 0 => .ok (.lb (fD w) (fA w) (fImm12 w))
  | 1 => .ok (.lh (fD w) (fA w) (fImm12 w))
  | 2 => .ok (.lw (fD w) (fA w) (fImm12 w))
  | 3 => .ok (.ld (fD w) (fA w) (fImm12 w))
  | 4 => .ok (.lbu (fD w) (fA w) (fImm12 w))
  | 5 => .ok (.lhu (fD w) (fA w) (fImm12 w))
  | 6 => .ok (.lwu (fD w) (fA w) (fImm12 w))
  | _ => .ok (.ldAcq (fD w) (fA w) (bitsAt w 20 3) (bitsAt w 23 9))

/-- ST, major 11 (R188, R197). -/
def decodeSt (w : TextWord) : Except DecodeError Instr :=
  match (fFn3S w).toNat with
  | 0 => .ok (.sb (fA w) (fB w) (fImmS w))
  | 1 => .ok (.sh (fA w) (fB w) (fImmS w))
  | 2 => .ok (.sw (fA w) (fB w) (fImmS w))
  | 3 => .ok (.sd (fA w) (fB w) (fImmS w))
  | 4 => .ok (.sdRel (fA w) (fB w) (bitsAt w 7 3) (bitsAt w 25 7 ++ bitsAt w 10 2))
  | _ => .error .reservedCode

/-- AMO, major 12 (R200). -/
def decodeAmo (w : TextWord) : Except DecodeError Instr :=
  match (fFn5 w).toNat with
  | 0 => .ok (.amoAddW (fD w) (fA w) (fB w) (bitsAt w 27 3) (bitsAt w 30 2))
  | 1 => .ok (.amoAddD (fD w) (fA w) (fB w) (bitsAt w 27 3) (bitsAt w 30 2))
  | 2 => .ok (.amoSwpW (fD w) (fA w) (fB w) (bitsAt w 27 3) (bitsAt w 30 2))
  | 3 => .ok (.amoSwpD (fD w) (fA w) (fB w) (bitsAt w 27 3) (bitsAt w 30 2))
  | 4 => .ok (.amoCasW (fD w) (fA w) (fB w) (bitsAt w 27 3) (bitsAt w 30 2))
  | 5 => .ok (.amoCasD (fD w) (fA w) (fB w) (bitsAt w 27 3) (bitsAt w 30 2))
  | 6 => .ok (.amoAnd (fD w) (fA w) (fB w) (bitsAt w 27 3) (bitsAt w 30 2))
  | 7 => .ok (.amoOr (fD w) (fA w) (fB w) (bitsAt w 27 3) (bitsAt w 30 2))
  | 8 => .ok (.amoXor (fD w) (fA w) (fB w) (bitsAt w 27 3) (bitsAt w 30 2))
  | 9 => .ok (.amoMin (fD w) (fA w) (fB w) (bitsAt w 27 3) (bitsAt w 30 2))
  | 10 => .ok (.amoMax (fD w) (fA w) (fB w) (bitsAt w 27 3) (bitsAt w 30 2))
  | 11 => .ok (.amoMinu (fD w) (fA w) (fB w) (bitsAt w 27 3) (bitsAt w 30 2))
  | 12 => .ok (.amoMaxu (fD w) (fA w) (fB w) (bitsAt w 27 3) (bitsAt w 30 2))
  | _ => .error .reservedCode

/-- The literal queue id of b (R190). -/
def withQueue (w : TextWord) (f : BitVec 2 → Except DecodeError Instr) : Except DecodeError Instr :=
  if (fB w).toNat < 4 then f (bitsAt w 17 2) else .error .outOfKind

/-- QOP, major 13 (R197, R242). -/
def decodeQop (w : TextWord) : Except DecodeError Instr :=
  match (fFn10 w).toNat with
  | 0 => withQueue w fun q => unusedZero (zD w) (.qpush (fA w) q)
  | 1 => withQueue w fun q => unusedZero (zA w) (.qpop (fD w) q)
  | 2 => withQueue w fun q => unusedZero (zA w) (.qpeek (fD w) q)
  | 3 => if (fB w).toNat = 2 then unusedZero (zD w) (.qpushb (fA w)) else .error .outOfKind
  | 4 => withQueue w fun q => unusedZero (zA w) (.qcnt (fD w) q)
  | 5 => withQueue w fun q => unusedZero (zA w && zD w) (.qclr q)
  | 6 => withQueue w fun q => unusedZero (zD w) (.qpushRel (fA w) q)
  | 7 => withQueue w fun q => unusedZero (zA w) (.qpopAcq (fD w) q)
  | _ => .error .reservedCode

/-- The stream number in d (R190). -/
def withStream (w : TextWord) (f : BitVec 4 → Except DecodeError Instr) : Except DecodeError Instr :=
  if (fD w).toNat < 16 then f (bitsAt w 7 4) else .error .outOfKind

/-- SSET, major 14 (R197, R307). -/
def decodeSset (w : TextWord) : Except DecodeError Instr :=
  match (fFn5 w).toNat with
  | 0 => withStream w fun s => unusedZero (zB w && bitsAt w 27 5 == 0#5) (.sload s (fA w))
  | 1 => withStream w fun s => .ok (.slin s (fA w) (fB w) (bitsAt w 27 5))
  | 2 => withStream w fun s => .ok (.sbit s (fA w) (fB w) (bitsAt w 27 5))
  | 3 => withStream w fun s => unusedZero (zA w && zB w && bitsAt w 27 5 == 0#5) (.sdrop s)
  | 4 => withStream w fun s => unusedZero (zB w && bitsAt w 27 5 == 0#5) (.spos s (fA w))
  | _ => .error .reservedCode

/-- FPS, major 15 (R201). -/
def decodeFps (w : TextWord) : Except DecodeError Instr :=
  match (fFn5 w).toNat with
  | 0 => .ok (.fadd (fD w) (fA w) (fB w) (bitsAt w 27 2) (bitsAt w 29 3))
  | 1 => .ok (.fsub (fD w) (fA w) (fB w) (bitsAt w 27 2) (bitsAt w 29 3))
  | 2 => .ok (.fmul (fD w) (fA w) (fB w) (bitsAt w 27 2) (bitsAt w 29 3))
  | 3 => .ok (.fdiv (fD w) (fA w) (fB w) (bitsAt w 27 2) (bitsAt w 29 3))
  | 4 => unusedZero (zB w) (.fsqrt (fD w) (fA w) (bitsAt w 27 2) (bitsAt w 29 3))
  | 5 => unusedZero (zB w) (.frsq (fD w) (fA w) (bitsAt w 27 2) (bitsAt w 29 3))
  | 6 => .ok (.fma (fD w) (fA w) (fB w) (bitsAt w 27 2) (bitsAt w 29 3))
  | 7 => unusedZero (bitsAt w 29 3 == 0#3) (.fmin (fD w) (fA w) (fB w) (bitsAt w 27 2))
  | 8 => unusedZero (bitsAt w 29 3 == 0#3) (.fmax (fD w) (fA w) (fB w) (bitsAt w 27 2))
  | 9 => if (fB w).toNat < 8 then .ok (.fcvt (fD w) (fA w) (bitsAt w 17 3) (bitsAt w 27 2) (bitsAt w 29 3)) else .error .outOfKind
  | 10 => unusedZero (bitsAt w 29 3 == 0#3) (.feq (fD w) (fA w) (fB w) (bitsAt w 27 2))
  | 11 => unusedZero (bitsAt w 29 3 == 0#3) (.flt (fD w) (fA w) (fB w) (bitsAt w 27 2))
  | 12 => unusedZero (bitsAt w 29 3 == 0#3) (.fle (fD w) (fA w) (fB w) (bitsAt w 27 2))
  | 13 => unusedZero (zB w && bitsAt w 29 3 == 0#3) (.fclass (fD w) (fA w) (bitsAt w 27 2))
  | 14 => if (fB w).toNat < 8 then .ok (.fcvti (fD w) (fA w) (bitsAt w 17 3) (bitsAt w 27 2) (bitsAt w 29 3)) else .error .outOfKind
  | _ => .error .reservedCode

/-- VCFG, major 16 (R197, 12 R263). -/
def decodeVcfg (w : TextWord) : Except DecodeError Instr :=
  match (fFn10 w).toNat with
  | 0 => unusedZero (zB w) (.vsetl (fD w) (fA w))
  | 1 => unusedZero (zB w) (.vsetg (fD w) (fA w))
  | 2 => unusedZero (zB w) (.vsetf (fD w) (fA w))
  | 3 => unusedZero (zB w && zA w && zD w) .vsetst
  | 4 => unusedZero (zA w && zB w) (.vclr (fD w))
  | 5 => unusedZero (zB w) (.vgetf (fD w) (fA w))
  | _ => .error .reservedCode

/-- VIA, major 17 (R202, 13 R286). -/
def decodeVia (w : TextWord) : Except DecodeError Instr :=
  match (fFn4 w).toNat with
  | 0 => .ok (.vadd (fV w))
  | 1 => .ok (.vsub (fV w))
  | 2 => .ok (.vmul (fV w))
  | 3 => .ok (.vmulh (fV w))
  | 4 => .ok (.vmac (fV w))
  | 5 => .ok (.vand (fV w))
  | 6 => .ok (.vor (fV w))
  | 7 => .ok (.vxor (fV w))
  | 8 => .ok (.vsll (fV w))
  | 9 => .ok (.vsrl (fV w))
  | 10 => .ok (.vsra (fV w))
  | 11 => .ok (.vmin (fV w))
  | 12 => .ok (.vmax (fV w))
  | 13 => .ok (.vminu (fV w))
  | 14 => .ok (.vmaxu (fV w))
  | _ => .ok (.vsel (fV w))

/-- VIB, major 18 (R202, 13 R287). -/
def decodeVib (w : TextWord) : Except DecodeError Instr :=
  match (fFn4 w).toNat with
  | 0 => .ok (.vadds (fV w))
  | 1 => .ok (.vsubs (fV w))
  | 2 => .ok (.vaddsu (fV w))
  | 3 => .ok (.vsubsu (fV w))
  | 4 => .ok (.vdiv (fV w))
  | 5 => .ok (.vrem (fV w))
  | 6 => .ok (.vdivu (fV w))
  | 7 => .ok (.vremu (fV w))
  | 8 => .ok (.vabs (fV w))
  | 9 => .ok (.vclz (fV w))
  | 10 => .ok (.vpop (fV w))
  | 11 => .ok (.vwmul (fV w))
  | 12 => .ok (.vwmac (fV w))
  | 13 => .ok (.vbext (fV w))
  | 14 => .ok (.vmov (fV w))
  | _ => .error .reservedCode

/-- VCMP, major 19 (R202, 13 R294). -/
def decodeVcmp (w : TextWord) : Except DecodeError Instr :=
  match (fFn4 w).toNat with
  | 0 => .ok (.vmeq (fV w))
  | 1 => .ok (.vmne (fV w))
  | 2 => .ok (.vmlt (fV w))
  | 3 => .ok (.vmle (fV w))
  | 4 => .ok (.vmltu (fV w))
  | 5 => .ok (.vmleu (fV w))
  | 6 => .ok (.vmfeq (fV w))
  | 7 => .ok (.vmflt (fV w))
  | 8 => .ok (.vmfle (fV w))
  | 9 => .ok (.vmfun (fV w))
  | 10 => .ok (.vmfin (fV w))
  | 11 => .ok (.vmand (fV w))
  | 12 => .ok (.vmor (fV w))
  | 13 => .ok (.vmxor (fV w))
  | 14 => .ok (.vmandn (fV w))
  | _ => .error .reservedCode

/-- VFP, major 20 (R202, 13 R290). -/
def decodeVfp (w : TextWord) : Except DecodeError Instr :=
  match (fFn4 w).toNat with
  | 0 => .ok (.vfadd (fV w))
  | 1 => .ok (.vfsub (fV w))
  | 2 => .ok (.vfmul (fV w))
  | 3 => .ok (.vfdiv (fV w))
  | 4 => .ok (.vfmac (fV w))
  | 5 => .ok (.vfnmac (fV w))
  | 6 => .ok (.vfmin (fV w))
  | 7 => .ok (.vfmax (fV w))
  | 8 => .ok (.vfsqrt (fV w))
  | 9 => .ok (.vfrsq (fV w))
  | 10 => .ok (.vfrcp (fV w))
  | 11 => .ok (.vfabs (fV w))
  | 12 => .ok (.vfneg (fV w))
  | 13 => .ok (.vfcvt (fV w))
  | _ => .error .reservedCode

/-- VCODE, major 21 (R202, 12 R268). -/
def decodeVcode (w : TextWord) : Except DecodeError Instr :=
  match (fFn4 w).toNat with
  | 0 => .ok (.vdec (fV w))
  | 1 => .ok (.venc (fV w))
  | 2 => .ok (.vbnd (fV w))
  | 3 => .ok (.vcnt (fV w))
  | 4 => .ok (.vtier (fV w))
  | 5 => .ok (.vbits (fV w))
  | 6 => .ok (.vskip (fV w))
  | 7 => .ok (.vcat (fV w))
  | 8 => .ok (.vbget (fV w))
  | 9 => .ok (.vpack (fV w))
  | 10 => .ok (.vexpand (fV w))
  | 11 => .ok (.vrepack (fV w))
  | _ => .error .reservedCode

/-- VRED, major 22 (R202, 13 R296). -/
def decodeVred (w : TextWord) : Except DecodeError Instr :=
  match (fFn4 w).toNat with
  | 0 => .ok (.vredsum (fV w))
  | 1 => .ok (.vredmin (fV w))
  | 2 => .ok (.vredmax (fV w))
  | 3 => .ok (.vredand (fV w))
  | 4 => .ok (.vredor (fV w))
  | 5 => .ok (.vredxor (fV w))
  | 6 => .ok (.vfredsum (fV w))
  | 7 => .ok (.vfredmin (fV w))
  | 8 => .ok (.vfredmax (fV w))
  | 9 => .ok (.vfredsq (fV w))
  | 10 => .ok (.vscan (fV w))
  | 11 => .ok (.vfscan (fV w))
  | 12 => .ok (.vfirst (fV w))
  | 13 => .ok (.vmcnt (fV w))
  | 14 => .ok (.viota (fV w))
  | _ => .ok (.vid (fV w))

/-- VPERM, major 23 (R202, 12 R276). -/
def decodeVperm (w : TextWord) : Except DecodeError Instr :=
  match (fFn4 w).toNat with
  | 0 => .ok (.vslidedn (fV w))
  | 1 => .ok (.vslideup (fV w))
  | 2 => .ok (.vgatherv (fV w))
  | 3 => .ok (.vbcast (fV w))
  | 4 => .ok (.vext (fV w))
  | 5 => .ok (.vins (fV w))
  | 6 => .ok (.vzip (fV w))
  | 7 => .ok (.vunzip (fV w))
  | 8 => .ok (.vrev (fV w))
  | 9 => .ok (.vbrk (fV w))
  | 10 => .ok (.vbrkb (fV w))
  | 11 => .ok (.vbput (fV w))
  | _ => .error .reservedCode

/-- VMEM, major 24 (R202, 14 R310). -/
def decodeVmem (w : TextWord) : Except DecodeError Instr :=
  match (fFn4 w).toNat with
  | 0 => .ok (.vld (fV w))
  | 1 => .ok (.vst (fV w))
  | 2 => .ok (.vldff (fV w))
  | 3 => .ok (.vldx (fV w))
  | 4 => .ok (.vstx (fV w))
  | 5 => .ok (.vldw (fV w))
  | 6 => .ok (.vspill (fV w))
  | 7 => .ok (.vfill (fV w))
  | 8 => .ok (.snext (fV w))
  | 9 => .error .missingPrefix
  | _ => .error .reservedCode

/-- VATOM, major 25 (R202, 14 R320, R322). -/
def decodeVatom (w : TextWord) : Except DecodeError Instr :=
  match (fFn4 w).toNat with
  | 0 => .ok (.vamoadd (fV w))
  | 1 => .ok (.vamomin (fV w))
  | 2 => .ok (.vamomax (fV w))
  | 3 => .ok (.vamoand (fV w))
  | 4 => .ok (.vamoor (fV w))
  | 5 => .ok (.vamoxor (fV w))
  | 6 => .ok (.vamoswp (fV w))
  | 7 => .ok (.vfamoadd (fV w))
  | 8 => .ok (.wopen (fV w))
  | 9 => .ok (.wadd (fV w))
  | 10 => .ok (.wfadd (fV w))
  | 11 => .ok (.wmerge (fV w))
  | 12 => .ok (.wclose (fV w))
  | _ => .error .reservedCode

/-- ZMX, major 26 (R202, 15 R329). -/
def decodeZmx (w : TextWord) : Except DecodeError Instr :=
  match (fFn4 w).toNat with
  | 0 => .ok (.zzero (fV w))
  | 1 => .ok (.zmma (fV w))
  | 2 => .ok (.zop (fV w))
  | 3 => .ok (.zdr (fV w))
  | 4 => .ok (.zacc (fV w))
  | 15 => .error .missingPrefix
  | _ => .error .reservedCode

/-- ADJ, major 27 (R197, 15 R337). -/
def decodeAdj (w : TextWord) : Except DecodeError Instr :=
  match (fFn10 w).toNat with
  | 0 => unusedZero (zB w) (.adjld (fD w) (fA w))
  | 1 => unusedZero (zD w) (.adjst (fA w) (fB w))
  | 2 => unusedZero (zB w && zD w) (.tmark (fA w))
  | 3 => unusedZero (zB w && zD w) (.trew (fA w))
  | _ => .error .reservedCode

/-- ENG, major 28, without a prefix (R192, R197, 15 R340). -/
def decodeEng (w : TextWord) : Except DecodeError Instr :=
  match (fFn10 w).toNat with
  | 0 => .error .missingPrefix
  | 1 => .error .missingPrefix
  | 2 => .error .missingPrefix
  | 3 => .ok (.cwait (fD w) (fA w) (fB w))
  | 4 => unusedZero (zD w) (.csig (fA w) (fB w))
  | 5 => .error .missingPrefix
  | _ => .error .reservedCode

/-- GSYNC, major 29 (R197, 11 R251). -/
def decodeGsync (w : TextWord) : Except DecodeError Instr :=
  match (fFn10 w).toNat with
  | 0 => unusedZero (zA w && zB w) (.gbar (fD w))
  | 1 => unusedZero (zA w && zB w) (.garr (fD w))
  | 2 => unusedZero (zB w && zD w) (.gwait (fA w))
  | _ => .error .reservedCode

/-- A base word by its major (R197), before the checks of `Instr.wf`. -/
def decodeMajor (w : TextWord) : Except DecodeError Instr :=
  match (majorOf w).toNat with
  | 0 => decodeSys w
  | 1 => unusedZero (zA w) (.getc (fD w) (fImm15 w))
  | 2 => unusedZero (zD w) (.setc (fImm15 w) (fA w))
  | 3 => decodeAlu w
  | 4 => decodeAlui w
  | 5 => .ok (.ldhi (fD w) (fImm20 w))
  | 6 => .ok (.adpc (fD w) (fImm20 w))
  | 7 => decodeBr w
  | 8 => .ok (.jal (fD w) (fImm20 w))
  | 9 => .ok (.jalr (fD w) (fA w) (fImm15 w))
  | 10 => decodeLd w
  | 11 => decodeSt w
  | 12 => decodeAmo w
  | 13 => decodeQop w
  | 14 => decodeSset w
  | 15 => decodeFps w
  | 16 => decodeVcfg w
  | 17 => decodeVia w
  | 18 => decodeVib w
  | 19 => decodeVcmp w
  | 20 => decodeVfp w
  | 21 => decodeVcode w
  | 22 => decodeVred w
  | 23 => decodeVperm w
  | 24 => decodeVmem w
  | 25 => decodeVatom w
  | 26 => decodeZmx w
  | 27 => decodeAdj w
  | 28 => decodeEng w
  | 29 => decodeGsync w
  | _ => .error .reservedMajor

/-- Refuse a term the encoding does not allow (R189 to R191). -/
def checkWf (r : Except DecodeError Instr) : Except DecodeError Instr :=
  match r with
  | .ok i => if i.wf then .ok i else .error .outOfKind
  | .error e => .error e

/-- A base word (R187, R197). -/
def decodeBase (w : TextWord) : Except DecodeError Instr := checkWf (decodeMajor w)

/-- The 25-bit payload of a prefix word (R187). -/
def payload (p : TextWord) : BitVec 25 := bitsAt p 7 25

/-- A matrix prefix (R194, 15 R335): ZMX fn4 15 with d = 0, m = 0, ca = cb = 0 and bs = 1. -/
def decodeMatrixPrefix (p w : TextWord) : Except DecodeError Instr :=
  if majorOf w != 26#5 || fFn4 w != 15#4 then .error .badPrefix else
  if bitsAt p 23 9 != 0#9 || fD w != 0#5 || bitsAt w 22 3 != 0#3 || bitsAt w 25 2 != 0#2 || bitsAt w 27 1 != 1#1
  then .error .unusedBits else
  match (bitsAt p 7 2).toNat with
  | 0 => .ok (.zld (fA w) (fB w) (bitsAt p 9 2) (bitsAt p 11 6) (bitsAt p 17 6))
  | 1 => .ok (.zst (fA w) (fB w) (bitsAt p 9 2) (bitsAt p 11 6) (bitsAt p 17 6))
  | _ => .error .reservedCode

/-- An engine prefix (R195, 15 R340): ENG fn10 0, 1, 2 or 5 with d = 0. -/
def decodeEnginePrefix (p w : TextWord) : Except DecodeError Instr :=
  if majorOf w != 28#5 then .error .badPrefix else
  let e := bitsAt p 7 5
  let imm8 := bitsAt p 12 8
  let ok := bitsAt p 20 12 == 0#12 && zD w
  match (fFn10 w).toNat with
  | 0 => unusedZero (ok && imm8 == 0#8 && zB w) (.cpy (fA w) e)
  | 1 => unusedZero (ok && zB w) (.coll imm8 (fA w) e)
  | 2 => unusedZero ok (.nbe imm8 (fA w) (fB w) e)
  | 5 => unusedZero (ok && zB w) (.launch imm8 (fA w) e)
  | _ => .error .badPrefix

/-- A vector-memory prefix (R196, 14 R318, R319): VMEM fn4 9. -/
def decodeVmemPrefix (p w : TextWord) : Except DecodeError Instr :=
  if majorOf w != 24#5 || fFn4 w != 9#4 then .error .badPrefix else
  if bitsAt p 18 14 != 0#14 then .error .unusedBits else
  match (bitsAt p 7 2).toNat with
  | 0 => unusedZero (bitsAt p 9 4 == 0#4) (.vld2 (fV w) (bitsAt p 13 5))
  | 1 => .ok (.vstp (fV w) (bitsAt p 13 5) (bitsAt p 9 4))
  | _ => .error .reservedCode

/-- A long-immediate prefix (R193). -/
def decodeLongPrefix (p w : TextWord) : Except DecodeError Instr :=
  match (majorOf w).toNat with
  | 4 =>
    match (fFn3 w).toNat with
    | 0 => .ok (.addiLong (fD w) (fA w) (payload p ++ fImm12 w))
    | 1 => .ok (.andiLong (fD w) (fA w) (payload p ++ fImm12 w))
    | 2 => .ok (.oriLong (fD w) (fA w) (payload p ++ fImm12 w))
    | 3 => .ok (.xoriLong (fD w) (fA w) (payload p ++ fImm12 w))
    | 4 => .ok (.sltiLong (fD w) (fA w) (payload p ++ fImm12 w))
    | 5 => .ok (.sltuiLong (fD w) (fA w) (payload p ++ fImm12 w))
    | _ => .error .badPrefix
  | 5 => .ok (.ldhiLong (fD w) (payload p ++ fImm20 w))
  | 6 => .ok (.adpcLong (fD w) (payload p ++ fImm20 w))
  | 9 => .ok (.jalrLong (fD w) (fA w) (payload p ++ fImm15 w))
  | 10 =>
    match (fFn3 w).toNat with
    | 0 => .ok (.lbLong (fD w) (fA w) (payload p ++ fImm12 w))
    | 1 => .ok (.lhLong (fD w) (fA w) (payload p ++ fImm12 w))
    | 2 => .ok (.lwLong (fD w) (fA w) (payload p ++ fImm12 w))
    | 3 => .ok (.ldLong (fD w) (fA w) (payload p ++ fImm12 w))
    | 4 => .ok (.lbuLong (fD w) (fA w) (payload p ++ fImm12 w))
    | 5 => .ok (.lhuLong (fD w) (fA w) (payload p ++ fImm12 w))
    | 6 => .ok (.lwuLong (fD w) (fA w) (payload p ++ fImm12 w))
    | _ => .error .badPrefix
  | 11 =>
    match (fFn3S w).toNat with
    | 0 => .ok (.sbLong (fA w) (fB w) (payload p ++ fImmS w))
    | 1 => .ok (.shLong (fA w) (fB w) (payload p ++ fImmS w))
    | 2 => .ok (.swLong (fA w) (fB w) (payload p ++ fImmS w))
    | 3 => .ok (.sdLong (fA w) (fB w) (payload p ++ fImmS w))
    | _ => .error .badPrefix
  | _ => .error .badPrefix

/-- A prefix word and the word after it (R185, R192). -/
def decodePrefixed (p w : TextWord) : Except DecodeError Instr :=
  if frameOf w != 3#2 then .error .badPrefix else
  match (majorOf p).toNat with
  | 0 => checkWf (decodeMatrixPrefix p w)
  | 1 => checkWf (decodeEnginePrefix p w)
  | 2 => checkWf (decodeVmemPrefix p w)
  | 3 => checkWf (decodeLongPrefix p w)
  | _ => .error .badPrefix

/-- A compressed slot of 15 bits (R203). -/
def decodeSlot (t : BitVec 15) : Except DecodeError Instr :=
  let x : BitVec 5 := t.extractLsb' 5 5
  let y : BitVec 5 := t.extractLsb' 10 5
  let queue (f : BitVec 2 → Instr) : Except DecodeError Instr :=
    if y.toNat ≤ 2 then .ok (f (t.extractLsb' 10 2)) else .error .outOfKind
  match (t.extractLsb' 0 5).toNat with
  | 0 => unusedZero (x == 0#5 && y == 0#5) .cNop
  | 1 => .ok (.cMov x y)
  | 2 => .ok (.cAddi x y)
  | 3 => .ok (.cAdd x y)
  | 4 => .ok (.cSub x y)
  | 5 => .ok (.cAnd x y)
  | 6 => .ok (.cSlli x y)
  | 7 => .ok (.cLd x y)
  | 8 => .ok (.cSd x y)
  | 9 => queue (.cQpush x)
  | 10 => queue (.cQpop x)
  | 11 => .ok (.cBnez x y)
  | 12 => .ok (.cJ (y ++ x))
  | _ => .error .reservedCode

/-- Slot 0 or slot 1 of a compressed pair (R182, R203). -/
def slotOf (w : TextWord) (slot1 : Bool) : BitVec 15 := if slot1 then bitsAt w 17 15 else bitsAt w 2 15

/-- A near-bank word before the checks of `Instr.wf` (15 R351). -/
def decodeNbeOp (w : TextWord) : Except DecodeError Instr :=
  let k : Bool := bitsAt w 4 1 == 1#1
  let x : BitVec 3 := bitsAt w 5 3
  let y : BitVec 3 := bitsAt w 8 3
  let z : BitVec 3 := bitsAt w 11 3
  let fmt : BitVec 5 := bitsAt w 14 5
  let imm : BitVec 13 := bitsAt w 19 13
  let y0 := y == 0#3
  let z0 := z == 0#3
  let f0 := fmt == 0#5
  let i0 := imm == 0#13
  match (bitsAt w 0 4).toNat with
  | 0 => .ok (.nset k x (bitsAt w 8 24))
  | 1 =>
    if z == 1#3 then unusedZero (f0 && i0) (.naddReg k x y) else unusedZero (z0 && f0) (.naddImm k x y imm)
  | 2 => unusedZero (k && y0 && z0 && f0) (.nloop x imm)
  | 3 => unusedZero (!k && y0 && z0 && f0 && i0) (.nact x)
  | 4 => unusedZero (!k && y0 && z0 && f0) (.nrd x imm)
  | 5 => unusedZero (!k && x == 0#3 && y0 && z0) (.ndec fmt imm)
  | 6 => unusedZero (!k && z0 && f0) (.nldx x y imm)
  | 7 => unusedZero (!k && z0 && i0) (.nmac x y fmt)
  | 8 => unusedZero (z0 && f0) (.nred k x y imm)
  | 9 => unusedZero (z0 && !k) (.nst x y fmt imm)
  | 10 => unusedZero (!k && y0 && z0 && f0) (.nsig x imm)
  | 11 => unusedZero (!k && x == 0#3 && y0 && z0 && f0 && i0) .nwait
  | 12 => unusedZero (!k && z0 && f0 && i0) (.nbar x y)
  | 13 => unusedZero (x == 0#3 && z0) (.ncvt k y fmt imm)
  | 14 => unusedZero (!k && x == 0#3 && y0 && z0 && f0 && i0) .nend
  | _ => unusedZero (!k && x == 0#3 && y0 && z0 && f0 && i0) .nnop

/-- A near-bank word (15 R349, R351). -/
def decodeNbe (w : TextWord) : Except DecodeError Instr := checkWf (decodeNbeOp w)

/-- Two words of text at a word-aligned address, or slot 1 of the first: the instruction and its size in bytes
as its successor counts it (R183). `next` is the following word, absent when the text ends. -/
def decodeWords (w : TextWord) (next : Option TextWord) (slot1 : Bool) : Except DecodeError (Instr × Nat) :=
  match (frameOf w).toNat with
  | 0 => .error .illegalFrame
  | 1 => (decodeSlot (slotOf w slot1)).map (·, 2)
  | 2 =>
    match next with
    | none => .error .truncated
    | some b => (decodePrefixed w b).map (·, 8)
  | _ => (decodeBase w).map (·, 4)

/-- The little-endian word at the head of a list of bytes (00 R4). -/
def wordOfBytes : List Byte → Option TextWord
  | b0 :: b1 :: b2 :: b3 :: _ => some (b3 ++ b2 ++ b1 ++ b0)
  | _ => none

/-- The decoder: the instruction at the head of the bytes of text, and the bytes after it. -/
def decode (bs : List Byte) : Except DecodeError (Instr × List Byte) :=
  match wordOfBytes bs with
  | none => .error .truncated
  | some w => (decodeWords w (wordOfBytes (bs.drop 4)) false).map fun r => (r.1, bs.drop r.2)

/-! ### The encoder -/

/-- R format (R187). -/
def rWord (fn : BitVec 10) (b a d mj : BitVec 5) : TextWord := fn ++ b ++ a ++ d ++ mj ++ 3#2
/-- I15 and B formats (R187). -/
def i15Word (imm : BitVec 15) (a d mj : BitVec 5) : TextWord := imm ++ a ++ d ++ mj ++ 3#2
/-- I12 format (R187). -/
def i12Word (imm : BitVec 12) (fn3 : BitVec 3) (a d mj : BitVec 5) : TextWord := imm ++ fn3 ++ a ++ d ++ mj ++ 3#2
/-- S12 format (R187). -/
def s12Word (imm : BitVec 12) (fn3 : BitVec 3) (b a mj : BitVec 5) : TextWord :=
  imm.extractLsb' 5 7 ++ fn3 ++ b ++ a ++ imm.extractLsb' 0 5 ++ mj ++ 3#2
/-- U and J formats (R187). -/
def uWord (imm : BitVec 20) (d mj : BitVec 5) : TextWord := imm ++ d ++ mj ++ 3#2
/-- V format (R187). -/
def vWord (fn4 : BitVec 4) (o : VOps) (mj : BitVec 5) : TextWord :=
  fn4 ++ BitVec.ofBool o.bs ++ BitVec.ofBool o.cb ++ BitVec.ofBool o.ca ++ o.m ++ o.b ++ o.a ++ o.d ++ mj ++ 3#2
/-- A prefix word (R187). -/
def prefixWord (p : BitVec 25) (pm : BitVec 5) : TextWord := p ++ pm ++ 2#2
/-- A compressed pair with `c.nop` in slot 1 (R182, R203). -/
def slotWord (y x op : BitVec 5) : TextWord := 0#15 ++ y ++ x ++ op ++ 1#2
/-- A near-bank word (15 R351). -/
def nbeWord (imm : BitVec 13) (fmt : BitVec 5) (z y x : BitVec 3) (k : Bool) (op : BitVec 4) : TextWord :=
  imm ++ fmt ++ z ++ y ++ x ++ BitVec.ofBool k ++ op

/-- The words of an instruction (R187 to R203, 15 R351); a device event has none. -/
def encode : Instr → List TextWord
  | .nop => [rWord 0#10 0#5 0#5 0#5 0#5]
  | .exit => [rWord 1#10 0#5 0#5 0#5 0#5]
  | .brk => [rWord 2#10 0#5 0#5 0#5 0#5]
  | .trap n => [rWord 3#10 n 0#5 0#5 0#5]
  | .eret => [rWord 4#10 0#5 0#5 0#5 0#5]
  | .yield => [rWord 5#10 0#5 0#5 0#5 0#5]
  | .wait a b => [rWord 6#10 b a 0#5 0#5]
  | .fenceSv => [rWord 8#10 0#5 0#5 0#5 0#5]
  | .fenceVs => [rWord 9#10 0#5 0#5 0#5 0#5]
  | .fenceVv => [rWord 10#10 0#5 0#5 0#5 0#5]
  | .fenceAll => [rWord 11#10 0#5 0#5 0#5 0#5]
  | .adjFwd => [rWord 16#10 0#5 0#5 0#5 0#5]
  | .adjRev => [rWord 17#10 0#5 0#5 0#5 0#5]
  | .adjOff => [rWord 18#10 0#5 0#5 0#5 0#5]
  | .zstart a => [rWord 20#10 0#5 a 0#5 0#5]
  | .zend => [rWord 21#10 0#5 0#5 0#5 0#5]
  | .getc d n => [i15Word n 0#5 d 1#5]
  | .setc n a => [i15Word n a 0#5 2#5]
  | .add d a b => [rWord 0#10 b a d 3#5]
  | .sub d a b => [rWord 1#10 b a d 3#5]
  | .and d a b => [rWord 2#10 b a d 3#5]
  | .or d a b => [rWord 3#10 b a d 3#5]
  | .xor d a b => [rWord 4#10 b a d 3#5]
  | .sll d a b => [rWord 5#10 b a d 3#5]
  | .srl d a b => [rWord 6#10 b a d 3#5]
  | .sra d a b => [rWord 7#10 b a d 3#5]
  | .slt d a b => [rWord 8#10 b a d 3#5]
  | .sltu d a b => [rWord 9#10 b a d 3#5]
  | .min d a b => [rWord 10#10 b a d 3#5]
  | .max d a b => [rWord 11#10 b a d 3#5]
  | .minu d a b => [rWord 12#10 b a d 3#5]
  | .maxu d a b => [rWord 13#10 b a d 3#5]
  | .mul d a b => [rWord 16#10 b a d 3#5]
  | .mulh d a b => [rWord 17#10 b a d 3#5]
  | .mulhu d a b => [rWord 18#10 b a d 3#5]
  | .div d a b => [rWord 19#10 b a d 3#5]
  | .divu d a b => [rWord 20#10 b a d 3#5]
  | .rem d a b => [rWord 21#10 b a d 3#5]
  | .remu d a b => [rWord 22#10 b a d 3#5]
  | .clz d a => [rWord 24#10 0#5 a d 3#5]
  | .ctz d a => [rWord 25#10 0#5 a d 3#5]
  | .pop d a => [rWord 26#10 0#5 a d 3#5]
  | .bext d a b => [rWord 28#10 b a d 3#5]
  | .bexts d a b => [rWord 29#10 b a d 3#5]
  | .bins d a b => [rWord 30#10 b a d 3#5]
  | .fshi d a b sh => [rWord (8#4 ++ sh) b a d 3#5]
  | .addi d a imm => [i12Word imm 0#3 a d 4#5]
  | .andi d a imm => [i12Word imm 1#3 a d 4#5]
  | .ori d a imm => [i12Word imm 2#3 a d 4#5]
  | .xori d a imm => [i12Word imm 3#3 a d 4#5]
  | .slti d a imm => [i12Word imm 4#3 a d 4#5]
  | .sltui d a imm => [i12Word imm 5#3 a d 4#5]
  | .slli d a sh => [i12Word (0#6 ++ sh) 6#3 a d 4#5]
  | .srli d a sh => [i12Word (0#6 ++ sh) 7#3 a d 4#5]
  | .srai d a sh => [i12Word (1#6 ++ sh) 7#3 a d 4#5]
  | .ldhi d imm => [uWord imm d 5#5]
  | .adpc d imm => [uWord imm d 6#5]
  | .beqz a off => [i15Word off a 0#5 7#5]
  | .bnez a off => [i15Word off a 1#5 7#5]
  | .bltz a off => [i15Word off a 2#5 7#5]
  | .bgez a off => [i15Word off a 3#5 7#5]
  | .bgtz a off => [i15Word off a 4#5 7#5]
  | .blez a off => [i15Word off a 5#5 7#5]
  | .bqt off => [i15Word off 0#5 8#5 7#5]
  | .bqf off => [i15Word off 0#5 9#5 7#5]
  | .jal d off => [uWord off d 8#5]
  | .jalr d a imm => [i15Word imm a d 9#5]
  | .lb d a imm => [i12Word imm 0#3 a d 10#5]
  | .lh d a imm => [i12Word imm 1#3 a d 10#5]
  | .lw d a imm => [i12Word imm 2#3 a d 10#5]
  | .ld d a imm => [i12Word imm 3#3 a d 10#5]
  | .lbu d a imm => [i12Word imm 4#3 a d 10#5]
  | .lhu d a imm => [i12Word imm 5#3 a d 10#5]
  | .lwu d a imm => [i12Word imm 6#3 a d 10#5]
  | .ldAcq d a sc off => [i12Word (off ++ sc) 7#3 a d 10#5]
  | .sb a b imm => [s12Word imm 0#3 b a 11#5]
  | .sh a b imm => [s12Word imm 1#3 b a 11#5]
  | .sw a b imm => [s12Word imm 2#3 b a 11#5]
  | .sd a b imm => [s12Word imm 3#3 b a 11#5]
  | .sdRel a b sc off => [s12Word (off ++ sc) 4#3 b a 11#5]
  | .amoAddW d a b sc od => [rWord (od ++ sc ++ 0#5) b a d 12#5]
  | .amoAddD d a b sc od => [rWord (od ++ sc ++ 1#5) b a d 12#5]
  | .amoSwpW d a b sc od => [rWord (od ++ sc ++ 2#5) b a d 12#5]
  | .amoSwpD d a b sc od => [rWord (od ++ sc ++ 3#5) b a d 12#5]
  | .amoCasW d a b sc od => [rWord (od ++ sc ++ 4#5) b a d 12#5]
  | .amoCasD d a b sc od => [rWord (od ++ sc ++ 5#5) b a d 12#5]
  | .amoAnd d a b sc od => [rWord (od ++ sc ++ 6#5) b a d 12#5]
  | .amoOr d a b sc od => [rWord (od ++ sc ++ 7#5) b a d 12#5]
  | .amoXor d a b sc od => [rWord (od ++ sc ++ 8#5) b a d 12#5]
  | .amoMin d a b sc od => [rWord (od ++ sc ++ 9#5) b a d 12#5]
  | .amoMax d a b sc od => [rWord (od ++ sc ++ 10#5) b a d 12#5]
  | .amoMinu d a b sc od => [rWord (od ++ sc ++ 11#5) b a d 12#5]
  | .amoMaxu d a b sc od => [rWord (od ++ sc ++ 12#5) b a d 12#5]
  | .qpush a q => [rWord 0#10 (0#3 ++ q) a 0#5 13#5]
  | .qpop d q => [rWord 1#10 (0#3 ++ q) 0#5 d 13#5]
  | .qpeek d q => [rWord 2#10 (0#3 ++ q) 0#5 d 13#5]
  | .qpushb a => [rWord 3#10 2#5 a 0#5 13#5]
  | .qcnt d q => [rWord 4#10 (0#3 ++ q) 0#5 d 13#5]
  | .qclr q => [rWord 5#10 (0#3 ++ q) 0#5 0#5 13#5]
  | .qpushRel a q => [rWord 6#10 (0#3 ++ q) a 0#5 13#5]
  | .qpopAcq d q => [rWord 7#10 (0#3 ++ q) 0#5 d 13#5]
  | .sload s a => [rWord 0#10 0#5 a (0#1 ++ s) 14#5]
  | .slin s a b fmt => [rWord (fmt ++ 1#5) b a (0#1 ++ s) 14#5]
  | .sbit s a b fmt => [rWord (fmt ++ 2#5) b a (0#1 ++ s) 14#5]
  | .sdrop s => [rWord 3#10 0#5 0#5 (0#1 ++ s) 14#5]
  | .spos s a => [rWord 4#10 0#5 a (0#1 ++ s) 14#5]
  | .fadd d a b pr rn => [rWord (rn ++ pr ++ 0#5) b a d 15#5]
  | .fsub d a b pr rn => [rWord (rn ++ pr ++ 1#5) b a d 15#5]
  | .fmul d a b pr rn => [rWord (rn ++ pr ++ 2#5) b a d 15#5]
  | .fdiv d a b pr rn => [rWord (rn ++ pr ++ 3#5) b a d 15#5]
  | .fsqrt d a pr rn => [rWord (rn ++ pr ++ 4#5) 0#5 a d 15#5]
  | .frsq d a pr rn => [rWord (rn ++ pr ++ 5#5) 0#5 a d 15#5]
  | .fma d a b pr rn => [rWord (rn ++ pr ++ 6#5) b a d 15#5]
  | .fmin d a b pr => [rWord (0#3 ++ pr ++ 7#5) b a d 15#5]
  | .fmax d a b pr => [rWord (0#3 ++ pr ++ 8#5) b a d 15#5]
  | .fcvt d a ty pr rn => [rWord (rn ++ pr ++ 9#5) (0#2 ++ ty) a d 15#5]
  | .feq d a b pr => [rWord (0#3 ++ pr ++ 10#5) b a d 15#5]
  | .flt d a b pr => [rWord (0#3 ++ pr ++ 11#5) b a d 15#5]
  | .fle d a b pr => [rWord (0#3 ++ pr ++ 12#5) b a d 15#5]
  | .fclass d a pr => [rWord (0#3 ++ pr ++ 13#5) 0#5 a d 15#5]
  | .fcvti d a ty pr rn => [rWord (rn ++ pr ++ 14#5) (0#2 ++ ty) a d 15#5]
  | .vsetl d a => [rWord 0#10 0#5 a d 16#5]
  | .vsetg d a => [rWord 1#10 0#5 a d 16#5]
  | .vsetf d a => [rWord 2#10 0#5 a d 16#5]
  | .vsetst => [rWord 3#10 0#5 0#5 0#5 16#5]
  | .vclr d => [rWord 4#10 0#5 0#5 d 16#5]
  | .vgetf d a => [rWord 5#10 0#5 a d 16#5]
  | .vadd o => [vWord 0#4 o 17#5]
  | .vsub o => [vWord 1#4 o 17#5]
  | .vmul o => [vWord 2#4 o 17#5]
  | .vmulh o => [vWord 3#4 o 17#5]
  | .vmac o => [vWord 4#4 o 17#5]
  | .vand o => [vWord 5#4 o 17#5]
  | .vor o => [vWord 6#4 o 17#5]
  | .vxor o => [vWord 7#4 o 17#5]
  | .vsll o => [vWord 8#4 o 17#5]
  | .vsrl o => [vWord 9#4 o 17#5]
  | .vsra o => [vWord 10#4 o 17#5]
  | .vmin o => [vWord 11#4 o 17#5]
  | .vmax o => [vWord 12#4 o 17#5]
  | .vminu o => [vWord 13#4 o 17#5]
  | .vmaxu o => [vWord 14#4 o 17#5]
  | .vsel o => [vWord 15#4 o 17#5]
  | .vadds o => [vWord 0#4 o 18#5]
  | .vsubs o => [vWord 1#4 o 18#5]
  | .vaddsu o => [vWord 2#4 o 18#5]
  | .vsubsu o => [vWord 3#4 o 18#5]
  | .vdiv o => [vWord 4#4 o 18#5]
  | .vrem o => [vWord 5#4 o 18#5]
  | .vdivu o => [vWord 6#4 o 18#5]
  | .vremu o => [vWord 7#4 o 18#5]
  | .vabs o => [vWord 8#4 o 18#5]
  | .vclz o => [vWord 9#4 o 18#5]
  | .vpop o => [vWord 10#4 o 18#5]
  | .vwmul o => [vWord 11#4 o 18#5]
  | .vwmac o => [vWord 12#4 o 18#5]
  | .vbext o => [vWord 13#4 o 18#5]
  | .vmov o => [vWord 14#4 o 18#5]
  | .vmeq o => [vWord 0#4 o 19#5]
  | .vmne o => [vWord 1#4 o 19#5]
  | .vmlt o => [vWord 2#4 o 19#5]
  | .vmle o => [vWord 3#4 o 19#5]
  | .vmltu o => [vWord 4#4 o 19#5]
  | .vmleu o => [vWord 5#4 o 19#5]
  | .vmfeq o => [vWord 6#4 o 19#5]
  | .vmflt o => [vWord 7#4 o 19#5]
  | .vmfle o => [vWord 8#4 o 19#5]
  | .vmfun o => [vWord 9#4 o 19#5]
  | .vmfin o => [vWord 10#4 o 19#5]
  | .vmand o => [vWord 11#4 o 19#5]
  | .vmor o => [vWord 12#4 o 19#5]
  | .vmxor o => [vWord 13#4 o 19#5]
  | .vmandn o => [vWord 14#4 o 19#5]
  | .vfadd o => [vWord 0#4 o 20#5]
  | .vfsub o => [vWord 1#4 o 20#5]
  | .vfmul o => [vWord 2#4 o 20#5]
  | .vfdiv o => [vWord 3#4 o 20#5]
  | .vfmac o => [vWord 4#4 o 20#5]
  | .vfnmac o => [vWord 5#4 o 20#5]
  | .vfmin o => [vWord 6#4 o 20#5]
  | .vfmax o => [vWord 7#4 o 20#5]
  | .vfsqrt o => [vWord 8#4 o 20#5]
  | .vfrsq o => [vWord 9#4 o 20#5]
  | .vfrcp o => [vWord 10#4 o 20#5]
  | .vfabs o => [vWord 11#4 o 20#5]
  | .vfneg o => [vWord 12#4 o 20#5]
  | .vfcvt o => [vWord 13#4 o 20#5]
  | .vdec o => [vWord 0#4 o 21#5]
  | .venc o => [vWord 1#4 o 21#5]
  | .vbnd o => [vWord 2#4 o 21#5]
  | .vcnt o => [vWord 3#4 o 21#5]
  | .vtier o => [vWord 4#4 o 21#5]
  | .vbits o => [vWord 5#4 o 21#5]
  | .vskip o => [vWord 6#4 o 21#5]
  | .vcat o => [vWord 7#4 o 21#5]
  | .vbget o => [vWord 8#4 o 21#5]
  | .vpack o => [vWord 9#4 o 21#5]
  | .vexpand o => [vWord 10#4 o 21#5]
  | .vrepack o => [vWord 11#4 o 21#5]
  | .vredsum o => [vWord 0#4 o 22#5]
  | .vredmin o => [vWord 1#4 o 22#5]
  | .vredmax o => [vWord 2#4 o 22#5]
  | .vredand o => [vWord 3#4 o 22#5]
  | .vredor o => [vWord 4#4 o 22#5]
  | .vredxor o => [vWord 5#4 o 22#5]
  | .vfredsum o => [vWord 6#4 o 22#5]
  | .vfredmin o => [vWord 7#4 o 22#5]
  | .vfredmax o => [vWord 8#4 o 22#5]
  | .vfredsq o => [vWord 9#4 o 22#5]
  | .vscan o => [vWord 10#4 o 22#5]
  | .vfscan o => [vWord 11#4 o 22#5]
  | .vfirst o => [vWord 12#4 o 22#5]
  | .vmcnt o => [vWord 13#4 o 22#5]
  | .viota o => [vWord 14#4 o 22#5]
  | .vid o => [vWord 15#4 o 22#5]
  | .vslidedn o => [vWord 0#4 o 23#5]
  | .vslideup o => [vWord 1#4 o 23#5]
  | .vgatherv o => [vWord 2#4 o 23#5]
  | .vbcast o => [vWord 3#4 o 23#5]
  | .vext o => [vWord 4#4 o 23#5]
  | .vins o => [vWord 5#4 o 23#5]
  | .vzip o => [vWord 6#4 o 23#5]
  | .vunzip o => [vWord 7#4 o 23#5]
  | .vrev o => [vWord 8#4 o 23#5]
  | .vbrk o => [vWord 9#4 o 23#5]
  | .vbrkb o => [vWord 10#4 o 23#5]
  | .vbput o => [vWord 11#4 o 23#5]
  | .vld o => [vWord 0#4 o 24#5]
  | .vst o => [vWord 1#4 o 24#5]
  | .vldff o => [vWord 2#4 o 24#5]
  | .vldx o => [vWord 3#4 o 24#5]
  | .vstx o => [vWord 4#4 o 24#5]
  | .vldw o => [vWord 5#4 o 24#5]
  | .vspill o => [vWord 6#4 o 24#5]
  | .vfill o => [vWord 7#4 o 24#5]
  | .snext o => [vWord 8#4 o 24#5]
  | .vamoadd o => [vWord 0#4 o 25#5]
  | .vamomin o => [vWord 1#4 o 25#5]
  | .vamomax o => [vWord 2#4 o 25#5]
  | .vamoand o => [vWord 3#4 o 25#5]
  | .vamoor o => [vWord 4#4 o 25#5]
  | .vamoxor o => [vWord 5#4 o 25#5]
  | .vamoswp o => [vWord 6#4 o 25#5]
  | .vfamoadd o => [vWord 7#4 o 25#5]
  | .wopen o => [vWord 8#4 o 25#5]
  | .wadd o => [vWord 9#4 o 25#5]
  | .wfadd o => [vWord 10#4 o 25#5]
  | .wmerge o => [vWord 11#4 o 25#5]
  | .wclose o => [vWord 12#4 o 25#5]
  | .zzero o => [vWord 0#4 o 26#5]
  | .zmma o => [vWord 1#4 o 26#5]
  | .zop o => [vWord 2#4 o 26#5]
  | .zdr o => [vWord 3#4 o 26#5]
  | .zacc o => [vWord 4#4 o 26#5]
  | .adjld d a => [rWord 0#10 0#5 a d 27#5]
  | .adjst a b => [rWord 1#10 b a 0#5 27#5]
  | .tmark a => [rWord 2#10 0#5 a 0#5 27#5]
  | .trew a => [rWord 3#10 0#5 a 0#5 27#5]
  | .cwait d a b => [rWord 3#10 b a d 28#5]
  | .csig a b => [rWord 4#10 b a 0#5 28#5]
  | .gbar d => [rWord 0#10 0#5 0#5 d 29#5]
  | .garr d => [rWord 1#10 0#5 0#5 d 29#5]
  | .gwait a => [rWord 2#10 0#5 a 0#5 29#5]
  | .supervisorFunction fn d a b => [rWord (1#5 ++ fn) b a d 0#5]
  | .addiLong d a imm => [prefixWord (imm.extractLsb' 12 25) 3#5, i12Word (imm.extractLsb' 0 12) 0#3 a d 4#5]
  | .andiLong d a imm => [prefixWord (imm.extractLsb' 12 25) 3#5, i12Word (imm.extractLsb' 0 12) 1#3 a d 4#5]
  | .oriLong d a imm => [prefixWord (imm.extractLsb' 12 25) 3#5, i12Word (imm.extractLsb' 0 12) 2#3 a d 4#5]
  | .xoriLong d a imm => [prefixWord (imm.extractLsb' 12 25) 3#5, i12Word (imm.extractLsb' 0 12) 3#3 a d 4#5]
  | .sltiLong d a imm => [prefixWord (imm.extractLsb' 12 25) 3#5, i12Word (imm.extractLsb' 0 12) 4#3 a d 4#5]
  | .sltuiLong d a imm => [prefixWord (imm.extractLsb' 12 25) 3#5, i12Word (imm.extractLsb' 0 12) 5#3 a d 4#5]
  | .ldhiLong d imm => [prefixWord (imm.extractLsb' 20 25) 3#5, uWord (imm.extractLsb' 0 20) d 5#5]
  | .adpcLong d imm => [prefixWord (imm.extractLsb' 20 25) 3#5, uWord (imm.extractLsb' 0 20) d 6#5]
  | .jalrLong d a imm => [prefixWord (imm.extractLsb' 15 25) 3#5, i15Word (imm.extractLsb' 0 15) a d 9#5]
  | .lbLong d a imm => [prefixWord (imm.extractLsb' 12 25) 3#5, i12Word (imm.extractLsb' 0 12) 0#3 a d 10#5]
  | .lhLong d a imm => [prefixWord (imm.extractLsb' 12 25) 3#5, i12Word (imm.extractLsb' 0 12) 1#3 a d 10#5]
  | .lwLong d a imm => [prefixWord (imm.extractLsb' 12 25) 3#5, i12Word (imm.extractLsb' 0 12) 2#3 a d 10#5]
  | .ldLong d a imm => [prefixWord (imm.extractLsb' 12 25) 3#5, i12Word (imm.extractLsb' 0 12) 3#3 a d 10#5]
  | .lbuLong d a imm => [prefixWord (imm.extractLsb' 12 25) 3#5, i12Word (imm.extractLsb' 0 12) 4#3 a d 10#5]
  | .lhuLong d a imm => [prefixWord (imm.extractLsb' 12 25) 3#5, i12Word (imm.extractLsb' 0 12) 5#3 a d 10#5]
  | .lwuLong d a imm => [prefixWord (imm.extractLsb' 12 25) 3#5, i12Word (imm.extractLsb' 0 12) 6#3 a d 10#5]
  | .sbLong a b imm => [prefixWord (imm.extractLsb' 12 25) 3#5, s12Word (imm.extractLsb' 0 12) 0#3 b a 11#5]
  | .shLong a b imm => [prefixWord (imm.extractLsb' 12 25) 3#5, s12Word (imm.extractLsb' 0 12) 1#3 b a 11#5]
  | .swLong a b imm => [prefixWord (imm.extractLsb' 12 25) 3#5, s12Word (imm.extractLsb' 0 12) 2#3 b a 11#5]
  | .sdLong a b imm => [prefixWord (imm.extractLsb' 12 25) 3#5, s12Word (imm.extractLsb' 0 12) 3#3 b a 11#5]
  | .vld2 o p => [prefixWord (0#14 ++ p ++ 0#4 ++ 0#2) 2#5, vWord 9#4 o 24#5]
  | .vstp o p s2 => [prefixWord (0#14 ++ p ++ s2 ++ 1#2) 2#5, vWord 9#4 o 24#5]
  | .zld a b t fr nr => [prefixWord (0#9 ++ nr ++ fr ++ t ++ 0#2) 0#5, vWord 15#4 ⟨true, false, false, 0#3, b, a, 0#5⟩ 26#5]
  | .zst a b t fr nr => [prefixWord (0#9 ++ nr ++ fr ++ t ++ 1#2) 0#5, vWord 15#4 ⟨true, false, false, 0#3, b, a, 0#5⟩ 26#5]
  | .cpy a e => [prefixWord (0#12 ++ 0#8 ++ e) 1#5, rWord 0#10 0#5 a 0#5 28#5]
  | .coll id a e => [prefixWord (0#12 ++ id ++ e) 1#5, rWord 1#10 0#5 a 0#5 28#5]
  | .nbe pg a b e => [prefixWord (0#12 ++ pg ++ e) 1#5, rWord 2#10 b a 0#5 28#5]
  | .launch pt a e => [prefixWord (0#12 ++ pt ++ e) 1#5, rWord 5#10 0#5 a 0#5 28#5]
  | .cNop => [slotWord 0#5 0#5 0#5]
  | .cMov x y => [slotWord y x 1#5]
  | .cAddi x y => [slotWord y x 2#5]
  | .cAdd x y => [slotWord y x 3#5]
  | .cSub x y => [slotWord y x 4#5]
  | .cAnd x y => [slotWord y x 5#5]
  | .cSlli x y => [slotWord y x 6#5]
  | .cLd x y => [slotWord y x 7#5]
  | .cSd x y => [slotWord y x 8#5]
  | .cBnez x y => [slotWord y x 11#5]
  | .cQpush x q => [slotWord (0#3 ++ q) x 9#5]
  | .cQpop x q => [slotWord (0#3 ++ q) x 10#5]
  | .cJ off => [slotWord (off.extractLsb' 5 5) (off.extractLsb' 0 5) 12#5]
  | .nset k x imm => [imm ++ x ++ BitVec.ofBool k ++ 0#4]
  | .naddImm k x y imm => [nbeWord imm 0#5 0#3 y x k 1#4]
  | .naddReg k x y => [nbeWord 0#13 0#5 1#3 y x k 1#4]
  | .nloop x imm => [nbeWord imm 0#5 0#3 0#3 x true 2#4]
  | .nact x => [nbeWord 0#13 0#5 0#3 0#3 x false 3#4]
  | .nrd x imm => [nbeWord imm 0#5 0#3 0#3 x false 4#4]
  | .ndec f imm => [nbeWord imm f 0#3 0#3 0#3 false 5#4]
  | .nldx x y imm => [nbeWord imm 0#5 0#3 y x false 6#4]
  | .nmac x y f => [nbeWord 0#13 f 0#3 y x false 7#4]
  | .nred k x y imm => [nbeWord imm 0#5 0#3 y x k 8#4]
  | .nst x y f imm => [nbeWord imm f 0#3 y x false 9#4]
  | .nsig x imm => [nbeWord imm 0#5 0#3 0#3 x false 10#4]
  | .nwait => [nbeWord 0#13 0#5 0#3 0#3 0#3 false 11#4]
  | .nbar x y => [nbeWord 0#13 0#5 0#3 y x false 12#4]
  | .ncvt k y f imm => [nbeWord imm f 0#3 y 0#3 k 13#4]
  | .nend => [nbeWord 0#13 0#5 0#3 0#3 0#3 false 14#4]
  | .nnop => [nbeWord 0#13 0#5 0#3 0#3 0#3 false 15#4]
  | _ => []

/-- A word as the bytes memory holds, least significant first (00 R4). -/
def wordBytes (w : TextWord) : List Byte :=
  [w.extractLsb' 0 8, w.extractLsb' 8 8, w.extractLsb' 16 8, w.extractLsb' 24 8]

/-- The bytes of an instruction. -/
def encodeBytes (i : Instr) : List Byte := (encode i).flatMap wordBytes

/-! ### The opcode table's numbering -/

/-- The bytes of a table word of nbits bits, first byte at the lowest address, with zero bytes up to the longest
instruction (8 bytes). -/
def tableBytes (nbits w : Nat) : List Byte :=
  (List.range 8).map fun k => if 8 * k < nbits then BitVec.ofNat 8 (w >>> (8 * k)) else 0#8

/-- What the decoders read from a word of the opcode table. The table lists core words and near-bank words side
by side, and they share bit patterns: a word of frame 0b11 is read as core text first, any other word as a
near-bank word first, since the table gives bits to no compressed or prefixed row (log 14). -/
def decodeTableWord (nbits w : Nat) : Option Instr :=
  let bs := tableBytes nbits w
  let core : Option Instr := (decode bs).toOption.map (·.1)
  match wordOfBytes bs with
  | none => none
  | some x =>
    let bank : Option Instr := (decodeNbe x).toOption
    if frameOf x == 3#2 then core.or bank else bank.or core

end Sys2Proof

end
end

