-- ==== Sys2Proof/Machine/Turn.lean ====
section
/-! DEFINITION. Turns: how an agent fetches and runs its next instruction, how clocks pass, and where a table word is put
to be the next instruction (05 R96, R112, 09 R183 to R185, R204, R205, 04 R85, R89, 15 R349, R354, log 3, 4). Defined over the
meaning `ex` of an instruction. -/

noncomputable section

namespace Sys2Proof.Machine

/-! ### Fetching -/

/-- What a fetch gives: an instruction, or an encoding that is none; `misplaced` marks a prefix at 4 mod 8. -/
inductive Fetched where
  | instr (i : Instr)
  | bad (misplaced : Bool)

/-- What words of text hold at a pc; `next` is the word after, which only a prefix needs. -/
def decodeAt (w : TextWord) (next : Option TextWord) (slot1 : Bool) : Fetched :=
  match decodeWords w next slot1 with
  | .ok (i, _) => .instr i
  | .error _ => .bad false

/-- Fetch the next instruction of a slice of the executing hart (09 R183, R185). A pc with bit 1 set beside whose word is no
pair, as text changed since or a debug write leaves one, traps ILLEGAL (log 160). -/
def fetchSlice (sl : SliceId) : M Fetched := do
  let pc ← getPc
  let slot1 := pc.toNat % 4 = 2
  let va := if slot1 then pc - 2#64 else pc
  let w ← fetchWord sl va
  if frameBits w != 2 then return (if slot1 && frameBits w != 1 then .bad false else decodeAt w none slot1)
  if slot1 then return .bad false
  if pc.toNat % 8 != 0 then return .bad true
  let b ← fetchWord sl (pc + 4#64)
  return decodeAt w (some b) false

/-- The next instruction of a survey core (09 R204, log 12), or the trap of its fetch. -/
def fetchSurvey (s : State) (k : Nat) : Except TrapInfo Fetched := do
  let pc := (surveyOf s k).pc
  let slot1 := pc.toNat % 4 = 2
  let w ← surveyWord s (if slot1 then pc - 2#64 else pc)
  if frameBits w != 2 then return (if slot1 && frameBits w != 1 then .bad false else decodeAt w none slot1)
  if slot1 then return .bad false
  if pc.toNat % 8 != 0 then return .bad true
  return decodeAt w (some (← surveyWord s (pc + 4#64))) false

/-! ### A slice -/

/-- The pipe of a slice's issue (04 R84). -/
def slicePipe : SliceId → Pipe
  | .as => .asIssue
  | .cs => .csScalar

/-- After the instruction of a slice: it has issued, unless the slice waits. -/
def afterSlice (g h : Nat) (sl : SliceId) (r : Result) : Result :=
  match r with
  | .next s =>
    match findHart s g h with
    | some x => .next (match (x.slice sl).cond with | .waiting _ => s | _ => noteIssue s g h (slicePipe sl))
    | none => .next s
  | r => r

/-- Whether a slice takes its next instruction: it does not when it is stopped, or waits for an event. -/
def Cond.goes : Cond → Bool
  | .running => true
  | .waiting w =>
    match w with
    | .word => false
    | .cwait => false
    | .coldText _ => false
    | _ => true
  | _ => false

/-- Run what a fetch gave, or end the instruction as the fetch ended. -/
def runFetched (ex : Instr → State → Result) (h : Here) (r : EStateM.Result Stop State Fetched) : Result :=
  match r with
  | .ok (.instr i) s => ex i s
  | .ok (.bad m) s => execIllegalEncoding m s
  | .error e s => finish (.slice h) (.error e s)

/-- A slice takes its next instruction. -/
def runSlice (ex : Instr → State → Result) (s : State) (h : Here) (x : Hart) : Result :=
  if (x.slice h.sl).cond.goes then afterSlice h.gang h.hid h.sl (runFetched ex h (fetchSlice h.sl s)) else .next s

/-- A queued instruction has completed (05 R105); a hart that drains and has nothing left is saved (04 R89). -/
def afterHead (s : State) (g h : Nat) (k : VKind) : State :=
  let s := noteIssue (mapHart s g h fun x => { x with waitCount := 0 }) g h (vPipe k)
  match findHart s g h with
  | some x => if x.mode = .draining && x.viq.isEmpty then beginSave s g h true else s
  | none => s

/-- The CS's turn: the instruction at the queue head first; while that waits, the CS goes on to its next instruction
(05 R112, log 5). A hart that has yielded is saved while `vldw` waits at its counter, since it is waiting then (14 R316, 04 R91);
otherwise its queue drains (04 R89). -/
def runCs (ex : Instr → State → Result) (s : State) (h : Here) (x : Hart) : Result :=
  match x.viq with
  | [] => if x.mode = .draining then .next (beginSave s h.gang h.hid true) else runSlice ex s h x
  | e :: _ =>
    match runHead s with
    | .ok .done s => .next (afterHead s h.gang h.hid e.kind)
    | .ok (.waiting w) s =>
      if x.mode = .draining then .next (if w = .counter then beginSave s h.gang h.hid true else s) else
      match findHart s h.gang h.hid with
      | some x => runSlice ex s h x
      | none => .next s
    | .ok _ s => .next s
    | .error e s => finish (.slice h) (.error e s)

/-- A hart that may move: one of a resident gang of a running device that no system trap holds. While an entry to retain
saves a gang, a hart of it that has yielded goes on draining (02 R49). -/
def mover? (s : State) (g hid : Nat) : Option Hart :=
  match findGang s g, findHart s g hid with
  | some x, some y =>
    let drains := clocked s && s.bed.converting.contains g && y.mode == .draining
    if (awake s || drains) && x.st == .resident && !y.sysTrap && (y.mode == .active || y.mode == .draining) then some y
    else none
  | _, _ => none

/-- A turn of a hart; one that has not stopped when its deadline is past is stopped by force with its gang (04 R90, R91). -/
def turnHart (s : State) (g hid : Nat) (f : Hart → Result) : Result :=
  match mover? s g hid with
  | some x => if x.mode = .active && deadlinePassed s x then .next (forceGang s g) else f x
  | none => .next s

/-- The turn of a slice. -/
def turnSlice (ex : Instr → State → Result) (s : State) (h : Here) : Result :=
  turnHart s h.gang h.hid fun x =>
    match h.sl, x.mode with
    | .cs, _ => runCs ex s h x
    | .as, .active => runSlice ex s h x
    | .as, _ => .next s

/-- The turn of a CS that runs ahead of its queue: it takes its next instruction, whatever the queue holds (05 R112). -/
def turnAhead (ex : Instr → State → Result) (s : State) (g hid : Nat) : Result :=
  turnHart s g hid fun x => if x.mode = .active then runSlice ex s ⟨g, hid, .cs⟩ x else .next s

/-- The turn of the queue's entry k for n element groups (04 R90, 16 R362). -/
def turnPart (s : State) (g hid k n : Nat) : Result :=
  turnHart s g hid fun x =>
    match x.viq[k]? with
    | none => .next s
    | some e =>
      if k = 0 then
        match runHeadPart n s with
        | .ok .done s => .next (afterHead s g hid e.kind)
        | .ok .paused s => .next (noteIssue s g hid (vPipe e.kind))
        | .ok _ s => .next s
        | .error e s => finish (.slice ⟨g, hid, .cs⟩) (.error e s)
      else
        match runBehind k n s with
        | .ok went s => .next (if went then noteIssue s g hid (vPipe e.kind) else s)
        | .error e s => finish (.slice ⟨g, hid, .cs⟩) (.error e s)

/-! ### Engines and survey cores -/

/-- A word of a program that its check passes (15 R349): no unused field set, no reserved format, no loop to before word
0. -/
def bankWordOk (w : TextWord) (at_ : Nat) : Bool :=
  match decodeNbe w with
  | .ok (.nloop _ n) => decide (n.toNat ≤ at_)
  | .ok (.ndec f _) => !fmtReserved f.toNat
  | .ok (.nmac _ _ f) => !fmtReserved f.toNat
  | .ok (.nst _ _ f _) => !fmtReserved f.toNat
  | .ok (.ncvt _ _ f _) => !fmtReserved f.toNat
  | .ok _ => true
  | .error _ => false

/-- The check of a program's words: each of them, and `nend` last. -/
def programOk (prog : List TextWord) : Bool :=
  prog.zipIdx.all (fun x => bankWordOk x.1 x.2) &&
    match prog.getLast?.map decodeNbe with
    | some (.ok .nend) => true
    | _ => false

/-- The turn of a near-bank engine. -/
def turnEngine (ex : Instr → State → Result) (s : State) : Result :=
  match engineHere s with
  | none => .next s
  | some e =>
    if !clocked s then .next s else
    match e.run with
    | none => .next (nbeNext programOk s e)
    | some r =>
      match r.prog[r.pc]? with
      | none => .next (nbeBadWord s)
      | some w =>
        match decodeNbe w with
        | .ok i => ex i s
        | .error _ => .next (nbeBadWord s)

/-- The turn of a survey core: it runs while the device is not in retain (02 R48). -/
def turnSurvey (ex : Instr → State → Result) (s : State) (k : Nat) : Result :=
  if s.bed.off || s.bed.pwr = 2 || (surveyOf s k).mode != .running || 3 < k then .next s else
  match fetchSurvey s k with
  | .ok (.instr i) => ex i s
  | .ok (.bad m) => execIllegalEncoding m s
  | .error t => finish (.survey k) (.error (.trap t) s)

/-- The turn of an agent, which is then the one that moves while the agenda is empty (log 3). -/
def turn (ex : Instr → State → Result) (a : Agent) (s : State) : Result :=
  let s := { s with cur := a }
  match a with
  | .none => .next s
  | .slice g h sl => turnSlice ex s ⟨g, h, sl⟩
  | .ahead g h => turnAhead ex s g h
  | .part g h k n => turnPart s g h k n
  | .engine _ => turnEngine ex s
  | .survey k => turnSurvey ex s k

/-! ### Clocks (05 R98, R105, 01 R22 to R25, R37) -/

/-- Units of `ntime` in one core clock, and in one clock of 1.2 GHz. -/
def coreUnits (clock : Nat) : Nat := 7207200 / clock
def controllerUnits : Nat := 600600

/-- An entry behind the queue's head could go on for an element group (04 R84, R90). -/
def readyBehind (s : State) (g hid k : Nat) : Bool :=
  match runBehind k 1 { s with cur := .part g hid k 1 } with
  | .ok went _ => went
  | .error _ _ => false

/-- A hart of a resident gang after n clocks; `behind` says which entries of its queue could go on behind older ones. -/
def Hart.after (h : Hart) (behind : Nat → Bool) (n : Nat) : Hart :=
  let h := h.passClocks behind n
  if h.mutual then { h with waitCount := h.waitCount + n } else h

def Chan.older (c : Chan) (n : Nat) : Chan :=
  { c with
    reqs := c.reqs.map fun r => { r with age := r.age + n }
    hints := c.hints.map fun x => (x.1, x.2.1, x.2.2 + n) }

/-- n core clocks pass; in idle and retain `cycle` stands (02 R48). -/
def passClocks (n : Nat) (s : State) : State :=
  if s.bed.off then s else
  let t := s.ntime + n * coreUnits s.clock
  let aged := t / controllerUnits - s.ntime / controllerUnits
  let s := { s with
    ntime := t
    dev := { s.dev with chans := s.dev.chans.map (·.older aged) } }
  if !awake s then s else
  { s with
    cycle := s.cycle + BitVec.ofNat 64 n
    gangs := s.gangs.map fun g =>
      if g.st = .resident then { g with harts := g.harts.mapIdx fun k h => h.after (readyBehind s g.id k) n } else g }

/-! ### Uncorrectable errors (01 R12, R15, R16) -/

/-- The layer-remap register of the stack a unit lies in, when the unit lies in the layer that it names. -/
def remapOfUnit (s : State) (u : Nat) : Option Word :=
  let stack := hbmChan (32 * u) / 32
  let w := devReg s (0x20000 + 8 * stack)
  if isHbm (32 * u) && inLayer stack (rmLayer w) u then some w else none

/-- An uncorrectable error marks a unit as poisoned: in the layer, from which accesses are served until it is switched, or
in the copy of it that the spare layer holds, from which they are served then. -/
def memoryError (s : State) (u : Nat) (inSpare : Bool) : State :=
  let mark (s : State) : State := { s with poison := insertRising u s.poison }
  match remapOfUnit s u with
  | none => if inSpare then s else mark s
  | some w =>
    if rmState w = 2 then (if inSpare then mark s else s)
    else if !inSpare then mark s
    else if rmState w = 1 && (rmDone w || (List.range (rmProg w)).any fun b =>
        inLayerBlock (hbmChan (32 * u) / 32) (rmLayer w) b u) then { s with spare := insertRising u s.spare }
    else s

/-! ### A step -/

/-- One step: the next move of the agenda, or the turn of the agent that moved last. -/
def stepWith (ex : Instr → State → Result) (s : State) : Result :=
  match s.agenda with
  | [] => turn ex s.cur s
  | .event i :: rest => ex i { s with agenda := rest }
  | .turn a :: rest => turn ex a { s with agenda := rest }
  | .clocks n :: rest => .next (passClocks n { s with agenda := rest })
  | .memoryError u spare :: rest => .next (memoryError { s with agenda := rest } u spare)
  | .request c r :: rest => .next (requestArrives { s with agenda := rest } c.toNat r)
  | .issue c :: rest => .next (chanIssue { s with agenda := rest } c.toNat)
  | .closeRow c bank :: rest => .next (closeBank { s with agenda := rest } c.toNat bank)
  | .hostMap m :: rest => .next { s with agenda := rest, dev := { s.dev with hostMap := m } }
  | .hostAnswers b :: rest => .next { s with agenda := rest, dev := { s.dev with hostUp := b } }

/-! ### Placing a table word as the next instruction (log 10, 14) -/

/-- Whether a table word is read as a near-bank word. -/
def tableIsBank (nbits w : Nat) : Bool :=
  let bs := tableBytes nbits w
  match wordOfBytes bs with
  | none => false
  | some x =>
    let core := (decode bs).toOption.isSome
    if frameOf x == 3#2 then !core else (decodeNbe x).toOption.isSome || !core

/-- The slice that a core word is put before: the CS for the majors of the CS, and for the SYS codes and the `garr` of
the CS; else the AS (09 R197, R198). -/
def tableSlice (x : TextWord) : SliceId :=
  let mj := (majorOf x).toNat
  let fn := (fFn10 x).toNat
  if frameOf x = 2#2 then (if mj = 0 || mj = 2 then .cs else .as)
  else if 15 ≤ mj && mj ≤ 26 then .cs
  else if mj = 0 && (fn = 9 || fn = 10 || fn = 0x014 || fn = 0x015) then .cs
  else if mj = 29 && fn = 1 then .cs
  else .as

/-- A launch of one gang of one hart, as a record with VER = 1 and GANGS = 1 makes it. -/
def placedLaunch (id : Nat) : Launch :=
  { id := id, port := 0
    record := { ctrl := 0x0000000100000001, code := 0x10000, kargs := 0, waita := 0, waitv := 0, save := 0, donea := 0, ids := 0 }
    ctx := { w0 := 0x8000000000000000, w1 := 0 }
    asEntry := 0x10000, csEntry := 0x20000, asVec := 0x10000, csVec := 0x20000, emask := 0, digest := 0
    passed := true, seen := some 0, since := 0, placed := 0, ended := 0 }

/-- A state with a hart in place that moves next, and the hart. -/
def withHart (s : State) (sl : SliceId) : State × Here :=
  match here? s with
  | some h => ({ s with cur := .slice h.gang h.hid sl }, ⟨h.gang, h.hid, sl⟩)
  | none =>
    let l := placedLaunch s.nextLaunch
    let g := Gang.fresh s l 0 0 [(0, 0)]
    ({ s with
        nextLaunch := s.nextLaunch + 1
        launches := s.launches ++ [{ l with placed := 1 }]
        gangs := s.gangs ++ [g]
        cur := .slice g.id 0 sl },
     ⟨g.id, 0, sl⟩)

/-- A hart whose slice runs, with the words of an instruction fetched at its pc. -/
def Hart.fetched (h : Hart) (sl : SliceId) (w0 w1 : TextWord) : Hart :=
  let x := h.slice sl
  let pc := x.pc &&& ~~~(7#64)
  { h.setSlice sl { x with pc := pc, fbuf := [(pc, w0), (pc + 4#64, w1)], cond := .running } with
    mode := .active, sysTrap := false, viq := [] }

/-- A state in which the words are the next instruction of a slice. -/
def withCoreWords (s : State) (w0 w1 : TextWord) : State :=
  let (s, h) := withHart s (tableSlice w0)
  mapGang (mapHart s h.gang h.hid fun x => x.fetched h.sl w0 w1) h.gang fun g => { g with st := .resident }

/-- A state in which a word is the next instruction of a near-bank engine. -/
def withBankWord (s : State) (w : TextWord) : State :=
  match engineHere s with
  | some { chan := c, run := some r, queue := q } =>
    setNbe s { chan := c, run := some { r with prog := r.prog.take r.pc ++ [w], pc := min r.pc r.prog.length }, queue := q }
  | _ =>
    let op : Op :=
      { id := s.nextOp, gang := 0, hid := 0, gallery := 0, body := .nbe 0 0 [] [] true, obj := 0, done := 0, sent := 0, tfault := none }
    { setNbe { s with ops := s.ops ++ [op], nextOp := s.nextOp + 1 }
        { chan := 0, run := some (NbeRun.start op.id [w] []), queue := [] } with
      cur := .engine 0 }

/-- The state with a table word's instruction where the next step fetches. -/
def placeTableWord (s : State) (nbits w : Nat) : State :=
  let bs := tableBytes nbits w
  let w0 := (wordOfBytes bs).getD 0
  let w1 := (wordOfBytes (bs.drop 4)).getD 0
  let s := { s with agenda := [], bed := { s.bed with pwr := 0, off := false, retainPending := false } }
  if tableIsBank nbits w then withBankWord s w0 else withCoreWords s w0 w1

end Sys2Proof.Machine

end
end

