-- ==== Sys2Proof/Machine/Step.lean ====
section
/-! DEFINITION. The step of the machine, and the placing of a table word as its next instruction. -/

noncomputable section

namespace Sys2Proof.Machine

/-- One step of the package (log 3). -/
def step (s : State) : Host.Outcome State Fault Refusal := stepWith exec s

/-- The state with an opcode-table word where the next step fetches (log 10). -/
def State.withFetchWord (s : State) (nbits w : Nat) : State := placeTableWord s nbits w

end Sys2Proof.Machine

end
end

