-- ==== Sys2Proof/Safety.lean ====
section
/-! DEFINITION. What a safe run of the model is, and the terms in which claims about a step are stated: the executing
processor's registers, and the states that an instruction leaves. -/

namespace Sys2Proof.Machine

/-! ### Safe runs -/

/-- Byte memory is in its canonical form. -/
def State.MemWf (s : State) : Prop := s.mem.wf = true

/-- A step went on. -/
def Result.Goes (r : Result) : Prop := ∃ t : State, r = .next t

/-! ### The executing processor -/

/-- Scalar register r of a processor, register 0 reading 0 (05 R97). -/
def Cpu.reg (s : State) (c : Cpu) (r : RegField) : Word :=
  match c with
  | .slice h => ((findHart s h.gang h.hid).map fun x => x.getReg h.sl r).getD 0
  | .survey k => fileGet (surveyOf s k).a r

/-- The program counter of a processor. -/
def Cpu.pc (s : State) (c : Cpu) : Word :=
  match c with
  | .slice h => ((findHart s h.gang h.hid).map fun x => (x.slice h.sl).pc).getD 0
  | .survey k => (surveyOf s k).pc

/-- The state once an instruction that only writes register d and the program counter has completed: a slice has also
issued, so its hart's mutual-wait count is 0 (05 R105). -/
def retire (s : State) (c : Cpu) (d : RegField) (v pc : Word) : State :=
  match c with
  | .slice h => mapHart s h.gang h.hid fun x => ((x.setReg h.sl d v).setPc h.sl pc).issued h.sl
  | .survey k => mapSurvey s k fun x => { x with a := fileSet x.a d v, pc := pc }

/-- The hart x is executing at h. -/
structure Runs (s : State) (h : Here) (x : Hart) : Prop where
  who : here? s = some h
  hart : findHart s h.gang h.hid = some x

/-- The hart x is executing at h and does not run ahead of its vector queue, so that an instruction that finds the queue
empty begins as it is issued. -/
structure Starts (s : State) (h : Here) (x : Hart) : Prop extends Runs s h x where
  near : s.ahead = false

/-- The state once an instruction of the executing slice has completed: its hart is what `f` makes of it, its slice goes
on at pc and has issued. -/
def goOn (s : State) (h : Here) (pc : Word) (f : Hart → Hart) : State :=
  mapHart s h.gang h.hid fun x => ((f x).setPc h.sl pc).issued h.sl

/-- The state once an instruction of the executing slice has issued and left its program counter to what `f` made of the
hart. -/
def issued (s : State) (h : Here) (f : Hart → Hart) : State :=
  mapHart s h.gang h.hid fun x => (f x).issued h.sl

/-- The executing slice waits at w, and its hart stops if a request is posted to it (04 R91, R94). -/
def waits (s : State) (h : Here) (w : WaitAt) : State :=
  stopIfWaiting (mapHart s h.gang h.hid fun x => x.setCond h.sl (.waiting w)) h.gang h.hid

/-- Hart y is hart x but for register d, program counter and condition of slice sl, and the mutual-wait count. -/
def Hart.sameBut (x y : Hart) (sl : SliceId) (d : RegField) : Prop :=
  (∀ r sl', (sl' ≠ sl ∨ r ≠ d) → y.getReg sl' r = x.getReg sl' r) ∧
  y.slice (other sl) = x.slice (other sl) ∧ (y.slice sl).fbuf = (x.slice sl).fbuf ∧
  y = { x with a := y.a, c := y.c, as_ := y.as_, cs := y.cs, waitCount := y.waitCount }

end Sys2Proof.Machine
end

