-- ==== Sys2Proof/Certificates/Slice0/Obligations.lean ====
section
/-! DEFINITION. The statements about the model, and the tables of instructions of one shape that they range over. -/

open Sys2Proof Sys2Proof.Machine

noncomputable section

namespace Sys2Proof.Claims

/-! ### The states that instructions leave -/

/-- Every pending store of a slice has links for its requests (01 R31), and none of the AS takes more bytes. -/
def Sendable (x : Hart) (sl : SliceId) : Prop := ∀ w ∈ x.buf sl, w.cutOff = false ∧ (sl = .as → w.open_ = false)

/-- Memory once pending stores have been performed, oldest first. -/
def performed (m : Memory) (l : List PWrite) : Memory := memWriteAll m (l.flatMap fun w => w.cells)

/-- The executing hart's slice has performed its pending stores. -/
def drained (s : State) (h : Here) (sl : SliceId) : State :=
  drainBuf (mapHart s h.gang h.hid fun x => x.closeStores) h.gang h.hid sl

/-- D is set in the leaves of a store or atomic that issues (07 R144). -/
def dirtied (s : State) (f : Found) : State := f.leaves.foldl setDirty s

/-- A pending store at the end of the AS's buffer (16 R358). -/
def withStore (y : Hart) (w : PWrite) : Hart := { y with abuf := y.abuf ++ [w] }

/-- Bits of a vector register (03 R64). -/
def registerBits (l : Launch) : Nat := 8 * (4096 * 2 ^ (l.record.ctrl.toNat / 8 % 8))

/-- The limit of 12 R256 on a destination. -/
def destLimit (x : Hart) (l : Launch) : Nat :=
  if x.vc.vcap = 0 then registerBits l else min x.vc.vcap.toNat (registerBits l)

/-- What a vector instruction captures when it enters the queue (12 R253): `vl`, `vfmt`, `vcap`, its start, its scalars. The
entry is numbered in the order of issue (log 137). -/
def captured (x : Hart) (kind : VKind) (o : VOps) (scal scal2 : Word) (aux start : Nat) (taken : Option QDesc) : VEntry where
  kind := kind
  o := o
  pc := x.cs.pc
  vl := x.vc.vl.toNat
  vfmt := x.vc.vfmt
  vcap := x.vc.vcap.toNat
  scal := scal
  scal2 := scal2
  aux := aux
  start := start
  idx := start
  begun := false
  gn := 0
  gbd := 0
  gba := 0
  gbb := 0
  acc := none
  half := false
  p := 0
  seq := x.seq
  fenced := false
  resume := false
  faulted := false
  until_ := none
  taken := taken

/-- Queue markers, and `vbput`, which neither read nor clear `vstart` (12 R253, R280). -/
def keepsStart (k : VKind) : Bool := [VKind.vbput, .snext, .vsetf, .vclr, .fenceVv, .garr].contains k

/-- The hart with an entry at the end of its queue, its start captured and set to 0; at the end of an empty queue no earlier
instruction adds to its stores any more (19 R383). -/
def entered (y : Hart) (e : VEntry) : Hart :=
  { y with
    viq := y.viq ++ [e], seq := y.seq + 1
    cbuf := if y.viq = [] then y.closeStores.cbuf else y.cbuf
    vc := if keepsStart e.kind = true then y.vc else { y.vc with vstart := 0 } }

/-- The executing CS goes on past a vector instruction or marker of n bytes that has completed at once, its hart as given:
it has issued on its pipe (04 R84), and its stores take no more bytes (19 R383). -/
def completedOf (n : Nat) (s : State) (h : Here) (p : Pipe) (x y : Hart) : State :=
  noteIssue (goOn s h (x.cs.pc + BitVec.ofNat 64 n) fun _ => ({ y with seq := y.seq + 1 } : Hart).closeStores)
    h.gang h.hid p

/-- The same for an instruction of 4 bytes. -/
def completed (s : State) (h : Here) (p : Pipe) (x y : Hart) : State := completedOf 4 s h p x y

/-- The queue takes an instruction without its beginning at once: it does not stand alone, or the CS runs ahead. -/
def JustQueues (s : State) (x : Hart) : Prop := (s.ahead = true ∨ x.viq ≠ []) ∧ x.viq.length < 16

/-- `cycle` is not past the deadline of a posted request (04 R89, R91). -/
def inTime (s : State) (x : Hart) : Prop :=
  let past := (s.cycle.toNat + 2 ^ 48 - x.ypend.toNat % 2 ^ 48) % 2 ^ 48
  past = 0 ∨ 2 ^ 47 ≤ past

/-! ### Tables: an instruction of one shape and the effect its rule gives it -/

def bool01 (b : Bool) : Word := if b then 1 else 0

/-- 11 R234, 06 R139: `op d, a, b`. -/
def threeRegister : List ((RegField → RegField → RegField → Instr) × (Word → Word → Word)) := [
  (.add, fun a b => a + b), (.sub, fun a b => a - b),
  (.and, fun a b => a &&& b), (.or, fun a b => a ||| b), (.xor, fun a b => a ^^^ b),
  (.sll, fun a b => a <<< (b.toNat % 64)), (.srl, fun a b => a >>> (b.toNat % 64)),
  (.sra, fun a b => a.sshiftRight (b.toNat % 64)),
  (.slt, fun a b => bool01 (decide (a.toInt < b.toInt))), (.sltu, fun a b => bool01 (decide (a.toNat < b.toNat))),
  (.min, fun a b => if a.toInt ≤ b.toInt then a else b), (.max, fun a b => if a.toInt ≤ b.toInt then b else a),
  (.minu, fun a b => if a.toNat ≤ b.toNat then a else b), (.maxu, fun a b => if a.toNat ≤ b.toNat then b else a),
  (.mul, fun a b => a * b),
  (.mulh, fun a b => BitVec.ofInt 64 ((a.toInt * b.toInt).fdiv (2 ^ 64))),
  (.mulhu, fun a b => BitVec.ofNat 64 (a.toNat * b.toNat / 2 ^ 64))]

/-- 06 R139: the quotient truncates towards zero; division by zero gives all ones and the dividend, and the one quotient
that overflows is the dividend, with remainder 0. -/
def divisions : List ((RegField → RegField → RegField → Instr) × (Word → Word → Word)) := [
  (.div, fun a b => if b = 0 then BitVec.allOnes 64 else BitVec.ofInt 64 (a.toInt.tdiv b.toInt)),
  (.rem, fun a b => if b = 0 then a else BitVec.ofInt 64 (a.toInt.tmod b.toInt)),
  (.divu, fun a b => if b = 0 then BitVec.allOnes 64 else BitVec.ofNat 64 (a.toNat / b.toNat)),
  (.remu, fun a b => if b = 0 then a else BitVec.ofNat 64 (a.toNat % b.toNat))]

/-- 11 R234: `op d, a`. -/
def countOps : List ((RegField → RegField → Instr) × (Word → Word)) := [
  (.clz, fun a => BitVec.ofNat 64 (if a = 0 then 64 else 63 - a.toNat.log2)),
  (.ctz, fun a => BitVec.ofNat 64 (((List.range 64).find? fun k => a.getLsbD k).getD 64)),
  (.pop, fun a => BitVec.ofNat 64 ((List.range 64).filter fun k => a.getLsbD k).length)]

/-- The field of 11 R235: position b[7:0], length min(b[15:8], 64). -/
def fieldOf (a b : Word) : Nat := a.toNat / 2 ^ (b.toNat % 256) % 2 ^ min (b.toNat / 256 % 256) 64

/-- 11 R235. -/
def fieldReads : List ((RegField → RegField → RegField → Instr) × (Word → Word → Word)) := [
  (.bext, fun a b => BitVec.ofNat 64 (fieldOf a b)),
  (.bexts, fun a b => (BitVec.ofNat (min (b.toNat / 256 % 256) 64) (fieldOf a b)).signExtend 64)]

/-- 11 R237, 09 R193: `op d, a, #imm` with the immediate sign-extended; the first constructor has 12 bits, the second,
prefixed, 37. -/
def immediateOps :
    List ((RegField → RegField → BitVec 12 → Instr) × (RegField → RegField → BitVec 37 → Instr) × (Word → Word → Word)) := [
  (.addi, .addiLong, fun a i => a + i), (.andi, .andiLong, fun a i => a &&& i), (.ori, .oriLong, fun a i => a ||| i),
  (.xori, .xoriLong, fun a i => a ^^^ i),
  (.slti, .sltiLong, fun a i => bool01 (decide (a.toInt < i.toInt))),
  (.sltui, .sltuiLong, fun a i => bool01 (decide (a.toNat < i.toNat)))]

/-- 11 R237: the shifts. -/
def shiftOps : List ((RegField → RegField → BitVec 6 → Instr) × (Word → Nat → Word)) := [
  (.slli, fun a n => a <<< n), (.srli, fun a n => a >>> n), (.srai, fun a n => a.sshiftRight n)]

/-- 09 R203: `op x, y` in a slot. -/
def slotOps : List ((RegField → RegField → Instr) × (Word → Word → Word)) := [
  (.cMov, fun _ y => y), (.cAdd, fun x y => x + y), (.cSub, fun x y => x - y), (.cAnd, fun x y => x &&& y)]

/-- Register-only instructions whose one destination is d. -/
def writesOnly (d : RegField) : Instr → Prop
  | .add r _ _ | .sub r _ _ | .and r _ _ | .or r _ _ | .xor r _ _ | .sll r _ _ | .srl r _ _ | .sra r _ _ | .slt r _ _
  | .sltu r _ _ | .min r _ _ | .max r _ _ | .minu r _ _ | .maxu r _ _ | .mul r _ _ | .mulh r _ _ | .mulhu r _ _
  | .div r _ _ | .rem r _ _ | .divu r _ _ | .remu r _ _ | .bext r _ _ | .bexts r _ _ | .bins r _ _ | .clz r _ | .ctz r _
  | .pop r _ | .addi r _ _ | .andi r _ _ | .ori r _ _ | .xori r _ _ | .slti r _ _ | .sltui r _ _ | .slli r _ _
  | .srli r _ _ | .srai r _ _ | .ldhi r _ | .adpc r _ | .addiLong r _ _ | .andiLong r _ _ | .oriLong r _ _
  | .xoriLong r _ _ | .sltiLong r _ _ | .sltuiLong r _ _ | .ldhiLong r _ | .adpcLong r _ | .cMov r _ | .cAddi r _
  | .cAdd r _ | .cSub r _ | .cAnd r _ | .cSlli r _ => r = d
  | .fshi r _ _ _ => r = d
  | _ => False

end Sys2Proof.Claims

end

open Sys2Proof.Claims


/-- 11 R234: on a slice of either kind and on a survey core, `op d, a, b`, or a count `op d, a`, writes what its row gives to d and
goes on at the next word, changing nothing else (`retire` is the whole next state); the two words of its example.

06 R139: division never traps, and gives these results. -/
def Obligations.IntegerRegisterResults : Prop :=
  (∀ (s : State) (c : Cpu) (d a b : RegField), cpu? s = some c →
     (∀ p ∈ threeRegister, exec (p.1 d a b) s = .next (retire s c d (p.2 (c.reg s a) (c.reg s b)) (c.pc s + 4))) ∧
     (∀ p ∈ countOps, exec (p.1 d a) s = .next (retire s c d (p.2 (c.reg s a)) (c.pc s + 4))) ∧
     encode (.add 5 6 7) = [0x000E628F] ∧ encode (.mul 5 6 7) = [0x040E628F]) ∧
  (∀ (s : State) (c : Cpu) (d a b : RegField), cpu? s = some c → ∀ p ∈ divisions,
     exec (p.1 d a b) s = .next (retire s c d (p.2 (c.reg s a) (c.reg s b)) (c.pc s + 4)))

/-- 11 R235, R236: bit fields, field insertion and the funnel shift, with their words. -/
def Obligations.BitFieldResults : Prop :=
  ∀ (s : State) (c : Cpu) (d a b : RegField), cpu? s = some c →
    (∀ p ∈ fieldReads, exec (p.1 d a b) s = .next (retire s c d (p.2 (c.reg s a) (c.reg s b)) (c.pc s + 4))) ∧
    (∃ v : Word, exec (.bins d a b) s = .next (retire s c d v (c.pc s + 4)) ∧
      ∀ k, k < 64 → v.getLsbD k =
        (let pos := (c.reg s b).toNat % 256
         let n := min ((c.reg s b).toNat / 256 % 256) 64
         if pos ≤ k ∧ k < pos + n then (c.reg s a).getLsbD (k - pos) else (c.reg s d).getLsbD k)) ∧
    (∀ sh : BitVec 6, ∃ v : Word, exec (.fshi d a b sh) s = .next (retire s c d v (c.pc s + 4)) ∧
      ∀ k, k < 64 → v.getLsbD k =
        (if sh.toNat + k < 64 then (c.reg s b).getLsbD (sh.toNat + k) else (c.reg s a).getLsbD (sh.toNat + k - 64))) ∧
    (let word (op : Nat) : List TextWord := [BitVec.ofNat 32 (op + b.toNat * 2 ^ 17 + a.toNat * 2 ^ 12 + d.toNat * 2 ^ 7)]
     encode (.bext d a b) = word 0x0700000F ∧ encode (.bexts d a b) = word 0x0740000F ∧
     encode (.bins d a b) = word 0x0780000F ∧
     ∀ sh : BitVec 6, encode (.fshi d a b sh) = word ((0x200 + sh.toNat) * 2 ^ 22 + 0x0F))


/-- 11 R237, 09 R193: operations with a 12-bit immediate, the shifts, and the prefixed forms with 37 bits, whose length is 8 bytes.

11 R238: u is the immediate times 4,096, sign-extended from bit 31, or from bit 56 for a prefixed form; with the words of the
two unprefixed forms. -/
def Obligations.ImmediateResults : Prop :=
  (∀ (s : State) (c : Cpu) (d a : RegField), cpu? s = some c →
     (∀ p ∈ immediateOps, ∀ i : BitVec 12,
       exec (p.1 d a i) s = .next (retire s c d (p.2.2 (c.reg s a) (i.signExtend 64)) (c.pc s + 4))) ∧
     (∀ p ∈ immediateOps, ∀ i : BitVec 37,
       exec (p.2.1 d a i) s = .next (retire s c d (p.2.2 (c.reg s a) (i.signExtend 64)) (c.pc s + 8))) ∧
     (∀ p ∈ shiftOps, ∀ sh : BitVec 6,
       exec (p.1 d a sh) s = .next (retire s c d (p.2 (c.reg s a) sh.toNat) (c.pc s + 4)))) ∧
  (∀ (s : State) (c : Cpu) (d : RegField) (i : BitVec 20) (j : BitVec 45), cpu? s = some c →
     exec (.ldhi d i) s = .next (retire s c d (BitVec.ofInt 64 (i.toInt * 4096)) (c.pc s + 4)) ∧
     exec (.adpc d i) s = .next (retire s c d (c.pc s + BitVec.ofInt 64 (i.toInt * 4096)) (c.pc s + 4)) ∧
     exec (.ldhiLong d j) s = .next (retire s c d (BitVec.ofInt 64 (j.toInt * 4096)) (c.pc s + 8)) ∧
     exec (.adpcLong d j) s = .next (retire s c d (c.pc s + BitVec.ofInt 64 (j.toInt * 4096)) (c.pc s + 8)) ∧
     encode (.ldhi d i) = [BitVec.ofNat 32 (i.toNat * 2 ^ 12 + d.toNat * 2 ^ 7 + 0x17)] ∧
     encode (.adpc d i) = [BitVec.ofNat 32 (i.toNat * 2 ^ 12 + d.toNat * 2 ^ 7 + 0x1B)])

/-- 09 R203, 11 R226: the compressed register forms go on 2 bytes further, and the two `nop` forms only go on (a write of
register 0 is discarded). -/
def Obligations.CompressedResults : Prop :=
  ∀ (s : State) (c : Cpu) (x y : RegField), cpu? s = some c →
    (∀ p ∈ slotOps, exec (p.1 x y) s = .next (retire s c x (p.2 (c.reg s x) (c.reg s y)) (c.pc s + 2))) ∧
    (∀ i : BitVec 5, exec (.cAddi x i) s = .next (retire s c x (c.reg s x + i.signExtend 64) (c.pc s + 2))) ∧
    (∀ i : BitVec 5, exec (.cSlli x i) s = .next (retire s c x (c.reg s x <<< i.toNat) (c.pc s + 2))) ∧
    exec .cNop s = .next (retire s c 0 0 (c.pc s + 2)) ∧
    exec .nop s = .next (retire s c 0 0 (c.pc s + 4))

/-- 05 R97, 11 R225: register 0 reads 0, and a write of it is discarded. -/
def Obligations.RegisterZero : Prop :=
  ∀ (f : Vector Word 32) (d r : RegField) (v : Word),
    fileGet f 0 = 0 ∧ fileSet f 0 v = f ∧
    fileGet (fileSet f d v) r = (if r = d ∧ d ≠ 0 then v else fileGet f r)

/-- 11 R225, R234 to R238, 09 R203: the frame of the register-only integer instructions: on a slice, they leave memory, poison marks, translations, device,
every gang and every other hart as they were, and of their own hart everything but register d, the slice's program counter,
its waiting condition and its count of mutual waiting. -/
def Obligations.RegisterOnlyFrame : Prop :=
  ∀ (s t : State) (h : Here) (x : Hart) (i : Instr) (d : RegField),
    Runs s h x → writesOnly d i → exec i s = .next t →
    t = { s with gangs := t.gangs } ∧
    (∀ g, (findGang t g).map (fun y => { y with harts := [] }) = (findGang s g).map fun y => { y with harts := [] }) ∧
    (∀ g k, (g, k) ≠ (h.gang, h.hid) → findHart t g k = findHart s g k) ∧
    ∃ y, findHart t h.gang h.hid = some y ∧ x.sameBut y h.sl d

/-! ### Branches, jumps and the target checks (11 R239 to R241, 09 R186) -/

noncomputable section

namespace Sys2Proof.Claims

/-- 11 R239: when each branch is taken. -/
def branches : List ((RegField → BitVec 15 → Instr) × (Word → Bool)) := [
  (.beqz, fun a => decide (a.toInt = 0)), (.bnez, fun a => decide (a.toInt ≠ 0)),
  (.bltz, fun a => decide (a.toInt < 0)), (.bgez, fun a => decide (0 ≤ a.toInt)),
  (.bgtz, fun a => decide (0 < a.toInt)), (.blez, fun a => decide (a.toInt ≤ 0))]

/-- Address `pc` plus `n` words, from the word that holds the instruction (09 R188). -/
def wordsFrom (pc : Word) (n : Int) : Word := (pc &&& ~~~(3#64)) + BitVec.ofInt 64 (4 * n)

/-- A target that the checks of 09 R186 pass without a fetch: at 0 mod 8; or at 4 mod 8 where the words at it and before it
are held in the slice's fetch buffer and neither has frame 0b10, or, on a survey core, neither has it in memory. -/
def targetGood (s : State) (c : Cpu) (t : Word) : Prop :=
  t.toNat % 8 = 0 ∨
  (t.toNat % 8 = 4 ∧
    match c with
    | .slice h => ∃ x w p, findHart s h.gang h.hid = some x ∧
        ((x.slice h.sl).fbuf.find? fun e => e.1 == t) = some (t, w) ∧
        ((x.slice h.sl).fbuf.find? fun e => e.1 == t - 4#64) = some (t - 4#64, p) ∧ frameBits w ≠ 2 ∧ frameBits p ≠ 2
    | .survey _ => surveyLong s t = false ∧ surveyLong s (t - 4#64) = false)

end Sys2Proof.Claims

end




/-- 11 R239, 09 R203: a branch whose target passes the checks goes to it when its condition holds, else to its successor, and does
nothing else.

11 R241, 09 R203: a jump whose target passes the checks goes to it and leaves the address of its successor in d; `jalr` reads
its base before it writes d, and `c.j` leaves no link.

11 R240: a queue branch of the AS takes the oldest bit of `qb`, and goes to its target when the bit is 1 (`bqt`) or 0 (`bqf`);
with `qb` empty the slice waits. That a survey core, which has no `qb`, waits there too is the model's reading (log 12). -/
def Obligations.BranchAndJumpResults : Prop :=
  (∀ (s : State) (c : Cpu) (a : RegField), cpu? s = some c →
     (∀ off : BitVec 15, let t := wordsFrom (c.pc s) off.toInt
       targetGood s c t → ∀ p ∈ branches,
         exec (p.1 a off) s = .next (retire s c 0 0 (if p.2 (c.reg s a) then t else c.pc s + 4))) ∧
     (∀ off : BitVec 5, let t := wordsFrom (c.pc s) off.toInt
       targetGood s c t →
         exec (.cBnez a off) s = .next (retire s c 0 0 (if c.reg s a ≠ 0 then t else c.pc s + 2)))) ∧
  (∀ (s : State) (c : Cpu) (d a : RegField), cpu? s = some c →
     (∀ off : BitVec 20, let t := c.pc s + BitVec.ofInt 64 (4 * off.toInt)
       targetGood s c t → exec (.jal d off) s = .next (retire s c d (c.pc s + 4) t)) ∧
     (∀ imm : BitVec 15, let t := c.reg s a + BitVec.ofInt 64 imm.toInt
       targetGood s c t → exec (.jalr d a imm) s = .next (retire s c d (c.pc s + 4) t)) ∧
     (∀ imm : BitVec 40, let t := c.reg s a + BitVec.ofInt 64 imm.toInt
       targetGood s c t → exec (.jalrLong d a imm) s = .next (retire s c d (c.pc s + 8) t)) ∧
     (∀ off : BitVec 10, let t := wordsFrom (c.pc s) off.toInt
       targetGood s c t → exec (.cJ off) s = .next (retire s c 0 0 t))) ∧
  (∀ (s : State) (h : Here) (x : Hart) (off : BitVec 15), Runs s h x → h.sl = .as →
     let t := x.as_.pc + BitVec.ofInt 64 (4 * off.toInt)
     targetGood s (.slice h) t →
       (∀ b rest, x.qb = b :: rest →
         exec (.bqt off) s = .next (goOn s h (if b then t else x.as_.pc + 4) fun y => { y with qb := rest }) ∧
         exec (.bqf off) s = .next (goOn s h (if b then x.as_.pc + 4 else t) fun y => { y with qb := rest })) ∧
       (x.qb = [] → exec (.bqt off) s = .next (waits s h .queue) ∧ exec (.bqf off) s = .next (waits s h .queue))) ∧
  (∀ (s : State) (k : Nat) (off : BitVec 15), cpu? s = some (.survey k) →
     targetGood s (.survey k) ((surveyOf s k).pc + BitVec.ofInt 64 (4 * off.toInt)) →
       exec (.bqt off) s = .next s ∧ exec (.bqf off) s = .next s)

/-! ### Traps and returns (07 R151 to R154, 05 R96, 11 R227) -/

noncomputable section

namespace Sys2Proof.Claims

/-- Causes that a hart may handle (07 R151). -/
def hartCauses : List (BitVec 8) :=
  [0x01, 0x02, 0x04, 0x05, 0x0B, 0x10, 0x11, 0x14, 0x15, 0x16, 0x18, 0x1C]

/-- Instructions of the AS alone (05 R96, 09 R197 to R201), by the shape of their operands. -/
def asOnlyInstr (i : Instr) : Prop :=
  (∃ f ∈ ([.lb, .lh, .lw, .ld, .lbu, .lhu, .lwu, .sb, .sh, .sw, .sd] : List (RegField → RegField → BitVec 12 → Instr)),
    ∃ a b k, i = f a b k) ∨
  (∃ f ∈ ([.lbLong, .lhLong, .lwLong, .ldLong, .lbuLong, .lhuLong, .lwuLong, .sbLong, .shLong, .swLong, .sdLong] :
      List (RegField → RegField → BitVec 37 → Instr)), ∃ a b k, i = f a b k) ∨
  (∃ f ∈ ([.ldAcq, .sdRel] : List (RegField → RegField → BitVec 3 → BitVec 9 → Instr)), ∃ a b sc k, i = f a b sc k) ∨
  (∃ f ∈ ([.amoAddW, .amoAddD, .amoSwpW, .amoSwpD, .amoCasW, .amoCasD, .amoAnd, .amoOr, .amoXor, .amoMin, .amoMax, .amoMinu,
      .amoMaxu] : List (RegField → RegField → RegField → BitVec 3 → BitVec 2 → Instr)), ∃ d a b sc o, i = f d a b sc o) ∨
  (∃ f ∈ ([.cLd, .cSd] : List (RegField → BitVec 5 → Instr)), ∃ a k, i = f a k) ∨
  (∃ f ∈ ([.bqt, .bqf] : List (BitVec 15 → Instr)), ∃ off, i = f off) ∨
  (∃ f ∈ ([.wait, .adjld, .adjst, .cpy, .csig] : List (RegField → RegField → Instr)), ∃ a b, i = f a b) ∨
  (∃ f ∈ ([.tmark, .trew] : List (RegField → Instr)), ∃ a, i = f a) ∨
  (∃ f ∈ ([.slin, .sbit] : List (BitVec 4 → RegField → RegField → BitVec 5 → Instr)), ∃ r a b k, i = f r a b k) ∨
  (∃ f ∈ ([.sload, .spos] : List (BitVec 4 → RegField → Instr)), ∃ r a, i = f r a) ∨
  (∃ k p a b e, i = .sdrop k ∨ i = .coll p a e ∨ i = .nbe p a b e ∨ i = .launch p a e ∨ i = .cwait a b e ∨ i = .fenceSv)

/-- The kind and the operands of a vector, code, matrix or vector memory instruction of one V word. -/
def vWord : Instr → Option (VKind × VOps)
  | .vadd o => some (.vadd, o)
  | .vsub o => some (.vsub, o)
  | .vmul o => some (.vmul, o)
  | .vmulh o => some (.vmulh, o)
  | .vmac o => some (.vmac, o)
  | .vand o => some (.vand, o)
  | .vor o => some (.vor, o)
  | .vxor o => some (.vxor, o)
  | .vsll o => some (.vsll, o)
  | .vsrl o => some (.vsrl, o)
  | .vsra o => some (.vsra, o)
  | .vmin o => some (.vmin, o)
  | .vmax o => some (.vmax, o)
  | .vminu o => some (.vminu, o)
  | .vmaxu o => some (.vmaxu, o)
  | .vsel o => some (.vsel, o)
  | .vadds o => some (.vadds, o)
  | .vsubs o => some (.vsubs, o)
  | .vaddsu o => some (.vaddsu, o)
  | .vsubsu o => some (.vsubsu, o)
  | .vdiv o => some (.vdiv, o)
  | .vrem o => some (.vrem, o)
  | .vdivu o => some (.vdivu, o)
  | .vremu o => some (.vremu, o)
  | .vabs o => some (.vabs, o)
  | .vclz o => some (.vclz, o)
  | .vpop o => some (.vpop, o)
  | .vwmul o => some (.vwmul, o)
  | .vwmac o => some (.vwmac, o)
  | .vbext o => some (.vbext, o)
  | .vmov o => some (.vmov, o)
  | .vmeq o => some (.vmeq, o)
  | .vmne o => some (.vmne, o)
  | .vmlt o => some (.vmlt, o)
  | .vmle o => some (.vmle, o)
  | .vmltu o => some (.vmltu, o)
  | .vmleu o => some (.vmleu, o)
  | .vmfeq o => some (.vmfeq, o)
  | .vmflt o => some (.vmflt, o)
  | .vmfle o => some (.vmfle, o)
  | .vmfun o => some (.vmfun, o)
  | .vmfin o => some (.vmfin, o)
  | .vmand o => some (.vmand, o)
  | .vmor o => some (.vmor, o)
  | .vmxor o => some (.vmxor, o)
  | .vmandn o => some (.vmandn, o)
  | .vfadd o => some (.vfadd, o)
  | .vfsub o => some (.vfsub, o)
  | .vfmul o => some (.vfmul, o)
  | .vfdiv o => some (.vfdiv, o)
  | .vfmac o => some (.vfmac, o)
  | .vfnmac o => some (.vfnmac, o)
  | .vfmin o => some (.vfmin, o)
  | .vfmax o => some (.vfmax, o)
  | .vfsqrt o => some (.vfsqrt, o)
  | .vfrsq o => some (.vfrsq, o)
  | .vfrcp o => some (.vfrcp, o)
  | .vfabs o => some (.vfabs, o)
  | .vfneg o => some (.vfneg, o)
  | .vfcvt o => some (.vfcvt, o)
  | .vdec o => some (.vdec, o)
  | .venc o => some (.venc, o)
  | .vbnd o => some (.vbnd, o)
  | .vcnt o => some (.vcnt, o)
  | .vtier o => some (.vtier, o)
  | .vbits o => some (.vbits, o)
  | .vskip o => some (.vskip, o)
  | .vcat o => some (.vcat, o)
  | .vbget o => some (.vbget, o)
  | .vpack o => some (.vpack, o)
  | .vexpand o => some (.vexpand, o)
  | .vrepack o => some (.vrepack, o)
  | .vredsum o => some (.vredsum, o)
  | .vredmin o => some (.vredmin, o)
  | .vredmax o => some (.vredmax, o)
  | .vredand o => some (.vredand, o)
  | .vredor o => some (.vredor, o)
  | .vredxor o => some (.vredxor, o)
  | .vfredsum o => some (.vfredsum, o)
  | .vfredmin o => some (.vfredmin, o)
  | .vfredmax o => some (.vfredmax, o)
  | .vfredsq o => some (.vfredsq, o)
  | .vscan o => some (.vscan, o)
  | .vfscan o => some (.vfscan, o)
  | .vfirst o => some (.vfirst, o)
  | .vmcnt o => some (.vmcnt, o)
  | .viota o => some (.viota, o)
  | .vid o => some (.vid, o)
  | .vslidedn o => some (.vslidedn, o)
  | .vslideup o => some (.vslideup, o)
  | .vgatherv o => some (.vgatherv, o)
  | .vbcast o => some (.vbcast, o)
  | .vext o => some (.vext, o)
  | .vins o => some (.vins, o)
  | .vzip o => some (.vzip, o)
  | .vunzip o => some (.vunzip, o)
  | .vrev o => some (.vrev, o)
  | .vbrk o => some (.vbrk, o)
  | .vbrkb o => some (.vbrkb, o)
  | .vbput o => some (.vbput, o)
  | .vld o => some (.vld, o)
  | .vst o => some (.vst, o)
  | .vldff o => some (.vldff, o)
  | .vldx o => some (.vldx, o)
  | .vstx o => some (.vstx, o)
  | .vldw o => some (.vldw, o)
  | .vspill o => some (.vspill, o)
  | .vfill o => some (.vfill, o)
  | .vamoadd o => some (.vamoadd, o)
  | .vamomin o => some (.vamomin, o)
  | .vamomax o => some (.vamomax, o)
  | .vamoand o => some (.vamoand, o)
  | .vamoor o => some (.vamoor, o)
  | .vamoxor o => some (.vamoxor, o)
  | .vamoswp o => some (.vamoswp, o)
  | .vfamoadd o => some (.vfamoadd, o)
  | .wopen o => some (.wopen, o)
  | .wadd o => some (.wadd, o)
  | .wfadd o => some (.wfadd, o)
  | .wmerge o => some (.wmerge, o)
  | .wclose o => some (.wclose, o)
  | .zzero o => some (.zzero, o)
  | .zmma o => some (.zmma, o)
  | .zop o => some (.zop, o)
  | .zdr o => some (.zdr, o)
  | .zacc o => some (.zacc, o)
  | _ => none

/-- The pipe on which a V word issues (04 R84). -/
def pipeOf (i : Instr) : Pipe := match vWord i with | some p => vPipe p.1 | none => .csScalar

/-- Instructions of the CS alone, by the shape of their operands. -/
def csOnlyInstr (i : Instr) : Prop :=
  (vWord i).isSome = true ∨
  (∃ f ∈ ([.fadd, .fsub, .fmul, .fdiv, .fma] : List (RegField → RegField → RegField → BitVec 2 → BitVec 3 → Instr)),
    ∃ d a b p m, i = f d a b p m) ∨
  (∃ f ∈ ([.fsqrt, .frsq] : List (RegField → RegField → BitVec 2 → BitVec 3 → Instr)), ∃ d a p m, i = f d a p m) ∨
  (∃ f ∈ ([.fmin, .fmax, .feq, .flt, .fle] : List (RegField → RegField → RegField → BitVec 2 → Instr)),
    ∃ d a b p, i = f d a b p) ∨
  (∃ f ∈ ([.fcvt, .fcvti] : List (RegField → RegField → BitVec 3 → BitVec 2 → BitVec 3 → Instr)),
    ∃ d a ty p m, i = f d a ty p m) ∨
  (∃ f ∈ ([.vsetl, .vsetg, .vsetf, .vgetf] : List (RegField → RegField → Instr)), ∃ d a, i = f d a) ∨
  (∃ f ∈ ([.vclr, .garr, .zstart, .qpushb] : List (RegField → Instr)), ∃ a, i = f a) ∨
  (∃ f ∈ ([.zld, .zst] : List (RegField → RegField → BitVec 2 → BitVec 6 → BitVec 6 → Instr)), ∃ a b t r n, i = f a b t r n) ∨
  (∃ o d a p k, i = .snext o ∨ i = .vld2 o d ∨ i = .vstp o d k ∨ i = .fclass d a p) ∨
  i ∈ [.fenceVs, .fenceVv, .zend, .vsetst]

end Sys2Proof.Claims

end

namespace Sys2Proof.Claims

/-- 09 R186: a target that the checks refuse without a fetch: not at a multiple of 4; or at 4 mod 8 where the words at it and
before it are held in the slice's fetch buffer and one of them has frame 0b10. -/
def targetBad (x : Hart) (sl : SliceId) (t : Word) : Prop :=
  t.toNat % 4 ≠ 0 ∨
  t.toNat % 8 = 4 ∧ ∃ w p, ((x.slice sl).fbuf.find? fun e => e.1 == t) = some (t, w) ∧
    ((x.slice sl).fbuf.find? fun e => e.1 == t - 4#64) = some (t - 4#64, p) ∧ (frameBits w = 2 ∨ frameBits p = 2)

/-- The executing slice traps BADTGT at its instruction, with the target in `eaddr`. -/
def badTarget (s : State) (h : Here) (t : Word) : Host.Outcome State Fault Refusal :=
  .next (takeTrap s h.gang h.hid h.sl none { cause := 0x02, eaddr := t, einfo := 0 })

end Sys2Proof.Claims

/-- 09 R186: a branch, taken or not, a queue branch, or a jump of any form, whose target is not at a multiple of 4, or lies at
4 mod 8 where a held word at it or before it has frame 0b10, traps BADTGT with the target in `eaddr`; no register is written and
no bit of `qb` taken.

05 R96: an instruction of the other slice traps ILLEGAL, and does nothing else. -/
def Obligations.TargetAndSliceTraps : Prop :=
  (∀ (s : State) (h : Here) (x : Hart) (d a : RegField), Runs s h x →
     let pc := (x.slice h.sl).pc
     (∀ off : BitVec 15, let t := wordsFrom pc off.toInt
       targetBad x h.sl t → ∀ p ∈ branches, exec (p.1 a off) s = badTarget s h t) ∧
     (∀ off : BitVec 5, let t := wordsFrom pc off.toInt
       targetBad x h.sl t → exec (.cBnez a off) s = badTarget s h t) ∧
     (∀ off : BitVec 10, let t := wordsFrom pc off.toInt
       targetBad x h.sl t → exec (.cJ off) s = badTarget s h t) ∧
     (∀ off : BitVec 20, let t := pc + BitVec.ofInt 64 (4 * off.toInt)
       targetBad x h.sl t → exec (.jal d off) s = badTarget s h t) ∧
     (∀ imm : BitVec 15, let t := x.getReg h.sl a + BitVec.ofInt 64 imm.toInt
       targetBad x h.sl t → exec (.jalr d a imm) s = badTarget s h t) ∧
     (∀ imm : BitVec 40, let t := x.getReg h.sl a + BitVec.ofInt 64 imm.toInt
       targetBad x h.sl t → exec (.jalrLong d a imm) s = badTarget s h t) ∧
     (∀ off : BitVec 15, let t := pc + BitVec.ofInt 64 (4 * off.toInt)
       h.sl = .as → targetBad x .as t → exec (.bqt off) s = badTarget s h t ∧ exec (.bqf off) s = badTarget s h t)) ∧
  (∀ (s : State) (h : Here) (x : Hart) (i : Instr), Runs s h x →
     (h.sl = .as ∧ csOnlyInstr i ∨ h.sl = .cs ∧ asOnlyInstr i) →
     exec i s = .next (takeTrap s h.gang h.hid h.sl none { cause := 0x01, eaddr := 0, einfo := 0 }))



/-- 07 R153: a trap that the hart handles, its cause being one it may handle, its `emask` bit set and H = 0, saves the pc of the
trapping slice, the cause, `eaddr` and `einfo`, sets H, puts the vector queue aside as the held queue, stops the other slice,
and starts the trapping slice at its vector; no register of the files, no memory and no other hart changes.

07 R153, R155: a trap that the hart does not handle, with H = 0 and no yield request posted, saves both pcs, stops both slices
until its owner answers, and posts one notice to the owner of the cause's duty.

07 R153: a trap of any cause taken while H = 1 is a system trap too; H stays 1, the slice that the hart keeps as the one that
runs the handler stays the same, and both pcs are saved. That the handler's own queue and the held queue stay in their places
is the model's reading (log 19).

07 R152, R153: where a queued instruction traps at the head, `vstart` is its index, `vstat.fault` is set, VQ is 1, VDIST counts
from its pc to the next instruction of the CS, `epcc`, in units of 2 bytes, and with H = 0 it heads the held queue at that
index, with the queue behind it. -/
def Obligations.TrapTaken : Prop :=
  (∀ (s : State) (h : Here) (x : Hart) (t : TrapInfo), Runs s h x → t.cause ∈ hartCauses →
     x.tr.emask.getLsbD t.cause.toNat = true → x.tr.ecause.getLsbD 11 = false →
     ∃ y, findHart (takeTrap s h.gang h.hid h.sl none t) h.gang h.hid = some y ∧
       y.tr.ecause = BitVec.ofNat 64 (2 ^ 11 + (if h.sl = .cs then 2 ^ 8 else 0) + t.cause.toNat) ∧
       y.tr.eaddr = t.eaddr ∧ y.tr.einfo = t.einfo ∧
       (h.sl = .as → y.tr.epca = x.as_.pc ∧ y.tr.epcc = x.tr.epcc ∧ y.as_.pc = x.tr.evecA ∧ y.as_.cond = .running ∧
         y.cs.cond = .stopped ∧ y.cs.pc = x.cs.pc) ∧
       (h.sl = .cs → y.tr.epcc = x.cs.pc ∧ y.tr.epca = x.tr.epca ∧ y.cs.pc = x.tr.evecC ∧ y.cs.cond = .running ∧
         y.as_.cond = .stopped ∧ y.as_.pc = x.as_.pc) ∧
       y.held = x.viq ∧ y.viq = [] ∧ y.sysTrap = false ∧ y.a = x.a ∧ y.c = x.c ∧ y.v = x.v ∧ y.m = x.m ∧ y.vc = x.vc ∧
       y.tp = x.tp ∧ (takeTrap s h.gang h.hid h.sl none t).mem = s.mem ∧
       (takeTrap s h.gang h.hid h.sl none t).notices = s.notices ∧
       ∀ g k, (g, k) ≠ (h.gang, h.hid) → findHart (takeTrap s h.gang h.hid h.sl none t) g k = findHart s g k) ∧
  (∀ (s : State) (h : Here) (x : Hart) (l : Launch) (t : TrapInfo), Runs s h x → findLaunch s h.gang = some l →
     (t.cause ∉ hartCauses ∨ x.tr.emask.getLsbD t.cause.toNat = false) → x.tr.ecause.getLsbD 11 = false →
     x.ypend.getLsbD 63 = false →
     ∃ y n, findHart (takeTrap s h.gang h.hid h.sl none t) h.gang h.hid = some y ∧
       y.tr.ecause = BitVec.ofNat 64 ((if h.sl = .cs then 2 ^ 8 else 0) + t.cause.toNat) ∧
       y.tr.epca = x.as_.pc ∧ y.tr.epcc = x.cs.pc ∧ y.tr.eaddr = t.eaddr ∧ y.tr.einfo = t.einfo ∧
       y.sysTrap = true ∧ y.as_.cond = .stopped ∧ y.cs.cond = .stopped ∧ y.as_.pc = x.as_.pc ∧ y.cs.pc = x.cs.pc ∧
       y.held = x.viq ∧ y.viq = [] ∧ y.a = x.a ∧ y.c = x.c ∧ y.v = x.v ∧ y.m = x.m ∧
       (takeTrap s h.gang h.hid h.sl none t).notices = s.notices ++ [n] ∧ n.kind = .trap ∧
       n.duty = (if t.cause ∈ [0x08, 0x09, 0x0A] then 0 else if t.cause = 0x14 then 2 else if t.cause = 0x1E then 7 else 8) ∧
       (takeTrap s h.gang h.hid h.sl none t).mem = s.mem) ∧
  (∀ (s : State) (h : Here) (x : Hart) (l : Launch) (t : TrapInfo), Runs s h x → findLaunch s h.gang = some l →
     x.tr.ecause.getLsbD 11 = true → x.ypend.getLsbD 63 = false →
     ∃ y n, findHart (takeTrap s h.gang h.hid h.sl none t) h.gang h.hid = some y ∧
       y.tr.ecause = BitVec.ofNat 64 (2 ^ 11 + (if h.sl = .cs then 2 ^ 8 else 0) + t.cause.toNat) ∧ y.tr.took = x.tr.took ∧
       y.tr.epca = x.as_.pc ∧ y.tr.epcc = x.cs.pc ∧ y.tr.eaddr = t.eaddr ∧ y.tr.einfo = t.einfo ∧
       y.sysTrap = true ∧ y.as_.cond = .stopped ∧ y.cs.cond = .stopped ∧ y.as_.pc = x.as_.pc ∧ y.cs.pc = x.cs.pc ∧
       y.held = x.held ∧ y.viq = x.viq ∧ y.a = x.a ∧ y.c = x.c ∧ y.v = x.v ∧ y.m = x.m ∧
       (takeTrap s h.gang h.hid h.sl none t).notices = s.notices ++ [n] ∧ n.kind = .trap ∧
       (takeTrap s h.gang h.hid h.sl none t).mem = s.mem) ∧
  (∀ (s s1 : State) (h : Here) (x x1 : Hart) (e e1 : VEntry) (rest : List VEntry) (t : TrapInfo), Runs s h x →
     x.viq = e :: rest → runEntry e s = .ok (e1, .trap t) s1 → Runs s1 h x1 → x1.ypend.getLsbD 63 = false →
     ∃ s2 y, runHead s = .ok .trapped s2 ∧ findHart s2 h.gang h.hid = some y ∧
       y.vc.vstart = BitVec.ofNat 64 e1.idx ∧ y.vc.vstat.getLsbD 2 = true ∧
       y.tr.ecause.getLsbD 9 = true ∧ y.tr.ecause.getLsbD 8 = true ∧ y.tr.ecause.toNat % 2 ^ 8 = t.cause.toNat ∧
       y.tr.ecause.toNat / 2 ^ 16 = (x1.cs.pc - e.pc).toNat / 2 % 2 ^ 48 ∧ y.tr.epcc = x1.cs.pc ∧
       y.tr.eaddr = t.eaddr ∧ y.tr.einfo = t.einfo ∧
       (x1.tr.ecause.getLsbD 11 = false → y.viq = [] ∧
         ∃ e2, y.held = e2 :: rest ∧ e2.kind = e1.kind ∧ e2.idx = e1.idx ∧ e2.pc = e1.pc ∧ e2.o = e1.o) ∧
       y.as_.cond = .stopped ∧ y.a = x1.a ∧ y.c = x1.c ∧ y.v = x1.v ∧ y.m = x1.m ∧ s2.mem = s1.mem)

/-- 11 R227, 09 R198, R204, R205: `brk`, `trap #n`, a supervisor function and an encoding that is no instruction take their traps in
the slice that executes them, on either slice; the words of `brk` and `trap #n`.

07 R154, R186: `eret` of the slice that took the trap, with H = 1, its handler's vector instructions complete and a saved pc at
0 mod 8, clears H, goes on at the saved pc, restarts the other slice and puts the held queue back; otherwise, with H = 0 or in
the other slice, it traps ILLEGAL. -/
def Obligations.TrapInstructionsAndReturn : Prop :=
  (∀ (s : State) (h : Here) (x : Hart) (n fn d a b : BitVec 5), Runs s h x →
     exec .brk s = .next (takeTrap s h.gang h.hid h.sl none { cause := 0x04, eaddr := 0, einfo := 0 }) ∧
     exec (.trap n) s =
       .next (takeTrap s h.gang h.hid h.sl none { cause := 0x05, eaddr := 0, einfo := BitVec.ofNat 64 n.toNat }) ∧
     exec (.supervisorFunction fn d a b) s =
       .next (takeTrap s h.gang h.hid h.sl none { cause := 0x03, eaddr := 0, einfo := 0 }) ∧
     exec (.illegalEncoding false) s =
       .next (takeTrap s h.gang h.hid h.sl none { cause := 0x01, eaddr := 0, einfo := 0 }) ∧
     exec (.illegalEncoding true) s =
       .next (takeTrap s h.gang h.hid h.sl none { cause := 0x02, eaddr := (x.slice h.sl).pc, einfo := 0 }) ∧
     encode .brk = [0x00800003] ∧ encode (.trap n) = [BitVec.ofNat 32 (0x00C00003 + n.toNat * 2 ^ 17)]) ∧
  (∀ (s : State) (h : Here) (x : Hart), Runs s h x →
     let epc := match h.sl with | .as => x.tr.epca | .cs => x.tr.epcc
     (x.tr.ecause.getLsbD 11 = true → x.tr.took = h.sl → x.viq = [] → epc.toNat % 8 = 0 →
       ∃ t y, exec .eret s = .next t ∧ findHart t h.gang h.hid = some y ∧ y.tr.ecause = x.tr.ecause &&& ~~~(0x800#64) ∧
         (y.slice h.sl).pc = epc ∧ (y.slice (other h.sl)).pc = (x.slice (other h.sl)).pc ∧
         y.as_.cond = .running ∧ y.cs.cond = .running ∧ y.held = [] ∧ y.viq.map VEntry.kind = x.held.map VEntry.kind ∧
         y.a = x.a ∧ y.c = x.c ∧ y.v = x.v ∧ y.m = x.m ∧ y.tp = x.tp ∧ t.mem = s.mem) ∧
     (x.tr.ecause.getLsbD 11 = false ∨ x.tr.took ≠ h.sl →
       exec .eret s = .next (takeTrap s h.gang h.hid h.sl none { cause := 0x01, eaddr := 0, einfo := 0 })))

/-! ### Control registers (05 R98, R99, 11 R233) -/

noncomputable section

namespace Sys2Proof.Claims

/-- 05 R98: number, whether the AS and the CS may read it, whether a read of the CS waits for the vector queue, and the
value, for the registers that are one field of the hart. -/
def ctlRows : List (Nat × Bool × Bool × Bool × (Hart → SliceId → Word)) := [
  (0x000, false, true, true, fun x _ => x.vc.vl), (0x001, false, true, false, fun x _ => x.vc.vfmt),
  (0x003, false, true, true, fun x _ => x.vc.vstart), (0x004, false, true, true, fun x _ => x.vc.vcont),
  (0x005, false, true, true, fun x _ => x.vc.vstat), (0x006, false, true, true, fun x _ => x.vc.gn),
  (0x007, false, true, true, fun x _ => x.vc.gbd), (0x008, false, true, true, fun x _ => x.vc.gba),
  (0x009, false, true, true, fun x _ => x.vc.gbb), (0x00A, false, true, false, fun x _ => x.vc.vcap),
  (0x010, false, true, false, fun x _ => x.zl), (0x011, false, true, true, fun x _ => x.zrow),
  (0x020, true, true, false, fun x _ => x.tp.adjm.setWidth 64), (0x021, true, true, false, fun x _ => x.tp.tapeb),
  (0x022, true, true, false, fun x _ => x.tp.tapeh), (0x023, true, true, false, fun x _ => x.tp.tapel),
  (0x024, true, true, false, fun x _ => x.tp.dtab), (0x030, true, true, false, fun x _ => x.slip),
  (0x040, true, true, false, fun x _ => x.hid), (0x041, true, true, false, fun x _ => x.gsz),
  (0x042, true, true, false, fun x _ => x.gix), (0x043, true, true, false, fun x _ => x.gcnt),
  (0x044, true, true, false, fun x _ => x.kargs), (0x045, true, true, false, fun x _ => x.ypend),
  (0x050, true, true, false, fun x _ => x.tr.ecause), (0x051, true, true, false, fun x _ => x.tr.epca),
  (0x052, true, true, false, fun x _ => x.tr.epcc), (0x053, true, true, false, fun x _ => x.tr.eaddr),
  (0x054, true, true, false, fun x _ => x.tr.einfo),
  (0x055, true, true, false, fun x sl => match sl with | .as => x.tr.evecA | .cs => x.tr.evecC),
  (0x056, true, true, false, fun x _ => x.tr.emask)]

/-- Whether a slice may read a row. -/
def ctlReads (sl : SliceId) (p : Nat × Bool × Bool × Bool × (Hart → SliceId → Word)) : Bool :=
  match sl with | .as => p.2.1 | .cs => p.2.2.1

/-- 11 R233, 05 R98, R102, R115, 07 R152, 08 R168, R175, 09 R183: what a SETC of a register that is rw in the AS, the CS, or both
makes of the hart. -/
def ctlWrites : List (Nat × Bool × Bool × Bool × (Hart → SliceId → Word → Hart)) := [
  (0x001, false, true, true, fun x _ v => { x with vc := { x.vc with vfmt := v &&& 0xFFFFFFFF#64 } }),
  (0x003, false, true, true, fun x _ v => { x with vc := { x.vc with vstart := v } }),
  (0x011, false, true, true, fun x _ v => { x with zrow := v }),
  (0x021, true, false, false, fun x _ v => { x with tp := { x.tp with tapeb := v &&& ~~~(7#64) } }),
  (0x022, true, false, false, fun x _ v => { x with tp := { x.tp with tapeh := v &&& ~~~(7#64) } }),
  (0x023, true, false, false, fun x _ v => { x with tp := { x.tp with tapel := v &&& ~~~(7#64) } }),
  (0x024, true, false, false, fun x _ v => { x with tp := { x.tp with dtab := v &&& ~~~(511#64) } }),
  (0x050, true, true, false, fun x _ v =>
    { x with tr := { x.tr with ecause := (v &&& 0xFFFFFFFFFFFF03FF#64) ||| (x.tr.ecause &&& 0xFC00#64) } }),
  (0x051, true, true, false, fun x _ v => { x with tr := { x.tr with epca := v &&& ~~~(1#64) } }),
  (0x052, true, true, false, fun x _ v => { x with tr := { x.tr with epcc := v &&& ~~~(1#64) } }),
  (0x053, true, true, false, fun x _ v => { x with tr := { x.tr with eaddr := v } }),
  (0x054, true, true, false, fun x _ v => { x with tr := { x.tr with einfo := v } }),
  (0x055, true, true, false, fun x sl v => match sl with
    | .as => { x with tr := { x.tr with evecA := v &&& ~~~(3#64) } }
    | .cs => { x with tr := { x.tr with evecC := v &&& ~~~(3#64) } })]

def ctlWritable (sl : SliceId) (p : Nat × Bool × Bool × Bool × (Hart → SliceId → Word → Hart)) : Bool :=
  match sl with | .as => p.2.1 | .cs => p.2.2.1

/-- 05 R98: the numbers that name a register of a slice; those below 0x012 but `vlen` are the CS's alone. -/
def ctlListed (sl : SliceId) (n : Nat) : Bool :=
  [0x002, 0x031, 0x060, 0x061].contains n || ctlRows.any fun p => p.1 == n && ctlReads sl p

/-- Whether a slice writes register n: `slip` is the AS's, `vcap` the CS's. -/
def ctlWrittenBy (sl : SliceId) (n : Nat) : Bool :=
  (match sl with | .as => n == 0x030 | .cs => n == 0x00A) || ctlWrites.any fun p => p.1 == n && ctlWritable sl p

end Sys2Proof.Claims

end


/-- 05 R98, R99, 11 R233: `getc` writes the register's value to d; in the CS the registers that the vector queue writes are read
once it is empty; `cycle` and `ntime` read the same on both slices and on a survey core.

05 R98, 11 R233: `setc` of a writable register replaces its rw fields and nothing else; a value that `slip` does not take, and a
register that is read-only for the slice, make it only go on; and either instruction of a number that is no register of the
slice, be it one of the other slice's or one in a gap of the table, traps ILLEGAL. -/
def Obligations.ControlRegisters : Prop :=
  ((∀ (s : State) (h : Here) (x : Hart) (d : RegField), Runs s h x → ∀ p ∈ ctlRows, ctlReads h.sl p = true →
     (h.sl = .cs → p.2.2.2.1 = true → x.viq = []) →
     exec (.getc d (BitVec.ofNat 15 p.1)) s =
       .next (retire s (.slice h) d (p.2.2.2.2 x h.sl) ((x.slice h.sl).pc + 4))) ∧
   (∀ (s : State) (c : Cpu) (d : RegField), cpu? s = some c →
     exec (.getc d 0x060) s = .next (retire s c d s.cycle (c.pc s + 4)) ∧
     exec (.getc d 0x061) s = .next (retire s c d (BitVec.ofNat 64 (s.ntime / 720720)) (c.pc s + 4))) ∧
   (∀ (s : State) (h : Here) (x : Hart) (l : Launch) (d : RegField), Runs s h x → findLaunch s h.gang = some l →
     exec (.getc d 0x002) s =
       .next (retire s (.slice h) d (BitVec.ofNat 64 (4096 * 2 ^ (l.record.ctrl.toNat / 8 % 8))) ((x.slice h.sl).pc + 4))) ∧
   (∀ (s : State) (h : Here) (x : Hart) (d : RegField), Runs s h x → (h.sl = .cs → x.viq = []) →
     x.qa.length ≤ 64 → x.qc.length ≤ 16 → x.qb.length ≤ 64 →
     x.slipUse < 2 ^ 16 →
     ∃ v : Word, exec (.getc d 0x031) s = .next (retire s (.slice h) d v ((x.slice h.sl).pc + 4)) ∧
       v.toNat % 2 ^ 8 = x.qa.length ∧ v.toNat / 2 ^ 8 % 2 ^ 8 = x.qc.length ∧ v.toNat / 2 ^ 16 % 2 ^ 16 = x.qb.length ∧
       (∀ k : Fin 16, v.getLsbD (32 + k.val) = !(x.s[k]).queue.isEmpty) ∧
       v.toNat / 2 ^ 48 = x.qa.length + (x.s.toList.map fun r => r.queue.length).sum) ∧
   (∀ (s : State) (h : Here) (x : Hart) (d : RegField) (n : BitVec 15), Runs s h x → h.sl = .cs → x.viq ≠ [] →
     (n = 0x031 ∨ ∃ p ∈ ctlRows, p.1 = n.toNat ∧ p.2.2.2.1 = true) → ∃ w, exec (.getc d n) s = .next (waits s h w))) ∧
  (∀ (s : State) (h : Here) (x : Hart) (a d : RegField), Runs s h x →
     (∀ p ∈ ctlWrites, ctlWritable h.sl p = true → (h.sl = .cs → p.2.2.2.1 = true → x.viq = []) →
       exec (.setc (BitVec.ofNat 15 p.1) a) s =
         .next (goOn s h ((x.slice h.sl).pc + 4) fun y => p.2.2.2.2 y h.sl (x.getReg h.sl a))) ∧
     (h.sl = .as → 0 < (x.getReg .as a).toNat → (x.getReg .as a).toNat ≤ 128 →
       exec (.setc 0x030 a) s = .next (goOn s h (x.as_.pc + 4) fun y => { y with slip := x.getReg .as a })) ∧
     (h.sl = .as → ((x.getReg .as a).toNat = 0 ∨ 128 < (x.getReg .as a).toNat) →
       exec (.setc 0x030 a) s = .next (goOn s h (x.as_.pc + 4) id)) ∧
     (∀ l, h.sl = .cs → x.viq = [] → findLaunch s h.gang = some l →
       exec (.setc 0x00A a) s = .next (goOn s h (x.cs.pc + 4) fun y => { y with vc := { y.vc with
         vcap := BitVec.ofNat 64 (min (x.getReg .cs a).toNat (8 * (4096 * 2 ^ (l.record.ctrl.toNat / 8 % 8)))) } })) ∧
     (∀ p ∈ ctlWrites, h.sl = .cs → ctlWritable .cs p = true → p.2.2.2.1 = true → x.viq ≠ [] →
       ∃ w, exec (.setc (BitVec.ofNat 15 p.1) a) s = .next (waits s h w)) ∧
     (∀ n : BitVec 15, ctlListed h.sl n.toNat = true → ctlWrittenBy h.sl n.toNat = false →
       exec (.setc n a) s = .next (goOn s h ((x.slice h.sl).pc + 4) id)) ∧
     (∀ n : BitVec 15, ctlListed h.sl n.toNat = false →
       exec (.getc d n) s = .next (takeTrap s h.gang h.hid h.sl none { cause := 0x01, eaddr := 0, einfo := 0 }) ∧
       exec (.setc n a) s = .next (takeTrap s h.gang h.hid h.sl none { cause := 0x01, eaddr := 0, einfo := 0 })))

/-! ### System instructions (11 R226 to R232, 14 R326 to R328, 04 R89, 08 R174) -/


/-- 11 R228, 04 R89 to R91: with no request posted `yield` only goes on; with one posted, and `cycle` not past its deadline, its
slice stops past it, the other slice stops before its next instruction, and the hart drains its vector queue if that holds
anything and else is saved; past the deadline the hart is stopped by force before the `yield`.

11 R229: `wait` goes on when the aligned word it observes differs from b, and else waits. The observation is the model's
`observeWord`, at the home after the hart's own pending stores to the word (log 62). -/
def Obligations.YieldAndWaitResults : Prop :=
  (∀ (s : State) (h : Here) (x : Hart), Runs s h x →
     (x.ypend.getLsbD 63 = false → exec .yield s = .next (goOn s h ((x.slice h.sl).pc + 4) id)) ∧
     (x.ypend.getLsbD 63 = true → inTime s x → x.viq = [] → (findLaunch s h.gang).isSome = true →
       ∃ t y, exec .yield s = .next t ∧ findHart t h.gang h.hid = some y ∧ y.mode = .saving ∧ y.coop = true ∧
         y.save.isSome = true ∧ (y.slice h.sl).cond = .yielded ∧ (y.slice (other h.sl)).cond = .stopped ∧
         (y.slice h.sl).pc = (x.slice h.sl).pc + 4 ∧ (y.slice (other h.sl)).pc = (x.slice (other h.sl)).pc ∧
         y.a = x.a ∧ y.c = x.c ∧ y.v = x.v) ∧
     (x.ypend.getLsbD 63 = true → ¬ inTime s x → x.mode = .active → (findLaunch s h.gang).isSome = true →
       ∀ g, findGang s h.gang = some g → g.st = .resident →
       ∃ t y, exec .yield s = .next t ∧ findHart t h.gang h.hid = some y ∧ y.mode = .saving ∧ y.coop = false ∧
         (y.slice h.sl).pc = (x.slice h.sl).pc ∧ (y.slice (other h.sl)).pc = (x.slice (other h.sl)).pc ∧
         y.viq = x.viq ∧ y.a = x.a ∧ y.c = x.c) ∧
     (x.ypend.getLsbD 63 = true → inTime s x → x.viq ≠ [] →
       ∃ t y, exec .yield s = .next t ∧ findHart t h.gang h.hid = some y ∧ y.mode = .draining ∧
         (y.slice h.sl).cond = .yielded ∧ (y.slice (other h.sl)).cond = .stopped ∧
         (y.slice h.sl).pc = (x.slice h.sl).pc + 4 ∧ (y.slice (other h.sl)).pc = (x.slice (other h.sl)).pc ∧
         y.viq = x.viq ∧ y.a = x.a ∧ y.c = x.c ∧ t.mem = s.mem)) ∧
  (∀ (s s1 : State) (h : Here) (x : Hart) (a b : RegField) (v : Word), Runs s h x → h.sl = .as →
     observeWord (x.getReg .as a) s = .ok v s1 → ∀ x1, Runs s1 h x1 →
     (v ≠ x.getReg .as b → exec (.wait a b) s = .next (goOn s1 h (x1.as_.pc + 4) id)) ∧
     (v = x.getReg .as b → exec (.wait a b) s = .next (waits s1 h .word)))


/-- 14 R326: `fence.sv` and `fence.vs` mark the hart for its next push and go on, the latter with every queued instruction as
older than it; `fence.vv`, where it begins at once, performs the pending stores of the CS and drops the walk-ahead data of the
hart's streams, and behind others, or while the CS runs ahead of its queue (log 5), it is queued as a marker.

15 R328: `zstart` with a length of 1 to 64 makes the tiles live with every cell 0, and traps ILLEGAL with another length; `zend`
makes them not live with `zl` 0. Both wait for the vector queue. -/
def Obligations.FenceAndTileScopeResults : Prop :=
  (∀ (s : State) (h : Here) (x : Hart), Runs s h x →
     (h.sl = .as → exec .fenceSv s = .next (goOn s h (x.as_.pc + 4) fun y => { y with fenceSv := true })) ∧
     (h.sl = .cs → exec .fenceVs s = .next (goOn s h (x.cs.pc + 4) fun y => { y with
       fenceVs := true
       viq := x.viq.map fun e => { e with fenced := true }
       held := x.held.map fun e => { e with fenced := true } })) ∧
     (h.sl = .cs → s.ahead = false → x.viq = [] → Sendable x .cs →
       ∃ t y, exec .fenceVv s = .next t ∧ findHart t h.gang h.hid = some y ∧ y.viq = [] ∧ y.cs.pc = x.cs.pc + 4 ∧
         (∀ k : BitVec 5, (y.stream k).walk = []) ∧ y.cbuf = [] ∧ t.mem = performed s.mem x.cbuf ∧ y.abuf = x.abuf ∧
         y.vc = x.vc ∧ y.v = x.v ∧ y.a = x.a ∧ y.c = x.c) ∧
     (h.sl = .cs → JustQueues s x →
       exec .fenceVv s = .next (goOn s h (x.cs.pc + 4) fun y => entered y (captured x .fenceVv noOps 0 0 0 0 none))) ∧
     (h.sl = .cs → 16 ≤ x.viq.length → ∃ w, exec .fenceVv s = .next (waits s h w))) ∧
  (∀ (s : State) (h : Here) (x : Hart) (a : RegField), Runs s h x → h.sl = .cs →
     (x.viq = [] →
       (0 < (x.getReg .cs a).toNat ∧ (x.getReg .cs a).toNat ≤ 64 →
         exec (.zstart a) s = .next (goOn s h (x.cs.pc + 4) fun y =>
           { y with zl := x.getReg .cs a, zrow := 0, z := Vector.replicate 4 0, zlive := true })) ∧
       ((x.getReg .cs a).toNat = 0 ∨ 64 < (x.getReg .cs a).toNat →
         exec (.zstart a) s = .next (takeTrap s h.gang h.hid .cs none { cause := 0x01, eaddr := 0, einfo := 0 })) ∧
       (x.zlive = true → exec .zend s = .next (goOn s h (x.cs.pc + 4) fun y => { y with zlive := false, zl := 0 })) ∧
       (x.zlive = false → exec .zend s = .next (goOn s h (x.cs.pc + 4) id))) ∧
     (x.viq ≠ [] → ∃ w, exec (.zstart a) s = .next (waits s h w) ∧ exec .zend s = .next (waits s h w)))

noncomputable section

namespace Sys2Proof.Claims

/-- 09 R198: the rendezvous instructions that end no hart, with their fn10. -/
def rendezvousRows : List (Instr × Nat) := [(.fenceAll, 0x00B), (.adjFwd, 0x010), (.adjRev, 0x011), (.adjOff, 0x012)]

end Sys2Proof.Claims

end



/-- 11 R230: a slice that reaches a rendezvous while the other has not waits at it; when the other waits at a different one, the AS
takes RDVZ with both pcs saved and the CS's fn10 in `einfo`.

11 R230, 14 R327, 08 R170, R174: with both slices there and the vector queue empty, and every pending store with a
link for its requests, each performs the hart's pending stores, the AS's first: memory holds them afterwards. `fence.all` then
empties both fetch buffers and drops walk-ahead data; a switch sets the mode and takes the table that `dtab` names, an empty
one for 0, or traps PROT at the first entry that breaks 08 R170. Both slices go on past their instructions. While instructions
stand in the vector queue they wait. `settleHart` is the model's name for what the accesses before a switch do.

11 R231: with both slices at `exit`, H = 0 and the vector queue empty, the hart ends: its queues, descriptor queues, windows and
TCM blocks are given up and its pending stores are performed. -/
def Obligations.RendezvousResults : Prop :=
  (∀ (s : State) (h : Here) (x : Hart), Runs s h x →
     (∀ p ∈ rendezvousRows,
       ((∀ f, (x.slice (other h.sl)).cond ≠ .waiting (.rendezvous f)) →
         exec p.1 s = .next (waits s h (.rendezvous p.2))) ∧
       (∀ f, (x.slice (other h.sl)).cond = .waiting (.rendezvous f) → f ≠ p.2 →
         exec p.1 s = .next (takeTrap s h.gang h.hid .as none
           { cause := 0x16, einfo := BitVec.ofNat 64 (match h.sl with | .cs => p.2 | .as => f) } true))) ∧
     (x.tr.ecause.getLsbD 11 = true →
       exec .exit s = .next (takeTrap s h.gang h.hid h.sl none { cause := 0x01, eaddr := 0, einfo := 0 })) ∧
     (x.tr.ecause.getLsbD 11 = false → (∀ f, (x.slice (other h.sl)).cond ≠ .waiting (.rendezvous f)) →
       exec .exit s = .next (waits s h (.rendezvous 0x001)))) ∧
  (∀ (s : State) (h : Here) (x : Hart), Runs s h x → Sendable x .as → Sendable x .cs →
     (∀ (i : Instr) (f : Nat) (mode : Option (BitVec 2)),
       (i, f, mode) ∈ [(Instr.fenceAll, 0x00B, none), (.adjFwd, 0x010, some 1), (.adjRev, 0x011, some 2), (.adjOff, 0x012, some 0)] →
       (x.slice (other h.sl)).cond = .waiting (.rendezvous f) →
       (x.viq ≠ [] → exec i s = .next (waits s h (.rendezvous f))) ∧
       (x.viq = [] → (mode.isSome → x.tp.dtab = 0) →
         ∃ t y, exec i s = .next t ∧ findHart t h.gang h.hid = some y ∧
           y.as_.pc = x.as_.pc + 4 ∧ y.cs.pc = x.cs.pc + 4 ∧ y.as_.cond = .running ∧ y.cs.cond = .running ∧
           y.abuf = [] ∧ y.cbuf = [] ∧ t.mem = performed s.mem (x.abuf ++ x.cbuf) ∧ y.markers = [] ∧ y.asHeld = [] ∧
           y.a = x.a ∧ y.c = x.c ∧ y.v = x.v ∧ y.m = x.m ∧ y.vc = x.vc ∧
           (mode = none → y.as_.fbuf = [] ∧ y.cs.fbuf = [] ∧ y.tp = x.tp ∧ ∀ k : BitVec 5, (y.stream k).walk = []) ∧
           (∀ k, mode = some k → y.tp.adjm = k ∧ y.tp.table = some [] ∧ y.tp.tapeh = x.tp.tapeh ∧ y.tp.dtab = x.tp.dtab)) ∧
       (∀ k s0 s1 x1 b, mode = some k → x.viq = [] → x.tp.dtab ≠ 0 → settleHart f s = .ok () s0 →
         loadBytes .as x.tp.dtab.toNat 512 s0 = .ok b s1 → Runs s1 h x1 →
         (firstOffender [] (parseTable b) 0 = none →
           ∃ t y, exec i s = .next t ∧ findHart t h.gang h.hid = some y ∧ y.tp.adjm = k ∧ y.tp.table = some (parseTable b) ∧
             y.as_.pc = x1.as_.pc + 4 ∧ y.cs.pc = x1.cs.pc + 4 ∧ t.mem = s1.mem) ∧
         (∀ n, firstOffender [] (parseTable b) 0 = some n → exec i s = .next (takeTrap s1 h.gang h.hid .as none
           { cause := 0x0A, eaddr := x.tp.dtab + BitVec.ofNat 64 (32 * n), einfo := 0 }))))) ∧
  (∀ (s : State) (h : Here) (x : Hart), Runs s h x → Sendable x .as → Sendable x .cs → x.viq = [] →
     x.tr.ecause.getLsbD 11 = false → (x.slice (other h.sl)).cond = .waiting (.rendezvous 0x001) →
     ∃ t y, exec .exit s = .next t ∧ findHart t h.gang h.hid = some y ∧ y.mode = .exited ∧ y.qa = [] ∧ y.qc = [] ∧
       y.qb = [] ∧ (∀ k : BitVec 5, (y.stream k).queue = [] ∧ (y.stream k).adopted = none) ∧ y.windows = [] ∧ y.tcm = [] ∧
       y.zlive = false ∧ y.abuf = [] ∧ y.cbuf = [] ∧ t.mem = performed s.mem (x.abuf ++ x.cbuf) ∧ y.markers = [] ∧
       y.asHeld = [] ∧ y.a = x.a ∧ y.c = x.c)

/-! ### Queues and streams (11 R242 to R245, 14 R307 to R309, 05 R100 to R111) -/

/-- 11 R243, R245, 05 R103: a push of the AS puts its register at the end of `qa` when SLIPUSE is below LIMIT and `qa` has
room, one of the CS at the end of `qc` when that has room; the plain and the compressed form do nothing else while no fence
is pending. `qpush.rel` ties its entry to what was issued before it, by the numbers of the order of issue (logs 137 and 144).
Without slip or room a push waits, whether or not a fence is pending (that slip and room come before the fence is the model's
reading, log 123).

05 R100: a push to a queue that the executing slice does not push to traps ILLEGAL, and so does a queue number above those.

14 R326: the first push after `fence.sv` performs the pending stores of the AS, and the first after `fence.vs` waits until the
vector instructions older than the fence have completed, and performs the stores of the CS. -/
def Obligations.QueuePushResults : Prop :=
  ∀ (s : State) (h : Here) (x : Hart) (a : RegField), Runs s h x →
    let plain : QWord := { word := x.getReg h.sl a, lo := 0, hi := 0 }
    (∀ q : BitVec 2, (h.sl = .as → q ≠ 0) → (h.sl = .cs → q ≠ 1) → ∀ i ∈ [Instr.qpush a q, .qpushRel a q, .cQpush a q],
      exec i s = .next (takeTrap s h.gang h.hid h.sl none { cause := 0x01, eaddr := 0, einfo := 0 })) ∧
    (h.sl = .as → exec (.qpushb a) s = .next (takeTrap s h.gang h.hid .as none { cause := 0x01, eaddr := 0, einfo := 0 })) ∧
    (h.sl = .as → x.slipUse < x.slip.toNat % 256 → x.qa.length < 64 →
      (x.fenceSv = false →
        exec (.qpush a 0) s = .next (goOn s h (x.as_.pc + 4) fun y => { y with qa := y.qa ++ [plain] }) ∧
        exec (.cQpush a 0) s = .next (goOn s h (x.as_.pc + 2) fun y => { y with qa := y.qa ++ [plain] }) ∧
        exec (.qpushRel a 0) s = .next (goOn s h (x.as_.pc + 4) fun y => { y with
          seq := y.seq + 1, qa := y.qa ++ [{ word := x.getReg .as a, lo := x.seq + 1, hi := x.seq + 1 }] })) ∧
      (x.fenceSv = true → Sendable x .as →
        ∃ t y, exec (.qpush a 0) s = .next t ∧ findHart t h.gang h.hid = some y ∧ y.qa = x.qa ++ [plain] ∧ y.fenceSv = false ∧
          y.abuf = [] ∧ t.mem = performed s.mem x.abuf ∧ y.as_.pc = x.as_.pc + 4)) ∧
    (h.sl = .as → (x.slip.toNat % 256 ≤ x.slipUse ∨ 64 ≤ x.qa.length) →
      exec (.qpush a 0) s = .next (waits s h .queue)) ∧
    (h.sl = .cs → x.fenceVs = false → x.qc.length < 16 →
      exec (.qpush a 1) s = .next (goOn s h (x.cs.pc + 4) fun y => { y with qc := y.qc ++ [plain] }) ∧
      exec (.cQpush a 1) s = .next (goOn s h (x.cs.pc + 2) fun y => { y with qc := y.qc ++ [plain] }) ∧
      exec (.qpushRel a 1) s = .next (goOn s h (x.cs.pc + 4) fun y => { y with
        seq := y.seq + 1
        qc := y.qc ++ [{ word := x.getReg .cs a, lo := (x.viq.head?.map VEntry.seq).getD (x.seq + 1), hi := x.seq + 1 }] })) ∧
    (h.sl = .cs → 16 ≤ x.qc.length → exec (.qpush a 1) s = .next (waits s h .queue)) ∧
    (h.sl = .cs → x.fenceVs = false → x.qb.length < 64 →
      exec (.qpushb a) s = .next (goOn s h (x.cs.pc + 4) fun y => { y with qb := y.qb ++ [(x.getReg .cs a).getLsbD 0] })) ∧
    (h.sl = .cs → x.fenceVs = true → x.qc.length < 16 →
      ((∃ e ∈ x.viq ++ x.held, e.fenced = true) → ∃ w, exec (.qpush a 1) s = .next (waits s h w)) ∧
      ((∀ e ∈ x.viq ++ x.held, e.fenced = false) → Sendable x .cs →
        ∃ t y, exec (.qpush a 1) s = .next t ∧ findHart t h.gang h.hid = some y ∧ y.qc = x.qc ++ [plain] ∧ y.fenceVs = false ∧
          y.cbuf = [] ∧ t.mem = performed s.mem x.cbuf ∧ y.cs.pc = x.cs.pc + 4))


/-- 11 R243, R245: a pop takes the oldest entry of the slice's queue (`qc` in the AS, `qa` in the CS) into d, `qpeek` leaves it
there, and an empty queue makes the slice wait. A pop of an entry of `qpush.rel` waits while a vector instruction that it was
pushed behind has not completed, and then performs the pending stores of the pushing slice that it was pushed behind, with
those before them; `qpeek` is not held up (log 144). A pop or `qpeek` of a queue that the slice does not pop from traps
ILLEGAL, empty or not (05 R100).

11 R244, 05 R111: `qcnt` counts a queue's entries, `qclr` empties it; the queues are numbered 0 `qa`, 1 `qc`, 2 `qb`, and the
number 3 traps ILLEGAL. -/
def Obligations.QueuePopResults : Prop :=
  (∀ (s : State) (h : Here) (x : Hart) (d : RegField), Runs s h x →
     (∀ v rest, h.sl = .as → x.qc = v :: rest →
       ((∀ e ∈ x.viq ++ x.held, ¬ (v.lo ≤ e.seq ∧ e.seq < v.hi)) → (∀ w ∈ x.cbuf, v.hi ≤ w.seq) →
         (∀ i ∈ [Instr.qpop d 1, .qpopAcq d 1],
           exec i s = .next (goOn s h (x.as_.pc + 4) fun y => ({ y with qc := rest } : Hart).setReg .as d v.word)) ∧
         exec (.cQpop d 1) s = .next (goOn s h (x.as_.pc + 2) fun y => ({ y with qc := rest } : Hart).setReg .as d v.word)) ∧
       ((∃ e ∈ x.viq ++ x.held, v.lo ≤ e.seq ∧ e.seq < v.hi) → exec (.qpop d 1) s = .next (waits s h .queue)) ∧
       ((∀ e ∈ x.viq ++ x.held, ¬ (v.lo ≤ e.seq ∧ e.seq < v.hi)) → (∃ w ∈ x.cbuf, w.seq < v.hi) → Sendable x .cs →
         (∀ w ∈ x.cbuf, w.open_ = false) →
         ∃ t y, exec (.qpop d 1) s = .next t ∧ findHart t h.gang h.hid = some y ∧ y.qc = rest ∧ y.cbuf = [] ∧
           t.mem = performed s.mem x.cbuf ∧ y.a = fileSet x.a d v.word ∧ y.as_.pc = x.as_.pc + 4) ∧
       exec (.qpeek d 1) s = .next (goOn s h (x.as_.pc + 4) fun y => y.setReg .as d v.word)) ∧
     (∀ v rest, h.sl = .cs → x.qa = v :: rest →
       ((∀ w ∈ x.abuf, v.hi ≤ w.seq) →
         (∀ i ∈ [Instr.qpop d 0, .qpopAcq d 0],
           exec i s = .next (goOn s h (x.cs.pc + 4) fun y => ({ y with qa := rest } : Hart).setReg .cs d v.word)) ∧
         exec (.cQpop d 0) s = .next (goOn s h (x.cs.pc + 2) fun y => ({ y with qa := rest } : Hart).setReg .cs d v.word)) ∧
       ((∃ w ∈ x.abuf, w.seq < v.hi) → Sendable x .as →
         ∃ t y, exec (.qpop d 0) s = .next t ∧ findHart t h.gang h.hid = some y ∧ y.qa = rest ∧ y.abuf = [] ∧
           t.mem = performed s.mem x.abuf ∧ y.c = fileSet x.c d v.word ∧ y.cs.pc = x.cs.pc + 4) ∧
       exec (.qpeek d 0) s = .next (goOn s h (x.cs.pc + 4) fun y => y.setReg .cs d v.word)) ∧
     (∀ q : BitVec 2, (h.sl = .as → q ≠ 1) → (h.sl = .cs → q ≠ 0) →
       ∀ i ∈ [Instr.qpop d q, .qpopAcq d q, .qpeek d q, .cQpop d q],
       exec i s = .next (takeTrap s h.gang h.hid h.sl none { cause := 0x01, eaddr := 0, einfo := 0 })) ∧
     (h.sl = .as → x.qc = [] → exec (.qpop d 1) s = .next (waits s h .queue)) ∧
     (h.sl = .cs → x.qa = [] → exec (.qpop d 0) s = .next (waits s h .queue))) ∧
  (∀ (s : State) (h : Here) (x : Hart) (d : RegField), Runs s h x →
     let pc := (x.slice h.sl).pc + 4
     exec (.qcnt d 0) s = .next (goOn s h pc fun y => y.setReg h.sl d (BitVec.ofNat 64 x.qa.length)) ∧
     exec (.qcnt d 1) s = .next (goOn s h pc fun y => y.setReg h.sl d (BitVec.ofNat 64 x.qc.length)) ∧
     exec (.qcnt d 2) s = .next (goOn s h pc fun y => y.setReg h.sl d (BitVec.ofNat 64 x.qb.length)) ∧
     exec (.qclr 0) s = .next (goOn s h pc fun y => { y with qa := [] }) ∧
     exec (.qclr 1) s = .next (goOn s h pc fun y => { y with qc := [] }) ∧
     exec (.qclr 2) s = .next (goOn s h pc fun y => { y with qb := [] }) ∧
     exec (.qcnt d 3) s = .next (takeTrap s h.gang h.hid h.sl none { cause := 0x01, eaddr := 0, einfo := 0 }) ∧
     exec (.qclr 3) s = .next (takeTrap s h.gang h.hid h.sl none { cause := 0x01, eaddr := 0, einfo := 0 }))

noncomputable section

namespace Sys2Proof.Claims

/-- The hart may push a descriptor to stream register k now (05 R103). -/
def mayPushDesc (x : Hart) (k : BitVec 4) : Prop :=
  x.slipUse < x.slip.toNat % 256 ∧ (x.stream (k.setWidth 5)).queue.length < 4 ∧ x.fenceSv = false

/-- A descriptor at the end of stream register k's queue. -/
def withDesc (y : Hart) (k : BitVec 4) (d : Desc) : Hart :=
  y.setStream (k.setWidth 5)
    { y.stream (k.setWidth 5) with queue := (y.stream (k.setWidth 5)).queue ++ [{ desc := d, dfault := none }] }

end Sys2Proof.Claims

end



/-- 14 R308, 05 R106, R107: `slin` and `sbit` push a descriptor with BASE a and LEN, BOFF, WR and NOHINT from b, and `sload` the one
whose four words lie at a 32-byte-aligned address, when the descriptor breaks no rule and BASE is canonical; an `sload` address
that is not aligned traps PROT.

14 R308: the descriptor of `sload`, and its alignment check.

14 R309, 05 R111: `sdrop` empties a stream register and abandons its descriptor; `spos` reads its position, with bit 63 set when
nothing is adopted. -/
def Obligations.StreamDescriptorResults : Prop :=
  (∀ (s : State) (h : Here) (x : Hart) (k : BitVec 4) (a b : RegField) (fmt : BitVec 5), Runs s h x → h.sl = .as →
     mayPushDesc x k →
     let b' := (x.getReg .as b).toNat
     let cfg (kind : Nat) : Word := BitVec.ofNat 64 (kind * 2 ^ 62 + b' / 2 ^ 56 % 8 * 2 ^ 59 + fmt.toNat * 2 ^ 54 +
       b' / 2 ^ 63 % 2 * 2 ^ 53 + b' / 2 ^ 62 % 2 * 2 ^ 52 + b' % 2 ^ 48)
     let d (kind : Nat) : Desc := { base := x.getReg .as a, cfg := cfg kind, stride := 0 }
     canonical (x.getReg .as a).toNat = true → b' / 2 ^ 59 % 8 = 0 → b' / 2 ^ 48 % 2 ^ 8 = 0 →
       ((d 0).illegal 0 = false → exec (.slin k a b fmt) s = .next (goOn s h (x.as_.pc + 4) fun y => withDesc y k (d 0))) ∧
       ((d 2).illegal 0 = false → exec (.sbit k a b fmt) s = .next (goOn s h (x.as_.pc + 4) fun y => withDesc y k (d 2))) ∧
       ((d 0).illegal 0 = true →
         exec (.slin k a b fmt) s = .next (takeTrap s h.gang h.hid .as none { cause := 0x11, eaddr := 0, einfo := 0 }))) ∧
  (∀ (s : State) (h : Here) (x : Hart) (k : BitVec 4) (a : RegField), Runs s h x → h.sl = .as → mayPushDesc x k →
     let va := x.getReg .as a
     (va.toNat % 32 ≠ 0 →
       exec (.sload k a) s = .next (takeTrap s h.gang h.hid .as none { cause := 0x0A, eaddr := va, einfo := 0 })) ∧
     (∀ (s1 : State) (bytes : List Byte), va.toNat % 32 = 0 → wideLoad va.toNat 32 s = .ok bytes s1 →
       ∀ x1, Runs s1 h x1 →
       let w (j : Nat) : Word := BitVec.ofNat 64 (bytesToNat ((bytes.drop (8 * j)).take 8))
       let d : Desc := { base := w 0, cfg := w 1, stride := w 2 }
       d.illegal (w 3) = false → canonical d.base.toNat = true →
       exec (.sload k a) s = .next (goOn s1 h (x1.as_.pc + 4) fun y => withDesc y k d))) ∧
  (∀ (s : State) (h : Here) (x : Hart) (k : BitVec 4) (d : RegField), Runs s h x → h.sl = .as →
     (∃ t y, exec (.sdrop k) s = .next t ∧ findHart t h.gang h.hid = some y ∧ y.as_.pc = x.as_.pc + 4 ∧
       (y.stream (k.setWidth 5)).queue = [] ∧ (y.stream (k.setWidth 5)).adopted = none ∧
       (y.stream (k.setWidth 5)).walk = [] ∧ (∀ j : BitVec 5, j.toNat < 16 → j ≠ k.setWidth 5 → y.stream j = x.stream j) ∧
       y.a = x.a ∧ y.qa = x.qa) ∧
     exec (.spos k d) s = .next (goOn s h (x.as_.pc + 4) fun y => y.setReg .as d
       (BitVec.ofNat 64 (x.stream (k.setWidth 5)).pos |||
         (if (x.stream (k.setWidth 5)).adopted = none then BitVec.ofNat 64 (2 ^ 63) else 0))))

/-! ### Scalar floating point (11 R246 to R249) -/

noncomputable section

namespace Sys2Proof.Claims

/-- The rounding mode that a code names (11 R246): itself, or RM of `vfmt` for code 7. -/
def roundCode (x : Hart) (r : BitVec 3) : Nat := if r = 7 then x.vc.vfmt.toNat / 2 ^ 15 % 8 else r.toNat

/-- The code can be used: 7 needs a `vfmt` without a reserved code. -/
def roundReady (x : Hart) (r : BitVec 3) : Prop := r = 7 → vfmtReserved x.vc.vfmt = false

/-- 11 R247: binary arithmetic, as the exact result before its one rounding. -/
def fpBinaryOps :
    List ((RegField → RegField → RegField → BitVec 2 → BitVec 3 → Instr) × (Rnd → FVal → FVal → FVal)) :=
  [(.fadd, fAdd), (.fsub, fSub), (.fmul, fun _ => fMul), (.fdiv, fun _ => fDiv)]

/-- 11 R247, 06 R141: `frsq` rounds to f32, or to f64, before the rounding to its precision. -/
def fpUnaryOps : List ((RegField → RegField → BitVec 2 → BitVec 3 → Instr) × (BitVec 2 → Rnd → FVal → FVal)) :=
  [(.fsqrt, fun _ _ => fSqrt),
   (.frsq, fun p rm x => if p = 1 then fRsqrt64 x else rounded f32Fmt rm (fRsqrt32 x))]

/-- 11 R248: comparisons. -/
def fpCompareOps : List ((RegField → RegField → RegField → BitVec 2 → Instr) × (FVal → FVal → Bool)) :=
  [(.feq, fEq), (.flt, fLt), (.fle, fLe)]

end Sys2Proof.Claims

end


/-- 11 R246, R247, R249: arithmetic and conversions read the low bits of their registers at the precision (or type), form the exact
result, round it once under the rounding code and write it with the upper bits zero; code 7 with a reserved code in `vfmt` traps
ILLFMT.

11 R248: comparisons give 1 or 0; `fmin` gives the pattern of the smaller operand and `fmax` that of the larger, −0
below +0, the other operand for one NaN and the canonical NaN for two; `fclass` describes a pattern by its fields. -/
def Obligations.ScalarFloatResults : Prop :=
  (∀ (s : State) (h : Here) (x : Hart) (d a b : RegField) (p : BitVec 2) (ty r : BitVec 3), Runs s h x → h.sl = .cs →
     let rm := roundCode x r
     let at_ (w : Word) : FVal := decodeF (precFmt p) (w.toNat % 2 ^ (precFmt p).width)
     let out (v : FVal) : Host.Outcome State Fault Refusal :=
       .next (goOn s h (x.cs.pc + 4) fun y => y.setReg .cs d (BitVec.ofNat 64 (roundF (precFmt p) rm v)))
     (roundReady x r →
       (∀ q ∈ fpBinaryOps, exec (q.1 d a b p r) s = out (q.2 rm (at_ (x.getReg .cs a)) (at_ (x.getReg .cs b)))) ∧
       (∀ q ∈ fpUnaryOps, exec (q.1 d a p r) s = out (q.2 p rm (at_ (x.getReg .cs a)))) ∧
       exec (.fma d a b p r) s =
         out (fAdd rm (fMul (at_ (x.getReg .cs a)) (at_ (x.getReg .cs b))) (at_ (x.getReg .cs d))) ∧
       (ty = 4 → exec (.fcvt d a ty p r) s = out (fOfInt (x.getReg .cs a).toInt)) ∧
       (ty = 5 → exec (.fcvt d a ty p r) s = out (fOfInt ((x.getReg .cs a).toNat : Int))) ∧
       (∀ q : BitVec 2, ty.toNat = q.toNat → exec (.fcvt d a ty p r) s =
         out (decodeF (precFmt q) ((x.getReg .cs a).toNat % 2 ^ (precFmt q).width))) ∧
       (∀ k ∈ [((4 : BitVec 3), 0x05), (5, 0x09)], ty = k.1 → exec (.fcvti d a ty p r) s =
         .next (goOn s h (x.cs.pc + 4) fun y =>
           y.setReg .cs d (BitVec.ofNat 64 (convert (.real (at_ (x.getReg .cs a))) k.2 rm true))))) ∧
     (r = 7 → vfmtReserved x.vc.vfmt = true →
       exec (.fadd d a b p r) s = .next (takeTrap s h.gang h.hid .cs none { cause := 0x11, eaddr := 0, einfo := 0 }))) ∧
  (∀ (s : State) (h : Here) (x : Hart) (d a b : RegField) (p : BitVec 2), Runs s h x → h.sl = .cs →
     let f := precFmt p
     let pa := (x.getReg .cs a).toNat % 2 ^ f.width
     let pb := (x.getReg .cs b).toNat % 2 ^ f.width
     let u := decodeF f pa
     let v := decodeF f pb
     let out (w : Nat) : Host.Outcome State Fault Refusal :=
       .next (goOn s h (x.cs.pc + 4) fun y => y.setReg .cs d (BitVec.ofNat 64 w))
     (∀ q ∈ fpCompareOps, exec (q.1 d a b p) s = out (if q.2 u v then 1 else 0)) ∧
     (u.isNan = true → v.isNan = true → exec (.fmin d a b p) s = out f.nan ∧ exec (.fmax d a b p) s = out f.nan) ∧
     (u.isNan = true → v.isNan = false → exec (.fmin d a b p) s = out pb ∧ exec (.fmax d a b p) s = out pb) ∧
     (u.isNan = false → v.isNan = true → exec (.fmin d a b p) s = out pa ∧ exec (.fmax d a b p) s = out pa) ∧
     (u.isNan = false → v.isNan = false →
       let below (m n : FVal) : Prop := fLt m n = true ∨ (fEq m n = true ∧ m.neg = true ∧ n.neg = false)
       (below u v → exec (.fmin d a b p) s = out pa) ∧ (¬ below u v → exec (.fmin d a b p) s = out pb) ∧
       (below v u → exec (.fmax d a b p) s = out pa) ∧ (¬ below v u → exec (.fmax d a b p) s = out pb)) ∧
     (let e := pa / 2 ^ f.mbits % 2 ^ f.ebits
      let m := pa % 2 ^ f.mbits
      let kind := if e = 0 then (if m = 0 then 0 else 1) else if e = 2 ^ f.ebits - 1 then (if m = 0 then 3 else 4) else 2
      exec (.fclass d a p) s =
        out (kind + 8 * (pa / 2 ^ (f.mbits + f.ebits) % 2) + (if kind = 2 then 16 * e else 0))))

/-! ### Vector configuration and gang synchronisation (12 R263 to R267, 04 R77, 11 R250 to R252) -/



/-- 12 R264: `vsetl` sets `vl` and d to the smaller of n and VLMAX, or to 0 with ILL set while `vfmt` holds a reserved code.

12 R267: with the vector queue empty `vsetst` copies `vcont` to `vstart` and `vgetf` reads a fill; else they wait.

12 R266, R253: `vclr` makes a register's fill 0; `vsetf` sets it to the smaller of a and the limit, keeping the valid bits below
it. They are queued as markers, which wait for room. That those which find the vector queue empty, with the CS not ahead of it,
act at once, and change nothing else of the hart, is the model's order of events (log 5). -/
def Obligations.VectorSetupResults : Prop :=
  (∀ (s : State) (h : Here) (x : Hart) (l : Launch) (d a : RegField), Runs s h x → h.sl = .cs →
     findLaunch s h.gang = some l →
     let bad := vfmtReserved x.vc.vfmt
     let v : Word := BitVec.ofNat 64
       (if bad then 0 else min (x.getReg .cs a).toNat (vlmax (4096 * 2 ^ (l.record.ctrl.toNat / 8 % 8)) x.vc.vfmt))
     exec (.vsetl d a) s = .next (goOn s h (x.cs.pc + 4) fun y => ({ y with vc := { y.vc with
       vl := v, vstat := (y.vc.vstat &&& ~~~(8#64)) ||| (if bad then 8#64 else 0#64) } } : Hart).setReg .cs d v)) ∧
  (∀ (s : State) (h : Here) (x : Hart) (d a : RegField), Runs s h x → h.sl = .cs →
     (x.viq = [] →
       exec .vsetst s = .next (goOn s h (x.cs.pc + 4) fun y => { y with vc := { y.vc with vstart := y.vc.vcont } }) ∧
       exec (.vgetf d a) s = .next (goOn s h (x.cs.pc + 4) fun y => y.setReg .cs d (BitVec.ofNat 64 (x.vreg a).fill))) ∧
     (x.viq ≠ [] → ∃ w, exec .vsetst s = .next (waits s h w) ∧ exec (.vgetf d a) s = .next (waits s h w))) ∧
  (∀ (s : State) (h : Here) (x : Hart) (l : Launch) (d : BitVec 5) (a : RegField), Runs s h x → h.sl = .cs →
     findLaunch s h.gang = some l →
     let n := min (x.getReg .cs a).toNat (destLimit x l)
     let e (k : VKind) (v : Word) : VEntry := captured x k { noOps with d := d } v 0 0 0 none
     (s.ahead = false → x.viq = [] →
       exec (.vclr d) s = .next (completed s h .valu x (x.setVreg d { bits := 0, fill := 0 })) ∧
       exec (.vsetf d a) s =
         .next (completed s h .valu x (x.setVreg d { bits := (x.vreg d).bits % 2 ^ n, fill := n }))) ∧
     (JustQueues s x →
       exec (.vclr d) s = .next (goOn s h (x.cs.pc + 4) fun y => entered y (e .vclr 0)) ∧
       exec (.vsetf d a) s = .next (goOn s h (x.cs.pc + 4) fun y => entered y (e .vsetf (x.getReg .cs a)))) ∧
     (16 ≤ x.viq.length → ∃ w, exec (.vclr d) s = .next (waits s h w) ∧ exec (.vsetf d a) s = .next (waits s h w)))

noncomputable section

namespace Sys2Proof.Claims

/-- 11 R250, R251: both slices of a hart have arrived at phase k, or it has executed `exit`: each slice has been given the
arrival, the AS holds none of it back for older stores, and the CS has no marker of it that has not fired. -/
def hasArrived (x : Hart) (k : Nat) : Prop :=
  x.mode = .exited ∨
  (k < x.asArr ∧ (∀ m ∈ x.asHeld, m.1 ≠ k) ∧ k < x.csArr ∧ (∀ e ∈ x.viq ++ x.held, e.kind = .garr → e.aux ≠ k) ∧ ∀ m ∈ x.markers, m.1 ≠ k)

/-- PH of a gang from p on: it counts the phases at which all slices have arrived, and no more. -/
def phasesDone (g : Gang) (p : Nat) : Prop :=
  p ≤ g.ph ∧ (∀ k, p ≤ k → k < g.ph → ∀ z ∈ g.harts, hasArrived z k) ∧ ¬ ∀ z ∈ g.harts, hasArrived z g.ph

end Sys2Proof.Claims

end

/-- 04 R77, 12 R265: a hart arrives at its gang's round with the smaller of n and VLMAX, or with 0 and ILL while `vfmt` holds a
reserved code. Where every other hart that has not executed `exit` has arrived, the round completes: every hart's `vl` is the
minimum of the contributions, and the executing hart takes it in d; else the hart waits until the others arrive.

11 R250, R251: `gbar` and `garr` give the number of the phase at which the slice arrives, and the arrival counts, that of the AS
after its pending stores (held back while one of them has no link, `gbar` itself going on), that of a marker once it fires: at once where no older store of the CS is pending, else it is kept.
PH advances over the phases at which all slices have arrived. `gwait` goes on once its phase is complete and waits before. -/
def Obligations.GrantAndBarrierResults : Prop :=
  (∀ (s : State) (h : Here) (x : Hart) (g : Gang) (l : Launch) (d a : RegField), Runs s h x → h.sl = .cs →
     findGang s h.gang = some g → findLaunch s h.gang = some l → x.grant = none → x.mode = .active →
     (∀ c ∈ g.arrived, c.1 ≠ h.hid ∧ ∃ z, g.harts[c.1]? = some z ∧ z.mode ≠ .exited) → (g.arrived.map (·.1)).Nodup →
     let ill := vfmtReserved x.vc.vfmt
     let v : Nat := if ill then 0 else min (x.getReg .cs a).toNat (vlmax (4096 * 2 ^ (l.record.ctrl.toNat / 8 % 8)) x.vc.vfmt)
     let G : Nat := g.arrived.foldl (fun m c => min m c.2.1) v
     ((∀ k z, k ≠ h.hid → g.harts[k]? = some z → z.mode ≠ .exited → ∃ c ∈ g.arrived, c.1 = k) →
       ∃ t y u, exec (.vsetg d a) s = .next t ∧ findHart t h.gang h.hid = some y ∧
         y.vc.vl = BitVec.ofNat 64 G ∧ y.vc.vstat = (x.vc.vstat &&& ~~~(8#64)) ||| (if ill then 8#64 else 0#64) ∧
         y.cs.pc = x.cs.pc + 4 ∧ y.grant = none ∧ y.c = fileSet x.c d (BitVec.ofNat 64 G) ∧ y.a = x.a ∧ y.v = x.v ∧
         findGang t h.gang = some u ∧ u.arrived = [] ∧
         ∀ c ∈ g.arrived, ∀ z, g.harts[c.1]? = some z → findHart t h.gang c.1 =
           some { z with grant := some (G, c.2.2), vc := { z.vc with vl := BitVec.ofNat 64 G } }) ∧
     (∀ k z, k ≠ h.hid → g.harts[k]? = some z → z.mode ≠ .exited → (∀ c ∈ g.arrived, c.1 ≠ k) → x.ypend.getLsbD 63 = false →
       ∃ t y, exec (.vsetg d a) s = .next t ∧ findHart t h.gang h.hid = some y ∧ y.cs.cond = .waiting .vsetg ∧
         y.cs.pc = x.cs.pc ∧ y.c = x.c ∧ (findGang t h.gang).map Gang.arrived = some (g.arrived ++ [(h.hid, v, ill)]))) ∧
  (∀ (s : State) (h : Here) (x : Hart) (g : Gang) (d a : RegField), Runs s h x → findGang s h.gang = some g →
     (x.mode ≠ .exited →
       (h.sl = .as → Sendable x .as → ∃ t y u, exec (.gbar d) s = .next t ∧ findHart t h.gang h.hid = some y ∧
         y.a = fileSet x.a d (BitVec.ofNat 64 x.asArr) ∧ y.asArr = x.asArr + 1 ∧ y.asHeld = x.asHeld ∧ y.abuf = [] ∧
         t.mem = performed s.mem x.abuf ∧ y.as_.pc = x.as_.pc + 4 ∧ findGang t h.gang = some u ∧ phasesDone u g.ph) ∧
       (h.sl = .as → (∃ w ∈ x.abuf, w.cutOff = true) → ∃ t y u, exec (.gbar d) s = .next t ∧
         findHart t h.gang h.hid = some y ∧ y.a = fileSet x.a d (BitVec.ofNat 64 x.asArr) ∧ y.asArr = x.asArr + 1 ∧
         y.asHeld = x.asHeld ++ [(x.asArr, x.seq + 1)] ∧ y.seq = x.seq + 1 ∧ (∃ w ∈ y.abuf, w.cutOff = true) ∧
         y.as_.pc = x.as_.pc + 4 ∧ findGang t h.gang = some u ∧ phasesDone u g.ph) ∧
       (h.sl = .cs → ∃ t y u, exec (.gbar d) s = .next t ∧ findHart t h.gang h.hid = some y ∧
         y.c = fileSet x.c d (BitVec.ofNat 64 x.csArr) ∧ y.csArr = x.csArr + 1 ∧ y.cbuf = x.cbuf ∧ y.cs.pc = x.cs.pc + 4 ∧
         t.mem = s.mem ∧ findGang t h.gang = some u ∧ phasesDone u g.ph) ∧
       (h.sl = .cs → s.ahead = false → x.viq = [] → ∃ t y u, exec (.garr d) s = .next t ∧ findHart t h.gang h.hid = some y ∧
         y.c = fileSet x.c d (BitVec.ofNat 64 x.csArr) ∧ y.csArr = x.csArr + 1 ∧ y.viq = [] ∧ y.cs.pc = x.cs.pc + 4 ∧
         ((∀ w ∈ x.cbuf, x.seq ≤ w.seq) → y.markers = x.markers) ∧
         ((∃ w ∈ x.cbuf, w.seq < x.seq) → y.markers = x.markers ++ [(x.csArr, x.seq)]) ∧
         t.mem = s.mem ∧ findGang t h.gang = some u ∧ phasesDone u g.ph)) ∧
     (h.sl = .cs → JustQueues s x → exec (.garr d) s = .next (goOn s h (x.cs.pc + 4) fun y =>
       (entered { y with csArr := y.csArr + 1 } (captured x .garr noOps 0 0 x.csArr 0 none)).setReg .cs d
         (BitVec.ofNat 64 x.csArr))) ∧
     (h.sl = .cs → 16 ≤ x.viq.length → ∃ w, exec (.garr d) s = .next (waits s h w)) ∧
     ((x.getReg h.sl a).toNat < g.ph → exec (.gwait a) s = .next (goOn s h ((x.slice h.sl).pc + 4) id)) ∧
     (g.ph ≤ (x.getReg h.sl a).toNat → exec (.gwait a) s = .next (waits s h .gwait)))

/-! ### Scalar memory access (14 R302 to R306, 05 R117, R118, 08 R171) -/

noncomputable section

namespace Sys2Proof.Claims

/-- 14 R302: loads with a 12-bit offset, their prefixed forms, bytes read, and whether they sign-extend. -/
def loadRows : List ((RegField → RegField → BitVec 12 → Instr) × (RegField → RegField → BitVec 37 → Instr) × Nat × Bool) := [
  (.lb, .lbLong, 1, true), (.lh, .lhLong, 2, true), (.lw, .lwLong, 4, true), (.ld, .ldLong, 8, true),
  (.lbu, .lbuLong, 1, false), (.lhu, .lhuLong, 2, false), (.lwu, .lwuLong, 4, false)]

/-- 14 R302: stores with a 12-bit offset, their prefixed forms, and bytes written. -/
def storeRows : List ((RegField → RegField → BitVec 12 → Instr) × (RegField → RegField → BitVec 37 → Instr) × Nat) := [
  (.sb, .sbLong, 1), (.sh, .shLong, 2), (.sw, .swLong, 4), (.sd, .sdLong, 8)]

/-- A loaded number of n bytes as a register receives it. -/
def loaded (n : Nat) (signed : Bool) (b : List Byte) : Word :=
  if signed then (BitVec.ofNat (8 * n) (bytesToNat b)).signExtend 64 else BitVec.ofNat 64 (bytesToNat b)

/-- The low n bytes of a register, least significant first. -/
def storedBytes (v : Word) (n : Nat) : List Byte := (List.range n).map fun k => BitVec.ofNat 8 (v.toNat / 256 ^ k)

/-- 14 R305: operation, size, and the new value from d, b and the old value. -/
def amoRows :
    List ((RegField → RegField → RegField → BitVec 3 → BitVec 2 → Instr) × Nat × (Word → Word → Nat → Nat)) := [
  (.amoAddW, 4, fun _ b o => (o + b.toNat) % 2 ^ 32), (.amoAddD, 8, fun _ b o => (o + b.toNat) % 2 ^ 64),
  (.amoSwpW, 4, fun _ b _ => b.toNat % 2 ^ 32), (.amoSwpD, 8, fun _ b _ => b.toNat),
  (.amoCasW, 4, fun d b o => if o = d.toNat % 2 ^ 32 then b.toNat % 2 ^ 32 else o),
  (.amoCasD, 8, fun d b o => if o = d.toNat then b.toNat else o),
  (.amoAnd, 8, fun _ b o => o &&& b.toNat), (.amoOr, 8, fun _ b o => o ||| b.toNat), (.amoXor, 8, fun _ b o => o ^^^ b.toNat),
  (.amoMin, 8, fun _ b o => if (BitVec.ofNat 64 o).toInt ≤ b.toInt then (BitVec.ofNat 64 o).toNat else b.toNat),
  (.amoMax, 8, fun _ b o => if b.toInt ≤ (BitVec.ofNat 64 o).toInt then (BitVec.ofNat 64 o).toNat else b.toNat),
  (.amoMinu, 8, fun _ b o => if (BitVec.ofNat 64 o).toNat ≤ b.toNat then (BitVec.ofNat 64 o).toNat else b.toNat),
  (.amoMaxu, 8, fun _ b o => if b.toNat ≤ (BitVec.ofNat 64 o).toNat then (BitVec.ofNat 64 o).toNat else b.toNat)]

/-- The access of n bytes at va lies in one bound block p of the hart's TCM window (05 R117, R118). -/
def inTcmBlock (x : Hart) (va n p : Nat) : Prop :=
  Config.tcmBase ≤ va ∧ va + n ≤ Config.tcmBase + Config.tcmBytes ∧
  (va - Config.tcmBase) % Config.tcmBlock + n ≤ Config.tcmBlock ∧
  ((x.tcm.find? fun c => c.1 == (va - Config.tcmBase) / Config.tcmBlock).map (·.2)) = some p

/-- The location of its first byte. -/
def tcmPlace (g : Gang) (x : Hart) (va p : Nat) : Nat :=
  tcmLoc ((g.die * 32 + g.gallery) * 16 + x.core) (p * Config.tcmBlock + (va - Config.tcmBase) % Config.tcmBlock)

end Sys2Proof.Claims

end

namespace Sys2Proof.Claims

/-- 07 R142: the number of low address bits that a leaf of a level leaves open. -/
def levelBits (level : Nat) : Nat := 16 + 13 * (3 - level)

/-- 07 R143, R144, 03 R75: a leaf grants an access. -/
def grants (acc : Acc) (p : Word) : Prop :=
  match acc with
  | .load => p.getLsbD 1 = true
  | .store => p.getLsbD 2 = true
  | .atomic => p.getLsbD 1 = true ∧ p.getLsbD 2 = true
  | .fetch => p.getLsbD 3 = true ∧ p.getLsbD 8 = false ∧ ¬ (p.getLsbD 9 = true ∧ p.getLsbD 2 = true)

/-- 07 R143: the physical address of va through a leaf. -/
def leafAddress (p : Word) (level va : Nat) : Nat := p.toNat / 2 ^ 16 % 2 ^ 36 * 65536 + va % 2 ^ levelBits level

/-- n bytes at va that lie in one page and outside the windows. -/
def inOnePage (va n : Nat) : Prop :=
  va < 2 ^ 64 ∧ 0 < n ∧ va % 65536 + n ≤ 65536 ∧ canonical va = true ∧ inWindowSpan va = false ∧ inCavernSpan va = false

/-- The number at 8 locations, as memory m has it. -/
def wordIn (m : Memory) (loc : Nat) : Nat := bytesToNat ((locRange loc 8).map (memRead m))

end Sys2Proof.Claims

/-- 01 R20, R21, R391, 07 R142 to R146: how an address becomes a place. A local physical address goes through an interleave descriptor
by its mode; a page-table word through the lowest-numbered descriptor that maps it, or the walk traps PROT. A walk of three levels
indexes each table with 13 bits; an entry that is invalid, has a reserved bit or is a misplaced leaf traps PGFAULT, a poisoned one
MCHK. The walk sets A in its leaf; an access that the leaf grants reaches the leaf's page, in local HBM, a cavern, a peer package
or host memory; another traps PROT, and a device atomic on a host page without SA traps ATOMATTR. An access beyond a cavern or
to a peer without a route traps PROT. A store that issues sets D.

Three clauses are the model's: the gallery holds every leaf that is walked (log 8); a walk sets no bit of another entry (log 109);
an access to a peer waits while no link serves it, and takes MCHK once the loss has timed out (log 113). -/
def Obligations.TranslationResults : Prop :=
  (∀ (w0 w1 : Word) (pa : Nat),
     let base := w0.toNat / 2 ^ 16 % 2 ^ 36 * 65536
     let size := w1.toNat / 2 ^ 32 % 2 ^ 25 * 65536
     let rowb := w1.toNat / 2 ^ 16 % 2 ^ 16
     let chan := w1.toNat / 2 ^ 7 % 2 ^ 9
     let o := pa - base
     let mode := w0.toNat / 2 ^ 58 % 4
     (w0.getLsbD 63 = false ∨ pa < base ∨ base + size ≤ pa → hbmMap w0 w1 pa = none) ∧
     (w0.getLsbD 63 = true → base ≤ pa → pa < base + size →
       (mode = 0 → let co := o / 256 / 512 * 256 + o % 256
         hbmMap w0 w1 pa = some (hbmLoc (o / 256 % 512) (co / 1024 % 32) (rowb + co / 32768) (co % 1024))) ∧
       (mode = 1 → hbmMap w0 w1 pa = some (hbmLoc chan (o / 1024 % 32) (rowb + o / 32768) (o % 1024))) ∧
       (mode = 2 → hbmMap w0 w1 pa = some (hbmLoc chan (w1.toNat % 32) (rowb + o / 1024) (o % 1024))))) ∧
  (∀ (s : State) (pa : Nat), pa % 8 = 0 →
     let by_ (n : Nat) : Option Nat := hbmMap (devReg s (0x10000 + 16 * n)) (devReg s (0x10008 + 16 * n)) pa
     (∀ n l, n < 64 → by_ n = some l → (∀ m, m < n → by_ m = none) → physLocs s pa 8 = some (locRange l 8)) ∧
     ((∀ n, n < 64 → by_ n = none) → physLocs s pa 8 = none)) ∧
  (∀ (s : State) (va n level table : Nat),
     let at_ := physLocs s (table + 8 * (va / 2 ^ levelBits level % 8192)) 8
     let walk := walkFrom s va (n + 1) level table
     1 ≤ level → level ≤ 3 → walkFrom s va 0 level table = .ends 0x08 ∧ (at_ = none → walk = .ends 0x0A) ∧
     ∀ l, at_ = some l →
       let p : Word := BitVec.ofNat 64 (bytesToNat (l.map (memRead s.mem)))
       let ppn := p.toNat / 2 ^ 16 % 2 ^ 36
       let bad := p.getLsbD 0 = false ∨ p.getLsbD 4 = true ∨ p.toNat / 2 ^ 12 % 16 ≠ 0
       let leaf := p.getLsbD 1 = true ∨ p.getLsbD 2 = true ∨ p.getLsbD 3 = true
       ((∃ q ∈ l, poisoned s q = true) → walk = .ends 0x1E) ∧
       ((∀ q ∈ l, poisoned s q = false) →
         (bad → walk = .ends 0x08) ∧
         (¬ bad → leaf → ppn % 2 ^ (levelBits level - 16) ≠ 0 → walk = .ends 0x08) ∧
         (¬ bad → leaf → ppn % 2 ^ (levelBits level - 16) = 0 → walk = .leaf p level (l.headD 0)) ∧
         (¬ bad → ¬ leaf → walk = walkFrom s va n (level + 1) (ppn * 65536)))) ∧
  (∀ (s : State) (xl : Xlat) (acc : Acc) (va n : Nat), inOnePage va n →
     let goes := tried (locate xl acc va n) s
     let trapped (s1 : State) (cause : BitVec 8) (info : Word) : Prop := ∃ k, goes = (.trap k, s1) ∧ k.cause = cause ∧
       k.eaddr = BitVec.ofNat 64 va ∧ k.einfo = info
     let reaches (s1 : State) (e : TlbEntry) : Prop :=
       let pa := leafAddress e.pte e.level va
       let found (l : List Nat) : Found :=
         { locs := l, dev := e.pte.getLsbD 8, sa := e.pte.getLsbD 7, kinds := [e.pte.toNat / 2 ^ 10 % 4]
           leaves := if acc = .store ∨ acc = .atomic then [e] else [] }
       (¬ grants acc e.pte → trapped s1 0x0A acc.code) ∧
       (grants acc e.pte → acc ≠ .fetch ∨ e.pte.getLsbD 9 = false →
         (e.pte.toNat / 2 ^ 10 % 4 = 0 → pa % 256 + n ≤ 256 →
           let ir := 16 * (e.pte.toNat / 2 ^ 52 % 64)
           (∀ l, hbmMap (devReg s (0x10000 + ir)) (devReg s (0x10008 + ir)) pa = some l → goes = (.ok (found (locRange l n)), s1)) ∧
           (hbmMap (devReg s (0x10000 + ir)) (devReg s (0x10008 + ir)) pa = none → trapped s1 0x0A acc.code)) ∧
         (e.pte.toNat / 2 ^ 10 % 4 = 1 →
           let off := pa % 2 ^ 28
           let size := s.dev.cavernMiB * 2 ^ 20
           (2 ^ 31 ≤ pa → trapped s1 0x0A acc.code) ∧
           (pa < 2 ^ 31 → off + n ≤ size → goes = (.ok (found (locRange (cavernLoc (pa / 2 ^ 28) off) n)), s1)) ∧
           (pa < 2 ^ 31 → size < off + n → ∃ k, goes = (.trap k, s1) ∧ k.cause = 0x0A ∧ k.einfo = acc.code ∧
             k.eaddr = BitVec.ofNat 64 (va + (size - min off size)))) ∧
         (e.pte.toNat / 2 ^ 10 % 4 = 2 → pa / 2 ^ 46 ≠ s.dev.pkg.toNat →
           let route := devReg s (0x40000 + 8 * (pa / 2 ^ 46))
           let links := route.extractLsb' 0 16
           (route.getLsbD 16 = false ∨ links = 0 → trapped s1 0x0A acc.code) ∧
           (route.getLsbD 16 = true → links ≠ 0 →
             (liveLinks s links ≠ [] → goes = (.ok (found (locRange (peerLoc pa) n)), s1)) ∧
             (liveLinks s links = [] → pa / 2 ^ 46 ∈ s.dev.linkLost → trapped s1 0x1E 0) ∧
             (liveLinks s links = [] → pa / 2 ^ 46 ∉ s.dev.linkLost → goes = (.wait .link, s1)))) ∧
         (e.pte.toNat / 2 ^ 10 % 4 = 3 →
           (acc = .atomic → e.pte.getLsbD 7 = false → trapped s1 0x0B acc.code) ∧
           (acc ≠ .atomic ∨ e.pte.getLsbD 7 = true → goes = (.ok (found (locRange (2 ^ 52 + pa) n)), s1))))
     (∀ e, tlbFind s xl va = some e → 1 ≤ e.level → e.level ≤ 3 → reaches s e) ∧
     (tlbFind s xl va = none →
       (∀ cause, walkFrom s (va % 2 ^ 55) 3 1 xl.root = .ends cause →
         trapped s cause (if cause = 0x1E then 0 else acc.code)) ∧
       ∀ p level loc, walkFrom s (va % 2 ^ 55) 3 1 xl.root = .leaf p level loc →
         ∃ e s1, reaches s1 e ∧ e.gallery = xl.gallery ∧ e.asid = xl.asid ∧ e.level = level ∧ e.pte = p ||| 0x20 ∧ e.pteLoc = loc ∧
           e ∈ s1.tlb ∧ s1.gangs = s.gangs ∧ s1.dev = s.dev ∧ (p.getLsbD 5 = true → s1.mem = s.mem) ∧
           (s.MemWf → p.getLsbD 5 = false → wordIn s.mem loc = p.toNat → wordIn s1.mem loc = p.toNat + 0x20 ∧
             ∀ a, a < loc ∨ loc + 8 ≤ a → memRead s1.mem a = memRead s.mem a))) ∧
  (∀ (s : State) (e : TlbEntry),
     (e.pte.getLsbD 6 = true → setDirty s e = s) ∧
     (e.pte.getLsbD 6 = false → s.MemWf → (BitVec.ofNat 64 (wordIn s.mem e.pteLoc)).getLsbD 6 = false →
       wordIn (setDirty s e).mem e.pteLoc = wordIn s.mem e.pteLoc + 0x40 ∧
       (∀ a, a < e.pteLoc ∨ e.pteLoc + 8 ≤ a → memRead (setDirty s e).mem a = memRead s.mem a) ∧
       ∀ y ∈ (setDirty s e).tlb, y.gallery = e.gallery → y.pteLoc = e.pteLoc → y.pte.getLsbD 6 = true)) ∧
  (∀ (s : State) (h : Here) (x : Hart) (g : Gang) (l : Launch) (d a : RegField) (i : BitVec 12), Runs s h x → h.sl = .as →
     findGang s h.gang = some g → findLaunch s h.gang = some l → x.tp.adjm = 0 →
     let va := (x.getReg .as a + i.signExtend 64).toNat
     let xl := hartXlat s h.gang h.hid
     inOnePage va 8 →
     (∀ e loc, tlbFind s xl va = some e → e.level = 3 → e.pte.getLsbD 1 = true → e.pte.getLsbD 8 = false →
       e.pte.toNat / 2 ^ 10 % 4 = 0 → va % 256 + 8 ≤ 256 →
       hbmMap (devReg s (0x10000 + 16 * (e.pte.toNat / 2 ^ 52 % 64))) (devReg s (0x10008 + 16 * (e.pte.toNat / 2 ^ 52 % 64)))
         (e.pte.toNat / 2 ^ 16 % 2 ^ 36 * 65536 + va % 65536) = some loc →
       (∀ k, k < 8 → poisoned s (loc + k) = false ∧ bufByte x.abuf (loc + k) = none) →
       exec (.ld d a i) s = .next (goOn s h (x.as_.pc + 4) fun y => y.setReg .as d (BitVec.ofNat 64 (wordIn s.mem loc)))) ∧
     (tlbFind s xl va = none → walkFrom s (va % 2 ^ 55) 3 1 xl.root = .ends 0x08 →
       exec (.ld d a i) s = .next (takeTrap s h.gang h.hid .as none { cause := 0x08, eaddr := BitVec.ofNat 64 va, einfo := 0 })))

/-- 14 R302, R303, R304: a load of the AS that touches no differentiable region and whose bytes the checks and translations of
R303 let it read (`scalarLoad` answers them) writes them, extended, to d and goes on. Of `ld.acq`, the scopes `.dom` and
`.sys` bind the value at the home (16 R369). -/
def Obligations.LoadResults : Prop :=
  ∀ (s : State) (h : Here) (x : Hart) (d a : RegField), Runs s h x → h.sl = .as →
    (∀ p ∈ loadRows, ∀ i : BitVec 12, ∀ (bytes : List Byte) (s1 : State) (x1 : Hart),
      let va := (x.getReg .as a + i.signExtend 64).toNat
      x.touches va p.2.2.1 = none → scalarLoad va p.2.2.1 false false s = .ok bytes s1 → Runs s1 h x1 →
      exec (p.1 d a i) s = .next (goOn s1 h (x1.as_.pc + 4) fun y => y.setReg .as d (loaded p.2.2.1 p.2.2.2 bytes))) ∧
    (∀ p ∈ loadRows, ∀ i : BitVec 37, ∀ (bytes : List Byte) (s1 : State) (x1 : Hart),
      let va := (x.getReg .as a + i.signExtend 64).toNat
      x.touches va p.2.2.1 = none → scalarLoad va p.2.2.1 false false s = .ok bytes s1 → Runs s1 h x1 →
      exec (p.2.1 d a i) s = .next (goOn s1 h (x1.as_.pc + 8) fun y => y.setReg .as d (loaded p.2.2.1 p.2.2.2 bytes))) ∧
    (∀ (sc : BitVec 3) (off : BitVec 9) (bytes : List Byte) (s1 : State) (x1 : Hart), sc.toNat ≤ 5 →
      let va := (x.getReg .as a + BitVec.ofInt 64 (8 * off.toInt)).toNat
      x.touches va 8 = none → scalarLoad va 8 true (decide (4 ≤ sc.toNat)) s = .ok bytes s1 → Runs s1 h x1 →
      exec (.ldAcq d a sc off) s = .next (goOn s1 h (x1.as_.pc + 4) fun y => y.setReg .as d (loaded 8 true bytes))) ∧
    (∀ (k : BitVec 5) (bytes : List Byte) (s1 : State) (x1 : Hart),
      let va := (x.getReg .as 30 + BitVec.ofNat 64 (8 * k.toNat)).toNat
      x.touches va 8 = none → scalarLoad va 8 false false s = .ok bytes s1 → Runs s1 h x1 →
      exec (.cLd d k) s = .next (goOn s1 h (x1.as_.pc + 2) fun y => y.setReg .as d (loaded 8 true bytes)))

/-- 14 R302, R303, 16 R358: a store of the AS that touches no region and whose bytes can be located sets D in its leaves, puts
one pending store of them at the end of its buffer and goes on; no byte but those of the leaves' entries changes. `sd.rel`
first performs the older stores, in order. That a store waits in its buffer until an event or a rule performs it is the model's
choice (log 6). -/
def Obligations.StoreResults : Prop :=
  (∀ (s : State) (h : Here) (x : Hart) (a b : RegField), Runs s h x → h.sl = .as →
    let stored (s1 : State) (f : Found) (n : Nat) (y : Hart) : Hart :=
      withStore y (storeOf s1 f (storedBytes (x.getReg .as b) n) y.seq)
    (∀ p ∈ storeRows, ∀ i : BitVec 12, ∀ (f : Found) (s1 : State) (x1 : Hart),
      let va := (x.getReg .as a + i.signExtend 64).toNat
      x.touches va p.2.2 = none → scalarLocate .store va p.2.2 false s = .ok f s1 → Runs s1 h x1 →
      exec (p.1 a b i) s = .next (goOn (dirtied s1 f) h (x1.as_.pc + 4) (stored s1 f p.2.2))) ∧
    (∀ p ∈ storeRows, ∀ i : BitVec 37, ∀ (f : Found) (s1 : State) (x1 : Hart),
      let va := (x.getReg .as a + i.signExtend 64).toNat
      x.touches va p.2.2 = none → scalarLocate .store va p.2.2 false s = .ok f s1 → Runs s1 h x1 →
      exec (p.2.1 a b i) s = .next (goOn (dirtied s1 f) h (x1.as_.pc + 8) (stored s1 f p.2.2))) ∧
    (∀ (sc : BitVec 3) (off : BitVec 9) (f : Found) (s1 : State) (x1 : Hart), sc.toNat ≤ 5 →
      let va := (x.getReg .as a + BitVec.ofInt 64 (8 * off.toInt)).toNat
      x.touches va 8 = none → scalarLocate .store va 8 true s = .ok f s1 → Runs s1 h x1 → Sendable x1 .as →
      exec (.sdRel a b sc off) s = .next (goOn (dirtied (drained s1 h .as) f) h (x1.as_.pc + 4) (stored s1 f 8))) ∧
    (∀ (k : BitVec 5) (f : Found) (s1 : State) (x1 : Hart),
      let va := (x.getReg .as 30 + BitVec.ofNat 64 (8 * k.toNat)).toNat
      x.touches va 8 = none → scalarLocate .store va 8 false s = .ok f s1 → Runs s1 h x1 →
      exec (.cSd b k) s = .next (goOn (dirtied s1 f) h (x1.as_.pc + 2) (stored s1 f 8)))) ∧
  (∀ (s : State) (h : Here) (x : Hart) (sl : SliceId), findHart s h.gang h.hid = some x → Sendable x sl →
    (drained s h sl).mem = performed s.mem (x.buf sl) ∧
    ∃ y, findHart (drained s h sl) h.gang h.hid = some y ∧ y.buf sl = [] ∧ y.a = x.a ∧ y.c = x.c ∧ y.v = x.v ∧
      y.as_ = x.as_ ∧ y.cs = x.cs)


/-- 05 R117, R118, 14 R302, 16 R357, R362: in the hart's TCM window, with the block bound and no poison there, `ld` reads each byte
from the hart's youngest pending store to it, or from memory, and `sd` queues its 8 bytes at those locations; neither changes
memory.

16 R362, 14 R304: an AS load from a TCM address to which the AS has just stored reads the value stored, whatever was there
before and whatever else is pending. -/
def Obligations.TcmAndOwnStores : Prop :=
  (∀ (s : State) (h : Here) (x : Hart) (g : Gang) (l : Launch) (d a b : RegField) (i : BitVec 12) (p : Nat),
     Runs s h x → h.sl = .as → findGang s h.gang = some g → findLaunch s h.gang = some l → x.tp.adjm = 0 →
     let va := (x.getReg .as a + i.signExtend 64).toNat
     inTcmBlock x va 8 p →
     let lo := tcmPlace g x va p
     let byte (k : Nat) : Byte := (bufByte x.abuf (lo + k)).getD (memRead s.mem (lo + k))
     ((∀ k, k < 8 → poisoned s (lo + k) = false) →
       exec (.ld d a i) s = .next (goOn s h (x.as_.pc + 4) fun y =>
         y.setReg .as d (BitVec.ofNat 64 (bytesToNat ((List.range 8).map byte))))) ∧
     exec (.sd a b i) s = .next (goOn s h (x.as_.pc + 4) fun y =>
       withStore y (storeOf s { locs := (List.range 8).map (lo + ·) } (storedBytes (x.getReg .as b) 8) y.seq))) ∧
  (∀ (s t : State) (h : Here) (x : Hart) (g : Gang) (l : Launch) (d a b : RegField) (i : BitVec 12) (p : Nat),
     Runs s h x → h.sl = .as → findGang s h.gang = some g → findLaunch s h.gang = some l → x.tp.adjm = 0 → d ≠ 0 →
     inTcmBlock x (x.getReg .as a + i.signExtend 64).toNat 8 p →
     exec (.sd a b i) s = .next t →
     ∃ u y, exec (.ld d a i) t = .next u ∧ findHart u h.gang h.hid = some y ∧ y.getReg .as d = x.getReg .as b ∧
       u.mem = s.mem)

/-- 14 R303, R306, 05 R117, 07 R142: checks made before a byte is touched: an address that is not canonical traps PROT, `ld.acq`
and `sd.rel` trap PROT when not aligned to 8 bytes in the TCM window, an AMO that is not aligned traps PROT, and a scope code
of 6 or 7 traps ILLEGAL. That the alignment check in the window comes before a block is bound is the model's reading (log 131). -/
def Obligations.AccessChecks : Prop :=
  ∀ (s : State) (h : Here) (x : Hart) (d a b : RegField), Runs s h x → h.sl = .as → x.tp.adjm = 0 →
    (∀ i : BitVec 12, let va := x.getReg .as a + i.signExtend 64
      canonical va.toNat = false →
      exec (.ld d a i) s = .next (takeTrap s h.gang h.hid .as none { cause := 0x0A, eaddr := va, einfo := 0 }) ∧
      exec (.sd a b i) s = .next (takeTrap s h.gang h.hid .as none { cause := 0x0A, eaddr := va, einfo := 1 })) ∧
    (∀ (sc : BitVec 3) (off : BitVec 9), sc.toNat ≤ 5 →
      let va := x.getReg .as a + BitVec.ofInt 64 (8 * off.toInt)
      Config.tcmBase ≤ va.toNat → va.toNat + 8 ≤ Config.tcmBase + Config.tcmBytes → va.toNat % 8 ≠ 0 →
      exec (.ldAcq d a sc off) s = .next (takeTrap s h.gang h.hid .as none { cause := 0x0A, eaddr := va, einfo := 0 }) ∧
      exec (.sdRel a b sc off) s = .next (takeTrap s h.gang h.hid .as none { cause := 0x0A, eaddr := va, einfo := 1 })) ∧
    (∀ p ∈ amoRows, ∀ (sc : BitVec 3) (o : BitVec 2),
      ((x.getReg .as a).toNat % p.2.1 ≠ 0 → sc.toNat ≤ 5 →
        exec (p.1 d a b sc o) s =
          .next (takeTrap s h.gang h.hid .as none { cause := 0x0A, eaddr := x.getReg .as a, einfo := 3 })) ∧
      (6 ≤ sc.toNat →
        exec (p.1 d a b sc o) s = .next (takeTrap s h.gang h.hid .as none { cause := 0x01, eaddr := 0, einfo := 0 }))) ∧
    (∀ (sc : BitVec 3) (off : BitVec 9), 6 ≤ sc.toNat →
      exec (.ldAcq d a sc off) s = .next (takeTrap s h.gang h.hid .as none { cause := 0x01, eaddr := 0, einfo := 0 }) ∧
      exec (.sdRel a b sc off) s = .next (takeTrap s h.gang h.hid .as none { cause := 0x01, eaddr := 0, einfo := 0 }))

/-- 14 R305, R306: an AMO that passes its checks performs the AS's older stores, replaces the number at its home by the
operation's value in one update, and writes the old number, sign-extended, to d. -/
def Obligations.AtomicResults : Prop :=
  ∀ (s s1 : State) (h : Here) (x x1 : Hart) (d a b : RegField) (sc : BitVec 3) (o : BitVec 2) (l : Found)
      (old : List Byte), Runs s h x → h.sl = .as → sc.toNat ≤ 5 → ∀ p ∈ amoRows,
    let va := (x.getReg .as a).toNat
    let n := p.2.1
    atomicLocate va n s = .ok l s1 → Runs s1 h x1 → x1.touches va n = none → Sendable x1 .as → l.locs.length = n →
    let s2 := drained s1 h .as
    readLocs [] l.locs va s2 = .ok old s2 →
    exec (p.1 d a b sc o) s = .next (goOn (homeWrite (dirtied s2 l) l.locs
        (storedBytes (BitVec.ofNat 64 (p.2.2 (x.getReg .as d) (x.getReg .as b) (bytesToNat old))) n))
      h (x1.as_.pc + 4) fun y => y.setReg .as d (loaded n true old))

/-! ### Adjoint and tape instructions (15 R337 to R339) -/


/-- 15 R337: `adjld` and `adjst` reach the cell of the primal element that holds their address, by the table copy of the latest
switch; outside every region they trap PROT.

15 R338, R339: `tmark` does nothing while the mode is off; in forward mode it needs 16 bytes below `tapel`, or traps TAPEFULL,
and pushes its mark; in reverse mode it needs 16 bytes above `tapeb` that hold its mark, which it pops, or traps TAPEMIS.
`trew` to an aligned place on the tape sets `tapeh` to it after the AS's older stores are performed, and to another place traps
TAPEMIS. -/
def Obligations.AdjointResults : Prop :=
  (∀ (s s1 : State) (h : Here) (x x1 : Hart) (d a b : RegField), Runs s h x → h.sl = .as → Runs s1 h x1 →
     let va := (x.getReg .as a).toNat
     (∀ k r bytes, x.region va 1 = some (k, r) →
       scalarLoad (r.adjbase.toNat + 4 * ((va - r.pbase.toNat) / r.size)) 4 false false s = .ok bytes s1 →
       exec (.adjld d a) s = .next (goOn s1 h (x1.as_.pc + 4) fun y => y.setReg .as d (loaded 4 false bytes))) ∧
     (∀ k r f, x.region va 1 = some (k, r) →
       scalarLocate .store (r.adjbase.toNat + 4 * ((va - r.pbase.toNat) / r.size)) 4 false s = .ok f s1 →
       exec (.adjst a b) s = .next (goOn (dirtied s1 f) h (x1.as_.pc + 4) fun y =>
         withStore y (storeOf s1 f (storedBytes (x.getReg .as b) 4) y.seq))) ∧
     (x.region va 1 = none →
       exec (.adjld d a) s = .next (takeTrap s h.gang h.hid .as none { cause := 0x0A, eaddr := x.getReg .as a, einfo := 0 }) ∧
       exec (.adjst a b) s = .next (takeTrap s h.gang h.hid .as none { cause := 0x0A, eaddr := x.getReg .as a, einfo := 1 }))) ∧
  (∀ (s : State) (h : Here) (x : Hart) (a : RegField), Runs s h x → h.sl = .as →
     let v := x.getReg .as a
     (x.tp.adjm = 0 → exec (.tmark a) s = .next (goOn s h (x.as_.pc + 4) id)) ∧
     (x.tp.adjm = 1 → x.tp.tapel.toNat < x.tp.tapeh.toNat + 16 →
       exec (.tmark a) s = .next (takeTrap s h.gang h.hid .as none { cause := 0x14, eaddr := v, einfo := 0 })) ∧
     (x.tp.adjm = 1 → x.tp.tapeh.toNat + 16 ≤ x.tp.tapel.toNat →
       ∀ (f : Found) (s1 : State) (x1 : Hart), (locateHere .store x.tp.tapeh.toNat 16) s = .ok f s1 → Runs s1 h x1 →
       exec (.tmark a) s = .next (goOn (dirtied s1 f) h (x1.as_.pc + 4) fun y =>
         { withStore y (storeOf s1 f (storedBytes v 8 ++ List.replicate 8 0) y.seq) with
           tp := { y.tp with tapeh := x.tp.tapeh + 16 } })) ∧
     (x.tp.adjm = 2 → x.tp.tapeh.toNat < x.tp.tapeb.toNat + 16 →
       exec (.tmark a) s = .next (takeTrap s h.gang h.hid .as none { cause := 0x15, eaddr := v, einfo := 0 })) ∧
     (x.tp.adjm = 2 → x.tp.tapeb.toNat + 16 ≤ x.tp.tapeh.toNat → ∀ (bytes : List Byte) (s1 : State) (x1 : Hart),
       loadBytes .as (x.tp.tapeh.toNat - 16) 16 s = .ok bytes s1 → Runs s1 h x1 →
       (bytesToNat (bytes.take 8) = v.toNat → bytesToNat (bytes.drop 8) = 0 →
         exec (.tmark a) s = .next (goOn s1 h (x1.as_.pc + 4) fun y => { y with tp := { y.tp with tapeh := x.tp.tapeh - 16 } })) ∧
       (bytesToNat (bytes.take 8) ≠ v.toNat ∨ bytesToNat (bytes.drop 8) ≠ 0 →
         exec (.tmark a) s = .next (takeTrap s1 h.gang h.hid .as none { cause := 0x15, eaddr := v, einfo := 0 }))) ∧
     (v.toNat % 8 = 0 → x.tp.tapeb.toNat ≤ v.toNat → v.toNat ≤ x.tp.tapeh.toNat → Sendable x .as →
       exec (.trew a) s = .next (goOn (drained s h .as) h (x.as_.pc + 4) fun y =>
         { y with tp := { y.tp with tapeh := v } })) ∧
     (v.toNat % 8 ≠ 0 ∨ v.toNat < x.tp.tapeb.toNat ∨ x.tp.tapeh.toNat < v.toNat →
       exec (.trew a) s = .next (takeTrap s h.gang h.hid .as none { cause := 0x15, eaddr := v, einfo := 0 })))

/-! ### Engine commands and completion objects (15 R340 to R348, 03 R56, R392) -/



noncomputable section

namespace Sys2Proof.Claims

/-- What a command of the executing hart forks (15 R341), in the gallery that holds its windows (05 R117). -/
def forkedOp (t : State) (h : Here) (obj : Word) (body : OpBody) : Op :=
  { id := t.nextOp, gang := h.gang, hid := h.hid, gallery := (hartXlat t h.gang h.hid).gallery, body := body, obj := obj, done := 0, sent := 0, tfault := none }

/-- The state with that operation, the AS's older stores performed first. -/
def forked (s : State) (h : Here) (obj : Word) (body : OpBody) : State :=
  let t := drained s h .as
  { t with ops := t.ops ++ [forkedOp t h obj body], nextOp := t.nextOp + 1 }

/-- Translation for an agent that reaches no window (07 R393). -/
def noWindows (s : State) (h : Here) : Xlat := { hartXlat s h.gang h.hid with hart := none, gang := none }

/-- Whether the descriptor of an interleave region, its two words d0 and d1, maps n bytes at pa within channel c (15 R346). -/
def reaches (d0 d1 : Word) (pa n c : Nat) : Prop :=
  let o := pa - ilBase d0
  ilEn d0 = true ∧ ilBase d0 ≤ pa ∧ pa + n ≤ ilBase d0 + ilSize d1 ∧
    (if ilMode d0 = 0 then o / 256 = (o + n - 1) / 256 ∧ o / 256 % 512 = c else ilChan d1 = c)

end Sys2Proof.Claims

end

/-- 15 R341, R343, R345: a copy or collective whose checks pass and whose descriptor can be read waits while its queue is full
and else performs the AS's older stores, forks one operation that keeps the descriptor and the object, and goes on 8 bytes
further; a collective's operation joins the one that its MEMB gives it, and where that has not ended and its route names this
package for MEMB, it stays a forked operation with its descriptor and object, and a member.

15 R341 step 1, R346: the alignment checks of the commands, and the channel check of `nbe`. `wideLoad` is the model's load of
more than 8 bytes, and `commandObject` its check of step 2. -/
def Obligations.EngineCommands : Prop :=
  (∀ (s s1 s2 s3 : State) (h : Here) (x x2 x3 : Hart) (g : Gang) (a e : RegField) (head b : List Byte), Runs s h x →
     h.sl = .as → Runs s2 h x2 → Runs s3 h x3 →
     let va := (x.getReg .as a).toNat
     let obj := x.getReg .as e
     va % 32 = 0 →
     (commandObject obj true s = .ok () s1 → wideLoad va 32 s1 = .ok head s2 →
       wideLoad va (32 + 24 * ((leWord head 16).toNat / 2 ^ 10 % 16 + 1)) s2 = .ok b s3 →
       findGang s3 h.gang = some g →
       (copiesAt s3 (g.die * 32 + g.gallery) < 64 → Sendable x3 .as →
         exec (.cpy a e) s =
           .next (goOn (forked s3 h obj (.copy (parseCopy b ((leWord head 16).toNat / 2 ^ 10 % 16 + 1)))) h (x3.as_.pc + 8) id)) ∧
       (64 ≤ copiesAt s3 (g.die * 32 + g.gallery) → exec (.cpy a e) s = .next (waits s3 h .engine))) ∧
     (∀ id : BitVec 8, commandObject obj false s = .ok () s1 → wideLoad va 32 s1 = .ok b s2 → findGang s2 h.gang = some g →
       let d : CollDesc := { from_ := leWord b 0, to_ := leWord b 8, ctl := leWord b 16, resv := leWord b 24 }
       let t := forked s2 h obj (.coll id.toNat 0 d)
       let op := forkedOp s2 h obj (.coll id.toNat 0 d)
       let num := collNumber t id.toNat d.memb t.colls.length 0
       (collsAt s2 g.die < 256 → Sendable x2 .as →
         exec (.coll id a e) s = .next (goOn (joinColl t op id.toNat d) h (x2.as_.pc + 8) fun y => y) ∧
         (∀ c r, findColl t id.toNat num = some c → c.ended = false → c.route = some r →
           (r[d.memb]?.map fun p => p.toNat) = some t.dev.pkg.toNat →
           { op with body := .coll id.toNat num d } ∈ (joinColl t op id.toNat d).ops ∧
           ∃ c', findColl (joinColl t op id.toNat d) id.toNat num = some c' ∧ c'.members = c.members ++ [(d.memb, op.id)])) ∧
       (256 ≤ collsAt s2 g.die → exec (.coll id a e) s = .next (waits s2 h .engine)))) ∧
  (∀ (s : State) (h : Here) (x : Hart) (a b e : RegField) (k : BitVec 8), Runs s h x → h.sl = .as →
     let prot (v : Word) : Host.Outcome State Fault Refusal :=
       .next (takeTrap s h.gang h.hid .as none { cause := 0x0A, eaddr := v, einfo := 0 })
     ((x.getReg .as a).toNat % 32 ≠ 0 →
       exec (.cpy a e) s = prot (x.getReg .as a) ∧ exec (.coll k a e) s = prot (x.getReg .as a)) ∧
     ((x.getReg .as a).toNat % 64 ≠ 0 →
       exec (.nbe k a b e) s = prot (x.getReg .as a) ∧ exec (.launch k a e) s = prot (x.getReg .as a)) ∧
     ((x.getReg .as a).toNat % 64 = 0 → 511 < (x.getReg .as b).toNat → exec (.nbe k a b e) s = prot 0))


/-- 15 R341, R346: a near-bank command whose checks pass, whose block can be read and whose eight windows are good forks an
operation that keeps the channel, the program, the windows, the constants and the object, and enters its engine's queue, for room
in which it waits; a window of length 0 keeps no translation, and another keeps the physical address, the interleave descriptor
and the DEV bit of its page where the page grants what the window asks, lies in HBM, holds the window whole, and maps it to the
engine's channel. Two clauses are the model's: the command that runs is not one of the 32 in the queue (log 54), and D is set in
the leaves of the windows for writing as the command issues (log 100).

15 R347, 03 R58, R69: `launch` performs the AS's older stores and gives its 64 bytes to the port with the hart's ASID; once the
port accepts or refuses them it adds 1 to its object, if it names one, with the error flag for a refusal, and goes on. -/
def Obligations.NearBankAndLaunchCommands : Prop :=
  (∀ (s s1 s2 s3 : State) (h : Here) (x x2 x3 : Hart) (a b e : RegField) (k : BitVec 8) (blk : List Byte)
      (wins : List (NbeWindow × Option TlbEntry)), Runs s h x → h.sl = .as → Runs s2 h x2 → Runs s3 h x3 →
     let chan := (x.getReg .as b).toNat
     (x.getReg .as a).toNat % 64 = 0 → chan ≤ 511 →
     commandObject (x.getReg .as e) false s = .ok () s1 → wideLoad (x.getReg .as a).toNat 192 s1 = .ok blk s2 →
     ((List.range 8).mapM fun j => nbeWindow (noWindows s2 h) chan (leWord blk (16 * j)) (leWord blk (16 * j + 8))) s2 =
       .ok wins s3 →
     let eng := findNbe s3 chan
     let room : Prop := eng.queue.length < (if eng.run.isNone = true then 33 else 32)
     let body : OpBody := .nbe chan k.toNat (wins.map fun w => w.1)
       ((List.range 8).map fun j => BitVec.ofNat 32 (bytesToNat ((blk.drop (128 + 4 * j)).take 4)))
       ((blk.drop 160).all fun c => c == 0)
     let t := (wins.filterMap fun w => w.2).foldl setDirty (forked s3 h (x.getReg .as e) body)
     (room → Sendable x3 .as →
       exec (.nbe k a b e) s = .next (goOn (setNbe t { eng with queue := eng.queue ++ [s3.nextOp] }) h (x3.as_.pc + 8) id)) ∧
     (¬ room → exec (.nbe k a b e) s = .next (waits s3 h .engine))) ∧
  (∀ (s s1 : State) (xl : Xlat) (chan : Nat) (va w : Word) (leaf : TlbEntry),
     let len := w.toNat % 2 ^ 48
     let rd := w.getLsbD 62
     let wr := w.getLsbD 63
     (len = 0 → nbeWindow xl chan va w s = .ok ({ va := va, len := w, pa := 0, d0 := 0, d1 := 0, dev := false }, none) s) ∧
     (len ≠ 0 → canonical va.toNat = true →
       pageLeaf xl (if rd || !wr then .load else .store) (rd || wr) va.toNat va.toNat s = .ok leaf s1 →
       let pa := leafPa leaf va.toNat
       let d := descWords s1 (pteIR leaf.pte)
       (wr = true → pteW leaf.pte = true) → va.toNat % 2 ^ pageBits leaf.level + len ≤ 2 ^ pageBits leaf.level →
       pteLOC leaf.pte = 0 → reaches d.1 d.2 pa len chan →
       nbeWindow xl chan va w s =
         .ok ({ va := va, len := w, pa := pa, d0 := d.1, d1 := d.2, dev := leaf.pte.getLsbD 8 },
           if wr then some leaf else none) s1)) ∧
  (∀ (s s1 s2 : State) (h : Here) (x x2 : Hart) (a e : RegField) (k : BitVec 8) (r : List Byte), Runs s h x → h.sl = .as →
     Runs s2 h x2 → (x.getReg .as a).toNat % 64 = 0 → commandObject (x.getReg .as e) false s = .ok () s1 →
     wideLoad (x.getReg .as a).toNat 64 s1 = .ok r s2 → Sendable x2 .as →
     let t := drained s2 h .as
     let obj := x.getReg .as e
     ∀ (f : PortEnd) (u : State), portWrite t k 0 r (some (hartXlat s2 h.gang h.hid).asid) = (f, u) → holdsFor t k = false →
       f ≠ .stalls →
       exec (.launch k a e) s = .next (goOn (if obj = 0 then u
         else addThrough (noWindows u h) .operation (tagOwnerOf u h.gang) obj 1 (f != .accepted) (some h.gang) u) h
           (x2.as_.pc + 8) id))

/-- 03 R56, R392: an addition adds n modulo 2^63 and keeps or sets the error flag; in a poisoned unit it changes no memory and
sends one notice to the owner of the poison recovery duty, bit 7.

15 R348: `cwait` goes on with the observed word in d once its low 63 bits reach b, and waits before; `csig` adds b[62:0] to its
object, with b[63] as error flag, after the AS's older stores. `observeWord` acquires at the home (log 62). That `csig` goes on
where no live link leads to its object, its addition being kept, is the model's reading (log 113). -/
def Obligations.CompletionResults : Prop :=
  (∀ (s : State) (who : Adder) (pa : Nat) (tag : Word) (locs : List Nat) (n : Nat) (e : Bool),
     s.MemWf → let t := completionAdd who pa tag locs n e s
     (locs.any (poisoned s) = true → t.mem = s.mem ∧ t.poison = s.poison ∧
       ∃ m, t.notices = s.notices ++ [m] ∧ m.duty = 7 ∧ m.kind = .poison) ∧
     (locs.any (poisoned s) = false → locs.length = 8 → locs.Nodup →
       let old := bytesToNat (homeRead s locs)
       let new := bytesToNat (homeRead t locs)
       t.notices = s.notices ∧ new % 2 ^ 63 = (old + n) % 2 ^ 63 ∧
       (new / 2 ^ 63 = if e = true ∨ 2 ^ 63 ≤ old then 1 else 0) ∧
       ∀ l, l ∉ locs → memRead t.mem l = memRead s.mem l)) ∧
  (∀ (s s1 : State) (h : Here) (x x1 : Hart) (d a b : RegField), Runs s h x → h.sl = .as → Runs s1 h x1 →
     (∀ v, observeWord (x.getReg .as a) s = .ok v s1 →
       ((x.getReg .as b).toNat ≤ v.toNat % 2 ^ 63 →
         exec (.cwait d a b) s = .next (goOn s1 h (x1.as_.pc + 4) fun y => y.setReg .as d v)) ∧
       (v.toNat % 2 ^ 63 < (x.getReg .as b).toNat → exec (.cwait d a b) s = .next (waits s1 h .cwait))) ∧
     (∀ (s2 : State) (x2 : Hart) (locs : List Nat) (pa : Nat), Runs s2 h x2 → Sendable x1 .as →
       objectCheck (hartXlat s h.gang h.hid) (x.getReg .as a) s = .ok () s1 →
       let n := (x.getReg .as b).toNat % 2 ^ 63
       let err := (x.getReg .as b).getLsbD 63
       (objectPlace (hartXlat s h.gang h.hid) (x.getReg .as a) (drained s1 h .as) = .ok (locs, pa, none) s2 →
         exec (.csig a b) s =
           .next (goOn (completionAdd .csig pa (tagOwnerOf s2 h.gang) locs n err s2) h (x2.as_.pc + 4) id)) ∧
       (∀ leaf, objectPlace (hartXlat s h.gang h.hid) (x.getReg .as a) (drained s1 h .as) = .ok (locs, pa, some leaf) s2 →
         ∃ p : PendingAdd, p.pa = pa ∧ p.leaf = leaf ∧ p.by_ = .csig ∧ p.n = n ∧ p.err = err ∧
           exec (.csig a b) s = .next (goOn { s2 with adds := s2.adds ++ [p] } h (x2.as_.pc + 4) id))))

/-! ### Vector instructions: the queue and the processing rule (12 R253 to R259, 13 R282 to R292) -/

noncomputable section

namespace Sys2Proof.Claims

/-- The scalar operand of a V word: read at entry when `bs` is 1. -/
def scalarOf (x : Hart) (o : VOps) : Word := if o.bs then x.getReg .cs o.b else 0

/-- Matrix words, which need live tiles (05 R116). -/
def isZ : Instr → Prop
  | .zzero _ | .zmma _ | .zop _ | .zdr _ | .zacc _ => True
  | _ => False

/-- The state in which a vector instruction of a hart whose queue was empty begins at the queue head. -/
def atHead (s : State) (h : Here) (x : Hart) (n : Nat) (e : VEntry) : State :=
  mapHart s h.gang h.hid fun _ => (entered x e).setPc .cs (x.cs.pc + BitVec.ofNat 64 n)

end Sys2Proof.Claims

end



/-- 12 R253, 05 R112: behind older queued instructions, or while the CS runs ahead of the queue, a vector instruction enters the
queue with what it captures, the captured start becomes 0, and the CS goes on; with 16 entries it waits. `vbput` neither reads
nor clears `vstart`, nor does a marker.

14 R311, 05 R108: `snext` takes the oldest entry of the stream's descriptor queue as it issues and waits while there is none;
with the vector queue empty, and the CS not ahead of it, the stream adopts it at once, at position 0, and else it is queued
with what it took.

06 R124, 05 R112: a vector instruction that finds a reserved code in its `vfmt` at the queue head traps ILLFMT with nothing
done: its entry is kept unchanged, to start again. That it starts again at its captured index (log 42), and that `vspill` and
`vfill` trap with the others (log 52), is the model's reading; how far the CS runs ahead is its choice (log 5). -/
def Obligations.VectorQueueResults : Prop :=
  (∀ (s : State) (h : Here) (x : Hart), Runs s h x → h.sl = .cs →
     (∀ i kind o, Claims.vWord i = some (kind, o) → (isZ i → x.zlive = true) →
       let start := if kind = .vbput then 0 else x.vc.vstart.toNat
       (JustQueues s x →
         exec i s = .next (goOn s h (x.cs.pc + 4) fun y => entered y (captured x kind o (scalarOf x o) 0 0 start none))) ∧
       (16 ≤ x.viq.length → ∃ w, exec i s = .next (waits s h w))) ∧
     (∀ i kind o, Claims.vWord i = some (kind, o) → isZ i → x.zlive = false →
       exec i s = .next (takeTrap s h.gang h.hid .cs none { cause := 0x01, eaddr := 0, einfo := 0 })) ∧
     (JustQueues s x → ∀ (o : VOps) (p a b : RegField) (s2 : BitVec 4) (tile : BitVec 2) (frow nrow : BitVec 6),
       exec (.vld2 o p) s = .next (goOn s h (x.cs.pc + 8) fun y =>
         entered y (captured x .vld2 o 0 (x.getReg .cs p) 0 x.vc.vstart.toNat none)) ∧
       exec (.vstp o p s2) s = .next (goOn s h (x.cs.pc + 8) fun y =>
         entered y (captured x .vstp o 0 (x.getReg .cs p) s2.toNat x.vc.vstart.toNat none)) ∧
       (x.zlive = true →
         let rows := tile.toNat + 4 * frow.toNat + 256 * nrow.toNat
         let e (k : VKind) := captured x k noOps (x.getReg .cs a) (x.getReg .cs b) rows x.zrow.toNat none
         exec (.zld a b tile frow nrow) s =
           .next (goOn s h (x.cs.pc + 8) fun y => { entered y (e .zld) with zrow := 0 }) ∧
         exec (.zst a b tile frow nrow) s =
           .next (goOn s h (x.cs.pc + 8) fun y => { entered y (e .zst) with zrow := 0 })))) ∧
  (∀ (s : State) (h : Here) (x : Hart) (o : VOps), Runs s h x → h.sl = .cs →
     (∀ q rest, (x.stream o.a).queue = q :: rest →
       (s.ahead = false → x.viq = [] →
         ∃ t y, exec (.snext o) s = .next t ∧ findHart t h.gang h.hid = some y ∧ y.viq = [] ∧ y.cs.pc = x.cs.pc + 4 ∧
           (y.stream o.a).adopted = some q.desc ∧ (y.stream o.a).pos = 0 ∧ (y.stream o.a).queue = rest ∧
           (y.stream o.a).dfault = q.dfault ∧ y.vc = x.vc ∧ y.v = x.v ∧
           ∀ j : BitVec 5, j.toNat % 16 ≠ o.a.toNat % 16 → y.stream j = x.stream j) ∧
       (JustQueues s x → exec (.snext o) s = .next (goOn s h (x.cs.pc + 4) fun y =>
         entered (y.setStream o.a { y.stream o.a with queue := rest }) (captured x .snext o 0 0 0 0 (some q))))) ∧
     (x.viq.length < 16 → (x.stream o.a).queue = [] → exec (.snext o) s = .next (waits s h .snext))) ∧
  (∀ (s : State) (h : Here) (x : Hart) (i : Instr) (kind : VKind) (o : VOps), Starts s h x → h.sl = .cs → x.viq = [] →
     Claims.vWord i = some (kind, o) → (isZ i → x.zlive = true) → vfmtReserved x.vc.vfmt = true →
     let e := captured x kind o (scalarOf x o) 0 0 (if kind = .vbput then 0 else x.vc.vstart.toNat) none
     exec i s = .next (issued (noteIssue
       (takeTrap (atHead s h x 4 e) h.gang h.hid .cs (some x.cs.pc) { cause := 0x11 }) h.gang h.hid (vPipe kind)) h id))

noncomputable section

namespace Sys2Proof.Claims

/-- An element, or a scalar operand, as a source: its pattern, its length (0 for a scalar) and its value. -/
structure Opnd where
  pat : Nat
  len : Nat
  val : Val
  scalar : Bool
  deriving DecidableEq, Repr

/-- What the result of one index is made from: `vfmt`, elements of a and b (and, for pairs, the elements after them), the
element of the destination, the mask bit, the index, the earlier indices at which the governing mask and the mask a are both
set, and the active elements of a from the start up to this index. -/
structure ElemIn where
  vfmt : Word
  a : Opnd
  a1 : Opnd
  b : Opnd
  b1 : Opnd
  old : Nat
  bit : Bool
  i : Nat
  ones : Nat
  upTo : List Opnd

/-- An element-wise instruction: whether its formats are those of its class, how many vector sources it reads, whether it
reads patterns whatever they are, adds to its destination, takes pairs, processes every index, or is a scan with b's element 0
as its start; and its result for an active index, as a pattern and a length. -/
structure ElemRow where
  word : VOps → Instr
  ok : Fmt → Fmt → Fmt → Bool
  reads : Nat
  raw : Bool := false
  acc : Bool := false
  pair : Bool := false
  all : Bool := false
  scan : Bool := false
  val : ElemIn → Nat × Nat

def Opnd.word (a : Opnd) : Word := a.val.word

/-- A source read zero-extended from its width (13 R283 step 3). -/
def Opnd.unsigned (f : Fmt) (a : Opnd) : Word := if fmtJxi f then a.val.word else BitVec.ofNat 64 a.pat

/-- An integer bound for the destination. -/
def ElemIn.int (e : ElemIn) (x : Int) : Nat × Nat := encodeIntTo e.vfmt (vfFD e.vfmt) x

/-- A two-source integer instruction on words, its result read signed. -/
def intRow (word : VOps → Instr) (cls : Cls) (f : Word → Word → Word) : ElemRow where
  word := word
  ok := fun fa fb fd => clsOk cls fa fb fd true true
  reads := 2
  val := fun e => e.int (f e.a.word e.b.word).toInt

/-- The same with its result read unsigned. -/
def natRow (word : VOps → Instr) (f : Word → Word → Word) : ElemRow where
  word := word
  ok := fun fa fb fd => clsOk .I fa fb fd true true
  reads := 2
  val := fun e => e.int ((f e.a.word e.b.word).toNat : Int)

/-- The working precision of a list of formats. -/
def precision (fs : List Fmt) : FloatFmt := if fs.contains 0x0E then f64Fmt else f32Fmt

/-- An operand at a working precision, and a result that leaves it (13 R283, R291). -/
def ElemIn.at (e : ElemIn) (wp : FloatFmt) (v : Val) : FVal := rounded wp (vfRM e.vfmt) v.toF
def ElemIn.real (e : ElemIn) (wp : FloatFmt) (x : FVal) : Nat × Nat :=
  encodeTo e.vfmt (vfFD e.vfmt) (.real (rounded wp (vfRM e.vfmt) x))
def ElemIn.wp (e : ElemIn) : FloatFmt := precision [vfFA e.vfmt, vfFB e.vfmt, vfFD e.vfmt]
def ElemIn.wp1 (e : ElemIn) : FloatFmt := precision [vfFA e.vfmt, vfFD e.vfmt]

/-- A two-source floating instruction. -/
def fpRow (word : VOps → Instr) (f : Rnd → FVal → FVal → FVal) : ElemRow where
  word := word
  ok := fun fa fb fd => clsOk .F fa fb fd true true
  reads := 2
  val := fun e => e.real e.wp (f (vfRM e.vfmt) (e.at e.wp e.a.val) (e.at e.wp e.b.val))

/-- A one-source floating instruction. -/
def fpRow1 (word : VOps → Instr) (f : FloatFmt → FVal → FVal) : ElemRow where
  word := word
  ok := fun fa _ fd => clsOk .F fa 0 fd false true
  reads := 1
  val := fun e => e.real e.wp1 (f e.wp1 (e.at e.wp1 e.a.val))

/-- A value changed exactly and converted (13 R292); between equal floating formats only the pattern's sign changes. -/
def exactRow (word : VOps → Instr) (sign : Nat → Nat → Nat) (f : Val → Val) : ElemRow where
  word := word
  ok := fun fa _ fd => clsOk .F fa 0 fd false true
  reads := 1
  val := fun e =>
    if vfFA e.vfmt = vfFD e.vfmt ∧ fmtFloat (vfFA e.vfmt) = true then (sign e.a.pat (2 ^ (e.a.len - 1)), e.a.len)
    else encodeTo e.vfmt (vfFD e.vfmt) (f e.a.val)

/-- A code conversion (12 R269): integers stay exact, floating values pass at the working precision. -/
def codeRow (word : VOps → Instr) (ok : Fmt → Fmt → Bool) (double : Fmt → Fmt → Bool) (real : Bool) : ElemRow where
  word := word
  ok := fun fa _ fd => ok fa fd
  reads := 1
  val := fun e =>
    let wp := if double (vfFA e.vfmt) (vfFD e.vfmt) then f64Fmt else f32Fmt
    let v : Val :=
      match e.a.val with
      | .int x => if real && fmtJxr (vfFD e.vfmt) then .real (e.at wp (.int x)) else .int x
      | .real x => .real (e.at wp (.real x))
    encodeTo e.vfmt (vfFD e.vfmt) v

/-- 13 R284 to R292, R300, R301, 12 R269. -/
def elemRows : List ElemRow := [
  intRow .vadd .I (· + ·), intRow .vsub .I (· - ·), intRow .vmul .I (· * ·),
  intRow .vand .L (· &&& ·), intRow .vor .L (· ||| ·), intRow .vxor .L (· ^^^ ·),
  intRow .vsll .I fun a b => a <<< (b.toNat % 64), intRow .vsra .I fun a b => a.sshiftRight (b.toNat % 64),
  intRow .vmin .I fun a b => if a.toInt ≤ b.toInt then a else b,
  intRow .vmax .I fun a b => if a.toInt ≤ b.toInt then b else a,
  natRow .vminu fun a b => if a.toNat ≤ b.toNat then a else b,
  natRow .vmaxu fun a b => if a.toNat ≤ b.toNat then b else a,
  intRow .vmulh .I fun a b => BitVec.ofInt 64 ((a.toInt * b.toInt).fdiv (2 ^ 64)),
  intRow .vdiv .I fun a b => if b = 0 then BitVec.allOnes 64 else BitVec.ofInt 64 (a.toInt.tdiv b.toInt),
  intRow .vrem .I fun a b => if b = 0 then a else BitVec.ofInt 64 (a.toInt.tmod b.toInt),
  natRow .vdivu fun a b => if b = 0 then BitVec.allOnes 64 else BitVec.ofNat 64 (a.toNat / b.toNat),
  natRow .vremu fun a b => if b = 0 then a else BitVec.ofNat 64 (a.toNat % b.toNat)] ++ [
  { word := .vsrl, ok := fun fa fb fd => clsOk .I fa fb fd true true, reads := 2
    val := fun e => e.int (((e.a.unsigned (vfFA e.vfmt)).toNat / 2 ^ (e.b.word.toNat % 64) : Nat) : Int) },
  { word := .vadds, ok := fun fa fb fd => clsOk .S fa fb fd true true, reads := 2
    val := fun e => e.int (clampInt (e.a.word.toInt + e.b.word.toInt) (fmtLo (vfFD e.vfmt)) (fmtHi (vfFD e.vfmt))) },
  { word := .vsubs, ok := fun fa fb fd => clsOk .S fa fb fd true true, reads := 2
    val := fun e => e.int (clampInt (e.a.word.toInt - e.b.word.toInt) (fmtLo (vfFD e.vfmt)) (fmtHi (vfFD e.vfmt))) },
  { word := .vaddsu, ok := fun fa fb fd => clsOk .N fa fb fd true true, reads := 2
    val := fun e => (min (e.a.pat + e.b.pat) (2 ^ fmtWidth (vfFD e.vfmt) - 1), fmtWidth (vfFD e.vfmt)) },
  { word := .vsubsu, ok := fun fa fb fd => clsOk .N fa fb fd true true, reads := 2
    val := fun e => (min (e.a.pat - e.b.pat) (2 ^ fmtWidth (vfFD e.vfmt) - 1), fmtWidth (vfFD e.vfmt)) },
  { word := .vabs, ok := fun fa _ fd => clsOk .I fa 0 fd false true, reads := 1
    val := fun e => e.int (e.a.word.toInt.natAbs : Int) },
  { word := .vclz, ok := fun fa _ fd => clsOk .B fa 0 fd false true, reads := 1
    val := fun e => e.int ((if e.a.pat = 0 then fmtWidth (vfFA e.vfmt) else fmtWidth (vfFA e.vfmt) - 1 - e.a.pat.log2 : Nat) : Int) },
  { word := .vpop, ok := fun fa _ fd => clsOk .B fa 0 fd false true, reads := 1
    val := fun e => e.int (((List.range 64).filter fun k => e.a.pat.testBit k).length : Int) },
  { word := .vbext, ok := fun fa fb fd => clsOk .B fa fb fd true true, reads := 2
    val := fun e => e.int (fieldOf (BitVec.ofNat 64 e.a.pat) (e.b.unsigned (vfFB e.vfmt)) : Int) },
  { word := .vmac, acc := true, ok := fun fa fb fd => clsOk .I fa fb fd true true && fmtFixed fd, reads := 2
    val := fun e =>
      if fmtFloat (vfFD e.vfmt) then encodeTo e.vfmt (vfFD e.vfmt) (.real (fAdd (vfRM e.vfmt)
        (fOfInt (e.a.word * e.b.word).toInt) (decodeF (floatFmt (vfFD e.vfmt)) e.old)))
      else e.int (e.a.word * e.b.word + (decodeFixed (vfFD e.vfmt) e.old).word).toInt },
  { word := .vwmul, pair := true, ok := fun fa fb fd => clsOk .W fa fb fd true true, reads := 2
    val := fun e => e.int (e.a.word.toInt * e.b.word.toInt + e.a1.word.toInt * e.b1.word.toInt) },
  { word := .vwmac, pair := true, acc := true, ok := fun fa fb fd => clsOk .W fa fb fd true true, reads := 2
    val := fun e => e.int (e.a.word.toInt * e.b.word.toInt + e.a1.word.toInt * e.b1.word.toInt +
      (decodeFixed (vfFD e.vfmt) e.old).word.toInt) },
  { word := .vsel, raw := true, all := true, ok := fun fa fb fd => clsOk .X fa fb fd true true, reads := 2
    val := fun e =>
      if e.bit then (e.a.pat, e.a.len)
      else if e.b.scalar then
        (if fmtCode (vfFD e.vfmt) then encodeTo e.vfmt (vfFD e.vfmt) e.b.val else (e.b.pat, fmtWidth (vfFB e.vfmt)))
      else (e.b.pat, e.b.len) },
  { word := .vmov, raw := true, ok := fun fa _ fd => clsOk .X fa 0 fd false true, reads := 1
    val := fun e => (e.a.pat, e.a.len) },
  { word := .vtier, raw := true, ok := fun fa _ fd => fmtCode fa && fmtInteger fd, reads := 1
    val := fun e => e.int ((e.a.pat % 4 : Nat) : Int) },
  { word := .vbits, raw := true, ok := fun fa _ fd => fmtCode fa && fmtInteger fd, reads := 1
    val := fun e => e.int (e.a.len : Int) },
  { word := .vid, ok := fun _ _ fd => !fmtB1 fd, reads := 0, val := fun e => e.int (e.i : Int) },
  { word := .viota, ok := fun _ _ fd => !fmtB1 fd, reads := 0, val := fun e => e.int (e.ones : Int) }] ++ [
  fpRow .vfadd fAdd, fpRow .vfsub fSub, fpRow .vfmul fun _ => fMul, fpRow .vfdiv fun _ => fDiv,
  fpRow .vfmin fun _ => fMin, fpRow .vfmax fun _ => fMax, fpRow1 .vfsqrt fun _ => fSqrt,
  fpRow1 .vfrsq fun wp x => if wp = f64Fmt then fRsqrt64 x else fRsqrt32 x,
  fpRow1 .vfrcp fun _ x => fDiv (fOfInt 1) x,
  exactRow .vfabs (fun p s => p % s) fun v => match v with | .int x => .int x.natAbs | .real y => .real y.abs,
  exactRow .vfneg (fun p s => p ^^^ s) fun v => match v with | .int x => .int (-x) | .real y => .real y.negate,
  { word := .vfcvt, ok := fun fa _ fd => clsOk .F fa 0 fd false true, reads := 1
    val := fun e => encodeTo e.vfmt (vfFD e.vfmt) e.a.val },
  { word := .vfmac, acc := true, ok := fun fa fb fd => clsOk .F fa fb fd true true && fmtFixed fd, reads := 2
    val := fun e => e.real e.wp (fAdd (vfRM e.vfmt) (fMul (e.at e.wp e.a.val) (e.at e.wp e.b.val))
      (e.at e.wp (decodeFixed (vfFD e.vfmt) e.old))) },
  { word := .vfnmac, acc := true, ok := fun fa fb fd => clsOk .F fa fb fd true true && fmtFixed fd, reads := 2
    val := fun e => e.real e.wp (fAdd (vfRM e.vfmt) (fMul (e.at e.wp e.a.val) (e.at e.wp e.b.val)).negate
      (e.at e.wp (decodeFixed (vfFD e.vfmt) e.old))) },
  { word := .vscan, scan := true, ok := fun fa fb fd => clsOk .I fa fb fd true true, reads := 1
    val := fun e => e.int (e.upTo.foldl (fun t a => t + a.word) e.b.word).toInt },
  { word := .vfscan, scan := true, ok := fun fa fb fd => clsOk .F fa fb fd true true, reads := 1
    val := fun e => encodeTo e.vfmt (vfFD e.vfmt) (.real (decodeF e.wp (e.upTo.foldl
      (fun t a => roundF e.wp 0 (fAdd 0 (decodeF e.wp t) (e.at e.wp a.val))) (roundF e.wp 0 (e.at e.wp e.b.val))))) },
  codeRow .vdec (fun fa fd => fmtCode fa && fmtFixed fd && !fmtB1 fd) (fun fa _ => fa == 0x13) false,
  codeRow .venc (fun fa fd => fmtFixed fa && !fmtB1 fa && fmtCode fd) (fun fa fd => fa == 0x0E || fd == 0x13) true,
  codeRow .vrepack (fun fa fd => fmtCode fa && fmtCode fd) (fun fa fd => fa == 0x13 || fd == 0x13) true]

/-- Element k of a vector source in a format. -/
def vecOpnd (f : Fmt) (vfmt : Word) (x : VReg) (k : Nat) : Option Opnd :=
  (elem f x k).map fun p =>
    { pat := p.1, len := p.2, val := patValue f (vfSCALE vfmt) p.1, scalar := false }

/-- Source b of index k: an element, or the scalar for every index (13 R283). -/
def bOpnd (x : Hart) (o : VOps) (k : Nat) : Option Opnd :=
  let f := vfFB x.vc.vfmt
  if o.bs then
    some { pat := (x.getReg .cs o.b).toNat % 2 ^ fmtWidth f, len := 0, val := scalarValue f (x.getReg .cs o.b), scalar := true }
  else vecOpnd f x.vc.vfmt (x.vreg o.b) k

/-- A source register r of format f does not lose an element that is still to be read to a destination d of format fd. -/
def keepsSource (d r : BitVec 5) (f fd : Fmt) : Prop :=
  d ≠ r ∨ (fmtFixed f = true ∧ fmtFixed fd = true ∧ fmtWidth f = fmtWidth fd)

/-- The sum of g over the indices from st up to vl. -/
def sumFrom (st vl : Nat) (g : Nat → Nat) : Nat := ((List.range vl).map fun i => if st ≤ i then g i else 0).sum

/-- The report of a vector instruction that completes without a stop (12 R255, R259); `vstat.ILL` is kept. -/
def reported (c : VCtl) (gn gbd gba gbb : Nat) : VCtl :=
  { c with
    vstart := 0, vcont := 0, vstat := c.vstat &&& 8#64, gn := BitVec.ofNat 64 gn, gbd := BitVec.ofNat 64 gbd
    gba := BitVec.ofNat 64 gba, gbb := BitVec.ofNat 64 gbb }

/-- The first element of a source that index i reads. -/
def ElemRow.first (row : ElemRow) (i : Nat) : Nat := if row.pair then 2 * i else i

/-- Index i is active. -/
def ElemRow.act (row : ElemRow) (x : Hart) (o : VOps) (i : Nat) : Bool := row.all || x.maskBit o.m.toNat i

/-- The result of an active index from the sources A and B. -/
def ElemRow.out (row : ElemRow) (x : Hart) (o : VOps) (A B : Nat → Opnd) (i : Nat) : Nat × Nat :=
  let k := row.first i
  let w := fmtWidth (vfFD x.vc.vfmt)
  row.val
    { vfmt := x.vc.vfmt, a := A k, a1 := A (k + 1), b := if row.scan then B 0 else B k, b1 := B (k + 1)
      old := bitsOf (x.vreg o.d).bits (w * i) w, bit := x.maskBit o.m.toNat i, i := i
      ones := ((List.range i).filter fun j => x.maskBit o.m.toNat j && x.maskBit o.a.toNat j).length
      upTo := ((List.range (i + 1)).filter fun j => decide (x.vc.vstart.toNat ≤ j) && x.maskBit o.m.toNat j).map A }

/-- What index i appends to a code destination, and where. -/
def ElemRow.res (row : ElemRow) (x : Hart) (o : VOps) (A B : Nat → Opnd) (i : Nat) : Nat × Nat :=
  if row.act x o i then row.out x o A B i else (0, zeroCodeLen (vfFD x.vc.vfmt))
def ElemRow.place (row : ElemRow) (x : Hart) (o : VOps) (A B : Nat → Opnd) (i : Nat) : Nat :=
  ((List.range i).map fun j => (row.res x o A B j).2).sum

/-- The bits read of a and of b at index i; a scan reads its start once. -/
def ElemRow.bitsA (row : ElemRow) (A : Nat → Opnd) (i : Nat) : Nat :=
  if row.reads = 0 then 0 else (A (row.first i)).len + (if row.pair then (A (row.first i + 1)).len else 0)
def ElemRow.bitsB (row : ElemRow) (B : Nat → Opnd) (i : Nat) : Nat :=
  if row.reads < 2 then 0 else (B (row.first i)).len + (if row.pair then (B (row.first i + 1)).len else 0)

/-- Destination d once the indices from the start up to n are done. -/
def ElemRow.written (row : ElemRow) (x : Hart) (o : VOps) (A B : Nat → Opnd) (n : Nat) (v : VReg) : Prop :=
  let fd := vfFD x.vc.vfmt
  let w := fmtWidth fd
  let old := x.vreg o.d
  v.bits < 2 ^ v.fill ∧
  (fmtFixed fd = true → v.fill = max old.fill (w * n) ∧
    (∀ i, i < n → bitsOf v.bits (w * i) w =
      if x.vc.vstart.toNat ≤ i ∧ row.act x o i = true then (row.out x o A B i).1 % 2 ^ w else bitsOf old.bits (w * i) w) ∧
    bitsOf v.bits (w * n) (v.fill - w * n) = bitsOf old.bits (w * n) (v.fill - w * n)) ∧
  (fmtCode fd = true → v.fill = row.place x o A B n ∧
    ∀ i, i < n → bitsOf v.bits (row.place x o A B i) (row.res x o A B i).2 =
      (row.res x o A B i).1 % 2 ^ (row.res x o A B i).2)

/-- The report registers then. -/
def ElemRow.counted (row : ElemRow) (x : Hart) (o : VOps) (A B : Nat → Opnd) (n : Nat) : VCtl :=
  let fd := vfFD x.vc.vfmt
  let st := x.vc.vstart.toNat
  reported x.vc (n - st)
    (if fmtFixed fd then sumFrom st n fun i => if row.act x o i then fmtWidth fd else 0 else row.place x o A B n)
    (sumFrom st n (row.bitsA A)) (if row.scan then (B 0).len else sumFrom st n (row.bitsB B))

/-- The formats are those of the class, and no source loses an element to the destination before it is read. -/
structure ElemRow.Formats (row : ElemRow) (x : Hart) (o : VOps) : Prop where
  named : vfmtReserved x.vc.vfmt = false
  admitted : row.ok (vfFA x.vc.vfmt) (vfFB x.vc.vfmt) (vfFD x.vc.vfmt) = true
  keepsA : 1 ≤ row.reads → keepsSource o.d o.a (vfFA x.vc.vfmt) (vfFD x.vc.vfmt)
  keepsB : 2 ≤ row.reads ∨ row.scan = true → o.bs = true ∨ keepsSource o.d o.b (vfFB x.vc.vfmt) (vfFD x.vc.vfmt)

/-- The sources hold A and B for every index below n, with no reserved code where an active index reads a value, and the
destination holds the elements that are added to. -/
structure ElemRow.Ready (row : ElemRow) (x : Hart) (o : VOps) (A B : Nat → Opnd) (n : Nat) : Prop where
  a : 1 ≤ row.reads → ∀ k, k < row.first n → vecOpnd (vfFA x.vc.vfmt) x.vc.vfmt (x.vreg o.a) k = some (A k)
  b : 2 ≤ row.reads → ∀ k, k < row.first n → bOpnd x o k = some (B k)
  start : row.scan = true → bOpnd x o 0 = some (B 0) ∧
    (o.bs = false → patReserved (vfFB x.vc.vfmt) (B 0).pat (B 0).len = false)
  goodA : row.raw = false → 1 ≤ row.reads → ∀ i, i < n → row.act x o i = true →
    patReserved (vfFA x.vc.vfmt) (A i).pat (A i).len = false
  goodB : row.raw = false → 2 ≤ row.reads → o.bs = false → ∀ i, i < n → row.act x o i = true →
    patReserved (vfFB x.vc.vfmt) (B i).pat (B i).len = false
  added : row.acc = true → fmtWidth (vfFD x.vc.vfmt) * n ≤ (x.vreg o.d).fill

/-- The results of the indices below n fit the limit; a code destination starts afresh. -/
def ElemRow.fits (row : ElemRow) (x : Hart) (o : VOps) (l : Launch) (A B : Nat → Opnd) (n : Nat) : Prop :=
  (fmtFixed (vfFD x.vc.vfmt) = true ∧ fmtWidth (vfFD x.vc.vfmt) * n ≤ destLimit x l) ∨
  (fmtCode (vfFD x.vc.vfmt) = true ∧ x.vc.vstart.toNat = 0 ∧ row.place x o A B n ≤ destLimit x l)

end Sys2Proof.Claims

end


/-- 12 R253 to R261, 13 R281 to R292, R300, R301, 12 R269: an element-wise instruction with the vector queue empty and the formats
of its class, whose sources hold every element below `vl` and whose results fit the limit, completes: a fixed destination gets
the result at each active index and keeps its other elements; a code destination of a fresh start is the results, and ZeroCode
at inactive indices, end to end. `gn` counts the indices, `gbd`, `gba` and `gbb` the bits; nothing else changes.

12 R256, R258, R259, 06 R134: an element-wise instruction stops at its first index k that a source does not hold (SHORT) or
whose result does not fit (FULL), with `vcont` k; at a reserved code that an active index reads it traps RESCODE, with `vstart`
and `vcont` k. In each case what lies below k has been done, as if `vl` were k: the elements, the fill and the counts.

Two rows hold a reading of the model: `vwmac` reads an n64 accumulator as signed (log 48), and the changed sign of an integer 0
is +0 (log 21). -/
def Obligations.VectorElementResults : Prop :=
  (∀ (s : State) (h : Here) (x : Hart) (l : Launch) (o : VOps) (A B : Nat → Opnd), Starts s h x → h.sl = .cs → x.viq = [] →
     findLaunch s h.gang = some l → ∀ row ∈ elemRows,
     let vl := x.vc.vl.toNat
     row.Formats x o → row.Ready x o A B vl → row.fits x o l A B vl → x.vc.vstart.toNat ≤ vl →
     ∃ v : VReg, row.written x o A B vl v ∧
       exec (row.word o) s =
         .next (completed s h (pipeOf (row.word o)) x { x.setVreg o.d v with vc := row.counted x o A B vl })) ∧
  (∀ (s : State) (h : Here) (x : Hart) (l : Launch) (o : VOps) (A B : Nat → Opnd) (k : Nat), Starts s h x → h.sl = .cs →
     x.viq = [] → findLaunch s h.gang = some l → ∀ row ∈ elemRows,
     row.Formats x o → row.Ready x o A B k → row.fits x o l A B k → x.vc.vstart.toNat ≤ k → k < x.vc.vl.toNat →
     let stops (bit : Word) : Prop := ∃ v : VReg, row.written x o A B k v ∧
       exec (row.word o) s = .next (completed s h (pipeOf (row.word o)) x { x.setVreg o.d v with
         vc := { row.counted x o A B k with vcont := BitVec.ofNat 64 k, vstat := (x.vc.vstat &&& 8#64) ||| bit } })
     ((1 ≤ row.reads ∧ (vecOpnd (vfFA x.vc.vfmt) x.vc.vfmt (x.vreg o.a) (row.first k) = none ∨
         row.pair = true ∧ vecOpnd (vfFA x.vc.vfmt) x.vc.vfmt (x.vreg o.a) (2 * k + 1) = none)) ∨
       (2 ≤ row.reads ∧ (bOpnd x o (row.first k) = none ∨ row.pair = true ∧ bOpnd x o (2 * k + 1) = none)) ∨
       (row.acc = true ∧ (x.vreg o.d).fill < fmtWidth (vfFD x.vc.vfmt) * (k + 1)) → stops 2#64) ∧
     (row.Ready x o A B (k + 1) → ¬ row.fits x o l A B (k + 1) → stops 1#64) ∧
     (row.raw = false → 1 ≤ row.reads → (row.reads = 2 → bOpnd x o k ≠ none) → row.act x o k = true →
       vecOpnd (vfFA x.vc.vfmt) x.vc.vfmt (x.vreg o.a) k = some (A k) →
       patReserved (vfFA x.vc.vfmt) (A k).pat (A k).len = true →
       (fmtFixed (vfFD x.vc.vfmt) = true → fmtWidth (vfFD x.vc.vfmt) * (k + 1) ≤ destLimit x l) →
       (row.acc = true → fmtWidth (vfFD x.vc.vfmt) * (k + 1) ≤ (x.vreg o.d).fill) →
       ∃ t y v, exec (row.word o) s = .next t ∧ findHart t h.gang h.hid = some y ∧ row.written x o A B k v ∧
         y.v = (x.setVreg o.d v).v ∧ y.m = x.m ∧ y.a = x.a ∧ y.c = x.c ∧
         y.vc = { row.counted x o A B k with
           vstart := BitVec.ofNat 64 k, vcont := BitVec.ofNat 64 k, vstat := (x.vc.vstat &&& 8#64) ||| 4#64 } ∧
         y.tr.ecause.toNat % 256 = 0x10 ∧
         y.tr.einfo = BitVec.ofNat 64 (elemAt (vfFA x.vc.vfmt) (x.vreg o.a) k % 2 ^ 48)))

/-! ### Compares, masks, reductions (13 R293 to R301) -/

noncomputable section

namespace Sys2Proof.Claims

/-- A compare: its class, how many sources it reads, and its result bit. -/
structure CompareRow where
  word : VOps → Instr
  ok : Fmt → Fmt → Bool
  reads : Nat
  val : Word → Opnd → Opnd → Bool

def intCompareRow (word : VOps → Instr) (f : Word → Word → Bool) : CompareRow where
  word := word
  ok := fun fa fb => clsOk .C fa fb 0 true false
  reads := 2
  val := fun _ a b => f a.word b.word

def fpCompareRow (word : VOps → Instr) (f : FVal → FVal → Bool) : CompareRow where
  word := word
  ok := fun fa fb => clsOk .F fa fb 0 true false
  reads := 2
  val := fun w a b =>
    let wp := precision [vfFA w, vfFB w]
    f (rounded wp (vfRM w) a.val.toF) (rounded wp (vfRM w) b.val.toF)

/-- 13 R294. -/
def compareRows : List CompareRow := [
  intCompareRow .vmeq fun a b => decide (a = b), intCompareRow .vmne fun a b => decide (a ≠ b),
  intCompareRow .vmlt fun a b => decide (a.toInt < b.toInt), intCompareRow .vmle fun a b => decide (a.toInt ≤ b.toInt),
  intCompareRow .vmltu fun a b => decide (a.toNat < b.toNat), intCompareRow .vmleu fun a b => decide (a.toNat ≤ b.toNat),
  fpCompareRow .vmfeq fEq, fpCompareRow .vmflt fLt, fpCompareRow .vmfle fLe,
  fpCompareRow .vmfun fun a b => a.isNan || b.isNan,
  { word := .vmfin, ok := fun fa _ => clsOk .F fa 0 0 false false, reads := 1
    val := fun w a _ => (rounded (precision [vfFA w]) (vfRM w) a.val.toF).isFin }]

/-- 13 R295. -/
def maskRows : List ((VOps → Instr) × (Bool → Bool → Bool)) := [
  (.vmand, fun a b => a && b), (.vmor, fun a b => a || b), (.vmxor, fun a b => a != b), (.vmandn, fun a b => a && !b)]

/-- Only bits of mask register d below n, from st on, differ: there bit i is `f i` where `wr i`. -/
def maskSet (x : Hart) (m : Vector Nat 8) (d : BitVec 5) (st n : Nat) (wr f : Nat → Bool) : Prop :=
  ∀ (r i : Nat), ({ x with m := m } : Hart).maskBit r i =
    if r = d.toNat ∧ r ≠ 0 ∧ r < 8 ∧ st ≤ i ∧ i < n ∧ wr i = true then f i else x.maskBit r i

/-- The active indices from the start up to `vl`, ascending. -/
def activeFrom (x : Hart) (o : VOps) : List Nat :=
  (List.range x.vc.vl.toNat).filter fun i => decide (x.vc.vstart.toNat ≤ i) && x.maskBit o.m.toNat i

/-- 13 R296 to R298: a reduction, and its result from `vfmt`, the start value, the active elements with their indices, the
start index and `vl`. -/
structure ReduceRow where
  word : VOps → Instr
  cls : Cls
  val : Word → Opnd → List (Nat × Opnd) → Nat → Nat → Nat × Nat

def intReduceRow (word : VOps → Instr) (f : Word → Word → Word) : ReduceRow where
  word := word
  cls := .I
  val := fun w b l _ _ => encodeIntTo w (vfFD w) (l.foldl (fun t a => f t a.2.word) b.word).toInt

/-- The tree of 06 R140 over element groups of 64, after the start value. -/
def fpReduceRow (word : VOps → Instr) (node : FloatFmt → FVal → FVal) (add : FloatFmt → FVal → FVal → FVal) : ReduceRow where
  word := word
  cls := .F
  val := fun w b l st vl =>
    let wp := precision [vfFA w, vfFB w, vfFD w]
    let at_ (v : Val) : FVal := rounded wp (vfRM w) v.toF
    let leaf (i : Nat) : Option FVal := (l.find? fun a => a.1 == i).map fun a => node wp (at_ a.2.val)
    let groups := (List.range ((vl + 63) / 64)).filter fun g => decide (st / 64 ≤ g)
    let sum := groups.foldl (fun t g => addOpt (add wp) t (groupSum (add wp) ((List.range 64).map fun j => leaf (64 * g + j))))
      (some (at_ b.val))
    encodeTo w (vfFD w) (.real (sum.getD (.fin false 0 0)))

def reduceRows : List ReduceRow := [
  intReduceRow .vredsum (· + ·), intReduceRow .vredand (· &&& ·), intReduceRow .vredor (· ||| ·),
  intReduceRow .vredxor (· ^^^ ·), intReduceRow .vredmin fun t a => if a.toInt < t.toInt then a else t,
  intReduceRow .vredmax fun t a => if t.toInt < a.toInt then a else t,
  fpReduceRow .vfredsum (fun _ x => x) fun wp a b => rounded wp 0 (fAdd 0 a b),
  fpReduceRow .vfredmin (fun _ x => x) fun _ => fMin, fpReduceRow .vfredmax (fun _ x => x) fun _ => fMax,
  fpReduceRow .vfredsq (fun wp x => rounded wp 0 (fMul x x)) fun wp a b => rounded wp 0 (fAdd 0 a b)]

end Sys2Proof.Claims

end

/-- 13 R293 to R295: a compare with the formats of its class and its elements held writes the result bit of every active index
into mask d and completes; mask logic writes every bit from the start up to `vl`, whatever the formats name. A write of `m0` is
discarded, and no vector register changes. -/
def Obligations.MaskResults : Prop :=
  ∀ (s : State) (h : Here) (x : Hart) (o : VOps), Starts s h x → h.sl = .cs → x.viq = [] → vfmtReserved x.vc.vfmt = false →
    let w := x.vc.vfmt
    let vl := x.vc.vl.toNat
    let st := x.vc.vstart.toNat
    (∀ row ∈ compareRows, ∀ A B : Nat → Opnd, row.ok (vfFA w) (vfFB w) = true → st ≤ vl →
      (∀ k, k < vl → vecOpnd (vfFA w) w (x.vreg o.a) k = some (A k) ∧
        (x.maskBit o.m.toNat k = true → patReserved (vfFA w) (A k).pat (A k).len = false)) →
      (row.reads = 2 → ∀ k, k < vl → bOpnd x o k = some (B k) ∧
        (o.bs = false → x.maskBit o.m.toNat k = true → patReserved (vfFB w) (B k).pat (B k).len = false)) →
      ∃ m : Vector Nat 8, exec (row.word o) s = .next (completed s h .valu x { x with
          m := m
          vc := reported x.vc (vl - st) (activeFrom x o).length (sumFrom st vl fun i => (A i).len)
            (if row.reads = 2 then sumFrom st vl fun i => (B i).len else 0) }) ∧
        maskSet x m o.d st vl (x.maskBit o.m.toNat) fun i => row.val w (A i) (B i)) ∧
    (∀ p ∈ maskRows,
      ∃ m : Vector Nat 8, exec (p.1 o) s = .next (completed s h .valu x { x with
          m := m, vc := reported x.vc (vl - st) (vl - st) (vl - st) (vl - st) }) ∧
        maskSet x m o.d st vl (fun _ => true) fun i => p.2 (x.maskBit o.a.toNat i) (x.maskBit o.b.toNat i)) ∧
    encode (.vmflt ⟨false, true, true, 0, 3, 1, 2⟩) = [0x7606114F]

/-- 13 R296 to R299, R301, 06 R140: a reduction whose start value and elements are held leaves its one element in d: integer
reductions fold the active words in ascending order, floating ones take the sum tree of 06 R140. `vfirst` and `vmcnt` leave the
lowest index at which both masks are set, or -1, and the number of such indices. -/
def Obligations.ReductionResults : Prop :=
  ∀ (s : State) (h : Here) (x : Hart) (l : Launch) (o : VOps), Starts s h x → h.sl = .cs → x.viq = [] →
    findLaunch s h.gang = some l → vfmtReserved x.vc.vfmt = false →
    let w := x.vc.vfmt
    let vl := x.vc.vl.toNat
    let st := x.vc.vstart.toNat
    let leaves (res : Nat × Nat) (gba gbb : Nat) : State := completed s h .valu x { x.setVreg o.d { bits := res.1 % 2 ^ res.2, fill := res.2 } with
      vc := reported x.vc (vl - st) res.2 gba gbb }
    (∀ row ∈ reduceRows, ∀ (A : Nat → Opnd) (b : Opnd), clsOk row.cls (vfFA w) (vfFB w) (vfFD w) true true = true → st ≤ vl →
      bOpnd x o 0 = some b → (o.bs = false → patReserved (vfFB w) b.pat b.len = false) →
      (∀ k, k < vl → vecOpnd (vfFA w) w (x.vreg o.a) k = some (A k) ∧
        (x.maskBit o.m.toNat k = true → patReserved (vfFA w) (A k).pat (A k).len = false)) →
      let res := row.val w b ((activeFrom x o).map fun i => (i, A i)) st vl
      res.2 ≤ destLimit x l →
      exec (row.word o) s = .next (leaves res (sumFrom st vl fun i => (A i).len) b.len)) ∧
    (fmtB1 (vfFD w) = false →
      let both := (activeFrom x o).filter fun i => x.maskBit o.a.toNat i
      let first := encodeIntTo w (vfFD w) (match both with | [] => -1 | k :: _ => (k : Int))
      let count := encodeIntTo w (vfFD w) (both.length : Int)
      (first.2 ≤ destLimit x l → exec (.vfirst o) s = .next (leaves first 0 0)) ∧
      (count.2 ≤ destLimit x l → exec (.vmcnt o) s = .next (leaves count 0 0)))

/-! ### Permutes and code moves (12 R270 to R280) -/

noncomputable section

namespace Sys2Proof.Claims

/-- A permute or move of elements: its formats, whether vb is a vector source, which indices are active, and the element that
index i takes, when the sources hold it: its pattern and length. -/
structure PermRow where
  word : VOps → Instr
  ok : Fmt → Fmt → Fmt → Bool
  readsB : Bool := false
  act : Hart → VOps → Nat → Bool := fun x o i => x.maskBit o.m.toNat i
  get : Hart → VOps → Nat → Option (Nat × Nat)

/-- Element k of a vector register in format FA. -/
def elemA (x : Hart) (r : BitVec 5) (k : Nat) : Option (Nat × Nat) := elem (vfFA x.vc.vfmt) (x.vreg r) k

/-- Format FD is FA. -/
def sameFmt (fa _fb fd : Fmt) : Bool := fd == fa

/-- All-zero bits of an element, or ZeroCode (12 R256). -/
def zeroOf (x : Hart) : Nat × Nat :=
  (0, if fmtCode (vfFD x.vc.vfmt) then zeroCodeLen (vfFD x.vc.vfmt) else fmtWidth (vfFD x.vc.vfmt))

/-- The bits of the governing mask set below index i. -/
def rankOf (x : Hart) (o : VOps) (i : Nat) : Nat := ((List.range i).filter fun j => x.maskBit o.m.toNat j).length

/-- Whether an index below i, or up to `vl`, has its governing bit set. -/
def anySet (x : Hart) (o : VOps) (i : Nat) : Bool := (List.range i).any fun j => x.maskBit o.m.toNat j

/-- The bit position of the element k codes on from bit n (12 R272). -/
def skipTo (f : Fmt) (bits : Nat) : Nat → Nat → Nat
  | 0, n => n
  | k + 1, n => skipTo f bits k (n + codeLen f (bitsOf bits n 2))

/-- 12 R272 to R279. -/
def permRows : List PermRow := [
  { word := .vslidedn, ok := sameFmt, get := fun x o i => elemA x o.a (i + (scalarOf x o).toNat) },
  { word := .vslideup, ok := sameFmt
    act := fun x o i => decide ((scalarOf x o).toNat ≤ i) && x.maskBit o.m.toNat i
    get := fun x o i => if (scalarOf x o).toNat ≤ i then elemA x o.a (i - (scalarOf x o).toNat) else some (0, 0) },
  { word := .vbcast, ok := sameFmt, get := fun x o _ => elemA x o.a (scalarOf x o).toNat },
  { word := .vunzip, ok := sameFmt, get := fun x o i => elemA x o.a (2 * i + (scalarOf x o).toNat % 2) },
  { word := .vrev, ok := sameFmt, get := fun x o i => elemA x o.a (x.vc.vl.toNat - 1 - i) },
  { word := .vzip, ok := fun fa fb fd => fd == fa && fb == fa, readsB := true
    get := fun x o i => elemA x (if i % 2 = 0 then o.a else o.b) (i / 2) },
  { word := .vgatherv, ok := fun fa fb fd => fd == fa && (fmtInteger fb || fmtJxi fb), readsB := true
    get := fun x o i =>
      (elem (vfFB x.vc.vfmt) (x.vreg o.b) i).map fun p =>
        match patValue (vfFB x.vc.vfmt) 0 p.1 with
        | .int k => if k < 0 then zeroOf x else (elemA x o.a k.toNat).getD (zeroOf x)
        | .real _ => zeroOf x },
  { word := .vbrk, ok := sameFmt, act := fun _ _ _ => true
    get := fun x o i => if anySet x o i then some (zeroOf x) else elemA x o.a i },
  { word := .vbrkb, ok := sameFmt, act := fun _ _ _ => true
    get := fun x o i => if anySet x o (i + 1) then some (zeroOf x) else elemA x o.a i },
  { word := .vexpand, ok := sameFmt
    get := fun x o i => if x.maskBit o.m.toNat i then elemA x o.a (rankOf x o i) else some (0, 0) },
  { word := .vskip, ok := fun fa _ fd => fmtCode fa && fd == fa
    get := fun x o i =>
      let f := vfFA x.vc.vfmt
      let v := x.vreg o.a
      let n := skipTo f v.bits i (scalarOf x o).toNat
      let len := codeLen f (bitsOf v.bits n 2)
      if (scalarOf x o).toNat + fmtMin f * (i + 1) ≤ v.fill ∧ n + len ≤ v.fill then some (bitsOf v.bits n len, len) else none },
  { word := .vbget, ok := fun _ _ fd => fmtInteger fd || fmtB1 fd
    get := fun x o i =>
      let w := fmtWidth (vfFD x.vc.vfmt)
      let n := (scalarOf x o).toNat + w * i
      if n + w ≤ (x.vreg o.a).fill then some (bitsOf (x.vreg o.a).bits n w, w) else none }]

/-- What index i leaves in a code destination. -/
def PermRow.res (row : PermRow) (x : Hart) (o : VOps) (P : Nat → Nat × Nat) (i : Nat) : Nat × Nat :=
  if row.act x o i then P i else (0, zeroCodeLen (vfFD x.vc.vfmt))
def PermRow.place (row : PermRow) (x : Hart) (o : VOps) (P : Nat → Nat × Nat) (i : Nat) : Nat :=
  ((List.range i).map fun j => (row.res x o P j).2).sum

/-- Lengths before index i. -/
def lensBelow (P : Nat → Nat × Nat) (i : Nat) : Nat := ((List.range i).map fun j => (P j).2).sum

end Sys2Proof.Claims

end

/-- 12 R272, R274 to R277, R279: a permute with the formats it admits, a destination that is none of its sources and every
element it takes held completes: element i of d is the element that index i takes where i is active, and is kept, or is
ZeroCode, where it is not. That `vexpand` reads nothing at a masked-off index, and `vbrk` and `vbrkb` nothing from keep on, is the
model's reading (log 22). -/
def Obligations.PermuteResults : Prop :=
  ∀ (s : State) (h : Here) (x : Hart) (l : Launch) (o : VOps) (P : Nat → Nat × Nat), Starts s h x → h.sl = .cs →
    x.viq = [] → findLaunch s h.gang = some l → vfmtReserved x.vc.vfmt = false → ∀ row ∈ permRows,
    let fd := vfFD x.vc.vfmt
    let wd := fmtWidth fd
    let vl := x.vc.vl.toNat
    let st := x.vc.vstart.toNat
    let old := x.vreg o.d
    row.ok (vfFA x.vc.vfmt) (vfFB x.vc.vfmt) fd = true → o.d ≠ o.a → (row.readsB = true → o.d ≠ o.b) → st ≤ vl →
    (∀ i, i < vl → row.get x o i = some (P i)) →
    (fmtFixed fd = true → wd * vl ≤ destLimit x l →
      ∃ (v : VReg) (gba gbb : Nat), exec (row.word o) s = .next (completed s h (pipeOf (row.word o)) x { x.setVreg o.d v with
          vc := reported x.vc (vl - st) (sumFrom st vl fun i => if row.act x o i then wd else 0) gba gbb }) ∧
        v.fill = max old.fill (wd * vl) ∧ v.bits < 2 ^ v.fill ∧
        (∀ i, i < vl → bitsOf v.bits (wd * i) wd =
          if st ≤ i ∧ row.act x o i = true then (P i).1 % 2 ^ wd else bitsOf old.bits (wd * i) wd) ∧
        bitsOf v.bits (wd * vl) (v.fill - wd * vl) = bitsOf old.bits (wd * vl) (v.fill - wd * vl)) ∧
    (fmtCode fd = true → st = 0 → row.place x o P vl ≤ destLimit x l →
      ∃ (v : VReg) (gba gbb : Nat), exec (row.word o) s = .next (completed s h (pipeOf (row.word o)) x { x.setVreg o.d v with
          vc := reported x.vc vl (row.place x o P vl) gba gbb }) ∧
        v.fill = row.place x o P vl ∧ v.bits < 2 ^ v.fill ∧
        ∀ i, i < vl → bitsOf v.bits (row.place x o P i) (row.res x o P i).2 =
          (row.res x o P i).1 % 2 ^ (row.res x o P i).2)


/-- 12 R270, R271, R273, R275: `vbnd` marks element starts, `vcnt` counts the elements that fit a budget of bits, `vcat` appends
elements of a at the fill of d, `vpack` puts the active elements of a at the beginning of d; all from a fresh start at index 0.

12 R278, R280: `vext` leaves element n of a alone in d, in format FD; `vins` replaces element n of d by element 0 of a, the bits
above moving with its length; `vbput` overwrites bits of d from bit n on with all of a. Each stops SHORT with nothing done where
an element or the bits are not held. `vbput` leaves `vstart` alone. That `vext` rounds once between formats is the model's
reading (log 47). -/
def Obligations.CodeMoveAndElementResults : Prop :=
  (∀ (s : State) (h : Here) (x : Hart) (l : Launch) (o : VOps) (P : Nat → Nat × Nat), Starts s h x → h.sl = .cs →
     x.viq = [] → findLaunch s h.gang = some l → vfmtReserved x.vc.vfmt = false → x.vc.vstart = 0 →
     let fa := vfFA x.vc.vfmt
     let vl := x.vc.vl.toNat
     let old := x.vreg o.d
     (∀ i, i < vl → elemA x o.a i = some (P i)) →
     (fmtCode fa = true →
       ∃ m : Vector Nat 8, exec (.vbnd o) s = .next (completed s h .code x { x with
           m := m, vc := reported x.vc vl 0 (lensBelow P vl) 0 }) ∧
         ∀ r i, ({ x with m := m } : Hart).maskBit r i =
           if r = o.d.toNat ∧ r ≠ 0 ∧ r < 8 then decide (∃ k, k < vl ∧ lensBelow P k = 2 * i) else x.maskBit r i) ∧
     (lensBelow P vl ≤ (scalarOf x o).toNat →
       exec (.vcnt o) s = .next (completed s h .code x { x with vc := reported x.vc vl 0 (lensBelow P vl) 0 })) ∧
     (∀ k, k < vl → lensBelow P k ≤ (scalarOf x o).toNat → (scalarOf x o).toNat < lensBelow P (k + 1) →
       exec (.vcnt o) s = .next (completed s h .code x { x with vc := { reported x.vc k 0 (lensBelow P k) 0 with
         vcont := BitVec.ofNat 64 k, vstat := (x.vc.vstat &&& 8#64) ||| 1#64 } })) ∧
     (vfFD x.vc.vfmt = fa → o.d ≠ o.a →
       let from_ := if fmtCode fa then old.fill else (old.fill + (fmtWidth fa - 1)) / fmtWidth fa * fmtWidth fa
       from_ + lensBelow P vl ≤ destLimit x l → 0 < vl →
       ∃ v : VReg, exec (.vcat o) s = .next (completed s h .code x { x.setVreg o.d v with
           vc := reported x.vc vl (lensBelow P vl) (lensBelow P vl) 0 }) ∧
         v.fill = from_ + lensBelow P vl ∧ v.bits % 2 ^ old.fill = old.bits % 2 ^ old.fill ∧
         ∀ i, i < vl → bitsOf v.bits (from_ + lensBelow P i) (P i).2 = (P i).1 % 2 ^ (P i).2) ∧
     (vfFD x.vc.vfmt = fa → o.d ≠ o.a →
       let Q (i : Nat) : Nat × Nat := if x.maskBit o.m.toNat i then P i else (0, 0)
       lensBelow Q vl ≤ destLimit x l →
       ∃ v : VReg, exec (.vpack o) s = .next (completed s h .code x { x.setVreg o.d v with
           vc := reported x.vc vl (lensBelow Q vl) (lensBelow P vl) 0 }) ∧
         v.fill = (if fmtCode fa then lensBelow Q vl else max old.fill (lensBelow Q vl)) ∧
         ∀ i, i < vl → bitsOf v.bits (lensBelow Q i) (Q i).2 = (Q i).1 % 2 ^ (Q i).2)) ∧
  (∀ (s : State) (h : Here) (x : Hart) (l : Launch) (o : VOps) (p : Nat × Nat), Starts s h x → h.sl = .cs → x.viq = [] →
     findLaunch s h.gang = some l → vfmtReserved x.vc.vfmt = false →
     let w := x.vc.vfmt
     let fa := vfFA w
     let fd := vfFD w
     let n := (scalarOf x o).toNat
     let old := x.vreg o.d
     let short : State := completed s h .valu x { x with vc := { reported x.vc 0 0 0 0 with
       vstat := (x.vc.vstat &&& 8#64) ||| 2#64 } }
     (elemA x o.a n = some p → (fa ≠ fd → patReserved fa p.1 p.2 = false) →
       let q := if fa = fd then p else encodeTo w fd (patValue fa (vfSCALE w) p.1)
       q.2 ≤ destLimit x l →
       exec (.vext o) s = .next (completed s h .valu x { x.setVreg o.d { bits := q.1 % 2 ^ q.2, fill := q.2 } with
         vc := reported x.vc 1 q.2 p.2 0 })) ∧
     (elemA x o.a n = none → exec (.vext o) s = .next short) ∧
     (fd = fa → elemA x o.a 0 = some p → ∀ q, elem fa old n = some q →
       (old.fill - q.2 + p.2 ≤ destLimit x l ∨ p.2 ≤ q.2) →
       ∃ v : VReg, exec (.vins o) s = .next (completed s h .valu x { x.setVreg o.d v with vc := reported x.vc 1 p.2 p.2 0 }) ∧
         v.fill = old.fill - q.2 + p.2 ∧ v.bits % 2 ^ elemAt fa old n = old.bits % 2 ^ elemAt fa old n ∧
         bitsOf v.bits (elemAt fa old n) p.2 = p.1 ∧ v.bits >>> (elemAt fa old n + p.2) = old.bits >>> (elemAt fa old n + q.2)) ∧
     (fd = fa → (elemA x o.a 0 = none ∨ elem fa old n = none) → exec (.vins o) s = .next short) ∧
     (n + (x.vreg o.a).fill ≤ old.fill →
       ∃ v : VReg, exec (.vbput o) s = .next (completed s h .valu x { x.setVreg o.d v with
           vc := { reported x.vc 0 (x.vreg o.a).fill (x.vreg o.a).fill 0 with vstart := x.vc.vstart } }) ∧
         v.fill = old.fill ∧ v.bits % 2 ^ n = old.bits % 2 ^ n ∧
         bitsOf v.bits n (x.vreg o.a).fill = (x.vreg o.a).bits % 2 ^ (x.vreg o.a).fill ∧
         v.bits >>> (n + (x.vreg o.a).fill) = old.bits >>> (n + (x.vreg o.a).fill)) ∧
     (old.fill < n + (x.vreg o.a).fill → exec (.vbput o) s =
       .next (completed s h .valu x { x with vc := { reported x.vc 0 0 0 0 with
         vstat := (x.vc.vstat &&& 8#64) ||| 2#64, vstart := x.vc.vstart } })))

/-! ### Vector memory (05 R106 to R110, 14 R310 to R325, 07 R162) -/

noncomputable section

namespace Sys2Proof.Claims

/-- A part of an instruction that answers r and leaves the state as it was: an access whose pages' translations are held. -/
def stays {α : Type} (s : State) (x : M α) (r : α) : Prop := x s = .ok r s

/-- D is set already in the leaves of a store or an atomic (07 R144). -/
def DSet (f : Found) : Prop := ∀ e ∈ f.leaves, pteD e.pte = true

/-- Stream r has descriptor d, no recorded fault and no data read ahead. -/
structure OnStream (x : Hart) (r : BitVec 5) (d : Desc) : Prop where
  adopted : (x.stream r).adopted = some d
  fault : (x.stream r).dfault = none
  walk : (x.stream r).walk = []

/-- A vector memory instruction of n bytes has completed in t: the hart is y, its report c, and the CS goes on. -/
structure Ended (t : State) (h : Here) (x y : Hart) (n : Nat) (c : VCtl) : Prop where
  hart : findHart t h.gang h.hid = some y
  pc : y.cs.pc = x.cs.pc + BitVec.ofNat 64 n
  viq : y.viq = []
  vc : y.vc = c
  a : y.a = x.a
  c : y.c = x.c
  m : y.m = x.m

/-- A vector memory instruction has trapped at index k in t: the hart is y, its report counts as c does, `vstart` and `vcont`
name the index, and the registers of the trap hold its cause, VQ = 1, address and information. -/
structure Trapped (t : State) (h : Here) (x y : Hart) (k : Nat) (c : VCtl) (cause : BitVec 8) (eaddr einfo : Word) : Prop where
  hart : findHart t h.gang h.hid = some y
  vc : y.vc = { c with
    vstart := BitVec.ofNat 64 k, vcont := BitVec.ofNat 64 k, vstat := (x.vc.vstat &&& 8#64) ||| 4#64 }
  cause : y.tr.ecause.toNat % 2 ^ 8 = cause.toNat
  vq : y.tr.ecause.getLsbD 9 = true
  eaddr : y.tr.eaddr = eaddr
  einfo : y.tr.einfo = einfo
  a : y.a = x.a
  c : y.c = x.c
  m : y.m = x.m

/-- The active indices from the start up to k, ascending. -/
def activeBelow (x : Hart) (o : VOps) (k : Nat) : List Nat :=
  (List.range k).filter fun i => decide (x.vc.vstart.toNat ≤ i) && x.maskBit o.m.toNat i

/-- The distinct pages of addresses, in the order of their first appearance. -/
def pagesOf (l : List Word) : List Word := (l.map fun a => a &&& ~~~(0xFFFF#64)).eraseDups

/-- An element of n bytes at va that faults on its page: its access x traps PGFAULT at an address within the element. -/
def pageFaults {α : Type} (s : State) (x : M α) (va n : Nat) (tr : TrapInfo) : Prop :=
  x s = .error (.trap tr) s ∧ tr.cause = 0x08 ∧ va ≤ tr.eaddr.toNat ∧ tr.eaddr.toNat < va + n ∧ va % 65536 + n ≤ 65536

/-- 07 R160: an indexed instruction has trapped PGBATCH for the elements of `bad`, ascending, whose faults are `e`: the counts c
stand as far as the first of them; `mdone` holds the other active elements and `mfault` these; at most 16 of their pages are
reported, lowest element first, the lowest address in `eaddr`, their number in `einfo` with bit 5 for more. -/
structure Batch (s t : State) (h : Here) (x y : Hart) (o : VOps) (bad : List Nat) (e : Nat → TrapInfo) (c : VCtl) : Prop where
  trapped : ∃ low ∈ (pagesOf (bad.map fun i => (e i).eaddr)).take 16,
    (∀ p ∈ (pagesOf (bad.map fun i => (e i).eaddr)).take 16, low.toNat ≤ p.toNat) ∧
    Trapped t h x y (bad.headD 0) c 0x09 low (BitVec.ofNat 64 (min (pagesOf (bad.map fun i => (e i).eaddr)).length 16 +
      (if 16 < (pagesOf (bad.map fun i => (e i).eaddr)).length then 32 else 0)))
  done : ∀ i, y.mdone.testBit i = decide (i ∈ activeFrom x o ∧ i ∉ bad)
  fault : ∀ i, y.mfault.testBit i = decide (i ∈ bad)
  notice : ∃ n, t.notices = s.notices ++ [n] ∧ n.duty = 0 ∧ n.words.drop 7 = (pagesOf (bad.map fun i => (e i).eaddr)).take 16

/-- The elements of register d below n are `f i` where `wr i`, from st on, and else as they were; the fill covers them. -/
def elementsSet (x y : Hart) (d : BitVec 5) (w st n : Nat) (wr : Nat → Bool) (f : Nat → Nat) : Prop :=
  (y.vreg d).fill = max (x.vreg d).fill (w * n) ∧
  (∀ i, i < n → bitsOf (y.vreg d).bits (w * i) w =
    if st ≤ i ∧ wr i = true then f i % 2 ^ w else bitsOf (x.vreg d).bits (w * i) w) ∧
  ∀ r, r ≠ d → y.vreg r = x.vreg r

/-- The pending stores of the CS hold `bytes` at these distinct places, in turn, and elsewhere what they held. -/
def queued (x y : Hart) (places : List (Nat × Byte)) : Prop :=
  (∀ c ∈ places, bufByte y.cbuf c.1 = some c.2) ∧
  ∀ loc, (∀ c ∈ places, c.1 ≠ loc) → bufByte y.cbuf loc = bufByte x.cbuf loc

/-- n bytes of a number, least significant first. -/
def bytesOf (v n : Nat) : List Byte := (List.range n).map fun k => BitVec.ofNat 8 (v / 256 ^ k)

/-- The report of a load or store that stops at once because its stream is empty (05 R108). -/
def stoppedShort (c : VCtl) (k : Nat) : VCtl :=
  { reported c 0 0 0 0 with vcont := BitVec.ofNat 64 k, vstat := (c.vstat &&& 8#64) ||| 2#64 }

end Sys2Proof.Claims

end

/-- 14 R310, R312, R314, R316, 05 R107, R108: outside differentiable modes, a load of a readable stream whose active elements
can be read fills element i of d from the stream's next positions, counts them, and moves the stream on; `vldw` first needs its
arrival counter, which lies on no DEV page, to cover them. A stream of codes is read code by code. An empty stream stops
SHORT. The pending stores and memory stay.

07 R158, R159, 05 R110, 14 R314: where the access of an active element k faults on its page, with the elements below it read,
`vld` traps there with bit 63 of `einfo` set, and `vldff` does so where k is its first active element and else stops SHORT; the
elements below k are in d, counted and taken from the stream, and none at k or above it is written. -/
def Obligations.VectorLoadResults : Prop :=
  ∀ (s : State) (h : Here) (x : Hart) (l : Launch) (o : VOps) (d : Desc) (b : Nat → List Byte), Starts s h x → h.sl = .cs →
    x.viq = [] → findLaunch s h.gang = some l → vfmtReserved x.vc.vfmt = false →
    let w := fmtWidth d.fmt
    let vl := x.vc.vl.toNat
    let st := x.vc.vstart.toNat
    let pos := (x.stream o.a).pos
    let act := x.maskBit o.m.toNat
    ((x.stream o.a).adopted = none → st < vl → ∀ i ∈ [Instr.vld o, .vldff o, .vldw o, .vldx o],
      (i = .vldx o → intOrJxi (vfFB x.vc.vfmt) = true) →
      ∃ t y, exec i s = .next t ∧ Ended t h x y 4 (stoppedShort x.vc st) ∧ y.v = x.v ∧ t.mem = s.mem) ∧
    (OnStream x o.a d → d.wr = false → x.tp.adjm = 0 → st ≤ vl →
      (d.kind ≤ 1 → fmtFixed d.fmt = true → pos + (vl - st) ≤ d.len → w * vl ≤ destLimit x l →
        let at_ (i : Nat) := d.elemAt (pos + (i - st)) w
        (∀ i, st ≤ i → i < vl → act i = true → stays s (loadBytes .cs (at_ i).va (at_ i).bytes) (b i)) →
        ∀ i ∈ [Instr.vld o, .vldff o, .vldw o],
        (i = .vldw o → d.kind = 0 ∧ (scalarOf x o).toNat % 8 = 0 ∧ ∃ f cb,
          stays s (locateHere .atomic (scalarOf x o).toNat 8) f ∧ f.dev = false ∧ stays s (readLocs x.cbuf f.locs (scalarOf x o).toNat) cb ∧
          (w * (pos + (vl - st)) + 7) / 8 ≤ bytesToNat cb) →
        ∃ t y, exec i s = .next t ∧ Ended t h x y 4 (reported x.vc (vl - st) (w * (activeFrom x o).length) (w * (vl - st)) 0) ∧
          elementsSet x y o.d w st vl act (fun i => bitsOf (bytesToNat (b i)) (at_ i).off w) ∧
          (y.stream o.a).pos = pos + (vl - st) ∧ (y.stream o.a).adopted = some d ∧ queued x y [] ∧ t.mem = s.mem) ∧
      (d.kind = 2 → fmtCode d.fmt = true → st = 0 → ∀ (p n : Nat → Nat) (tb : Nat → List Byte), p 0 = pos →
        (∀ i, i < vl → p (i + 1) = p i + n i ∧ p (i + 1) ≤ d.len ∧
          stays s (loadBytes .cs (d.elemAt (p i) 2).va (d.elemAt (p i) 2).bytes) (tb i) ∧
          n i = codeLen d.fmt (bitsOf (bytesToNat (tb i)) (d.elemAt (p i) 2).off 2) ∧
          (act i = true → stays s (loadBytes .cs (d.elemAt (p i) (n i)).va (d.elemAt (p i) (n i)).bytes) (b i))) →
        let code (i : Nat) : Nat × Nat :=
          if act i then (bitsOf (bytesToNat (b i)) (d.elemAt (p i) (n i)).off (n i), n i) else (0, zeroCodeLen d.fmt)
        lensBelow code vl ≤ destLimit x l →
        ∃ t y, exec (.vld o) s = .next t ∧ Ended t h x y 4 (reported x.vc vl (lensBelow code vl) (p vl - pos) 0) ∧
          (y.vreg o.d).fill = lensBelow code vl ∧
          (∀ i, i < vl → bitsOf (y.vreg o.d).bits (lensBelow code i) (code i).2 = (code i).1 % 2 ^ (code i).2) ∧
          (∀ r, r ≠ o.d → y.vreg r = x.vreg r) ∧ (y.stream o.a).pos = p vl ∧ queued x y [] ∧ t.mem = s.mem) ∧
      (d.kind ≤ 1 → fmtFixed d.fmt = true → ∀ (k : Nat) (tr : TrapInfo), st ≤ k → k < vl → act k = true →
        pos + (k - st) < d.len → w * (k + 1) ≤ destLimit x l →
        let at_ (i : Nat) := d.elemAt (pos + (i - st)) w
        (∀ i ∈ activeBelow x o k, stays s (loadBytes .cs (at_ i).va (at_ i).bytes) (b i)) →
        loadBytes .cs (at_ k).va (at_ k).bytes s = .error (.trap tr) s → tr.cause = 0x08 →
        let c := reported x.vc (k - st) (w * (activeBelow x o k).length) (w * (k - st)) 0
        let left (y : Hart) : Prop :=
          elementsSet x y o.d w st k act (fun i => bitsOf (bytesToNat (b i)) (at_ i).off w) ∧
          (∀ j, w * k ≤ j → j < (y.vreg o.d).fill → (y.vreg o.d).bits.testBit j = (x.vreg o.d).bits.testBit j) ∧
          (y.stream o.a).pos = pos + (k - st) ∧ (y.stream o.a).adopted = some d
        (∀ i ∈ [Instr.vld o, .vldff o], (i = .vldff o → activeBelow x o k = []) →
          ∃ t y, exec i s = .next t ∧ Trapped t h x y k c 0x08 tr.eaddr (tr.einfo ||| 0x8000000000000000#64) ∧ left y) ∧
        (activeBelow x o k ≠ [] →
          ∃ t y, exec (.vldff o) s = .next t ∧ Ended t h x y 4 { c with
            vcont := BitVec.ofNat 64 k, vstat := (x.vc.vstat &&& 8#64) ||| 2#64 } ∧ left y)))

/-- 14 R313, R317, 16 R358: outside differentiable modes, `vst` to a writable stream of elements of whole bytes queues each
active element of b at the stream's next positions, and `vspill` queues a register's fill and its bits as 64-bit words; memory
itself does not change, D being set in the pages' leaves, and every other byte that is pending stays. `vfill` takes a spilled
register back.

07 R158, R159, 05 R110: where the access of an active element k of `vst` faults on its page, it traps there with bit 63 of `einfo`
set; the elements below k are queued and counted, and none at k or above it. -/
def Obligations.VectorStoreResults : Prop :=
  ∀ (s : State) (h : Here) (x : Hart) (l : Launch) (o : VOps) (d : Desc) (f : Nat → Found) (b : Nat → List Byte), Starts s h x →
    h.sl = .cs → x.viq = [] → findLaunch s h.gang = some l → vfmtReserved x.vc.vfmt = false → x.tp.adjm = 0 →
    let w := fmtWidth d.fmt
    let vl := x.vc.vl.toNat
    let st := x.vc.vstart.toNat
    ((x.stream o.d).adopted = none → st < vl →
      ∃ t y, exec (.vst o) s = .next t ∧ Ended t h x y 4 (stoppedShort x.vc st) ∧ queued x y [] ∧ t.mem = s.mem) ∧
    (OnStream x o.d d → d.wr = true → d.kind ≤ 1 → fmtFixed d.fmt = true → w % 8 = 0 → st ≤ vl →
      let pos := (x.stream o.d).pos
      let at_ (i : Nat) := d.elemAt (pos + (i - st)) w
      let word (i : Nat) : Nat := bitsOf (x.vreg o.b).bits (w * i) w
      pos + (vl - st) ≤ d.len → w * vl ≤ (x.vreg o.b).fill →
      (∀ i ∈ activeFrom x o, stays s (locateHere .store (at_ i).va (w / 8)) (f i) ∧ DSet (f i) ∧ (f i).locs.length = w / 8) →
      ((activeFrom x o).flatMap fun i => (f i).locs).Nodup →
      ∃ t y, exec (.vst o) s = .next t ∧ Ended t h x y 4 (reported x.vc (vl - st) (w * (activeFrom x o).length) 0 (w * (vl - st))) ∧
        queued x y ((activeFrom x o).flatMap fun i => (f i).locs.zip (bytesOf (word i) (w / 8))) ∧
        (y.stream o.d).pos = pos + (vl - st) ∧ y.v = x.v ∧ t.mem = s.mem) ∧
    (OnStream x o.d d → d.wr = true → d.kind ≤ 1 → fmtFixed d.fmt = true → w % 8 = 0 → x.ypend.getLsbD 63 = false →
      let pos := (x.stream o.d).pos
      let at_ (i : Nat) := d.elemAt (pos + (i - st)) w
      ∀ (k : Nat) (tr : TrapInfo), st ≤ k → k < vl → x.maskBit o.m.toNat k = true →
      pos + (k - st) < d.len → w * (k + 1) ≤ (x.vreg o.b).fill →
      (∀ i ∈ activeBelow x o k, stays s (locateHere .store (at_ i).va (w / 8)) (f i) ∧ DSet (f i) ∧ (f i).locs.length = w / 8) →
      ((activeBelow x o k).flatMap fun i => (f i).locs).Nodup →
      (locateHere .store (at_ k).va (w / 8)) s = .error (.trap tr) s → tr.cause = 0x08 →
      ∃ t y, exec (.vst o) s = .next t ∧
        Trapped t h x y k (reported x.vc (k - st) (w * (activeBelow x o k).length) 0 (w * (k - st))) 0x08 tr.eaddr
          (tr.einfo ||| 0x8000000000000000#64) ∧
        queued x y ((activeBelow x o k).flatMap fun i =>
          (f i).locs.zip (bytesOf (bitsOf (x.vreg o.b).bits (w * i) w) (w / 8))) ∧
        (y.stream o.d).pos = pos + (k - st) ∧ y.v = x.v ∧ t.mem = s.mem) ∧
    (OnStream x o.d d → d.wr = true → d.kind = 0 → d.fmt = 0x09 → st = 0 → o.m = 0 →
      let pos := (x.stream o.d).pos
      let fill := (x.vreg o.b).fill
      let total := 1 + (fill + 63) / 64
      let word (j : Nat) : Nat := if j = 0 then fill % 2 ^ 64 else bitsOf (x.vreg o.b).bits (64 * (j - 1)) 64
      pos + total ≤ d.len →
      (∀ j, j < total → stays s (locateHere .store (d.elemAt (pos + j) 64).va 8) (f j) ∧ DSet (f j) ∧ (f j).locs.length = 8) →
      ((List.range total).flatMap fun j => (f j).locs).Nodup →
      ∃ t y, exec (.vspill o) s = .next t ∧ Ended t h x y 4 (reported x.vc total (64 * total) 0 fill) ∧
        queued x y ((List.range total).flatMap fun j => (f j).locs.zip (bytesOf (word j) 8)) ∧
        (y.stream o.d).pos = pos + total ∧ y.v = x.v ∧ t.mem = s.mem) ∧
    (OnStream x o.a d → d.wr = false → d.kind = 0 → d.fmt = 0x09 → st = 0 →
      let pos := (x.stream o.a).pos
      let fill := bytesToNat (b 0)
      let total := 1 + (fill + 63) / 64
      pos + total ≤ d.len → fill ≤ registerBits l →
      (∀ j, j < total → stays s (loadBytes .cs (d.elemAt (pos + j) 64).va 8) (b j) ∧ bytesToNat (b j) < 2 ^ 64) →
      ∃ t y, exec (.vfill o) s = .next t ∧ findHart t h.gang h.hid = some y ∧ y.cs.pc = x.cs.pc + 4 ∧ y.viq = [] ∧
        y.vc.gn = BitVec.ofNat 64 total ∧ y.vc.vcont = 0 ∧ (y.vreg o.d).fill = fill ∧
        (∀ j, 0 < j → j < total → let n := min 64 (fill - 64 * (j - 1))
          bitsOf (y.vreg o.d).bits (64 * (j - 1)) n = bytesToNat (b j) % 2 ^ n) ∧
        (∀ r, r ≠ o.d → y.vreg r = x.vreg r) ∧ (y.stream o.a).pos = pos + total ∧ queued x y [] ∧ t.mem = s.mem)


/-- 14 R315, 07 R160: outside differentiable modes, an indexed load or store over a stream that admits it reaches, at each active
index, the element that its index vector names, in FB, read as a signed 64-bit number, of an n format unsigned (log 27); `mdone` marks the elements done
and `mfault` none. The stream does not move.

07 R160: where active elements of `vldx` or `vstx` lie on absent pages, every other active element is done, and the instruction
traps PGBATCH at the lowest that faults: `mdone` and `mfault`, the counts, the pages it reports.

14 R318, R319, 07 R162: element i of a column lies at BASE + (i mod 64) × pitch + (i div 64) × width. `vld2` reads a column in
the chamber window; `vstp` queues each active element both at its stream's next position and in the column of the second stream,
neither place on a DEV page. For stores D is set already. -/
def Obligations.IndexedAndColumnResults : Prop :=
  (∀ (s : State) (h : Here) (x : Hart) (l : Launch) (o : VOps) (d : Desc) (k_ : Nat → Nat × Nat) (b : Nat → List Byte)
       (f : Nat → Found), Starts s h x → h.sl = .cs → x.viq = [] → findLaunch s h.gang = some l →
     vfmtReserved x.vc.vfmt = false → intOrJxi (vfFB x.vc.vfmt) = true → x.tp.adjm = 0 → d.kind ≤ 1 → fmtFixed d.fmt = true →
     let w := fmtWidth d.fmt
     let vl := x.vc.vl.toNat
     let st := x.vc.vstart.toNat
     let va (i : Nat) : Nat :=
       (d.base + (patValue (vfFB x.vc.vfmt) 0 (k_ i).1).word * (if d.kind = 1 then d.stride else BitVec.ofNat 64 (w / 8))).toNat
     let lens := sumFrom st vl fun i => (k_ i).2
     8 ≤ w → st ≤ vl →
     ((x.stream o.a).adopted = some d → d.wr = false → w * vl ≤ destLimit x l → o.d ≠ o.b →
       (∀ i, i < vl → elem (vfFB x.vc.vfmt) (x.vreg o.b) i = some (k_ i)) →
       (∀ i ∈ activeFrom x o, stays s (loadBytes .cs (va i) (w / 8)) (b i)) →
       ∃ t y, exec (.vldx o) s = .next t ∧
         Ended t h x y 4 (reported x.vc (vl - st) (w * (activeFrom x o).length) (w * (vl - st)) lens) ∧
         elementsSet x y o.d w st vl (x.maskBit o.m.toNat) (fun i => bytesToNat (b i)) ∧
         (∀ i, y.mdone.testBit i = decide (i ∈ activeFrom x o)) ∧ y.mfault = 0 ∧
         y.stream o.a = x.stream o.a ∧ queued x y [] ∧ t.mem = s.mem) ∧
     ((x.stream o.d).adopted = some d → d.wr = true → w * vl ≤ (x.vreg o.b).fill →
       (∀ i, i < vl → elem (vfFB x.vc.vfmt) (x.vreg o.a) i = some (k_ i)) →
       (∀ i ∈ activeFrom x o, stays s (locateHere .store (va i) (w / 8)) (f i) ∧ DSet (f i) ∧ (f i).locs.length = w / 8) →
       ((activeFrom x o).flatMap fun i => (f i).locs).Nodup →
       ∃ t y, exec (.vstx o) s = .next t ∧
         Ended t h x y 4 (reported x.vc (vl - st) (w * (activeFrom x o).length) lens (w * (vl - st))) ∧
         queued x y ((activeFrom x o).flatMap fun i =>
           (f i).locs.zip (bytesOf (bitsOf (x.vreg o.b).bits (w * i) w) (w / 8))) ∧
         (∀ i, y.mdone.testBit i = decide (i ∈ activeFrom x o)) ∧ y.mfault = 0 ∧
         y.stream o.d = x.stream o.d ∧ y.v = x.v ∧ t.mem = s.mem) ∧
     (∀ (bad : List Nat) (e : Nat → TrapInfo), bad ≠ [] → bad = (activeFrom x o).filter (fun i => decide (i ∈ bad)) →
       x.ypend.getLsbD 63 = false →
       let k := bad.headD 0
       let good := (activeFrom x o).filter fun i => decide (i ∉ bad)
       let lensTo := sumFrom st k fun i => (k_ i).2
       ((x.stream o.a).adopted = some d → d.wr = false → w * vl ≤ destLimit x l → o.d ≠ o.b →
         (∀ i, i < vl → elem (vfFB x.vc.vfmt) (x.vreg o.b) i = some (k_ i)) →
         (∀ i ∈ good, stays s (loadBytes .cs (va i) (w / 8)) (b i)) →
         (∀ i ∈ bad, pageFaults s (loadBytes .cs (va i) (w / 8)) (va i) (w / 8) (e i)) →
         ∃ t y, exec (.vldx o) s = .next t ∧
           Batch s t h x y o bad e (reported x.vc (k - st) (w * (activeBelow x o k).length) (w * (k - st)) lensTo) ∧
           elementsSet x y o.d w st k (x.maskBit o.m.toNat) (fun i => bytesToNat (b i)) ∧ y.stream o.a = x.stream o.a ∧
           t.mem = s.mem) ∧
       ((x.stream o.d).adopted = some d → d.wr = true → w * vl ≤ (x.vreg o.b).fill →
         (∀ i, i < vl → elem (vfFB x.vc.vfmt) (x.vreg o.a) i = some (k_ i)) →
         (∀ i ∈ good, stays s (locateHere .store (va i) (w / 8)) (f i) ∧ DSet (f i) ∧ (f i).locs.length = w / 8) →
         (good.flatMap fun i => (f i).locs).Nodup →
         (∀ i ∈ bad, pageFaults s (locateHere .store (va i) (w / 8)) (va i) (w / 8) (e i)) →
         ∃ t y, exec (.vstx o) s = .next t ∧
           Batch s t h x y o bad e (reported x.vc (k - st) (w * (activeBelow x o k).length) lensTo (w * (k - st))) ∧
           queued x y (good.flatMap fun i => (f i).locs.zip (bytesOf (bitsOf (x.vreg o.b).bits (w * i) w) (w / 8))) ∧
           y.v = x.v ∧ y.stream o.d = x.stream o.d ∧ t.mem = s.mem))) ∧
  (∀ (s : State) (h : Here) (x : Hart) (l : Launch) (o : VOps) (p : RegField) (s2 : BitVec 4) (d d2 : Desc)
       (b : Nat → List Byte) (f g : Nat → Found), Starts s h x → h.sl = .cs → x.viq = [] → findLaunch s h.gang = some l →
     vfmtReserved x.vc.vfmt = false → x.tp.adjm = 0 → d.kind = 0 → fmtFixed d.fmt = true →
     let w := fmtWidth d.fmt
     let vl := x.vc.vl.toNat
     let st := x.vc.vstart.toNat
     let column (e : Desc) (i : Nat) : Nat :=
       (e.base + BitVec.ofNat 64 (i % 64) * x.getReg .cs p + BitVec.ofNat 64 (i / 64 * (w / 8))).toNat
     8 ≤ w → st ≤ vl →
     ((x.stream o.a).adopted = some d → d.wr = false → w * vl ≤ destLimit x l →
       (∀ i ∈ activeFrom x o, Config.chamberBase ≤ column d i ∧
         column d i + w / 8 ≤ Config.chamberBase + Config.chamberBytes ∧ stays s (loadBytes .cs (column d i) (w / 8)) (b i)) →
       ∃ t y, exec (.vld2 o p) s = .next t ∧
         Ended t h x y 8 (reported x.vc (vl - st) (w * (activeFrom x o).length) (w * (vl - st)) 0) ∧
         elementsSet x y o.d w st vl (x.maskBit o.m.toNat) (fun i => bytesToNat (b i)) ∧ queued x y [] ∧ t.mem = s.mem) ∧
     (OnStream x o.a d → (x.stream (s2.setWidth 5)).adopted = some d2 → d.wr = true → d2.wr = true → d2.kind = 0 →
       d2.fmt = d.fmt → w * vl ≤ (x.vreg o.b).fill → (x.stream o.a).pos + (vl - st) ≤ d.len →
       (∀ i ∈ activeFrom x o, stays s (locateHere .store (d.elemAt ((x.stream o.a).pos + (i - st)) w).va (w / 8)) (f i) ∧
         stays s (locateHere .store (column d2 i) (w / 8)) (g i) ∧ (f i).dev = false ∧ (g i).dev = false ∧ DSet (f i) ∧ DSet (g i) ∧
         (f i).locs.length = w / 8 ∧ (g i).locs.length = w / 8) →
       ((activeFrom x o).flatMap fun i => (f i).locs ++ (g i).locs).Nodup →
       ∃ t y, exec (.vstp o p s2) s = .next t ∧
         Ended t h x y 8 (reported x.vc (vl - st) (2 * w * (activeFrom x o).length) 0 (w * (vl - st))) ∧
         queued x y ((activeFrom x o).flatMap fun i =>
           let e := bytesOf (bitsOf (x.vreg o.b).bits (w * i) w) (w / 8)
           (f i).locs.zip e ++ (g i).locs.zip e) ∧
         (y.stream o.a).pos = (x.stream o.a).pos + (vl - st) ∧ y.v = x.v ∧ t.mem = s.mem))

noncomputable section

namespace Sys2Proof.Claims

/-- The memory formats of integer vector atomics, and the update of an old pattern by x at w bits (14 R320). -/
def atomicRows : List ((VOps → Instr) × (Fmt → Bool) × (Fmt → Nat → Nat → Nat)) :=
  let int (f : Fmt) : Bool := [0x04, 0x05, 0x08, 0x09].contains f
  let num (f : Fmt) (v : Nat) : Int := if f ≤ 0x05 then (BitVec.ofNat (fmtWidth f) v).toInt else (v : Int)
  [(.vamoadd, int, fun f old x => (old + x) % 2 ^ fmtWidth f),
   (.vamomin, int, fun f old x => if num f old ≤ num f x then old else x),
   (.vamomax, int, fun f old x => if num f old ≤ num f x then x else old),
   (.vamoand, int, fun _ old x => old &&& x), (.vamoor, int, fun _ old x => old ||| x),
   (.vamoxor, int, fun _ old x => old ^^^ x), (.vamoswp, int, fun _ _ x => x),
   (.vfamoadd, (· == 0x0D), fun _ old x => roundF f32Fmt 0 (fAdd 0 (decodeF f32Fmt old) (decodeF f32Fmt x)))]

/-- Memory with the number at a place replaced by f of it. -/
def updateAt (m : Memory) (locs : List Nat) (f : Nat → Nat) : Memory :=
  memWriteAll m (locs.zip (bytesOf (f (bytesToNat (locs.map (memRead m)))) locs.length))

end Sys2Proof.Claims

end

/-- 14 R320, R321: outside differentiable modes and with no CS store pending, a vector atomic over a stream of a format it admits
updates, index by index from the start, the element that vd names, in FD, read as a signed 64-bit number, of an n format unsigned
(log 27), by the operand, in FB, converted to the stream's format: one update at its home each, none of them on a DEV page. No register of the
files changes. D is set in the pages' leaves already. -/
def Obligations.VectorAtomicResults : Prop :=
  ∀ (s : State) (h : Here) (x : Hart) (o : VOps) (d : Desc) (k : Nat → Nat × Nat) (V : Nat → Opnd) (f : Nat → Found),
    Starts s h x → h.sl = .cs → x.viq = [] → x.cbuf = [] → vfmtReserved x.vc.vfmt = false →
    intOrJxi (vfFD x.vc.vfmt) = true → x.tp.adjm = 0 → (x.stream o.a).adopted = some d → d.kind ≤ 1 →
    let w := fmtWidth d.fmt
    let vl := x.vc.vl.toNat
    let st := x.vc.vstart.toNat
    let va (i : Nat) : Nat :=
      (d.base + (patValue (vfFD x.vc.vfmt) 0 (k i).1).word * (if d.kind = 1 then d.stride else BitVec.ofNat 64 (w / 8))).toNat
    st ≤ vl → (∀ i, i < vl → elem (vfFD x.vc.vfmt) (x.vreg o.d) i = some (k i) ∧ bOpnd x o i = some (V i)) →
    (∀ i ∈ activeFrom x o, (o.bs = false → patReserved (vfFB x.vc.vfmt) (V i).pat (V i).len = false) ∧
      stays s (locateHere .atomic (va i) (w / 8)) (f i) ∧ DSet (f i) ∧ (f i).dev = false ∧ (f i).locs.length = w / 8 ∧
      ∀ c ∈ (f i).locs, poisoned s c = false) →
    ∀ row ∈ atomicRows, row.2.1 d.fmt = true →
      ∃ t y, exec (row.1 o) s = .next t ∧
        Ended t h x y 4 (reported x.vc (vl - st) (w * (activeFrom x o).length) (sumFrom st vl fun i => (k i).2)
          (sumFrom st vl fun i => (V i).len)) ∧
        y.v = x.v ∧ y.mfault = 0 ∧
        t.mem = (activeFrom x o).foldl (fun m i => updateAt m (f i).locs fun old =>
          row.2.2 d.fmt old (convert (V i).val d.fmt (vfRM x.vc.vfmt) (vfSAT x.vc.vfmt))) s.mem

/-- 14 R322 to R325, 08 R181: `wopen` with room opens its window over zeroed blocks; `wadd` and `wfadd`, here at one active
index, update one lane copy of a cell; `wmerge` folds the 64 lane copies of each cell into the region's adjoint cell and clears
them; `wclose` performs the AS's pending stores and gives the window's blocks up, and does nothing when it is not open. Stated
with no CS store pending, and with D set in the pages' leaves. That `wclose` performs those stores first is the model's reading
(log 117). -/
def Obligations.WindowResults : Prop :=
  ∀ (s : State) (h : Here) (x : Hart) (g : Gang) (o : VOps), Starts s h x → h.sl = .cs → x.viq = [] → x.cbuf = [] →
    findGang s h.gang = some g → vfmtReserved x.vc.vfmt = false → x.tp.adjm = 0 →
    let b := (scalarOf x o).toNat
    let core := (g.die * 32 + g.gallery) * 16 + x.core
    let first := b / 2 ^ 8 % 8
    let cells := b / 2 ^ 16 % 2 ^ 10 + 1
    let n := (cells + 255) / 256
    (scalarOf x o &&& ~~~(0x3FF870F#64) = 0 → first + n ≤ 8 → (∀ c ∈ x.tcm, c.1 < first ∨ first + n ≤ c.1) →
      x.window (b % 16) = none → n ≤ ((List.range 8).filter fun p => !(tcmTaken s core).contains p).length → g.holds = true →
      ∃ t y, exec (.wopen o) s = .next t ∧ Ended t h x y 4 (reported x.vc 0 0 0 0) ∧
        y.window (b % 16) = some { first := first, cells := cells, isInt := (scalarOf x o).getLsbD 15 } ∧
        (∀ k, k ≠ b % 16 → y.window k = x.window k) ∧
        ∀ j, first ≤ j → j < first + n → ∃ p, assoc j y.tcm = some p ∧ p < 8 ∧ p ∉ tcmTaken s core ∧
          ∀ c, c < Config.tcmBlock → memRead t.mem (tcmLoc core (p * Config.tcmBlock + c)) = 0) ∧
    (x.window o.a.toNat = none →
      ∃ t y, exec (.wclose o) s = .next t ∧ Ended t h x y 4 (reported x.vc 0 0 0 0) ∧ y.tcm = x.tcm ∧
        y.windows = x.windows ∧ t.mem = s.mem) ∧
    (∀ w, x.window o.a.toNat = some w → Sendable x .as →
      ∃ t y, exec (.wclose o) s = .next t ∧ Ended t h x y 4 (reported x.vc 0 0 0 0) ∧ y.window o.a.toNat = none ∧
        y.abuf = [] ∧ t.mem = performed s.mem x.abuf ∧ y.tcm = x.tcm.filter fun c => decide (c.1 < w.first ∨ w.first + (w.cells + 255) / 256 ≤ c.1)) ∧
    (∀ (w : Window) (C V : Opnd) (c : Nat) (f : Found) (float : Bool), x.window o.a.toNat = some w → w.isInt = !float →
      x.vc.vl = 1 → x.vc.vstart = 0 → x.maskBit o.m.toNat 0 = true →
      vecOpnd (vfFD x.vc.vfmt) x.vc.vfmt (x.vreg o.d) 0 = some C → patReserved (vfFD x.vc.vfmt) C.pat C.len = false →
      bOpnd x o 0 = some V → (o.bs = false → patReserved (vfFB x.vc.vfmt) V.pat V.len = false) →
      C.val = .int (c : Int) → c < w.cells → c < 2 ^ 63 →
      stays s (locateHere .store (Config.tcmBase + w.first * Config.tcmBlock + 256 * c) 4) f → DSet f → f.locs.length = 4 →
      (∀ k ∈ f.locs, poisoned s k = false) →
      ∃ t y, exec (if float then .wfadd o else .wadd o) s = .next t ∧
        Ended t h x y 4 (reported x.vc 1 0 C.len V.len) ∧ y.v = x.v ∧
        t.mem = updateAt s.mem f.locs fun old =>
          if float then
            roundF f32Fmt 0 (fAdd 0 (decodeF f32Fmt old) (rounded (precision [vfFB x.vc.vfmt]) (vfRM x.vc.vfmt) V.val.toF))
          else (old + convert V.val 0x04 (vfRM x.vc.vfmt) (vfSAT x.vc.vfmt)) % 2 ^ 32) ∧
    (∀ (w : Window) (t : List Region) (r : Region) (rows places : Nat → Found), x.window o.a.toNat = some w →
      x.tp.table = some t → t[o.a.toNat]? = some r → r.valid = true → r.acc = 1 → x.vc.vstart = 0 → x.abuf = [] →
      (∀ c, c < w.cells →
        stays s (locateHere .load (Config.tcmBase + w.first * Config.tcmBlock + 256 * c) 256) (rows c) ∧
        stays s (locateHere .atomic (r.adjbase.toNat + 4 * (r.wfirst + c)) 4) (places c) ∧ DSet (places c) ∧
        (rows c).locs.length = 256 ∧ (places c).locs.length = 4 ∧
        (∀ k ∈ (rows c).locs, poisoned s k = false) ∧ ∀ k ∈ (places c).locs, poisoned s k = false) →
      let lane (m : Memory) (c j : Nat) : Nat :=
        bytesToNat (((rows c).locs.drop (4 * j)).take 4 |>.map (memRead m))
      ∃ u y, exec (.wmerge o) s = .next u ∧ Ended u h x y 4 (reported x.vc w.cells 0 0 0) ∧ y.v = x.v ∧
        u.mem = (List.range w.cells).foldl (fun m c =>
          memWriteAll (updateAt m (places c).locs fun old => (List.range 64).foldl (fun t j =>
              if w.isInt then (t + lane m c j) % 2 ^ 32
              else roundF f32Fmt 0 (fAdd 0 (decodeF f32Fmt t) (decodeF f32Fmt (lane m c j)))) old)
            ((rows c).locs.zip (List.replicate 256 0#8))) s.mem)

/-! ### Accesses that touch a differentiable region (08 R171, R172, R175 to R180) -/

noncomputable section

namespace Sys2Proof.Claims

/-- 14 R302: a load of n bytes from a + off into d, in an instruction of len bytes. -/
def isLoad (i : Instr) (d a : RegField) (n : Nat) (signed acq atHome : Bool) (off : Word) (len : Nat) : Prop :=
  (∃ p ∈ loadRows, n = p.2.2.1 ∧ signed = p.2.2.2 ∧ acq = false ∧ atHome = false ∧
    ((∃ k : BitVec 12, i = p.1 d a k ∧ off = k.signExtend 64 ∧ len = 4) ∨
     (∃ k : BitVec 37, i = p.2.1 d a k ∧ off = k.signExtend 64 ∧ len = 8))) ∨
  (∃ (sc : BitVec 3) (k : BitVec 9), sc.toNat ≤ 5 ∧ i = .ldAcq d a sc k ∧ n = 8 ∧ signed = true ∧ acq = true ∧
    atHome = decide (4 ≤ sc.toNat) ∧ off = BitVec.ofInt 64 (8 * k.toInt) ∧ len = 4) ∨
  (∃ k : BitVec 5, i = .cLd d k ∧ a = 30 ∧ n = 8 ∧ signed = true ∧ acq = false ∧ atHome = false ∧
    off = BitVec.ofNat 64 (8 * k.toNat) ∧ len = 2)

/-- 14 R302: a store of the low n bytes of b to a + off. -/
def isStore (i : Instr) (a b : RegField) (n : Nat) (rel : Bool) (off : Word) (len : Nat) : Prop :=
  (∃ p ∈ storeRows, n = p.2.2 ∧ rel = false ∧
    ((∃ k : BitVec 12, i = p.1 a b k ∧ off = k.signExtend 64 ∧ len = 4) ∨
     (∃ k : BitVec 37, i = p.2.1 a b k ∧ off = k.signExtend 64 ∧ len = 8))) ∨
  (∃ (sc : BitVec 3) (k : BitVec 9), sc.toNat ≤ 5 ∧ i = .sdRel a b sc k ∧ n = 8 ∧ rel = true ∧
    off = BitVec.ofInt 64 (8 * k.toInt) ∧ len = 4) ∨
  (∃ k : BitVec 5, i = .cSd b k ∧ a = 30 ∧ n = 8 ∧ rel = false ∧ off = BitVec.ofNat 64 (8 * k.toNat) ∧ len = 2)

/-- 08 R171: an access of n bytes has the width of region r's elements and lies in its primal range. -/
def fits (r : Region) (va n : Nat) : Prop := n = r.size ∧ r.pbase.toNat ≤ va ∧ va + n ≤ r.pbase.toNat + r.len * r.size

/-- 08 R175: the record of n overwritten bytes of region i, and its size. -/
def recordOf (va n i : Nat) (old : List Byte) : List Byte :=
  natToBytes va 8 ++ natToBytes (n + i * 2 ^ 32) 8 ++ old ++ List.replicate ((8 - n % 8) % 8) 0
def recordLen (n : Nat) : Nat := 16 + 8 * ((n + 7) / 8)

/-- 08 R178, 14 R323: where the adjoint of element k of region r is accumulated from a lane: the cell, or the lane's copy in the
open window of the region; none where there is no such copy. -/
def adjointPlace (x : Hart) (i : Nat) (r : Region) (k lane : Nat) : Option (Acc × Nat) :=
  if r.ctl.toNat / 2 ^ 60 % 4 = 0 then some (.atomic, r.adjbase.toNat + 4 * k) else
  match (x.windows.find? fun w => w.1 == i).map (·.2) with
  | some w =>
    let c := k - r.win.toNat % 2 ^ 48
    if r.win.toNat % 2 ^ 48 ≤ k ∧ c < w.cells then some (.store, Config.tcmBase + w.first * 65536 + 256 * c + 4 * lane) else none
  | none => none

/-- The f32 sum, rounded to nearest even (08 R178). -/
def sumF32 (x y : Nat) : Nat := roundF f32Fmt 0 (fAdd 0 (decodeF f32Fmt x) (decodeF f32Fmt y))

end Sys2Proof.Claims

end

/-- 08 R169, R171, R172, R175, R176, R178 to R180: an access of the AS that touches a differentiable region while the mode is fwd
or rev. One of another width than the region's elements, or across its boundary, traps PROT. In forward mode a load is ordinary,
and a store to a taped region first pushes a record of the bytes it overwrites, or traps TAPEFULL with nothing done. In reverse
mode a load adds the low 32 bits of its destination to the element's adjoint, leaving the destination as it is, or traps WINRANGE;
a store pops the record of its run, gives its source the cell, clears the cell and restores the primal bytes, or traps TAPEMIS
where the record is not that of the run.

Four clauses are the model's readings: a record may not begin below `tapeb` (log 24); `eaddr` of an element that straddles a
boundary is its first byte (log 23); a record is performed at its home at once, after the AS's older stores (log 115); the AS's
pending stores are performed before an addition to a cell (log 116).

08 R176, R178: of the CS, a vector store of one run to a taped region pushes one record for it and its stores are queued; a vector
load of one element in reverse mode adds its f32 to the element's cell and writes no register. -/
def Obligations.RegionResults : Prop :=
  (∀ (x : Hart) (tab : List Region) (va n k : Nat) (r : Region), x.tp.table = some tab →
     (x.tp.adjm = 0 → x.touches va n = none) ∧
     (x.tp.adjm ≠ 0 → (x.touches va n = some (k, r) ↔
       tab[k]? = some r ∧ r.ctl.getLsbD 63 = true ∧ va < r.pbase.toNat + r.len * r.size ∧ r.pbase.toNat < va + n ∧
       ∀ j q, j < k → tab[j]? = some q →
         ¬ (q.ctl.getLsbD 63 = true ∧ va < q.pbase.toNat + q.len * q.size ∧ q.pbase.toNat < va + n)))) ∧
  (∀ (s s1 : State) (h : Here) (x x1 : Hart) (i : Instr) (d a : RegField) (n : Nat) (signed acq atHome : Bool) (off : Word)
      (len k : Nat) (r : Region) (f : Found), isLoad i d a n signed acq atHome off len →
     Runs s h x → h.sl = .as → Runs s1 h x1 →
     let va := (x.getReg .as a + off).toNat
     let e := (va - r.pbase.toNat) / r.size
     let prot := takeTrap s1 h.gang h.hid .as none { cause := 0x0A, eaddr := BitVec.ofNat 64 va, einfo := 0 }
     x.touches va n = some (k, r) →
     (x.tp.adjm = 1 → (scalarLocate .load va n acq) s = .ok f s1 →
       (¬ fits r va n → exec i s = .next prot) ∧
       (fits r va n → ∀ bytes s2 x2, scalarLoad va n acq atHome s1 = .ok bytes s2 → Runs s2 h x2 →
         exec i s = .next (goOn s2 h (x2.as_.pc + BitVec.ofNat 64 len) fun y => y.setReg .as d (loaded n signed bytes)))) ∧
     (x.tp.adjm = 2 → (locateHere .load va n) s = .ok f s1 →
       (¬ fits r va n → exec i s = .next prot) ∧
       (fits r va n → f.dev = false →
         (adjointPlace x1 k r e 0 = none → exec i s =
           .next (takeTrap s1 h.gang h.hid .as none { cause := 0x1C, eaddr := BitVec.ofNat 64 va, einfo := 0 })) ∧
         ∀ acc cell l s2 x2 old, adjointPlace x1 k r e 0 = some (acc, cell) → (locateHere acc cell 4) s1 = .ok l s2 → Runs s2 h x2 →
           Sendable x2 .as → l.locs.length = 4 → readLocs [] l.locs cell (drained s2 h .as) = .ok old (drained s2 h .as) →
           exec i s = .next (goOn (homeWrite (dirtied (drained s2 h .as) l) l.locs
               (natToBytes (sumF32 (bytesToNat old) ((x1.getReg .as d).toNat % 2 ^ 32)) 4))
             h (x2.as_.pc + BitVec.ofNat 64 len) id)))) ∧
  (∀ (s s1 : State) (h : Here) (x x1 : Hart) (i : Instr) (a b : RegField) (n : Nat) (rel : Bool) (off : Word) (len k : Nat)
      (r : Region) (f0 : Found), isStore i a b n rel off len → Runs s h x → h.sl = .as → Runs s1 h x1 →
     let va := (x.getReg .as a + off).toNat
     let e := (va - r.pbase.toNat) / r.size
     let size := recordLen n
     let top := x1.tp.tapeh.toNat
     let bytes := storedBytes (x.getReg .as b) n
     let traps (t : State) (cause : BitVec 8) (info : Word) : State :=
       takeTrap t h.gang h.hid .as none { cause := cause, eaddr := BitVec.ofNat 64 va, einfo := info }
     x.touches va n = some (k, r) → (scalarLocate .store va n (rel && x.tp.adjm != 2)) s = .ok f0 s1 →
     (x.tp.adjm ≠ 0 → ¬ fits r va n → exec i s = .next (traps s1 0x0A 1)) ∧
     (x.tp.adjm = 1 → fits r va n →
       (r.ctl.getLsbD 62 = false → ∀ f s2 x2, (scalarLocate .store va n rel) s1 = .ok f s2 → Runs s2 h x2 →
         exec i s = .next (goOn (dirtied s2 f) h (x2.as_.pc + BitVec.ofNat 64 len) fun y =>
           withStore y (storeOf s2 f bytes y.seq))) ∧
       (r.ctl.getLsbD 62 = true →
         (x1.tp.tapel.toNat < top + size → exec i s = .next (traps s1 0x14 0)) ∧
         (top + size ≤ x1.tp.tapel.toNat → ∀ f s2 c s3 x3 old, (locateHere .store va n) s1 = .ok f s2 →
           (locateHere .store top size) s2 = .ok c s3 → Runs s3 h x3 → Sendable x3 .as →
           readLocs [] f.locs va (drained s3 h .as) = .ok old (drained s3 h .as) →
           exec i s = .next (goOn (dirtied (homeWrite (dirtied (drained s3 h .as) c) c.locs (recordOf va n k old)) f) h
             (x3.as_.pc + BitVec.ofNat 64 len) fun y =>
               { withStore y (storeOf s3 f bytes y.seq) with tp := { y.tp with tapeh := BitVec.ofNat 64 (top + size) } })))) ∧
     (x.tp.adjm = 2 → fits r va n →
       (top = x1.tp.tapeb.toNat ∨ top < x1.tp.tapeb.toNat + size → exec i s = .next (traps s1 0x15 0)) ∧
       (x1.tp.tapeb.toNat + size ≤ top → ∀ c s0 s2 record, (locateHere .load (top - size) size) s1 = .ok c s0 →
         readFound .as c (top - size) s0 = .ok record s2 →
         let same := bytesToNat (record.take 8) = va ∧ bytesToNat ((record.drop 8).take 4) = n
         (¬ same → exec i s = .next (traps s2 0x15 0)) ∧
         (same → ∀ g0 s3 g s4 f s5 s6 x6 old, (locateHere .load (r.adjbase.toNat + 4 * e) 4) s2 = .ok g0 s3 →
           (locateHere .store (r.adjbase.toNat + 4 * e) 4) s3 = .ok g s4 → (locateHere .store va n) s4 = .ok f s5 →
           readFound .as g (r.adjbase.toNat + 4 * e) s5 = .ok old s6 → Runs s6 h x6 → old.length = 4 →
           exec i s = .next (goOn (dirtied (dirtied s6 g) f) h (x6.as_.pc + BitVec.ofNat 64 len) fun y =>
             ({ withStore (withStore y (storeOf s6 g [0, 0, 0, 0] y.seq)) (storeOf s6 f ((record.drop 16).take n) y.seq) with
               tp := { y.tp with tapeh := BitVec.ofNat 64 (top - size) } } : Hart).setReg .as b (BitVec.ofNat 64 (bytesToNat old))))))) ∧
  (∀ (s : State) (h : Here) (x : Hart) (l : Launch) (o : VOps) (d : Desc) (k : Nat) (r : Region) (f c : Found) (old : List Byte),
     Starts s h x → h.sl = .cs → x.viq = [] → findLaunch s h.gang = some l → vfmtReserved x.vc.vfmt = false → x.vc.vstart = 0 →
     o.m = 0 →
     let w := fmtWidth d.fmt
     let vl := x.vc.vl.toNat
     (OnStream x o.d d → d.wr = true → d.kind = 0 → fmtFixed d.fmt = true → d.fmt = r.fmt → 0 < vl → vl ≤ 64 → x.tp.adjm = 1 →
       r.ctl.getLsbD 62 = true →
       let pos := (x.stream o.d).pos
       let va := (d.elemAt pos w).va
       let n := vl * w / 8
       let top := x.tp.tapeh.toNat
       pos + vl ≤ d.len → w * vl ≤ (x.vreg o.b).fill → top + recordLen n ≤ x.tp.tapel.toNat →
       (∀ j, j < vl → x.region (d.elemAt (pos + j) w).va (w / 8) = some (k, r) ∧ fits r (d.elemAt (pos + j) w).va (w / 8)) →
       stays s (locateHere .store va n) f → stays s (locateHere .store top (recordLen n)) c → DSet f → DSet c →
       stays s (readLocs x.cbuf f.locs va) old → f.locs.length = n → f.locs.Nodup →
       (∀ p ∈ x.cbuf, ∀ b ∈ p.cells, b.1 ∉ c.locs) →
       ∃ t y, exec (.vst o) s = .next t ∧ Ended t h x y 4 (reported x.vc vl (w * vl) 0 (w * vl)) ∧
         y.tp = { x.tp with tapeh := BitVec.ofNat 64 (top + recordLen n) } ∧
         queued x y (f.locs.zip (bytesOf (bitsOf (x.vreg o.b).bits 0 (w * vl)) n)) ∧ y.v = x.v ∧
         (y.stream o.d).pos = pos + vl ∧ t.mem = (homeWrite s c.locs (recordOf va n k old)).mem) ∧
     (OnStream x o.a d → d.wr = false → d.kind = 0 → fmtFixed d.fmt = true → d.fmt = r.fmt → vl = 1 → x.tp.adjm = 2 →
       let pos := (x.stream o.a).pos
       let va := (d.elemAt pos w).va
       let cell := r.adjbase.toNat + 4 * ((va - r.pbase.toNat) / r.size)
       pos < d.len → 32 ≤ (x.vreg o.d).fill → x.region va (w / 8) = some (k, r) → fits r va (w / 8) → r.acc = 0 →
       stays s (locateHere .load va (w / 8)) f → stays s (locateHere .atomic cell 4) c → DSet c → c.locs.length = 4 →
       (∀ p ∈ x.cbuf, ∀ b ∈ p.cells, b.1 ∉ c.locs) → stays s (readLocs [] c.locs cell) old →
       ∃ t y, exec (.vld o) s = .next t ∧ Ended t h x y 4 (reported x.vc 1 0 w 0) ∧ y.v = x.v ∧ queued x y [] ∧
         (y.stream o.a).pos = pos + 1 ∧
         t.mem = (homeWrite s c.locs (natToBytes (sumF32 (bytesToNat old) (bitsOf (x.vreg o.d).bits 0 32)) 4)).mem))

/-! ### The matrix unit (05 R116, 15 R328 to R335) -/

noncomputable section

namespace Sys2Proof.Claims

/-- Cell (r, c) of tile t. -/
def cellOf (x : Hart) (t r c : Nat) : Nat := (x.z[t % 4]'(Nat.mod_lt _ (by decide))) / 2 ^ (32 * (64 * r + c)) % 2 ^ 32

/-- The hart with tile t replaced. -/
def withTile (x : Hart) (t z : Nat) : Hart := { x with z := x.z.set (t % 4) z (Nat.mod_lt _ (by decide)) }

/-- Element k of a register in a fixed format. -/
def fixedElem (x : Hart) (r : BitVec 5) (f : Fmt) (k : Nat) : Val :=
  decodeFixed f (bitsOf (x.vreg r).bits (fmtWidth f * k) (fmtWidth f))

/-- 15 R330: cell + a × b, as integers modulo 2^32 or as f32 with one rounding. -/
def multiplied (fa fb : Fmt) (cell : Nat) (a b : Val) : Nat :=
  if fmtFloat fa || fmtFloat fb then roundF f32Fmt 0 (fAdd 0 (decodeF f32Fmt cell) (fMul a.toF b.toF))
  else match a, b with
    | .int m, .int n => (((cell : Int) + m * n) % 2 ^ 32).toNat
    | _, _ => cell

/-- 15 R333: cell + v. -/
def addedTo (cell : Nat) (v : Val) : Nat :=
  match v with
  | .int n => (((cell : Int) + n) % 2 ^ 32).toNat
  | .real y => roundF f32Fmt 0 (fAdd 0 (decodeF f32Fmt cell) y)

/-- 15 R330: formats of `zmma` and `zop`. -/
def tileFmt (f : Fmt) : Bool := [0x00, 0x01, 0x02, 0x06, 0x0A, 0x0B, 0x0C, 0x0D].contains f

end Sys2Proof.Claims

end


/-- 15 R329 to R334: with live tiles and the vector queue empty, `zzero` clears a tile; `zop` adds one outer product of the first zl
elements; `zmma` adds one for every zl elements below `vl`; `zacc` adds elements to cells row by row; `zdr` moves cells into the
elements of a register, at most NROW rows of them, and `vcont` tells where that leaves it below `vl` (R259). Masked-off rows and
elements, and every other cell, stay.

15 R335: from `zrow` on, `zld` fills the first zl cells of each row of a tile from memory, and `zst` queues them, one row each
`b` bytes; neither reaches a DEV page or a region. `zrow` is then 0. -/
def Obligations.MatrixResults : Prop :=
  (∀ (s : State) (h : Here) (x : Hart) (l : Launch) (o : VOps), Starts s h x → h.sl = .cs → x.viq = [] → x.zlive = true →
     findLaunch s h.gang = some l → vfmtReserved x.vc.vfmt = false → 0 < x.zl.toNat → x.zl.toNat ≤ 64 →
     let fa := vfFA x.vc.vfmt
     let fb := vfFB x.vc.vfmt
     let fd := vfFD x.vc.vfmt
     let zl := x.zl.toNat
     let vl := x.vc.vl.toNat
     let st := x.vc.vstart.toNat
     let d := o.d.toNat
     let act := x.maskBit o.m.toNat
     exec (.zzero o) s = .next (completed s h .matrix x { withTile x d 0 with vc := reported x.vc 0 0 0 0 }) ∧
     (tileFmt fa = true → tileFmt fb = true → fmtWidth fa * zl ≤ (x.vreg o.a).fill → fmtWidth fb * zl ≤ (x.vreg o.b).fill →
       ∃ z, exec (.zop o) s = .next (completed s h .matrix x { withTile x d z with
           vc := reported x.vc zl 0 (zl * fmtWidth fa) (zl * fmtWidth fb) }) ∧
         ∀ r c, r < 64 → c < 64 → cellOf (withTile x d z) d r c =
           if r < zl ∧ c < zl ∧ act r = true then
             multiplied fa fb (cellOf x d r c) (fixedElem x o.a fa r) (fixedElem x o.b fb c)
           else cellOf x d r c) ∧
     (tileFmt fa = true → tileFmt fb = true → vl % zl = 0 → st % zl = 0 → st ≤ vl → fmtWidth fa * vl ≤ (x.vreg o.a).fill →
       fmtWidth fb * vl ≤ (x.vreg o.b).fill →
       ∃ z, exec (.zmma o) s = .next (completed s h .matrix x { withTile x d z with
           vc := reported x.vc (vl - st) 0 ((vl - st) * fmtWidth fa) ((vl - st) * fmtWidth fb) }) ∧
         ∀ r c, r < 64 → c < 64 → cellOf (withTile x d z) d r c =
           if r < zl ∧ c < zl then
             ((List.range (vl / zl)).filter fun k => decide (st / zl ≤ k) && act (zl * k + r)).foldl
               (fun t k => multiplied fa fb t (fixedElem x o.a fa (zl * k + r)) (fixedElem x o.b fb (zl * k + c)))
               (cellOf x d r c)
           else cellOf x d r c) ∧
     (let row := (scalarOf x o).toNat % 64
      fmtFixed fa = true → fmtB1 fa = false → st ≤ vl → row * zl + vl ≤ 64 * zl → fmtWidth fa * vl ≤ (x.vreg o.a).fill →
       ∃ z, exec (.zacc o) s = .next (completed s h .matrix x { withTile x d z with
           vc := reported x.vc (vl - st) 0 ((vl - st) * fmtWidth fa) 0 }) ∧
         ∀ r c, r < 64 → c < 64 → cellOf (withTile x d z) d r c =
           (let i := (r - row) * zl + c
            if row ≤ r ∧ c < zl ∧ st ≤ i ∧ i < vl ∧ act i = true then addedTo (cellOf x d r c) (fixedElem x o.a fa i)
            else cellOf x d r c)) ∧
     (let b := (scalarOf x o).toNat
      let n := min vl (b / 2 ^ 8 % 2 ^ 7 * zl)
      let cell (i : Nat) : Nat := cellOf x o.a.toNat (b % 64 + i / zl) (i % zl)
      let out (i : Nat) : Nat × Nat :=
        if b / 2 ^ 16 % 2 = 1 then encodeTo x.vc.vfmt fd (.real (decodeF f32Fmt (cell i)))
        else encodeIntTo x.vc.vfmt fd (BitVec.ofNat 32 (cell i)).toInt
      let cut (c : VCtl) : VCtl := if n < vl then { c with vcont := BitVec.ofNat 64 n } else c
      fmtB1 fd = false → st ≤ n → b % 64 * zl + n ≤ 64 * zl →
       (fmtFixed fd = true → fmtWidth fd * n ≤ destLimit x l →
         ∃ v : VReg, exec (.zdr o) s = .next (completed s h .matrix x { x.setVreg o.d v with
             vc := cut (reported x.vc (n - st) (sumFrom st n fun i => if act i then fmtWidth fd else 0) (32 * (n - st)) 0) }) ∧
           elementsSet x (x.setVreg o.d v) o.d (fmtWidth fd) st n act fun i => (out i).1) ∧
       (fmtCode fd = true → st = 0 →
         let res (i : Nat) : Nat × Nat := if act i then out i else (0, zeroCodeLen fd)
         lensBelow res n ≤ destLimit x l →
         ∃ v : VReg, exec (.zdr o) s = .next (completed s h .matrix x { x.setVreg o.d v with
             vc := cut (reported x.vc n (lensBelow res n) (32 * n) 0) }) ∧
           v.fill = lensBelow res n ∧ ∀ i, i < n → bitsOf v.bits (lensBelow res i) (res i).2 = (res i).1 % 2 ^ (res i).2))) ∧
  (∀ (s : State) (h : Here) (x : Hart) (a b : RegField) (tile : BitVec 2) (frow nrow : BitVec 6) (f : Nat → Found)
       (bytes : Nat → List Byte), Starts s h x → h.sl = .cs → x.viq = [] → x.zlive = true → vfmtReserved x.vc.vfmt = false →
     let zl := x.zl.toNat
     let n := nrow.toNat + 1
     let st := x.zrow.toNat
     let va (j : Nat) : Nat := (x.getReg .cs a + BitVec.ofNat 64 j * x.getReg .cs b).toNat
     0 < zl → zl ≤ 64 → st ≤ n → frow.toNat + n ≤ 64 → x.tp.adjm = 0 → (x.getReg .cs a).toNat % 4 = 0 →
     (x.getReg .cs b).toNat % 4 = 0 →
     ((∀ j, st ≤ j → j < n → stays s (locateHere .load (va j) (4 * zl)) (f j) ∧ (f j).dev = false ∧
         stays s (readLocs x.cbuf (f j).locs (va j)) (bytes j)) →
       ∃ t y, exec (.zld a b tile frow nrow) s = .next t ∧
         Ended t h x y 8 (reported x.vc (n - st) 0 (32 * zl * (n - st)) 0) ∧ y.zrow = 0 ∧ y.v = x.v ∧ queued x y [] ∧
         t.mem = s.mem ∧
         ∀ k r c, k < 4 → r < 64 → c < 64 → cellOf y k r c =
           if k = tile.toNat ∧ frow.toNat + st ≤ r ∧ r < frow.toNat + n ∧ c < zl then
             bytesToNat (((bytes (r - frow.toNat)).drop (4 * c)).take 4) % 2 ^ 32
           else cellOf x k r c) ∧
     ((∀ j, st ≤ j → j < n → stays s (locateHere .store (va j) (4 * zl)) (f j) ∧ DSet (f j) ∧ (f j).dev = false ∧
         (f j).locs.length = 4 * zl) →
       (((List.range n).filter fun j => decide (st ≤ j)).flatMap fun j => (f j).locs).Nodup →
       ∃ t y, exec (.zst a b tile frow nrow) s = .next t ∧
         Ended t h x y 8 (reported x.vc (n - st) (32 * zl * (n - st)) 0 0) ∧ y.zrow = 0 ∧ y.v = x.v ∧ y.z = x.z ∧
         t.mem = s.mem ∧
         queued x y (((List.range n).filter fun j => decide (st ≤ j)).flatMap fun j =>
           (f j).locs.zip ((List.range zl).flatMap fun c => bytesOf (cellOf x tile.toNat (frow.toNat + j) c) 4))))

/-! ### Near-bank programs (15 R350 to R354, 01 R25) -/

namespace Sys2Proof.Claims

/-- 15 R351: the instructions of near-bank programs. -/
def isNearBank : Instr → Prop
  | .nset .. | .naddImm .. | .naddReg .. | .nloop .. | .nact .. | .nrd .. | .ndec .. | .nldx .. | .nmac .. | .nred .. | .nst ..
  | .nsig .. | .nwait | .nbar .. | .ncvt .. | .nend | .nnop => True
  | _ => False

/-- Engine e moves and runs r, which may execute one more instruction (R354). -/
structure OnEngine (s : State) (e : NbeEng) (r : NbeRun) : Prop where
  here : engineHere s = some e
  run : e.run = some r
  count : r.count < 2 ^ 32

/-- The engine e runs r on from its next word, in state t. -/
def engineGoes (t : State) (e : NbeEng) (r : NbeRun) : Result :=
  .next (setNbe t { e with run := some { r with count := r.count + 1, pc := r.pc + 1 } })

/-- The operation of r has ended, in error or not, and its engine e is free. -/
def engineEnds (s : State) (e : NbeEng) (r : NbeRun) (err : Bool) : Result :=
  .next (setNbe (match findOp s r.op with | some o => endOp s o err | none => s) { e with run := none })

/-- n bytes at the offset that b register x holds lie in window x, which is w, and stand at the places l (15 R353). -/
structure InWindow (s : State) (r : NbeRun) (x : BitVec 3) (n : Nat) (w : NbeWindow) (l : List Nat) : Prop where
  window : (nbeWins s r.op)[x.toNat]? = some w
  inside : (r.getB x).toNat + n ≤ w.len.toNat % 2 ^ 48
  places : l.length = n ∧ ∀ k, k < n → hbmMap w.d0 w.d1 (w.pa + (r.getB x).toNat + k) = l[k]?

/-- Window x is not there, or n bytes at its offset reach past its end, or it has not the permission bit. -/
def OutOfWindow (s : State) (r : NbeRun) (x : BitVec 3) (n : Nat) (bit : Option Nat) : Prop :=
  ∀ w, (nbeWins s r.op)[x.toNat]? = some w →
    w.len.toNat % 2 ^ 48 < (r.getB x).toNat + n ∨ ∃ b, bit = some b ∧ w.len.getLsbD b = false

/-- The integer value of a pattern of an integer format. -/
def fixedInt (f : Fmt) (bits : Nat) : Int :=
  match decodeFixed f bits with
  | .int x => x
  | .real _ => 0

/-- 15 R352: the formats that `ncvt` and `nst` accept, and those of `nmac`. -/
def cellFormats : List Nat := [0x02, 0x03, 0x04, 0x06, 0x07, 0x08, 0x0A, 0x0B, 0x0C, 0x0D]
def macFormats : List Nat := [0x02, 0x03, 0x06, 0x0A, 0x0B, 0x0C, 0x0D]

end Sys2Proof.Claims


/-- 15 R351, R354: what the control and register instructions of a near-bank program leave: the engine has executed one more
instruction and is at the next word, or n words back from a `nloop` whose register is not yet 0; `nend` ends the operation
without error and frees the engine; an instruction past the 2^32nd ends the operation in error. That sums of the 48-bit `b`
registers wrap is the model's reading (log 101).

15 R352, R354: `ndec` of n elements of a fixed format takes n × w bits from the head of the decode buffer into the latch, one of
a code takes what its codes hold, and either ends the operation in error without enough bits or at a reserved code. `nmac` adds
the sum of the products to a cell: exactly modulo 2^32 when both formats are integer, and else by the tree of 06 R140 over
products rounded to f32. `nred` sums cells in ascending order; `ncvt` converts n cells and leaves the others. -/
def Obligations.NearBankRegisterResults : Prop :=
  (∀ (s : State) (e : NbeEng) (r : NbeRun) (x y : BitVec 3), engineHere s = some e → e.run = some r →
     (r.count < 2 ^ 32 →
       (∀ imm, exec (.nset true x imm) s = engineGoes s e (r.setK x (imm.setWidth 32)) ∧
         exec (.nset false x imm) s = engineGoes s e (r.setB x (imm.signExtend 48))) ∧
       (∀ imm, exec (.naddImm true x y imm) s = engineGoes s e (r.setK x (r.getK y + imm.signExtend 32)) ∧
         exec (.naddImm false x y imm) s = engineGoes s e (r.setB x (r.getB y + imm.signExtend 48))) ∧
       exec (.naddReg true x y) s = engineGoes s e (r.setK x (r.getK x + r.getK y)) ∧
       exec (.naddReg false x y) s = engineGoes s e (r.setB x (r.getB x + r.getB y)) ∧
       (∀ imm, (r.getK x = 1 → exec (.nloop x imm) s = engineGoes s e (r.setK x 0)) ∧
         (r.getK x ≠ 1 → imm.toNat ≤ r.pc →
           exec (.nloop x imm) s = .next (setNbe s { e with run := some { r.setK x (r.getK x - 1) with
             count := r.count + 1, pc := r.pc - imm.toNat } }))) ∧
       exec .nwait s = engineGoes s e r ∧ exec .nnop s = engineGoes s e r ∧ exec .nend s = engineEnds s e r false) ∧
     (2 ^ 32 ≤ r.count → ∀ i, isNearBank i → exec i s = engineEnds s e r true)) ∧
  (∀ (s : State) (e : NbeEng) (r : NbeRun) (x y : BitVec 3) (fmt : BitVec 5) (imm : BitVec 13), OnEngine s e r →
     (let f := fmt.toNat
      let w := fmtWidth f
      let n := imm.toNat % 2 ^ 9 + 1
      let sc := signExt 4 (imm.toNat / 2 ^ 9 % 2 ^ 4)
      (f ∈ [0x00, 0x01, 0x02, 0x03, 0x06, 0x07, 0x0A, 0x0B, 0x0C] →
        (n * w ≤ r.decLen → exec (.ndec fmt imm) s = engineGoes s e { r with
           latch := (List.range n).map fun j => weightOf (decodeFixed f (r.dec / 2 ^ (w * j) % 2 ^ w))
           latchInt := fmtInteger f, dec := r.dec / 2 ^ (w * n), decLen := r.decLen - n * w }) ∧
        (r.decLen < n * w → exec (.ndec fmt imm) s = engineEnds s e r true)) ∧
      (fmtCode f = true →
        (∀ l dec len, takeWeights f sc n r.dec r.decLen [] = some (l, dec, len) →
          exec (.ndec fmt imm) s = engineGoes s e { r with latch := l, latchInt := fmtJxi f, dec := dec, decLen := len }) ∧
        (takeWeights f sc n r.dec r.decLen [] = none → exec (.ndec fmt imm) s = engineEnds s e r true))) ∧
     (let f := fmt.toNat
      let w := fmtWidth f
      let c := (r.getK x).toNat
      let k := (r.getK y).toNat
      let vec (j : Nat) : Nat := bytesToNat ((List.range (w / 8)).map fun b => memRead r.vbuf ((k + j) * (w / 8) + b))
      (f ∈ macFormats → c < 4096 → (k + r.latch.length) * (w / 8) ≤ 65536 →
        (r.latchInt = true → fmtInteger f = true →
          exec (.nmac x y fmt) s = engineGoes s e (r.setCell c (BitVec.ofInt 32 ((r.cell c).toNat +
            ((List.range r.latch.length).map fun j => r.latch.getD j 0 * fixedInt f (vec j)).sum)))) ∧
        (r.latchInt = false ∨ fmtInteger f = false → r.latch ≠ [] →
          ∃ v, foldGroups (addIn f32Fmt) ((List.range r.latch.length).map fun j =>
              (j, rounded f32Fmt 0 (fMul (latchF r (r.latch.getD j 0)) (decodeFixed f (vec j)).toF)))
              ((r.latch.length + 63) / 64) 0 none = some v ∧
            exec (.nmac x y fmt) s = engineGoes s e (r.setCell c (BitVec.ofNat 32
              (roundF f32Fmt 0 (fAdd 0 (decodeF f32Fmt (r.cell c).toNat) v)))))) ∧
      (4096 ≤ c ∨ 65536 < (k + r.latch.length) * (w / 8) → exec (.nmac x y fmt) s = engineEnds s e r true)) ∧
     (let n := imm.toNat
      let c := (r.getK x).toNat
      let c0 := (r.getK y).toNat
      (0 < n → c < 4096 → c0 + n ≤ 4096 →
        exec (.nred false x y imm) s = engineGoes s e (r.setCell c (((List.range n).map fun j => r.cell (c0 + j)).sum)) ∧
        exec (.nred true x y imm) s = engineGoes s e (r.setCell c (BitVec.ofNat 32
          ((List.range (n - 1)).foldl (fun t j => addF32 t (r.cell (c0 + 1 + j)).toNat) (r.cell c0).toNat)))) ∧
      (4096 ≤ c ∨ 4096 < c0 + n → ∀ k, exec (.nred k x y imm) s = engineEnds s e r true) ∧
      (fmt.toNat ∈ cellFormats → 0 < n → c0 + n ≤ 4096 → ∀ k, ∃ t, exec (.ncvt k y fmt imm) s = engineGoes s e { r with rbuf := t } ∧
        ∀ i, { r with rbuf := t }.cell i = if c0 ≤ i ∧ i < c0 + n then BitVec.ofNat 32
            (convert (if k then .real (decodeF f32Fmt (r.cell i).toNat) else .int (r.cell i).toInt) fmt.toNat 0 true)
          else r.cell i) ∧
      (4096 < c0 + n → ∀ k, exec (.ncvt k y fmt imm) s = engineEnds s e r true)))

/-- 15 R351, R353, R354, 01 R25: the memory instructions of a near-bank program reach only bytes of their windows, with the
permission they need, and end the operation in error elsewhere, on a poisoned byte they read, and on a buffer or an alignment
they break; `nact` sends its hint for no window on a DEV page. `nst` stores its bytes and no other byte of memory changes; `nbar`
waits until the word reaches its count; `nsig` to a poisoned word adds nothing and tells the poison recovery owner. That `nst`
ends in error over a unit that carries a poison mark and is covered only in part is the model's reading (log 103). -/
def Obligations.NearBankMemoryResults : Prop :=
  ∀ (s : State) (e : NbeEng) (r : NbeRun) (x y : BitVec 3) (imm : BitVec 13), OnEngine s e r →
    (∀ w l, InWindow s r x 1 w l → ∀ p ∈ l,
      exec (.nact x) s =
        engineGoes (if w.dev = true then s else hintArrives s (hbmChan p) (hbmBank p) (hbmRow p)) e r) ∧
    (OutOfWindow s r x 1 none → exec (.nact x) s = engineEnds s e r true) ∧
    (let n := 64 * (imm.toNat + 1)
     (∀ w l, InWindow s r x n w l → w.len.getLsbD 62 = true →
       (r.decLen + 8 * n ≤ 32768 →
         ((∀ p ∈ l, poisoned s p = false) → exec (.nrd x imm) s = engineGoes s e { r.setB x (r.getB x + BitVec.ofNat 48 n) with
           dec := r.dec + bytesToNat (l.map (memRead s.mem)) * 2 ^ r.decLen, decLen := r.decLen + 8 * n }) ∧
         ((∃ p ∈ l, poisoned s p = true) → exec (.nrd x imm) s = engineEnds s e r true)) ∧
       (let at_ := (r.getK y).toNat
        at_ % 64 = 0 → at_ + n ≤ 65536 →
        ((∃ p ∈ l, poisoned s p = true) → exec (.nldx x y imm) s = engineEnds s e r true) ∧
        ((∀ p ∈ l, poisoned s p = false) →
          ∃ m, exec (.nldx x y imm) s = engineGoes s e { r.setB x (r.getB x + BitVec.ofNat 48 n) with vbuf := m } ∧
            (r.vbuf.wf = true → ∀ a, memRead m a =
              if at_ ≤ a ∧ a < at_ + n then ((l[a - at_]?).map (memRead s.mem)).getD 0 else memRead r.vbuf a)))) ∧
     (32768 < r.decLen + 8 * n ∨ OutOfWindow s r x n (some 62) → exec (.nrd x imm) s = engineEnds s e r true) ∧
     ((r.getK y).toNat % 64 ≠ 0 ∨ 65536 < (r.getK y).toNat + n ∨ OutOfWindow s r x n (some 62) →
       exec (.nldx x y imm) s = engineEnds s e r true)) ∧
    (∀ fmt : BitVec 5, fmt.toNat ∈ cellFormats →
      let n := imm.toNat
      let b := fmtWidth fmt.toNat / 8
      let c0 := (r.getK y).toNat
      (∀ w l, InWindow s r x (n * b) w l → w.len.getLsbD 63 = true → 0 < n → c0 + n ≤ 4096 → (∀ p ∈ l, poisoned s p = false) →
        ∃ t, exec (.nst x y fmt imm) s = engineGoes t e (r.setB x (r.getB x + BitVec.ofNat 48 (n * b))) ∧
          t = homeWrite s l ((List.range n).flatMap fun j => natToBytes (r.cell (c0 + j)).toNat b) ∧
          (s.MemWf → ∀ a, a ∉ l → memRead t.mem a = memRead s.mem a)) ∧
      (∀ w l, InWindow s r x (n * b) w l → w.len.getLsbD 63 = true → 0 < n → c0 + n ≤ 4096 →
        (∃ p ∈ l, poisoned s p = true ∧ ∃ k, k < 32 ∧ p / 32 * 32 + k ∉ l) → exec (.nst x y fmt imm) s = engineEnds s e r true) ∧
      (4096 < c0 + n ∨ OutOfWindow s r x (n * b) (some 63) → exec (.nst x y fmt imm) s = engineEnds s e r true)) ∧
    (∀ w l, InWindow s r x 8 w l → (∀ p ∈ l, poisoned s p = false) →
      let v := bytesToNat (l.map (memRead s.mem))
      ((w.va.toNat + (r.getB x).toNat) % 8 = 0 →
        (w.len.getLsbD 63 = true → exec (.nsig x imm) s =
          engineGoes (homeWrite s l (natToBytes (completionValue v imm.toNat false) 8)) e r) ∧
        (w.len.getLsbD 62 = true →
          (v < 2 ^ 63 → (r.getK y).toNat ≤ v → exec (.nbar x y) s = engineGoes s e r) ∧
          (v < (r.getK y).toNat → exec (.nbar x y) s = .next s) ∧
          (2 ^ 63 ≤ v → exec (.nbar x y) s = engineEnds s e r true))) ∧
      ((w.va.toNat + (r.getB x).toNat) % 8 ≠ 0 →
        exec (.nsig x imm) s = engineEnds s e r true ∧ exec (.nbar x y) s = engineEnds s e r true)) ∧
    (∀ w l, InWindow s r x 8 w l → (w.va.toNat + (r.getB x).toNat) % 8 = 0 → (∃ p ∈ l, poisoned s p = true) →
      (w.len.getLsbD 62 = true → exec (.nbar x y) s = engineEnds s e r true) ∧
      (w.len.getLsbD 63 = true → ∃ m : Notice, m.duty = 7 ∧ m.kind = .poison ∧
        exec (.nsig x imm) s = engineGoes { s with notices := s.notices ++ [m] } e r)) ∧
    (OutOfWindow s r x 8 (some 63) → exec (.nsig x imm) s = engineEnds s e r true) ∧
    (OutOfWindow s r x 8 (some 62) → exec (.nbar x y) s = engineEnds s e r true)

/-! ### Boot, power and debug (02 R40 to R52, 01 R37) -/

namespace Sys2Proof.Claims

/-- The device has power; its clocks run (02 R48); no entry to retain is under way; requests from outside are served (02 R50). -/
def Powered (s : State) : Prop := s.bed.off = false
def Clocked (s : State) : Prop := s.bed.off = false ∧ s.bed.pwr = 0
def Awake (s : State) : Prop := Clocked s ∧ s.bed.retainPending = false
def Serving (s : State) : Prop := s.bed.off = false ∧ s.bed.pwr ≠ 2 ∧ s.bed.retainPending = false

/-- Bedrock's state replaced. -/
def withBed (s : State) (f : Bedrock → Bedrock) : State := { s with bed := f s.bed }

/-- 02 R40, R41: the fuses of a counter. -/
def fuseOf (s : State) (k : BitVec 5) : Nat := s.bed.fuses[k.toNat]'k.isLt

end Sys2Proof.Claims

/-- 02 R40, R46, R48 to R50, 01 R37: what a cold reset, power off, idle, retain and a change of clock leave. A cold reset keeps
memory and the fuses (log 34) and runs the boot sequence: the patch under the root key and counter 0, the boot configuration, the
survey firmware under counter 1 (log 148), whose cores then start at its entry. Power off loses what lies in the device (that
lost memory reads 0 is log 1). Retain
needs the engines at rest, and debug is then at level none; a halted survey core starts anew (log 149). A change of clock stays
between 800 MHz and 1.6 GHz (log 86). -/
def Obligations.PowerEvents : Prop :=
  ∀ s : State,
    (∀ b : BootInputs,
      let signed (k : Config.Key) (x : Signed) : Bool := verifiesDigest k (shake256 x.bytes) x.sig
      let bound (k : Config.Key) (c : Option Signed) : Bool := c.any fun x => signed k x && Config.certBound x.bytes
      let step1 := signed .root b.patch = true ∧ s.bed.fuses[0] ≤ b.patch.version
      let step2 := step1 ∧ signed .odrek b.config = true
      let step3 := step2 ∧ signed .odrek b.survey = true ∧ s.bed.fuses[1] ≤ b.survey.version
      ∃ t, exec (.coldReset b) s = .next t ∧ t.gangs = [] ∧ t.launches = [] ∧ t.ops = [] ∧ t.tlb = [] ∧
        t.mem = s.mem ∧ t.bed.fuses = s.bed.fuses ∧ t.bed.cache = [] ∧ t.bed.keys = true ∧ t.bed.dbg = 0 ∧ t.bed.hidbg = 0 ∧
        t.bed.pwr = 0 ∧ t.bed.off = false ∧
        t.bed.sec = (if b.provisioned = false ∨ bound .odrek b.returnCert = true then 2
          else if bound .owner b.ownerCert = true then 1 else 0) ∧
        (1 ≤ t.bed.stage ↔ step1) ∧ (2 ≤ t.bed.stage ↔ step2) ∧ (t.bed.stage = 3 ↔ step3) ∧ t.bed.stage ≤ 3 ∧
        (step2 → t.bed.duty = b.duty) ∧
        (step3 → t.dev.firmware = b.survey.bytes ∧ t.bed.surveyDigest = shake256 b.survey.bytes ∧
          ∀ k : Fin 4, (t.dev.surveys[k]).mode = .running ∧ (t.dev.surveys[k]).pc = b.entry &&& ~~~(3#64)) ∧
        (¬ step3 → ∀ k : Fin 4, (t.dev.surveys[k]).mode = .held)) ∧
    (∃ t, exec .powerOff s = .next t ∧ t.bed.off = true ∧ t.bed.keys = false ∧ t.bed.cache = [] ∧ t.gangs = [] ∧
      t.launches = [] ∧ t.bed.fuses = s.bed.fuses ∧
      (s.MemWf → ∀ a, memRead t.mem a = if a < 2 ^ 52 then 0 else memRead s.mem a)) ∧
    (Awake s → exec .idleEntry s = .next (withBed s fun b => { b with pwr := 1 })) ∧
    (Powered s → exec .powerLimitExceeded s = .next { s with clock := max 8 (s.clock - 1) } ∧
      exec .clockRaise s = .next { s with clock := min 16 (s.clock + 1) }) ∧
    (Serving s → s.bed.pwr.toNat ≤ 1 → s.ops = [] → s.colls = [] → s.nbes = [] →
      (∀ g ∈ s.gangs, ∀ h ∈ g.harts, h.mode ≠ .debugHalt ∧ h.ypend.getLsbD 63 = false ∧ h.abuf = [] ∧ h.cbuf = []) →
      ∃ t, exec .retainEnter s = .next t ∧ t.bed.pwr = 2 ∧ t.bed.dbg = 0 ∧ t.bed.retainPending = false ∧ t.gangs = s.gangs ∧
        t.mem = s.mem ∧ t.bed.keys = s.bed.keys ∧ t.bed.cache = s.bed.cache ∧
        ∀ k : Fin 4, (t.dev.surveys[k]).mode = if (s.dev.surveys[k]).mode = .halted then .running else (s.dev.surveys[k]).mode) ∧
    (Powered s → s.bed.pwr = 2 → s.launches = [] →
      exec .retainExit s = .next (s.heldReqs.foldl serveHeld { withBed s (fun b => { b with pwr := 0 }) with heldReqs := [] }))

namespace Sys2Proof.Claims

/-- 02 R47: the value a debug read returns, kept. -/
def debugGives (s : State) (v : Word) : State := withBed s fun b => { b with debugOut := some v }

end Sys2Proof.Claims

/-- 02 R42, R43, R47, R51, R52: the requests to bedrock. A debug level that the security state does not permit is refused unless it
lowers the level; HIDBG keeps the highest, and firmware debug destroys the keys. A quote holds its fields in order and the
signature of their digest (its random bytes are free values). A counter only advances, to at most 63, by a command under the key
that owns it. An admission takes the digest of the image and checks the version first, then the cache, then the signature. That
these are served at once in retain too is the model's choice (log 153), and that the key of an admission is that of its counter
(log 159).

02 R47, R49: debug requests on a hart at level 2, in the open state, and on a survey core at level 3: a halt, reads and writes of
its registers and of memory, and a step, which a slice's turns and a halt follow; without the level, and for a halt while the
device enters or is in retain, nothing happens. Memory is reached through the hart's page tables, and no window (07 R393). How a
value is returned, what a write of a control register or of memory meets, and that reads and writes are served at once in idle
and in retain, is the model's (logs 85, 151, 152, 164). -/
def Obligations.BedrockAndDebugRequests : Prop :=
  (∀ s : State, Powered s → s.bed.pwr ≠ 1 →
     (∀ level : BitVec 2,
       let most := if s.bed.sec = 2 then 3 else if s.bed.sec = 1 then 2 else 1
       (level.toNat ≤ most ∨ level.toNat < s.bed.dbg.toNat →
         exec (.debugRequest level) s = .next (withBed s fun b => { b with
           dbg := level, hidbg := if b.hidbg.toNat < level.toNat then level else b.hidbg, keys := b.keys && level != 3 })) ∧
       (most < level.toNat → s.bed.dbg.toNat ≤ level.toNat → exec (.debugRequest level) s = .next s)) ∧
     (∀ nonce : BitVec 256,
       (s.bed.keys = true →
         let fields := natToBytes nonce.toNat 32 ++ natToBytes (dstate s.bed).toNat 8 ++
           s.bed.fuses.toList.map (fun n => BitVec.ofNat 8 n) ++ natToBytes s.bed.patchDigest.toNat 64 ++
           natToBytes s.bed.surveyDigest.toNat 64 ++ natToBytes s.bed.configDigest.toNat 64
         ∃ rnd : List Byte, rnd.length = 32 ∧
           (∀ sig, signDigest (shake256 fields) rnd = some sig → exec (.quoteRequest nonce) s =
             .next { withBed s (fun b => { b with quotes := b.quotes ++ [fields ++ sig] }) with freeCtr := s.freeCtr + 4 }) ∧
           (signDigest (shake256 fields) rnd = none →
             exec (.quoteRequest nonce) s = .next { s with freeCtr := s.freeCtr + 4 })) ∧
       (s.bed.keys = false → exec (.quoteRequest nonce) s = .next s)) ∧
     (s.bed.stage ≠ 3 → ∀ k n sig, exec (.counterAdvance k n sig) s = .next s) ∧
     (s.bed.stage = 3 → ∀ (k : BitVec 5) (n : Nat) (sig : List Byte),
       let signed := verifiesDigest (.counter k) (shake256 (Config.counterCommand k n)) sig
       (signed = true → fuseOf s k < n → n ≤ 63 → exec (.counterAdvance k n sig) s = .next (withBed s fun b => { b with
         fuses := b.fuses.set k.toNat n k.isLt })) ∧
       (n ≤ fuseOf s k ∨ 63 < n ∨ signed = false → exec (.counterAdvance k n sig) s = .next s)) ∧
     (s.bed.stage = 3 → ∀ (image : List Byte) (k : BitVec 5) (v : BitVec 6) (sig : List Byte),
       let digest := shake256 image
       let signed := verifiesDigest (.counter k) digest sig
       (s.bed.keys = false ∨ v.toNat < fuseOf s k ∨ k.toNat < 8 →
         exec (.moduleAdmissionRequest image k v sig) s = .next s) ∧
       (s.bed.keys = true → fuseOf s k ≤ v.toNat → 8 ≤ k.toNat →
         (∀ e, (s.bed.cache.find? fun e => e.digest == digest) = some e →
           ((s.bed.fuses[e.counter]?).getD 0 ≤ e.version → exec (.moduleAdmissionRequest image k v sig) s =
             .next (withBed s fun b => { b with cache := b.cache.erase e ++ [e] })) ∧
           (e.version < (s.bed.fuses[e.counter]?).getD 0 → exec (.moduleAdmissionRequest image k v sig) s =
             .next (withBed s fun b => { b with cache := b.cache.erase e }))) ∧
         ((∀ e ∈ s.bed.cache, e.digest ≠ digest) →
           (signed = true → s.bed.cache.length < 256 → exec (.moduleAdmissionRequest image k v sig) s =
             .next (withBed s fun b => { b with cache := b.cache ++ [{ digest := digest, counter := k.toNat, version := v.toNat }] })) ∧
           (signed = false → exec (.moduleAdmissionRequest image k v sig) s = .next s))))) ∧
  (∀ (s : State) (owner : BitVec 16), Powered s →
     (∀ (g : Nat) (hid : BitVec 4) (x : Hart), findHart s g hid.toNat = some x →
       let asks (act : DebugAct) : Instr := .debugHaltRequest owner (.hart g hid) act
       let vrlen := ((findLaunch s g).map (·.vrlen)).getD 4096
       let xl : Xlat := { hartXlat s g hid.toNat with hart := none, gang := none }
       (2 ≤ s.bed.dbg.toNat → s.bed.sec = 2 →
         (Serving s → x.mode = .active → x.ypend.getLsbD 63 = false → exec (asks .halt) s =
           .next (mapHart s g hid.toNat fun y => { y with mode := .debugHalt })) ∧
         (¬ Serving s → exec (asks .halt) s = .next s) ∧
         (Serving s → x.mode = .debugHalt → x.answer = none → exec (asks .step) s =
           .next { mapHart s g hid.toNat (fun y => { y with mode := .active }) with
             agenda := [.turn (.slice g hid.toNat .as), .turn (.slice g hid.toNat .cs), .event (asks .halt)] ++ s.agenda }) ∧
         (∀ sl r, exec (asks (.read (.scalar sl r))) s = .next (debugGives s (x.getReg sl r))) ∧
         (∀ sl, exec (asks (.read (.pc sl))) s = .next (debugGives s (x.slice sl).pc)) ∧
         (∀ sl n, exec (asks (.read (.ctl sl n))) s = .next (debugGives s (readCtl s vrlen x sl n.toNat))) ∧
         (∀ (r : BitVec 5) k, exec (asks (.read (.vector r k))) s =
           .next (debugGives s (BitVec.ofNat 64 ((x.vreg r).bits / 2 ^ (64 * k) % 2 ^ 64)))) ∧
         (∀ sl r v, exec (asks (.write (.scalar sl r) v)) s = .next (mapHart s g hid.toNat fun y => y.setReg sl r v)) ∧
         (∀ sl v, exec (asks (.write (.pc sl) v)) s = .next (mapHart s g hid.toNat fun y => y.setPc sl (v &&& ~~~(1#64)))) ∧
         (∀ sl n v, accessOf sl n.toNat = .rw → exec (asks (.write (.ctl sl n) v)) s =
           .next (mapHart s g hid.toNat fun y => y.writeCtl vrlen sl n.toNat v)) ∧
         (∀ va n f s1 b s2, n ≤ 8 → tried (locateCtx xl .load va.toNat n) s = (.ok f, s1) →
           tried (readLocs x.abuf f.locs va.toNat) s1 = (.ok b, s2) →
           exec (asks (.memRead va n)) s = .next (debugGives s2 (BitVec.ofNat 64 (bytesToNat b)))) ∧
         (∀ va data f s1, data.length ≤ 8 → tried (locateCtx xl .store va.toNat data.length) s = (.ok f, s1) →
           f.leaves.all (fun e => pteD e.pte) = true → exec (asks (.memWrite va data)) s = .next (homeWrite s1 f.locs data))) ∧
       (s.bed.dbg.toNat < 2 → ∀ act, exec (asks act) s = .next s)) ∧
     (∀ k : BitVec 2,
       let asks (act : DebugAct) : Instr := .debugHaltRequest owner (.survey k) act
       (s.bed.dbg = 3 →
         (Serving s → (surveyOf s k.toNat).mode = .running → exec (asks .halt) s =
           .next (mapSurvey s k.toNat fun x => { x with mode := .halted })) ∧
         (Serving s → (surveyOf s k.toNat).mode = .halted → exec (asks .step) s =
           .next { mapSurvey s k.toNat (fun x => { x with mode := .running }) with
             agenda := [.turn (.survey k.toNat), .event (asks .halt)] ++ s.agenda }) ∧
         (∀ (va : Word) (n : Nat) (l : List Nat), va.toNat + 8 < 0xFFFE00000 → n ≤ 8 → physLocs s va.toNat n = some l →
           ((∀ p ∈ l, poisoned s p = false) → exec (asks (.memRead va n)) s =
             .next (debugGives s (BitVec.ofNat 64 (bytesToNat (l.map (memRead s.mem)))))) ∧
           ∀ data : List Byte, data.length = n → ∃ t, exec (asks (.memWrite va data)) s = .next t ∧ t = homeWrite s l data ∧
             (s.MemWf → ∀ a, a ∉ l → memRead t.mem a = memRead s.mem a))) ∧
       (s.bed.dbg ≠ 3 → ∀ act, exec (asks act) s = .next s)))

/-! ### Device registers, channels and links (01 R10 to R34, 07 R147, R148) -/

namespace Sys2Proof.Claims

/-- 01 R10, 02 R53: the agent that owns a duty. -/
def ownerOf (s : State) (n : Nat) : RegAgent := if s.bed.duty.getLsbD n then .host else .survey

/-- 01 R29, R31: no link of a set is live. -/
def noneLive (s : State) (links : BitVec 16) : Prop := ∀ k : Fin 16, links.getLsbD k.val = true → (s.dev.links[k]).live = false

/-- 01 R29, R31: the route of a destination is valid and lists links, of which none is live. -/
def linkless (s : State) (dest : Nat) : Prop :=
  let w := devReg s (0x40000 + 8 * dest)
  w.getLsbD 16 = true ∧ w.toNat % 2 ^ 16 ≠ 0 ∧ noneLive s (w.extractLsb' 0 16)

/-- Nothing but a pending store or addition waits for a link: no record or other request is held, no answer stands. -/
def noneWaits (s : State) : Prop := s.heldReqs = [] ∧ ∀ g ∈ s.gangs, ∀ h ∈ g.harts, h.answer = none

/-- 01 R30, R31: every request of a pending store travels on a live link of its route, or there is none. -/
def onLiveLinks (s : State) (w : PWrite) : Prop :=
  ∀ p ∈ w.hops, match p.link with
    | some k => ∃ j : Fin 16, j.val = k ∧ p.links.getLsbD k = true ∧ (s.dev.links[j]).live = true
    | none => noneLive s p.links

/-- A pending store that can be performed: nothing adds to it, and its requests travel. -/
def canGo (w : PWrite) : Prop := w.open_ = false ∧ ∀ p ∈ w.hops, p.link ≠ none

/-- All pending stores of a hart can be performed once no instruction adds to them. -/
def storesGo (x : Hart) : Prop := (∀ w ∈ x.abuf, canGo w) ∧ ∀ w ∈ x.cbuf, ∀ p ∈ w.hops, p.link ≠ none

/-- 16 R361, R362, 14 R304: a store may be performed before an older one of its agent. -/
def passes (sl : SliceId) (older w : PWrite) : Prop :=
  match sl with
  | .as => (∀ c ∈ older.cells ++ w.cells, 2 ^ 53 ≤ c.1 ∧ c.1 < 2 ^ 54) ∧ (older.dev = false ∨ w.dev = false) ∧
      ∀ c ∈ w.cells, ∀ d ∈ older.cells, d.1 / 64 ≠ c.1 / 64
  | .cs => ∀ c ∈ w.cells, ∀ d ∈ older.cells, d.1 ≠ c.1

/-- `cycle` has passed the deadline of a hart with a request posted (04 R88, R90). -/
def late (s : State) (x : Hart) : Prop :=
  let past := (s.cycle.toNat + 2 ^ 48 - x.ypend.toNat % 2 ^ 48) % 2 ^ 48
  x.ypend.getLsbD 63 = true ∧ past < 2 ^ 47 ∧ past ≠ 0

end Sys2Proof.Claims


/-- 01 R10, R19, R34, 07 R147: a register is written by its owner only and in its writable fields: a Smiar route, an interleave
descriptor (ignored while EN = 1, EN kept 0 by an invalid one; that a write which clears EN takes the whole word, and that an
invalid one stores its other fields, is the model's: logs 106, 158), END of a collective route, which ends the operations in
progress, and GO of a shootdown, ignored while GO = 1. An end passed from another package ends that operation here; the ended
record of an operation number not known here is the model's (log 93). A shootdown is done once the stores and additions that
used what it drops have been performed; what it drops and performs is the model's (log 92).

01 R14 to R16, R23 to R25, R27, R31: what the layer-remap register of a stack (log 105), the poison marks of its spare layer (log
157), a channel's queue and the links become. A
capped request issues first, then one to an open row; a hint is kept until the controller acts on it (log 108). A store whose link
fails goes on over a live one; when the loss has timed out it is dropped (log 113), and a pending addition is made when a link
returns. A destination that a written route reaches again is no longer lost. -/
def Obligations.DeviceRegisterEvents : Prop :=
  (∀ (s : State) (v : Word) (by_ : RegAgent), Powered s →
     (∀ off : BitVec 20, 0x40000 ≤ off.toNat → off.toNat < 0x40200 → off.toNat % 8 = 0 →
       (by_ = ownerOf s 4 → ∃ t, exec (.registerWrite off v by_) s = .next t ∧
         t = { setDevReg s off.toNat (v &&& 0x1FFFF#64) with dev := {
           (setDevReg s off.toNat (v &&& 0x1FFFF#64)).dev with linkLost := t.dev.linkLost } } ∧
         ∀ d, d ∈ t.dev.linkLost ↔ d ∈ s.dev.linkLost ∧ linkless t d) ∧
       (by_ ≠ ownerOf s 4 → exec (.registerWrite off v by_) s = .next s)) ∧
     (∀ n : BitVec 6,
       let at0 := 0x10000 + 16 * n.toNat
       let w0 := devReg s at0
       exec (.interleaveDescriptorWrite n false v .host) s = .next s ∧
       (w0.getLsbD 63 = true →
         exec (.interleaveDescriptorWrite n true v .survey) s = .next s ∧
         (v.getLsbD 63 = true → exec (.interleaveDescriptorWrite n false v .survey) s = .next s)) ∧
       (w0.getLsbD 63 = false →
         exec (.interleaveDescriptorWrite n true v .survey) s = .next (setDevReg s (at0 + 8) (v &&& ilMask1)) ∧
         (v.getLsbD 63 = true → exec (.interleaveDescriptorWrite n false v .survey) s = .next (setDevReg s at0
           (if ilValid (v &&& ilMask0) (devReg s (at0 + 8)) then v &&& ilMask0
            else v &&& ilMask0 &&& 0x7FFFFFFFFFFFFFFF#64)))) ∧
       (v.getLsbD 63 = false → exec (.interleaveDescriptorWrite n false v .survey) s = .next (setDevReg s at0 (v &&& ilMask0)))) ∧
     (∀ id : BitVec 8,
       let off := 0x70000 + 16 * id.toNat
       (by_ = ownerOf s 4 → exec (.collEnd id by_) s =
         .next (endAll (setDevReg s off (devReg s off &&& 0x8000000000000FFF#64)) id.toNat)) ∧
       (by_ ≠ ownerOf s 4 → exec (.collEnd id by_) s = .next s) ∧
       ∀ (num : Nat) (c : CollOp), findColl s id.toNat num = some c →
         (c.ended = false → exec (.endFromOtherPackage id num) s = .next (endColl s c true)) ∧
         (c.ended = true → exec (.endFromOtherPackage id num) s = .next s)) ∧
     (∀ (id : BitVec 8) (num : Nat), findColl s id.toNat num = none →
       ∃ t c, exec (.endFromOtherPackage id num) s = .next t ∧ findColl t id.toNat num = some c ∧ c.ended = true ∧ c.members = []) ∧
     (∀ die : BitVec 3,
       let off := 0x60000 + 8 * die.toNat
       let w := devReg s off
       (by_ = ownerOf s 0 → w.getLsbD 63 = false → exec (.shootdownGo die v by_) s =
         .next (setDevReg s off ((v &&& 0x387FFFFFFFFFFFFF#64) ||| 0x8000000000000000#64))) ∧
       (by_ = ownerOf s 0 → w.getLsbD 63 = true →
         ∃ t, exec (.shootdownGo die v by_) s = .next t ∧ ∀ o, devReg t o = devReg s o) ∧
       (by_ ≠ ownerOf s 0 → exec (.shootdownGo die v by_) s = .next s) ∧
       (w.getLsbD 63 = false → exec (.shootdownDone die) s = .next s) ∧
       (w.getLsbD 63 = true → (∃ a ∈ s.adds, a.leaf.dropped die.toNat w = true) ∨
           (∃ g ∈ hartsOfDie s die.toNat, ∃ x, findHart s g.1 g.2 = some x ∧ ∃ y ∈ x.abuf ++ x.cbuf, ¬ canGo y) →
         exec (.shootdownDone die) s = .next s) ∧
       (w.getLsbD 63 = true → keepsWindow s die.toNat w = false → (∀ a ∈ s.adds, a.leaf.dropped die.toNat w = false) →
         (∀ g ∈ hartsOfDie s die.toNat, ∀ x, findHart s g.1 g.2 = some x → ∀ y ∈ x.abuf ++ x.cbuf, canGo y) →
         ∃ t, exec (.shootdownDone die) s = .next t ∧
           devReg t off = (w &&& 0x3FFFFFFFFFFFFFFF#64) ||| 0x4000000000000000#64 ∧
           t.tlb = s.tlb.filter (fun e => !e.dropped die.toNat w) ∧
           ∀ g x h y, findGang s g = some x → x.die = die.toNat → findHart t g h = some y →
             y.abuf = [] ∧ y.cbuf = [] ∧ ∀ k : Fin 16, (y.s[k]).walk = []))) ∧
  (∀ s : State, Powered s →
     (∀ (stack layer : BitVec 4),
       let off := 0x20000 + 8 * stack.toNat
       let w := devReg s off
       let lay := rmLayer w
       let fault := w.getLsbD 0
       let owner := ownerOf s 5
       let dropped : List Nat := s.spare.filter fun u => !inStack stack.toNat u
       (rmState w = 0 → exec (.remapStartCopy stack layer owner) s =
           .next { setDevReg s off (mkRemap 1 layer.toNat 0 false fault) with spare := dropped } ∧
         exec (.remapFaultClear stack owner) s = .next (setDevReg s off (mkRemap 0 lay (rmProg w) (w.getLsbD 1) false))) ∧
       (rmState w = 1 →
         exec (.remapAbandon stack owner) s = .next { setDevReg s off (mkRemap 0 lay 0 false fault) with spare := dropped } ∧
         exec (.remapFaultClear stack owner) s = .next (setDevReg s off (mkRemap 1 lay (rmProg w) (w.getLsbD 1) false)) ∧
         (w.getLsbD 1 = true → ∃ t, exec (.remapSwitch stack owner) s = .next t ∧
           devReg t off = mkRemap 2 lay (rmProg w) true fault ∧ stack.toNat ∈ t.dev.switching ∧ t.mem = s.mem ∧
           ∀ u, u ∈ t.poison ↔ if inLayer stack.toNat lay u = true then u ∈ s.spare else u ∈ s.poison) ∧
         (w.getLsbD 1 = false → ∃ t, exec (.remapSwitch stack owner) s = .next t ∧ ∀ o, devReg t o = devReg s o) ∧
         (Serving s → w.getLsbD 1 = false →
           let copied (u : Nat) : Bool := inLayerBlock stack.toNat lay (rmProg w) u
           let bad := s.poison.any copied
           ∃ t, exec (.remapBlockCopied stack) s = .next t ∧ t = { setDevReg s off
               (if rmProg w = 65535 then mkRemap 1 lay 65535 true (fault || bad)
                else mkRemap 1 lay (rmProg w + 1) false (fault || bad)) with spare := t.spare } ∧
             ∀ u, u ∈ t.spare ↔ if copied u = true then u ∈ s.poison else u ∈ s.spare)) ∧
       (rmState w = 2 → ∀ i ∈ [Instr.remapStartCopy stack layer owner, .remapAbandon stack owner, .remapSwitch stack owner,
           .remapFaultClear stack owner], ∃ t, exec i s = .next t ∧ ∀ o, devReg t o = devReg s o) ∧
       exec (.remapSwitchDone stack) s = .next { s with dev := { s.dev with
         switching := s.dev.switching.filter fun k => k != stack.toNat } }) ∧
     (∀ (chan : BitVec 9) (c : Chan), findChan s chan.toNat = c →
       let cap := ((devReg s (0x30000 + 8 * chan.toNat)).toNat % 2 ^ 10 + 1) * 16
       (∀ (k : Nat) (r : ChanReq), c.reqs[k]? = some r →
         (cap ≤ r.age → exec (.requestCapped chan k) s = .next (setChan s { c with reqs := c.reqs.set k { r with capped := true } })) ∧
         (r.age < cap → exec (.requestCapped chan k) s = .next (setChan s c))) ∧
       (∀ (k : Nat) (x : Nat × Nat × Nat), c.hints[k]? = some x →
         (64 ≤ x.2.2 → exec (.hintExpiry chan k) s = .next (setChan s { c with hints := c.hints.eraseIdx k })) ∧
         (x.2.2 < 64 → exec (.hintExpiry chan k) s = .next s)) ∧
       (Clocked s → ∀ (bank : BitVec 5) (row : BitVec 16),
         let en := (devReg s (0x30000 + 8 * chan.toNat)).getLsbD 16
         let hint := exec (.stripAheadHint chan bank row) s
         ((∃ e ∈ s.tlb, e.devRow s chan.toNat bank.toNat row.toNat = true) → hint = .next s) ∧
         (en = false ∨ (∃ r ∈ c.reqs, r.bank = bank.toNat) ∨ (∃ o ∈ c.opened, o.1 = bank.toNat) → hint = .next s) ∧
         (en = true → (∀ r ∈ c.reqs, r.bank ≠ bank.toNat) → (∀ o ∈ c.opened, o.1 ≠ bank.toNat) →
           (∀ e ∈ s.tlb, pteDEV e.pte = false) → hint = .next (setChan s { c with hints := c.hints ++ [(bank.toNat, row.toNat, 0)] }))) ∧
       (∀ rest, s.agenda = .issue chan :: rest → chan.toNat / 32 ∉ s.dev.switching →
         let s1 := { s with agenda := rest }
         let hits (r : ChanReq) : Prop := ∃ o ∈ c.opened, o.1 = r.bank ∧ o.2 = r.row
         (∀ r more, c.reqs = r :: more →
           (r.capped = true ∨ cap ≤ r.age ∨ more = [] ∨ (hits r ∧ ∀ x ∈ c.reqs, x.capped = false ∧ x.age < cap) → step s = .next (setChan s1 { c with
             reqs := more, opened := insertKey r.bank r.row c.opened })) ∧
           ∀ q more2, more = q :: more2 → (∀ x ∈ c.reqs, x.capped = false ∧ x.age < cap) → ¬ hits r → hits q → r.nbe = false →
             q.nbe = false → r.bank ≠ q.bank → step s = .next (setChan s1 { c with
               reqs := r :: more2, opened := insertKey q.bank q.row c.opened })) ∧
         (c.reqs = [] → ∀ (bank row age : Nat) more, c.hints = (bank, row, age) :: more →
           (devReg s (0x30000 + 8 * chan.toNat)).getLsbD 16 = true → age < 64 → (∀ o ∈ c.opened, o.1 ≠ bank) →
           step s = .next (setChan s1 { c with hints := more, opened := insertKey bank row c.opened })))) ∧
     (∀ link : BitVec 4,
       exec (.linkLaneLoss link) s = .next (mapLink s link fun l => { l with lanes := 4 }) ∧
       (∃ t, exec (.linkFailure link) s = .next t ∧ t.dev = (mapLink s link fun l => { l with live := false }).dev ∧ t.mem = s.mem ∧
         (∀ g h y, findHart t g h = some y → ∀ w ∈ y.abuf ++ y.cbuf, onLiveLinks t w) ∧
         ∀ g h x, findHart s g h = some x → ∃ y, findHart t g h = some y ∧
           y.abuf.map (·.cells) = x.abuf.map (·.cells) ∧ y.cbuf.map (·.cells) = x.cbuf.map (·.cells)) ∧
       (noneWaits s →
         (∃ t, exec (.liveLinkReturn link) s = .next t ∧ t.dev.links = (mapLink s link fun l => { l with live := true }).dev.links ∧
           (∀ d, d ∈ t.dev.linkLost ↔ d ∈ s.dev.linkLost ∧ linkless t d) ∧
           (∀ g h y, findHart t g h = some y → y.as_.cond ≠ .waiting .link ∧ y.cs.cond ≠ .waiting .link ∧
             ∀ w ∈ y.abuf ++ y.cbuf, onLiveLinks t w) ∧
           (s.adds = [] → t.mem = s.mem) ∧
           ∀ a, s.adds = [a] → a.links.getLsbD link.toNat = true →
             let l := locRange (2 ^ 53 + a.pa) 8
             (∀ p ∈ l, poisoned s p = false) → t.adds = [] ∧ t.mem = (homeWrite s l
               (natToBytes (completionValue (bytesToNat (l.map (memRead s.mem))) a.n a.err) 8)).mem))) ∧
     (noneWaits s → ∃ t, exec .linkLossTimeout s = .next t ∧ t.dev.links = s.dev.links ∧ t.mem = s.mem ∧
       (∀ d, d ∈ t.dev.linkLost ↔ d ∈ s.dev.linkLost ∨ (d < 64 ∧ linkless s d)) ∧
       (∀ a, a ∈ t.adds ↔ a ∈ s.adds ∧ ¬ noneLive s a.links) ∧
       (∀ g h y, findHart t g h = some y → y.as_.cond ≠ .waiting .link ∧ y.cs.cond ≠ .waiting .link) ∧
       ∀ g h x sl w, findHart s g h = some x → x.buf sl = [w] → ∃ y, findHart t g h = some y ∧
         ∀ v ∈ y.buf sl, (∀ p ∈ v.hops, p.link ≠ none) ∧ ∀ c, c ∈ v.cells ↔ c ∈ w.cells ∧
           ∀ p ∈ w.hops, p.link = none → ¬ (2 ^ 53 ≤ c.1 ∧ c.1 < 2 ^ 54 ∧ (c.1 - 2 ^ 53) / 64 = p.block)))

/-! ### Launch ports, wait objects, peers and the host (03 R58 to R68, 01 R28, 16 R369 to R371) -/

namespace Sys2Proof.Claims

/-- 03 R62, R66: the port with one more refusal, for the reason code. -/
def refused (s : State) (p : BitVec 8) (code : Nat) : State :=
  setPort s p { portOf s p with ref := (portOf s p).ref + 1, last := BitVec.ofNat 4 code }

/-- 03 R66: what a refusal with the reason code makes of s, for record r under the port context c: an addition of GANGS with the
error flag to a done object that a load through an open context reaches and whose page meets R57; else only the port counts. -/
def refusedWith (s t : State) (p : BitVec 8) (r : Record) (c : PortCtx) (code : Nat) : Prop :=
  let s0 := refused s p code
  let xl := ctxXlat (portDie p.toNat) c
  let va := r.donea.toNat
  (r.donea = 0 ∨ va % 8 ≠ 0 ∨ c.w0.getLsbD 63 = false ∨ code = 5 → t = s0) ∧
  (r.donea ≠ 0 → va % 8 = 0 → c.w0.getLsbD 63 = true → code ≠ 5 → ∀ s1,
    (∀ k, tried (readCtx xl va 8) s0 = (.trap k, s1) → t = s1) ∧
    ∀ b e s2, tried (readCtx xl va 8) s0 = (.ok b, s1) → tried (pageLeaf xl .load false va va) s1 = (.ok e, s2) →
      (leafR57 e.pte = false → t = s2) ∧
      ∀ locs pa s3, leafR57 e.pte = true → tried (objectPlace xl r.donea) s2 = (.ok (locs, pa, none), s3) →
        t = completionAdd .sequencer pa (tagOwnerRec r c) locs r.gangs true s3)

/-- 03 R67: launch l has passed: v was seen at its wait object. -/
def hasPassed (s : State) (l : Launch) (v : Word) : State :=
  mapLaunch s l.id fun x => { x with seen := some v, passed := true, since := s.ntime }

end Sys2Proof.Claims

/-- 03 R58, R66, R67, 02 R48, R50: a record that a launch port refuses, why, and what its done object receives; one that passes
every check is accepted; in retain each is held. An observation of a wait object passes a record alone in its queue when the value
has reached WAITV, refuses it on the error bit with WERR set, and else leaves it; one that cannot be observed is refused with ADDR,
and the record behind it, already seen, passes. An object on a peer or host page is its dependence owner's to answer for.

The model's readings: a record whose checks meet a peer that no live link reaches is held with those behind it (log 113), outside
the port's queue of 16 (log 165); in idle a write of the wrong size is refused with the machine awake, and in retain it is held as
any record (log 164). -/
def Obligations.LaunchPortEvents : Prop :=
  ∀ s : State, s.bed.stage = 3 →
    (∀ (p : BitVec 8) (off : Nat) (data : List Byte),
      let writes (s : State) : Machine.Result := exec (.launchRecordWrite p off data) s
      let held (s : State) : State := { s with heldReqs := s.heldReqs ++ [.record p off data] }
      (Powered s → s.bed.pwr = 2 → writes s = .next (held s)) ∧
      (Powered s → s.bed.pwr = 1 → writes s = writes (withBed s fun b => { b with pwr := 0 })) ∧
      (Powered s → s.bed.pwr = 0 → (∃ o d, HeldReq.record p o d ∈ s.heldReqs) → writes s = .next (held s)) ∧
      (Powered s → s.bed.pwr = 0 → (∀ o d, HeldReq.record p o d ∉ s.heldReqs) →
        let r := parseRecord data
        let c := portCtx s p
        (data.length ≠ 64 ∨ off ≠ 0 → writes s = .next (refused s p 1)) ∧
        (data.length = 64 → off = 0 →
          let n := (portQueue s p.toNat).length
          let no (s1 : State) (code : Nat) : Prop := ∃ t, writes s = .next t ∧ refusedWith s1 t p r c code
          (16 ≤ n → no s 2) ∧
          (n < 16 → c.w0.getLsbD 63 = false → no s 5) ∧
          (n < 16 → c.w0.getLsbD 63 = true → r.ctrl.toNat % 8 ≠ 1 → no s 3) ∧
          (n < 16 → c.w0.getLsbD 63 = true → r.ctrl.toNat % 8 = 1 → r.fieldOk c = false → no s 4) ∧
          (n < 16 → c.w0.getLsbD 63 = true → r.ctrl.toNat % 8 = 1 → r.fieldOk c = true →
            (∀ s1, lateChecks s p r c = (s1, .stalls) → writes s = .next (held s1)) ∧
            (∀ s1 code, lateChecks s p r c = (s1, .refused code) → no s1 code) ∧
            ∀ s1 m digest, lateChecks s p r c = (s1, .admitted m digest) → portQueue s1 p.toNat = [] →
              (r.waita ≠ 0 → writes s = .next { setPort s1 p { portOf s1 p with acc := (portOf s1 p).acc + 1 } with
                launches := s1.launches ++ [newLaunch s1 p.toNat r c m digest], nextLaunch := s1.nextLaunch + 1 }) ∧
              (r.waita = 0 → ∃ t l, writes s = .next t ∧ l ∈ t.launches ∧ l.id = s1.nextLaunch ∧
                l.record = r ∧ l.port = p.toNat ∧ l.passed = true ∧ (portOf t p).acc = (portOf s1 p).acc + 1))))) ∧
    (∀ (id : Nat) (l : Launch), l.passed = false → l.seen = none → findLaunchId s id = some l →
      let leaves (s : State) : State := { s with launches := s.launches.filter fun x => x.id != l.id }
      let answers (i : Instr) (v : Word) (s2 : State) : Prop :=
        (v.toNat % 2 ^ 63 < l.record.waitv.toNat → exec i s = .next s2) ∧
        (l.record.waitv.toNat ≤ v.toNat % 2 ^ 63 → portQueue s2 l.port = [l] →
          (l.record.ctrl.getLsbD 15 = true → v.getLsbD 63 = true → ∃ t, exec i s = .next t ∧ refusedWith
            (leaves s2) t (BitVec.ofNat 8 l.port) l.record l.ctx 9) ∧
          (l.record.ctrl.getLsbD 15 = false ∨ v.getLsbD 63 = false → exec i s = .next (hasPassed s2 l v)))
      let without (s : State) : State := refused (leaves s) (BitVec.ofNat 8 l.port) 7
      let failed (i : Instr) (s1 : State) : Prop :=
        ∃ t, refusedWith (leaves s1) t (BitVec.ofNat 8 l.port) l.record l.ctx 7 ∧
          exec i s = .next (passHeads l.port (portQueue t l.port).length t)
      let xl := ctxXlat (portDie l.port) l.ctx
      let va := l.record.waita.toNat
      (Awake s → l.record.waita ≠ 0 → ∀ s1,
        (∀ b s2, tried (waitRemote xl va) s = (.ok false, s1) → tried (readCtx xl va 8) s1 = (.ok b, s2) →
          answers (.waitObjectObserve id) (BitVec.ofNat 64 (bytesToNat b)) s2) ∧
        (∀ k, tried (waitRemote xl va) s = (.trap k, s1) ∨
            (∃ s0, tried (waitRemote xl va) s = (.ok false, s0) ∧ tried (readCtx xl va 8) s0 = (.trap k, s1)) →
          k.cause ≠ 0x1E → failed (.waitObjectObserve id) s1 ∧
            (l.record.donea = 0 → portQueue s1 l.port = [l] → exec (.waitObjectObserve id) s = .next (without s1))) ∧
        (tried (waitRemote xl va) s = (.ok true, s1) →
          let note : Notice := ⟨3, .dependence, [l.tagOwner, BitVec.ofNat 64 l.id, l.record.waita, l.record.waitv]⟩
          exec (.waitObjectObserve id) s = .next (if note ∈ s1.notices then s1 else { s1 with notices := s1.notices ++ [note] }))) ∧
      (Powered s → (∃ n ∈ s.notices, n.kind = .dependence ∧ (n.words[1]?).getD 0 = BitVec.ofNat 64 id) →
        (∀ v, answers (.dependenceRelease id v) v s) ∧ failed (.dependenceFail id) s ∧
        (l.record.donea = 0 → portQueue s l.port = [l] → exec (.dependenceFail id) s = .next (without s)) ∧
        (l.record.donea = 0 → ∀ m v, portQueue s l.port = [l, m] → m.id ≠ l.id → m.seen = some v → v.getLsbD 63 = false →
          exec (.dependenceFail id) s = .next (mapLaunch (without s) m.id fun x => { x with passed := true, since := s.ntime }))))

/-- 01 R28, R30, R36, 14 R305, R320, 16 R369 to R371, 02 R50: a peer's load, store, atomic and completion addition, and a host's
access and atomic, at their home in local HBM, a host's through the descriptor that its decoder's region maps to. A host atomic on
a page without SA is a read now and a write in a second part, which the model puts at the end of the agenda (log 89). Peer atomics
have the operations of the AMO table and the f32 addition (log 90). That a host's write to an address without a home has no effect
is the model's reading (log 91). In retain each is held, in order, and a peer's already while
the device enters it. A store changes no other byte of memory. -/
def Obligations.OutsideRequests : Prop :=
  (∀ (x : AtomicOp) (old : Nat),
    let m := 2 ^ (8 * x.bytes)
    let y := x.operand.toNat % m
    let less := signExt (8 * x.bytes) old < signExt (8 * x.bytes) y
    let gives (v : Nat) : Prop := atomicResult x old = some v
    (x.fn = .add → gives ((old + y) % m)) ∧ (x.fn = .swp → gives y) ∧
    (x.fn = .cas → (old = x.expected.toNat % m → gives y) ∧ (old ≠ x.expected.toNat % m → atomicResult x old = none)) ∧
    (x.fn = .and → gives (old &&& y)) ∧ (x.fn = .or → gives (old ||| y)) ∧ (x.fn = .xor → gives (old ^^^ y)) ∧
    (x.fn = .min → gives (if less then old else y)) ∧ (x.fn = .max → gives (if less then y else old)) ∧
    (x.fn = .minu → gives (if old < y then old else y)) ∧ (x.fn = .maxu → gives (if old < y then y else old)) ∧
    (x.fn = .fadd → gives (roundF f32Fmt 0 (fAdd 0 (decodeF f32Fmt old) (decodeF f32Fmt y))))) ∧
  ∀ s : State, Powered s →
    let performed (l : List Nat) (x : AtomicOp) : State :=
      match atomicResult x (bytesToNat (l.map (memRead s.mem))) with
      | some v => homeWrite s l (natToBytes v x.bytes)
      | none => s
    (s.bed.pwr = 2 ∨ s.bed.retainPending = true →
      ∀ r, exec (.peerRequest r) s = .next { s with heldReqs := s.heldReqs ++ [.peer r] }) ∧
    (s.bed.pwr = 2 →
      (∀ pa n wr, exec (.hostCxlMemAccess pa n wr) s = .next { s with heldReqs := s.heldReqs ++ [.host pa n wr] }) ∧
      ∀ pa sa x, exec (.hostAtomic pa sa x) s = .next { s with heldReqs := s.heldReqs ++ [.hostAtomic pa sa x] }) ∧
    (Serving s → ∀ r : PeerReq,
      let pa := r.addr.toNat
      (∀ n, r.op = .load n → exec (.peerRequest r) s = .next s) ∧
      (∀ data l, r.op = .store data → physLocs s pa data.length = some l →
        ∃ t, exec (.peerRequest r) s = .next t ∧ t = homeWrite s l data ∧ (s.MemWf → ∀ a, a ∉ l → memRead t.mem a = memRead s.mem a)) ∧
      (∀ x l, r.op = .atomic x → physLocs s pa x.bytes = some l →
        ((∀ p ∈ l, poisoned s p = false) → exec (.peerRequest r) s = .next (performed l x)) ∧
        ((∃ p ∈ l, poisoned s p = true) → exec (.peerRequest r) s = .next s)) ∧
      ∀ n e l, r.op = .addition n e → physLocs s pa 8 = some l →
        ((∀ p ∈ l, poisoned s p = false) → exec (.peerRequest r) s = .next (homeWrite s l
          (natToBytes (completionValue (bytesToNat (l.map (memRead s.mem))) (n.toNat % 2 ^ 63) e) 8))) ∧
        ((∃ p ∈ l, poisoned s p = true) → ∃ m : Notice, m.duty = 7 ∧ m.kind = .poison ∧
          exec (.peerRequest r) s = .next { s with notices := s.notices ++ [m] })) ∧
    (s.bed.pwr ≠ 2 →
      (∀ (pa : BitVec 52) n, exec (.hostCxlMemAccess pa n none) s = .next s ∧
        ∀ data : List Byte,
          (∀ l, hostLocs s pa.toNat data.length = some l → ∃ t, exec (.hostCxlMemAccess pa n (some data)) s = .next t ∧
            t = homeWrite s l data ∧ (s.MemWf → ∀ a, a ∉ l → memRead t.mem a = memRead s.mem a)) ∧
          (hostLocs s pa.toNat data.length = none → exec (.hostCxlMemAccess pa n (some data)) s = .next s)) ∧
      (∀ (pa : BitVec 52) (x : AtomicOp) (l : List Nat), hostLocs s pa.toNat x.bytes = some l →
        ((∀ p ∈ l, poisoned s p = false) → exec (.hostAtomic pa true x) s = .next (performed l x)) ∧
        (∀ v, atomicResult x (bytesToNat (l.map (memRead s.mem))) = some v → exec (.hostAtomic pa false x) s =
          .next { s with agenda := s.agenda ++ [.event (.hostCxlMemAccess pa x.bytes (some (natToBytes v x.bytes)))] })) ∧
      (∀ (r : HostRange) more pa, s.dev.hostMap = r :: more → r.base ≤ pa → pa < r.base + r.size →
        hostLocs s pa 1 = (hbmMap (devReg s (0x10000 + 16 * r.desc.toNat)) (devReg s (0x10008 + 16 * r.desc.toNat)) pa).map fun p => [p]))

/-! ### The launch sequencer (04 R79 to R93, 03 R68, 07 R154) -/

/-- 04 R80 to R83, R85: of the gangs of a die's queue, which is in the order of class, time in the queue and number, the
first that fits is placed, in the gallery and on the cores that R80 gives it, with the registers of 03 R65 set from the
record and its pcs and vectors from the code object; a saved gang is placed for its restore and keeps the classes it gained. A gang in the queue for a further millisecond becomes one class more urgent, and so does a hart on a pipe
that was ready there and passed over for 256 cycles. A victim for the head is a gang of the gallery that waits, or one of a class
no more urgent that has run for 32,000 cycles. Which of the gangs that fit goes first across galleries, that gangs which already
have a request count as leaving, and the order of victims equal in all that the rule names are the model's (logs 66, 67, 146); so
are the zeros of the scalar registers at placement (log 2). -/
def Obligations.PlacementEvents : Prop :=
  ∀ s : State, Awake s →
    (∀ die : BitVec 3,
      (placeQueue s die.toNat).Pairwise (fun x y => y.before x = false) ∧
      ((∀ w ∈ placeQueue s die.toNat, fitGang s die w = none) → exec (.gangPlace die) s = .next s) ∧
      (∀ pre w rest k places l, placeQueue s die.toNat = pre ++ w :: rest → (∀ x ∈ pre, fitGang s die x = none) →
        fitGang s die w = some (k, places) → findGang s w.id = none → findLaunch s w.id = some l →
        ∃ t g, exec (.gangPlace die) s = .next t ∧ t.gangs = s.gangs ++ [g] ∧ t.mem = s.mem ∧
          t.lastGallery = s.lastGallery.set die.toNat k die.isLt ∧
          g.id = l.id * 2 ^ 32 + l.placed ∧ g.die = die.toNat ∧ g.gallery = k ∧ g.st = .resident ∧
          g.harts.length = places.length ∧
          ∀ hid h, g.harts[hid]? = some h → places[hid]? = some (h.core, h.ctx) ∧ h.mode = .active ∧
            h.as_.pc = l.asEntry ∧ h.cs.pc = l.csEntry ∧ h.as_.cond = .running ∧ h.cs.cond = .running ∧
            h.hid = BitVec.ofNat 64 hid ∧ h.gsz = BitVec.ofNat 64 l.record.gsz ∧ h.kargs = l.record.kargs ∧
            h.gix = BitVec.ofNat 64 (l.record.gbase + l.placed) ∧ h.gcnt = BitVec.ofNat 64 l.record.gangs ∧
            h.tr.evecA = l.asVec ∧ h.tr.evecC = l.csVec ∧ h.tr.emask = l.emask ∧ h.slip = 128 ∧
            (∀ sl r, h.getReg sl r = 0) ∧ h.viq = [] ∧ h.ypend = 0) ∧
      (∀ pre w rest k places g, placeQueue s die.toNat = pre ++ w :: rest → (∀ x ∈ pre, fitGang s die x = none) →
        fitGang s die w = some (k, places) → findGang s w.id = some g →
        ∃ t y, exec (.gangPlace die) s = .next t ∧ findGang t w.id = some y ∧ y.st = .restoring ∧ y.gallery = k ∧
          t.aged = s.aged ∧ t.lastGallery = s.lastGallery.set die.toNat k die.isLt ∧ y.harts.length = g.harts.length ∧
          ∀ (hid : Nat) (p : Nat × Nat) (h : Hart), places[hid]? = some p → y.harts[hid]? = some h → h.core = p.1 ∧ h.ctx = p.2) ∧
      (∀ w rest, placeQueue s die.toNat = w :: rest →
        ((fitGang s die w).isSome = true → exec (.victimSelect die) s = .next s) ∧
        (∀ l, fitGang s die w = none →
          ((galleryOrder s die).findSome? fun k =>
            takeVictims s die.toNat k w (leaving s die.toNat k) [] (victimsOf s die.toNat k w.cls)) = some l →
          exec (.victimSelect die) s = .next (l.foldl (fun s g => postYield s g 0) s)) ∧
        ∀ k l, takeVictims s die.toNat k w (leaving s die.toNat k) [] (victimsOf s die.toNat k w.cls) = some l →
          ∀ id ∈ l, ∃ g ∈ s.gangs, ∃ a, g.id = id ∧ findLaunch s id = some a ∧ g.st = .resident ∧ g.gallery = k ∧
            (g.allWaiting = true ∨ (w.cls ≤ a.record.pri ∧ 32000 ≤ s.cycle.toNat - g.since)))) ∧
    (∀ gang l since k, findLaunch s gang = some l → queuedSince s gang = some since → (assoc gang s.aged).getD 0 = k →
      (k < l.record.pri → (k + 1) * (720720 * 1000000) ≤ s.ntime - since →
        exec (.classAging gang) s = .next { s with aged := insertKey gang (k + 1) s.aged }) ∧
      (l.record.pri ≤ k ∨ s.ntime - since < (k + 1) * (720720 * 1000000) → exec (.classAging gang) s = .next s)) ∧
    (∀ gang (hid : BitVec 4) pipe g, findGang s gang = some g →
      (g.st = .resident → exec (.issueClassAging gang hid pipe) s = .next (mapHart s gang hid.toNat fun h =>
        if 256 ≤ (h.passed[pipeIndex pipe]?).getD 0 then { h with
          issueClass := h.issueClass.modify (pipeIndex pipe) (· - 1), passed := h.passed.modify (pipeIndex pipe) (· - 256) }
        else h)) ∧
      (g.st ≠ .resident → exec (.issueClassAging gang hid pipe) s = .next s)) ∧
    (∀ n rest gang (g : Gang) (hid : Nat) (x : Hart), s.agenda = .clocks n :: rest → findGang s gang = some g → g.st = .resident →
      g.harts[hid]? = some x → ∃ t y, step s = .next t ∧ findHart t gang hid = some y ∧ y.issueClass = x.issueClass ∧
        t.cycle = s.cycle + BitVec.ofNat 64 n ∧
        let behind := readyBehind { s with agenda := rest, ntime := t.ntime, dev := { s.dev with chans := t.dev.chans } } gang hid
        ∀ k p, x.passed[k]? = some p → y.passed[k]? = some (if x.readyFor behind k then p + n else 0))

/-- 04 R87 to R93, 03 R68: a yield request posts P, the reason and the deadline of the record's yield class to every hart, and a
second one is ignored; a kill ends every hart at once; a hart past its deadline that has not stopped is stopped by force and its
save begins; a gang that has ended and joined is gone, its end added to the done object. That a stopped hart's issued stores are
performed before its save begins is the model's (log 70), and so is that those of a killed gang are performed (log 69). -/
def Obligations.GangEvents : Prop :=
  ∀ (s : State) (gang : Nat) (g : Gang) (l : Launch), findGang s gang = some g → findLaunch s gang = some l →
    (Awake s → g.st = .resident →
      ((∃ h ∈ g.harts, h.ypend.getLsbD 63 = true ∧ h.mode ≠ .exited) → exec (.systemYieldRequest gang) s = .next s) ∧
      ((∀ h ∈ g.harts, (h.ypend.getLsbD 63 = false ∨ h.mode = .exited) ∧ (h.mode = .active → h.isWaiting = false) ∧
          h.mode ≠ .debugHalt) →
        let ycls := l.record.ctrl.toNat / 2 ^ 12 % 8
        let interval := if ycls = 7 then 1 else 1024 * 4 ^ ycls
        exec (.systemYieldRequest gang) s = .next (mapGang s gang fun x => { x with harts := x.harts.map fun h => { h with
          ypend := BitVec.ofNat 64 (2 ^ 63 + 2 ^ 61 + (s.cycle.toNat + interval) % 2 ^ 48) } })) ∧
      (∀ hid x, g.harts[hid]? = some x → x.mode = .active → x.ypend.getLsbD 63 = true →
        (s.cycle.toNat + 2 ^ 48 - x.ypend.toNat % 2 ^ 48) % 2 ^ 48 < 2 ^ 47 → storesGo x →
        ∃ t y, exec (.forcedStop gang) s = .next t ∧ findHart t gang hid = some y ∧ y.mode = .saving ∧ y.coop = false ∧
          y.save.isSome = true ∧ y.abuf = [] ∧ y.cbuf = [] ∧ y.as_.pc = x.as_.pc ∧ y.cs.pc = x.cs.pc ∧ y.a = x.a ∧ y.c = x.c)) ∧
    (Powered s → (∀ k, g.st ≠ .ended k) → (∀ h ∈ g.harts, storesGo h) →
      ∃ t y, exec (.gangKill gang) s = .next t ∧ findGang t gang = some y ∧ y.st = .ended true ∧ y.chamber = [] ∧
        y.harts.length = g.harts.length ∧
        ∀ h ∈ y.harts, h.mode = .exited ∧ h.viq = [] ∧ h.qa = [] ∧ h.qc = [] ∧ h.qb = [] ∧ h.windows = [] ∧ h.tcm = [] ∧
          h.abuf = [] ∧ h.cbuf = [] ∧ h.sysTrap = false) ∧
    (∀ k, Awake s → g.st = .ended k → (∀ o ∈ s.ops, o.gang ≠ gang) → (∀ a ∈ s.adds, a.gang ≠ some gang) →
      (∀ h ∈ g.harts, h.abuf = [] ∧ h.cbuf = []) →
      let t := doneAdd s l.port l.record l.ctx 1 k
      (l.ended + 1 = l.record.gangs → exec (.gangEnd gang) s = .next { t with
        gangs := t.gangs.filter (fun x => x.id != gang), launches := t.launches.filter fun x => x.id != l.id }) ∧
      (l.ended + 1 ≠ l.record.gangs → exec (.gangEnd gang) s = .next (mapLaunch
        { t with gangs := t.gangs.filter fun x => x.id != gang } l.id fun x => { x with ended := x.ended + 1 })))

/-- 07 R154, R165 to R167, 04 R92, 08 R180: the answers to a system trap and to a save or a restore, and a save or a restore as it
completes. A *resume* answer restarts the slices at the saved pcs; a hart stopped otherwise takes it when it goes on. A save
writes what remains of its area and the status word last, and the gang whose last save it is goes to the placement queue; one
that stops keeps its place and tells its owner. A restored gang's harts go on from what was read. That an answer to a hart stopped
otherwise is kept is the model's (log 77), and so is that hart 0's area, complete before the other harts have stopped, is written
anew with the gang's state once they have (log 161). -/
def Obligations.AnswersAndSaves : Prop :=
  ∀ (s : State) (gang : Nat) (hid : BitVec 4) (g : Gang) (x : Hart), findGang s gang = some g →
    findHart s gang hid.toNat = some x →
    (Powered s →
      (x.sysTrap = false → ∀ tape, exec (.trapResume gang hid tape) s = .next s ∧ exec (.trapKill gang hid) s = .next s) ∧
      (x.sysTrap = true → exec (.trapKill gang hid) s = .next (killGang s gang) ∧
        (x.mode ≠ .active → ∀ tape, exec (.trapResume gang hid tape) s =
          .next (mapHart s gang hid.toNat fun y => { y with answer := some tape })) ∧
        (x.mode = .active → x.tr.ecause.getLsbD 11 = false → x.tr.epca.toNat % 8 = 0 → x.tr.epcc.toNat % 8 = 0 →
          (∀ e, x.held.head? = some e → e.resume = false) →
          (∃ t, exec (.trapResume gang hid none) s = .next t ∧ t.mem = s.mem ∧ findHart t gang hid.toNat = some { x with
            viq := x.held ++ x.viq, held := [], sysTrap := false
            as_ := { x.as_ with pc := x.tr.epca, cond := .running }
            cs := { x.cs with pc := x.tr.epcc, cond := .running } }) ∧
          ∀ h l, x.tr.ecause.toNat % 256 = 0x14 ∨ x.tr.ecause.toNat % 256 = 0x15 →
            ∃ t y, exec (.trapResume gang hid (some (h, l))) s = .next t ∧ findHart t gang hid.toNat = some y ∧
              y.tp.tapeh = h &&& ~~~(7#64) ∧ y.tp.tapel = l &&& ~~~(7#64) ∧ y.sysTrap = false)) ∧
      (∀ v, x.save = some v →
        (v.st = .needArea → ∀ base limit, exec (.saveAreaProvided gang hid base limit) s = .next (mapHart s gang hid.toNat
          fun y => { y with save := y.save.map fun w => if w.st = .needArea then { w with st := .writing, base := base, limit := limit } else w })) ∧
        (∀ why va, v.st = .incomplete why va →
          (∀ base limit, exec (.saveRestart gang hid base limit) s = .next (mapHart s gang hid.toNat fun y => { y with
            save := y.save.map fun w => { w with st := .writing, base := base, limit := limit, off := 0 } })) ∧
          (∀ limit, (if v.off = 2 ^ 32 then 0 else v.off) ≤ limit → exec (.saveContinue gang hid limit) s =
            .next (mapHart s gang hid.toNat fun y => { y with save := y.save.map fun w => { w with st := .writing, limit := limit } })) ∧
          exec (.saveKill gang hid) s = .next (killGang s gang))) ∧
      (exec (.restoreAnswer gang) s = .next (mapGang s gang fun y => if y.st = .awaiting then { y with st := .saved } else y))) ∧
    (Clocked s → ∀ v l, x.save = some v → findLaunch s gang = some l →
      let vrlen := 4096 * 2 ^ (l.record.ctrl.toNat / 8 % 8)
      let cxe := { hartXlat s gang hid.toNat with hart := none, gang := none }
      let stopped : Prop := ∀ h ∈ g.harts, h.mode = .saving ∨ h.mode = .exited
      (v.st = .writing → g.st = .resident →
        (v.done = false ∧ (hid ≠ 0 ∨ stopped ∨ x.mode ≠ .exited) ∨ hid = 0 ∧ stopped ∧ v.gang = false) →
        let all := (saveChunks s vrlen g hid.toNat x).filter (fun c => v.off ≤ c.off) ++
          [{ off := 0, bytes := natToBytes (statusWord x).toNat 8 }]
        (∀ n s1, writeChunks cxe v.base v.limit all s = (.complete, n, s1) →
          exec (.saveComplete gang hid) s = .next (leaveIfSaved (mapHart (useFree s1) gang hid.toNat fun y => { y with
            save := y.save.map fun w => { w with done := true, gang := g.allStopped, off := 0 } }) gang)) ∧
        (∀ why va n s1, writeChunks cxe v.base v.limit all s = (.stopped why va, n, s1) → findHart s1 gang hid.toNat = some x →
          ∃ t y w, exec (.saveIncomplete gang hid) s = .next t ∧ findHart t gang hid.toNat = some y ∧ y.save = some w ∧
            w.st = .incomplete why va ∧ w.off = (if n = 0 then 2 ^ 32 else n) ∧
            ∃ k, t.notices = s1.notices ++ [k] ∧ k.duty = 1 ∧ k.kind = .saveIncomplete)) ∧
      (v.st ≠ .restored → g.st = .restoring →
        (∀ z s1, tried (restoreHart cxe v.base vrlen g hid.toNat x) s = (.ok z, s1) →
          exec (.restoreComplete gang hid) s = .next (becomeResident
            (mapHart s1 gang hid.toNat fun _ => { z with save := some { v with st := .restored } }) gang)) ∧
        (∀ k s1, tried (restoreHart cxe v.base vrlen g hid.toNat x) s = (.trap k, s1) → k.cause ≠ 0x1E → findGang s1 gang = some g →
          ∃ t y, exec (.restoreFault gang hid) s = .next t ∧ findGang t gang = some y ∧ y.st = .awaiting ∧
            ∃ n, t.notices = s1.notices ++ [n] ∧ n.duty = 1 ∧ n.kind = .restoreFault)))

/-! ### Engines, cold text, waiting harts and the siphon (15 R342 to R349, 03 R75, 05 R105, R109, 11 R229, R251, 16 R362) -/

namespace Sys2Proof.Claims

/-- Bytes written by an agent outside a hart where it found them, with D set in the leaves (07 R144). -/
def wrote (s : State) (f : Found) (b : List Byte) : State := homeWrite (dirtied s f) f.locs b

end Sys2Proof.Claims

/-- 15 R342 to R345, R349: an operation whose fault is answered translates again or ends in error. A copy ends without error
after its last element, in error at once when its descriptor is invalid; the destination bytes it has completed are added to its
arrival counter. A collective that every member here and elsewhere has issued runs, or ends in error where members disagree or
name a window. A verdict is kept once for a program of an admitted code object that was asked about. The order of a copy's
elements, and that a *fail* answer ends a collective in every member, are the model's (logs 15, 55). -/
def Obligations.EngineEvents : Prop :=
  ∀ (s : State) (id : Nat) (o : Op), findOp s id = some o → o.id = id →
    (Powered s → o.tfault.isSome = true →
      exec (.opFaultResume id) s = .next (mapOp s id fun x => { x with tfault := none }) ∧
      (∀ d, o.body = .copy d → exec (.opFaultFail id) s = .next (endOp s o true)) ∧
      ∀ c n d, o.body = .coll c n d →
        (∀ k, findColl s c n = some k → exec (.opFaultFail id) s = .next (endColl s k true true)) ∧
        (findColl s c n = none → exec (.opFaultFail id) s = .next (endOp s o true))) ∧
    (Clocked s → o.tfault = none → ∀ d, o.body = .copy d →
      (d.bad = true → exec (.copyComplete id) s = .next (endOp s o true)) ∧
      (d.bad = false → d.arr = 0 → ∀ s1, copyRun (opXlat s o) d (d.total - o.done) o.done s = (d.total, .ok, s1) →
        exec (.copyComplete id) s = .next (endOp (mapOp (mapOp s1 id fun x => { x with done := d.total }) id fun x =>
          { x with sent := (d.total * fmtWidth d.fmtT + 7) / 8 }) o false)) ∧
      (∀ w s1 s2 s3 b l, d.bad = false → d.fmtF = d.fmtT → fmtWidth d.fmtF = w → w % 8 = 0 → 0 < w →
        d.dims.map (fun x => x.1.toNat) = [1] →
        tried (readCtx (opXlat s o) d.from_.toNat (w / 8)) s = (.ok b, s1) → b.length = w / 8 →
        tried (locateCtx (opXlat s o) .store d.to_.toNat (w / 8)) s1 = (.ok l, s2) → s3 = wrote s2 l b →
        copyRun (opXlat s o) d 1 0 s = (1, .ok, s3)) ∧
      (∀ n k s1 f s2 old s3, d.bad = false → d.arr ≠ 0 → d.arr.toNat % 8 = 0 →
        copyRun (opXlat s o) d (min n (d.total - o.done)) o.done s = (k, .ok, s1) →
        tried (locate (opXlat s o) .atomic d.arr.toNat 8) (mapOp s1 id fun x => { x with done := k }) = (.ok f, s2) →
        tried (readLocs [] f.locs d.arr.toNat) s2 = (.ok old, s3) →
        let bytes := if k = d.total then (k * fmtWidth d.fmtT + 7) / 8 else k * fmtWidth d.fmtT / 8
        exec (.arrivalCounterAddition id n) s = .next (mapOp (wrote s3 f
          (natToBytes (bytesToNat old + (bytes - o.sent)) 8)) id fun x => { x with sent := bytes }))) ∧
    (Clocked s → ∀ (cid : BitVec 8) (num : Nat) (c : CollOp) (r : List (BitVec 8)), findColl s cid.toNat num = some c →
      c.route = some r → c.ready s r [] = true → (∀ p ∈ r, p.toNat = s.dev.pkg.toNat) →
      (∀ j o1 d1 rest, localMembers s c r = (j, o1, d1) :: rest →
        (∃ y ∈ (j, o1, d1) :: rest, collAgree r.length d1 y.2.2 = false) →
        exec (.collectiveComplete cid num []) s = .next (endColl s c true true)) ∧
      (∀ j o1 d1 rest, localMembers s c r = (j, o1, d1) :: rest → (∃ y ∈ (j, o1, d1) :: rest, y.2.2.inWindow r.length = true) →
        exec (.collectiveComplete cid num []) s = .next (endColl s c true true)) ∧
      (∀ o0 o1 d0 d1, localMembers s c r = [(0, o0, d0), (1, o1, d1)] → r.length = 2 → collAgree 2 d0 d0 = true →
        collAgree 2 d0 d1 = true → d0.op = 0 → d0.fmt = 0x04 → d0.inWindow 2 = false → d1.inWindow 2 = false →
        ∀ b0 b1 l0 l1 s1 s2 s3 s4, let n := d0.count
          tried (readCtx (opXlat s o0) d0.from_.toNat (n * 4)) s = (.ok b0, s1) →
          tried (readCtx (opXlat s1 o1) d1.from_.toNat (n * 4)) s1 = (.ok b1, s2) →
          tried (locateCtx (opXlat s2 o0) .store d0.to_.toNat (n * 4)) s2 = (.ok l0, s3) →
          tried (locateCtx (opXlat s3 o1) .store d1.to_.toNat (n * 4)) s3 = (.ok l1, s4) →
          let word (b : List Byte) (k : Nat) : Nat := bytesToNat ((b.drop (4 * k)).take 4)
          let out := (List.range n).flatMap fun k => natToBytes ((word b0 k + word b1 k) % 2 ^ 32) 4
          exec (.collectiveComplete cid num []) s = .next (endColl (wrote (wrote s4 l0 out) l1 out) c false true))) ∧
    (Powered s → ∀ code asid (prog : BitVec 8) ok,
      let asked (d : BitVec 512) : Prop := ∃ n ∈ s.notices, n.kind = .nbeVerdict ∧
        (n.words.drop 1).take 3 = [code, asid.setWidth 64, BitVec.ofNat 64 prog.toNat] ∧
        ∃ w l, n.words[4]? = some w ∧ findLaunchId s w.toNat = some l ∧ l.digest = d
      let known (d : BitVec 512) : Prop := ∃ v ∈ s.verdicts, v.1 = d ∧ v.2.1 = prog.toNat
      ((∀ d, asked d → known d) → exec (.nbeVerdict code asid prog ok) s = .next s) ∧
      (∀ d, asked d → ¬ known d → (∀ e, asked e → e = d ∨ known e) → exec (.nbeVerdict code asid prog ok) s =
        .next { s with verdicts := s.verdicts ++ [(d, prog.toNat, if ok then .answered else .refused)] }))

/-- 03 R75, 05 R105, R109, 11 R229, R251, 14 R304, 16 R358, R361, R362: what events make of a hart that is in place: a slice that
waits for its cold page, and an answered trap whose resume checks do, goes on when the page has been copied and takes MCHK when it
could not be; a hart both of whose slices have waited 65,536 cycles only for each other, whatever its vector queue holds, takes
QDEADLOCK in its AS; `wait` and `cwait` look again; the oldest `garr` marker that no older store holds up arrives; a pending store is
performed at its home when it may pass those older than it; the siphon reads and translates ahead, stops at a DEV page, holds
translations for four pages of a store stream and records a fault it meets. The bits of `einfo` at waits that are no queue, and
which slice takes a failed copy first, are the model's (logs 64, 94), as are one element per event of the siphon (log 95) and which
stores may pass older ones (log 110). A `garr` marker's turn counts an arrival of the AS that was held as well (log 113). -/
def Obligations.HartEvents : Prop :=
  ∀ (s : State) (gang : Nat) (hid : BitVec 4) (g : Gang) (x : Hart), findGang s gang = some g →
    findHart s gang hid.toNat = some x →
    (Powered s → ∀ (va : Word) ir ppn reach e src s1,
      tried (coldPage (hartXlat s gang hid.toNat) va.toNat) s = (.ok (e, src), s1) →
      let copied := exec (.coldTextCopied gang hid va ir ppn reach) s
      let cold : Cond := .waiting (.coldText (va.toNat / 65536))
      (g.st = .resident → x.mode = .active ∨ x.mode = .debugHalt → x.as_.cond = cold ∨ x.cs.cond = cold →
        let sl : SliceId := if x.as_.cond = cold then .as else .cs
        (reach = false → copied = .next (takeTrap s1 gang hid.toNat sl none { cause := 0x1E, eaddr := va })) ∧
        (∀ k p, reach = true → src[k]? = some p → poisoned s1 p = true → (∀ q ∈ src.take k, poisoned s1 q = false) →
          copied = .next (takeTrap s1 gang hid.toNat sl none
            { cause := 0x1E, eaddr := BitVec.ofNat 64 (va.toNat / 65536 * 65536 + k) })) ∧
        (reach = true → (∀ p ∈ src, poisoned s1 p = false) → ∀ dst, frameLocs s1 ir ppn = some dst →
          copied = .next (coldCopied s1 e src dst ir ppn))) ∧
      (∀ tape, g.st = .resident → x.as_.cond ≠ cold → x.cs.cond ≠ cold → x.mode = .active → x.answer = some tape →
        x.tr.ecause.getLsbD 11 = true →
        (∃ s2, tried (checkResume x.tr.took ((x.answered tape).slice x.tr.took).pc)
          { withAnswer s gang hid.toNat tape with cur := .slice gang hid.toNat x.tr.took } =
            (.wait (.coldText (va.toNat / 65536)), s2)) → reach = false →
        copied = .next (takeTrap (withAnswer s1 gang hid.toNat tape) gang hid.toNat x.tr.took none
          { cause := 0x1E, eaddr := va })) ∧
      (g.st ≠ .resident ∨ (x.mode ≠ .active ∧ x.mode ≠ .debugHalt) ∨ (x.as_.cond ≠ cold ∧ x.cs.cond ≠ cold ∧
        (x.mode ≠ .active ∨ x.answer = none)) → copied = .next s)) ∧
    (Awake s → x.mode = .active → x.sysTrap = false →
      (65536 ≤ x.waitCount → x.as_.cond = .waiting .queue → x.cs.cond = .waiting .queue →
        exec (.qdeadlockExpiry gang hid) s = .next (takeTrap s gang hid.toNat .as none { cause := 0x18, einfo := 3 } true)) ∧
      (65536 ≤ x.waitCount → x.as_.cond = .waiting .queue → x.cs.cond = .waiting .snext →
        exec (.qdeadlockExpiry gang hid) s = .next (takeTrap s gang hid.toNat .as none { cause := 0x18, einfo := 1 } true)) ∧
      (x.waitCount < 65536 → exec (.qdeadlockExpiry gang hid) s = .next s) ∧
      (∀ n rest, s.agenda = .clocks n :: rest → g.st = .resident → ∃ t y, step s = .next t ∧
        findHart t gang hid.toNat = some y ∧
        y.waitCount = if condMutual x.as_.cond && condMutual x.cs.cond &&
          !(x.as_.cond.atRendezvous && x.cs.cond.atRendezvous) then x.waitCount + n else x.waitCount)) ∧
    (Awake s → exec (.waitRecheck gang hid) s = .next (mapHart s gang hid.toNat fun y =>
      if y.mode = .active ∧ (y.as_.cond = .waiting .word ∨ y.as_.cond = .waiting .cwait) then
        { y with as_ := { y.as_ with cond := .running } }
      else y)) ∧
    (Clocked s → g.st = .resident →
      (∀ k n, x.markers = k :: n → (∀ w ∈ x.cbuf, k.2 ≤ w.seq) → ∃ t y, exec (.garrMarkerFire gang hid) s = .next t ∧
        findHart t gang hid.toNat = some y ∧ y.markers = n ∧ y.a = x.a ∧ y.c = x.c ∧ y.v = x.v ∧ t.mem = s.mem) ∧
      ((∀ k ∈ x.markers, ∃ w ∈ x.cbuf, w.seq < k.2) →
        (∀ k n, x.asHeld = k :: n → (∀ w ∈ x.abuf, k.2 ≤ w.seq) → ∃ t y, exec (.garrMarkerFire gang hid) s = .next t ∧
          findHart t gang hid.toNat = some y ∧ y.asHeld = n ∧ y.markers = x.markers ∧ y.a = x.a ∧ t.mem = s.mem) ∧
        ((∀ k ∈ x.asHeld, ∃ w ∈ x.abuf, w.seq < k.2) → exec (.garrMarkerFire gang hid) s = .next s))) ∧
    (Powered s → ∀ (sl : SliceId) (k : Nat) (w : PWrite), (x.buf sl)[k]? = some w →
      ((∀ o ∈ (x.buf sl).take k, passes sl o w) → canGo w →
        ∃ t y, exec (.writePerformedAtHome gang hid sl k) s = .next t ∧ findHart t gang hid.toNat = some y ∧
          y.buf sl = (x.buf sl).eraseIdx k ∧ t.mem = memWriteAll s.mem w.cells ∧ y.buf (other sl) = x.buf (other sl) ∧
          y.a = x.a ∧ y.c = x.c) ∧
      ((∃ o ∈ (x.buf sl).take k, ¬ passes sl o w) ∨ ¬ canGo w → exec (.writePerformedAtHome gang hid sl k) s = .next s)) ∧
    (Awake s → g.st = .resident → x.mode = .active → ∀ (k : BitVec 4) (d : Desc),
      let r : BitVec 5 := k.setWidth 5
      let st := x.stream r
      let p := max st.ahead st.pos
      let xl := hartXlat s gang hid.toNat
      let w := fmtWidth d.fmt
      let walks := exec (.siphonWalkAhead gang hid k) s
      let put (s1 : State) (f : Stream → Stream) : State := mapHart s1 gang hid.toNat fun y => y.setStream r (f (y.stream r))
      st.adopted = some d → st.dfault = none → d.kind ≠ 2 → p < d.len →
      (d.wr = true →
        (4 < d.pagesTo st.pos p → walks = .next s) ∧
        (d.pagesTo st.pos p ≤ 4 →
          (∀ go s1, tried (translateAhead xl d p w) s = (.ok go, s1) →
            walks = .next (put s1 fun y => { y with ahead := if go then p + 1 else p })) ∧
          (∀ t s1, tried (translateAhead xl d p w) s = (.trap t, s1) →
            walks = .next (put s1 fun y => { y with dfault := some (walkFault t p) })))) ∧
      (∀ e s1, let a := d.elemAt p w
        inWindowSpan a.va = false → canonical a.va = true → a.va % 65536 + a.bytes ≤ 65536 →
        tried (pageLeaf xl (if d.wr then .store else .load) true a.va a.va) s = (.ok e, s1) →
        tried (translateAhead xl d p w) s = (.ok !pteDEV e.pte, s1)) ∧
      (d.wr = false → ∀ s1,
        (∀ cells next, tried (walkElem d st p) { s with cur := .slice gang hid.toNat .cs } = (.ok (.read cells next), s1) →
          walks = .next (put { s1 with cur := s.cur } fun y => { y with walk := y.walk ++ cells, ahead := next })) ∧
        (tried (walkElem d st p) { s with cur := .slice gang hid.toNat .cs } = (.ok .stop, s1) →
          walks = .next { s1 with cur := s.cur }) ∧
        ∀ t, tried (walkElem d st p) { s with cur := .slice gang hid.toNat .cs } = (.trap t, s1) →
          walks = .next (put { s1 with cur := s.cur } fun y => { y with dfault := some (walkFault t p) })))

/-! ### Steps, decoding, reset and memory (05 R96, R112, 09 R181 to R186, 15 R351, 00 R4) -/

/-- 09 R181 to R185, 05 R96, R112: a step runs the decoded instruction. A device event at the head of the agenda runs; with an
empty agenda the agent that moves takes its turn. A running slice of a resident, active hart fetches at its pc, from its fetch
buffer or from memory, and runs what the word, the word and its prefix, or the second half of a pair decodes to; a near-bank
engine runs the word of its program, a survey core that of its text. The CS first runs the instruction at the head of its vector
queue, but for a turn in which it runs ahead of the queue; a turn of the queue's head alone may stop after some element groups.
A hart whose deadline is past is stopped by force instead. A turn of a younger entry of the queue counts as an issue when the
entry went on. The order of agents and which words a fetch buffer holds are the model's (logs 3, 5, 9), and so is that a survey
core takes the trap of a failed fetch itself (log 12). -/
def Obligations.StepRunsDecoded : Prop :=
  (∀ s i rest, s.agenda = .event i :: rest → step s = exec i { s with agenda := rest }) ∧
  (∀ (s : State) (h : Here) (x : Hart) (g : Gang), Runs s h x → s.agenda = [] →
    s.cur = .slice h.gang h.hid h.sl ∨ s.cur = .ahead h.gang h.hid →
    s.bed.off = false → s.bed.pwr = 0 → s.bed.retainPending = false → findGang s h.gang = some g → g.st = .resident →
    x.mode = .active → x.sysTrap = false → late s x → step s = .next (forceGang s h.gang)) ∧
  (∀ (s : State) (h : Here) (x : Hart) (g : Gang), Runs s h x → s.agenda = [] →
    s.cur = .slice h.gang h.hid h.sl ∨ s.cur = .ahead h.gang h.hid →
    s.bed.off = false → s.bed.pwr = 0 → s.bed.retainPending = false → findGang s h.gang = some g → g.st = .resident →
    x.mode = .active → x.sysTrap = false → ¬ late s x → (x.slice h.sl).cond = .running →
    (s.ahead = false → h.sl = .cs → ∀ e rest s1, x.viq = e :: rest → runHead s = .ok .done s1 →
      step s = .next (afterHead s1 h.gang h.hid e.kind)) ∧
    (h.sl = .as ∨ x.viq = [] ∨ s.ahead = true →
      let pc := (x.slice h.sl).pc
      let held (a : Word) (w : TextWord) : Prop := ((x.slice h.sl).fbuf.find? fun c => c.1 == a) = some (a, w)
      (∀ w i n, pc.toNat % 4 = 0 → held pc w → w.toNat % 4 ≠ 2 → decodeWords w none false = .ok (i, n) →
        step s = afterSlice h.gang h.hid h.sl (exec i s)) ∧
      (∀ w0 w1 i n, pc.toNat % 8 = 0 → held pc w0 → held (pc + 4) w1 → w0.toNat % 4 = 2 →
        decodeWords w0 (some w1) false = .ok (i, n) → step s = afterSlice h.gang h.hid h.sl (exec i s)) ∧
      (∀ w i n, pc.toNat % 4 = 2 → held (pc - 2) w → w.toNat % 4 = 1 → decodeWords w none true = .ok (i, n) →
        step s = afterSlice h.gang h.hid h.sl (exec i s)) ∧
      (∀ f s1 bytes s2 i n, pc.toNat % 4 = 0 → ((x.slice h.sl).fbuf.find? fun c => c.1 == pc) = none →
        (locateHere .fetch pc.toNat 4) s = .ok f s1 → readLocs [] f.locs pc.toNat s1 = .ok bytes s2 → Runs s2 h x →
        let w : TextWord := BitVec.ofNat 32 (bytesToNat bytes)
        w.toNat % 4 ≠ 2 → decodeWords w none false = .ok (i, n) →
        step s = afterSlice h.gang h.hid h.sl (exec i (mapHart s2 h.gang h.hid fun y =>
          y.setSlice h.sl { y.slice h.sl with fbuf := fbufAdd (y.slice h.sl).fbuf pc w }))))) ∧
  (∀ (s s1 : State) (gang hid n : Nat) (g : Gang) (x : Hart) (e : VEntry) (rest : List VEntry), s.agenda = [] →
    s.cur = .part gang hid 0 n → Awake s → findGang s gang = some g → g.st = .resident → findHart s gang hid = some x →
    x.mode = .active → x.sysTrap = false → ¬ late s x → x.viq = e :: rest →
    (runHeadPart n s = .ok .done s1 → step s = .next (afterHead s1 gang hid e.kind)) ∧
    (runHeadPart n s = .ok .paused s1 → step s = .next (noteIssue s1 gang hid (vPipe e.kind)))) ∧
  (∀ (s s1 : State) (gang hid k n : Nat) (g : Gang) (x : Hart) (e : VEntry) (went : Bool), s.agenda = [] →
    s.cur = .part gang hid k n → k ≠ 0 → Awake s → findGang s gang = some g → g.st = .resident →
    findHart s gang hid = some x → x.mode = .active → x.sysTrap = false → ¬ late s x → x.viq[k]? = some e →
    runBehind k n s = .ok went s1 → step s = .next (if went then noteIssue s1 gang hid (vPipe e.kind) else s1)) ∧
  (∀ (s : State) (c : Nat) (e : NbeEng) (r : NbeRun) (w : TextWord) (i : Instr), s.agenda = [] → s.cur = .engine c →
    s.bed.off = false → s.bed.pwr = 0 → engineHere s = some e → e.run = some r → r.prog[r.pc]? = some w →
    decodeNbe w = .ok i → step s = exec i s) ∧
  (∀ (s : State) (k : Nat) (i : Instr), s.agenda = [] → s.cur = .survey k → k ≤ 3 → s.bed.off = false → s.bed.pwr ≠ 2 →
    (surveyOf s k).mode = .running →
    let pc := (surveyOf s k).pc
    let traps (t : TrapInfo) : Prop := step s = .next (mapSurvey s k fun y => y.takeTrap t)
    (fetchSurvey s k = .ok (.instr i) → step s = exec i s) ∧
    (∀ t, fetchSurvey s k = .error t → traps t) ∧
    (pc.toNat % 4 = 0 → pc.toNat < s.dev.firmwareBase ∨ s.dev.firmwareBase + s.dev.firmware.length < pc.toNat + 4 →
      (physLocs s pc.toNat 4 = none → traps { cause := 0x0A, eaddr := pc, einfo := 2 }) ∧
      ∀ l, physLocs s pc.toNat 4 = some l → (∃ p ∈ l, poisoned s p = true) → traps { cause := 0x1E, eaddr := pc })) ∧
  (∀ (g h : Nat) (sl : SliceId) (t : State) (x : Hart), findHart t g h = some x → (∀ w, (x.slice sl).cond ≠ .waiting w) →
    afterSlice g h sl (.next t) = .next (noteIssue t g h (match sl with | .as => .asIssue | .cs => .csScalar)))

/-- 09 R187 to R203, 15 R351: words written out from the encodings decode to the instructions they stand for; a word of frame
0b00 and a word with a nonzero unused field do not decode. -/
def Obligations.DecodeWords : Prop :=
  decodeWords 0x00000003 none false = .ok (.nop, 4) ∧ decodeWords 0x00400003 none false = .ok (.exit, 4) ∧
  decodeWords 0x00800003 none false = .ok (.brk, 4) ∧ decodeWords 0x01000003 none false = .ok (.eret, 4) ∧
  decodeWords 0x01400003 none false = .ok (.yield, 4) ∧
  decodeWords 0x000E628F none false = .ok (.add 5 6 7, 4) ∧ decodeWords 0x70000213 none false = .ok (.addi 4 0 0x700, 4) ∧
  decodeWords 0x00C00287 none false = .ok (.getc 5 0x060, 4) ∧ decodeWords 0x0060400B none false = .ok (.setc 0x030 4, 4) ∧
  decodeWords 0x00003243 none false = .ok (.vsetl 4 3, 4) ∧
  decodeWords 0xC60412CB none false = .ok (.vwmac ⟨false, true, true, 0, 2, 1, 5⟩, 4) ∧
  decodeWords 0x00CE4373 none false = .ok (.cwait 6 4 7, 4) ∧ decodeWords 0x01044073 none false = .ok (.csig 4 2, 4) ∧
  decodeNbe 0x00380126 = .ok (.nldx 1 1 7) ∧ decodeNbe 0x00380004 = .ok (.nrd 0 7) ∧
  decodeNbe 0x0FF88005 = .ok (.ndec 2 511) ∧ decodeNbe 0x00008147 = .ok (.nmac 2 1 2) ∧
  (∀ next slot1, decodeWords 0 next slot1 = .error .illegalFrame) ∧
  (∀ i n, decodeWords 0x00001003 none false ≠ .ok (i, n))

/-- 09 R181 to R203, 15 R351: for every well-formed instruction, decoding what `encode` writes gives it back: one word or a
prefix and a word of core text, a half word in either slot of a pair, or a near-bank word; and what decodes is well formed and encodes to the words read, so no two words of one length mean the same. -/
def Obligations.DecodeEncode : Prop :=
  (∀ i : Instr, i.wf = true →
    (isNearBank i → ∃ w, encode i = [w] ∧ decodeNbe w = .ok i) ∧
    (¬ isNearBank i →
      (∀ w next, encode i = [w] → w.toNat % 4 = 3 ∧ decodeWords w next false = .ok (i, 4) ∨
        w.toNat % 4 = 1 ∧ decodeWords w next false = .ok (i, 2) ∧
          ∀ low : BitVec 15, decodeWords (w.extractLsb' 2 15 ++ low ++ 1#2) next true = .ok (i, 2)) ∧
      (∀ p w, encode i = [p, w] → p.toNat % 4 = 2 ∧ decodeWords p (some w) false = .ok (i, 8)) ∧
      (encode i).length ≤ 2)) ∧
  (∀ w next slot1 i n, decodeWords w next slot1 = .ok (i, n) → i.wf = true ∧ ¬ isNearBank i ∧
    (w.toNat % 4 = 3 → n = 4 ∧ encode i = [w]) ∧
    (w.toNat % 4 = 2 → n = 8 ∧ ∃ b, next = some b ∧ encode i = [w, b]) ∧
    (w.toNat % 4 = 1 → n = 2 ∧
      encode i = [0#15 ++ (if slot1 then w.extractLsb' 17 15 else w.extractLsb' 2 15) ++ 1#2])) ∧
  (∀ w i, decodeNbe w = .ok i → i.wf = true ∧ isNearBank i ∧ encode i = [w])

/-- 00 R4, 01 R13, R17, R18, R22, R27, R34, 02 R40, R44, R45, 03 R60, 07 R147: the state after reset has its memory in canonical
form, and the values that the spec gives for reset to device registers, security state, links and clocks; the values that the
model chose beside these are in log 2. -/
def Obligations.ResetState : Prop :=
  State.reset.MemWf ∧ State.reset.agenda = [] ∧ State.reset.gangs = [] ∧ State.reset.launches = [] ∧
  (∀ chan, chan < 512 → (devReg State.reset (0x30000 + 8 * chan)).toNat % 2 ^ 10 = 63 ∧
    (devReg State.reset (0x30000 + 8 * chan)).getLsbD 16 = true) ∧
  (∀ port, port < 256 → devReg State.reset (0x50000 + 16 * port) = 0 ∧ devReg State.reset (0x50008 + 16 * port) = 3) ∧
  (∀ stack, stack < 16 → devReg State.reset (0x20000 + 8 * stack) = 0) ∧
  (∀ n, n < 64 → devReg State.reset (0x10000 + 16 * n) = 0 ∧ devReg State.reset (0x10008 + 16 * n) = 0) ∧
  (∀ die, die < 8 → devReg State.reset (0x60000 + 8 * die) = 0) ∧
  (∀ id, id < 256 → devReg State.reset (0x70000 + 16 * id) = 0 ∧ devReg State.reset (0x70008 + 16 * id) = 0) ∧
  State.reset.cycle = 0 ∧ State.reset.ntime = 0 ∧ State.reset.ops = [] ∧ State.reset.poison = [] ∧
  State.reset.bed.dbg = 0 ∧ State.reset.bed.hidbg = 0 ∧ State.reset.bed.pwr = 0 ∧ State.reset.bed.cache = [] ∧
  (∀ k : Fin 4, (State.reset.dev.surveys[k]).mode = .held) ∧
  (∀ k : Fin 16, (State.reset.dev.links[k]).live = true ∧ (State.reset.dev.links[k]).lanes = 8)

/-- 00 R4 and the model's form of memory (log 1): every step keeps byte memory in its canonical form: addresses rising, and no
byte listed that reads as an unlisted one. -/
def Obligations.StepKeepsMemory : Prop :=
  ∀ s t : State, s.MemWf → step s = .next t → t.MemWf
end

