-- ==== Sys2Proof/Laws/State.lean ====
section
/-! SUPPORT. What each update of a hart, a gang and the whole state leaves of every field it does not write, and what it
writes to the others. -/

namespace Sys2Proof.Machine

/-! ### `Hart.setReg` -/

@[simp] theorem Hart.setReg_core (h : Hart) (sl : SliceId) (r : RegField) (v : Word) : (h.setReg sl r v).core = h.core := by cases sl <;> rfl
@[simp] theorem Hart.setReg_ctx (h : Hart) (sl : SliceId) (r : RegField) (v : Word) : (h.setReg sl r v).ctx = h.ctx := by cases sl <;> rfl
@[simp] theorem Hart.setReg_mode (h : Hart) (sl : SliceId) (r : RegField) (v : Word) : (h.setReg sl r v).mode = h.mode := by cases sl <;> rfl
@[simp] theorem Hart.setReg_sysTrap (h : Hart) (sl : SliceId) (r : RegField) (v : Word) : (h.setReg sl r v).sysTrap = h.sysTrap := by cases sl <;> rfl
@[simp] theorem Hart.setReg_coop (h : Hart) (sl : SliceId) (r : RegField) (v : Word) : (h.setReg sl r v).coop = h.coop := by cases sl <;> rfl
@[simp] theorem Hart.setReg_as_ (h : Hart) (sl : SliceId) (r : RegField) (v : Word) : (h.setReg sl r v).as_ = h.as_ := by cases sl <;> rfl
@[simp] theorem Hart.setReg_cs (h : Hart) (sl : SliceId) (r : RegField) (v : Word) : (h.setReg sl r v).cs = h.cs := by cases sl <;> rfl
@[simp] theorem Hart.setReg_v (h : Hart) (sl : SliceId) (r : RegField) (v : Word) : (h.setReg sl r v).v = h.v := by cases sl <;> rfl
@[simp] theorem Hart.setReg_m (h : Hart) (sl : SliceId) (r : RegField) (v : Word) : (h.setReg sl r v).m = h.m := by cases sl <;> rfl
@[simp] theorem Hart.setReg_mdone (h : Hart) (sl : SliceId) (r : RegField) (v : Word) : (h.setReg sl r v).mdone = h.mdone := by cases sl <;> rfl
@[simp] theorem Hart.setReg_mfault (h : Hart) (sl : SliceId) (r : RegField) (v : Word) : (h.setReg sl r v).mfault = h.mfault := by cases sl <;> rfl
@[simp] theorem Hart.setReg_s (h : Hart) (sl : SliceId) (r : RegField) (v : Word) : (h.setReg sl r v).s = h.s := by cases sl <;> rfl
@[simp] theorem Hart.setReg_z (h : Hart) (sl : SliceId) (r : RegField) (v : Word) : (h.setReg sl r v).z = h.z := by cases sl <;> rfl
@[simp] theorem Hart.setReg_zlive (h : Hart) (sl : SliceId) (r : RegField) (v : Word) : (h.setReg sl r v).zlive = h.zlive := by cases sl <;> rfl
@[simp] theorem Hart.setReg_zl (h : Hart) (sl : SliceId) (r : RegField) (v : Word) : (h.setReg sl r v).zl = h.zl := by cases sl <;> rfl
@[simp] theorem Hart.setReg_zrow (h : Hart) (sl : SliceId) (r : RegField) (v : Word) : (h.setReg sl r v).zrow = h.zrow := by cases sl <;> rfl
@[simp] theorem Hart.setReg_qa (h : Hart) (sl : SliceId) (r : RegField) (v : Word) : (h.setReg sl r v).qa = h.qa := by cases sl <;> rfl
@[simp] theorem Hart.setReg_qc (h : Hart) (sl : SliceId) (r : RegField) (v : Word) : (h.setReg sl r v).qc = h.qc := by cases sl <;> rfl
@[simp] theorem Hart.setReg_qb (h : Hart) (sl : SliceId) (r : RegField) (v : Word) : (h.setReg sl r v).qb = h.qb := by cases sl <;> rfl
@[simp] theorem Hart.setReg_vc (h : Hart) (sl : SliceId) (r : RegField) (v : Word) : (h.setReg sl r v).vc = h.vc := by cases sl <;> rfl
@[simp] theorem Hart.setReg_tr (h : Hart) (sl : SliceId) (r : RegField) (v : Word) : (h.setReg sl r v).tr = h.tr := by cases sl <;> rfl
@[simp] theorem Hart.setReg_tp (h : Hart) (sl : SliceId) (r : RegField) (v : Word) : (h.setReg sl r v).tp = h.tp := by cases sl <;> rfl
@[simp] theorem Hart.setReg_slip (h : Hart) (sl : SliceId) (r : RegField) (v : Word) : (h.setReg sl r v).slip = h.slip := by cases sl <;> rfl
@[simp] theorem Hart.setReg_ypend (h : Hart) (sl : SliceId) (r : RegField) (v : Word) : (h.setReg sl r v).ypend = h.ypend := by cases sl <;> rfl
@[simp] theorem Hart.setReg_gsz (h : Hart) (sl : SliceId) (r : RegField) (v : Word) : (h.setReg sl r v).gsz = h.gsz := by cases sl <;> rfl
@[simp] theorem Hart.setReg_gix (h : Hart) (sl : SliceId) (r : RegField) (v : Word) : (h.setReg sl r v).gix = h.gix := by cases sl <;> rfl
@[simp] theorem Hart.setReg_gcnt (h : Hart) (sl : SliceId) (r : RegField) (v : Word) : (h.setReg sl r v).gcnt = h.gcnt := by cases sl <;> rfl
@[simp] theorem Hart.setReg_kargs (h : Hart) (sl : SliceId) (r : RegField) (v : Word) : (h.setReg sl r v).kargs = h.kargs := by cases sl <;> rfl
@[simp] theorem Hart.setReg_hid (h : Hart) (sl : SliceId) (r : RegField) (v : Word) : (h.setReg sl r v).hid = h.hid := by cases sl <;> rfl
@[simp] theorem Hart.setReg_viq (h : Hart) (sl : SliceId) (r : RegField) (v : Word) : (h.setReg sl r v).viq = h.viq := by cases sl <;> rfl
@[simp] theorem Hart.setReg_held (h : Hart) (sl : SliceId) (r : RegField) (v : Word) : (h.setReg sl r v).held = h.held := by cases sl <;> rfl
@[simp] theorem Hart.setReg_markers (h : Hart) (sl : SliceId) (r : RegField) (v : Word) : (h.setReg sl r v).markers = h.markers := by cases sl <;> rfl
@[simp] theorem Hart.setReg_fenceSv (h : Hart) (sl : SliceId) (r : RegField) (v : Word) : (h.setReg sl r v).fenceSv = h.fenceSv := by cases sl <;> rfl
@[simp] theorem Hart.setReg_fenceVs (h : Hart) (sl : SliceId) (r : RegField) (v : Word) : (h.setReg sl r v).fenceVs = h.fenceVs := by cases sl <;> rfl
@[simp] theorem Hart.setReg_seq (h : Hart) (sl : SliceId) (r : RegField) (v : Word) : (h.setReg sl r v).seq = h.seq := by cases sl <;> rfl
@[simp] theorem Hart.setReg_windows (h : Hart) (sl : SliceId) (r : RegField) (v : Word) : (h.setReg sl r v).windows = h.windows := by cases sl <;> rfl
@[simp] theorem Hart.setReg_tcm (h : Hart) (sl : SliceId) (r : RegField) (v : Word) : (h.setReg sl r v).tcm = h.tcm := by cases sl <;> rfl
@[simp] theorem Hart.setReg_waitCount (h : Hart) (sl : SliceId) (r : RegField) (v : Word) : (h.setReg sl r v).waitCount = h.waitCount := by cases sl <;> rfl
@[simp] theorem Hart.setReg_asArr (h : Hart) (sl : SliceId) (r : RegField) (v : Word) : (h.setReg sl r v).asArr = h.asArr := by cases sl <;> rfl
@[simp] theorem Hart.setReg_csArr (h : Hart) (sl : SliceId) (r : RegField) (v : Word) : (h.setReg sl r v).csArr = h.csArr := by cases sl <;> rfl
@[simp] theorem Hart.setReg_grant (h : Hart) (sl : SliceId) (r : RegField) (v : Word) : (h.setReg sl r v).grant = h.grant := by cases sl <;> rfl
@[simp] theorem Hart.setReg_abuf (h : Hart) (sl : SliceId) (r : RegField) (v : Word) : (h.setReg sl r v).abuf = h.abuf := by cases sl <;> rfl
@[simp] theorem Hart.setReg_cbuf (h : Hart) (sl : SliceId) (r : RegField) (v : Word) : (h.setReg sl r v).cbuf = h.cbuf := by cases sl <;> rfl
@[simp] theorem Hart.setReg_issueClass (h : Hart) (sl : SliceId) (r : RegField) (v : Word) : (h.setReg sl r v).issueClass = h.issueClass := by cases sl <;> rfl
@[simp] theorem Hart.setReg_passed (h : Hart) (sl : SliceId) (r : RegField) (v : Word) : (h.setReg sl r v).passed = h.passed := by cases sl <;> rfl
@[simp] theorem Hart.setReg_save (h : Hart) (sl : SliceId) (r : RegField) (v : Word) : (h.setReg sl r v).save = h.save := by cases sl <;> rfl
@[simp] theorem Hart.setReg_answer (h : Hart) (sl : SliceId) (r : RegField) (v : Word) : (h.setReg sl r v).answer = h.answer := by cases sl <;> rfl

/-! ### `Hart.setSlice` -/

@[simp] theorem Hart.setSlice_core (h : Hart) (sl : SliceId) (x : Slice) : (h.setSlice sl x).core = h.core := by cases sl <;> rfl
@[simp] theorem Hart.setSlice_ctx (h : Hart) (sl : SliceId) (x : Slice) : (h.setSlice sl x).ctx = h.ctx := by cases sl <;> rfl
@[simp] theorem Hart.setSlice_mode (h : Hart) (sl : SliceId) (x : Slice) : (h.setSlice sl x).mode = h.mode := by cases sl <;> rfl
@[simp] theorem Hart.setSlice_sysTrap (h : Hart) (sl : SliceId) (x : Slice) : (h.setSlice sl x).sysTrap = h.sysTrap := by cases sl <;> rfl
@[simp] theorem Hart.setSlice_coop (h : Hart) (sl : SliceId) (x : Slice) : (h.setSlice sl x).coop = h.coop := by cases sl <;> rfl
@[simp] theorem Hart.setSlice_a (h : Hart) (sl : SliceId) (x : Slice) : (h.setSlice sl x).a = h.a := by cases sl <;> rfl
@[simp] theorem Hart.setSlice_c (h : Hart) (sl : SliceId) (x : Slice) : (h.setSlice sl x).c = h.c := by cases sl <;> rfl
@[simp] theorem Hart.setSlice_v (h : Hart) (sl : SliceId) (x : Slice) : (h.setSlice sl x).v = h.v := by cases sl <;> rfl
@[simp] theorem Hart.setSlice_m (h : Hart) (sl : SliceId) (x : Slice) : (h.setSlice sl x).m = h.m := by cases sl <;> rfl
@[simp] theorem Hart.setSlice_mdone (h : Hart) (sl : SliceId) (x : Slice) : (h.setSlice sl x).mdone = h.mdone := by cases sl <;> rfl
@[simp] theorem Hart.setSlice_mfault (h : Hart) (sl : SliceId) (x : Slice) : (h.setSlice sl x).mfault = h.mfault := by cases sl <;> rfl
@[simp] theorem Hart.setSlice_s (h : Hart) (sl : SliceId) (x : Slice) : (h.setSlice sl x).s = h.s := by cases sl <;> rfl
@[simp] theorem Hart.setSlice_z (h : Hart) (sl : SliceId) (x : Slice) : (h.setSlice sl x).z = h.z := by cases sl <;> rfl
@[simp] theorem Hart.setSlice_zlive (h : Hart) (sl : SliceId) (x : Slice) : (h.setSlice sl x).zlive = h.zlive := by cases sl <;> rfl
@[simp] theorem Hart.setSlice_zl (h : Hart) (sl : SliceId) (x : Slice) : (h.setSlice sl x).zl = h.zl := by cases sl <;> rfl
@[simp] theorem Hart.setSlice_zrow (h : Hart) (sl : SliceId) (x : Slice) : (h.setSlice sl x).zrow = h.zrow := by cases sl <;> rfl
@[simp] theorem Hart.setSlice_qa (h : Hart) (sl : SliceId) (x : Slice) : (h.setSlice sl x).qa = h.qa := by cases sl <;> rfl
@[simp] theorem Hart.setSlice_qc (h : Hart) (sl : SliceId) (x : Slice) : (h.setSlice sl x).qc = h.qc := by cases sl <;> rfl
@[simp] theorem Hart.setSlice_qb (h : Hart) (sl : SliceId) (x : Slice) : (h.setSlice sl x).qb = h.qb := by cases sl <;> rfl
@[simp] theorem Hart.setSlice_vc (h : Hart) (sl : SliceId) (x : Slice) : (h.setSlice sl x).vc = h.vc := by cases sl <;> rfl
@[simp] theorem Hart.setSlice_tr (h : Hart) (sl : SliceId) (x : Slice) : (h.setSlice sl x).tr = h.tr := by cases sl <;> rfl
@[simp] theorem Hart.setSlice_tp (h : Hart) (sl : SliceId) (x : Slice) : (h.setSlice sl x).tp = h.tp := by cases sl <;> rfl
@[simp] theorem Hart.setSlice_slip (h : Hart) (sl : SliceId) (x : Slice) : (h.setSlice sl x).slip = h.slip := by cases sl <;> rfl
@[simp] theorem Hart.setSlice_ypend (h : Hart) (sl : SliceId) (x : Slice) : (h.setSlice sl x).ypend = h.ypend := by cases sl <;> rfl
@[simp] theorem Hart.setSlice_gsz (h : Hart) (sl : SliceId) (x : Slice) : (h.setSlice sl x).gsz = h.gsz := by cases sl <;> rfl
@[simp] theorem Hart.setSlice_gix (h : Hart) (sl : SliceId) (x : Slice) : (h.setSlice sl x).gix = h.gix := by cases sl <;> rfl
@[simp] theorem Hart.setSlice_gcnt (h : Hart) (sl : SliceId) (x : Slice) : (h.setSlice sl x).gcnt = h.gcnt := by cases sl <;> rfl
@[simp] theorem Hart.setSlice_kargs (h : Hart) (sl : SliceId) (x : Slice) : (h.setSlice sl x).kargs = h.kargs := by cases sl <;> rfl
@[simp] theorem Hart.setSlice_hid (h : Hart) (sl : SliceId) (x : Slice) : (h.setSlice sl x).hid = h.hid := by cases sl <;> rfl
@[simp] theorem Hart.setSlice_viq (h : Hart) (sl : SliceId) (x : Slice) : (h.setSlice sl x).viq = h.viq := by cases sl <;> rfl
@[simp] theorem Hart.setSlice_held (h : Hart) (sl : SliceId) (x : Slice) : (h.setSlice sl x).held = h.held := by cases sl <;> rfl
@[simp] theorem Hart.setSlice_markers (h : Hart) (sl : SliceId) (x : Slice) : (h.setSlice sl x).markers = h.markers := by cases sl <;> rfl
@[simp] theorem Hart.setSlice_fenceSv (h : Hart) (sl : SliceId) (x : Slice) : (h.setSlice sl x).fenceSv = h.fenceSv := by cases sl <;> rfl
@[simp] theorem Hart.setSlice_fenceVs (h : Hart) (sl : SliceId) (x : Slice) : (h.setSlice sl x).fenceVs = h.fenceVs := by cases sl <;> rfl
@[simp] theorem Hart.setSlice_seq (h : Hart) (sl : SliceId) (x : Slice) : (h.setSlice sl x).seq = h.seq := by cases sl <;> rfl
@[simp] theorem Hart.setSlice_windows (h : Hart) (sl : SliceId) (x : Slice) : (h.setSlice sl x).windows = h.windows := by cases sl <;> rfl
@[simp] theorem Hart.setSlice_tcm (h : Hart) (sl : SliceId) (x : Slice) : (h.setSlice sl x).tcm = h.tcm := by cases sl <;> rfl
@[simp] theorem Hart.setSlice_waitCount (h : Hart) (sl : SliceId) (x : Slice) : (h.setSlice sl x).waitCount = h.waitCount := by cases sl <;> rfl
@[simp] theorem Hart.setSlice_asArr (h : Hart) (sl : SliceId) (x : Slice) : (h.setSlice sl x).asArr = h.asArr := by cases sl <;> rfl
@[simp] theorem Hart.setSlice_csArr (h : Hart) (sl : SliceId) (x : Slice) : (h.setSlice sl x).csArr = h.csArr := by cases sl <;> rfl
@[simp] theorem Hart.setSlice_grant (h : Hart) (sl : SliceId) (x : Slice) : (h.setSlice sl x).grant = h.grant := by cases sl <;> rfl
@[simp] theorem Hart.setSlice_abuf (h : Hart) (sl : SliceId) (x : Slice) : (h.setSlice sl x).abuf = h.abuf := by cases sl <;> rfl
@[simp] theorem Hart.setSlice_cbuf (h : Hart) (sl : SliceId) (x : Slice) : (h.setSlice sl x).cbuf = h.cbuf := by cases sl <;> rfl
@[simp] theorem Hart.setSlice_issueClass (h : Hart) (sl : SliceId) (x : Slice) : (h.setSlice sl x).issueClass = h.issueClass := by cases sl <;> rfl
@[simp] theorem Hart.setSlice_passed (h : Hart) (sl : SliceId) (x : Slice) : (h.setSlice sl x).passed = h.passed := by cases sl <;> rfl
@[simp] theorem Hart.setSlice_save (h : Hart) (sl : SliceId) (x : Slice) : (h.setSlice sl x).save = h.save := by cases sl <;> rfl
@[simp] theorem Hart.setSlice_answer (h : Hart) (sl : SliceId) (x : Slice) : (h.setSlice sl x).answer = h.answer := by cases sl <;> rfl

/-! ### `Hart.setPc` -/

@[simp] theorem Hart.setPc_core (h : Hart) (sl : SliceId) (pc : Word) : (h.setPc sl pc).core = h.core := by cases sl <;> rfl
@[simp] theorem Hart.setPc_ctx (h : Hart) (sl : SliceId) (pc : Word) : (h.setPc sl pc).ctx = h.ctx := by cases sl <;> rfl
@[simp] theorem Hart.setPc_mode (h : Hart) (sl : SliceId) (pc : Word) : (h.setPc sl pc).mode = h.mode := by cases sl <;> rfl
@[simp] theorem Hart.setPc_sysTrap (h : Hart) (sl : SliceId) (pc : Word) : (h.setPc sl pc).sysTrap = h.sysTrap := by cases sl <;> rfl
@[simp] theorem Hart.setPc_coop (h : Hart) (sl : SliceId) (pc : Word) : (h.setPc sl pc).coop = h.coop := by cases sl <;> rfl
@[simp] theorem Hart.setPc_a (h : Hart) (sl : SliceId) (pc : Word) : (h.setPc sl pc).a = h.a := by cases sl <;> rfl
@[simp] theorem Hart.setPc_c (h : Hart) (sl : SliceId) (pc : Word) : (h.setPc sl pc).c = h.c := by cases sl <;> rfl
@[simp] theorem Hart.setPc_v (h : Hart) (sl : SliceId) (pc : Word) : (h.setPc sl pc).v = h.v := by cases sl <;> rfl
@[simp] theorem Hart.setPc_m (h : Hart) (sl : SliceId) (pc : Word) : (h.setPc sl pc).m = h.m := by cases sl <;> rfl
@[simp] theorem Hart.setPc_mdone (h : Hart) (sl : SliceId) (pc : Word) : (h.setPc sl pc).mdone = h.mdone := by cases sl <;> rfl
@[simp] theorem Hart.setPc_mfault (h : Hart) (sl : SliceId) (pc : Word) : (h.setPc sl pc).mfault = h.mfault := by cases sl <;> rfl
@[simp] theorem Hart.setPc_s (h : Hart) (sl : SliceId) (pc : Word) : (h.setPc sl pc).s = h.s := by cases sl <;> rfl
@[simp] theorem Hart.setPc_z (h : Hart) (sl : SliceId) (pc : Word) : (h.setPc sl pc).z = h.z := by cases sl <;> rfl
@[simp] theorem Hart.setPc_zlive (h : Hart) (sl : SliceId) (pc : Word) : (h.setPc sl pc).zlive = h.zlive := by cases sl <;> rfl
@[simp] theorem Hart.setPc_zl (h : Hart) (sl : SliceId) (pc : Word) : (h.setPc sl pc).zl = h.zl := by cases sl <;> rfl
@[simp] theorem Hart.setPc_zrow (h : Hart) (sl : SliceId) (pc : Word) : (h.setPc sl pc).zrow = h.zrow := by cases sl <;> rfl
@[simp] theorem Hart.setPc_qa (h : Hart) (sl : SliceId) (pc : Word) : (h.setPc sl pc).qa = h.qa := by cases sl <;> rfl
@[simp] theorem Hart.setPc_qc (h : Hart) (sl : SliceId) (pc : Word) : (h.setPc sl pc).qc = h.qc := by cases sl <;> rfl
@[simp] theorem Hart.setPc_qb (h : Hart) (sl : SliceId) (pc : Word) : (h.setPc sl pc).qb = h.qb := by cases sl <;> rfl
@[simp] theorem Hart.setPc_vc (h : Hart) (sl : SliceId) (pc : Word) : (h.setPc sl pc).vc = h.vc := by cases sl <;> rfl
@[simp] theorem Hart.setPc_tr (h : Hart) (sl : SliceId) (pc : Word) : (h.setPc sl pc).tr = h.tr := by cases sl <;> rfl
@[simp] theorem Hart.setPc_tp (h : Hart) (sl : SliceId) (pc : Word) : (h.setPc sl pc).tp = h.tp := by cases sl <;> rfl
@[simp] theorem Hart.setPc_slip (h : Hart) (sl : SliceId) (pc : Word) : (h.setPc sl pc).slip = h.slip := by cases sl <;> rfl
@[simp] theorem Hart.setPc_ypend (h : Hart) (sl : SliceId) (pc : Word) : (h.setPc sl pc).ypend = h.ypend := by cases sl <;> rfl
@[simp] theorem Hart.setPc_gsz (h : Hart) (sl : SliceId) (pc : Word) : (h.setPc sl pc).gsz = h.gsz := by cases sl <;> rfl
@[simp] theorem Hart.setPc_gix (h : Hart) (sl : SliceId) (pc : Word) : (h.setPc sl pc).gix = h.gix := by cases sl <;> rfl
@[simp] theorem Hart.setPc_gcnt (h : Hart) (sl : SliceId) (pc : Word) : (h.setPc sl pc).gcnt = h.gcnt := by cases sl <;> rfl
@[simp] theorem Hart.setPc_kargs (h : Hart) (sl : SliceId) (pc : Word) : (h.setPc sl pc).kargs = h.kargs := by cases sl <;> rfl
@[simp] theorem Hart.setPc_hid (h : Hart) (sl : SliceId) (pc : Word) : (h.setPc sl pc).hid = h.hid := by cases sl <;> rfl
@[simp] theorem Hart.setPc_viq (h : Hart) (sl : SliceId) (pc : Word) : (h.setPc sl pc).viq = h.viq := by cases sl <;> rfl
@[simp] theorem Hart.setPc_held (h : Hart) (sl : SliceId) (pc : Word) : (h.setPc sl pc).held = h.held := by cases sl <;> rfl
@[simp] theorem Hart.setPc_markers (h : Hart) (sl : SliceId) (pc : Word) : (h.setPc sl pc).markers = h.markers := by cases sl <;> rfl
@[simp] theorem Hart.setPc_fenceSv (h : Hart) (sl : SliceId) (pc : Word) : (h.setPc sl pc).fenceSv = h.fenceSv := by cases sl <;> rfl
@[simp] theorem Hart.setPc_fenceVs (h : Hart) (sl : SliceId) (pc : Word) : (h.setPc sl pc).fenceVs = h.fenceVs := by cases sl <;> rfl
@[simp] theorem Hart.setPc_seq (h : Hart) (sl : SliceId) (pc : Word) : (h.setPc sl pc).seq = h.seq := by cases sl <;> rfl
@[simp] theorem Hart.setPc_windows (h : Hart) (sl : SliceId) (pc : Word) : (h.setPc sl pc).windows = h.windows := by cases sl <;> rfl
@[simp] theorem Hart.setPc_tcm (h : Hart) (sl : SliceId) (pc : Word) : (h.setPc sl pc).tcm = h.tcm := by cases sl <;> rfl
@[simp] theorem Hart.setPc_waitCount (h : Hart) (sl : SliceId) (pc : Word) : (h.setPc sl pc).waitCount = h.waitCount := by cases sl <;> rfl
@[simp] theorem Hart.setPc_asArr (h : Hart) (sl : SliceId) (pc : Word) : (h.setPc sl pc).asArr = h.asArr := by cases sl <;> rfl
@[simp] theorem Hart.setPc_csArr (h : Hart) (sl : SliceId) (pc : Word) : (h.setPc sl pc).csArr = h.csArr := by cases sl <;> rfl
@[simp] theorem Hart.setPc_grant (h : Hart) (sl : SliceId) (pc : Word) : (h.setPc sl pc).grant = h.grant := by cases sl <;> rfl
@[simp] theorem Hart.setPc_abuf (h : Hart) (sl : SliceId) (pc : Word) : (h.setPc sl pc).abuf = h.abuf := by cases sl <;> rfl
@[simp] theorem Hart.setPc_cbuf (h : Hart) (sl : SliceId) (pc : Word) : (h.setPc sl pc).cbuf = h.cbuf := by cases sl <;> rfl
@[simp] theorem Hart.setPc_issueClass (h : Hart) (sl : SliceId) (pc : Word) : (h.setPc sl pc).issueClass = h.issueClass := by cases sl <;> rfl
@[simp] theorem Hart.setPc_passed (h : Hart) (sl : SliceId) (pc : Word) : (h.setPc sl pc).passed = h.passed := by cases sl <;> rfl
@[simp] theorem Hart.setPc_save (h : Hart) (sl : SliceId) (pc : Word) : (h.setPc sl pc).save = h.save := by cases sl <;> rfl
@[simp] theorem Hart.setPc_answer (h : Hart) (sl : SliceId) (pc : Word) : (h.setPc sl pc).answer = h.answer := by cases sl <;> rfl

/-! ### `Hart.setCond` -/

@[simp] theorem Hart.setCond_core (h : Hart) (sl : SliceId) (k : Cond) : (h.setCond sl k).core = h.core := by cases sl <;> rfl
@[simp] theorem Hart.setCond_ctx (h : Hart) (sl : SliceId) (k : Cond) : (h.setCond sl k).ctx = h.ctx := by cases sl <;> rfl
@[simp] theorem Hart.setCond_mode (h : Hart) (sl : SliceId) (k : Cond) : (h.setCond sl k).mode = h.mode := by cases sl <;> rfl
@[simp] theorem Hart.setCond_sysTrap (h : Hart) (sl : SliceId) (k : Cond) : (h.setCond sl k).sysTrap = h.sysTrap := by cases sl <;> rfl
@[simp] theorem Hart.setCond_coop (h : Hart) (sl : SliceId) (k : Cond) : (h.setCond sl k).coop = h.coop := by cases sl <;> rfl
@[simp] theorem Hart.setCond_a (h : Hart) (sl : SliceId) (k : Cond) : (h.setCond sl k).a = h.a := by cases sl <;> rfl
@[simp] theorem Hart.setCond_c (h : Hart) (sl : SliceId) (k : Cond) : (h.setCond sl k).c = h.c := by cases sl <;> rfl
@[simp] theorem Hart.setCond_v (h : Hart) (sl : SliceId) (k : Cond) : (h.setCond sl k).v = h.v := by cases sl <;> rfl
@[simp] theorem Hart.setCond_m (h : Hart) (sl : SliceId) (k : Cond) : (h.setCond sl k).m = h.m := by cases sl <;> rfl
@[simp] theorem Hart.setCond_mdone (h : Hart) (sl : SliceId) (k : Cond) : (h.setCond sl k).mdone = h.mdone := by cases sl <;> rfl
@[simp] theorem Hart.setCond_mfault (h : Hart) (sl : SliceId) (k : Cond) : (h.setCond sl k).mfault = h.mfault := by cases sl <;> rfl
@[simp] theorem Hart.setCond_s (h : Hart) (sl : SliceId) (k : Cond) : (h.setCond sl k).s = h.s := by cases sl <;> rfl
@[simp] theorem Hart.setCond_z (h : Hart) (sl : SliceId) (k : Cond) : (h.setCond sl k).z = h.z := by cases sl <;> rfl
@[simp] theorem Hart.setCond_zlive (h : Hart) (sl : SliceId) (k : Cond) : (h.setCond sl k).zlive = h.zlive := by cases sl <;> rfl
@[simp] theorem Hart.setCond_zl (h : Hart) (sl : SliceId) (k : Cond) : (h.setCond sl k).zl = h.zl := by cases sl <;> rfl
@[simp] theorem Hart.setCond_zrow (h : Hart) (sl : SliceId) (k : Cond) : (h.setCond sl k).zrow = h.zrow := by cases sl <;> rfl
@[simp] theorem Hart.setCond_qa (h : Hart) (sl : SliceId) (k : Cond) : (h.setCond sl k).qa = h.qa := by cases sl <;> rfl
@[simp] theorem Hart.setCond_qc (h : Hart) (sl : SliceId) (k : Cond) : (h.setCond sl k).qc = h.qc := by cases sl <;> rfl
@[simp] theorem Hart.setCond_qb (h : Hart) (sl : SliceId) (k : Cond) : (h.setCond sl k).qb = h.qb := by cases sl <;> rfl
@[simp] theorem Hart.setCond_vc (h : Hart) (sl : SliceId) (k : Cond) : (h.setCond sl k).vc = h.vc := by cases sl <;> rfl
@[simp] theorem Hart.setCond_tr (h : Hart) (sl : SliceId) (k : Cond) : (h.setCond sl k).tr = h.tr := by cases sl <;> rfl
@[simp] theorem Hart.setCond_tp (h : Hart) (sl : SliceId) (k : Cond) : (h.setCond sl k).tp = h.tp := by cases sl <;> rfl
@[simp] theorem Hart.setCond_slip (h : Hart) (sl : SliceId) (k : Cond) : (h.setCond sl k).slip = h.slip := by cases sl <;> rfl
@[simp] theorem Hart.setCond_ypend (h : Hart) (sl : SliceId) (k : Cond) : (h.setCond sl k).ypend = h.ypend := by cases sl <;> rfl
@[simp] theorem Hart.setCond_gsz (h : Hart) (sl : SliceId) (k : Cond) : (h.setCond sl k).gsz = h.gsz := by cases sl <;> rfl
@[simp] theorem Hart.setCond_gix (h : Hart) (sl : SliceId) (k : Cond) : (h.setCond sl k).gix = h.gix := by cases sl <;> rfl
@[simp] theorem Hart.setCond_gcnt (h : Hart) (sl : SliceId) (k : Cond) : (h.setCond sl k).gcnt = h.gcnt := by cases sl <;> rfl
@[simp] theorem Hart.setCond_kargs (h : Hart) (sl : SliceId) (k : Cond) : (h.setCond sl k).kargs = h.kargs := by cases sl <;> rfl
@[simp] theorem Hart.setCond_hid (h : Hart) (sl : SliceId) (k : Cond) : (h.setCond sl k).hid = h.hid := by cases sl <;> rfl
@[simp] theorem Hart.setCond_viq (h : Hart) (sl : SliceId) (k : Cond) : (h.setCond sl k).viq = h.viq := by cases sl <;> rfl
@[simp] theorem Hart.setCond_held (h : Hart) (sl : SliceId) (k : Cond) : (h.setCond sl k).held = h.held := by cases sl <;> rfl
@[simp] theorem Hart.setCond_markers (h : Hart) (sl : SliceId) (k : Cond) : (h.setCond sl k).markers = h.markers := by cases sl <;> rfl
@[simp] theorem Hart.setCond_fenceSv (h : Hart) (sl : SliceId) (k : Cond) : (h.setCond sl k).fenceSv = h.fenceSv := by cases sl <;> rfl
@[simp] theorem Hart.setCond_fenceVs (h : Hart) (sl : SliceId) (k : Cond) : (h.setCond sl k).fenceVs = h.fenceVs := by cases sl <;> rfl
@[simp] theorem Hart.setCond_seq (h : Hart) (sl : SliceId) (k : Cond) : (h.setCond sl k).seq = h.seq := by cases sl <;> rfl
@[simp] theorem Hart.setCond_windows (h : Hart) (sl : SliceId) (k : Cond) : (h.setCond sl k).windows = h.windows := by cases sl <;> rfl
@[simp] theorem Hart.setCond_tcm (h : Hart) (sl : SliceId) (k : Cond) : (h.setCond sl k).tcm = h.tcm := by cases sl <;> rfl
@[simp] theorem Hart.setCond_waitCount (h : Hart) (sl : SliceId) (k : Cond) : (h.setCond sl k).waitCount = h.waitCount := by cases sl <;> rfl
@[simp] theorem Hart.setCond_asArr (h : Hart) (sl : SliceId) (k : Cond) : (h.setCond sl k).asArr = h.asArr := by cases sl <;> rfl
@[simp] theorem Hart.setCond_csArr (h : Hart) (sl : SliceId) (k : Cond) : (h.setCond sl k).csArr = h.csArr := by cases sl <;> rfl
@[simp] theorem Hart.setCond_grant (h : Hart) (sl : SliceId) (k : Cond) : (h.setCond sl k).grant = h.grant := by cases sl <;> rfl
@[simp] theorem Hart.setCond_abuf (h : Hart) (sl : SliceId) (k : Cond) : (h.setCond sl k).abuf = h.abuf := by cases sl <;> rfl
@[simp] theorem Hart.setCond_cbuf (h : Hart) (sl : SliceId) (k : Cond) : (h.setCond sl k).cbuf = h.cbuf := by cases sl <;> rfl
@[simp] theorem Hart.setCond_issueClass (h : Hart) (sl : SliceId) (k : Cond) : (h.setCond sl k).issueClass = h.issueClass := by cases sl <;> rfl
@[simp] theorem Hart.setCond_passed (h : Hart) (sl : SliceId) (k : Cond) : (h.setCond sl k).passed = h.passed := by cases sl <;> rfl
@[simp] theorem Hart.setCond_save (h : Hart) (sl : SliceId) (k : Cond) : (h.setCond sl k).save = h.save := by cases sl <;> rfl
@[simp] theorem Hart.setCond_answer (h : Hart) (sl : SliceId) (k : Cond) : (h.setCond sl k).answer = h.answer := by cases sl <;> rfl

/-! ### `Hart.setBuf` -/

@[simp] theorem Hart.setBuf_core (h : Hart) (sl : SliceId) (b : List PWrite) : (h.setBuf sl b).core = h.core := by cases sl <;> rfl
@[simp] theorem Hart.setBuf_ctx (h : Hart) (sl : SliceId) (b : List PWrite) : (h.setBuf sl b).ctx = h.ctx := by cases sl <;> rfl
@[simp] theorem Hart.setBuf_mode (h : Hart) (sl : SliceId) (b : List PWrite) : (h.setBuf sl b).mode = h.mode := by cases sl <;> rfl
@[simp] theorem Hart.setBuf_sysTrap (h : Hart) (sl : SliceId) (b : List PWrite) : (h.setBuf sl b).sysTrap = h.sysTrap := by cases sl <;> rfl
@[simp] theorem Hart.setBuf_coop (h : Hart) (sl : SliceId) (b : List PWrite) : (h.setBuf sl b).coop = h.coop := by cases sl <;> rfl
@[simp] theorem Hart.setBuf_as_ (h : Hart) (sl : SliceId) (b : List PWrite) : (h.setBuf sl b).as_ = h.as_ := by cases sl <;> rfl
@[simp] theorem Hart.setBuf_cs (h : Hart) (sl : SliceId) (b : List PWrite) : (h.setBuf sl b).cs = h.cs := by cases sl <;> rfl
@[simp] theorem Hart.setBuf_a (h : Hart) (sl : SliceId) (b : List PWrite) : (h.setBuf sl b).a = h.a := by cases sl <;> rfl
@[simp] theorem Hart.setBuf_c (h : Hart) (sl : SliceId) (b : List PWrite) : (h.setBuf sl b).c = h.c := by cases sl <;> rfl
@[simp] theorem Hart.setBuf_v (h : Hart) (sl : SliceId) (b : List PWrite) : (h.setBuf sl b).v = h.v := by cases sl <;> rfl
@[simp] theorem Hart.setBuf_m (h : Hart) (sl : SliceId) (b : List PWrite) : (h.setBuf sl b).m = h.m := by cases sl <;> rfl
@[simp] theorem Hart.setBuf_mdone (h : Hart) (sl : SliceId) (b : List PWrite) : (h.setBuf sl b).mdone = h.mdone := by cases sl <;> rfl
@[simp] theorem Hart.setBuf_mfault (h : Hart) (sl : SliceId) (b : List PWrite) : (h.setBuf sl b).mfault = h.mfault := by cases sl <;> rfl
@[simp] theorem Hart.setBuf_s (h : Hart) (sl : SliceId) (b : List PWrite) : (h.setBuf sl b).s = h.s := by cases sl <;> rfl
@[simp] theorem Hart.setBuf_z (h : Hart) (sl : SliceId) (b : List PWrite) : (h.setBuf sl b).z = h.z := by cases sl <;> rfl
@[simp] theorem Hart.setBuf_zlive (h : Hart) (sl : SliceId) (b : List PWrite) : (h.setBuf sl b).zlive = h.zlive := by cases sl <;> rfl
@[simp] theorem Hart.setBuf_zl (h : Hart) (sl : SliceId) (b : List PWrite) : (h.setBuf sl b).zl = h.zl := by cases sl <;> rfl
@[simp] theorem Hart.setBuf_zrow (h : Hart) (sl : SliceId) (b : List PWrite) : (h.setBuf sl b).zrow = h.zrow := by cases sl <;> rfl
@[simp] theorem Hart.setBuf_qa (h : Hart) (sl : SliceId) (b : List PWrite) : (h.setBuf sl b).qa = h.qa := by cases sl <;> rfl
@[simp] theorem Hart.setBuf_qc (h : Hart) (sl : SliceId) (b : List PWrite) : (h.setBuf sl b).qc = h.qc := by cases sl <;> rfl
@[simp] theorem Hart.setBuf_qb (h : Hart) (sl : SliceId) (b : List PWrite) : (h.setBuf sl b).qb = h.qb := by cases sl <;> rfl
@[simp] theorem Hart.setBuf_vc (h : Hart) (sl : SliceId) (b : List PWrite) : (h.setBuf sl b).vc = h.vc := by cases sl <;> rfl
@[simp] theorem Hart.setBuf_tr (h : Hart) (sl : SliceId) (b : List PWrite) : (h.setBuf sl b).tr = h.tr := by cases sl <;> rfl
@[simp] theorem Hart.setBuf_tp (h : Hart) (sl : SliceId) (b : List PWrite) : (h.setBuf sl b).tp = h.tp := by cases sl <;> rfl
@[simp] theorem Hart.setBuf_slip (h : Hart) (sl : SliceId) (b : List PWrite) : (h.setBuf sl b).slip = h.slip := by cases sl <;> rfl
@[simp] theorem Hart.setBuf_ypend (h : Hart) (sl : SliceId) (b : List PWrite) : (h.setBuf sl b).ypend = h.ypend := by cases sl <;> rfl
@[simp] theorem Hart.setBuf_gsz (h : Hart) (sl : SliceId) (b : List PWrite) : (h.setBuf sl b).gsz = h.gsz := by cases sl <;> rfl
@[simp] theorem Hart.setBuf_gix (h : Hart) (sl : SliceId) (b : List PWrite) : (h.setBuf sl b).gix = h.gix := by cases sl <;> rfl
@[simp] theorem Hart.setBuf_gcnt (h : Hart) (sl : SliceId) (b : List PWrite) : (h.setBuf sl b).gcnt = h.gcnt := by cases sl <;> rfl
@[simp] theorem Hart.setBuf_kargs (h : Hart) (sl : SliceId) (b : List PWrite) : (h.setBuf sl b).kargs = h.kargs := by cases sl <;> rfl
@[simp] theorem Hart.setBuf_hid (h : Hart) (sl : SliceId) (b : List PWrite) : (h.setBuf sl b).hid = h.hid := by cases sl <;> rfl
@[simp] theorem Hart.setBuf_viq (h : Hart) (sl : SliceId) (b : List PWrite) : (h.setBuf sl b).viq = h.viq := by cases sl <;> rfl
@[simp] theorem Hart.setBuf_held (h : Hart) (sl : SliceId) (b : List PWrite) : (h.setBuf sl b).held = h.held := by cases sl <;> rfl
@[simp] theorem Hart.setBuf_markers (h : Hart) (sl : SliceId) (b : List PWrite) : (h.setBuf sl b).markers = h.markers := by cases sl <;> rfl
@[simp] theorem Hart.setBuf_fenceSv (h : Hart) (sl : SliceId) (b : List PWrite) : (h.setBuf sl b).fenceSv = h.fenceSv := by cases sl <;> rfl
@[simp] theorem Hart.setBuf_fenceVs (h : Hart) (sl : SliceId) (b : List PWrite) : (h.setBuf sl b).fenceVs = h.fenceVs := by cases sl <;> rfl
@[simp] theorem Hart.setBuf_seq (h : Hart) (sl : SliceId) (b : List PWrite) : (h.setBuf sl b).seq = h.seq := by cases sl <;> rfl
@[simp] theorem Hart.setBuf_windows (h : Hart) (sl : SliceId) (b : List PWrite) : (h.setBuf sl b).windows = h.windows := by cases sl <;> rfl
@[simp] theorem Hart.setBuf_tcm (h : Hart) (sl : SliceId) (b : List PWrite) : (h.setBuf sl b).tcm = h.tcm := by cases sl <;> rfl
@[simp] theorem Hart.setBuf_waitCount (h : Hart) (sl : SliceId) (b : List PWrite) : (h.setBuf sl b).waitCount = h.waitCount := by cases sl <;> rfl
@[simp] theorem Hart.setBuf_asArr (h : Hart) (sl : SliceId) (b : List PWrite) : (h.setBuf sl b).asArr = h.asArr := by cases sl <;> rfl
@[simp] theorem Hart.setBuf_csArr (h : Hart) (sl : SliceId) (b : List PWrite) : (h.setBuf sl b).csArr = h.csArr := by cases sl <;> rfl
@[simp] theorem Hart.setBuf_grant (h : Hart) (sl : SliceId) (b : List PWrite) : (h.setBuf sl b).grant = h.grant := by cases sl <;> rfl
@[simp] theorem Hart.setBuf_issueClass (h : Hart) (sl : SliceId) (b : List PWrite) : (h.setBuf sl b).issueClass = h.issueClass := by cases sl <;> rfl
@[simp] theorem Hart.setBuf_passed (h : Hart) (sl : SliceId) (b : List PWrite) : (h.setBuf sl b).passed = h.passed := by cases sl <;> rfl
@[simp] theorem Hart.setBuf_save (h : Hart) (sl : SliceId) (b : List PWrite) : (h.setBuf sl b).save = h.save := by cases sl <;> rfl
@[simp] theorem Hart.setBuf_answer (h : Hart) (sl : SliceId) (b : List PWrite) : (h.setBuf sl b).answer = h.answer := by cases sl <;> rfl

/-! ### `Hart.closeStores` -/

@[simp] theorem Hart.closeStores_core (h : Hart) (q : Option Nat) : (h.closeStores q).core = h.core := rfl
@[simp] theorem Hart.closeStores_ctx (h : Hart) (q : Option Nat) : (h.closeStores q).ctx = h.ctx := rfl
@[simp] theorem Hart.closeStores_mode (h : Hart) (q : Option Nat) : (h.closeStores q).mode = h.mode := rfl
@[simp] theorem Hart.closeStores_sysTrap (h : Hart) (q : Option Nat) : (h.closeStores q).sysTrap = h.sysTrap := rfl
@[simp] theorem Hart.closeStores_coop (h : Hart) (q : Option Nat) : (h.closeStores q).coop = h.coop := rfl
@[simp] theorem Hart.closeStores_as_ (h : Hart) (q : Option Nat) : (h.closeStores q).as_ = h.as_ := rfl
@[simp] theorem Hart.closeStores_cs (h : Hart) (q : Option Nat) : (h.closeStores q).cs = h.cs := rfl
@[simp] theorem Hart.closeStores_a (h : Hart) (q : Option Nat) : (h.closeStores q).a = h.a := rfl
@[simp] theorem Hart.closeStores_c (h : Hart) (q : Option Nat) : (h.closeStores q).c = h.c := rfl
@[simp] theorem Hart.closeStores_v (h : Hart) (q : Option Nat) : (h.closeStores q).v = h.v := rfl
@[simp] theorem Hart.closeStores_m (h : Hart) (q : Option Nat) : (h.closeStores q).m = h.m := rfl
@[simp] theorem Hart.closeStores_mdone (h : Hart) (q : Option Nat) : (h.closeStores q).mdone = h.mdone := rfl
@[simp] theorem Hart.closeStores_mfault (h : Hart) (q : Option Nat) : (h.closeStores q).mfault = h.mfault := rfl
@[simp] theorem Hart.closeStores_s (h : Hart) (q : Option Nat) : (h.closeStores q).s = h.s := rfl
@[simp] theorem Hart.closeStores_z (h : Hart) (q : Option Nat) : (h.closeStores q).z = h.z := rfl
@[simp] theorem Hart.closeStores_zlive (h : Hart) (q : Option Nat) : (h.closeStores q).zlive = h.zlive := rfl
@[simp] theorem Hart.closeStores_zl (h : Hart) (q : Option Nat) : (h.closeStores q).zl = h.zl := rfl
@[simp] theorem Hart.closeStores_zrow (h : Hart) (q : Option Nat) : (h.closeStores q).zrow = h.zrow := rfl
@[simp] theorem Hart.closeStores_qa (h : Hart) (q : Option Nat) : (h.closeStores q).qa = h.qa := rfl
@[simp] theorem Hart.closeStores_qc (h : Hart) (q : Option Nat) : (h.closeStores q).qc = h.qc := rfl
@[simp] theorem Hart.closeStores_qb (h : Hart) (q : Option Nat) : (h.closeStores q).qb = h.qb := rfl
@[simp] theorem Hart.closeStores_vc (h : Hart) (q : Option Nat) : (h.closeStores q).vc = h.vc := rfl
@[simp] theorem Hart.closeStores_tr (h : Hart) (q : Option Nat) : (h.closeStores q).tr = h.tr := rfl
@[simp] theorem Hart.closeStores_tp (h : Hart) (q : Option Nat) : (h.closeStores q).tp = h.tp := rfl
@[simp] theorem Hart.closeStores_slip (h : Hart) (q : Option Nat) : (h.closeStores q).slip = h.slip := rfl
@[simp] theorem Hart.closeStores_ypend (h : Hart) (q : Option Nat) : (h.closeStores q).ypend = h.ypend := rfl
@[simp] theorem Hart.closeStores_gsz (h : Hart) (q : Option Nat) : (h.closeStores q).gsz = h.gsz := rfl
@[simp] theorem Hart.closeStores_gix (h : Hart) (q : Option Nat) : (h.closeStores q).gix = h.gix := rfl
@[simp] theorem Hart.closeStores_gcnt (h : Hart) (q : Option Nat) : (h.closeStores q).gcnt = h.gcnt := rfl
@[simp] theorem Hart.closeStores_kargs (h : Hart) (q : Option Nat) : (h.closeStores q).kargs = h.kargs := rfl
@[simp] theorem Hart.closeStores_hid (h : Hart) (q : Option Nat) : (h.closeStores q).hid = h.hid := rfl
@[simp] theorem Hart.closeStores_viq (h : Hart) (q : Option Nat) : (h.closeStores q).viq = h.viq := rfl
@[simp] theorem Hart.closeStores_held (h : Hart) (q : Option Nat) : (h.closeStores q).held = h.held := rfl
@[simp] theorem Hart.closeStores_markers (h : Hart) (q : Option Nat) : (h.closeStores q).markers = h.markers := rfl
@[simp] theorem Hart.closeStores_fenceSv (h : Hart) (q : Option Nat) : (h.closeStores q).fenceSv = h.fenceSv := rfl
@[simp] theorem Hart.closeStores_fenceVs (h : Hart) (q : Option Nat) : (h.closeStores q).fenceVs = h.fenceVs := rfl
@[simp] theorem Hart.closeStores_seq (h : Hart) (q : Option Nat) : (h.closeStores q).seq = h.seq := rfl
@[simp] theorem Hart.closeStores_windows (h : Hart) (q : Option Nat) : (h.closeStores q).windows = h.windows := rfl
@[simp] theorem Hart.closeStores_tcm (h : Hart) (q : Option Nat) : (h.closeStores q).tcm = h.tcm := rfl
@[simp] theorem Hart.closeStores_waitCount (h : Hart) (q : Option Nat) : (h.closeStores q).waitCount = h.waitCount := rfl
@[simp] theorem Hart.closeStores_asArr (h : Hart) (q : Option Nat) : (h.closeStores q).asArr = h.asArr := rfl
@[simp] theorem Hart.closeStores_csArr (h : Hart) (q : Option Nat) : (h.closeStores q).csArr = h.csArr := rfl
@[simp] theorem Hart.closeStores_grant (h : Hart) (q : Option Nat) : (h.closeStores q).grant = h.grant := rfl
@[simp] theorem Hart.closeStores_abuf (h : Hart) (q : Option Nat) : (h.closeStores q).abuf = h.abuf := rfl
@[simp] theorem Hart.closeStores_issueClass (h : Hart) (q : Option Nat) : (h.closeStores q).issueClass = h.issueClass := rfl
@[simp] theorem Hart.closeStores_passed (h : Hart) (q : Option Nat) : (h.closeStores q).passed = h.passed := rfl
@[simp] theorem Hart.closeStores_save (h : Hart) (q : Option Nat) : (h.closeStores q).save = h.save := rfl
@[simp] theorem Hart.closeStores_answer (h : Hart) (q : Option Nat) : (h.closeStores q).answer = h.answer := rfl

/-! ### `Hart.issuesOn` -/

@[simp] theorem Hart.issuesOn_core (h : Hart) (pri k : Nat) : (h.issuesOn pri k).core = h.core := rfl
@[simp] theorem Hart.issuesOn_ctx (h : Hart) (pri k : Nat) : (h.issuesOn pri k).ctx = h.ctx := rfl
@[simp] theorem Hart.issuesOn_mode (h : Hart) (pri k : Nat) : (h.issuesOn pri k).mode = h.mode := rfl
@[simp] theorem Hart.issuesOn_sysTrap (h : Hart) (pri k : Nat) : (h.issuesOn pri k).sysTrap = h.sysTrap := rfl
@[simp] theorem Hart.issuesOn_coop (h : Hart) (pri k : Nat) : (h.issuesOn pri k).coop = h.coop := rfl
@[simp] theorem Hart.issuesOn_as_ (h : Hart) (pri k : Nat) : (h.issuesOn pri k).as_ = h.as_ := rfl
@[simp] theorem Hart.issuesOn_cs (h : Hart) (pri k : Nat) : (h.issuesOn pri k).cs = h.cs := rfl
@[simp] theorem Hart.issuesOn_a (h : Hart) (pri k : Nat) : (h.issuesOn pri k).a = h.a := rfl
@[simp] theorem Hart.issuesOn_c (h : Hart) (pri k : Nat) : (h.issuesOn pri k).c = h.c := rfl
@[simp] theorem Hart.issuesOn_v (h : Hart) (pri k : Nat) : (h.issuesOn pri k).v = h.v := rfl
@[simp] theorem Hart.issuesOn_m (h : Hart) (pri k : Nat) : (h.issuesOn pri k).m = h.m := rfl
@[simp] theorem Hart.issuesOn_mdone (h : Hart) (pri k : Nat) : (h.issuesOn pri k).mdone = h.mdone := rfl
@[simp] theorem Hart.issuesOn_mfault (h : Hart) (pri k : Nat) : (h.issuesOn pri k).mfault = h.mfault := rfl
@[simp] theorem Hart.issuesOn_s (h : Hart) (pri k : Nat) : (h.issuesOn pri k).s = h.s := rfl
@[simp] theorem Hart.issuesOn_z (h : Hart) (pri k : Nat) : (h.issuesOn pri k).z = h.z := rfl
@[simp] theorem Hart.issuesOn_zlive (h : Hart) (pri k : Nat) : (h.issuesOn pri k).zlive = h.zlive := rfl
@[simp] theorem Hart.issuesOn_zl (h : Hart) (pri k : Nat) : (h.issuesOn pri k).zl = h.zl := rfl
@[simp] theorem Hart.issuesOn_zrow (h : Hart) (pri k : Nat) : (h.issuesOn pri k).zrow = h.zrow := rfl
@[simp] theorem Hart.issuesOn_qa (h : Hart) (pri k : Nat) : (h.issuesOn pri k).qa = h.qa := rfl
@[simp] theorem Hart.issuesOn_qc (h : Hart) (pri k : Nat) : (h.issuesOn pri k).qc = h.qc := rfl
@[simp] theorem Hart.issuesOn_qb (h : Hart) (pri k : Nat) : (h.issuesOn pri k).qb = h.qb := rfl
@[simp] theorem Hart.issuesOn_vc (h : Hart) (pri k : Nat) : (h.issuesOn pri k).vc = h.vc := rfl
@[simp] theorem Hart.issuesOn_tr (h : Hart) (pri k : Nat) : (h.issuesOn pri k).tr = h.tr := rfl
@[simp] theorem Hart.issuesOn_tp (h : Hart) (pri k : Nat) : (h.issuesOn pri k).tp = h.tp := rfl
@[simp] theorem Hart.issuesOn_slip (h : Hart) (pri k : Nat) : (h.issuesOn pri k).slip = h.slip := rfl
@[simp] theorem Hart.issuesOn_ypend (h : Hart) (pri k : Nat) : (h.issuesOn pri k).ypend = h.ypend := rfl
@[simp] theorem Hart.issuesOn_gsz (h : Hart) (pri k : Nat) : (h.issuesOn pri k).gsz = h.gsz := rfl
@[simp] theorem Hart.issuesOn_gix (h : Hart) (pri k : Nat) : (h.issuesOn pri k).gix = h.gix := rfl
@[simp] theorem Hart.issuesOn_gcnt (h : Hart) (pri k : Nat) : (h.issuesOn pri k).gcnt = h.gcnt := rfl
@[simp] theorem Hart.issuesOn_kargs (h : Hart) (pri k : Nat) : (h.issuesOn pri k).kargs = h.kargs := rfl
@[simp] theorem Hart.issuesOn_hid (h : Hart) (pri k : Nat) : (h.issuesOn pri k).hid = h.hid := rfl
@[simp] theorem Hart.issuesOn_viq (h : Hart) (pri k : Nat) : (h.issuesOn pri k).viq = h.viq := rfl
@[simp] theorem Hart.issuesOn_held (h : Hart) (pri k : Nat) : (h.issuesOn pri k).held = h.held := rfl
@[simp] theorem Hart.issuesOn_markers (h : Hart) (pri k : Nat) : (h.issuesOn pri k).markers = h.markers := rfl
@[simp] theorem Hart.issuesOn_fenceSv (h : Hart) (pri k : Nat) : (h.issuesOn pri k).fenceSv = h.fenceSv := rfl
@[simp] theorem Hart.issuesOn_fenceVs (h : Hart) (pri k : Nat) : (h.issuesOn pri k).fenceVs = h.fenceVs := rfl
@[simp] theorem Hart.issuesOn_seq (h : Hart) (pri k : Nat) : (h.issuesOn pri k).seq = h.seq := rfl
@[simp] theorem Hart.issuesOn_windows (h : Hart) (pri k : Nat) : (h.issuesOn pri k).windows = h.windows := rfl
@[simp] theorem Hart.issuesOn_tcm (h : Hart) (pri k : Nat) : (h.issuesOn pri k).tcm = h.tcm := rfl
@[simp] theorem Hart.issuesOn_waitCount (h : Hart) (pri k : Nat) : (h.issuesOn pri k).waitCount = h.waitCount := rfl
@[simp] theorem Hart.issuesOn_asArr (h : Hart) (pri k : Nat) : (h.issuesOn pri k).asArr = h.asArr := rfl
@[simp] theorem Hart.issuesOn_csArr (h : Hart) (pri k : Nat) : (h.issuesOn pri k).csArr = h.csArr := rfl
@[simp] theorem Hart.issuesOn_grant (h : Hart) (pri k : Nat) : (h.issuesOn pri k).grant = h.grant := rfl
@[simp] theorem Hart.issuesOn_abuf (h : Hart) (pri k : Nat) : (h.issuesOn pri k).abuf = h.abuf := rfl
@[simp] theorem Hart.issuesOn_cbuf (h : Hart) (pri k : Nat) : (h.issuesOn pri k).cbuf = h.cbuf := rfl
@[simp] theorem Hart.issuesOn_save (h : Hart) (pri k : Nat) : (h.issuesOn pri k).save = h.save := rfl
@[simp] theorem Hart.issuesOn_answer (h : Hart) (pri k : Nat) : (h.issuesOn pri k).answer = h.answer := rfl

/-! ### `Hart.setVreg` -/

@[simp] theorem Hart.setVreg_core (h : Hart) (r : BitVec 5) (x : VReg) : (h.setVreg r x).core = h.core := rfl
@[simp] theorem Hart.setVreg_ctx (h : Hart) (r : BitVec 5) (x : VReg) : (h.setVreg r x).ctx = h.ctx := rfl
@[simp] theorem Hart.setVreg_mode (h : Hart) (r : BitVec 5) (x : VReg) : (h.setVreg r x).mode = h.mode := rfl
@[simp] theorem Hart.setVreg_sysTrap (h : Hart) (r : BitVec 5) (x : VReg) : (h.setVreg r x).sysTrap = h.sysTrap := rfl
@[simp] theorem Hart.setVreg_coop (h : Hart) (r : BitVec 5) (x : VReg) : (h.setVreg r x).coop = h.coop := rfl
@[simp] theorem Hart.setVreg_as_ (h : Hart) (r : BitVec 5) (x : VReg) : (h.setVreg r x).as_ = h.as_ := rfl
@[simp] theorem Hart.setVreg_cs (h : Hart) (r : BitVec 5) (x : VReg) : (h.setVreg r x).cs = h.cs := rfl
@[simp] theorem Hart.setVreg_a (h : Hart) (r : BitVec 5) (x : VReg) : (h.setVreg r x).a = h.a := rfl
@[simp] theorem Hart.setVreg_c (h : Hart) (r : BitVec 5) (x : VReg) : (h.setVreg r x).c = h.c := rfl
@[simp] theorem Hart.setVreg_m (h : Hart) (r : BitVec 5) (x : VReg) : (h.setVreg r x).m = h.m := rfl
@[simp] theorem Hart.setVreg_mdone (h : Hart) (r : BitVec 5) (x : VReg) : (h.setVreg r x).mdone = h.mdone := rfl
@[simp] theorem Hart.setVreg_mfault (h : Hart) (r : BitVec 5) (x : VReg) : (h.setVreg r x).mfault = h.mfault := rfl
@[simp] theorem Hart.setVreg_s (h : Hart) (r : BitVec 5) (x : VReg) : (h.setVreg r x).s = h.s := rfl
@[simp] theorem Hart.setVreg_z (h : Hart) (r : BitVec 5) (x : VReg) : (h.setVreg r x).z = h.z := rfl
@[simp] theorem Hart.setVreg_zlive (h : Hart) (r : BitVec 5) (x : VReg) : (h.setVreg r x).zlive = h.zlive := rfl
@[simp] theorem Hart.setVreg_zl (h : Hart) (r : BitVec 5) (x : VReg) : (h.setVreg r x).zl = h.zl := rfl
@[simp] theorem Hart.setVreg_zrow (h : Hart) (r : BitVec 5) (x : VReg) : (h.setVreg r x).zrow = h.zrow := rfl
@[simp] theorem Hart.setVreg_qa (h : Hart) (r : BitVec 5) (x : VReg) : (h.setVreg r x).qa = h.qa := rfl
@[simp] theorem Hart.setVreg_qc (h : Hart) (r : BitVec 5) (x : VReg) : (h.setVreg r x).qc = h.qc := rfl
@[simp] theorem Hart.setVreg_qb (h : Hart) (r : BitVec 5) (x : VReg) : (h.setVreg r x).qb = h.qb := rfl
@[simp] theorem Hart.setVreg_vc (h : Hart) (r : BitVec 5) (x : VReg) : (h.setVreg r x).vc = h.vc := rfl
@[simp] theorem Hart.setVreg_tr (h : Hart) (r : BitVec 5) (x : VReg) : (h.setVreg r x).tr = h.tr := rfl
@[simp] theorem Hart.setVreg_tp (h : Hart) (r : BitVec 5) (x : VReg) : (h.setVreg r x).tp = h.tp := rfl
@[simp] theorem Hart.setVreg_slip (h : Hart) (r : BitVec 5) (x : VReg) : (h.setVreg r x).slip = h.slip := rfl
@[simp] theorem Hart.setVreg_ypend (h : Hart) (r : BitVec 5) (x : VReg) : (h.setVreg r x).ypend = h.ypend := rfl
@[simp] theorem Hart.setVreg_gsz (h : Hart) (r : BitVec 5) (x : VReg) : (h.setVreg r x).gsz = h.gsz := rfl
@[simp] theorem Hart.setVreg_gix (h : Hart) (r : BitVec 5) (x : VReg) : (h.setVreg r x).gix = h.gix := rfl
@[simp] theorem Hart.setVreg_gcnt (h : Hart) (r : BitVec 5) (x : VReg) : (h.setVreg r x).gcnt = h.gcnt := rfl
@[simp] theorem Hart.setVreg_kargs (h : Hart) (r : BitVec 5) (x : VReg) : (h.setVreg r x).kargs = h.kargs := rfl
@[simp] theorem Hart.setVreg_hid (h : Hart) (r : BitVec 5) (x : VReg) : (h.setVreg r x).hid = h.hid := rfl
@[simp] theorem Hart.setVreg_viq (h : Hart) (r : BitVec 5) (x : VReg) : (h.setVreg r x).viq = h.viq := rfl
@[simp] theorem Hart.setVreg_held (h : Hart) (r : BitVec 5) (x : VReg) : (h.setVreg r x).held = h.held := rfl
@[simp] theorem Hart.setVreg_markers (h : Hart) (r : BitVec 5) (x : VReg) : (h.setVreg r x).markers = h.markers := rfl
@[simp] theorem Hart.setVreg_fenceSv (h : Hart) (r : BitVec 5) (x : VReg) : (h.setVreg r x).fenceSv = h.fenceSv := rfl
@[simp] theorem Hart.setVreg_fenceVs (h : Hart) (r : BitVec 5) (x : VReg) : (h.setVreg r x).fenceVs = h.fenceVs := rfl
@[simp] theorem Hart.setVreg_seq (h : Hart) (r : BitVec 5) (x : VReg) : (h.setVreg r x).seq = h.seq := rfl
@[simp] theorem Hart.setVreg_windows (h : Hart) (r : BitVec 5) (x : VReg) : (h.setVreg r x).windows = h.windows := rfl
@[simp] theorem Hart.setVreg_tcm (h : Hart) (r : BitVec 5) (x : VReg) : (h.setVreg r x).tcm = h.tcm := rfl
@[simp] theorem Hart.setVreg_waitCount (h : Hart) (r : BitVec 5) (x : VReg) : (h.setVreg r x).waitCount = h.waitCount := rfl
@[simp] theorem Hart.setVreg_asArr (h : Hart) (r : BitVec 5) (x : VReg) : (h.setVreg r x).asArr = h.asArr := rfl
@[simp] theorem Hart.setVreg_csArr (h : Hart) (r : BitVec 5) (x : VReg) : (h.setVreg r x).csArr = h.csArr := rfl
@[simp] theorem Hart.setVreg_grant (h : Hart) (r : BitVec 5) (x : VReg) : (h.setVreg r x).grant = h.grant := rfl
@[simp] theorem Hart.setVreg_abuf (h : Hart) (r : BitVec 5) (x : VReg) : (h.setVreg r x).abuf = h.abuf := rfl
@[simp] theorem Hart.setVreg_cbuf (h : Hart) (r : BitVec 5) (x : VReg) : (h.setVreg r x).cbuf = h.cbuf := rfl
@[simp] theorem Hart.setVreg_issueClass (h : Hart) (r : BitVec 5) (x : VReg) : (h.setVreg r x).issueClass = h.issueClass := rfl
@[simp] theorem Hart.setVreg_passed (h : Hart) (r : BitVec 5) (x : VReg) : (h.setVreg r x).passed = h.passed := rfl
@[simp] theorem Hart.setVreg_save (h : Hart) (r : BitVec 5) (x : VReg) : (h.setVreg r x).save = h.save := rfl
@[simp] theorem Hart.setVreg_answer (h : Hart) (r : BitVec 5) (x : VReg) : (h.setVreg r x).answer = h.answer := rfl

/-! ### `Hart.setStream` -/

@[simp] theorem Hart.setStream_core (h : Hart) (r : BitVec 5) (x : Stream) : (h.setStream r x).core = h.core := rfl
@[simp] theorem Hart.setStream_ctx (h : Hart) (r : BitVec 5) (x : Stream) : (h.setStream r x).ctx = h.ctx := rfl
@[simp] theorem Hart.setStream_mode (h : Hart) (r : BitVec 5) (x : Stream) : (h.setStream r x).mode = h.mode := rfl
@[simp] theorem Hart.setStream_sysTrap (h : Hart) (r : BitVec 5) (x : Stream) : (h.setStream r x).sysTrap = h.sysTrap := rfl
@[simp] theorem Hart.setStream_coop (h : Hart) (r : BitVec 5) (x : Stream) : (h.setStream r x).coop = h.coop := rfl
@[simp] theorem Hart.setStream_as_ (h : Hart) (r : BitVec 5) (x : Stream) : (h.setStream r x).as_ = h.as_ := rfl
@[simp] theorem Hart.setStream_cs (h : Hart) (r : BitVec 5) (x : Stream) : (h.setStream r x).cs = h.cs := rfl
@[simp] theorem Hart.setStream_a (h : Hart) (r : BitVec 5) (x : Stream) : (h.setStream r x).a = h.a := rfl
@[simp] theorem Hart.setStream_c (h : Hart) (r : BitVec 5) (x : Stream) : (h.setStream r x).c = h.c := rfl
@[simp] theorem Hart.setStream_v (h : Hart) (r : BitVec 5) (x : Stream) : (h.setStream r x).v = h.v := rfl
@[simp] theorem Hart.setStream_m (h : Hart) (r : BitVec 5) (x : Stream) : (h.setStream r x).m = h.m := rfl
@[simp] theorem Hart.setStream_mdone (h : Hart) (r : BitVec 5) (x : Stream) : (h.setStream r x).mdone = h.mdone := rfl
@[simp] theorem Hart.setStream_mfault (h : Hart) (r : BitVec 5) (x : Stream) : (h.setStream r x).mfault = h.mfault := rfl
@[simp] theorem Hart.setStream_z (h : Hart) (r : BitVec 5) (x : Stream) : (h.setStream r x).z = h.z := rfl
@[simp] theorem Hart.setStream_zlive (h : Hart) (r : BitVec 5) (x : Stream) : (h.setStream r x).zlive = h.zlive := rfl
@[simp] theorem Hart.setStream_zl (h : Hart) (r : BitVec 5) (x : Stream) : (h.setStream r x).zl = h.zl := rfl
@[simp] theorem Hart.setStream_zrow (h : Hart) (r : BitVec 5) (x : Stream) : (h.setStream r x).zrow = h.zrow := rfl
@[simp] theorem Hart.setStream_qa (h : Hart) (r : BitVec 5) (x : Stream) : (h.setStream r x).qa = h.qa := rfl
@[simp] theorem Hart.setStream_qc (h : Hart) (r : BitVec 5) (x : Stream) : (h.setStream r x).qc = h.qc := rfl
@[simp] theorem Hart.setStream_qb (h : Hart) (r : BitVec 5) (x : Stream) : (h.setStream r x).qb = h.qb := rfl
@[simp] theorem Hart.setStream_vc (h : Hart) (r : BitVec 5) (x : Stream) : (h.setStream r x).vc = h.vc := rfl
@[simp] theorem Hart.setStream_tr (h : Hart) (r : BitVec 5) (x : Stream) : (h.setStream r x).tr = h.tr := rfl
@[simp] theorem Hart.setStream_tp (h : Hart) (r : BitVec 5) (x : Stream) : (h.setStream r x).tp = h.tp := rfl
@[simp] theorem Hart.setStream_slip (h : Hart) (r : BitVec 5) (x : Stream) : (h.setStream r x).slip = h.slip := rfl
@[simp] theorem Hart.setStream_ypend (h : Hart) (r : BitVec 5) (x : Stream) : (h.setStream r x).ypend = h.ypend := rfl
@[simp] theorem Hart.setStream_gsz (h : Hart) (r : BitVec 5) (x : Stream) : (h.setStream r x).gsz = h.gsz := rfl
@[simp] theorem Hart.setStream_gix (h : Hart) (r : BitVec 5) (x : Stream) : (h.setStream r x).gix = h.gix := rfl
@[simp] theorem Hart.setStream_gcnt (h : Hart) (r : BitVec 5) (x : Stream) : (h.setStream r x).gcnt = h.gcnt := rfl
@[simp] theorem Hart.setStream_kargs (h : Hart) (r : BitVec 5) (x : Stream) : (h.setStream r x).kargs = h.kargs := rfl
@[simp] theorem Hart.setStream_hid (h : Hart) (r : BitVec 5) (x : Stream) : (h.setStream r x).hid = h.hid := rfl
@[simp] theorem Hart.setStream_viq (h : Hart) (r : BitVec 5) (x : Stream) : (h.setStream r x).viq = h.viq := rfl
@[simp] theorem Hart.setStream_held (h : Hart) (r : BitVec 5) (x : Stream) : (h.setStream r x).held = h.held := rfl
@[simp] theorem Hart.setStream_markers (h : Hart) (r : BitVec 5) (x : Stream) : (h.setStream r x).markers = h.markers := rfl
@[simp] theorem Hart.setStream_fenceSv (h : Hart) (r : BitVec 5) (x : Stream) : (h.setStream r x).fenceSv = h.fenceSv := rfl
@[simp] theorem Hart.setStream_fenceVs (h : Hart) (r : BitVec 5) (x : Stream) : (h.setStream r x).fenceVs = h.fenceVs := rfl
@[simp] theorem Hart.setStream_seq (h : Hart) (r : BitVec 5) (x : Stream) : (h.setStream r x).seq = h.seq := rfl
@[simp] theorem Hart.setStream_windows (h : Hart) (r : BitVec 5) (x : Stream) : (h.setStream r x).windows = h.windows := rfl
@[simp] theorem Hart.setStream_tcm (h : Hart) (r : BitVec 5) (x : Stream) : (h.setStream r x).tcm = h.tcm := rfl
@[simp] theorem Hart.setStream_waitCount (h : Hart) (r : BitVec 5) (x : Stream) : (h.setStream r x).waitCount = h.waitCount := rfl
@[simp] theorem Hart.setStream_asArr (h : Hart) (r : BitVec 5) (x : Stream) : (h.setStream r x).asArr = h.asArr := rfl
@[simp] theorem Hart.setStream_csArr (h : Hart) (r : BitVec 5) (x : Stream) : (h.setStream r x).csArr = h.csArr := rfl
@[simp] theorem Hart.setStream_grant (h : Hart) (r : BitVec 5) (x : Stream) : (h.setStream r x).grant = h.grant := rfl
@[simp] theorem Hart.setStream_abuf (h : Hart) (r : BitVec 5) (x : Stream) : (h.setStream r x).abuf = h.abuf := rfl
@[simp] theorem Hart.setStream_cbuf (h : Hart) (r : BitVec 5) (x : Stream) : (h.setStream r x).cbuf = h.cbuf := rfl
@[simp] theorem Hart.setStream_issueClass (h : Hart) (r : BitVec 5) (x : Stream) : (h.setStream r x).issueClass = h.issueClass := rfl
@[simp] theorem Hart.setStream_passed (h : Hart) (r : BitVec 5) (x : Stream) : (h.setStream r x).passed = h.passed := rfl
@[simp] theorem Hart.setStream_save (h : Hart) (r : BitVec 5) (x : Stream) : (h.setStream r x).save = h.save := rfl
@[simp] theorem Hart.setStream_answer (h : Hart) (r : BitVec 5) (x : Stream) : (h.setStream r x).answer = h.answer := rfl

/-! ### `Hart.issued` -/

theorem Hart.issued_eq (h : Hart) (sl : SliceId) : ∃ k, h.issued sl = ({ h with waitCount := 0 } : Hart).setCond sl k ∧
    ((∀ w, (h.slice sl).cond ≠ .waiting w) → k = (h.slice sl).cond) ∧
    (∀ w, (h.slice sl).cond = .waiting w → k = .running) := by
  have e : ({ h with waitCount := 0 } : Hart).slice sl = h.slice sl := by cases sl <;> rfl
  unfold Hart.issued
  simp only [e]
  split
  · next w c => exact ⟨_, rfl, fun k => absurd c (k w), fun _ _ => rfl⟩
  · next c =>
    refine ⟨(h.slice sl).cond, ?_, fun _ => rfl, fun w k => absurd k (c w)⟩
    cases sl <;> rfl

@[simp] theorem Hart.issued_core (h : Hart) (sl : SliceId) : (h.issued sl).core = h.core := by
  obtain ⟨k, e, _⟩ := h.issued_eq sl; simp [e]
@[simp] theorem Hart.issued_ctx (h : Hart) (sl : SliceId) : (h.issued sl).ctx = h.ctx := by
  obtain ⟨k, e, _⟩ := h.issued_eq sl; simp [e]
@[simp] theorem Hart.issued_mode (h : Hart) (sl : SliceId) : (h.issued sl).mode = h.mode := by
  obtain ⟨k, e, _⟩ := h.issued_eq sl; simp [e]
@[simp] theorem Hart.issued_sysTrap (h : Hart) (sl : SliceId) : (h.issued sl).sysTrap = h.sysTrap := by
  obtain ⟨k, e, _⟩ := h.issued_eq sl; simp [e]
@[simp] theorem Hart.issued_coop (h : Hart) (sl : SliceId) : (h.issued sl).coop = h.coop := by
  obtain ⟨k, e, _⟩ := h.issued_eq sl; simp [e]
@[simp] theorem Hart.issued_a (h : Hart) (sl : SliceId) : (h.issued sl).a = h.a := by
  obtain ⟨k, e, _⟩ := h.issued_eq sl; simp [e]
@[simp] theorem Hart.issued_c (h : Hart) (sl : SliceId) : (h.issued sl).c = h.c := by
  obtain ⟨k, e, _⟩ := h.issued_eq sl; simp [e]
@[simp] theorem Hart.issued_v (h : Hart) (sl : SliceId) : (h.issued sl).v = h.v := by
  obtain ⟨k, e, _⟩ := h.issued_eq sl; simp [e]
@[simp] theorem Hart.issued_m (h : Hart) (sl : SliceId) : (h.issued sl).m = h.m := by
  obtain ⟨k, e, _⟩ := h.issued_eq sl; simp [e]
@[simp] theorem Hart.issued_mdone (h : Hart) (sl : SliceId) : (h.issued sl).mdone = h.mdone := by
  obtain ⟨k, e, _⟩ := h.issued_eq sl; simp [e]
@[simp] theorem Hart.issued_mfault (h : Hart) (sl : SliceId) : (h.issued sl).mfault = h.mfault := by
  obtain ⟨k, e, _⟩ := h.issued_eq sl; simp [e]
@[simp] theorem Hart.issued_s (h : Hart) (sl : SliceId) : (h.issued sl).s = h.s := by
  obtain ⟨k, e, _⟩ := h.issued_eq sl; simp [e]
@[simp] theorem Hart.issued_z (h : Hart) (sl : SliceId) : (h.issued sl).z = h.z := by
  obtain ⟨k, e, _⟩ := h.issued_eq sl; simp [e]
@[simp] theorem Hart.issued_zlive (h : Hart) (sl : SliceId) : (h.issued sl).zlive = h.zlive := by
  obtain ⟨k, e, _⟩ := h.issued_eq sl; simp [e]
@[simp] theorem Hart.issued_zl (h : Hart) (sl : SliceId) : (h.issued sl).zl = h.zl := by
  obtain ⟨k, e, _⟩ := h.issued_eq sl; simp [e]
@[simp] theorem Hart.issued_zrow (h : Hart) (sl : SliceId) : (h.issued sl).zrow = h.zrow := by
  obtain ⟨k, e, _⟩ := h.issued_eq sl; simp [e]
@[simp] theorem Hart.issued_qa (h : Hart) (sl : SliceId) : (h.issued sl).qa = h.qa := by
  obtain ⟨k, e, _⟩ := h.issued_eq sl; simp [e]
@[simp] theorem Hart.issued_qc (h : Hart) (sl : SliceId) : (h.issued sl).qc = h.qc := by
  obtain ⟨k, e, _⟩ := h.issued_eq sl; simp [e]
@[simp] theorem Hart.issued_qb (h : Hart) (sl : SliceId) : (h.issued sl).qb = h.qb := by
  obtain ⟨k, e, _⟩ := h.issued_eq sl; simp [e]
@[simp] theorem Hart.issued_vc (h : Hart) (sl : SliceId) : (h.issued sl).vc = h.vc := by
  obtain ⟨k, e, _⟩ := h.issued_eq sl; simp [e]
@[simp] theorem Hart.issued_tr (h : Hart) (sl : SliceId) : (h.issued sl).tr = h.tr := by
  obtain ⟨k, e, _⟩ := h.issued_eq sl; simp [e]
@[simp] theorem Hart.issued_tp (h : Hart) (sl : SliceId) : (h.issued sl).tp = h.tp := by
  obtain ⟨k, e, _⟩ := h.issued_eq sl; simp [e]
@[simp] theorem Hart.issued_slip (h : Hart) (sl : SliceId) : (h.issued sl).slip = h.slip := by
  obtain ⟨k, e, _⟩ := h.issued_eq sl; simp [e]
@[simp] theorem Hart.issued_ypend (h : Hart) (sl : SliceId) : (h.issued sl).ypend = h.ypend := by
  obtain ⟨k, e, _⟩ := h.issued_eq sl; simp [e]
@[simp] theorem Hart.issued_gsz (h : Hart) (sl : SliceId) : (h.issued sl).gsz = h.gsz := by
  obtain ⟨k, e, _⟩ := h.issued_eq sl; simp [e]
@[simp] theorem Hart.issued_gix (h : Hart) (sl : SliceId) : (h.issued sl).gix = h.gix := by
  obtain ⟨k, e, _⟩ := h.issued_eq sl; simp [e]
@[simp] theorem Hart.issued_gcnt (h : Hart) (sl : SliceId) : (h.issued sl).gcnt = h.gcnt := by
  obtain ⟨k, e, _⟩ := h.issued_eq sl; simp [e]
@[simp] theorem Hart.issued_kargs (h : Hart) (sl : SliceId) : (h.issued sl).kargs = h.kargs := by
  obtain ⟨k, e, _⟩ := h.issued_eq sl; simp [e]
@[simp] theorem Hart.issued_hid (h : Hart) (sl : SliceId) : (h.issued sl).hid = h.hid := by
  obtain ⟨k, e, _⟩ := h.issued_eq sl; simp [e]
@[simp] theorem Hart.issued_viq (h : Hart) (sl : SliceId) : (h.issued sl).viq = h.viq := by
  obtain ⟨k, e, _⟩ := h.issued_eq sl; simp [e]
@[simp] theorem Hart.issued_held (h : Hart) (sl : SliceId) : (h.issued sl).held = h.held := by
  obtain ⟨k, e, _⟩ := h.issued_eq sl; simp [e]
@[simp] theorem Hart.issued_markers (h : Hart) (sl : SliceId) : (h.issued sl).markers = h.markers := by
  obtain ⟨k, e, _⟩ := h.issued_eq sl; simp [e]
@[simp] theorem Hart.issued_fenceSv (h : Hart) (sl : SliceId) : (h.issued sl).fenceSv = h.fenceSv := by
  obtain ⟨k, e, _⟩ := h.issued_eq sl; simp [e]
@[simp] theorem Hart.issued_fenceVs (h : Hart) (sl : SliceId) : (h.issued sl).fenceVs = h.fenceVs := by
  obtain ⟨k, e, _⟩ := h.issued_eq sl; simp [e]
@[simp] theorem Hart.issued_seq (h : Hart) (sl : SliceId) : (h.issued sl).seq = h.seq := by
  obtain ⟨k, e, _⟩ := h.issued_eq sl; simp [e]
@[simp] theorem Hart.issued_windows (h : Hart) (sl : SliceId) : (h.issued sl).windows = h.windows := by
  obtain ⟨k, e, _⟩ := h.issued_eq sl; simp [e]
@[simp] theorem Hart.issued_tcm (h : Hart) (sl : SliceId) : (h.issued sl).tcm = h.tcm := by
  obtain ⟨k, e, _⟩ := h.issued_eq sl; simp [e]
@[simp] theorem Hart.issued_asArr (h : Hart) (sl : SliceId) : (h.issued sl).asArr = h.asArr := by
  obtain ⟨k, e, _⟩ := h.issued_eq sl; simp [e]
@[simp] theorem Hart.issued_csArr (h : Hart) (sl : SliceId) : (h.issued sl).csArr = h.csArr := by
  obtain ⟨k, e, _⟩ := h.issued_eq sl; simp [e]
@[simp] theorem Hart.issued_grant (h : Hart) (sl : SliceId) : (h.issued sl).grant = h.grant := by
  obtain ⟨k, e, _⟩ := h.issued_eq sl; simp [e]
@[simp] theorem Hart.issued_abuf (h : Hart) (sl : SliceId) : (h.issued sl).abuf = h.abuf := by
  obtain ⟨k, e, _⟩ := h.issued_eq sl; simp [e]
@[simp] theorem Hart.issued_cbuf (h : Hart) (sl : SliceId) : (h.issued sl).cbuf = h.cbuf := by
  obtain ⟨k, e, _⟩ := h.issued_eq sl; simp [e]
@[simp] theorem Hart.issued_issueClass (h : Hart) (sl : SliceId) : (h.issued sl).issueClass = h.issueClass := by
  obtain ⟨k, e, _⟩ := h.issued_eq sl; simp [e]
@[simp] theorem Hart.issued_passed (h : Hart) (sl : SliceId) : (h.issued sl).passed = h.passed := by
  obtain ⟨k, e, _⟩ := h.issued_eq sl; simp [e]
@[simp] theorem Hart.issued_save (h : Hart) (sl : SliceId) : (h.issued sl).save = h.save := by
  obtain ⟨k, e, _⟩ := h.issued_eq sl; simp [e]
@[simp] theorem Hart.issued_answer (h : Hart) (sl : SliceId) : (h.issued sl).answer = h.answer := by
  obtain ⟨k, e, _⟩ := h.issued_eq sl; simp [e]
@[simp] theorem Hart.issued_waitCount (h : Hart) (sl : SliceId) : (h.issued sl).waitCount = 0 := by
  obtain ⟨k, e, _⟩ := h.issued_eq sl; simp [e]

/-! ### What the updates write -/

@[simp] theorem Hart.slice_setSlice (h : Hart) (sl : SliceId) (x : Slice) : (h.setSlice sl x).slice sl = x := by
  cases sl <;> rfl
@[simp] theorem Hart.slice_setSlice_other (h : Hart) (sl : SliceId) (x : Slice) :
    (h.setSlice sl x).slice (other sl) = h.slice (other sl) := by cases sl <;> rfl
@[simp] theorem Hart.slice_setPc (h : Hart) (sl : SliceId) (pc : Word) :
    (h.setPc sl pc).slice sl = { h.slice sl with pc := pc } := by cases sl <;> rfl
@[simp] theorem Hart.slice_setPc_other (h : Hart) (sl : SliceId) (pc : Word) :
    (h.setPc sl pc).slice (other sl) = h.slice (other sl) := by cases sl <;> rfl
@[simp] theorem Hart.slice_setCond (h : Hart) (sl : SliceId) (k : Cond) :
    (h.setCond sl k).slice sl = { h.slice sl with cond := k } := by cases sl <;> rfl
@[simp] theorem Hart.slice_setCond_other (h : Hart) (sl : SliceId) (k : Cond) :
    (h.setCond sl k).slice (other sl) = h.slice (other sl) := by cases sl <;> rfl
@[simp] theorem Hart.buf_setBuf (h : Hart) (sl : SliceId) (b : List PWrite) : (h.setBuf sl b).buf sl = b := by
  cases sl <;> rfl
@[simp] theorem Hart.buf_setBuf_other (h : Hart) (sl : SliceId) (b : List PWrite) :
    (h.setBuf sl b).buf (other sl) = h.buf (other sl) := by cases sl <;> rfl
@[simp] theorem Hart.issued_slice_other (h : Hart) (sl : SliceId) :
    (h.issued sl).slice (other sl) = h.slice (other sl) := by
  obtain ⟨k, e, _⟩ := h.issued_eq sl
  cases sl <;> simp [e] <;> rfl
@[simp] theorem Hart.issued_pc (h : Hart) (sl : SliceId) : ((h.issued sl).slice sl).pc = (h.slice sl).pc := by
  obtain ⟨k, e, _⟩ := h.issued_eq sl
  cases sl <;> simp [e] <;> rfl
@[simp] theorem Hart.issued_fbuf (h : Hart) (sl : SliceId) : ((h.issued sl).slice sl).fbuf = (h.slice sl).fbuf := by
  obtain ⟨k, e, _⟩ := h.issued_eq sl
  cases sl <;> simp [e] <;> rfl

/-- Register 0 reads 0, and a write reaches the register it names, unless that is register 0 (05 R97). -/
theorem fileGet_fileSet (x : Vector Word 32) (d r : RegField) (v : Word) :
    fileGet (fileSet x d v) r = if d = r ∧ d ≠ 0#5 then v else fileGet x r := by
  unfold fileGet fileSet
  by_cases r0 : r = 0#5
  · subst r0
    by_cases d0 : d = 0#5 <;> simp [d0]
  · by_cases d0 : d = 0#5
    · simp [d0]
    · by_cases e : d = r
      · subst e; simp [d0]
      · have : d.toNat ≠ r.toNat := fun k => e (BitVec.eq_of_toNat_eq k)
        simp [r0, d0, e, this]

@[simp] theorem Hart.vreg_setVreg (h : Hart) (r : BitVec 5) (x : VReg) : (h.setVreg r x).vreg r = x := by
  simp [Hart.vreg, Hart.setVreg]
theorem Hart.vreg_setVreg_other (h : Hart) {r k : BitVec 5} (x : VReg) (e : k ≠ r) : (h.setVreg r x).vreg k = h.vreg k := by
  have : r.toNat ≠ k.toNat := fun n => e (BitVec.eq_of_toNat_eq n.symm)
  simp [Hart.vreg, Hart.setVreg, this]

/-! ### `mapGang` -/

@[simp] theorem mapGang_agenda (s : State) (g : Nat) (f : Gang → Gang) : (mapGang s g f).agenda = s.agenda := rfl
@[simp] theorem mapGang_cur (s : State) (g : Nat) (f : Gang → Gang) : (mapGang s g f).cur = s.cur := rfl
@[simp] theorem mapGang_freeCtr (s : State) (g : Nat) (f : Gang → Gang) : (mapGang s g f).freeCtr = s.freeCtr := rfl
@[simp] theorem mapGang_cycle (s : State) (g : Nat) (f : Gang → Gang) : (mapGang s g f).cycle = s.cycle := rfl
@[simp] theorem mapGang_ntime (s : State) (g : Nat) (f : Gang → Gang) : (mapGang s g f).ntime = s.ntime := rfl
@[simp] theorem mapGang_clock (s : State) (g : Nat) (f : Gang → Gang) : (mapGang s g f).clock = s.clock := rfl
@[simp] theorem mapGang_mem (s : State) (g : Nat) (f : Gang → Gang) : (mapGang s g f).mem = s.mem := rfl
@[simp] theorem mapGang_poison (s : State) (g : Nat) (f : Gang → Gang) : (mapGang s g f).poison = s.poison := rfl
@[simp] theorem mapGang_tlb (s : State) (g : Nat) (f : Gang → Gang) : (mapGang s g f).tlb = s.tlb := rfl
@[simp] theorem mapGang_dev (s : State) (g : Nat) (f : Gang → Gang) : (mapGang s g f).dev = s.dev := rfl
@[simp] theorem mapGang_bed (s : State) (g : Nat) (f : Gang → Gang) : (mapGang s g f).bed = s.bed := rfl
@[simp] theorem mapGang_launches (s : State) (g : Nat) (f : Gang → Gang) : (mapGang s g f).launches = s.launches := rfl
@[simp] theorem mapGang_nextLaunch (s : State) (g : Nat) (f : Gang → Gang) : (mapGang s g f).nextLaunch = s.nextLaunch := rfl
@[simp] theorem mapGang_aged (s : State) (g : Nat) (f : Gang → Gang) : (mapGang s g f).aged = s.aged := rfl
@[simp] theorem mapGang_lastGallery (s : State) (g : Nat) (f : Gang → Gang) : (mapGang s g f).lastGallery = s.lastGallery := rfl
@[simp] theorem mapGang_ops (s : State) (g : Nat) (f : Gang → Gang) : (mapGang s g f).ops = s.ops := rfl
@[simp] theorem mapGang_nextOp (s : State) (g : Nat) (f : Gang → Gang) : (mapGang s g f).nextOp = s.nextOp := rfl
@[simp] theorem mapGang_colls (s : State) (g : Nat) (f : Gang → Gang) : (mapGang s g f).colls = s.colls := rfl
@[simp] theorem mapGang_adds (s : State) (g : Nat) (f : Gang → Gang) : (mapGang s g f).adds = s.adds := rfl
@[simp] theorem mapGang_nbes (s : State) (g : Nat) (f : Gang → Gang) : (mapGang s g f).nbes = s.nbes := rfl
@[simp] theorem mapGang_verdicts (s : State) (g : Nat) (f : Gang → Gang) : (mapGang s g f).verdicts = s.verdicts := rfl
@[simp] theorem mapGang_notices (s : State) (g : Nat) (f : Gang → Gang) : (mapGang s g f).notices = s.notices := rfl
@[simp] theorem mapGang_heldReqs (s : State) (g : Nat) (f : Gang → Gang) : (mapGang s g f).heldReqs = s.heldReqs := rfl

/-! ### `mapHart` -/

@[simp] theorem mapHart_agenda (s : State) (g h : Nat) (f : Hart → Hart) : (mapHart s g h f).agenda = s.agenda := rfl
@[simp] theorem mapHart_cur (s : State) (g h : Nat) (f : Hart → Hart) : (mapHart s g h f).cur = s.cur := rfl
@[simp] theorem mapHart_freeCtr (s : State) (g h : Nat) (f : Hart → Hart) : (mapHart s g h f).freeCtr = s.freeCtr := rfl
@[simp] theorem mapHart_cycle (s : State) (g h : Nat) (f : Hart → Hart) : (mapHart s g h f).cycle = s.cycle := rfl
@[simp] theorem mapHart_ntime (s : State) (g h : Nat) (f : Hart → Hart) : (mapHart s g h f).ntime = s.ntime := rfl
@[simp] theorem mapHart_clock (s : State) (g h : Nat) (f : Hart → Hart) : (mapHart s g h f).clock = s.clock := rfl
@[simp] theorem mapHart_mem (s : State) (g h : Nat) (f : Hart → Hart) : (mapHart s g h f).mem = s.mem := rfl
@[simp] theorem mapHart_poison (s : State) (g h : Nat) (f : Hart → Hart) : (mapHart s g h f).poison = s.poison := rfl
@[simp] theorem mapHart_tlb (s : State) (g h : Nat) (f : Hart → Hart) : (mapHart s g h f).tlb = s.tlb := rfl
@[simp] theorem mapHart_dev (s : State) (g h : Nat) (f : Hart → Hart) : (mapHart s g h f).dev = s.dev := rfl
@[simp] theorem mapHart_bed (s : State) (g h : Nat) (f : Hart → Hart) : (mapHart s g h f).bed = s.bed := rfl
@[simp] theorem mapHart_launches (s : State) (g h : Nat) (f : Hart → Hart) : (mapHart s g h f).launches = s.launches := rfl
@[simp] theorem mapHart_nextLaunch (s : State) (g h : Nat) (f : Hart → Hart) : (mapHart s g h f).nextLaunch = s.nextLaunch := rfl
@[simp] theorem mapHart_aged (s : State) (g h : Nat) (f : Hart → Hart) : (mapHart s g h f).aged = s.aged := rfl
@[simp] theorem mapHart_lastGallery (s : State) (g h : Nat) (f : Hart → Hart) : (mapHart s g h f).lastGallery = s.lastGallery := rfl
@[simp] theorem mapHart_ops (s : State) (g h : Nat) (f : Hart → Hart) : (mapHart s g h f).ops = s.ops := rfl
@[simp] theorem mapHart_nextOp (s : State) (g h : Nat) (f : Hart → Hart) : (mapHart s g h f).nextOp = s.nextOp := rfl
@[simp] theorem mapHart_colls (s : State) (g h : Nat) (f : Hart → Hart) : (mapHart s g h f).colls = s.colls := rfl
@[simp] theorem mapHart_adds (s : State) (g h : Nat) (f : Hart → Hart) : (mapHart s g h f).adds = s.adds := rfl
@[simp] theorem mapHart_nbes (s : State) (g h : Nat) (f : Hart → Hart) : (mapHart s g h f).nbes = s.nbes := rfl
@[simp] theorem mapHart_verdicts (s : State) (g h : Nat) (f : Hart → Hart) : (mapHart s g h f).verdicts = s.verdicts := rfl
@[simp] theorem mapHart_notices (s : State) (g h : Nat) (f : Hart → Hart) : (mapHart s g h f).notices = s.notices := rfl
@[simp] theorem mapHart_heldReqs (s : State) (g h : Nat) (f : Hart → Hart) : (mapHart s g h f).heldReqs = s.heldReqs := rfl

/-! ### `mapSurvey` -/

@[simp] theorem mapSurvey_agenda (s : State) (k : Nat) (f : Survey → Survey) : (mapSurvey s k f).agenda = s.agenda := rfl
@[simp] theorem mapSurvey_cur (s : State) (k : Nat) (f : Survey → Survey) : (mapSurvey s k f).cur = s.cur := rfl
@[simp] theorem mapSurvey_freeCtr (s : State) (k : Nat) (f : Survey → Survey) : (mapSurvey s k f).freeCtr = s.freeCtr := rfl
@[simp] theorem mapSurvey_cycle (s : State) (k : Nat) (f : Survey → Survey) : (mapSurvey s k f).cycle = s.cycle := rfl
@[simp] theorem mapSurvey_ntime (s : State) (k : Nat) (f : Survey → Survey) : (mapSurvey s k f).ntime = s.ntime := rfl
@[simp] theorem mapSurvey_clock (s : State) (k : Nat) (f : Survey → Survey) : (mapSurvey s k f).clock = s.clock := rfl
@[simp] theorem mapSurvey_mem (s : State) (k : Nat) (f : Survey → Survey) : (mapSurvey s k f).mem = s.mem := rfl
@[simp] theorem mapSurvey_poison (s : State) (k : Nat) (f : Survey → Survey) : (mapSurvey s k f).poison = s.poison := rfl
@[simp] theorem mapSurvey_tlb (s : State) (k : Nat) (f : Survey → Survey) : (mapSurvey s k f).tlb = s.tlb := rfl
@[simp] theorem mapSurvey_bed (s : State) (k : Nat) (f : Survey → Survey) : (mapSurvey s k f).bed = s.bed := rfl
@[simp] theorem mapSurvey_launches (s : State) (k : Nat) (f : Survey → Survey) : (mapSurvey s k f).launches = s.launches := rfl
@[simp] theorem mapSurvey_nextLaunch (s : State) (k : Nat) (f : Survey → Survey) : (mapSurvey s k f).nextLaunch = s.nextLaunch := rfl
@[simp] theorem mapSurvey_gangs (s : State) (k : Nat) (f : Survey → Survey) : (mapSurvey s k f).gangs = s.gangs := rfl
@[simp] theorem mapSurvey_aged (s : State) (k : Nat) (f : Survey → Survey) : (mapSurvey s k f).aged = s.aged := rfl
@[simp] theorem mapSurvey_lastGallery (s : State) (k : Nat) (f : Survey → Survey) : (mapSurvey s k f).lastGallery = s.lastGallery := rfl
@[simp] theorem mapSurvey_ops (s : State) (k : Nat) (f : Survey → Survey) : (mapSurvey s k f).ops = s.ops := rfl
@[simp] theorem mapSurvey_nextOp (s : State) (k : Nat) (f : Survey → Survey) : (mapSurvey s k f).nextOp = s.nextOp := rfl
@[simp] theorem mapSurvey_colls (s : State) (k : Nat) (f : Survey → Survey) : (mapSurvey s k f).colls = s.colls := rfl
@[simp] theorem mapSurvey_adds (s : State) (k : Nat) (f : Survey → Survey) : (mapSurvey s k f).adds = s.adds := rfl
@[simp] theorem mapSurvey_nbes (s : State) (k : Nat) (f : Survey → Survey) : (mapSurvey s k f).nbes = s.nbes := rfl
@[simp] theorem mapSurvey_verdicts (s : State) (k : Nat) (f : Survey → Survey) : (mapSurvey s k f).verdicts = s.verdicts := rfl
@[simp] theorem mapSurvey_notices (s : State) (k : Nat) (f : Survey → Survey) : (mapSurvey s k f).notices = s.notices := rfl
@[simp] theorem mapSurvey_heldReqs (s : State) (k : Nat) (f : Survey → Survey) : (mapSurvey s k f).heldReqs = s.heldReqs := rfl

/-! ### `mapLaunch` -/

@[simp] theorem mapLaunch_agenda (s : State) (id : Nat) (f : Launch → Launch) : (mapLaunch s id f).agenda = s.agenda := rfl
@[simp] theorem mapLaunch_cur (s : State) (id : Nat) (f : Launch → Launch) : (mapLaunch s id f).cur = s.cur := rfl
@[simp] theorem mapLaunch_freeCtr (s : State) (id : Nat) (f : Launch → Launch) : (mapLaunch s id f).freeCtr = s.freeCtr := rfl
@[simp] theorem mapLaunch_cycle (s : State) (id : Nat) (f : Launch → Launch) : (mapLaunch s id f).cycle = s.cycle := rfl
@[simp] theorem mapLaunch_ntime (s : State) (id : Nat) (f : Launch → Launch) : (mapLaunch s id f).ntime = s.ntime := rfl
@[simp] theorem mapLaunch_clock (s : State) (id : Nat) (f : Launch → Launch) : (mapLaunch s id f).clock = s.clock := rfl
@[simp] theorem mapLaunch_mem (s : State) (id : Nat) (f : Launch → Launch) : (mapLaunch s id f).mem = s.mem := rfl
@[simp] theorem mapLaunch_poison (s : State) (id : Nat) (f : Launch → Launch) : (mapLaunch s id f).poison = s.poison := rfl
@[simp] theorem mapLaunch_tlb (s : State) (id : Nat) (f : Launch → Launch) : (mapLaunch s id f).tlb = s.tlb := rfl
@[simp] theorem mapLaunch_dev (s : State) (id : Nat) (f : Launch → Launch) : (mapLaunch s id f).dev = s.dev := rfl
@[simp] theorem mapLaunch_bed (s : State) (id : Nat) (f : Launch → Launch) : (mapLaunch s id f).bed = s.bed := rfl
@[simp] theorem mapLaunch_nextLaunch (s : State) (id : Nat) (f : Launch → Launch) : (mapLaunch s id f).nextLaunch = s.nextLaunch := rfl
@[simp] theorem mapLaunch_gangs (s : State) (id : Nat) (f : Launch → Launch) : (mapLaunch s id f).gangs = s.gangs := rfl
@[simp] theorem mapLaunch_aged (s : State) (id : Nat) (f : Launch → Launch) : (mapLaunch s id f).aged = s.aged := rfl
@[simp] theorem mapLaunch_lastGallery (s : State) (id : Nat) (f : Launch → Launch) : (mapLaunch s id f).lastGallery = s.lastGallery := rfl
@[simp] theorem mapLaunch_ops (s : State) (id : Nat) (f : Launch → Launch) : (mapLaunch s id f).ops = s.ops := rfl
@[simp] theorem mapLaunch_nextOp (s : State) (id : Nat) (f : Launch → Launch) : (mapLaunch s id f).nextOp = s.nextOp := rfl
@[simp] theorem mapLaunch_colls (s : State) (id : Nat) (f : Launch → Launch) : (mapLaunch s id f).colls = s.colls := rfl
@[simp] theorem mapLaunch_adds (s : State) (id : Nat) (f : Launch → Launch) : (mapLaunch s id f).adds = s.adds := rfl
@[simp] theorem mapLaunch_nbes (s : State) (id : Nat) (f : Launch → Launch) : (mapLaunch s id f).nbes = s.nbes := rfl
@[simp] theorem mapLaunch_verdicts (s : State) (id : Nat) (f : Launch → Launch) : (mapLaunch s id f).verdicts = s.verdicts := rfl
@[simp] theorem mapLaunch_notices (s : State) (id : Nat) (f : Launch → Launch) : (mapLaunch s id f).notices = s.notices := rfl
@[simp] theorem mapLaunch_heldReqs (s : State) (id : Nat) (f : Launch → Launch) : (mapLaunch s id f).heldReqs = s.heldReqs := rfl

/-! ### `mapOp` -/

@[simp] theorem mapOp_agenda (s : State) (id : Nat) (f : Op → Op) : (mapOp s id f).agenda = s.agenda := rfl
@[simp] theorem mapOp_cur (s : State) (id : Nat) (f : Op → Op) : (mapOp s id f).cur = s.cur := rfl
@[simp] theorem mapOp_freeCtr (s : State) (id : Nat) (f : Op → Op) : (mapOp s id f).freeCtr = s.freeCtr := rfl
@[simp] theorem mapOp_cycle (s : State) (id : Nat) (f : Op → Op) : (mapOp s id f).cycle = s.cycle := rfl
@[simp] theorem mapOp_ntime (s : State) (id : Nat) (f : Op → Op) : (mapOp s id f).ntime = s.ntime := rfl
@[simp] theorem mapOp_clock (s : State) (id : Nat) (f : Op → Op) : (mapOp s id f).clock = s.clock := rfl
@[simp] theorem mapOp_mem (s : State) (id : Nat) (f : Op → Op) : (mapOp s id f).mem = s.mem := rfl
@[simp] theorem mapOp_poison (s : State) (id : Nat) (f : Op → Op) : (mapOp s id f).poison = s.poison := rfl
@[simp] theorem mapOp_tlb (s : State) (id : Nat) (f : Op → Op) : (mapOp s id f).tlb = s.tlb := rfl
@[simp] theorem mapOp_dev (s : State) (id : Nat) (f : Op → Op) : (mapOp s id f).dev = s.dev := rfl
@[simp] theorem mapOp_bed (s : State) (id : Nat) (f : Op → Op) : (mapOp s id f).bed = s.bed := rfl
@[simp] theorem mapOp_launches (s : State) (id : Nat) (f : Op → Op) : (mapOp s id f).launches = s.launches := rfl
@[simp] theorem mapOp_nextLaunch (s : State) (id : Nat) (f : Op → Op) : (mapOp s id f).nextLaunch = s.nextLaunch := rfl
@[simp] theorem mapOp_gangs (s : State) (id : Nat) (f : Op → Op) : (mapOp s id f).gangs = s.gangs := rfl
@[simp] theorem mapOp_aged (s : State) (id : Nat) (f : Op → Op) : (mapOp s id f).aged = s.aged := rfl
@[simp] theorem mapOp_lastGallery (s : State) (id : Nat) (f : Op → Op) : (mapOp s id f).lastGallery = s.lastGallery := rfl
@[simp] theorem mapOp_nextOp (s : State) (id : Nat) (f : Op → Op) : (mapOp s id f).nextOp = s.nextOp := rfl
@[simp] theorem mapOp_colls (s : State) (id : Nat) (f : Op → Op) : (mapOp s id f).colls = s.colls := rfl
@[simp] theorem mapOp_adds (s : State) (id : Nat) (f : Op → Op) : (mapOp s id f).adds = s.adds := rfl
@[simp] theorem mapOp_nbes (s : State) (id : Nat) (f : Op → Op) : (mapOp s id f).nbes = s.nbes := rfl
@[simp] theorem mapOp_verdicts (s : State) (id : Nat) (f : Op → Op) : (mapOp s id f).verdicts = s.verdicts := rfl
@[simp] theorem mapOp_notices (s : State) (id : Nat) (f : Op → Op) : (mapOp s id f).notices = s.notices := rfl
@[simp] theorem mapOp_heldReqs (s : State) (id : Nat) (f : Op → Op) : (mapOp s id f).heldReqs = s.heldReqs := rfl

/-! ### `setNbe` -/

@[simp] theorem setNbe_agenda (s : State) (x : NbeEng) : (setNbe s x).agenda = s.agenda := rfl
@[simp] theorem setNbe_cur (s : State) (x : NbeEng) : (setNbe s x).cur = s.cur := rfl
@[simp] theorem setNbe_freeCtr (s : State) (x : NbeEng) : (setNbe s x).freeCtr = s.freeCtr := rfl
@[simp] theorem setNbe_cycle (s : State) (x : NbeEng) : (setNbe s x).cycle = s.cycle := rfl
@[simp] theorem setNbe_ntime (s : State) (x : NbeEng) : (setNbe s x).ntime = s.ntime := rfl
@[simp] theorem setNbe_clock (s : State) (x : NbeEng) : (setNbe s x).clock = s.clock := rfl
@[simp] theorem setNbe_mem (s : State) (x : NbeEng) : (setNbe s x).mem = s.mem := rfl
@[simp] theorem setNbe_poison (s : State) (x : NbeEng) : (setNbe s x).poison = s.poison := rfl
@[simp] theorem setNbe_tlb (s : State) (x : NbeEng) : (setNbe s x).tlb = s.tlb := rfl
@[simp] theorem setNbe_dev (s : State) (x : NbeEng) : (setNbe s x).dev = s.dev := rfl
@[simp] theorem setNbe_bed (s : State) (x : NbeEng) : (setNbe s x).bed = s.bed := rfl
@[simp] theorem setNbe_launches (s : State) (x : NbeEng) : (setNbe s x).launches = s.launches := rfl
@[simp] theorem setNbe_nextLaunch (s : State) (x : NbeEng) : (setNbe s x).nextLaunch = s.nextLaunch := rfl
@[simp] theorem setNbe_gangs (s : State) (x : NbeEng) : (setNbe s x).gangs = s.gangs := rfl
@[simp] theorem setNbe_aged (s : State) (x : NbeEng) : (setNbe s x).aged = s.aged := rfl
@[simp] theorem setNbe_lastGallery (s : State) (x : NbeEng) : (setNbe s x).lastGallery = s.lastGallery := rfl
@[simp] theorem setNbe_ops (s : State) (x : NbeEng) : (setNbe s x).ops = s.ops := rfl
@[simp] theorem setNbe_nextOp (s : State) (x : NbeEng) : (setNbe s x).nextOp = s.nextOp := rfl
@[simp] theorem setNbe_colls (s : State) (x : NbeEng) : (setNbe s x).colls = s.colls := rfl
@[simp] theorem setNbe_adds (s : State) (x : NbeEng) : (setNbe s x).adds = s.adds := rfl
@[simp] theorem setNbe_verdicts (s : State) (x : NbeEng) : (setNbe s x).verdicts = s.verdicts := rfl
@[simp] theorem setNbe_notices (s : State) (x : NbeEng) : (setNbe s x).notices = s.notices := rfl
@[simp] theorem setNbe_heldReqs (s : State) (x : NbeEng) : (setNbe s x).heldReqs = s.heldReqs := rfl

/-! ### `setPort` -/

@[simp] theorem setPort_agenda (s : State) (p : BitVec 8) (x : Port) : (setPort s p x).agenda = s.agenda := rfl
@[simp] theorem setPort_cur (s : State) (p : BitVec 8) (x : Port) : (setPort s p x).cur = s.cur := rfl
@[simp] theorem setPort_freeCtr (s : State) (p : BitVec 8) (x : Port) : (setPort s p x).freeCtr = s.freeCtr := rfl
@[simp] theorem setPort_cycle (s : State) (p : BitVec 8) (x : Port) : (setPort s p x).cycle = s.cycle := rfl
@[simp] theorem setPort_ntime (s : State) (p : BitVec 8) (x : Port) : (setPort s p x).ntime = s.ntime := rfl
@[simp] theorem setPort_clock (s : State) (p : BitVec 8) (x : Port) : (setPort s p x).clock = s.clock := rfl
@[simp] theorem setPort_mem (s : State) (p : BitVec 8) (x : Port) : (setPort s p x).mem = s.mem := rfl
@[simp] theorem setPort_poison (s : State) (p : BitVec 8) (x : Port) : (setPort s p x).poison = s.poison := rfl
@[simp] theorem setPort_tlb (s : State) (p : BitVec 8) (x : Port) : (setPort s p x).tlb = s.tlb := rfl
@[simp] theorem setPort_bed (s : State) (p : BitVec 8) (x : Port) : (setPort s p x).bed = s.bed := rfl
@[simp] theorem setPort_launches (s : State) (p : BitVec 8) (x : Port) : (setPort s p x).launches = s.launches := rfl
@[simp] theorem setPort_nextLaunch (s : State) (p : BitVec 8) (x : Port) : (setPort s p x).nextLaunch = s.nextLaunch := rfl
@[simp] theorem setPort_gangs (s : State) (p : BitVec 8) (x : Port) : (setPort s p x).gangs = s.gangs := rfl
@[simp] theorem setPort_aged (s : State) (p : BitVec 8) (x : Port) : (setPort s p x).aged = s.aged := rfl
@[simp] theorem setPort_lastGallery (s : State) (p : BitVec 8) (x : Port) : (setPort s p x).lastGallery = s.lastGallery := rfl
@[simp] theorem setPort_ops (s : State) (p : BitVec 8) (x : Port) : (setPort s p x).ops = s.ops := rfl
@[simp] theorem setPort_nextOp (s : State) (p : BitVec 8) (x : Port) : (setPort s p x).nextOp = s.nextOp := rfl
@[simp] theorem setPort_colls (s : State) (p : BitVec 8) (x : Port) : (setPort s p x).colls = s.colls := rfl
@[simp] theorem setPort_adds (s : State) (p : BitVec 8) (x : Port) : (setPort s p x).adds = s.adds := rfl
@[simp] theorem setPort_nbes (s : State) (p : BitVec 8) (x : Port) : (setPort s p x).nbes = s.nbes := rfl
@[simp] theorem setPort_verdicts (s : State) (p : BitVec 8) (x : Port) : (setPort s p x).verdicts = s.verdicts := rfl
@[simp] theorem setPort_notices (s : State) (p : BitVec 8) (x : Port) : (setPort s p x).notices = s.notices := rfl
@[simp] theorem setPort_heldReqs (s : State) (p : BitVec 8) (x : Port) : (setPort s p x).heldReqs = s.heldReqs := rfl

/-! ### `notify` -/

@[simp] theorem notify_agenda (s : State) (duty : Nat) (k : NoticeKind) (ws : List Word) : (notify s duty k ws).agenda = s.agenda := rfl
@[simp] theorem notify_cur (s : State) (duty : Nat) (k : NoticeKind) (ws : List Word) : (notify s duty k ws).cur = s.cur := rfl
@[simp] theorem notify_freeCtr (s : State) (duty : Nat) (k : NoticeKind) (ws : List Word) : (notify s duty k ws).freeCtr = s.freeCtr := rfl
@[simp] theorem notify_cycle (s : State) (duty : Nat) (k : NoticeKind) (ws : List Word) : (notify s duty k ws).cycle = s.cycle := rfl
@[simp] theorem notify_ntime (s : State) (duty : Nat) (k : NoticeKind) (ws : List Word) : (notify s duty k ws).ntime = s.ntime := rfl
@[simp] theorem notify_clock (s : State) (duty : Nat) (k : NoticeKind) (ws : List Word) : (notify s duty k ws).clock = s.clock := rfl
@[simp] theorem notify_mem (s : State) (duty : Nat) (k : NoticeKind) (ws : List Word) : (notify s duty k ws).mem = s.mem := rfl
@[simp] theorem notify_poison (s : State) (duty : Nat) (k : NoticeKind) (ws : List Word) : (notify s duty k ws).poison = s.poison := rfl
@[simp] theorem notify_tlb (s : State) (duty : Nat) (k : NoticeKind) (ws : List Word) : (notify s duty k ws).tlb = s.tlb := rfl
@[simp] theorem notify_dev (s : State) (duty : Nat) (k : NoticeKind) (ws : List Word) : (notify s duty k ws).dev = s.dev := rfl
@[simp] theorem notify_bed (s : State) (duty : Nat) (k : NoticeKind) (ws : List Word) : (notify s duty k ws).bed = s.bed := rfl
@[simp] theorem notify_launches (s : State) (duty : Nat) (k : NoticeKind) (ws : List Word) : (notify s duty k ws).launches = s.launches := rfl
@[simp] theorem notify_nextLaunch (s : State) (duty : Nat) (k : NoticeKind) (ws : List Word) : (notify s duty k ws).nextLaunch = s.nextLaunch := rfl
@[simp] theorem notify_gangs (s : State) (duty : Nat) (k : NoticeKind) (ws : List Word) : (notify s duty k ws).gangs = s.gangs := rfl
@[simp] theorem notify_aged (s : State) (duty : Nat) (k : NoticeKind) (ws : List Word) : (notify s duty k ws).aged = s.aged := rfl
@[simp] theorem notify_lastGallery (s : State) (duty : Nat) (k : NoticeKind) (ws : List Word) : (notify s duty k ws).lastGallery = s.lastGallery := rfl
@[simp] theorem notify_ops (s : State) (duty : Nat) (k : NoticeKind) (ws : List Word) : (notify s duty k ws).ops = s.ops := rfl
@[simp] theorem notify_nextOp (s : State) (duty : Nat) (k : NoticeKind) (ws : List Word) : (notify s duty k ws).nextOp = s.nextOp := rfl
@[simp] theorem notify_colls (s : State) (duty : Nat) (k : NoticeKind) (ws : List Word) : (notify s duty k ws).colls = s.colls := rfl
@[simp] theorem notify_adds (s : State) (duty : Nat) (k : NoticeKind) (ws : List Word) : (notify s duty k ws).adds = s.adds := rfl
@[simp] theorem notify_nbes (s : State) (duty : Nat) (k : NoticeKind) (ws : List Word) : (notify s duty k ws).nbes = s.nbes := rfl
@[simp] theorem notify_verdicts (s : State) (duty : Nat) (k : NoticeKind) (ws : List Word) : (notify s duty k ws).verdicts = s.verdicts := rfl
@[simp] theorem notify_heldReqs (s : State) (duty : Nat) (k : NoticeKind) (ws : List Word) : (notify s duty k ws).heldReqs = s.heldReqs := rfl

/-! ### `setDevReg` -/

@[simp] theorem setDevReg_agenda (s : State) (off : Nat) (v : Word) : (setDevReg s off v).agenda = s.agenda := rfl
@[simp] theorem setDevReg_cur (s : State) (off : Nat) (v : Word) : (setDevReg s off v).cur = s.cur := rfl
@[simp] theorem setDevReg_freeCtr (s : State) (off : Nat) (v : Word) : (setDevReg s off v).freeCtr = s.freeCtr := rfl
@[simp] theorem setDevReg_cycle (s : State) (off : Nat) (v : Word) : (setDevReg s off v).cycle = s.cycle := rfl
@[simp] theorem setDevReg_ntime (s : State) (off : Nat) (v : Word) : (setDevReg s off v).ntime = s.ntime := rfl
@[simp] theorem setDevReg_clock (s : State) (off : Nat) (v : Word) : (setDevReg s off v).clock = s.clock := rfl
@[simp] theorem setDevReg_mem (s : State) (off : Nat) (v : Word) : (setDevReg s off v).mem = s.mem := rfl
@[simp] theorem setDevReg_poison (s : State) (off : Nat) (v : Word) : (setDevReg s off v).poison = s.poison := rfl
@[simp] theorem setDevReg_tlb (s : State) (off : Nat) (v : Word) : (setDevReg s off v).tlb = s.tlb := rfl
@[simp] theorem setDevReg_bed (s : State) (off : Nat) (v : Word) : (setDevReg s off v).bed = s.bed := rfl
@[simp] theorem setDevReg_launches (s : State) (off : Nat) (v : Word) : (setDevReg s off v).launches = s.launches := rfl
@[simp] theorem setDevReg_nextLaunch (s : State) (off : Nat) (v : Word) : (setDevReg s off v).nextLaunch = s.nextLaunch := rfl
@[simp] theorem setDevReg_gangs (s : State) (off : Nat) (v : Word) : (setDevReg s off v).gangs = s.gangs := rfl
@[simp] theorem setDevReg_aged (s : State) (off : Nat) (v : Word) : (setDevReg s off v).aged = s.aged := rfl
@[simp] theorem setDevReg_lastGallery (s : State) (off : Nat) (v : Word) : (setDevReg s off v).lastGallery = s.lastGallery := rfl
@[simp] theorem setDevReg_ops (s : State) (off : Nat) (v : Word) : (setDevReg s off v).ops = s.ops := rfl
@[simp] theorem setDevReg_nextOp (s : State) (off : Nat) (v : Word) : (setDevReg s off v).nextOp = s.nextOp := rfl
@[simp] theorem setDevReg_colls (s : State) (off : Nat) (v : Word) : (setDevReg s off v).colls = s.colls := rfl
@[simp] theorem setDevReg_adds (s : State) (off : Nat) (v : Word) : (setDevReg s off v).adds = s.adds := rfl
@[simp] theorem setDevReg_nbes (s : State) (off : Nat) (v : Word) : (setDevReg s off v).nbes = s.nbes := rfl
@[simp] theorem setDevReg_verdicts (s : State) (off : Nat) (v : Word) : (setDevReg s off v).verdicts = s.verdicts := rfl
@[simp] theorem setDevReg_notices (s : State) (off : Nat) (v : Word) : (setDevReg s off v).notices = s.notices := rfl
@[simp] theorem setDevReg_heldReqs (s : State) (off : Nat) (v : Word) : (setDevReg s off v).heldReqs = s.heldReqs := rfl

/-! ### `performWrite` -/

@[simp] theorem performWrite_agenda (s : State) (x : PWrite) : (performWrite s x).agenda = s.agenda := rfl
@[simp] theorem performWrite_cur (s : State) (x : PWrite) : (performWrite s x).cur = s.cur := rfl
@[simp] theorem performWrite_freeCtr (s : State) (x : PWrite) : (performWrite s x).freeCtr = s.freeCtr := rfl
@[simp] theorem performWrite_cycle (s : State) (x : PWrite) : (performWrite s x).cycle = s.cycle := rfl
@[simp] theorem performWrite_ntime (s : State) (x : PWrite) : (performWrite s x).ntime = s.ntime := rfl
@[simp] theorem performWrite_clock (s : State) (x : PWrite) : (performWrite s x).clock = s.clock := rfl
@[simp] theorem performWrite_tlb (s : State) (x : PWrite) : (performWrite s x).tlb = s.tlb := rfl
@[simp] theorem performWrite_dev (s : State) (x : PWrite) : (performWrite s x).dev = s.dev := rfl
@[simp] theorem performWrite_bed (s : State) (x : PWrite) : (performWrite s x).bed = s.bed := rfl
@[simp] theorem performWrite_launches (s : State) (x : PWrite) : (performWrite s x).launches = s.launches := rfl
@[simp] theorem performWrite_nextLaunch (s : State) (x : PWrite) : (performWrite s x).nextLaunch = s.nextLaunch := rfl
@[simp] theorem performWrite_gangs (s : State) (x : PWrite) : (performWrite s x).gangs = s.gangs := rfl
@[simp] theorem performWrite_aged (s : State) (x : PWrite) : (performWrite s x).aged = s.aged := rfl
@[simp] theorem performWrite_lastGallery (s : State) (x : PWrite) : (performWrite s x).lastGallery = s.lastGallery := rfl
@[simp] theorem performWrite_ops (s : State) (x : PWrite) : (performWrite s x).ops = s.ops := rfl
@[simp] theorem performWrite_nextOp (s : State) (x : PWrite) : (performWrite s x).nextOp = s.nextOp := rfl
@[simp] theorem performWrite_colls (s : State) (x : PWrite) : (performWrite s x).colls = s.colls := rfl
@[simp] theorem performWrite_adds (s : State) (x : PWrite) : (performWrite s x).adds = s.adds := rfl
@[simp] theorem performWrite_nbes (s : State) (x : PWrite) : (performWrite s x).nbes = s.nbes := rfl
@[simp] theorem performWrite_verdicts (s : State) (x : PWrite) : (performWrite s x).verdicts = s.verdicts := rfl
@[simp] theorem performWrite_notices (s : State) (x : PWrite) : (performWrite s x).notices = s.notices := rfl
@[simp] theorem performWrite_heldReqs (s : State) (x : PWrite) : (performWrite s x).heldReqs = s.heldReqs := rfl

/-! ### `homeWrite` -/

@[simp] theorem homeWrite_agenda (s : State) (l : List Nat) (b : List Byte) : (homeWrite s l b).agenda = s.agenda := rfl
@[simp] theorem homeWrite_cur (s : State) (l : List Nat) (b : List Byte) : (homeWrite s l b).cur = s.cur := rfl
@[simp] theorem homeWrite_freeCtr (s : State) (l : List Nat) (b : List Byte) : (homeWrite s l b).freeCtr = s.freeCtr := rfl
@[simp] theorem homeWrite_cycle (s : State) (l : List Nat) (b : List Byte) : (homeWrite s l b).cycle = s.cycle := rfl
@[simp] theorem homeWrite_ntime (s : State) (l : List Nat) (b : List Byte) : (homeWrite s l b).ntime = s.ntime := rfl
@[simp] theorem homeWrite_clock (s : State) (l : List Nat) (b : List Byte) : (homeWrite s l b).clock = s.clock := rfl
@[simp] theorem homeWrite_tlb (s : State) (l : List Nat) (b : List Byte) : (homeWrite s l b).tlb = s.tlb := rfl
@[simp] theorem homeWrite_dev (s : State) (l : List Nat) (b : List Byte) : (homeWrite s l b).dev = s.dev := rfl
@[simp] theorem homeWrite_bed (s : State) (l : List Nat) (b : List Byte) : (homeWrite s l b).bed = s.bed := rfl
@[simp] theorem homeWrite_launches (s : State) (l : List Nat) (b : List Byte) : (homeWrite s l b).launches = s.launches := rfl
@[simp] theorem homeWrite_nextLaunch (s : State) (l : List Nat) (b : List Byte) : (homeWrite s l b).nextLaunch = s.nextLaunch := rfl
@[simp] theorem homeWrite_gangs (s : State) (l : List Nat) (b : List Byte) : (homeWrite s l b).gangs = s.gangs := rfl
@[simp] theorem homeWrite_aged (s : State) (l : List Nat) (b : List Byte) : (homeWrite s l b).aged = s.aged := rfl
@[simp] theorem homeWrite_lastGallery (s : State) (l : List Nat) (b : List Byte) : (homeWrite s l b).lastGallery = s.lastGallery := rfl
@[simp] theorem homeWrite_ops (s : State) (l : List Nat) (b : List Byte) : (homeWrite s l b).ops = s.ops := rfl
@[simp] theorem homeWrite_nextOp (s : State) (l : List Nat) (b : List Byte) : (homeWrite s l b).nextOp = s.nextOp := rfl
@[simp] theorem homeWrite_colls (s : State) (l : List Nat) (b : List Byte) : (homeWrite s l b).colls = s.colls := rfl
@[simp] theorem homeWrite_adds (s : State) (l : List Nat) (b : List Byte) : (homeWrite s l b).adds = s.adds := rfl
@[simp] theorem homeWrite_nbes (s : State) (l : List Nat) (b : List Byte) : (homeWrite s l b).nbes = s.nbes := rfl
@[simp] theorem homeWrite_verdicts (s : State) (l : List Nat) (b : List Byte) : (homeWrite s l b).verdicts = s.verdicts := rfl
@[simp] theorem homeWrite_notices (s : State) (l : List Nat) (b : List Byte) : (homeWrite s l b).notices = s.notices := rfl
@[simp] theorem homeWrite_heldReqs (s : State) (l : List Nat) (b : List Byte) : (homeWrite s l b).heldReqs = s.heldReqs := rfl

/-! ### `orWordAt` -/

@[simp] theorem orWordAt_agenda (s : State) (loc : Nat) (bits : Word) : (orWordAt s loc bits).agenda = s.agenda := rfl
@[simp] theorem orWordAt_cur (s : State) (loc : Nat) (bits : Word) : (orWordAt s loc bits).cur = s.cur := rfl
@[simp] theorem orWordAt_freeCtr (s : State) (loc : Nat) (bits : Word) : (orWordAt s loc bits).freeCtr = s.freeCtr := rfl
@[simp] theorem orWordAt_cycle (s : State) (loc : Nat) (bits : Word) : (orWordAt s loc bits).cycle = s.cycle := rfl
@[simp] theorem orWordAt_ntime (s : State) (loc : Nat) (bits : Word) : (orWordAt s loc bits).ntime = s.ntime := rfl
@[simp] theorem orWordAt_clock (s : State) (loc : Nat) (bits : Word) : (orWordAt s loc bits).clock = s.clock := rfl
@[simp] theorem orWordAt_poison (s : State) (loc : Nat) (bits : Word) : (orWordAt s loc bits).poison = s.poison := rfl
@[simp] theorem orWordAt_tlb (s : State) (loc : Nat) (bits : Word) : (orWordAt s loc bits).tlb = s.tlb := rfl
@[simp] theorem orWordAt_dev (s : State) (loc : Nat) (bits : Word) : (orWordAt s loc bits).dev = s.dev := rfl
@[simp] theorem orWordAt_bed (s : State) (loc : Nat) (bits : Word) : (orWordAt s loc bits).bed = s.bed := rfl
@[simp] theorem orWordAt_launches (s : State) (loc : Nat) (bits : Word) : (orWordAt s loc bits).launches = s.launches := rfl
@[simp] theorem orWordAt_nextLaunch (s : State) (loc : Nat) (bits : Word) : (orWordAt s loc bits).nextLaunch = s.nextLaunch := rfl
@[simp] theorem orWordAt_gangs (s : State) (loc : Nat) (bits : Word) : (orWordAt s loc bits).gangs = s.gangs := rfl
@[simp] theorem orWordAt_aged (s : State) (loc : Nat) (bits : Word) : (orWordAt s loc bits).aged = s.aged := rfl
@[simp] theorem orWordAt_lastGallery (s : State) (loc : Nat) (bits : Word) : (orWordAt s loc bits).lastGallery = s.lastGallery := rfl
@[simp] theorem orWordAt_ops (s : State) (loc : Nat) (bits : Word) : (orWordAt s loc bits).ops = s.ops := rfl
@[simp] theorem orWordAt_nextOp (s : State) (loc : Nat) (bits : Word) : (orWordAt s loc bits).nextOp = s.nextOp := rfl
@[simp] theorem orWordAt_colls (s : State) (loc : Nat) (bits : Word) : (orWordAt s loc bits).colls = s.colls := rfl
@[simp] theorem orWordAt_adds (s : State) (loc : Nat) (bits : Word) : (orWordAt s loc bits).adds = s.adds := rfl
@[simp] theorem orWordAt_nbes (s : State) (loc : Nat) (bits : Word) : (orWordAt s loc bits).nbes = s.nbes := rfl
@[simp] theorem orWordAt_verdicts (s : State) (loc : Nat) (bits : Word) : (orWordAt s loc bits).verdicts = s.verdicts := rfl
@[simp] theorem orWordAt_notices (s : State) (loc : Nat) (bits : Word) : (orWordAt s loc bits).notices = s.notices := rfl
@[simp] theorem orWordAt_heldReqs (s : State) (loc : Nat) (bits : Word) : (orWordAt s loc bits).heldReqs = s.heldReqs := rfl

end Sys2Proof.Machine
end

