-- ==== Sys2Proof/Laws/Hart.lean ====
section
/-! SUPPORT. Laws of gangs and harts: finding one after an update, updates one after another, and what an update leaves. -/

namespace Sys2Proof.Machine

variable {s : State} {g g' h h' : Nat}

@[simp] theorem mapHart_findLaunch (f : Hart → Hart) : findLaunch (mapHart s g h f) g' = findLaunch s g' := rfl

/-! ### Finding after an update -/

theorem findGang_mapGang (f : Gang → Gang) (hid : ∀ x, (f x).id = x.id) :
    findGang (mapGang s g f) g' = (findGang s g').map fun x => if x.id = g then f x else x := by
  unfold findGang mapGang
  simp only
  induction s.gangs with
  | nil => rfl
  | cons x rest ih =>
    simp only [List.map_cons, List.find?_cons]
    have e : (if x.id = g then f x else x).id = x.id := by split <;> simp [hid]
    rw [e]
    cases x.id == g' <;> simp [ih]

theorem findGang_id {x : Gang} (hx : findGang s g = some x) : x.id = g := by
  have := List.find?_some hx
  simpa using this

theorem findHart_mapHart_same (f : Hart → Hart) :
    findHart (mapHart s g h f) g h = (findHart s g h).map f := by
  unfold findHart mapHart
  rw [findGang_mapGang (g' := g) _ (by intro; rfl)]
  cases hx : findGang s g with
  | none => rfl
  | some x => simp [findGang_id hx]

theorem findHart_mapHart_other (f : Hart → Hart) (hne : ¬(g' = g ∧ h' = h)) :
    findHart (mapHart s g h f) g' h' = findHart s g' h' := by
  unfold findHart mapHart
  rw [findGang_mapGang (g' := g') _ (by intro; rfl)]
  cases hx : findGang s g' with
  | none => rfl
  | some x =>
    by_cases hg : g' = g
    · have : h ≠ h' := fun e => hne ⟨hg, e.symm⟩
      simp [findGang_id hx, hg, this]
    · simp [findGang_id hx, hg]

theorem findHart_mapHart_isSome (f : Hart → Hart) :
    (findHart (mapHart s g h f) g' h').isSome = (findHart s g' h').isSome := by
  by_cases e : g' = g ∧ h' = h
  · obtain ⟨rfl, rfl⟩ := e
    simp [findHart_mapHart_same]
  · rw [findHart_mapHart_other f e]

@[simp] theorem here?_mapHart (f : Hart → Hart) : here? (mapHart s g h f) = here? s := by
  have key : ∀ (a b : Nat) (k : Here),
      ((findHart (mapHart s g h f) a b).map fun _ => k) = (findHart s a b).map fun _ => k := by
    intro a b k
    have := findHart_mapHart_isSome (s := s) (g := g) (h := h) (g' := a) (h' := b) f
    cases h1 : findHart (mapHart s g h f) a b <;> cases h2 : findHart s a b <;> simp_all
  unfold here?
  simp only [mapHart_cur, key]

@[simp] theorem cpu?_mapHart (f : Hart → Hart) : cpu? (mapHart s g h f) = cpu? s := by
  unfold cpu?
  rw [here?_mapHart, mapHart_cur]

@[simp] theorem here?_mapSurvey (k : Nat) (f : Survey → Survey) : here? (mapSurvey s k f) = here? s := rfl
@[simp] theorem cpu?_mapSurvey (k : Nat) (f : Survey → Survey) : cpu? (mapSurvey s k f) = cpu? s := rfl

/-! ### Updates one after another -/

theorem mapHart_mapHart (f f' : Hart → Hart) :
    mapHart (mapHart s g h f) g h f' = mapHart s g h fun x => f' (f x) := by
  unfold mapHart mapGang
  simp only [List.map_map]
  congr 1
  apply List.map_congr_left
  intro x _
  simp only [Function.comp]
  by_cases e : x.id = g
  · simp only [e, if_true]
    congr 1
    apply List.ext_getElem?
    intro i
    simp only [List.getElem?_modify]
    split <;> cases x.harts[i]? <;> simp
  · simp only [e, if_false]

theorem mapSurvey_mapSurvey (k : Nat) (f f' : Survey → Survey) :
    mapSurvey (mapSurvey s k f) k f' = mapSurvey s k fun x => f' (f x) := by
  have e : ∀ v : Vector Survey 4,
      (v.mapIdx fun j x => if j = k then f x else x).mapIdx (fun j x => if j = k then f' x else x) =
        v.mapIdx fun j x => if j = k then f' (f x) else x := by
    intro v
    ext i hi : 1
    simp only [Vector.getElem_mapIdx]
    split <;> rfl
  unfold mapSurvey
  simp only [e]

theorem surveyOf_mapSurvey_same {k : Nat} (hk : k < 4) (f : Survey → Survey) :
    surveyOf (mapSurvey s k f) k = f (surveyOf s k) := by
  simp [surveyOf, mapSurvey, hk]

end Sys2Proof.Machine
end

