-- ==== Sys2Proof/Laws/Run.lean ====
section
/-! SUPPORT. Laws of the working monad and of the shared operations of the scalar instructions: what each answers when
the executing processor is known. -/

namespace Sys2Proof.Machine

variable {α β : Type} {s s' : State} {c : Cpu} {h : Here} {x : Hart}

/-! ### The monad -/

theorem M.bind_run (m : M α) (f : α → M β) (s : State) :
    (m >>= f) s = match m s with
      | .ok a s' => f a s'
      | .error e s' => .error e s' := by
  change EStateM.bind m f s = _
  unfold EStateM.bind
  cases m s <;> rfl

@[simp] theorem M.pure_run (a : α) (s : State) : (pure a : M α) s = .ok a s := rfl
@[simp] theorem M.get_run (s : State) : (get : M State) s = .ok s s := rfl
@[simp] theorem M.set_run (t s : State) : (set t : M Unit) s = .ok () t := rfl
@[simp] theorem M.modify_run (f : State → State) (s : State) : (modify f : M Unit) s = .ok () (f s) := rfl
@[simp] theorem M.throw_run (e : Stop) (s : State) : (throw e : M α) s = .error e s := rfl
@[simp] theorem trap_run (cause : BitVec 8) (a i : Word) (s : State) :
    (trap cause a i : M α) s = .error (.trap { cause := cause, eaddr := a, einfo := i }) s := rfl
@[simp] theorem waitAt_run (w : WaitAt) (s : State) : (waitAt w : M α) s = .error (.wait w) s := rfl

theorem M.bind_ok {m : M α} {f : α → M β} {a : α} (e : m s = .ok a s') : (m >>= f) s = f a s' := by
  rw [M.bind_run, e]

theorem M.bind_error {m : M α} {f : α → M β} {r : Stop} (e : m s = .error r s') : (m >>= f) s = .error r s' := by
  rw [M.bind_run, e]

theorem M.ite_run {p : Prop} [Decidable p] (m n : M α) (s : State) :
    (if p then m else n) s = if p then m s else n s := by split <;> rfl

/-! ### The executing processor -/

theorem cpuM_run (hc : cpu? s = some c) : cpuM s = .ok c s := by
  unfold cpuM
  rw [M.bind_ok (M.get_run s), hc]
  rfl

theorem hereM_run (hh : here? s = some h) : hereM s = .ok h s := by
  unfold hereM
  rw [M.bind_ok (M.get_run s), hh]
  rfl

theorem cpu?_slice (hc : cpu? s = some (.slice h)) : here? s = some h := by
  unfold cpu? at hc
  split at hc
  · split at hc <;> simp at hc
  · simpa using hc

theorem here?_hart (hh : here? s = some h) : ∃ x, findHart s h.gang h.hid = some x := by
  unfold here? at hh
  split at hh
  · next a b sl _ =>
    cases e : findHart s a b <;> simp [e] at hh
    subst hh
    exact ⟨_, e⟩
  · next a b _ =>
    cases e : findHart s a b <;> simp [e] at hh
    subst hh
    exact ⟨_, e⟩
  · next a b _ _ _ =>
    cases e : findHart s a b <;> simp [e] at hh
    subst hh
    exact ⟨_, e⟩
  · simp at hh

theorem cpu?_survey {k : Nat} (hc : cpu? s = some (.survey k)) : k < 4 := by
  unfold cpu? at hc
  split at hc
  · split at hc
    · simp at hc; omega
    · simp at hc
  · cases e : here? s <;> simp [e] at hc

theorem Runs.cpu (r : Runs s h x) : cpu? s = some (.slice h) := by
  have w := r.who
  unfold cpu?
  split
  · next e => simp [here?, e] at w
  · simp [w]

theorem hartM_at (w : here? s = some h) (e : findHart s h.gang h.hid = some x) : hartM s = .ok x s := by
  unfold hartM
  rw [M.bind_ok (hereM_run w), M.bind_ok (M.get_run s), e]
  rfl

theorem hartM_run (r : Runs s h x) : hartM s = .ok x s := hartM_at r.who r.hart

theorem gangM_run (r : Runs s h x) : ∃ g, gangM s = .ok g s ∧ findGang s h.gang = some g := by
  have e := r.hart
  unfold findHart at e
  cases hg : findGang s h.gang with
  | none => simp [hg] at e
  | some g =>
    refine ⟨g, ?_, rfl⟩
    unfold gangM
    rw [M.bind_ok (hereM_run r.who), M.bind_ok (M.get_run s), hg]
    rfl

theorem modHart_run (hh : here? s = some h) (f : Hart → Hart) :
    modHart f s = .ok () (mapHart s h.gang h.hid f) := by
  unfold modHart
  rw [M.bind_ok (hereM_run hh)]
  rfl

theorem Runs.mapHart (r : Runs s h x) (f : Hart → Hart) : Runs (mapHart s h.gang h.hid f) h (f x) :=
  ⟨by simp [r.who], by simp [findHart_mapHart_same, r.hart]⟩

/-! ### Registers and program counters -/

theorem getX_run (hc : cpu? s = some c) (r : RegField) : getX r s = .ok (c.reg s r) s := by
  unfold getX
  rw [M.bind_ok (cpuM_run hc)]
  cases c with
  | slice h =>
    obtain ⟨x, hx⟩ := here?_hart (cpu?_slice hc)
    simp only
    rw [M.bind_ok (hartM_at (cpu?_slice hc) hx)]
    simp [Cpu.reg, hx]
  | survey k => rfl

theorem getPc_run (hc : cpu? s = some c) : getPc s = .ok (c.pc s) s := by
  unfold getPc
  rw [M.bind_ok (cpuM_run hc)]
  cases c with
  | slice h =>
    obtain ⟨x, hx⟩ := here?_hart (cpu?_slice hc)
    simp only
    rw [M.bind_ok (hartM_at (cpu?_slice hc) hx)]
    simp [Cpu.pc, hx]
  | survey k => rfl

/-- A processor's state with register d written. -/
def Cpu.setReg (s : State) (c : Cpu) (d : RegField) (v : Word) : State :=
  match c with
  | .slice h => mapHart s h.gang h.hid fun x => x.setReg h.sl d v
  | .survey k => mapSurvey s k fun x => { x with a := fileSet x.a d v }

/-- A processor's state with its program counter set. -/
def Cpu.setPc (s : State) (c : Cpu) (pc : Word) : State :=
  match c with
  | .slice h => mapHart s h.gang h.hid fun x => x.setPc h.sl pc
  | .survey k => mapSurvey s k fun x => { x with pc := pc }

theorem setX_run (hc : cpu? s = some c) (d : RegField) (v : Word) : setX d v s = .ok () (c.setReg s d v) := by
  unfold setX
  rw [M.bind_ok (cpuM_run hc)]
  cases c with
  | slice h => exact modHart_run (cpu?_slice hc) _
  | survey k => rfl

theorem setPcM_run (hc : cpu? s = some c) (pc : Word) : setPcM pc s = .ok () (c.setPc s pc) := by
  unfold setPcM
  rw [M.bind_ok (cpuM_run hc)]
  cases c with
  | slice h => exact modHart_run (cpu?_slice hc) _
  | survey k => rfl

theorem advance_run (hc : cpu? s = some c) (n : Nat) :
    advance n s = .ok () (c.setPc s (c.pc s + BitVec.ofNat 64 n)) := by
  unfold advance
  rw [M.bind_ok (getPc_run hc), setPcM_run hc]

@[simp] theorem cpu?_setReg (d : RegField) (v : Word) : cpu? (c.setReg s d v) = cpu? s := by cases c <;> simp [Cpu.setReg]
@[simp] theorem cpu?_setPc (pc : Word) : cpu? (c.setPc s pc) = cpu? s := by cases c <;> simp [Cpu.setPc]

@[simp] theorem Hart.slice_setReg (x : Hart) (sl sl' : SliceId) (d : RegField) (v : Word) :
    (x.setReg sl d v).slice sl' = x.slice sl' := by cases sl <;> cases sl' <;> rfl

theorem Cpu.pc_setReg (hc : cpu? s = some c) (d : RegField) (v : Word) : c.pc (c.setReg s d v) = c.pc s := by
  cases c with
  | slice h => simp [Cpu.pc, Cpu.setReg, findHart_mapHart_same, Function.comp_def]
  | survey k =>
    simp [Cpu.pc, Cpu.setReg, surveyOf_mapSurvey_same (cpu?_survey hc)]

/-- Writing d, going on at pc and ending the instruction is `retire`. -/
theorem finish_setReg_setPc (d : RegField) (v pc : Word) :
    finish c (.ok () (c.setPc (c.setReg s d v) pc)) = .next (retire s c d v pc) := by
  cases c with
  | slice h => simp [finish, Cpu.setPc, Cpu.setReg, retire, mapHart_mapHart]
  | survey k => simp [finish, Cpu.setPc, Cpu.setReg, retire, mapSurvey_mapSurvey]

/-! ### Ending an instruction -/

theorem runScalar_run {b : Belongs} {body : M Unit} (hc : cpu? s = some c) (hb : b.admits c = true) :
    runScalar b body s = finish c (body s) := by
  unfold runScalar
  rw [hc]
  simp [hb]

theorem both_admits : both.admits c = true := by
  cases c with
  | slice h => cases e : h.sl <;> simp [both, Belongs.admits, e]
  | survey k => rfl

theorem runScalar_foreign {b : Belongs} {body : M Unit} (hc : cpu? s = some c) (hb : b.admits c = false) :
    runScalar b body s = finish c (.error (.trap { cause := cILLEGAL }) s) := by
  unfold runScalar
  rw [hc]
  simp [hb]

/-- The end of every body that writes one register and goes on. -/
theorem writes_run (hc : cpu? s = some c) (d : RegField) (v : Word) (n : Nat) :
    finish c ((do setX d v; advance n : M Unit) s) = .next (retire s c d v (c.pc s + BitVec.ofNat 64 n)) := by
  rw [M.bind_ok (setX_run hc d v), advance_run (by simpa using hc), Cpu.pc_setReg hc, finish_setReg_setPc]

theorem alu2_run (hc : cpu? s = some c) (f : Word → Word → Word) (d a b : RegField) :
    alu2 f d a b s = .next (retire s c d (f (c.reg s a) (c.reg s b)) (c.pc s + 4)) := by
  unfold alu2
  rw [runScalar_run hc both_admits, M.bind_ok (getX_run hc a), M.bind_ok (getX_run hc b)]
  exact writes_run hc d _ 4

theorem alu1_run (hc : cpu? s = some c) (f : Word → Word) (n : Nat) (d a : RegField) :
    alu1 f n d a s = .next (retire s c d (f (c.reg s a)) (c.pc s + BitVec.ofNat 64 n)) := by
  unfold alu1
  rw [runScalar_run hc both_admits, M.bind_ok (getX_run hc a)]
  exact writes_run hc d _ n

theorem aluPc_run (hc : cpu? s = some c) (f : Word → Word) (n : Nat) (d : RegField) :
    aluPc f n d s = .next (retire s c d (f (c.pc s)) (c.pc s + BitVec.ofNat 64 n)) := by
  unfold aluPc
  rw [runScalar_run hc both_admits, M.bind_ok (getPc_run hc)]
  exact writes_run hc d _ n

theorem slot2_run (hc : cpu? s = some c) (f : Word → Word → Word) (d b : RegField) :
    slot2 f d b s = .next (retire s c d (f (c.reg s d) (c.reg s b)) (c.pc s + 2)) := by
  unfold slot2
  rw [runScalar_run hc both_admits, M.bind_ok (getX_run hc d), M.bind_ok (getX_run hc b)]
  exact writes_run hc d _ 2

end Sys2Proof.Machine
end

