-- ==== Sys2Proof/Laws/Access.lean ====
section
/-! SUPPORT. What the shared accesses answer where nothing has to be walked or bound: in a bound block of the hart's TCM
window, and on a page whose translation is held; and what a read of located bytes answers. Each leaves the state as it
was. -/

namespace Sys2Proof.Machine

variable {s : State} {h : Here} {y : Hart} {g : Gang} {l : Launch} {va n p : Nat} {acc : Acc} {check : Bool}

/-! ### Reading located bytes -/

/-- A byte as an agent with these pending stores sees it (14 R304). -/
def seenByte (s : State) (buf : List PWrite) (loc : Nat) : Byte := (bufByte buf loc).getD (memRead s.mem loc)

theorem readLocs_go_ok (buf : List PWrite) (va : Nat) (locs : List Nat) (k : Nat) (out : List Byte)
    (hp : ∀ c ∈ locs, poisoned s c = false) (t : State) :
    readLocs.go buf va s locs k out t = .ok (out.reverse ++ locs.map (seenByte s buf)) t := by
  induction locs generalizing k out with
  | nil => simp [readLocs.go]
  | cons c rest ih =>
    have hr := fun d hd => hp d (List.mem_cons_of_mem _ hd)
    unfold readLocs.go
    cases e : bufByte buf c with
    | some b =>
      simp only
      rw [ih _ _ hr]
      simp [seenByte, e]
    | none =>
      simp only [hp c (List.mem_cons_self ..)]
      rw [if_neg (by simp), ih _ _ hr]
      simp [seenByte, e]

/-- Bytes none of which lies in a poisoned unit are read: the agent's own pending ones, else those at their homes. -/
theorem readLocs_run (buf : List PWrite) (locs : List Nat) (va : Nat) (hp : ∀ c ∈ locs, poisoned s c = false) :
    readLocs buf locs va s = .ok (locs.map (seenByte s buf)) s := by
  unfold readLocs
  rw [M.bind_ok (M.get_run s), readLocs_go_ok buf va locs 0 [] hp s]
  rfl

/-! ### The TCM window (05 R117, R118) -/

/-- n bytes at va lie in one bound block p of the TCM window of hart y. -/
structure InTcm (y : Hart) (va n p : Nat) : Prop where
  low : Config.tcmBase ≤ va
  high : va + n ≤ Config.tcmBase + Config.tcmBytes
  block : (va - Config.tcmBase) % Config.tcmBlock + n ≤ Config.tcmBlock
  bound : assoc ((va - Config.tcmBase) / Config.tcmBlock) y.tcm = some p

/-- Where the first of them lies. -/
def tcmAt (g : Gang) (y : Hart) (va p : Nat) : Nat :=
  tcmLoc (coreOf g y) (p * Config.tcmBlock + (va - Config.tcmBase) % Config.tcmBlock)

theorem InTcm.span (i : InTcm y va n p) (hn : 0 < n) : inTcmSpan va = true := by
  have h1 := i.low
  have h2 : va < Config.tcmBase + Config.spanBytes := by
    have := i.high
    simp only [Config.tcmBase, Config.tcmBytes, Config.spanBytes] at *
    omega
  simp [inTcmSpan, h1, h2]

theorem canonical_low (hv : va < 2 ^ 54) : canonical va = true := by
  have e : va / 18014398509481984 = 0 := Nat.div_eq_of_lt (by omega)
  simp [canonical, e]

theorem tcmByte_run (hg : findGang s h.gang = some g) (hy : findHart s h.gang h.hid = some y) {off : Nat} (w : Word)
    (hb : assoc (off / Config.tcmBlock) y.tcm = some p) :
    tcmByte h.gang h.hid off w s = .ok (tcmLoc (coreOf g y) (p * Config.tcmBlock + off % Config.tcmBlock)) s := by
  unfold tcmByte
  rw [M.bind_ok (M.get_run s), hg, hy]
  simp only
  rw [hb]
  rfl

/-- An access in one bound block of the window is located there, and leaves the state as it was. -/
theorem locate_tcm (hg : findGang s h.gang = some g) (hy : findHart s h.gang h.hid = some y) (i : InTcm y va n p)
    (hn : 0 < n) {x : Xlat} (hx : x.hart = some (h.gang, h.hid)) :
    locate x acc va n check s = .ok { locs := locRange (tcmAt g y va p) n, kinds := [4] } s := by
  have hlow := i.low; have hhigh := i.high; have hblk := i.block
  have hspan := i.span hn
  have e1 : va % 2 ^ 64 = va := Nat.mod_eq_of_lt (by simp only [Config.tcmBase, Config.tcmBytes] at *; omega)
  have e2 : (va + n - 1) % 2 ^ 64 = va + n - 1 :=
    Nat.mod_eq_of_lt (by simp only [Config.tcmBase, Config.tcmBytes] at *; omega)
  have c1 : canonical va = true := canonical_low (by simp only [Config.tcmBase, Config.tcmBytes] at *; omega)
  have c2 : canonical (va + n - 1) = true := canonical_low (by simp only [Config.tcmBase, Config.tcmBytes] at *; omega)
  have hw : windowLocs x acc va n s = .ok (locRange (tcmAt g y va p) n) s := by
    unfold windowLocs
    simp only [hspan, if_true]
    rw [if_neg (by simp only [Config.tcmBase, Config.tcmBytes] at *; omega), hx]
    simp only
    unfold windowBytes
    rw [M.bind_ok (M.get_run s)]
    rw [M.bind_ok (tcmByte_run hg hy _ i.bound), if_pos]
    · rfl
    · simp only [Config.tcmBlock] at *; omega
  unfold locate
  simp only [e1, e2, c1, c2, inWindowSpan, hspan, Bool.not_true, Bool.or_self, Bool.true_or, if_true, Bool.false_eq_true,
    if_false]
  rw [M.bind_ok hw]
  rfl

theorem hartXlat_hart (hg : findGang s h.gang = some g) (hl : findLaunch s h.gang = some l) :
    (hartXlat s h.gang h.hid).hart = some (h.gang, h.hid) := by
  unfold hartXlat
  rw [hg, hl]

theorem locateHere_tcm (r : Runs s h y) (hg : findGang s h.gang = some g) (hl : findLaunch s h.gang = some l)
    (i : InTcm y va n p) (hn : 0 < n) :
    locateHere acc va n check s = .ok { locs := locRange (tcmAt g y va p) n, kinds := [4] } s := by
  unfold locateHere
  rw [M.bind_ok (hereM_run r.who), M.bind_ok (M.get_run s)]
  exact locate_tcm hg r.hart i hn (hartXlat_hart hg hl)

/-- What lies on no DEV page is read as the agent sees it. -/
theorem readFound_plain {f : Found} (r : Runs s h y) (hd : f.dev = false) (sl : SliceId) :
    readFound sl f va s = readLocs (y.buf sl) f.locs va s := by
  unfold readFound
  simp only [hd, Bool.false_and, Bool.false_eq_true, if_false]
  rw [M.bind_ok (hartM_run r)]

theorem loadBytes_tcm (r : Runs s h y) (hg : findGang s h.gang = some g) (hl : findLaunch s h.gang = some l)
    (i : InTcm y va n p) (hn : 0 < n) (hp : ∀ c ∈ locRange (tcmAt g y va p) n, poisoned s c = false) (sl : SliceId) :
    loadBytes sl va n s = .ok ((locRange (tcmAt g y va p) n).map (seenByte s (y.buf sl))) s := by
  unfold loadBytes
  rw [M.bind_ok (hereM_run r.who), M.bind_ok (M.get_run s), M.bind_ok (locate_tcm hg r.hart i hn (hartXlat_hart hg hl)),
    readFound_plain r rfl]
  exact readLocs_run _ _ _ hp

/-- The alignment check passes in the window, where an acquire or release must be aligned (14 R303). -/
theorem alignCheck_tcm (i : InTcm y va n p) (hn : 0 < n) (always : Bool) (ha : always = true → va % n = 0) :
    alignCheck acc va n always s = .ok () s := by
  have hspan := i.span hn
  unfold alignCheck
  simp only
  split
  · rfl
  · next hc =>
    cases always with
    | false => simp [inWindowSpan, hspan]
    | true => simp [ha rfl] at hc

theorem scalarLocate_tcm (r : Runs s h y) (hg : findGang s h.gang = some g) (hl : findLaunch s h.gang = some l)
    (i : InTcm y va n p) (hn : 0 < n) (always : Bool) (ha : always = true → va % n = 0) :
    scalarLocate acc va n always s = .ok { locs := locRange (tcmAt g y va p) n, kinds := [4] } s := by
  unfold scalarLocate
  rw [M.bind_ok (alignCheck_tcm i hn always ha)]
  exact locateHere_tcm r hg hl i hn

/-- A scalar load in the window; one that binds its value at the home finds no store of its own pending to the bytes. -/
theorem scalarLoad_tcm (r : Runs s h y) (hg : findGang s h.gang = some g) (hl : findLaunch s h.gang = some l)
    (i : InTcm y va n p) (hn : 0 < n) (always atHome : Bool) (ha : always = true → va % n = 0)
    (hb : atHome = true → pendingAt y.abuf (locRange (tcmAt g y va p) n) = false)
    (hp : ∀ c ∈ locRange (tcmAt g y va p) n, poisoned s c = false) :
    scalarLoad va n always atHome s = .ok ((locRange (tcmAt g y va p) n).map (seenByte s y.abuf)) s := by
  have e : (atHome && pendingAt y.abuf (locRange (tcmAt g y va p) n)) = false := by
    cases c : atHome with
    | false => rfl
    | true => simp [hb c]
  unfold scalarLoad
  rw [M.bind_ok (scalarLocate_tcm r hg hl i hn always ha), M.bind_ok (hartM_run r)]
  simp only [e, Bool.or_self, Bool.false_eq_true, if_false]
  rw [M.bind_ok (hartM_run r)]
  exact readLocs_run _ _ _ hp

/-! ### A page whose translation is held (07 R144, R146) -/

theorem leafFor_held {x : Xlat} {e : TlbEntry} (he : tlbFind s x va = some e) (low : Nat) :
    leafFor x acc va low s = .ok e s := by
  unfold leafFor
  rw [M.bind_ok (M.get_run s), he]
  rfl

/-- A held page that grants the access, and does not hold it up for its text to be copied. -/
structure Granted (s : State) (x : Xlat) (acc : Acc) (check : Bool) (va : Nat) (e : TlbEntry) : Prop where
  plain : inWindowSpan va = false
  held : tlbFind s x va = some e
  grants : check = true → leafGrants acc e.pte = true
  warm : acc = .fetch → pteCOLD e.pte = false

theorem pageLeaf_held {x : Xlat} {e : TlbEntry} (i : Granted s x acc check va e) (low : Nat) :
    pageLeaf x acc check va low s = .ok e s := by
  unfold pageLeaf
  simp only [i.plain, Bool.false_eq_true, if_false]
  rw [M.bind_ok (leafFor_held i.held _)]
  have h1 : (check && !leafGrants acc e.pte) = false := by
    cases c : check with
    | false => rfl
    | true => simp [i.grants c]
  have h2 : ¬ (acc = .fetch ∧ pteCOLD e.pte = true) := fun ⟨a, b⟩ => by simp [i.warm a] at b
  simp only [h1, Bool.false_eq_true, if_false, Bool.and_eq_true, decide_eq_true_eq, if_neg h2]
  rfl

/-- What an access within one held page finds. -/
def heldAt (acc : Acc) (e : TlbEntry) (locs : List Nat) : Found :=
  { locs := locs, dev := pteDEV e.pte, sa := pteSA e.pte, kinds := [pteLOC e.pte],
    leaves := if acc = .store ∨ acc = .atomic then [e] else [] }

/-- An access within one held page, not in the cavern, is located through it. -/
theorem locate_held {x : Xlat} {e : TlbEntry} {locs : List Nat} (i : Granted s x acc check va e)
    (hva : va < 2 ^ 64) (hc : canonical va = true) (hc' : canonical ((va + n - 1) % 2 ^ 64) = true)
    (hcav : inCavernSpan va = false) (hpage : n ≤ 65536 - va % 65536)
    (hphys : physAccess acc e.pte (leafPa e va) va n s = .ok locs s) :
    locate x acc va n check s = .ok (heldAt acc e locs) s := by
  unfold locate
  simp only [Nat.mod_eq_of_lt hva, hc, hc', i.plain, hcav, Bool.not_true, Bool.or_self, Bool.false_eq_true, if_false,
    Bool.false_and]
  rw [M.bind_ok (pageLeaf_held i va), if_pos (by omega), M.bind_ok hphys]
  simp [heldAt]

/-- A page of local HBM maps n bytes of one 256-byte unit through its descriptor (07 R145, 01 R20, R21). -/
theorem physAccess_hbm {pte : Word} {pa loc : Nat} (h0 : pteLOC pte = 0)
    (hm : hbmMap (descWords s (pteIR pte)).1 (descWords s (pteIR pte)).2 pa = some loc) (hu : pa % 256 + n ≤ 256) :
    physAccess acc pte pa va n s = .ok (locRange loc n) s := by
  unfold physAccess
  rw [M.bind_ok (M.get_run s)]
  simp only [h0, hm, if_pos hu]
  rfl

/-- A byte in one held page of local HBM: what the access answers is in `locate_held`. -/
theorem locateHere_held {e : TlbEntry} {locs : List Nat} (r : Runs s h y)
    (i : Granted s (hartXlat s h.gang h.hid) acc check va e) (hva : va < 2 ^ 64) (hc : canonical va = true)
    (hc' : canonical ((va + n - 1) % 2 ^ 64) = true) (hcav : inCavernSpan va = false) (hpage : n ≤ 65536 - va % 65536)
    (hphys : physAccess acc e.pte (leafPa e va) va n s = .ok locs s) :
    locateHere acc va n check s = .ok (heldAt acc e locs) s := by
  unfold locateHere
  rw [M.bind_ok (hereM_run r.who), M.bind_ok (M.get_run s)]
  exact locate_held i hva hc hc' hcav hpage hphys

/-! ### Observed words, objects and atomics -/

/-- A word of the window is located for an access that no DEV page admits. -/
theorem noDevLocate_tcm (r : Runs s h y) (hg : findGang s h.gang = some g) (hl : findLaunch s h.gang = some l)
    (i : InTcm y va n p) (hn : 0 < n) :
    noDevLocate va n acc s = .ok { locs := locRange (tcmAt g y va p) n, kinds := [4] } s := by
  unfold noDevLocate
  simp only [inWindowSpan, i.span hn, Bool.true_or, Bool.not_true, Bool.and_false, Bool.false_eq_true, if_false]
  rw [M.bind_ok (locateHere_tcm r hg hl i hn)]
  rfl

theorem observeWord_tcm (r : Runs s h y) (hg : findGang s h.gang = some g) (hl : findLaunch s h.gang = some l) {w : Word}
    (i : InTcm y w.toNat 8 p) (ha : w.toNat % 8 = 0) (hb : pendingAt y.abuf (locRange (tcmAt g y w.toNat p) 8) = false)
    (hp : ∀ c ∈ locRange (tcmAt g y w.toNat p) 8, poisoned s c = false) :
    observeWord w s = .ok (BitVec.ofNat 64 (bytesToNat (homeRead s (locRange (tcmAt g y w.toNat p) 8)))) s := by
  have e : seenByte s [] = memRead s.mem := rfl
  unfold observeWord
  rw [if_neg (by simp [ha]), M.bind_ok (noDevLocate_tcm r hg hl i (by omega)), M.bind_ok (hartM_run r)]
  simp only [hb, Bool.false_eq_true, if_false]
  rw [M.bind_ok (readLocs_run _ _ _ hp), e]
  rfl

theorem attempt_ok {α : Type} {x : M α} {v : α} {t : State} (h : x s = .ok v t) : attempt x s = .ok (.ok v) t := by
  unfold attempt
  rw [h]

theorem tried_ok {α : Type} {x : M α} {v : α} {t : State} (h : x s = .ok v t) : tried x s = (.ok v, t) := by
  unfold tried
  rw [attempt_ok h]

/-- An object in the window, for an agent that may reach it (15 R341 step 2). -/
theorem objectCheck_tcm (hg : findGang s h.gang = some g) (hy : findHart s h.gang h.hid = some y) {w : Word}
    (i : InTcm y w.toNat 8 p) (ha : w.toNat % 8 = 0) {x : Xlat} (hx : x.hart = some (h.gang, h.hid)) :
    objectCheck x w s = .ok () s := by
  have hlow := i.low; have hhigh := i.high
  have hc : canonical w.toNat = true := canonical_low (by simp only [Config.tcmBase, Config.tcmBytes] at *; omega)
  unfold objectCheck
  simp only [ha, hc, inWindowSpan, i.span (by omega), bne_self_eq_false, Bool.not_true, Bool.or_self, Bool.true_or,
    Bool.false_eq_true, if_false, if_true]
  rw [M.bind_ok (locate_tcm hg hy i (by omega) hx)]
  rfl

theorem objectPlace_tcm (hg : findGang s h.gang = some g) (hy : findHart s h.gang h.hid = some y) {w : Word}
    (i : InTcm y w.toNat 8 p) {x : Xlat} (hx : x.hart = some (h.gang, h.hid)) :
    objectPlace x w s = .ok (locRange (tcmAt g y w.toNat p) 8, w.toNat, none) s := by
  have ea := attempt_ok (locate_tcm (acc := .store) (check := true) hg hy i (by omega) hx)
  unfold objectPlace
  rw [M.bind_ok ea]
  simp only
  rw [M.bind_ok (show Found.markDirty _ s = .ok () s from rfl)]
  simp only [inWindowSpan, i.span (by omega), Bool.true_or, if_true]
  rfl

/-- An aligned number of the window is located for an atomic (14 R306). -/
theorem atomicLocate_tcm (r : Runs s h y) (hg : findGang s h.gang = some g) (hl : findLaunch s h.gang = some l)
    (i : InTcm y va n p) (hn : 0 < n) (ha : va % n = 0) :
    atomicLocate va n s = .ok { locs := locRange (tcmAt g y va p) n, kinds := [4] } s := by
  unfold atomicLocate
  simp only [ha, bne_self_eq_false, Bool.false_eq_true, if_false]
  exact noDevLocate_tcm r hg hl i hn

/-- An access that no DEV page admits is located on a held page without DEV. -/
theorem noDevLocate_held {e : TlbEntry} {locs : List Nat} (r : Runs s h y)
    (i : Granted s (hartXlat s h.gang h.hid) acc true va e) (hva : va < 2 ^ 64) (hc : canonical va = true)
    (hc' : canonical ((va + n - 1) % 2 ^ 64) = true) (hcav : inCavernSpan va = false) (hpage : n ≤ 65536 - va % 65536)
    (hphys : physAccess acc e.pte (leafPa e va) va n s = .ok locs s) (hd : pteDEV e.pte = false) :
    noDevLocate va n acc s = .ok (heldAt acc e locs) s := by
  have hl := locateHere_held (check := true) r i hva hc hc' hcav hpage hphys
  unfold noDevLocate
  simp only [hc, i.plain, Bool.not_false, Bool.and_self, if_true]
  rw [M.bind_ok (hereM_run r.who), M.bind_ok (M.get_run s), M.bind_ok (pageLeaf_held i va)]
  simp only [hd, Bool.false_eq_true, if_false]
  rw [M.bind_ok hl]
  simp [heldAt, hd]

/-! ### Blocks that a command reads (15 R341 step 3) -/

theorem commandObject_none (windows : Bool) : commandObject 0 windows s = .ok () s := by
  unfold commandObject
  rw [if_pos rfl]
  rfl


/-! ### Reads of an agent outside a hart, on a held page of local HBM -/

theorem physAccess_go_ok {f : Nat → Option Nat} {pa : Nat} {loc : Nat → Nat} (prot : {α : Type} → Nat → M α) (t k : Nat)
    (out : List Nat) (h : ∀ j, j < k + t → f (pa + j) = some (loc j)) :
    physAccess.go pa (fun {α} => @prot α) f t k out s = .ok (out.reverse ++ (List.range' k t).map loc) s := by
  induction t generalizing k out with
  | zero => simp [physAccess.go]
  | succ t ih =>
    unfold physAccess.go
    rw [h k (by omega)]
    simp only
    rw [ih (k + 1) (loc k :: out) fun j hj => h j (by omega)]
    simp [List.range'_succ]

/-- n bytes that a page of local HBM maps through its descriptor, whichever strips they lie in. -/
theorem physAccess_hbm_bytes {pte : Word} {pa : Nat} {loc : Nat → Nat} (h0 : pteLOC pte = 0) (hu : 256 < pa % 256 + n)
    (hm : ∀ j, j < n → hbmMap (descWords s (pteIR pte)).1 (descWords s (pteIR pte)).2 (pa + j) = some (loc j)) :
    physAccess acc pte pa va n s = .ok ((List.range n).map loc) s := by
  rcases n with _ | n
  · omega
  have h1 := hm 0 (by omega)
  rw [Nat.add_zero] at h1
  unfold physAccess
  rw [M.bind_ok (M.get_run s)]
  simp only [h0, h1, if_neg (by omega : ¬ pa % 256 + (n + 1) ≤ 256)]
  rw [physAccess_go_ok (loc := loc) _ (n + 1) 0 [] fun j hj => hm j (by omega)]
  simp [List.range_eq_range']

/-- Bytes within one held page are read through a context. -/
theorem readCtx_held {x : Xlat} {f : Found} (hn : 0 < n) (hp : n ≤ 65536 - va % 65536)
    (hl : locate x .load va n true s = .ok f s) (hq : ∀ c ∈ f.locs, poisoned s c = false) :
    readCtx x va n s = .ok (f.locs.map (memRead s.mem)) s := by
  unfold readCtx
  rw [if_neg (by omega)]
  unfold pagesOf readThrough
  simp only [Nat.min_eq_left hp]
  rw [M.bind_ok hl, M.bind_ok (readLocs_run _ _ _ hq), if_pos (Nat.le_refl n)]
  rfl

theorem locateCtx_held {x : Xlat} {f : Found} (hn : 0 < n) (hp : n ≤ 65536 - va % 65536)
    (hl : locate x acc va n true s = .ok f s) : locateCtx x acc va n s = .ok f s := by
  unfold locateCtx
  rw [if_neg (by omega)]
  unfold pagesOf locateThrough
  simp only [Nat.min_eq_left hp]
  rw [M.bind_ok hl, if_pos (Nat.le_refl n)]
  rfl

end Sys2Proof.Machine
end

