-- ==== Sys2Proof/Laws/Memory.lean ====
section
/-! SUPPORT. Laws of byte memory: every operation keeps the canonical form, what a read gives after each, and that
memories in canonical form that read alike are equal. -/

namespace Sys2Proof.Machine

variable {m n : Memory} {a x y lo hi : Nat} {v : Byte}

/-! ### The canonical form -/

@[simp] theorem memWfFrom_nil : memWfFrom lo [] = true := rfl

theorem memWfFrom_cons {c : Host.Cell} {rest : Memory} :
    memWfFrom lo (c :: rest) = true ↔ lo ≤ c.1 ∧ c.2 ≠ memDefault ∧ memWfFrom (c.1 + 1) rest = true := by
  obtain ⟨a, b⟩ := c
  simp [memWfFrom, and_assoc]

theorem memWfFrom_mono {k : Nat} (h : memWfFrom lo m = true) (hk : k ≤ lo) : memWfFrom k m = true := by
  cases m with
  | nil => rfl
  | cons c rest =>
    rw [memWfFrom_cons] at h ⊢
    exact ⟨hk.trans h.1, h.2⟩

/-- Below its bound a canonical memory reads the default. -/
theorem memRead_below (h : memWfFrom lo m = true) (hx : x < lo) : memRead m x = memDefault := by
  cases m with
  | nil => rfl
  | cons c rest =>
    obtain ⟨a, b⟩ := c
    have ha := (memWfFrom_cons.mp h).1
    simp only at ha
    simp [memRead, show a ≠ x by omega, show x < a by omega]

/-! ### Writing one byte -/

theorem memWrite_wfFrom (h : memWfFrom lo m = true) (hx : lo ≤ x) : memWfFrom lo (memWrite m x v) = true := by
  induction m generalizing lo with
  | nil => by_cases e : v = memDefault <;> simp [memWrite, e, memWfFrom, hx]
  | cons c rest ih =>
    obtain ⟨a, b⟩ := c
    obtain ⟨ha, hb, hr⟩ := memWfFrom_cons.mp h
    simp only at ha hb hr
    unfold memWrite
    split
    · next e =>
      subst e
      split
      · exact memWfFrom_mono hr (by omega)
      · next e => exact memWfFrom_cons.mpr ⟨hx, e, hr⟩
    · split
      · next lt =>
        split
        · exact h
        · next e => exact memWfFrom_cons.mpr ⟨hx, e, memWfFrom_cons.mpr ⟨lt, hb, hr⟩⟩
      · exact memWfFrom_cons.mpr ⟨ha, hb, ih hr (by omega)⟩

theorem memWrite_wf (h : m.wf = true) : Memory.wf (memWrite m x v) = true := memWrite_wfFrom h (Nat.zero_le _)

theorem memRead_memWrite_of (h : memWfFrom lo m = true) :
    memRead (memWrite m x v) y = if y = x then v else memRead m y := by
  induction m generalizing lo with
  | nil =>
    by_cases e : v = memDefault
    · by_cases yx : y = x <;> simp [memWrite, memRead, e, yx]
    · by_cases yx : y = x
      · subst yx; simp [memWrite, memRead, e]
      · have : x ≠ y := fun e => yx e.symm
        simp [memWrite, memRead, e, yx, this]
  | cons c rest ih =>
    obtain ⟨a, b⟩ := c
    obtain ⟨ha, hb, hr⟩ := memWfFrom_cons.mp h
    simp only at ha hb hr
    unfold memWrite
    split
    · next e =>
      subst e
      split
      · next e =>
        by_cases yx : y = a
        · subst yx; simp [memRead_below hr (Nat.lt_succ_self _), e]
        · have : a ≠ y := fun e => yx e.symm
          by_cases lt : y < a
          · simp [memRead, this, yx, lt, memRead_below hr (by omega : y < a + 1)]
          · simp [memRead, this, yx, lt]
      · by_cases yx : y = a
        · subst yx; simp [memRead]
        · have : a ≠ y := fun e => yx e.symm
          simp [memRead, this, yx]
    · next ne =>
      split
      · next lt =>
        split
        · next e =>
          by_cases yx : y = x
          · subst yx; simp [memRead, ne, lt, e]
          · simp [yx]
        · by_cases yx : y = x
          · subst yx; simp [memRead]
          · have xy : x ≠ y := fun e => yx e.symm
            by_cases ylt : y < x
            · simp [memRead, xy, yx, ylt, show a ≠ y by omega, show y < a by omega]
            · simp [memRead, xy, yx, ylt]
      · by_cases ay : a = y
        · subst ay; simp [memRead, ne]
        · by_cases lt : y < a
          · simp [memRead, ay, lt, show y ≠ x by omega]
          · simpa [memRead, ay, lt] using ih hr

/-- A read after a write gives the byte written at its address, and leaves every other address alone. -/
theorem memRead_memWrite (h : m.wf = true) : memRead (memWrite m x v) y = if y = x then v else memRead m y :=
  memRead_memWrite_of h

/-! ### Writing a list of bytes -/

theorem memWriteAll_nil : memWriteAll m [] = m := rfl

theorem memWriteAll_cons {c : Nat × Byte} {cs : List (Nat × Byte)} :
    memWriteAll m (c :: cs) = memWriteAll (memWrite m c.1 c.2) cs := rfl

theorem memWriteAll_append {cs ds : List (Nat × Byte)} :
    memWriteAll m (cs ++ ds) = memWriteAll (memWriteAll m cs) ds := by simp [memWriteAll]

theorem memWriteAll_wf {cs : List (Nat × Byte)} (h : m.wf = true) : Memory.wf (memWriteAll m cs) = true := by
  induction cs generalizing m with
  | nil => exact h
  | cons c cs ih => exact ih (memWrite_wf h)

/-- An address that is not written keeps its byte. -/
theorem memRead_memWriteAll_other {cs : List (Nat × Byte)} (h : m.wf = true) (hy : ∀ c ∈ cs, c.1 ≠ y) :
    memRead (memWriteAll m cs) y = memRead m y := by
  induction cs generalizing m with
  | nil => rfl
  | cons c cs ih =>
    rw [memWriteAll_cons, ih (memWrite_wf h) fun d hd => hy d (List.mem_cons_of_mem _ hd), memRead_memWrite h]
    exact if_neg fun e => hy c (List.mem_cons_self ..) e.symm

/-- An address that is written once reads the byte written there. -/
theorem memRead_memWriteAll_mem {cs : List (Nat × Byte)} (h : m.wf = true) (hn : (cs.map (·.1)).Nodup)
    (hy : (y, v) ∈ cs) : memRead (memWriteAll m cs) y = v := by
  induction cs generalizing m with
  | nil => simp at hy
  | cons c cs ih =>
    rw [List.map_cons, List.nodup_cons] at hn
    rw [memWriteAll_cons]
    rcases List.mem_cons.mp hy with e | e
    · subst e
      rw [memRead_memWriteAll_other (memWrite_wf h), memRead_memWrite h, if_pos rfl]
      intro d hd e
      exact hn.1 (List.mem_map.mpr ⟨d, hd, e⟩)
    · exact ih (memWrite_wf h) hn.2 e

/-! ### Zero-filling a range -/

theorem memWfFrom_filter {p : Host.Cell → Bool} (h : memWfFrom lo m = true) : memWfFrom lo (m.filter p) = true := by
  induction m generalizing lo with
  | nil => rfl
  | cons c rest ih =>
    obtain ⟨ha, hb, hr⟩ := memWfFrom_cons.mp h
    rw [List.filter_cons]
    split
    · exact memWfFrom_cons.mpr ⟨ha, hb, ih hr⟩
    · exact memWfFrom_mono (ih hr) (by omega)

theorem memClear_wf (h : m.wf = true) : Memory.wf (memClear m lo hi) = true := memWfFrom_filter h

theorem memRead_filter {p : Nat → Bool} (h : memWfFrom lo m = true) :
    memRead (m.filter fun c => p c.1) y = if p y then memRead m y else memDefault := by
  induction m generalizing lo with
  | nil => simp [memRead]
  | cons c rest ih =>
    obtain ⟨a, b⟩ := c
    obtain ⟨ha, hb, hr⟩ := memWfFrom_cons.mp h
    simp only at ha hb hr
    have low : y < a → memRead rest y = memDefault := fun lt => memRead_below hr (by omega)
    rw [List.filter_cons]
    by_cases e : a = y
    · subst e
      cases pa : p a
      · simp [ih hr, pa]
      · simp [memRead]
    · by_cases lt : y < a
      · cases pa : p a
        · simp [ih hr, memRead, e, lt, low lt]
        · simp [memRead, e, lt]
      · cases pa : p a <;> simp [memRead, e, lt, ih hr]

/-- A read after a zero fill gives the default inside the range, and leaves every other address alone. -/
theorem memRead_memClear (h : m.wf = true) :
    memRead (memClear m lo hi) y = if lo ≤ y ∧ y < hi then memDefault else memRead m y := by
  unfold memClear
  rw [memRead_filter (p := fun a => decide (a < lo) || decide (hi ≤ a)) h]
  by_cases h1 : lo ≤ y <;> by_cases h2 : y < hi <;> simp [h1, h2]

/-! ### Equal memories -/

theorem mem_ext_from (hm : memWfFrom lo m = true) (hn : memWfFrom lo n = true)
    (e : ∀ x, lo ≤ x → memRead m x = memRead n x) : m = n := by
  induction m generalizing lo n with
  | nil =>
    cases n with
    | nil => rfl
    | cons c rest =>
      obtain ⟨a, b⟩ := c
      obtain ⟨ha, hb, _⟩ := memWfFrom_cons.mp hn
      have := e a ha
      simp [memRead] at this
      exact absurd this.symm hb
  | cons c rest ih =>
    obtain ⟨a, b⟩ := c
    obtain ⟨ha, hb, hr⟩ := memWfFrom_cons.mp hm
    simp only at ha hb hr
    cases n with
    | nil =>
      have := e a ha
      simp [memRead] at this
      exact absurd this hb
    | cons d rest' =>
      obtain ⟨a', b'⟩ := d
      obtain ⟨ha', hb', hr'⟩ := memWfFrom_cons.mp hn
      simp only at ha' hb' hr'
      have e1 : ¬ a < a' := fun lt => by
        have := e a ha
        simp [memRead, show a' ≠ a by omega, lt] at this
        exact hb this
      have e2 : ¬ a' < a := fun lt => by
        have := e a' ha'
        simp [memRead, show a ≠ a' by omega, lt] at this
        exact hb' this.symm
      have ea : a = a' := by omega
      subst ea
      have eb : b = b' := by simpa [memRead] using e a ha
      subst eb
      congr 1
      refine ih hr hr' fun x hx => ?_
      simpa [memRead, show a ≠ x by omega, show ¬ x < a by omega] using e x (by omega)

/-- Memories in canonical form that read alike are equal. -/
theorem mem_ext (hm : m.wf = true) (hn : n.wf = true) (e : ∀ x, memRead m x = memRead n x) : m = n :=
  mem_ext_from hm hn fun x _ => e x

/-! ### Stores at their homes -/

@[simp] theorem reset_memWf : State.reset.MemWf := rfl

@[simp] theorem performWrite_mem (s : State) (w : PWrite) : (performWrite s w).mem = memWriteAll s.mem w.cells := rfl
@[simp] theorem homeWrite_mem (s : State) (l : List Nat) (b : List Byte) :
    (homeWrite s l b).mem = memWriteAll s.mem (l.zip b) := rfl

theorem State.MemWf.of_mem {s t : State} (h : s.MemWf) (e : t.mem = s.mem) : t.MemWf := by
  unfold State.MemWf
  rw [e]
  exact h

theorem performWrite_memWf {s : State} (h : s.MemWf) (w : PWrite) : (performWrite s w).MemWf := memWriteAll_wf h
theorem homeWrite_memWf {s : State} (h : s.MemWf) (l : List Nat) (b : List Byte) : (homeWrite s l b).MemWf :=
  memWriteAll_wf h
theorem orWordAt_memWf {s : State} (h : s.MemWf) (loc : Nat) (bits : Word) : (orWordAt s loc bits).MemWf :=
  memWriteAll_wf h

theorem foldl_performWrite_memWf {s : State} (h : s.MemWf) (ws : List PWrite) : (ws.foldl performWrite s).MemWf := by
  induction ws generalizing s with
  | nil => exact h
  | cons w ws ih => exact ih (performWrite_memWf h w)

/-- Performing what an agent has pending keeps memory canonical. -/
theorem drainBuf_memWf {s : State} (h : s.MemWf) (g k : Nat) (sl : SliceId) : (drainBuf s g k sl).MemWf := by
  unfold drainBuf
  split
  · exact h
  · exact foldl_performWrite_memWf h _

/-- A store at its home leaves every byte outside its locations alone. -/
theorem homeWrite_read_other {s : State} {l : List Nat} {b : List Byte} (h : s.MemWf) (hy : y ∉ l) :
    memRead (homeWrite s l b).mem y = memRead s.mem y := by
  refine memRead_memWriteAll_other h fun c hc e => hy ?_
  obtain ⟨c1, c2⟩ := c
  exact e ▸ (List.of_mem_zip hc).1

theorem zip_fst_sublist {α β : Type} (l : List α) (b : List β) : ((l.zip b).map (·.1)).Sublist l := by
  induction l generalizing b with
  | nil => simp
  | cons x l ih =>
    cases b with
    | nil => simp
    | cons y b => simpa using ih b

/-- A store at distinct locations puts byte k of the value at location k. -/
theorem homeWrite_read_at {s : State} {l : List Nat} {b : List Byte} {k : Nat} (h : s.MemWf) (hn : l.Nodup)
    (hk : k < l.length) (hb : k < b.length) : memRead (homeWrite s l b).mem l[k] = b[k] := by
  refine memRead_memWriteAll_mem h ?_ ?_
  · exact hn.sublist (zip_fst_sublist l b)
  · exact List.mem_iff_getElem.mpr ⟨k, by simp [hk, hb], by simp⟩

end Sys2Proof.Machine
end

