-- ==== Sys2Proof/Laws/Keeps.lean ====
section
/-! SUPPORT. Bodies that keep byte memory in its canonical form, however they end: the working monad's combinators, and
the shared accesses of translation, windows, loads and stores. -/

namespace Sys2Proof.Machine

variable {α β : Type}

/-- The state in which a body ended. -/
def endState : EStateM.Result Stop State α → State
  | .ok _ s => s
  | .error _ s => s

/-- A body leaves canonical memory canonical, whether it completes or stops. -/
def KeepsMem (m : M α) : Prop := ∀ s : State, s.MemWf → (endState (m s)).MemWf

theorem KeepsMem.pure (a : α) : KeepsMem (Pure.pure a : M α) := fun _ h => h
theorem KeepsMem.get : KeepsMem (MonadState.get : M State) := fun _ h => h
theorem KeepsMem.throw (e : Stop) : KeepsMem (throw e : M α) := fun _ h => h
theorem KeepsMem.trap (c : BitVec 8) (a i : Word) : KeepsMem (Machine.trap c a i : M α) := fun _ h => h
theorem KeepsMem.waitAt (w : WaitAt) : KeepsMem (Machine.waitAt w : M α) := fun _ h => h

theorem KeepsMem.bind {m : M α} {f : α → M β} (hm : KeepsMem m) (hf : ∀ a, KeepsMem (f a)) : KeepsMem (m >>= f) := by
  intro s h
  rw [M.bind_run]
  have := hm s h
  cases e : m s with
  | ok a t => rw [e] at this; exact hf a t this
  | error r t => rw [e] at this; exact this

/-- A body, begun in state s, that leaves its memory canonical. -/
def KeepsAt (s : State) (m : M α) : Prop := (endState (m s)).MemWf

/-- A body that reads the state first, and then does what that state lets it. -/
theorem KeepsMem.getBind {f : State → M β} (hf : ∀ s : State, s.MemWf → KeepsAt s (f s)) :
    KeepsMem (MonadState.get >>= f) := fun s h => hf s h

theorem KeepsMem.modify {f : State → State} (hf : ∀ s : State, s.MemWf → (f s).MemWf) : KeepsMem (modify f : M Unit) :=
  fun s h => hf s h

theorem KeepsMem.ite {p : Prop} [Decidable p] {m n : M α} (hm : KeepsMem m) (hn : KeepsMem n) :
    KeepsMem (if p then m else n) := by split <;> assumption

/-! ### The executing agent -/

theorem keepsMem_hereM : KeepsMem hereM := by
  intro s h
  unfold hereM
  rw [M.bind_ok (M.get_run s)]
  cases here? s <;> exact h

theorem keepsMem_hartM : KeepsMem hartM := by
  refine KeepsMem.bind keepsMem_hereM fun k s h => ?_
  rw [M.bind_ok (M.get_run s)]
  cases findHart s k.gang k.hid <;> exact h

theorem keepsMem_modHart (f : Hart → Hart) : KeepsMem (modHart f) :=
  KeepsMem.bind keepsMem_hereM fun _ => KeepsMem.modify fun _ h => h

theorem keepsMem_pushWrite (sl : SliceId) (w : PWrite) : KeepsMem (pushWrite sl w) := keepsMem_modHart _

theorem keepsMem_drain (sl : SliceId) : KeepsMem (drain sl) :=
  KeepsMem.bind keepsMem_hereM fun _ => KeepsMem.bind (keepsMem_modHart _) fun _ =>
    KeepsMem.bind (KeepsMem.modify fun _ h => drainBuf_memWf h ..) fun _ => KeepsMem.bind keepsMem_hartM fun _ =>
      KeepsMem.ite (KeepsMem.pure _) (KeepsMem.waitAt _)

/-! ### Translation, windows, locating -/

theorem tlbAdd_mem (s : State) (e : TlbEntry) : (tlbAdd s e).mem = s.mem := rfl

theorem keepsMem_leafFor (x : Xlat) (acc : Acc) (va low : Nat) : KeepsMem (leafFor x acc va low) := by
  unfold leafFor
  refine KeepsMem.bind KeepsMem.get fun s => ?_
  split
  · exact KeepsMem.pure _
  · split
    · exact KeepsMem.throw _
    · refine KeepsMem.bind (KeepsMem.modify fun t ht => State.MemWf.of_mem ?_ (tlbAdd_mem _ _)) fun _ => KeepsMem.pure _
      split
      · exact ht
      · exact orWordAt_memWf ht ..

theorem setDirty_memWf {s : State} (h : s.MemWf) (e : TlbEntry) : (setDirty s e).MemWf := by
  unfold setDirty
  split
  · exact h
  · exact (orWordAt_memWf h e.pteLoc 0x40#64).of_mem rfl

theorem foldl_setDirty_memWf {s : State} (h : s.MemWf) (l : List TlbEntry) : (l.foldl setDirty s).MemWf := by
  induction l generalizing s with
  | nil => exact h
  | cons e l ih => exact ih (setDirty_memWf h e)

/-- A store or atomic that issues sets D in its leaves: memory stays canonical. -/
theorem keepsMem_markDirty (f : Found) : KeepsMem f.markDirty := KeepsMem.modify fun _ h => foldl_setDirty_memWf h _

theorem bindTcm_memWf {s t : State} {g : Gang} {gid hid j p : Nat} {x : Hart} (h : s.MemWf)
    (e : bindTcm s g gid hid x j = some (p, t)) : t.MemWf := by
  unfold bindTcm at e
  simp only at e
  split at e
  · simp at e
  · simp only [Option.some.injEq, Prod.mk.injEq] at e
    rw [← e.2]
    exact memClear_wf h

theorem bindChamber_memWf {s t : State} {g : Gang} {j p : Nat} (h : s.MemWf)
    (e : bindChamber s g j = some (p, t)) : t.MemWf := by
  unfold bindChamber at e
  simp only at e
  split at e
  · simp at e
  · simp only [Option.some.injEq, Prod.mk.injEq] at e
    rw [← e.2]
    exact memClear_wf h

theorem keepsMem_tcmByte (gid hid off : Nat) (va : Word) : KeepsMem (tcmByte gid hid off va) := by
  refine KeepsMem.getBind fun s h => ?_
  split
  · simp only
    split
    · exact h
    · split
      · exact h
      · next e => exact bindTcm_memWf h e
  · exact h

theorem keepsMem_chamberByte (gid off : Nat) (va : Word) : KeepsMem (chamberByte gid off va) := by
  refine KeepsMem.getBind fun s h => ?_
  split
  · simp only
    split
    · exact h
    · split
      · exact h
      · next e => exact bindChamber_memWf h e
  · exact h

/-- A body that goes back to an earlier state where it stops. -/
theorem KeepsMem.undo {m : M α} {s : State} (hs : s.MemWf) (hm : KeepsMem m) :
    KeepsMem (tryCatch m fun e => do MonadState.set s; MonadExcept.throw e : M α) := by
  intro t ht
  have := hm t ht
  change (endState (EStateM.tryCatch m _ t)).MemWf
  unfold EStateM.tryCatch
  cases e : m t with
  | ok a u => rw [e] at this; simpa using this
  | error r u => exact hs

theorem keepsMem_windowBytes {f : Nat → Word → M Nat} (hf : ∀ o w, KeepsMem (f o w)) (block off va n : Nat) :
    KeepsMem (windowBytes f block off va n) := by
  refine KeepsMem.getBind fun s h => ?_
  refine KeepsMem.bind (hf _ _) (fun l => KeepsMem.ite (KeepsMem.pure _) ?_) s h
  exact KeepsMem.bind (KeepsMem.undo h (hf _ _)) fun _ => KeepsMem.pure _

theorem keepsMem_windowLocs (x : Xlat) (acc : Acc) (va n : Nat) : KeepsMem (windowLocs x acc va n) := by
  unfold windowLocs
  refine KeepsMem.ite (KeepsMem.trap _ _ _) (KeepsMem.ite ?_ ?_)
  · split
    · exact KeepsMem.trap _ _ _
    · exact keepsMem_windowBytes (fun _ _ => keepsMem_tcmByte _ _ _ _) _ _ _ _
  · split
    · exact KeepsMem.trap _ _ _
    · exact keepsMem_windowBytes (fun _ _ => keepsMem_chamberByte _ _ _) _ _ _ _

theorem keepsMem_physGo (pa : Nat) {prot : {α : Type} → Nat → M α} (hp : ∀ {α : Type} (k : Nat), KeepsMem (prot k : M α))
    (f : Nat → Option Nat) (n k : Nat) (out : List Nat) : KeepsMem (physAccess.go pa prot f n k out) := by
  induction n generalizing k out with
  | zero => exact KeepsMem.pure _
  | succ n ih =>
    unfold physAccess.go
    split
    · exact hp _
    · exact ih _ _

theorem keepsMem_physAccess (acc : Acc) (pte : Word) (pa va n : Nat) : KeepsMem (physAccess acc pte pa va n) := by
  have bytes : ∀ f : Nat → Option Nat, KeepsMem (α := List Nat) (match f pa with
      | none => Machine.trap cPROT (BitVec.ofNat 64 (va + 0)) acc.code
      | some l => if pa % 256 + n ≤ 256 then Pure.pure (locRange l n) else
          physAccess.go pa (fun k => Machine.trap cPROT (BitVec.ofNat 64 (va + k)) acc.code) f n 0 []) := by
    intro f
    split
    · exact KeepsMem.trap _ _ _
    · exact KeepsMem.ite (KeepsMem.pure _) (keepsMem_physGo pa (fun _ => KeepsMem.trap _ _ _) _ _ _ _)
  refine KeepsMem.bind KeepsMem.get fun s => ?_
  simp only
  split
  · exact bytes _
  · refine KeepsMem.ite (KeepsMem.trap _ _ _) (KeepsMem.ite (KeepsMem.trap _ _ _) (KeepsMem.pure _))
  · refine KeepsMem.ite (bytes fun p => hbmByPhys s (p % 2 ^ 46)) (KeepsMem.ite (KeepsMem.trap _ _ _) (KeepsMem.ite (KeepsMem.pure _) ?_))
    exact KeepsMem.ite (KeepsMem.trap _ _ _) (KeepsMem.waitAt _)
  · exact KeepsMem.ite (KeepsMem.trap _ _ _) (KeepsMem.pure _)

theorem keepsMem_pageLeaf (x : Xlat) (acc : Acc) (check : Bool) (va low : Nat) :
    KeepsMem (pageLeaf x acc check va low) := by
  refine KeepsMem.ite (KeepsMem.trap _ _ _) (KeepsMem.bind (keepsMem_leafFor _ _ _ _) fun e => ?_)
  exact KeepsMem.ite (KeepsMem.throw _) (KeepsMem.ite (KeepsMem.waitAt _) (KeepsMem.pure _))

/-- Locating an access only walks, sets A, and binds window blocks: memory stays canonical. -/
theorem keepsMem_locate (x : Xlat) (acc : Acc) (va n : Nat) (check : Bool) : KeepsMem (locate x acc va n check) := by
  refine KeepsMem.ite (KeepsMem.trap _ _ _) (KeepsMem.ite ?_ (KeepsMem.ite (KeepsMem.trap _ _ _) ?_))
  · exact KeepsMem.bind (keepsMem_windowLocs _ _ _ _) fun _ => KeepsMem.pure _
  · refine KeepsMem.bind (keepsMem_pageLeaf _ _ _ _ _) fun e1 => KeepsMem.ite ?_ ?_
    · exact KeepsMem.bind (keepsMem_physAccess _ _ _ _ _) fun _ => KeepsMem.pure _
    · exact KeepsMem.bind (keepsMem_pageLeaf _ _ _ _ _) fun _ => KeepsMem.bind (keepsMem_physAccess _ _ _ _ _) fun _ =>
        KeepsMem.bind (keepsMem_physAccess _ _ _ _ _) fun _ => KeepsMem.pure _

theorem keepsMem_locateHere (acc : Acc) (va n : Nat) (check : Bool) : KeepsMem (locateHere acc va n check) :=
  KeepsMem.bind keepsMem_hereM fun _ => KeepsMem.bind KeepsMem.get fun _ => keepsMem_locate _ _ _ _ _

/-! ### Loads and stores of an agent -/

theorem keepsMem_readGo (buf : List PWrite) (va : Nat) (s : State) (l : List Nat) (k : Nat) (out : List Byte) :
    KeepsMem (readLocs.go buf va s l k out) := by
  induction l generalizing k out with
  | nil => exact KeepsMem.pure _
  | cons x l ih =>
    unfold readLocs.go
    split
    · exact ih _ _
    · exact KeepsMem.ite (KeepsMem.trap _ _ _) (ih _ _)

theorem keepsMem_readLocs (buf : List PWrite) (l : List Nat) (va : Nat) : KeepsMem (readLocs buf l va) :=
  KeepsMem.bind KeepsMem.get fun _ => keepsMem_readGo _ _ _ _ _ _

theorem keepsMem_readFound (sl : SliceId) (f : Found) (va : Nat) : KeepsMem (readFound sl f va) := by
  have hr : KeepsMem (do readLocs ((← hartM).buf sl) f.locs va : M (List Byte)) :=
    KeepsMem.bind keepsMem_hartM fun _ => keepsMem_readLocs _ _ _
  unfold readFound
  exact KeepsMem.ite (KeepsMem.bind (keepsMem_drain _) fun _ => hr) hr

theorem keepsMem_loadBytes (sl : SliceId) (va n : Nat) : KeepsMem (loadBytes sl va n) :=
  KeepsMem.bind keepsMem_hereM fun _ => KeepsMem.bind KeepsMem.get fun _ => KeepsMem.bind (keepsMem_locate _ _ _ _ _) fun _ =>
    keepsMem_readFound _ _ _

theorem keepsMem_issueStore (sl : SliceId) (f : Found) (b : List Byte) : KeepsMem (issueStore sl f b) :=
  KeepsMem.bind (keepsMem_markDirty f) fun _ => KeepsMem.bind KeepsMem.get fun _ => KeepsMem.bind keepsMem_hartM fun _ =>
    keepsMem_pushWrite _ _

theorem keepsMem_storeBytes (sl : SliceId) (va : Nat) (b : List Byte) : KeepsMem (storeBytes sl va b) :=
  KeepsMem.bind keepsMem_hereM fun _ => KeepsMem.bind KeepsMem.get fun _ => KeepsMem.bind (keepsMem_locate _ _ _ _ _) fun _ =>
    keepsMem_issueStore _ _ _

/-! ### Ending an instruction -/

@[simp] theorem openSave_mem (s : State) (l : Launch) (g : Gang) (h : Nat) : (openSave s l g h).mem = s.mem := by
  unfold openSave
  simp only
  split <;> rfl

@[simp] theorem openGangArea_mem (s : State) (g : Nat) : (openGangArea s g).mem = s.mem := by
  unfold openGangArea
  repeat' split
  all_goals simp

theorem beginSave_memWf {s : State} (h : s.MemWf) (g k : Nat) (coop : Bool) : (beginSave s g k coop).MemWf := by
  have hd := drainBuf_memWf (drainBuf_memWf (s := mapHart s g k fun y => y.stopForSave coop) h g k .as) g k .cs
  unfold beginSave
  simp only
  split
  · exact hd.of_mem (by simp)
  · exact hd

theorem stopIfWaiting_memWf {s : State} (h : s.MemWf) (g k : Nat) : (stopIfWaiting s g k).MemWf := by
  unfold stopIfWaiting
  split
  · split
    · exact beginSave_memWf h ..
    · exact h
  · exact h

/-- Taking a trap leaves memory canonical: it changes memory only where the hart stops for its save, which performs its
stores. -/
theorem takeTrap_memWf {s : State} (h : s.MemWf) (g k : Nat) (sl : SliceId) (pc : Option Word) (t : TrapInfo) (b : Bool) :
    (takeTrap s g k sl pc t b).MemWf := by
  have hn : ∀ (u : State) (y : Hart), u.MemWf → (trapNotice u g y t).MemWf := by
    intro u y hu
    unfold trapNotice
    split <;> exact hu
  unfold takeTrap
  split
  · exact h
  · simp only
    split
    · exact stopIfWaiting_memWf (hn (mapHart s g k _) _ h) g k
    · exact h

/-- However a body that keeps memory canonical ends, the state its instruction leaves does too. -/
theorem finish_memWf {c : Cpu} {m : M Unit} {s t : State} (hm : KeepsMem m) (h : s.MemWf) (e : finish c (m s) = .next t) :
    t.MemWf := by
  have hk := hm s h
  cases r : m s with
  | ok u v =>
    rw [r] at hk e
    cases c <;> simp [finish] at e <;> subst e <;> exact hk
  | error w v =>
    rw [r] at hk e
    cases w <;> cases c <;> simp [finish] at e
    · subst e; exact takeTrap_memWf hk ..
    · subst e; exact hk
    · subst e; exact stopIfWaiting_memWf (s := mapHart v _ _ _) hk _ _
    · subst e; exact hk

theorem runScalar_memWf {b : Belongs} {m : M Unit} {s t : State} (hm : KeepsMem m) (h : s.MemWf)
    (e : runScalar b m s = .next t) : t.MemWf := by
  unfold runScalar at e
  split at e
  · simp at e
  · exact finish_memWf (KeepsMem.ite hm (KeepsMem.trap _ _ _)) h e

end Sys2Proof.Machine
end

