-- ==== Sys2Proof/Tests/Slice0.lean ====
section
/-! SUPPORT. The model's own tests: terms that the encoding does not admit, words written out from the spec, one step of
an instruction on a small state, and for every statement a state and operands that meet its hypotheses. -/

set_option Elab.async false

namespace Sys2Proof.Tests

open Sys2Proof Sys2Proof.Machine Sys2Proof.Claims

/-! ### Small states -/

/-- A launch of one gang of one hart, with a page table at 64 KiB. -/
def l0 : Launch := { placedLaunch 0 with ctx := { w0 := 0x8000000000010000, w1 := 0 }, placed := 1 }

/-- Its hart, with window block 0 bound to block 0 of its core's TCM. -/
def hart0 : Hart := { Hart.fresh l0 0 0 0 0 with tcm := [(0, 0)] }

def gang0 (f : Hart → Hart) : Gang := { Gang.fresh State.reset l0 0 0 [(0, 0)] with id := 0, harts := [f hart0] }

/-- The reset state with that gang in place, its hart as f makes it, and slice sl moving. -/
def mk (sl : SliceId) (f : Hart → Hart) : State :=
  { State.reset with launches := [l0], nextLaunch := 1, gangs := [gang0 f], cur := .slice 0 0 sl }

def hA : Here := ⟨0, 0, .as⟩
def hC : Here := ⟨0, 0, .cs⟩

/-- The reset state with a survey core moving. -/
def onSurvey (k : Nat) : State := { State.reset with cur := .survey k }

theorem runs_as (f : Hart → Hart) : Runs (mk .as f) hA (f hart0) := ⟨rfl, rfl⟩
theorem runs_cs (f : Hart → Hart) : Runs (mk .cs f) hC (f hart0) := ⟨rfl, rfl⟩
theorem starts_cs (f : Hart → Hart) : Starts (mk .cs f) hC (f hart0) := ⟨⟨rfl, rfl⟩, rfl⟩
theorem launch_of (sl : SliceId) (f : Hart → Hart) : findLaunch (mk sl f) 0 = some l0 := rfl
theorem gang_of (sl : SliceId) (f : Hart → Hart) : findGang (mk sl f) 0 = some (gang0 f) := rfl

/-- Interleave descriptor 0 maps the first 4 MiB of local HBM on channel 0, and one leaf, which grants everything and is held
in the translations, maps the first 4 MiB of addresses to it. -/
def mapped (s : State) : State :=
  { setDevReg (setDevReg s 0x10000 0x8400000000000000) 0x10008 0x0000004000000000 with
    mem := [(2048, 0x6F)]
    tlb := [{ gallery := 0, asid := 0, level := 1, vpn := 0, pte := 0x6F, pteLoc := 2048 }] }

/-- The place of address 0x1000 there. -/
def at1000 : Nat := hbmLoc 0 4 0 0

theorem runs_mapped (sl : SliceId) (f : Hart → Hart) : Runs (mapped (mk sl f)) ⟨0, 0, sl⟩ (f hart0) := by
  cases sl <;> exact ⟨rfl, rfl⟩

/-- The register a of the AS, or of the CS, with value v. -/
def aReg (r : RegField) (v : Word) (x : Hart) : Hart := x.setReg .as r v
def cReg (r : RegField) (v : Word) (x : Hart) : Hart := x.setReg .cs r v

/-- Operands of a vector instruction: registers d, a and b, unmasked. -/
def ops (d a b : BitVec 5) : VOps := ⟨false, false, false, 0, b, a, d⟩
/-- The same with a scalar b, under mask m. -/
def opsS (d a b : BitVec 5) (m : BitVec 3 := 0) : VOps := ⟨true, false, false, m, b, a, d⟩

/-- What is looked at of the hart after an instruction that went on. -/
def seen {α : Type} (r : Result) (f : Hart → α) : Option α :=
  match r with
  | .next t => (findHart t 0 0).map f
  | _ => none

/-- A part of an instruction answered v and left state t. -/
def gives {α : Type} [DecidableEq α] (r : EStateM.Result Stop State α) (v : α) (t : State) : Bool :=
  match r with
  | .ok a u => decide (a = v) && decide (u = t)
  | .error _ _ => false

theorem of_gives {α : Type} [DecidableEq α] {r : EStateM.Result Stop State α} {v : α} {t : State}
    (h : gives r v t = true) : r = .ok v t := by
  unfold gives at h
  split at h
  · simp only [Bool.and_eq_true, decide_eq_true_eq] at h
    rw [h.1, h.2]
  · simp at h

/-! ### Accesses of the small states: in the bound TCM block, and on the held page -/

theorem in_tcm {x : Hart} {va n : Nat} (hx : x.tcm = [(0, 0)] := by rfl) (h1 : Config.tcmBase ≤ va := by decide +kernel)
    (h2 : va + n ≤ Config.tcmBase + Config.tcmBlock := by decide +kernel)
    (hn : 0 < n := by first | assumption | decide) : InTcm x va n 0 := by
  simp only [Config.tcmBase, Config.tcmBlock] at *
  refine ⟨h1, by simp only [Config.tcmBase, Config.tcmBytes]; omega, by simp only [Config.tcmBase, Config.tcmBlock]; omega, ?_⟩
  rw [hx, show (va - Config.tcmBase) / Config.tcmBlock = 0 by simp only [Config.tcmBase, Config.tcmBlock]; omega]
  rfl

theorem loads (sl : SliceId) (f : Hart → Hart) {va n : Nat} (i : InTcm (f hart0) va n 0) (hn : 0 < n) (k : SliceId) :
    loadBytes k va n (mk sl f) =
      .ok ((locRange (tcmAt (gang0 f) (f hart0) va 0) n).map (seenByte (mk sl f) ((f hart0).buf k))) (mk sl f) := by
  cases sl
  · exact loadBytes_tcm (runs_as f) rfl rfl i hn (fun _ _ => rfl) k
  · exact loadBytes_tcm (runs_cs f) rfl rfl i hn (fun _ _ => rfl) k

theorem locates (sl : SliceId) (f : Hart → Hart) {va n : Nat} (i : InTcm (f hart0) va n 0) (hn : 0 < n) (acc : Acc)
    (check : Bool) :
    locateHere acc va n check (mk sl f) =
      .ok { locs := locRange (tcmAt (gang0 f) (f hart0) va 0) n, kinds := [4] } (mk sl f) := by
  cases sl
  · exact locateHere_tcm (runs_as f) rfl rfl i hn
  · exact locateHere_tcm (runs_cs f) rfl rfl i hn

/-- A part of an instruction answers, and what it answers and leaves has property p. -/
def answers {α : Type} (r : EStateM.Result Stop State α) (p : α → State → Bool) : Bool :=
  match r with
  | .ok a u => p a u
  | .error _ _ => false

theorem of_answers {α : Type} {r : EStateM.Result Stop State α} {p : α → State → Bool} (h : answers r p = true) :
    ∃ a u, r = .ok a u ∧ p a u = true := by
  unfold answers at h
  split at h
  · exact ⟨_, _, rfl, h⟩
  · simp at h

/-- What an access of an agent outside a hart answered. -/
def answer {α : Type} (r : Tried α × State) : Option α := match r.1 with | .ok a => some a | _ => none

theorem of_answer {α : Type} {r : Tried α × State} {v : α} (h : answer r = some v) : r = (.ok v, r.2) := by
  obtain ⟨a, s⟩ := r
  cases a with
  | ok w => cases h; rfl
  | trap t => cases h
  | wait w => cases h

/-- Whether it was made, or took a trap. -/
def went {α : Type} (r : Tried α × State) : Bool := match r.1 with | .ok _ => true | _ => false
def trapped {α : Type} (r : Tried α × State) : Bool := match r.1 with | .trap _ => true | _ => false

def trapCause {α : Type} (r : Tried α × State) : Option (BitVec 8) := match r.1 with | .trap t => some t.cause | _ => none

theorem of_went {α : Type} {r : Tried α × State} (h : went r = true) : ∃ v, r = (.ok v, r.2) := by
  obtain ⟨a, s⟩ := r
  cases a with
  | ok v => exact ⟨v, rfl⟩
  | trap t => cases h
  | wait w => cases h

theorem of_trapped {α : Type} {r : Tried α × State} (h : trapped r = true) : ∃ t, r = (.trap t, r.2) := by
  obtain ⟨a, s⟩ := r
  cases a with
  | ok v => cases h
  | trap t => exact ⟨t, rfl⟩
  | wait w => cases h

/-- A hart is executing at h, and has property p. -/
def runsAt (s : State) (h : Here) (p : Hart → Bool) : Bool :=
  decide (here? s = some h) && ((findHart s h.gang h.hid).map p).getD false

theorem of_runsAt {s : State} {h : Here} {p : Hart → Bool} (e : runsAt s h p = true) : ∃ x, Runs s h x ∧ p x = true := by
  unfold runsAt at e
  simp only [Bool.and_eq_true, decide_eq_true_eq] at e
  cases k : findHart s h.gang h.hid with
  | none => rw [k] at e; simp at e
  | some x => rw [k] at e; exact ⟨x, ⟨e.1, k⟩, e.2⟩

/-- Every pending store of both slices may be performed. -/
def sendable (x : Hart) (sl : SliceId) : Bool := (x.buf sl).all fun w => !w.cutOff && (sl == .cs || !w.open_)

theorem of_sendable {x : Hart} {sl : SliceId} (h : sendable x sl = true) : Sendable x sl := by
  intro w hw
  have e := List.all_eq_true.mp h w hw
  cases sl <;> simp_all

/-- A hart with one pending store of each slice to its TCM. -/
def storing (x : Hart) : Hart :=
  { x with abuf := [{ cells := [(tcmLoc 0 8, 7)], seq := 0 }], cbuf := [{ cells := [(tcmLoc 0 9, 8)], seq := 1 }], seq := 2 }

theorem storing_sendable (sl : SliceId) : Sendable (storing hart0) sl := of_sendable (by cases sl <;> decide +kernel)

/-- The held page grants every access. -/
theorem granted (sl : SliceId) (f : Hart → Hart) (acc : Acc) (check : Bool) {va : Nat} (hv : va < 4194304 := by decide +kernel) :
    Granted (mapped (mk sl f)) (hartXlat (mapped (mk sl f)) 0 0) acc check va
      { gallery := 0, asid := 0, level := 1, vpn := 0, pte := 0x6F, pteLoc := 2048 } := by
  have hx : hartXlat (mapped (mk sl f)) 0 0 = { gallery := 0, root := 0x10000, asid := 0, hart := some (0, 0), gang := some 0 } := rfl
  have ht : ∀ k, tlbTagVpn va (k + 1) = if k = 0 then 0 else tlbTagVpn va (k + 1) := by
    intro k
    split
    · next e => subst e; unfold tlbTagVpn pageBits; simp only; omega
    · rfl
  refine ⟨?_, ?_, ?_, ?_⟩
  · have h1 : ¬ Config.tcmBase ≤ va := by simp only [Config.tcmBase]; omega
    have h2 : ¬ Config.chamberBase ≤ va := by simp only [Config.chamberBase]; omega
    simp [inWindowSpan, inTcmSpan, inChamberSpan, h1, h2]
  · rw [hx]
    unfold tlbFind
    simp [mapped, ht 0]
  · intro _; cases acc <;> decide
  · intro _; decide

/-! ### Terms that the encoding does not admit (09 R189 to R203, 15 R351, R352) -/

theorem test_ill_formed_scalar :
    Instr.wf (.ldAcq 1 2 6 0) = false ∧ Instr.wf (.sdRel 1 2 7 0) = false ∧ Instr.wf (.amoAddW 1 2 3 6 0) = false ∧
    Instr.wf (.qpush 1 3) = false ∧ Instr.wf (.cQpop 1 3) = false ∧ Instr.wf (.fadd 1 2 3 0 4) = false ∧
    Instr.wf (.fcvt 1 2 6 0 0) = false ∧ Instr.wf (.fcvti 1 2 3 0 0) = false ∧ Instr.wf (.fsqrt 1 2 0 6) = false := by
  decide +kernel

theorem test_ill_formed_vector :
    Instr.wf (.vadd ⟨true, true, false, 0, 1, 2, 3⟩) = false ∧   -- a scalar b is not chained
    Instr.wf (.vmov ⟨false, false, false, 0, 1, 2, 3⟩) = false ∧ -- b is not used
    Instr.wf (.vmeq ⟨false, false, false, 0, 1, 2, 8⟩) = false ∧ -- d is a mask
    Instr.wf (.vmand ⟨false, false, false, 0, 1, 8, 3⟩) = false ∧
    Instr.wf (.vmand ⟨false, false, false, 1, 1, 2, 3⟩) = false ∧ -- mask logic is not masked
    Instr.wf (.vid ⟨false, false, false, 0, 0, 2, 3⟩) = false ∧  -- a is not used
    Instr.wf (.vfirst ⟨false, false, true, 0, 0, 2, 3⟩) = false ∧
    Instr.wf (.vcnt ⟨false, false, false, 0, 1, 2, 0⟩) = false ∧ -- b is a scalar
    Instr.wf (.vcat ⟨false, false, false, 0, 0, 2, 2⟩) = false ∧ -- d differs from a
    Instr.wf (.vgatherv ⟨true, false, false, 0, 1, 2, 3⟩) = false ∧ -- b is a vector
    Instr.wf (.vzip ⟨false, false, false, 0, 1, 2, 1⟩) = false ∧ -- d differs from b
    Instr.wf (.vld ⟨false, false, false, 0, 0, 16, 3⟩) = false ∧ -- a is a stream
    Instr.wf (.vst ⟨false, false, false, 0, 1, 0, 16⟩) = false ∧ -- d is a stream
    Instr.wf (.snext ⟨false, false, false, 0, 0, 2, 3⟩) = false ∧ -- d is not used
    Instr.wf (.vldw ⟨false, false, false, 0, 1, 2, 3⟩) = false := by
  decide +kernel

theorem test_ill_formed_matrix_and_bank :
    Instr.wf (.zzero ⟨false, false, false, 0, 0, 0, 4⟩) = false ∧ Instr.wf (.zop ⟨true, false, false, 0, 1, 2, 3⟩) = false ∧
    Instr.wf (.zdr ⟨true, false, false, 0, 1, 4, 3⟩) = false ∧ Instr.wf (.zld 1 2 0 32 32) = false ∧
    Instr.wf (.nloop 1 0) = false ∧ Instr.wf (.nrd 1 64) = false ∧ Instr.wf (.ndec 0x04 1) = false ∧
    Instr.wf (.nldx 1 2 1024) = false ∧ Instr.wf (.nmac 1 2 0x04) = false ∧ Instr.wf (.nred true 1 2 0) = false ∧
    Instr.wf (.nst 1 2 0x00 1) = false ∧ Instr.wf (.ncvt true 2 0x02 4097) = false := by
  decide +kernel

/-! ### Words of the spec's encodings, bit by bit (09 R187 to R203, 10, 15 R351) -/

/-- ALU, IMM, SYS: `add d=5, a=6, b=7` is 0x07_7 | … : b 21:17, a 16:12, d 11:7, major 6:2, frame 1:0. -/
theorem test_decode_alu :
    decodeWords (0b0000000000_00111_00110_00101_00011_11) none false = .ok (.add 5 6 7, 4) ∧
    decodeWords (0b0000000001_00111_00110_00101_00011_11) none false = .ok (.sub 5 6 7, 4) := by decide +kernel

theorem test_decode_spec_words :
    decodeWords 0x000E628F none false = .ok (.add 5 6 7, 4) ∧
    decodeWords 0x70000213 none false = .ok (.addi 4 0 0x700, 4) ∧
    decodeWords 0x00C00287 none false = .ok (.getc 5 0x060, 4) ∧
    decodeWords 0xC60412CB none false = .ok (.vwmac ⟨false, true, true, 0, 2, 1, 5⟩, 4) := by decide +kernel

/-- A step of a decoded word: `placeTableWord` puts it where the next step fetches. -/
theorem test_decode_table : decodeTableWord 32 0x000E628F = some (.add 5 6 7) ∧ decodeTableWord 32 0x00800003 = some .brk := by
  decide +kernel

theorem test_decode_bank :
    decodeNbe 0x00380126 = .ok (.nldx 1 1 7) ∧ decodeNbe 0x00380004 = .ok (.nrd 0 7) ∧
    decodeNbe 0x0FF88005 = .ok (.ndec 2 511) ∧ decodeNbe 0x00008147 = .ok (.nmac 2 1 2) := by decide +kernel

/-- What the encoder writes for one instruction of each core family decodes to it. -/
theorem test_encode_decode :
    decodeWords ((encode (.beqz 3 (-4))).headD 0) none false = .ok (.beqz 3 (-4), 4) ∧
    decodeWords ((encode (.amoCasD 1 2 3 5 1)).headD 0) none false = .ok (.amoCasD 1 2 3 5 1, 4) ∧
    decodeWords ((encode (.fma 1 2 3 1 7)).headD 0) none false = .ok (.fma 1 2 3 1 7, 4) ∧
    decodeWords ((encode (.qpush 9 1)).headD 0) none false = .ok (.qpush 9 1, 4) ∧
    decodeWords ((encode (.vld ⟨false, false, false, 2, 0, 3, 4⟩)).headD 0) none false =
      .ok (.vld ⟨false, false, false, 2, 0, 3, 4⟩, 4) := by decide +kernel

/-! ### One step on a small state -/

/-- An addition wraps modulo 2^64 (11 R234). -/
theorem test_add_wraps :
    seen (exec (.add 5 6 7) (mk .as fun x => aReg 6 (-1) (aReg 7 2 x))) (fun y => (y.getReg .as 5, y.as_.pc)) =
      some (1, 0x10004) := by decide +kernel

/-- Division by zero gives all ones, the remainder the dividend (06 R139). -/
theorem test_divide_by_zero :
    seen (exec (.div 5 6 7) (mk .as (aReg 6 9))) (fun y => y.getReg .as 5) = some (-1) ∧
    seen (exec (.rem 5 6 7) (mk .as (aReg 6 9))) (fun y => y.getReg .as 5) = some 9 := by decide +kernel

/-- A write of register 0 is discarded (05 R97). -/
theorem test_register_zero :
    seen (exec (.addi 0 0 7) (mk .cs id)) (fun y => (y.getReg .cs 0, y.c, y.cs.pc)) = some (0, hart0.c, 0x20004) := by
  decide +kernel

/-- `jalr` reads its base before it writes the link (11 R241). -/
theorem test_jalr_link :
    seen (exec (.jalr 5 5 8) (mk .as (aReg 5 0x40000))) (fun y => (y.getReg .as 5, y.as_.pc)) = some (0x10004, 0x40008) := by
  decide +kernel

/-- `brk` in a hart whose `emask` lets it handle BREAK goes to the AS vector with H set (07 R153). -/
theorem test_brk_handled :
    seen (exec .brk (mk .as fun x => { x with tr := { x.tr with emask := 0x10 } }))
      (fun y => (y.as_.pc, y.tr.ecause, y.tr.epca, y.cs.cond)) = some (0x10000, 0x804, 0x10000, .stopped) := by decide +kernel

/-- A pop of the CS takes the oldest entry of `qa` (11 R243). -/
theorem test_qpop :
    seen (exec (.qpop 4 0) (mk .cs fun x => { x with qa := [{ word := 7 }, { word := 8 }] }))
      (fun y => (y.getReg .cs 4, y.qa)) = some (7, [{ word := 8 }]) := by
  decide +kernel

/-- A load from the TCM sign-extends the byte that a pending store of the AS put there (14 R302, R304). -/
theorem test_lb_forwards :
    seen (exec (.lb 5 6 0) (mk .as fun x => { aReg 6 0xF000000003 x with abuf := [{ cells := [(tcmLoc 0 3, 0x80)] }] }))
      (fun y => (y.getReg .as 5, y.as_.pc)) = some (-128, 0x10004) := by decide +kernel

/-- `vadd` of two bytes, modulo 2^8, in the elements below `vl` (13 R284). -/
theorem test_vadd :
    seen (exec (.vadd (ops 3 1 2)) (mk .cs fun x =>
        { (x.setVreg 1 { bits := 0x01FF, fill := 16 }).setVreg 2 { bits := 0x0302, fill := 16 } with
          vc := { x.vc with vl := 2, vfmt := 0x18C6 } }))
      (fun y => (y.vreg 3, y.vc.gn, y.cs.pc)) = some ({ bits := 0x0401, fill := 16 }, 2, 0x20004) := by decide +kernel

/-- SHAKE256 of the empty message begins 46 b9 dd 2b (FIPS 202's published value; 02 R39). -/
theorem test_shake256 : (shake256 []).toNat % 2 ^ 32 = 0x2BDDB946 := by decide +kernel

/-! ### Witnesses: states and operands that meet the hypotheses of the statements

One theorem for every statement with hypotheses, a clause at a time. -/

/-! #### IntegerRegisterResults, BitFieldResults, ImmediateResults, CompressedResults, RegisterOnlyFrame -/

theorem witness_processors :
    cpu? (mk .as id) = some (.slice hA) ∧ cpu? (mk .cs id) = some (.slice hC) ∧ cpu? (onSurvey 3) = some (.survey 3) := by
  decide +kernel

theorem witness_registerOnlyFrame :
    Runs (mk .cs id) hC hart0 ∧ writesOnly 31 (.fshi 31 2 3 63) ∧
    ∃ t, exec (.fshi 31 2 3 63) (mk .cs id) = .next t := by
  refine ⟨runs_cs id, rfl, ?_⟩
  have : (seen (exec (.fshi 31 2 3 63) (mk .cs id)) fun _ => ()) = some () := by decide +kernel
  unfold seen at this
  split at this
  · exact ⟨_, ‹_›⟩
  · simp at this

/-! #### BranchAndJumpResults, TargetAndSliceTraps -/

/-- The words at 0x10000 and 0x10004 are held; the second has frame w. -/
def holding (w : TextWord) (x : Hart) : Hart := { x with as_ := { x.as_ with fbuf := [(0x10000, 3), (0x10004, w)] } }

theorem witness_targets :
    targetGood (mk .as id) (.slice hA) (wordsFrom 0x10000 (-16384)) ∧
    targetGood (mk .as (holding 3)) (.slice hA) (wordsFrom 0x10000 1) ∧
    targetGood (onSurvey 0) (.survey 0) (wordsFrom 0 1) :=
  ⟨Or.inl (by decide +kernel), Or.inr ⟨by decide +kernel, _, 3, 3, rfl, rfl, rfl, by decide +kernel⟩, Or.inr (by decide +kernel)⟩

theorem witness_queueBranch :
    Runs (mk .as fun x => { x with qb := [true] }) hA { hart0 with qb := [true] } ∧ Runs (mk .as id) hA hart0 ∧
    hart0.qb = [] ∧ targetGood (mk .as id) (.slice hA) (hart0.as_.pc + BitVec.ofInt 64 (4 * 2)) :=
  ⟨runs_as _, runs_as id, rfl, Or.inl (by decide +kernel)⟩

theorem witness_foreignSlice :
    (Runs (mk .as id) hA hart0 ∧ Runs (mk .cs id) hC hart0) ∧ csOnlyInstr .zend ∧ csOnlyInstr (.vadd (ops 1 2 3)) ∧
    asOnlyInstr (.csig 1 2) := by
  refine ⟨⟨runs_as id, runs_cs id⟩, ?_, Or.inl rfl, ?_⟩
  · simp [csOnlyInstr]
  · simp [asOnlyInstr]

/-! #### TrapTaken, TrapInstructionsAndReturn -/

/-- A hart that may handle every cause it can. -/
def masked (x : Hart) : Hart := { x with tr := { x.tr with emask := 0xFFFFFFFF } }

theorem witness_trapHandled :
    Runs (mk .cs masked) hC (masked hart0) ∧ (0x1C : BitVec 8) ∈ hartCauses ∧
    (masked hart0).tr.emask.getLsbD 0x1C = true ∧ (masked hart0).tr.ecause.getLsbD 11 = false :=
  ⟨runs_cs _, by decide +kernel⟩

theorem witness_trapToOwner :
    Runs (mk .as masked) hA (masked hart0) ∧ Runs (mk .as id) hA hart0 ∧ findLaunch (mk .as masked) 0 = some l0 ∧
    (0x1E : BitVec 8) ∉ hartCauses ∧ hart0.tr.emask.getLsbD 1 = false ∧ hart0.tr.ecause.getLsbD 11 = false ∧
    hart0.ypend.getLsbD 63 = false :=
  ⟨runs_as _, runs_as id, rfl, by decide +kernel⟩

/-- A handler of the CS, and the same hart seen from its AS. -/
def handling (x : Hart) : Hart := { x with tr := { x.tr with ecause := 0x804, epca := 0x40, epcc := 0x48, took := .cs } }

theorem witness_eret :
    (Runs (mk .cs handling) hC (handling hart0) ∧ Runs (mk .as handling) hA (handling hart0) ∧ Runs (mk .as id) hA hart0) ∧
    (handling hart0).tr.ecause.getLsbD 11 = true ∧ (handling hart0).tr.took = hC.sl ∧ (handling hart0).viq = [] ∧
    (handling hart0).tr.epcc.toNat % 8 = 0 ∧ (handling hart0).tr.took ≠ hA.sl ∧ hart0.tr.ecause.getLsbD 11 = false :=
  ⟨⟨runs_cs _, runs_as _, runs_as id⟩, by decide +kernel⟩

/-! #### ControlRegisters -/

/-- An entry of the vector queue. -/
def entry : VEntry := captured hart0 .vadd (ops 1 2 3) 0 0 0 0 none
def queuedOne (x : Hart) : Hart := { x with viq := [entry], seq := 1 }
def queuedFull (x : Hart) : Hart := { x with viq := List.replicate 16 entry, seq := 16 }

theorem witness_controlReads :
    Runs (mk .cs id) hC hart0 ∧ (∀ p ∈ ctlRows, ctlReads hC.sl p = true ∨ ctlReads hA.sl p = true) ∧ hart0.viq = [] ∧
    findLaunch (mk .cs id) 0 = some l0 ∧ hart0.qa.length ≤ 64 ∧ hart0.qc.length ≤ 16 ∧ hart0.qb.length ≤ 64 ∧
    hart0.slipUse < 2 ^ 16 :=
  ⟨runs_cs id, by decide +kernel⟩

/-- With an instruction queued: `vstart`, which waits for it. -/
theorem witness_controlWaits :
    Runs (mk .cs queuedOne) hC (queuedOne hart0) ∧ (queuedOne hart0).viq ≠ [] ∧
    (∃ p ∈ ctlRows, p.1 = (0x003 : BitVec 15).toNat ∧ p.2.2.2.1 = true) ∧
    ∃ p ∈ ctlWrites, ctlWritable .cs p = true ∧ p.2.2.2.1 = true :=
  ⟨runs_cs _, by decide +kernel⟩

theorem witness_controlWrites :
    Runs (mk .as (aReg 4 128)) hA (aReg 4 128 hart0) ∧
    (∀ p ∈ ctlWrites, ctlWritable hC.sl p = true ∨ ctlWritable hA.sl p = true) ∧
    (0 < ((aReg 4 128 hart0).getReg .as 4).toNat ∧ ((aReg 4 128 hart0).getReg .as 4).toNat ≤ 128) ∧
    (hart0.getReg .as 4).toNat = 0 ∧ 128 < ((aReg 4 257 hart0).getReg .as 4).toNat :=
  ⟨runs_as _, by decide +kernel⟩

/-- `vlen` is read-only, `vl` is the CS's alone, 0x00B and 0x012 are gaps, and the table ends below 0x062. -/
theorem witness_controlNumbers :
    (∀ sl, ctlListed sl 0x002 = true ∧ ctlWrittenBy sl 0x002 = false) ∧
    (ctlListed .cs 0x000 = true ∧ ctlWrittenBy .cs 0x000 = false ∧ ctlListed .as 0x000 = false) ∧
    ∀ n ∈ [0x00B, 0x012, 0x062, 0x7FFF], ctlListed .as n = false ∧ ctlListed .cs n = false := by
  refine ⟨fun sl => ?_, by decide +kernel⟩
  cases sl <;> decide +kernel

/-! #### YieldAndWaitResults, FenceAndTileScopeResults -/

/-- A yield request whose deadline is the present cycle, and one whose deadline was the cycle before. -/
def posted (x : Hart) : Hart := { x with ypend := 0xA000000000000000 }
def overdue (x : Hart) : Hart := { x with ypend := 0xA000FFFFFFFFFFFF }

theorem witness_yield :
    (Runs (mk .as id) hA hart0 ∧ Runs (mk .as posted) hA (posted hart0) ∧ Runs (mk .as overdue) hA (overdue hart0) ∧
      Runs (mk .as fun x => posted (queuedOne x)) hA (posted (queuedOne hart0))) ∧
    hart0.ypend.getLsbD 63 = false ∧ (posted hart0).ypend.getLsbD 63 = true ∧ (overdue hart0).ypend.getLsbD 63 = true ∧
    (posted hart0).viq = [] ∧ (posted (queuedOne hart0)).viq ≠ [] ∧ (overdue hart0).mode = .active ∧
    (findLaunch (mk .as posted) 0).isSome = true ∧ ((findGang (mk .as overdue) 0).map Gang.st) = some .resident :=
  ⟨⟨runs_as id, runs_as _, runs_as _, runs_as _⟩, by decide +kernel⟩

theorem witness_deadline : inTime (mk .as posted) (posted hart0) ∧ ¬ inTime (mk .as overdue) (overdue hart0) := by
  unfold inTime
  decide +kernel

/-- A word of the hart's TCM, which reads 0, observed by `wait`. -/
theorem witness_wait :
    let s := mk .as (aReg 6 0xF000000008)
    let x := aReg 6 0xF000000008 hart0
    ∃ v, Runs s hA x ∧ observeWord (x.getReg .as 6) s = .ok v s ∧ v ≠ x.getReg .as 6 ∧ v = x.getReg .as 7 :=
  ⟨_, runs_as _, observeWord_tcm (runs_as _) rfl rfl in_tcm (by decide +kernel) rfl (fun _ _ => rfl), by decide +kernel⟩

theorem witness_fences :
    Runs (mk .cs storing) hC (storing hart0) ∧ (mk .cs storing).ahead = false ∧ (storing hart0).viq = [] ∧
    Sendable (storing hart0) .cs ∧ JustQueues (mk .cs queuedOne) (queuedOne hart0) ∧ 16 ≤ (queuedFull hart0).viq.length := by
  refine ⟨runs_cs _, rfl, rfl, storing_sendable _, ?_, by decide +kernel⟩
  unfold JustQueues
  decide +kernel

theorem witness_tileScope :
    (Runs (mk .cs (cReg 4 64)) hC (cReg 4 64 hart0) ∧ Runs (mk .cs queuedOne) hC (queuedOne hart0) ∧
      Runs (mk .cs fun x => { x with zlive := true }) hC { hart0 with zlive := true }) ∧
    0 < ((cReg 4 64 hart0).getReg .cs 4).toNat ∧ ((cReg 4 64 hart0).getReg .cs 4).toNat ≤ 64 ∧
    (hart0.getReg .cs 4).toNat = 0 ∧ 64 < ((cReg 4 65 hart0).getReg .cs 4).toNat ∧ hart0.viq = [] ∧ hart0.zlive = false ∧
    (queuedOne hart0).viq ≠ [] :=
  ⟨⟨runs_cs _, runs_cs _, runs_cs _⟩, by decide +kernel⟩

/-! #### RendezvousResults -/

/-- The CS waits at the rendezvous fn10. -/
def csAt (f : Nat) (x : Hart) : Hart := { x with cs := { x.cs with cond := .waiting (.rendezvous f) } }

theorem witness_rendezvous :
    (Runs (mk .as id) hA hart0 ∧ ∀ f, (hart0.slice (other hA.sl)).cond ≠ .waiting (.rendezvous f)) ∧
    Runs (mk .as fun x => csAt 0x010 (storing x)) hA (csAt 0x010 (storing hart0)) ∧
    Sendable (csAt 0x010 (storing hart0)) .as ∧ Sendable (csAt 0x010 (storing hart0)) .cs ∧
    ((csAt 0x010 (storing hart0)).slice (other hA.sl)).cond = .waiting (.rendezvous 0x010) ∧ (0x010 : Nat) ≠ 0x00B ∧
    (csAt 0x010 (storing hart0)).viq = [] ∧ (csAt 0x010 (storing hart0)).tp.dtab = 0 ∧
    (csAt 0x010 (queuedOne hart0)).viq ≠ [] :=
  ⟨⟨runs_as id, fun f h => by simp [hart0, Hart.slice, other, hA, Hart.fresh, Slice.start] at h⟩, runs_as _,
    of_sendable (by decide +kernel), of_sendable (by decide +kernel), by decide +kernel⟩

theorem witness_exit :
    Runs (mk .as fun x => csAt 0x001 (storing x)) hA (csAt 0x001 (storing hart0)) ∧
    ((csAt 0x001 (storing hart0)).slice (other hA.sl)).cond = .waiting (.rendezvous 0x001) ∧
    hart0.tr.ecause.getLsbD 11 = false ∧ (handling hart0).tr.ecause.getLsbD 11 = true :=
  ⟨runs_as _, by decide +kernel⟩

/-- A table in the TCM whose second entry's region has a reserved bit of CTL set where `bad` is 1; the rest reads 0. -/
def tabled (bad : Byte) (x : Hart) : Hart :=
  { csAt 0x010 x with
    tp := { x.tp with dtab := 0xF000000200 }, abuf := [{ cells := [(tcmLoc 0 0x237, 0x80 ||| bad), (tcmLoc 0 0x22A, 1)] }] }

/-- A switch reads its table after `settleHart`: with no entry that breaks 08 R170, and with entry 1 that does. -/
theorem witness_switch :
    (let s := mk .as fun x => { csAt 0x010 x with tp := { x.tp with dtab := 0xF000000200 } }
     answers (settleHart 0x010 s) (fun _ s0 => answers (loadBytes .as 0xF000000200 512 s0) fun b s1 =>
       runsAt s1 hA (fun _ => true) && (firstOffender [] (parseTable b) 0).isNone)) = true ∧
    answers (settleHart 0x010 (mk .as (tabled 1))) (fun _ s0 => answers (loadBytes .as 0xF000000200 512 s0) fun b s1 =>
       runsAt s1 hA (fun _ => true) && firstOffender [] (parseTable b) 0 == some 1) = true := by
  decide +kernel

/-! #### QueuePushResults, QueuePopResults, StreamDescriptorResults -/

/-- A word of a queue that nothing older holds up. -/
def free (w : Word) : QWord := { word := w }

theorem witness_push :
    (Runs (mk .as fun x => { x with qa := List.replicate 64 (free 0) }) hA { hart0 with qa := List.replicate 64 (free 0) } ∧
      Runs (mk .as fun x => { x with slip := 0 }) hA { hart0 with slip := 0 } ∧
      Runs (mk .cs fun x => { x with qc := List.replicate 16 (free 0) }) hC { hart0 with qc := List.replicate 16 (free 0) }) ∧
    (hart0.fenceSv = false ∧ hart0.fenceVs = false ∧ hart0.slipUse < hart0.slip.toNat % 256) ∧
    (hart0.qa.length < 64 ∧ hart0.qc.length < 16 ∧ hart0.qb.length < 64 ∧ hart0.viq = []) ∧
    64 ≤ ({ hart0 with qa := List.replicate 64 (free 0) } : Hart).qa.length ∧
    ({ hart0 with slip := 0 } : Hart).slip.toNat % 256 ≤ ({ hart0 with slip := 0 } : Hart).slipUse ∧
    16 ≤ ({ hart0 with qc := List.replicate 16 (free 0) } : Hart).qc.length :=
  ⟨⟨runs_as _, runs_as _, runs_cs _⟩, by decide +kernel⟩

/-- Pushes behind a fence: stores pending; an instruction queued before `fence.vs`, and none. -/
theorem witness_fencedPush :
    Runs (mk .as fun x => { storing x with fenceSv := true }) hA { storing hart0 with fenceSv := true } ∧
    Sendable ({ storing hart0 with fenceSv := true } : Hart) .as ∧
    Runs (mk .cs fun x => { x with fenceVs := true, viq := [{ entry with fenced := true }] }) hC
      { hart0 with fenceVs := true, viq := [{ entry with fenced := true }] } ∧
    (∃ e ∈ [{ entry with fenced := true }] ++ hart0.held, e.fenced = true) ∧
    Runs (mk .cs fun x => { queuedOne (storing x) with fenceVs := true }) hC { queuedOne (storing hart0) with fenceVs := true } ∧
    (∀ e ∈ (queuedOne (storing hart0)).viq ++ hart0.held, e.fenced = false) ∧
    Sendable ({ queuedOne (storing hart0) with fenceVs := true } : Hart) .cs :=
  ⟨runs_as _, of_sendable (by decide +kernel), runs_cs _, by decide +kernel, runs_cs _, by decide +kernel,
    of_sendable (by decide +kernel)⟩

theorem witness_pop :
    (Runs (mk .as fun x => { x with qc := [free 5] }) hA { hart0 with qc := [free 5] } ∧
      Runs (mk .cs fun x => { x with qa := [free 5, free 6] }) hC { hart0 with qa := [free 5, free 6] }) ∧
    (Runs (mk .as id) hA hart0 ∧ Runs (mk .cs id) hC hart0 ∧ hart0.qc = [] ∧ hart0.qa = []) ∧
    (∀ e ∈ hart0.viq ++ hart0.held, ¬ ((free 5).lo ≤ e.seq ∧ e.seq < (free 5).hi)) ∧
    (∀ w ∈ hart0.cbuf, (free 5).hi ≤ w.seq) ∧ ∀ w ∈ hart0.abuf, (free 5).hi ≤ w.seq :=
  ⟨⟨runs_as _, runs_cs _⟩, ⟨runs_as id, runs_cs id, rfl, rfl⟩, by decide +kernel⟩

/-- Entries of `qpush.rel`: behind a queued instruction, and behind stores of the CS and of the AS. -/
theorem witness_releasedPop :
    (Runs (mk .as fun x => { queuedOne x with qc := [⟨5, 0, 1⟩] }) hA { queuedOne hart0 with qc := [⟨5, 0, 1⟩] } ∧
      ∃ e ∈ (queuedOne hart0).viq ++ hart0.held, (⟨5, 0, 1⟩ : QWord).lo ≤ e.seq ∧ e.seq < (⟨5, 0, 1⟩ : QWord).hi) ∧
    (Runs (mk .as fun x => { storing x with qc := [⟨5, 2, 2⟩] }) hA { storing hart0 with qc := [⟨5, 2, 2⟩] } ∧
      (∃ w ∈ (storing hart0).cbuf, w.seq < (⟨5, 2, 2⟩ : QWord).hi) ∧
      (∀ w ∈ (storing hart0).cbuf, w.open_ = false) ∧ Sendable ({ storing hart0 with qc := [⟨5, 2, 2⟩] } : Hart) .cs) ∧
    Runs (mk .cs fun x => { storing x with qa := [⟨5, 2, 2⟩] }) hC { storing hart0 with qa := [⟨5, 2, 2⟩] } ∧
    (∃ w ∈ (storing hart0).abuf, w.seq < (⟨5, 2, 2⟩ : QWord).hi) ∧
    Sendable ({ storing hart0 with qa := [⟨5, 2, 2⟩] } : Hart) .as :=
  ⟨⟨runs_as _, by decide +kernel⟩, ⟨runs_as _, by decide +kernel, by decide +kernel, of_sendable (by decide +kernel)⟩,
    runs_cs _, by decide +kernel, of_sendable (by decide +kernel)⟩

/-- A linear stream of 3 numbers of 32 bits, one of 3 code bits, and a reserved format. -/
theorem witness_descriptor :
    canonical ((aReg 6 0xF000000020 hart0).getReg .as 6).toNat = true ∧
    ({ base := 0xF000000020, cfg := BitVec.ofNat 64 (0x04 * 2 ^ 54 + 3), stride := 0 } : Desc).illegal 0 = false ∧
    ({ base := 0xF000000020, cfg := BitVec.ofNat 64 (2 * 2 ^ 62 + 0x10 * 2 ^ 54 + 3), stride := 0 } : Desc).illegal 0 = false ∧
    ({ base := 0xF000000020, cfg := BitVec.ofNat 64 (0x1F * 2 ^ 54 + 3), stride := 0 } : Desc).illegal 0 = true := by
  decide +kernel

/-- The four words of a descriptor in the TCM: CFG for 5 elements at address 0. -/
def descAt (x : Hart) : Hart :=
  { aReg 6 0xF000000020 x with abuf := [{ cells := [(tcmLoc 0 0x28, 5), (tcmLoc 0 0x2E, 0x80), (tcmLoc 0 0x2F, 1)] }] }

theorem witness_mayPush (k : BitVec 4) (h : k = 0 ∨ k = 15) : mayPushDesc hart0 k ∧ mayPushDesc (descAt hart0) k := by
  unfold mayPushDesc
  rcases h with rfl | rfl <;> decide +kernel

theorem witness_sload :
    Runs (mk .as descAt) hA (descAt hart0) ∧ ((descAt hart0).getReg .as 6).toNat % 32 = 0 ∧
    ((descAt hart0).getReg .as 6 + 1#64).toNat % 32 ≠ 0 ∧
    answers (wideLoad ((descAt hart0).getReg .as 6).toNat 32 (mk .as descAt)) (fun b s1 =>
      let w (j : Nat) : Word := BitVec.ofNat 64 (bytesToNat ((b.drop (8 * j)).take 8))
      runsAt s1 hA (fun _ => true) && !({ base := w 0, cfg := w 1, stride := w 2 } : Desc).illegal (w 3) &&
        canonical (w 0).toNat) = true :=
  ⟨runs_as _, by decide +kernel⟩

/-! #### ScalarFloatResults, VectorSetupResults, GrantAndBarrierResults -/

theorem witness_rounding :
    roundReady hart0 7 ∧ roundReady hart0 3 ∧ Runs (mk .cs id) hC hart0 ∧
    Runs (mk .cs fun x => { x with vc := { x.vc with vfmt := 0x1F } }) hC { hart0 with vc := { hart0.vc with vfmt := 0x1F } } ∧
    vfmtReserved 0x1F = true := ⟨fun _ => by decide +kernel, fun h => by simp at h, runs_cs id, runs_cs _, by decide +kernel⟩

/-- Patterns of f32 that each case of `fmin` and `fmax` names. -/
theorem witness_minMax :
    (decodeF f32Fmt 0x7FC00000).isNan = true ∧ (decodeF f32Fmt 0x3F800000).isNan = false ∧
    fLt (decodeF f32Fmt 0x3F800000) (decodeF f32Fmt 0x40000000) = true ∧
    fLt (decodeF f32Fmt 0x40000000) (decodeF f32Fmt 0x3F800000) = false ∧
    fEq (decodeF f32Fmt 0x80000000) (decodeF f32Fmt 0) = true ∧ (decodeF f32Fmt 0x80000000).neg = true ∧
    (decodeF f32Fmt 0).neg = false := by decide +kernel

theorem witness_setup :
    Starts (mk .cs (cReg 4 9)) hC (cReg 4 9 hart0) ∧ (cReg 4 9 hart0).viq = [] ∧ findLaunch (mk .cs (cReg 4 9)) 0 = some l0 ∧
    (Runs (mk .cs queuedOne) hC (queuedOne hart0) ∧ (queuedOne hart0).viq ≠ []) ∧
    Runs (mk .cs queuedFull) hC (queuedFull hart0) ∧ 16 ≤ (queuedFull hart0).viq.length :=
  ⟨starts_cs _, rfl, rfl, ⟨runs_cs _, by decide +kernel⟩, runs_cs _, by decide +kernel⟩

/-- A gang of two harts, whose second hart has arrived with the contributions given. -/
def pairGang (arrived : List (Nat × Nat × Bool)) : Gang :=
  { gang0 id with harts := [hart0, { hart0 with core := 1, hid := 1 }], arrived := arrived }
def pair (arrived : List (Nat × Nat × Bool)) : State := { mk .cs id with gangs := [pairGang arrived] }

theorem pair_grants : ∀ k z, k ≠ hC.hid → (pairGang [(1, 5, false)]).harts[k]? = some z → z.mode ≠ .exited →
    ∃ c ∈ (pairGang [(1, 5, false)]).arrived, c.1 = k := by
  intro k z hk hz _
  match k with
  | 0 => exact absurd rfl hk
  | 1 => exact ⟨_, List.mem_cons_self .., rfl⟩
  | k + 2 => simp [pairGang] at hz

theorem pair_arrived : ∀ c ∈ (pairGang [(1, 5, false)]).arrived, c.1 ≠ hC.hid ∧
    ∃ z, (pairGang [(1, 5, false)]).harts[c.1]? = some z ∧ z.mode ≠ .exited := by
  intro c hc
  obtain rfl := List.mem_singleton.mp hc
  exact ⟨by decide, _, rfl, by decide +kernel⟩

theorem witness_vsetg :
    (Runs (pair [(1, 5, false)]) hC hart0 ∧ Runs (pair []) hC hart0) ∧
    findGang (pair [(1, 5, false)]) 0 = some (pairGang [(1, 5, false)]) ∧ findLaunch (pair []) 0 = some l0 ∧
    hart0.grant = none ∧ hart0.mode = .active ∧ ((pairGang [(1, 5, false)]).arrived.map (·.1)).Nodup ∧
    (∃ z, (pairGang []).harts[1]? = some z ∧ z.mode ≠ .exited) ∧ (pairGang []).arrived = [] ∧ hart0.ypend.getLsbD 63 = false :=
  ⟨⟨⟨rfl, rfl⟩, ⟨rfl, rfl⟩⟩, rfl, rfl, rfl, rfl, by decide +kernel, ⟨_, rfl, by decide +kernel⟩, rfl, by decide +kernel⟩

theorem witness_barrier :
    Runs (mk .as storing) hA (storing hart0) ∧ Starts (mk .cs storing) hC (storing hart0) ∧
    findGang (mk .as storing) 0 = some (gang0 storing) ∧ (storing hart0).mode ≠ .exited ∧ Sendable (storing hart0) .as ∧
    (storing hart0).viq = [] ∧ (∃ w ∈ (storing hart0).cbuf, w.seq < (storing hart0).seq) ∧
    JustQueues (mk .cs queuedOne) (queuedOne hart0) ∧ 16 ≤ (queuedFull hart0).viq.length := by
  refine ⟨runs_as _, starts_cs _, rfl, by decide +kernel, storing_sendable _, rfl, by decide +kernel, ?_, by decide +kernel⟩
  unfold JustQueues
  decide +kernel

theorem witness_gwait :
    (∃ g, findGang { mk .as id with gangs := [{ gang0 id with ph := 1 }] } 0 = some g ∧ (hart0.getReg .as 4).toNat < g.ph) ∧
    (gang0 id).ph ≤ (hart0.getReg .as 4).toNat := ⟨⟨_, rfl, by decide +kernel⟩, by decide +kernel⟩

/-! #### TranslationResults -/

/-- A state whose walk of address 0x1000 finds the entry p in the table at 64 KiB, with a descriptor in mode 1. -/
def walking (p : Nat) : State :=
  { mapped (mk .as (aReg 6 0x1000)) with mem := memWriteAll [] ((locRange 2048 8).zip (natToBytes p 8)), tlb := [] }

/-- What a hart's walk of address 0x1000 ends in. -/
def walkOf (s : State) : WalkEnd := walkFrom s 0x1000 3 1 0x10000

theorem witness_places :
    (0x0400000000000000 : Word).getLsbD 63 = false ∧ (0x8400000000000000 : Word).getLsbD 63 = true ∧
    (∀ m ∈ [(0x80, 0), (0x84, 1), (0x88, 2)], (BitVec.ofNat 64 (m.1 * 2 ^ 56)).toNat / 2 ^ 58 % 4 = m.2 ∧
      0x1000 < (0x0000004000000000 : Word).toNat / 2 ^ 32 % 2 ^ 25 * 65536) ∧
    hbmMap (devReg (walking 0) 0x10000) (devReg (walking 0) 0x10008) 0x1000 = some at1000 ∧
    ∀ n, n < 64 → hbmMap (devReg (mk .as id) (0x10000 + 16 * n)) (devReg (mk .as id) (0x10008 + 16 * n)) 0x1000 = none := by
  decide +kernel

/-- Entries that are invalid, reserved, a misplaced leaf, a leaf and a table; and one that is poisoned. -/
theorem witness_walks :
    walkOf (walking 0) = .ends 0x08 ∧ walkOf (walking 0x7F) = .ends 0x08 ∧ walkOf (walking 0x1006F) = .ends 0x08 ∧
    walkOf (walking 0x4F) = .leaf 0x4F 1 2048 ∧ walkOf (walking 0x10001) = .ends 0x08 ∧
    walkOf { walking 0x4F with poison := [64] } = .ends 0x1E ∧ walkOf (mk .as id) = .ends 0x0A := by
  decide +kernel

/-- A page held in the translations of gallery 0, of level 1, with the bits p. -/
def heldAs (p : Word) : State :=
  { walking 0 with tlb := [{ gallery := 0, asid := 0, level := 1, vpn := 0, pte := p, pteLoc := 2048 }] }

theorem witness_locate :
    let xl := hartXlat (walking 0) 0 0
    (tlbFind (walking 0x4F) xl 0x1000).isNone ∧ (tlbFind (heldAs 0x6F) xl 0x1000).isSome ∧
    (tlbFind (heldAs 0x61) xl 0x1000).isSome ∧ (tlbFind (heldAs 0xC6F) xl 0x1000).isSome ∧
    walkOf (walking 0x4F) = .leaf 0x4F 1 2048 ∧ (0x4F : Word).getLsbD 5 = false ∧ (walking 0x4F).mem.wf = true ∧
    wordIn (walking 0x4F).mem 2048 = 0x4F ∧ (0x6F : Word).toNat / 2 ^ 10 % 4 = 0 ∧ (0xC6F : Word).toNat / 2 ^ 10 % 4 = 3 ∧
    (0xC6F : Word).getLsbD 7 = false ∧ leafAddress 0x6F 1 0x1000 % 256 + 8 ≤ 256 := by
  decide +kernel

theorem witness_grants :
    (∀ acc, grants acc 0x6F) ∧ ¬ grants .load 0x61 ∧ inOnePage 0x1000 8 := by
  refine ⟨fun acc => ?_, ?_, ?_⟩
  · cases acc <;> simp [grants]
  · simp [grants]
  · unfold inOnePage; decide +kernel

/-- The leaf of `walking 0x2F`, whose D is clear, and a load there through a held leaf of level 3. -/
theorem witness_dirty :
    let s := walking 0x2F
    let e : TlbEntry := { gallery := 0, asid := 0, level := 3, vpn := 0, pte := 0x2F, pteLoc := 2048 }
    s.mem.wf = true ∧ (BitVec.ofNat 64 (wordIn s.mem 2048)).getLsbD 6 = false ∧ e.pte.getLsbD 6 = false ∧
    tlbFind { s with tlb := [e] } (hartXlat s 0 0) 0x1000 = some e ∧ e.pte.getLsbD 1 = true ∧ e.pte.getLsbD 8 = false ∧
    hbmMap (devReg s 0x10000) (devReg s 0x10008) (e.pte.toNat / 2 ^ 16 % 2 ^ 36 * 65536 + 0x1000 % 65536) = some at1000 ∧
    (∀ k, k < 8 → poisoned s (at1000 + k) = false ∧ bufByte (aReg 6 0x1000 hart0).abuf (at1000 + k) = none) := by
  decide +kernel

/-! #### LoadResults, StoreResults, TcmAndOwnStores, AccessChecks, AtomicResults -/

/-- The last 8 bytes of the bound TCM block, by the address that register 6 holds. -/
def tcmEnd : Word := 0xF00000FFF8

/-- That hart, with stores pending. -/
def atEnd (x : Hart) : Hart := aReg 6 tcmEnd (storing x)

theorem witness_load :
    (Runs (mk .as atEnd) hA (atEnd hart0) ∧ ((atEnd hart0).getReg .as 6 + 0#64).toNat = tcmEnd.toNat) ∧
    (atEnd hart0).touches tcmEnd.toNat 8 = none ∧ (atEnd hart0).touches (tcmEnd.toNat + 7) 1 = none ∧
    (∀ p ∈ [(8, false, false), (8, true, false), (8, true, true)],
      answers (scalarLoad tcmEnd.toNat p.1 p.2.1 p.2.2 (mk .as atEnd)) fun _ s1 => runsAt s1 hA fun _ => true) ∧
    answers (scalarLoad (tcmEnd.toNat + 7) 1 false false (mk .as atEnd)) fun _ s1 => runsAt s1 hA fun _ => true :=
  ⟨⟨runs_as _, by decide +kernel⟩, by decide +kernel⟩

theorem witness_store :
    (∀ aligned ∈ [false, true], answers (scalarLocate .store tcmEnd.toNat 8 aligned (mk .as atEnd)) fun _ s1 =>
      runsAt s1 hA fun x1 => sendable x1 .as) ∧
    findHart (mk .as atEnd) hA.gang hA.hid = some (atEnd hart0) ∧ ∀ sl, Sendable (atEnd hart0) sl :=
  ⟨by decide +kernel, rfl, fun sl => of_sendable (by cases sl <;> decide +kernel)⟩

/-- A store to the held page sets D in its leaf. -/
theorem witness_storeToPage :
    answers (scalarLocate .store 0x1000 8 false (mapped (mk .as (aReg 6 0x1000)))) (fun f s1 =>
      f.leaves.length == 1 && runsAt s1 hA fun _ => true) = true := by decide +kernel

/-- A compressed access lies at register 30 and a multiple of 8. -/
theorem witness_compressedAccess :
    let s := mk .as (aReg 30 0xF00000FF00)
    let x := aReg 30 0xF00000FF00 hart0
    let va := (x.getReg .as 30 + BitVec.ofNat 64 (8 * (31 : BitVec 5).toNat)).toNat
    Runs s hA x ∧ x.touches va 8 = none ∧
    (answers (scalarLoad va 8 false false s) fun _ s1 => runsAt s1 hA fun _ => true) ∧
    answers (scalarLocate .store va 8 false s) fun _ s1 => runsAt s1 hA fun _ => true :=
  ⟨runs_as _, by decide +kernel⟩

theorem witness_tcm :
    let x := aReg 6 tcmEnd hart0
    let s := mk .as (aReg 6 tcmEnd)
    (Runs s hA x ∧ findGang s 0 = some (gang0 (aReg 6 tcmEnd)) ∧ findLaunch s 0 = some l0) ∧ x.tp.adjm = 0 ∧
    (∀ k, k < 8 → poisoned s (tcmPlace (gang0 id) x tcmEnd.toNat 0 + k) = false) ∧ (5 : RegField) ≠ 0 ∧
    (seen (exec (.sd 6 7 0) s) fun _ => ()) = some () :=
  ⟨⟨runs_as _, rfl, rfl⟩, by decide +kernel⟩

theorem witness_tcmBlock : inTcmBlock (aReg 6 tcmEnd hart0) (((aReg 6 tcmEnd hart0).getReg .as 6 + 0#64).toNat) 8 0 := by
  unfold inTcmBlock
  decide +kernel

theorem witness_accessChecks :
    Runs (mk .as id) hA hart0 ∧ hart0.tp.adjm = 0 ∧ canonical (0x0040000000000000 : Word).toNat = false ∧
    Config.tcmBase ≤ (0xF00000FFF9 : Word).toNat ∧ (0xF00007FFF8 : Word).toNat + 8 ≤ Config.tcmBase + Config.tcmBytes ∧
    (0xF00000FFF9 : Word).toNat % 8 ≠ 0 ∧ (0x1002 : Word).toNat % 4 ≠ 0 ∧ (0x1004 : Word).toNat % 8 ≠ 0 ∧
    (5 : BitVec 3).toNat ≤ 5 ∧ 6 ≤ (6 : BitVec 3).toNat :=
  ⟨runs_as id, by decide +kernel⟩

/-- An AMO at address 0x1000 of local HBM, which reads 0, with stores pending. -/
def amoHart (x : Hart) : Hart := aReg 6 0x1000 (storing x)
def amoState : State := mapped (mk .as amoHart)

theorem witness_atomic :
    Runs amoState hA (amoHart hart0) ∧ ∀ n ∈ [4, 8],
      answers (atomicLocate 0x1000 n amoState) (fun l s1 => l.locs.length == n &&
        runsAt s1 hA (fun x1 => sendable x1 .as && x1.touches 0x1000 n == none) &&
        answers (readLocs [] l.locs 0x1000 (drained s1 hA .as)) fun _ s2 => decide (s2 = drained s1 hA .as)) = true :=
  ⟨runs_mapped .as _, by decide +kernel⟩

/-! #### AdjointResults -/

/-- A region of 4-byte elements at 0xF000000100 whose cells lie at 0xF000000200, with a tape. -/
def region0 : Region := { pbase := 0xF000000100, adjbase := 0xF000000200, ctl := 0x8680000000000010, win := 0 }
def adjoint (mode : BitVec 2) (x : Hart) : Hart :=
  { aReg 6 0xF000000108 (storing x) with tp := { x.tp with
    adjm := mode, table := some [region0], tapeb := 0xF000000300, tapeh := 0xF000000310, tapel := 0xF000000320 } }

theorem witness_adjointCell :
    let s := mk .as (adjoint 0)
    let cell := region0.adjbase.toNat + 4 * (((adjoint 0 hart0).getReg .as 6).toNat - region0.pbase.toNat) / region0.size
    Runs s hA (adjoint 0 hart0) ∧ (adjoint 0 hart0).region ((adjoint 0 hart0).getReg .as 6).toNat 1 = some (0, region0) ∧
    (answers (scalarLoad cell 4 false false s) fun _ s1 => runsAt s1 hA fun _ => true) ∧
    (answers (scalarLocate .store cell 4 false s) fun _ s1 => runsAt s1 hA fun _ => true) ∧
    (adjoint 0 hart0).region ((adjoint 0 hart0).getReg .as 7).toNat 1 = none :=
  ⟨runs_as _, by decide +kernel⟩

theorem witness_tape :
    let t := (adjoint 1 hart0).tp
    (Runs (mk .as (adjoint 1)) hA (adjoint 1 hart0) ∧ Sendable (adjoint 1 hart0) .as) ∧
    (hart0.tp.adjm = 0 ∧ t.adjm = 1 ∧ t.tapeh.toNat + 16 ≤ t.tapel.toNat ∧ (t.tapel - 1).toNat < t.tapeh.toNat + 16) ∧
    (answers (locateHere .store t.tapeh.toNat 16 true (mk .as (adjoint 1))) fun _ s1 => runsAt s1 hA fun _ => true) ∧
    ((adjoint 2 hart0).tp.adjm = 2 ∧ t.tapeb.toNat + 16 ≤ t.tapeh.toNat ∧ (t.tapeb + 8).toNat < t.tapeb.toNat + 16) ∧
    (answers (loadBytes .as (t.tapeh.toNat - 16) 16 (mk .as (adjoint 2))) fun b s1 =>
      runsAt s1 hA (fun _ => true) && bytesToNat (b.take 8) == 0 && bytesToNat (b.drop 8) == 0) ∧
    t.tapeb.toNat ≤ t.tapeh.toNat ∧ t.tapeh.toNat % 8 = 0 ∧ (t.tapeh + 1).toNat % 8 ≠ 0 ∧
    (t.tapeb - 8).toNat < t.tapeb.toNat ∧ t.tapeh.toNat < (t.tapeh + 8).toNat :=
  ⟨⟨runs_as _, of_sendable (by decide +kernel)⟩, by decide +kernel⟩

/-! #### EngineCommands, NearBankAndLaunchCommands, CompletionResults -/

/-- A block of zeros at 0xF000000040, with stores pending. -/
def block (x : Hart) : Hart := aReg 6 0xF000000040 (storing x)
def blockState : State := mk .as block

theorem witness_copy :
    Runs blockState hA (block hart0) ∧ ((block hart0).getReg .as 6).toNat % 32 = 0 ∧
    answers (commandObject 0 true blockState) (fun _ s1 => answers (wideLoad 0xF000000040 32 s1) fun hd s2 =>
      runsAt s2 hA (fun _ => true) &&
        answers (wideLoad 0xF000000040 (32 + 24 * ((leWord hd 16).toNat / 2 ^ 10 % 16 + 1)) s2) fun _ s3 =>
          runsAt s3 hA (fun x3 => sendable x3 .as) && (findGang s3 hA.gang).any fun g =>
            decide (copiesAt s3 (g.die * 32 + g.gallery) < 64)) = true :=
  ⟨runs_as _, by decide +kernel⟩

theorem witness_collective :
    answers (commandObject 0 false blockState) (fun _ s1 => answers (wideLoad 0xF000000040 32 s1) fun _ s2 =>
      runsAt s2 hA (fun x2 => sendable x2 .as) && (findGang s2 hA.gang).any fun g => decide (collsAt s2 g.die < 256)) = true := by
  decide +kernel

/-- Copies that fill the gallery's queue, and collectives that fill the die's; a collective that has captured a route which
names this package for MEMB 0. -/
theorem witness_queues :
    64 ≤ copiesAt { blockState with ops := List.replicate 64 (forkedOp blockState hA 0 (.copy (parseCopy [] 0))) } 0 ∧
    256 ≤ collsAt { blockState with ops := List.replicate 256 (forkedOp blockState hA 0 (.coll 0 0 ⟨0, 0, 0, 0⟩)) } 0 ∧
    (let c : CollOp :=
       { id := 0, num := 0, route := some [blockState.dev.pkg.setWidth 8], members := [], ended := false, complete := false }
     let t := forked { blockState with colls := [c] } hA 0 (.coll 0 0 ⟨0, 0, 0, 0⟩)
     findColl t 0 (collNumber t 0 (⟨0, 0, 0, 0⟩ : CollDesc).memb t.colls.length 0) = some c ∧
     (c.route.bind fun r => r[(⟨0, 0, 0, 0⟩ : CollDesc).memb]?.map fun p => p.toNat) = some t.dev.pkg.toNat) := by
  decide +kernel

/-- A near-bank command whose windows are all empty, at channel 511. -/
theorem witness_nearBank :
    ((block hart0).getReg .as 6).toNat % 64 = 0 ∧ ((aReg 7 511 hart0).getReg .as 7).toNat ≤ 511 ∧
    answers (commandObject 0 false blockState) (fun _ s1 => answers (wideLoad 0xF000000040 192 s1) fun blk s2 =>
      runsAt s2 hA (fun _ => true) &&
        answers (((List.range 8).mapM fun j => nbeWindow (noWindows s2 hA) 511 (leWord blk (16 * j)) (leWord blk (16 * j + 8))) s2)
          fun _ s3 => runsAt s3 hA (fun x3 => sendable x3 .as) &&
            decide ((findNbe s3 511).queue.length < (if (findNbe s3 511).run.isNone then 33 else 32))) = true := by
  decide +kernel

/-- A window of 16 bytes that it writes on the held page, which maps it to channel 0, and one of length 0. -/
theorem witness_window :
    let s := mapped (mk .as id)
    let w : Word := 0x8000000000000010
    (w.toNat % 2 ^ 48 ≠ 0 ∧ canonical (0x1000 : Word).toNat = true ∧ (0 : Word).toNat % 2 ^ 48 = 0) ∧
    answers (pageLeaf (noWindows s hA) (if w.getLsbD 62 || !w.getLsbD 63 then .load else .store) (w.getLsbD 62 || w.getLsbD 63)
      0x1000 0x1000 s) (fun leaf s1 => pteW leaf.pte && pteLOC leaf.pte == 0 &&
        decide (0x1000 % 2 ^ pageBits leaf.level + 16 ≤ 2 ^ pageBits leaf.level) &&
        (let d := descWords s1 (pteIR leaf.pte)
         ilEn d.1 && decide (ilBase d.1 ≤ 0x1000 ∧ 0x1010 ≤ ilBase d.1 + ilSize d.2) && ilMode d.1 == 1 && ilChan d.2 == 0)) = true := by
  decide +kernel

/-- A launch record of zeros, which the port takes or refuses at once. -/
theorem witness_launch :
    answers (commandObject 0 false blockState) (fun _ s1 => answers (wideLoad 0xF000000040 64 s1) fun r s2 =>
      runsAt s2 hA (fun x2 => sendable x2 .as) &&
        (let t := drained s2 hA .as
         !holdsFor t 0 && (portWrite t 0 0 r (some (hartXlat s2 0 0).asid)).1 != .stalls)) = true := by
  decide +kernel

theorem witness_commandChecks :
    ((aReg 6 0xF000000010 hart0).getReg .as 6).toNat % 32 ≠ 0 ∧ ((aReg 6 0xF000000020 hart0).getReg .as 6).toNat % 64 ≠ 0 ∧
    511 < ((aReg 7 512 hart0).getReg .as 7).toNat := by decide +kernel

theorem witness_addition :
    let s := mk .as id
    s.mem.wf = true ∧ (locRange at1000 8).length = 8 ∧ (locRange at1000 8).Nodup ∧ (locRange at1000 8).any (poisoned s) = false ∧
    (locRange at1000 8).any (poisoned { s with poison := [at1000 / 32] }) = true := by decide +kernel

theorem witness_cwait :
    let s := mk .as fun x => aReg 7 1 (block x)
    let x := aReg 7 1 (block hart0)
    ∃ v, Runs s hA x ∧ observeWord (x.getReg .as 6) s = .ok v s ∧ (x.getReg .as 8).toNat ≤ v.toNat % 2 ^ 63 ∧
    v.toNat % 2 ^ 63 < (x.getReg .as 7).toNat :=
  ⟨_, runs_as _, observeWord_tcm (runs_as _) rfl rfl in_tcm (by decide +kernel) (by decide +kernel) (fun _ _ => rfl), by decide +kernel⟩

theorem witness_csig :
    answers (objectCheck (hartXlat blockState 0 0) ((block hart0).getReg .as 6) blockState) (fun _ s1 =>
      runsAt s1 hA (fun x1 => sendable x1 .as) &&
        answers (objectPlace (hartXlat blockState 0 0) ((block hart0).getReg .as 6) (drained s1 hA .as)) fun q s2 =>
          runsAt s2 hA (fun _ => true) && q.2.2.isNone) = true := by decide +kernel

/-- An object on a page of package 5, whose route entry is valid and names only a link that is not live. -/
def cutOffState : State :=
  let s := setDevReg (mk .as block) 0x40028 0x10001
  { s with
    tlb := [{ gallery := 0, asid := 0, level := 3, vpn := 0, pte := BitVec.ofNat 64 (5 * 2 ^ 46 + 0x86F), pteLoc := 2048 }]
    dev := { s.dev with links := Vector.replicate 16 { live := false, lanes := 8 } } }

theorem witness_csigWaits :
    answers (objectCheck (hartXlat cutOffState 0 0) 0x1000 cutOffState) (fun _ s1 =>
      runsAt s1 hA (fun x1 => sendable x1 .as) &&
        answers (objectPlace (hartXlat cutOffState 0 0) 0x1000 (drained s1 hA .as)) fun q s2 =>
          runsAt s2 hA (fun _ => true) && q.2.2.isSome) = true := by decide +kernel

/-! #### VectorQueueResults, VectorElementResults -/

/-- The hart with a vector length and formats. -/
def vec (vl vfmt : Word) (x : Hart) : Hart := { x with vc := { x.vc with vl := vl, vfmt := vfmt } }
/-- Register 1 and register 2 of the hart. -/
def regs (r1 r2 : VReg) (x : Hart) : Hart := (x.setVreg 1 r1).setVreg 2 r2
/-- Three bytes 0xFF, 0x01, 0x02, and 0x02, 0x03, 0x04. -/
def bytes (x : Hart) : Hart := regs { bits := 0x0201FF, fill := 24 } { bits := 0x040302, fill := 24 } x
/-- Both registers' elements in the format n8, and what a source holds otherwise. -/
def atA (x : Hart) (k : Nat) : Opnd :=
  (vecOpnd (vfFA x.vc.vfmt) x.vc.vfmt (x.vreg 1) k).getD { pat := 0, len := 0, val := .int 0, scalar := false }
def atB (x : Hart) (k : Nat) : Opnd :=
  (vecOpnd (vfFB x.vc.vfmt) x.vc.vfmt (x.vreg 2) k).getD { pat := 0, len := 0, val := .int 0, scalar := false }

/-- The same CS, running ahead of its queue. -/
def goingAhead (f : Hart → Hart) : State := { mk .cs f with cur := .ahead 0 0 }
theorem runs_ahead (f : Hart → Hart) : Runs (goingAhead f) hC (f hart0) := ⟨rfl, rfl⟩

theorem witness_ahead :
    Runs (goingAhead id) hC hart0 ∧ (goingAhead id).ahead = true ∧ hart0.viq.length < 16 ∧ (goingAhead id).agenda = [] ∧
    (goingAhead id).cur = .ahead 0 0 ∧ Runs (goingAhead fun x => { x with zlive := true }) hC { hart0 with zlive := true } :=
  ⟨runs_ahead _, rfl, by decide +kernel, rfl, rfl, runs_ahead _⟩

theorem witness_enters :
    Runs (mk .cs queuedOne) hC (queuedOne hart0) ∧ Claims.vWord (.vadd (ops 3 1 2)) = some (.vadd, ops 3 1 2) ∧
    ¬ isZ (.vadd (ops 3 1 2)) ∧ (queuedOne hart0).viq ≠ [] ∧ (queuedOne hart0).viq.length < 16 ∧
    Runs (mk .cs queuedFull) hC (queuedFull hart0) ∧ 16 ≤ (queuedFull hart0).viq.length ∧
    Claims.vWord (.zzero (ops 3 0 0)) = some (.zzero, ops 3 0 0) ∧ isZ (.zzero (ops 3 0 0)) ∧ hart0.zlive = false ∧
    Runs (mk .cs fun x => { queuedOne x with zlive := true }) hC { queuedOne hart0 with zlive := true } :=
  ⟨runs_cs _, rfl, id, by decide +kernel, by decide +kernel, runs_cs _, by decide +kernel, rfl, trivial, rfl, runs_cs _⟩

/-- A stream of numbers in the TCM: kind 0, a format, n elements, read or written. -/
def lin (fmt n : Nat) (wr : Bool) (base : Word := 0xF000000100) : Desc :=
  { base := base, cfg := BitVec.ofNat 64 (fmt * 2 ^ 54 + (if wr then 2 ^ 53 else 0) + n), stride := 0 }
def adopts (r : BitVec 5) (d : Desc) (x : Hart) : Hart := x.setStream r { x.stream r with adopted := some d }

theorem witness_snext :
    let f (x : Hart) := x.setStream 1 { x.stream 1 with queue := [{ desc := lin 0x06 4 false, dfault := none }] }
    Runs (mk .cs f) hC (f hart0) ∧ (f hart0).viq = [] ∧
    ((f hart0).stream (ops 0 1 0).a).queue = [{ desc := lin 0x06 4 false, dfault := none }] ∧
    Runs (mk .cs id) hC hart0 ∧ hart0.viq.length < 16 ∧ (hart0.stream 1).queue = [] :=
  ⟨runs_cs _, rfl, by decide +kernel, runs_cs id, by decide +kernel, rfl⟩

theorem witness_reservedFormat :
    Starts (mk .cs (vec 2 0x1F)) hC (vec 2 0x1F hart0) ∧ (vec 2 0x1F hart0).viq = [] ∧
    Claims.vWord (.vadd (ops 3 1 2)) = some (.vadd, ops 3 1 2) ∧ ¬ isZ (.vadd (ops 3 1 2)) ∧
    vfmtReserved (vec 2 0x1F hart0).vc.vfmt = true := ⟨starts_cs _, rfl, rfl, id, by decide +kernel⟩

/-- `vadd` of two bytes in n8, which fills its limit exactly. -/
def addHart (x : Hart) : Hart := { vec 2 0x18C6 (bytes x) with vc := { (vec 2 0x18C6 (bytes x)).vc with vcap := 16 } }
def addRow : ElemRow := intRow .vadd .I (· + ·)

theorem addRow_mem : addRow ∈ elemRows := by
  unfold elemRows
  exact List.mem_append_left _ (List.mem_append_left _ (List.mem_cons_self ..))

theorem addRow_formats (x : Hart) (h : x.vc.vfmt = 0x18C6 := by rfl) : addRow.Formats x (ops 3 1 2) :=
  ⟨by rw [h]; decide, by rw [h]; decide, fun _ => Or.inl (by decide), fun _ => Or.inr (Or.inl (by decide))⟩

theorem lt_two {p : Nat → Prop} (h0 : p 0) (h1 : p 1) : ∀ k, k < 2 → p k := by
  intro k hk
  rcases (by omega : k = 0 ∨ k = 1) with rfl | rfl <;> assumption

theorem witness_element :
    let x := addHart hart0
    Starts (mk .cs addHart) hC x ∧ x.viq = [] ∧ findLaunch (mk .cs addHart) 0 = some l0 ∧ addRow ∈ elemRows ∧
    addRow.Formats x (ops 3 1 2) ∧ addRow.Ready x (ops 3 1 2) (atA x) (atB x) 2 ∧
    addRow.fits x (ops 3 1 2) l0 (atA x) (atB x) 2 ∧ x.vc.vstart.toNat ≤ x.vc.vl.toNat ∧ x.vc.vl.toNat = 2 := by
  refine ⟨starts_cs _, rfl, rfl, addRow_mem, addRow_formats _, ⟨?_, ?_, ?_, ?_, ?_, ?_⟩,
    Or.inl (by decide +kernel), by decide +kernel, by decide +kernel⟩
  · exact fun _ => lt_two (by decide +kernel) (by decide +kernel)
  · exact fun _ => lt_two (by decide +kernel) (by decide +kernel)
  · exact fun h => absurd h (by decide)
  · exact fun _ _ => lt_two (fun _ => by decide +kernel) (fun _ => by decide +kernel)
  · exact fun _ _ _ => lt_two (fun _ => by decide +kernel) (fun _ => by decide +kernel)
  · exact fun h => absurd h (by decide)

/-- `vrepack` of two codes of jxi16, a code destination. -/
def packHart (x : Hart) : Hart := vec 2 0x4210 (regs { bits := 0x44, fill := 8 } { bits := 0, fill := 0 } x)
noncomputable def packRow : ElemRow := codeRow .vrepack (fun fa fd => fmtCode fa && fmtCode fd) (fun fa fd => fa == 0x13 || fd == 0x13) true

theorem witness_codeElement :
    let x := packHart hart0
    Starts (mk .cs packHart) hC x ∧ packRow ∈ elemRows ∧ packRow.Formats x (ops 3 1 0) ∧
    packRow.Ready x (ops 3 1 0) (atA x) (atB x) 2 ∧ packRow.fits x (ops 3 1 0) l0 (atA x) (atB x) 2 ∧
    x.vc.vstart.toNat ≤ x.vc.vl.toNat := by
  refine ⟨starts_cs _, by unfold elemRows packRow; simp, ⟨by decide +kernel, by decide +kernel, fun _ => Or.inl (by decide), fun h => ?_⟩,
    ⟨?_, ?_, ?_, ?_, ?_, ?_⟩, Or.inr (by decide +kernel), by decide +kernel⟩
  · rcases h with h | h <;> exact absurd h (by decide)
  · exact fun _ => lt_two (by decide +kernel) (by decide +kernel)
  · exact fun h => absurd h (by decide)
  · exact fun h => absurd h (by decide)
  · exact fun _ _ => lt_two (fun _ => by decide +kernel) (fun _ => by decide +kernel)
  · exact fun _ h => absurd h (by decide)
  · exact fun h => absurd h (by decide)

/-- `vadd` at index 1: source a holds one element; or the limit has room for one. -/
theorem witness_stops :
    let x := vec 2 0x18C6 (regs { bits := 0xFF, fill := 8 } { bits := 0x0302, fill := 16 } hart0)
    let y := { addHart hart0 with vc := { (addHart hart0).vc with vcap := 8 } }
    addRow.Formats x (ops 3 1 2) ∧ addRow.Formats y (ops 3 1 2) ∧ 1 ≤ addRow.reads ∧ vecOpnd (vfFA x.vc.vfmt) x.vc.vfmt (x.vreg 1) 1 = none ∧ addRow.fits x (ops 3 1 2) l0 (atA x) (atB x) 1 ∧
    1 < x.vc.vl.toNat ∧ addRow.fits y (ops 3 1 2) l0 (atA y) (atB y) 1 ∧ ¬ addRow.fits y (ops 3 1 2) l0 (atA y) (atB y) 2 := by
  refine ⟨addRow_formats _, addRow_formats _, by decide, by decide +kernel, Or.inl (by decide +kernel), by decide +kernel, Or.inl (by decide +kernel), fun h => ?_⟩
  rcases h with h | h
  · exact absurd h.2 (by decide +kernel)
  · exact absurd h.1 (by decide +kernel)

/-- `vfcvt` of a reserved code of jxr16 to f32. -/
theorem witness_reservedCode :
    let x := vec 1 (BitVec.ofNat 64 (0x12 + 0x0D * 2 ^ 10)) (regs { bits := 32, fill := 6 } { bits := 0, fill := 0 } hart0)
    x.viq = [] ∧ vecOpnd (vfFA x.vc.vfmt) x.vc.vfmt (x.vreg 1) 0 = some (atA x 0) ∧
    patReserved (vfFA x.vc.vfmt) (atA x 0).pat (atA x 0).len = true ∧ fmtWidth (vfFD x.vc.vfmt) * (0 + 1) ≤ destLimit x l0 ∧
    vfmtReserved x.vc.vfmt = false ∧ clsOk .F (vfFA x.vc.vfmt) 0 (vfFD x.vc.vfmt) false true = true ∧ 0 < x.vc.vl.toNat :=
  ⟨rfl, by decide +kernel⟩

/-! #### MaskResults, ReductionResults, PermuteResults, CodeMoveAndElementResults -/

theorem witness_compare :
    let x := vec 2 0x18C6 (bytes hart0)
    Starts (mk .cs fun x => vec 2 0x18C6 (bytes x)) hC x ∧ vfmtReserved x.vc.vfmt = false ∧
    intCompareRow .vmeq (fun a b => decide (a = b)) ∈ compareRows ∧
    clsOk .C (vfFA x.vc.vfmt) (vfFB x.vc.vfmt) 0 true false = true ∧ x.vc.vstart.toNat ≤ 2 ∧
    (∀ k, k < 2 → vecOpnd (vfFA x.vc.vfmt) x.vc.vfmt (x.vreg 1) k = some (atA x k) ∧
      patReserved (vfFA x.vc.vfmt) (atA x k).pat (atA x k).len = false) ∧
    (∀ k, k < 2 → bOpnd x (ops 3 1 2) k = some (atB x k) ∧
      patReserved (vfFB x.vc.vfmt) (atB x k).pat (atB x k).len = false) :=
  ⟨starts_cs _, by decide +kernel, List.mem_cons_self .., by decide +kernel, by decide +kernel,
    lt_two (by decide +kernel) (by decide +kernel), lt_two (by decide +kernel) (by decide +kernel)⟩

theorem witness_reduce :
    let x := vec 2 0x18C6 (bytes hart0)
    let res := (intReduceRow .vredsum (· + ·)).val x.vc.vfmt (atB x 0) ((activeFrom x (ops 3 1 2)).map fun i => (i, atA x i)) 0 2
    clsOk .I (vfFA x.vc.vfmt) (vfFB x.vc.vfmt) (vfFD x.vc.vfmt) true true = true ∧ bOpnd x (ops 3 1 2) 0 = some (atB x 0) ∧
    patReserved (vfFB x.vc.vfmt) (atB x 0).pat (atB x 0).len = false ∧ res.2 ≤ destLimit x l0 ∧
    fmtB1 (vfFD x.vc.vfmt) = false ∧ (encodeIntTo x.vc.vfmt (vfFD x.vc.vfmt) (-1)).2 ≤ destLimit x l0 := by decide +kernel

/-- `vrev` of two elements, in n8 and in jxi16. -/
theorem witness_permute :
    let row : PermRow := { word := .vrev, ok := sameFmt, get := fun x o i => elemA x o.a (x.vc.vl.toNat - 1 - i) }
    let x := vec 2 0x18C6 (bytes hart0)
    let y := packHart hart0
    row ∈ permRows ∧ row.ok (vfFA x.vc.vfmt) (vfFB x.vc.vfmt) (vfFD x.vc.vfmt) = true ∧ (ops 3 1 0).d ≠ (ops 3 1 0).a ∧
    row.readsB = false ∧ (∀ i, i < 2 → row.get x (ops 3 1 0) i = some (if i = 0 then (0x01, 8) else (0xFF, 8))) ∧
    fmtFixed (vfFD x.vc.vfmt) = true ∧ fmtWidth (vfFD x.vc.vfmt) * 2 ≤ destLimit x l0 ∧
    (∀ i, i < 2 → row.get y (ops 3 1 0) i = some (4, 4)) ∧ fmtCode (vfFD y.vc.vfmt) = true ∧ y.vc.vstart = 0 ∧
    row.place y (ops 3 1 0) (fun _ => (4, 4)) 2 ≤ destLimit y l0 := by
  refine ⟨?_, by decide +kernel, by decide, rfl, lt_two (by decide +kernel) (by decide +kernel), by decide +kernel,
    by decide +kernel, lt_two (by decide +kernel) (by decide +kernel), by decide +kernel, rfl, by decide +kernel⟩
  unfold permRows
  simp

theorem witness_codeMove :
    let x := packHart (cReg 4 8 hart0)
    let z := packHart (cReg 4 7 hart0)
    (∀ i, i < 2 → elemA x 1 i = some (4, 4)) ∧ fmtCode (vfFA x.vc.vfmt) = true ∧ vfFD x.vc.vfmt = vfFA x.vc.vfmt ∧
    lensBelow (fun _ => (4, 4)) 2 ≤ (scalarOf x (opsS 0 1 4)).toNat ∧
    lensBelow (fun _ => (4, 4)) 1 ≤ (scalarOf z (opsS 0 1 4)).toNat ∧
    (scalarOf z (opsS 0 1 4)).toNat < lensBelow (fun _ => (4, 4)) (1 + 1) ∧
    (x.vreg 3).fill + lensBelow (fun _ => (4, 4)) 2 ≤ destLimit x l0 ∧ (3 : BitVec 5) ≠ 1 ∧ x.vc.vstart = 0 :=
  ⟨lt_two (by decide +kernel) (by decide +kernel), by decide +kernel⟩

theorem witness_oneElement :
    let x := vec 2 0x18C6 (bytes (cReg 4 2 hart0))
    let o := opsS 2 1 4
    elemA x 1 (scalarOf x o).toNat = some (0x02, 8) ∧ 8 ≤ destLimit x l0 ∧ vfFD x.vc.vfmt = vfFA x.vc.vfmt ∧
    elemA x 1 0 = some (0xFF, 8) ∧ elem (vfFA x.vc.vfmt) (x.vreg 2) 2 = some (0x04, 8) ∧
    (x.vreg 2).fill - 8 + 8 ≤ destLimit x l0 ∧ elemA x 1 (scalarOf (cReg 4 3 x) o).toNat = none ∧
    0 + (x.vreg 1).fill ≤ (x.vreg 2).fill ∧ (x.vreg 2).fill < 1 + (x.vreg 1).fill := by decide +kernel

/-! #### VectorLoadResults, VectorStoreResults, IndexedAndColumnResults -/

/-- The bytes of the hart's TCM at va, as its CS sees them. -/
def tcmBytes (f : Hart → Hart) (va n : Nat) : List Byte :=
  (locRange (tcmAt (gang0 f) (f hart0) va 0) n).map (seenByte (mk .cs f) (f hart0).cbuf)
/-- Where they are. -/
def tcmFound (f : Hart → Hart) (va n : Nat) : Found := { locs := locRange (tcmAt (gang0 f) (f hart0) va 0) n, kinds := [4] }

theorem bytes_stay (f : Hart → Hart) {va n : Nat} (i : InTcm (f hart0) va n 0) (hn : 0 < n := by decide) :
    stays (mk .cs f) (loadBytes .cs va n) (tcmBytes f va n) := loads .cs f i hn .cs

theorem place_stays (f : Hart → Hart) {va n : Nat} (i : InTcm (f hart0) va n 0) (hn : 0 < n := by decide) (acc : Acc := .store) :
    stays (mk .cs f) (locateHere acc va n) (tcmFound f va n) := locates .cs f i hn acc true

/-- A stream has adopted d, with no fault recorded and nothing read ahead. -/
theorem on_stream {x : Hart} {r : BitVec 5} {d : Desc}
    (h : (x.stream r).adopted = some d ∧ (x.stream r).dfault = none ∧ (x.stream r).walk = []) : OnStream x r d :=
  ⟨h.1, h.2.1, h.2.2⟩

/-- Stream 1 of two bytes to read. -/
def loadHart (x : Hart) : Hart := vec 2 0x18C6 (adopts 1 (lin 0x06 2 false) x)

theorem witness_vLoad :
    let x := loadHart hart0
    let d := lin 0x06 2 false
    Starts (mk .cs loadHart) hC x ∧ x.viq = [] ∧ findLaunch (mk .cs loadHart) 0 = some l0 ∧ vfmtReserved x.vc.vfmt = false ∧
    (hart0.stream 1).adopted = none ∧ 0 < x.vc.vl.toNat ∧ OnStream x 1 d ∧ d.wr = false ∧ x.tp.adjm = 0 ∧ d.kind ≤ 1 ∧
    fmtFixed d.fmt = true ∧ (x.stream 1).pos + 2 ≤ d.len ∧ fmtWidth d.fmt * 2 ≤ destLimit x l0 ∧
    ∀ i, i < 2 → stays (mk .cs loadHart) (loadBytes .cs (d.elemAt i 8).va (d.elemAt i 8).bytes)
      (tcmBytes loadHart (0xF000000100 + i) 1) := by
  refine ⟨starts_cs _, rfl, rfl, by decide +kernel, rfl, by decide +kernel, on_stream (by decide +kernel),
    by decide +kernel, rfl, by decide +kernel, by decide +kernel, by decide +kernel, by decide +kernel, lt_two ?_ ?_⟩
  · exact bytes_stay loadHart (va := 0xF000000100) in_tcm
  · exact bytes_stay loadHart (va := 0xF000000101) in_tcm

/-- An arrival counter at 0xF000000080 of which the CS's own pending store makes 16. -/
def countedHart (x : Hart) : Hart :=
  { cReg 4 0xF000000080 (loadHart x) with
    cbuf := [{ cells := [(tcmLoc 0 0x80, 16)] }] }

theorem witness_vLoadCounted :
    Starts (mk .cs countedHart) hC (countedHart hart0) ∧ (lin 0x06 2 false).kind = 0 ∧
    (scalarOf (countedHart hart0) (opsS 3 1 4)).toNat % 8 = 0 ∧ ∃ f b,
      stays (mk .cs countedHart) (locateHere .atomic (scalarOf (countedHart hart0) (opsS 3 1 4)).toNat 8) f ∧
      stays (mk .cs countedHart) (readLocs (countedHart hart0).cbuf f.locs (scalarOf (countedHart hart0) (opsS 3 1 4)).toNat) b ∧
      (8 * (0 + 2) + 7) / 8 ≤ bytesToNat b := by
  refine ⟨starts_cs _, by decide +kernel, by decide +kernel, _, _, place_stays countedHart (va := 0xF000000080) in_tcm (acc := .atomic),
    readLocs_run _ _ _ fun _ _ => rfl, ?_⟩
  decide +kernel

/-- Stream 1 of two codes of jxi16, 4 bits each. -/
def codes : Desc := { base := 0xF000000100, cfg := BitVec.ofNat 64 (2 * 2 ^ 62 + 0x10 * 2 ^ 54 + 8), stride := 0 }
def codeHart (x : Hart) : Hart := vec 2 0x4210 (adopts 1 codes x)

theorem witness_vLoadCodes :
    let x := codeHart hart0
    let b := tcmBytes codeHart 0xF000000100 1
    Starts (mk .cs codeHart) hC x ∧ vfmtReserved x.vc.vfmt = false ∧ OnStream x 1 codes ∧ codes.wr = false ∧ x.vc.vstart = 0 ∧
    codes.kind = 2 ∧ fmtCode codes.fmt = true ∧ (x.stream 1).pos = 0 ∧
    (∀ i, i < 2 → 4 * (i + 1) ≤ codes.len ∧
      stays (mk .cs codeHart) (loadBytes .cs (codes.elemAt (4 * i) 2).va (codes.elemAt (4 * i) 2).bytes) b ∧
      4 = codeLen codes.fmt (bitsOf (bytesToNat b) (codes.elemAt (4 * i) 2).off 2) ∧
      stays (mk .cs codeHart) (loadBytes .cs (codes.elemAt (4 * i) 4).va (codes.elemAt (4 * i) 4).bytes) b) ∧
    lensBelow (fun _ => (0, 4)) 2 ≤ destLimit x l0 := by
  have r := bytes_stay codeHart (va := 0xF000000100) (n := 1) in_tcm
  exact ⟨starts_cs _, by decide +kernel, on_stream (by decide +kernel), by decide +kernel, rfl,
    by decide +kernel, by decide +kernel, rfl,
    lt_two ⟨by decide +kernel, r, by decide +kernel, r⟩ ⟨by decide +kernel, r, by decide +kernel, r⟩, by decide +kernel⟩

/-- Stream 3 of two bytes to write; `vst` stores register 2. -/
def storeHart (x : Hart) : Hart := vec 2 0x18C6 (bytes (adopts 3 (lin 0x06 2 true) x))

theorem witness_vStore :
    let x := storeHart hart0
    let d := lin 0x06 2 true
    let f (i : Nat) := tcmFound storeHart (0xF000000100 + i) 1
    Starts (mk .cs storeHart) hC x ∧ (hart0.stream 3).adopted = none ∧ 0 < x.vc.vl.toNat ∧ OnStream x 3 d ∧ d.wr = true ∧
    d.kind ≤ 1 ∧ fmtFixed d.fmt = true ∧ fmtWidth d.fmt = 8 ∧ (x.stream 3).pos + 2 ≤ d.len ∧ 8 * 2 ≤ (x.vreg 2).fill ∧
    activeFrom x (ops 3 0 2) = [0, 1] ∧
    (∀ i, i < 2 → stays (mk .cs storeHart) (locateHere .store (d.elemAt i 8).va 1) (f i) ∧ (f i).locs.length = 1) ∧
    ([0, 1].flatMap fun i => (f i).locs).Nodup := by
    refine ⟨starts_cs _, rfl, ?_, ⟨?_, ?_, ?_⟩, ?_, ?_, ?_, ?_, ?_, ?_, ?_,
      lt_two ⟨place_stays storeHart (va := 0xF000000100) in_tcm, ?_⟩ ⟨place_stays storeHart (va := 0xF000000101) in_tcm, ?_⟩, ?_⟩
    all_goals decide +kernel

/-- Stream 3 of two words to write or to read, and register 2 of 24 bits. -/
def spillHart (wr : Bool) (x : Hart) : Hart := vec 2 0x18C6 (bytes (adopts 3 (lin 0x09 2 wr) x))

theorem witness_vSpill :
    let x := spillHart true hart0
    let d := lin 0x09 2 true
    let f (i : Nat) := tcmFound (spillHart true) (0xF000000100 + 8 * i) 8
    Starts (mk .cs (spillHart true)) hC x ∧ OnStream x 3 d ∧ d.wr = true ∧ d.kind = 0 ∧ d.fmt = 0x09 ∧ x.vc.vstart = 0 ∧
    1 + ((x.vreg 2).fill + 63) / 64 = 2 ∧ (x.stream 3).pos + 2 ≤ d.len ∧
    (∀ j, j < 2 → stays (mk .cs (spillHart true)) (locateHere .store (d.elemAt (0 + j) 64).va 8) (f j) ∧ (f j).locs.length = 8) ∧
    ((List.range 2).flatMap fun j => (f j).locs).Nodup :=
  ⟨starts_cs _, on_stream (by decide +kernel), by decide +kernel, by decide +kernel, by decide +kernel,
    rfl, by decide +kernel, by decide +kernel,
    lt_two ⟨place_stays (spillHart true) (va := 0xF000000100) in_tcm, by decide +kernel⟩
      ⟨place_stays (spillHart true) (va := 0xF000000108) in_tcm, by decide +kernel⟩, by decide +kernel⟩

theorem witness_vFill :
    let x := spillHart false hart0
    let d := lin 0x09 2 false
    let b := tcmBytes (spillHart false) 0xF000000100 8
    Starts (mk .cs (spillHart false)) hC x ∧ OnStream x 3 d ∧ d.wr = false ∧ d.kind = 0 ∧ d.fmt = 0x09 ∧ x.vc.vstart = 0 ∧
    1 + (bytesToNat b + 63) / 64 = 1 ∧ (x.stream 3).pos + 1 ≤ d.len ∧ bytesToNat b ≤ registerBits l0 ∧
    stays (mk .cs (spillHart false)) (loadBytes .cs (d.elemAt 0 64).va 8) b ∧ bytesToNat b < 2 ^ 64 :=
  ⟨starts_cs _, on_stream (by decide +kernel), by decide +kernel, by decide +kernel, by decide +kernel,
    rfl, by decide +kernel, by decide +kernel, by decide +kernel, bytes_stay (spillHart false) (va := 0xF000000100) in_tcm,
    by decide +kernel⟩

/-- Streams 1 to read and 3 to write; the index registers 1 and 2 hold 0xFF (read as it is in n8), 1 and 2, and 2, 3 and 4. -/
def indexHart (x : Hart) : Hart := adopts 1 (lin 0x06 2 false) (storeHart x)

theorem witness_vIndexed :
    let x := indexHart hart0
    let r := lin 0x06 2 false
    let w := lin 0x06 2 true
    let va (i : Nat) : Nat := 0xF000000100 + if i = 0 then 255 else 1
    intOrJxi (vfFB x.vc.vfmt) = true ∧ (x.stream 1).adopted = some r ∧ (x.stream 3).adopted = some w ∧ r.wr = false ∧ w.wr = true ∧
    8 ≤ fmtWidth r.fmt ∧ fmtWidth r.fmt * 2 ≤ destLimit x l0 ∧ (4 : BitVec 5) ≠ 1 ∧
    (∀ i, i < 2 → elem (vfFB x.vc.vfmt) (x.vreg 1) i = some (if i = 0 then 255 else 1, 8)) ∧
    activeFrom x (ops 4 1 1) = [0, 1] ∧ activeFrom x (ops 3 1 2) = [0, 1] ∧ fmtWidth w.fmt * 2 ≤ (x.vreg 2).fill ∧
    (∀ i, i < 2 →
      (r.base + (patValue (vfFB x.vc.vfmt) 0 (if i = 0 then 255 else 1)).word * BitVec.ofNat 64 (8 / 8)).toNat = va i ∧
      stays (mk .cs indexHart) (loadBytes .cs (va i) 1) (tcmBytes indexHart (va i) 1) ∧
      stays (mk .cs indexHart) (locateHere .store (va i) 1) (tcmFound indexHart (va i) 1) ∧
      (tcmFound indexHart (va i) 1).locs.length = 1) ∧
    ([0, 1].flatMap fun i => (tcmFound indexHart (va i) 1).locs).Nodup := by
  refine ⟨?_, ?_, ?_, ?_, ?_, ?_, ?_, ?_, lt_two ?_ ?_, ?_, ?_, ?_,
    lt_two ⟨?_, bytes_stay indexHart (va := 0xF0000001FF) in_tcm, place_stays indexHart (va := 0xF0000001FF) in_tcm, ?_⟩
      ⟨?_, bytes_stay indexHart (va := 0xF000000101) in_tcm, place_stays indexHart (va := 0xF000000101) in_tcm, ?_⟩, ?_⟩
  all_goals decide +kernel

/-- A column of one element in the chamber, whose block 0 the gang holds. -/
def columnDesc : Desc := { lin 0x06 1 false with base := BitVec.ofNat 64 Config.chamberBase }
def columnHart (x : Hart) : Hart := vec 1 0x18C6 (bytes (adopts 1 columnDesc x))
def columnGang : Gang := { gang0 columnHart with chamber := [(0, 0)] }
def columnState : State := { mk .cs columnHart with gangs := [columnGang] }

theorem witness_vColumn :
    let x := columnHart hart0
    Starts columnState hC x ∧ findLaunch columnState 0 = some l0 ∧ columnDesc.kind = 0 ∧ fmtFixed columnDesc.fmt = true ∧
    (x.stream 1).adopted = some columnDesc ∧ columnDesc.wr = false ∧ 8 ≤ destLimit x l0 ∧ activeFrom x (ops 3 1 0) = [0] ∧
    Config.chamberBase + 8 / 8 ≤ Config.chamberBase + Config.chamberBytes ∧
    ∃ b, stays columnState (loadBytes .cs (columnDesc.base + BitVec.ofNat 64 0 * x.getReg .cs 4 + BitVec.ofNat 64 0).toNat 1) b := by
  refine ⟨⟨⟨rfl, rfl⟩, rfl⟩, rfl, ?_, ?_, ?_, ?_, ?_, ?_, ?_, [0], of_gives ?_⟩
  all_goals decide +kernel

/-- Streams 1 and 2 to write: the second's column starts at 0xF000000140. -/
def bothDesc : Desc := { lin 0x06 2 true with base := 0xF000000140 }
def bothHart (x : Hart) : Hart := cReg 4 64 (adopts 2 bothDesc (adopts 1 (lin 0x06 2 true) (storeHart x)))

theorem witness_vBoth :
    let x := bothHart hart0
    let d := lin 0x06 2 true
    let f (i : Nat) := tcmFound bothHart (0xF000000100 + i) 1
    let g (i : Nat) := tcmFound bothHart (0xF000000140 + 64 * i) 1
    Starts (mk .cs bothHart) hC x ∧ OnStream x 1 d ∧ (x.stream ((2 : BitVec 4).setWidth 5)).adopted = some bothDesc ∧
    d.wr = true ∧ bothDesc.wr = true ∧ bothDesc.kind = 0 ∧ bothDesc.fmt = d.fmt ∧ 8 * 2 ≤ (x.vreg 2).fill ∧
    (x.stream 1).pos + 2 ≤ d.len ∧ activeFrom x (ops 0 1 2) = [0, 1] ∧
    (∀ i, i < 2 → stays (mk .cs bothHart) (locateHere .store (d.elemAt (0 + i) 8).va 1) (f i) ∧
      stays (mk .cs bothHart) (locateHere .store
        (bothDesc.base + BitVec.ofNat 64 (i % 64) * x.getReg .cs 4 + BitVec.ofNat 64 (i / 64 * (8 / 8))).toNat 1) (g i) ∧
      (f i).dev = false ∧ (g i).dev = false ∧ (f i).locs.length = 1 ∧ (g i).locs.length = 1) ∧
    ([0, 1].flatMap fun i => (f i).locs ++ (g i).locs).Nodup := by
    refine ⟨starts_cs _, ⟨?_, ?_, ?_⟩, ?_, ?_, ?_, ?_, ?_, ?_, ?_, ?_,
      lt_two ⟨place_stays bothHart (va := 0xF000000100) in_tcm, place_stays bothHart (va := 0xF000000140) in_tcm, rfl, rfl, ?_, ?_⟩
        ⟨place_stays bothHart (va := 0xF000000101) in_tcm, place_stays bothHart (va := 0xF000000180) in_tcm, rfl, rfl, ?_, ?_⟩, ?_⟩
    all_goals decide +kernel

/-! #### VectorAtomicResults, WindowResults -/

/-- Stream 1 of four 32-bit words; vd, register 3, names elements 0 and 1. -/
def atomicHart (x : Hart) : Hart :=
  vec 2 0x18C6 ((bytes (adopts 1 (lin 0x08 4 true) x)).setVreg 3 { bits := 0x0100, fill := 16 })

theorem witness_vectorAtomic :
    let x := atomicHart hart0
    let d := lin 0x08 4 true
    let va (i : Nat) : Nat := 0xF000000100 + 4 * i
    Starts (mk .cs atomicHart) hC x ∧ x.viq = [] ∧ x.cbuf = [] ∧ vfmtReserved x.vc.vfmt = false ∧ intOrJxi (vfFD x.vc.vfmt) = true ∧
    x.tp.adjm = 0 ∧ (x.stream 1).adopted = some d ∧ d.kind ≤ 1 ∧ x.vc.vstart.toNat ≤ 2 ∧ activeFrom x (ops 3 1 2) = [0, 1] ∧
    (∀ i, i < 2 → elem (vfFD x.vc.vfmt) (x.vreg 3) i = some (i, 8) ∧ bOpnd x (ops 3 1 2) i = some (atB x i) ∧
      patReserved (vfFB x.vc.vfmt) (atB x i).pat (atB x i).len = false ∧
      (d.base + (patValue (vfFD x.vc.vfmt) 0 i).word * BitVec.ofNat 64 (32 / 8)).toNat = va i ∧
      stays (mk .cs atomicHart) (locateHere .atomic (va i) 4) (tcmFound atomicHart (va i) 4) ∧
      (tcmFound atomicHart (va i) 4).locs.length = 4 ∧
      (tcmFound atomicHart (va i) 4).locs.all (fun c => !poisoned (mk .cs atomicHart) c) = true) ∧
    ∃ row ∈ atomicRows, row.2.1 d.fmt = true :=
  ⟨starts_cs _, rfl, rfl, by decide +kernel, by decide +kernel, rfl, by decide +kernel, by decide +kernel, by decide +kernel,
    by decide +kernel,
    lt_two ⟨by decide +kernel, by decide +kernel, by decide +kernel, by decide +kernel,
        place_stays atomicHart (va := 0xF000000100) in_tcm (acc := .atomic), by decide +kernel, by decide +kernel⟩
      ⟨by decide +kernel, by decide +kernel, by decide +kernel, by decide +kernel,
        place_stays atomicHart (va := 0xF000000104) in_tcm (acc := .atomic), by decide +kernel, by decide +kernel⟩,
    _, List.mem_cons_self .., by decide +kernel⟩

/-- A hart that opens window 2 over block 1 with one cell. -/
def openHart (x : Hart) : Hart := cReg 4 0x102 (vec 1 0x18C6 x)

theorem witness_wopen :
    let x := openHart hart0
    let b := (scalarOf x (opsS 0 0 4)).toNat
    Starts (mk .cs openHart) hC x ∧ x.viq = [] ∧ x.cbuf = [] ∧ vfmtReserved x.vc.vfmt = false ∧ x.tp.adjm = 0 ∧
    scalarOf x (opsS 0 0 4) &&& ~~~(0x3FF870F#64) = 0 ∧ b / 2 ^ 8 % 8 + (b / 2 ^ 16 % 2 ^ 10 + 1 + 255) / 256 ≤ 8 ∧
    (∀ c ∈ x.tcm, c.1 < b / 2 ^ 8 % 8 ∨ b / 2 ^ 8 % 8 + (b / 2 ^ 16 % 2 ^ 10 + 1 + 255) / 256 ≤ c.1) ∧ x.window (b % 16) = none ∧
    (b / 2 ^ 16 % 2 ^ 10 + 1 + 255) / 256 ≤
      ((List.range 8).filter fun p => !(tcmTaken (mk .cs openHart) 0).contains p).length ∧ (gang0 openHart).holds = true :=
  ⟨starts_cs _, rfl, rfl, by decide +kernel⟩

/-- A hart with window 0 over block 0, one cell, of integers or of floats; register 3 names cell 0, register 2 holds 2. -/
def windowHart (isInt : Bool) (x : Hart) : Hart :=
  { vec 1 0x18C6 ((bytes x).setVreg 3 { bits := 0, fill := 8 }) with windows := [(0, { first := 0, cells := 1, isInt := isInt })] }

theorem witness_wadd (isInt : Bool) :
    let x := windowHart isInt hart0
    let o := ops 3 0 2
    let C : Opnd := { pat := 0, len := 8, val := .int 0, scalar := false }
    let f := tcmFound (windowHart isInt) 0xF000000000 4
    x.window o.a.toNat = some { first := 0, cells := 1, isInt := isInt } ∧ hart0.window 0 = none ∧ x.vc.vl = 1 ∧
    x.vc.vstart = 0 ∧ x.maskBit o.m.toNat 0 = true ∧ vecOpnd (vfFD x.vc.vfmt) x.vc.vfmt (x.vreg o.d) 0 = some C ∧
    patReserved (vfFD x.vc.vfmt) C.pat C.len = false ∧ bOpnd x o 0 = some (atB x 0) ∧
    patReserved (vfFB x.vc.vfmt) (atB x 0).pat (atB x 0).len = false ∧
    stays (mk .cs (windowHart isInt)) (locateHere .store (Config.tcmBase + 0 * Config.tcmBlock + 256 * 0) 4) f ∧ f.locs.length = 4 ∧
    f.locs.all (fun c => !poisoned (mk .cs (windowHart isInt)) c) = true := by
  refine ⟨?_, rfl, ?_, ?_, ?_, ?_, ?_, ?_, ?_, place_stays _ (va := 0xF000000000) (in_tcm (hx := by cases isInt <;> rfl)), ?_, ?_⟩ <;>
    cases isInt <;> decide +kernel

/-- That window open as `wclose` finds it, with stores of the AS pending; no place in a TCM has leaves. -/
theorem witness_wclose (isInt : Bool) :
    (windowHart isInt hart0).window (ops 0 0 0).a.toNat = some { first := 0, cells := 1, isInt := isInt } ∧
    Sendable ({ windowHart isInt hart0 with abuf := (storing hart0).abuf } : Hart) .as ∧
    ∀ f va n, DSet (tcmFound f va n) :=
  ⟨by cases isInt <;> decide +kernel, of_sendable (by cases isInt <;> decide +kernel), fun _ _ _ e he => by cases he⟩

/-- The same with region 0 for its cells, and tape registers that say so. -/
def mergeHart (x : Hart) : Hart :=
  { windowHart true x with tp := { x.tp with table := some [{ region0 with ctl := 0x9680000000000010 }] } }

theorem witness_wmerge :
    let x := mergeHart hart0
    let r : Region := { region0 with ctl := 0x9680000000000010 }
    let row := tcmFound mergeHart 0xF000000000 256
    let cell := tcmFound mergeHart 0xF000000200 4
    Starts (mk .cs mergeHart) hC x ∧ x.tp.adjm = 0 ∧ x.window 0 = some { first := 0, cells := 1, isInt := true } ∧
    x.tp.table = some [r] ∧ r.valid = true ∧ r.acc = 1 ∧ x.vc.vstart = 0 ∧ x.abuf = [] ∧
    stays (mk .cs mergeHart) (locateHere .load (Config.tcmBase + 0 * Config.tcmBlock + 256 * 0) 256) row ∧
    stays (mk .cs mergeHart) (locateHere .atomic (r.adjbase.toNat + 4 * (r.wfirst + 0)) 4) cell ∧ row.locs.length = 256 ∧
    cell.locs.length = 4 ∧ (row.locs ++ cell.locs).all (fun c => !poisoned (mk .cs mergeHart) c) = true :=
  ⟨starts_cs _, rfl, by decide +kernel, rfl, by decide +kernel, by decide +kernel, rfl, rfl,
    place_stays mergeHart (va := 0xF000000000) in_tcm (acc := .load), place_stays mergeHart (va := 0xF000000200) in_tcm (acc := .atomic),
    by decide +kernel, by decide +kernel, by decide +kernel⟩

/-! #### RegionResults -/

/-- A hart whose mode is on, with a region at 0xF000000100 whose CTL begins with the byte given (0x86 plain, 0xC6 taped, 0x96
accumulated in windows), and one record on its tape, of the 4 bytes at 0xF000000108. -/
def ridge (mode : BitVec 2) (byte : Nat) (x : Hart) : Hart :=
  { aReg 6 0xF000000108 x with
    tp := { x.tp with
      adjm := mode, table := some [{ region0 with ctl := BitVec.ofNat 64 (byte * 2 ^ 56 + 0x80000000000010) }]
      tapeb := 0xF000000300, tapeh := 0xF000000318, tapel := 0xF000000340 }
    abuf := [{ cells := ((List.range 24).map fun k => tcmLoc 0 (0x300 + k)).zip (recordOf 0xF000000108 4 0 [1, 2, 3, 4]) }] }
def ridgeState (mode : BitVec 2) (byte : Nat) : State := mk .as (ridge mode byte)
def ridgeHart (mode : BitVec 2) (byte : Nat) : Hart := ridge mode byte hart0

theorem witness_touches :
    (ridgeHart 1 0x86).tp.adjm ≠ 0 ∧ ((ridgeHart 1 0x86).touches 0xF000000108 4).isSome ∧
    ((ridgeHart 2 0xC6).touches 0xF00000013E 4).isSome ∧ (ridgeHart 2 0x86).tp.table.isSome := by decide +kernel

theorem witness_fits :
    fits region0 0xF000000108 4 ∧ ¬ fits region0 0xF000000108 8 ∧ ¬ fits region0 0xF00000013E 4 := by
  unfold fits
  decide +kernel

theorem witness_accessForms :
    isLoad (.lw 5 6 0) 5 6 4 true false false ((0 : BitVec 12).signExtend 64) 4 ∧
    isLoad (.ldAcq 5 6 5 0) 5 6 8 true true true (BitVec.ofInt 64 (8 * (0 : BitVec 9).toInt)) 4 ∧
    isStore (.sw 6 7 0) 6 7 4 false ((0 : BitVec 12).signExtend 64) 4 := by
  refine ⟨Or.inl ?_, Or.inr (Or.inl ⟨5, 0, by decide, rfl, rfl, rfl, rfl, rfl, rfl, rfl⟩), Or.inl ?_⟩
  · exact ⟨(.lw, .lwLong, 4, true), by simp [loadRows], rfl, rfl, rfl, rfl, Or.inl ⟨0, rfl, rfl, rfl⟩⟩
  · exact ⟨(.sw, .swLong, 4), by simp [storeRows], rfl, rfl, Or.inl ⟨0, rfl, rfl, rfl⟩⟩

/-- Loads: in forward mode; in reverse mode with the cell in memory, and with no open window for it. -/
theorem witness_regionLoads :
    (answers (scalarLocate .load 0xF000000108 4 false (ridgeState 1 0x86)) fun _ s1 =>
      runsAt s1 hA (fun _ => true) && answers (scalarLoad 0xF000000108 4 false false s1) fun _ s2 => runsAt s2 hA fun _ => true) ∧
    (answers (locateHere .load 0xF000000108 4 true (ridgeState 2 0x86)) fun f s1 => !f.dev &&
      runsAt s1 hA (fun x1 => adjointPlace x1 0 { region0 with ctl := 0x8680000000000010 } 2 0 == some (.atomic, 0xF000000208)) &&
      answers (locateHere .atomic 0xF000000208 4 true s1) fun l s2 => l.locs.length == 4 &&
        runsAt s2 hA (fun x2 => sendable x2 .as) &&
        answers (readLocs [] l.locs 0xF000000208 (drained s2 hA .as)) fun _ s3 => decide (s3 = drained s2 hA .as)) ∧
    adjointPlace (ridgeHart 2 0x96) 0 { region0 with ctl := 0x9680000000000010 } 2 0 = none := by
  decide +kernel

/-- Stores in forward mode: to a plain region, to a taped one with room, and with none. -/
theorem witness_regionStores :
    (answers (scalarLocate .store 0xF000000108 4 false (ridgeState 1 0x86)) fun _ s1 =>
      answers (scalarLocate .store 0xF000000108 4 false s1) fun _ s2 => runsAt s2 hA fun _ => true) ∧
    (answers (scalarLocate .store 0xF000000108 4 false (ridgeState 1 0xC6)) fun _ s1 =>
      runsAt s1 hA (fun x1 => decide (x1.tp.tapeh.toNat + recordLen 4 ≤ x1.tp.tapel.toNat)) &&
      answers (locateHere .store 0xF000000108 4 true s1) fun f s2 =>
        answers (locateHere .store 0xF000000318 24 true s2) fun _ s3 =>
          runsAt s3 hA (fun x3 => sendable x3 .as) &&
          answers (readLocs [] f.locs 0xF000000108 (drained s3 hA .as)) fun _ s4 => decide (s4 = drained s3 hA .as)) ∧
    ((0xF000000318 : Word) + 1).toNat < (0xF000000318 : Word).toNat + recordLen 4 := by
  decide +kernel

/-- Stores in reverse mode: the record on the tape is that of the run, or of another run, or there is none. -/
theorem witness_regionPops :
    (answers (scalarLocate .store 0xF000000108 4 false (ridgeState 2 0xC6)) fun _ s1 =>
      runsAt s1 hA (fun x1 => decide (x1.tp.tapeb.toNat + recordLen 4 ≤ x1.tp.tapeh.toNat)) &&
      answers (locateHere .load 0xF000000300 24 true s1) fun c s2 =>
        answers (readFound .as c 0xF000000300 s2) fun record s3 => decide (s3 = s2) &&
          bytesToNat (record.take 8) == 0xF000000108 && bytesToNat ((record.drop 8).take 4) == 4 &&
          answers (locateHere .load 0xF000000208 4 true s2) fun _ s4 =>
            answers (locateHere .store 0xF000000208 4 true s4) fun g s5 =>
              answers (locateHere .store 0xF000000108 4 true s5) fun _ s6 => runsAt s6 hA (fun _ => true) &&
                answers (readFound .as g 0xF000000208 s6) fun old s7 => decide (s7 = s6) && old.length == 4) ∧
    (0xF00000010C : Nat) ≠ 0xF000000108 ∧ (0xF000000300 : Word).toNat = (ridgeHart 2 0xC6).tp.tapeb.toNat := by
  decide +kernel

/-- The CS over stream 3 to write, or stream 1 to read, of numbers of f32 at 0xF000000108. -/
def ridgeRun (mode : BitVec 2) (byte n : Nat) (x : Hart) : Hart :=
  { vec (BitVec.ofNat 64 n) 0x35AD (regs { bits := 0, fill := 64 } { bits := 0, fill := 64 }
      (adopts 1 (lin 0x0D 2 false 0xF000000108) (adopts 3 (lin 0x0D 2 true 0xF000000108) (ridge mode byte x)))) with abuf := [] }

theorem witness_regionVectors :
    let r : Region := { region0 with ctl := 0xC680000000000010 }
    let x := ridgeRun 1 0xC6 2 hart0
    let y := ridgeRun 2 0x86 1 hart0
    let d := lin 0x0D 2 true 0xF000000108
    let f := tcmFound (ridgeRun 1 0xC6 2) 0xF000000108 8
    let c := tcmFound (ridgeRun 1 0xC6 2) 0xF000000318 24
    (vfmtReserved x.vc.vfmt = false ∧ d.wr = true ∧ d.kind = 0 ∧ d.fmt = r.fmt ∧ r.ctl.getLsbD 62 = true ∧ x.vc.vl.toNat = 2) ∧
    (∀ j, j < 2 → x.region (d.elemAt (0 + j) 32).va (32 / 8) = some (0, r)) ∧
    (2 ≤ d.len ∧ 32 * 2 ≤ (x.vreg 2).fill ∧ x.tp.tapeh.toNat + recordLen 8 ≤ x.tp.tapel.toNat) ∧
    (f.locs.length = 8 ∧ f.locs.Nodup ∧ x.cbuf = [] ∧ x.viq = [] ∧ f.leaves = [] ∧ c.leaves = []) ∧
    (y.vc.vl.toNat = 1 ∧ 32 ≤ (y.vreg 2).fill ∧ (y.stream 1).pos < d.len ∧
      y.region 0xF000000108 4 = some (0, { region0 with ctl := 0x8680000000000010 })) := by
  decide +kernel

theorem witness_regionRun :
    Starts (mk .cs (ridgeRun 1 0xC6 2)) hC (ridgeRun 1 0xC6 2 hart0) ∧
    OnStream (ridgeRun 1 0xC6 2 hart0) 3 (lin 0x0D 2 true 0xF000000108) ∧
    (answers (locateHere .store 0xF000000108 8 true (mk .cs (ridgeRun 1 0xC6 2))) fun f s1 =>
      decide (s1 = mk .cs (ridgeRun 1 0xC6 2)) && f.leaves.isEmpty &&
        answers (readLocs [] f.locs 0xF000000108 s1) fun _ s2 => decide (s2 = s1)) ∧
    (answers (locateHere .store 0xF000000318 24 true (mk .cs (ridgeRun 1 0xC6 2))) fun c s1 =>
      decide (s1 = mk .cs (ridgeRun 1 0xC6 2)) && c.leaves.isEmpty) :=
  ⟨starts_cs _, on_stream (by decide +kernel), by decide +kernel⟩

theorem witness_regionLoad :
    Starts (mk .cs (ridgeRun 2 0x86 1)) hC (ridgeRun 2 0x86 1 hart0) ∧
    OnStream (ridgeRun 2 0x86 1 hart0) 1 (lin 0x0D 2 false 0xF000000108) ∧ (32 ≤ ((ridgeRun 2 0x86 1 hart0).vreg 2).fill) ∧
    (answers (locateHere .load 0xF000000108 4 true (mk .cs (ridgeRun 2 0x86 1))) fun _ s1 =>
      decide (s1 = mk .cs (ridgeRun 2 0x86 1))) ∧
    (answers (locateHere .atomic 0xF000000208 4 true (mk .cs (ridgeRun 2 0x86 1))) fun c s1 =>
      decide (s1 = mk .cs (ridgeRun 2 0x86 1)) && c.leaves.isEmpty && c.locs.length == 4 &&
        answers (readLocs [] c.locs 0xF000000208 s1) fun _ s2 => decide (s2 = s1)) :=
  ⟨starts_cs _, on_stream (by decide +kernel), by decide +kernel⟩

/-! #### MatrixResults -/

/-- A hart with live tiles whose rows have two cells. -/
def zHart (x : Hart) : Hart := { vec 2 0x18C6 (bytes (cReg 4 0x100 x)) with zlive := true, zl := 2 }

theorem witness_matrix :
    let x := zHart hart0
    let fa := vfFA x.vc.vfmt
    Starts (mk .cs zHart) hC x ∧ x.viq = [] ∧ x.zlive = true ∧ vfmtReserved x.vc.vfmt = false ∧ 0 < x.zl.toNat ∧ x.zl.toNat ≤ 64 ∧
    tileFmt fa = true ∧ tileFmt (vfFB x.vc.vfmt) = true ∧ fmtWidth fa * 2 ≤ (x.vreg 1).fill ∧
    fmtWidth (vfFB x.vc.vfmt) * 2 ≤ (x.vreg 2).fill ∧ x.vc.vl.toNat % x.zl.toNat = 0 ∧ x.vc.vstart.toNat % x.zl.toNat = 0 ∧
    x.vc.vstart.toNat ≤ x.vc.vl.toNat ∧ fmtFixed fa = true ∧ fmtB1 fa = false ∧
    (scalarOf x (opsS 0 1 4)).toNat % 64 * 2 + 2 ≤ 64 * 2 ∧
    min 2 ((scalarOf x (opsS 0 1 4)).toNat / 2 ^ 8 % 2 ^ 7 * 2) = 2 ∧
    min 2 ((scalarOf x (opsS 0 1 0)).toNat / 2 ^ 8 % 2 ^ 7 * 2) < 2 ∧ fmtFixed (vfFD x.vc.vfmt) = true ∧
    fmtWidth (vfFD x.vc.vfmt) * 2 ≤ destLimit x l0 := by
  refine ⟨starts_cs _, ?_⟩
  decide +kernel

/-- The same into a destination of codes: both cells are 0. -/
theorem witness_matrixCodes :
    let x := { zHart hart0 with vc := { (zHart hart0).vc with vfmt := 0x4210 } }
    vfmtReserved x.vc.vfmt = false ∧ fmtCode (vfFD x.vc.vfmt) = true ∧ x.vc.vstart = 0 ∧
    lensBelow (fun _ => encodeIntTo x.vc.vfmt (vfFD x.vc.vfmt) 0) 2 ≤ destLimit x l0 := by decide +kernel

/-- Rows at 0xF000000100, 16 bytes apart. -/
def rowHart (x : Hart) : Hart := cReg 4 0xF000000100 (cReg 5 16 { vec 2 0x18C6 x with zlive := true, zl := 2 })

theorem witness_rows :
    let x := rowHart hart0
    let f (j : Nat) := tcmFound rowHart (0xF000000100 + 16 * j) 8
    let va (j : Nat) : Nat := (x.getReg .cs 4 + BitVec.ofNat 64 j * x.getReg .cs 5).toNat
    Starts (mk .cs rowHart) hC x ∧ x.viq = [] ∧ x.zlive = true ∧ vfmtReserved x.vc.vfmt = false ∧ x.zl.toNat = 2 ∧ x.zrow = 0 ∧
    (3 : BitVec 6).toNat + 2 ≤ 64 ∧ x.tp.adjm = 0 ∧ (x.getReg .cs 4).toNat % 4 = 0 ∧ (x.getReg .cs 5).toNat % 4 = 0 ∧
    (∀ j, j < 2 → stays (mk .cs rowHart) (locateHere .load (va j) (4 * 2)) (f j) ∧
      stays (mk .cs rowHart) (locateHere .store (va j) (4 * 2)) (f j) ∧ (f j).dev = false ∧ (f j).locs.length = 4 * 2 ∧
      ∃ b, stays (mk .cs rowHart) (readLocs x.cbuf (f j).locs (va j)) b) ∧
    ([0, 1].flatMap fun j => (f j).locs).Nodup :=
  ⟨starts_cs _, rfl, rfl, by decide +kernel, by decide +kernel, rfl, by decide +kernel, rfl, by decide +kernel, by decide +kernel,
    lt_two
      ⟨place_stays rowHart (va := 0xF000000100) in_tcm (acc := .load), place_stays rowHart (va := 0xF000000100) in_tcm, rfl,
        by decide +kernel, _, readLocs_run _ _ _ fun _ _ => rfl⟩
      ⟨place_stays rowHart (va := 0xF000000110) in_tcm (acc := .load), place_stays rowHart (va := 0xF000000110) in_tcm, rfl,
        by decide +kernel, _, readLocs_run _ _ _ fun _ _ => rfl⟩,
    by decide +kernel⟩

/-! #### NearBankRegisterResults, NearBankMemoryResults -/

/-- A window of 1 KiB at address 0x1000 of local HBM with both permissions. -/
def win0 : NbeWindow :=
  { va := 0x1000, len := 0xC000000000000400, pa := 0x1000, d0 := 0x8400000000000000, d1 := 0x0000004000000000, dev := false }
def bankOp : Op :=
  { id := 0, gang := 0, hid := 0, gallery := 0, body := .nbe 3 0 [win0] [] true, obj := 0, done := 0, sent := 0, tfault := none }
/-- A program run: bytes 1, 2 and 0xFF in the decode buffer, weights 1 and 2 in the latch, b3 past every window. -/
def run0 : NbeRun :=
  { op := 0, prog := [], pc := 2, b := Vector.ofFn fun k => if k = 3 then 0x1000 else 0, k := Vector.ofFn fun k => if k = 3 then 0x20000 else 0
    dec := 0xFF0201, decLen := 24, latch := [1, 2], latchInt := true, vbuf := [], rbuf := [(0, 7)], count := 0 }
def engine0 (f : NbeRun → NbeRun) : NbeEng := { chan := 3, run := some (f run0), queue := [] }
def onEngine (f : NbeRun → NbeRun) : State := { State.reset with cur := .engine 3, nbes := [engine0 f], ops := [bankOp] }

theorem engine_moves (f : NbeRun → NbeRun) (h : (f run0).count < 2 ^ 32) : OnEngine (onEngine f) (engine0 f) (f run0) :=
  ⟨rfl, rfl, h⟩

theorem witness_bankControl :
    engineHere (onEngine id) = some (engine0 id) ∧ run0.count < 2 ^ 32 ∧ run0.getK 0 ≠ 1 ∧ (2 : BitVec 13).toNat ≤ run0.pc ∧
    (run0.setK 0 1).getK 0 = 1 ∧
    engineHere (onEngine fun r => { r with count := 2 ^ 32 }) = some (engine0 fun r => { r with count := 2 ^ 32 }) := by
  refine ⟨rfl, ?_, ?_, ?_, ?_, rfl⟩ <;> decide +kernel

theorem witness_bankArithmetic :
    OnEngine (onEngine id) (engine0 id) run0 ∧ (0x06 : Fmt) ∈ [0x00, 0x01, 0x02, 0x03, 0x06, 0x07, 0x0A, 0x0B, 0x0C] ∧
    3 * fmtWidth 0x06 ≤ run0.decLen ∧ run0.decLen < 4 * fmtWidth 0x06 ∧ fmtCode 0x10 = true ∧
    (takeWeights 0x10 0 1 run0.dec run0.decLen []).isSome = true ∧ takeWeights 0x10 0 8 run0.dec run0.decLen [] = none ∧
    (0x06 : Fmt) ∈ macFormats ∧ (run0.getK 0).toNat < 4096 ∧ ((run0.getK 1).toNat + run0.latch.length) * (8 / 8) ≤ 65536 ∧
    run0.latchInt = true ∧ fmtInteger 0x06 = true ∧ fmtInteger 0x0D = false ∧ (0x0D : Fmt) ∈ macFormats ∧ run0.latch ≠ [] ∧
    4096 ≤ (run0.getK 3).toNat ∧ (run0.getK 1).toNat + 2 ≤ 4096 ∧ 4096 < (run0.getK 3).toNat + 2 ∧ (0x06 : Fmt) ∈ cellFormats := by
  refine ⟨engine_moves id (by decide), ?_⟩
  decide +kernel

/-- The places of the window's first n bytes. -/
def winPlaces (n : Nat) : List Nat := locRange at1000 n

theorem in_window {n : Nat} (h : n ≤ 64) : InWindow (onEngine id) run0 0 n win0 (winPlaces n) := by
  refine ⟨rfl, ?_, by simp [winPlaces, locRange], fun k hk => ?_⟩
  · have e : (run0.getB 0).toNat = 0 ∧ win0.len.toNat % 2 ^ 48 = 1024 := by decide +kernel
    omega
  · have e : ∀ k, k < 64 → hbmMap win0.d0 win0.d1 (win0.pa + (run0.getB 0).toNat + k) = some (at1000 + k) := by decide +kernel
    rw [e k (by omega)]
    simp [winPlaces, locRange, hk]

theorem witness_bankMemory :
    OnEngine (onEngine id) (engine0 id) run0 ∧ InWindow (onEngine id) run0 0 1 win0 (winPlaces 1) ∧
    InWindow (onEngine id) run0 0 8 win0 (winPlaces 8) ∧ InWindow (onEngine id) run0 0 64 win0 (winPlaces 64) ∧
    InWindow (onEngine id) run0 0 (2 * 4) win0 (winPlaces 8) ∧ win0.len.getLsbD 62 = true ∧ win0.len.getLsbD 63 = true ∧
    run0.decLen + 8 * 64 ≤ 32768 ∧ 32768 < (32768 : Nat) + 8 * 64 ∧ (∀ p ∈ winPlaces 64, poisoned (onEngine id) p = false) ∧
    (∃ p ∈ winPlaces 64, poisoned { onEngine id with poison := [at1000 / 32] } p = true) ∧
    (∃ p ∈ winPlaces 8, poisoned { onEngine id with poison := [at1000 / 32] } p = true ∧ ∃ k, k < 32 ∧ p / 32 * 32 + k ∉ winPlaces 8) ∧ (run0.getK 0).toNat % 64 = 0 ∧
    (run0.getK 0).toNat + 64 ≤ 65536 ∧ 65536 < (run0.getK 3).toNat + 64 ∧ run0.vbuf.wf = true ∧ (0x04 : Fmt) ∈ cellFormats ∧
    (win0.va.toNat + (run0.getB 0).toNat) % 8 = 0 ∧ (win0.va.toNat + ((run0.setB 0 4).getB 0).toNat) % 8 ≠ 0 ∧
    (run0.getK 0).toNat ≤ bytesToNat ((winPlaces 8).map (memRead (onEngine id).mem)) ∧
    bytesToNat ((winPlaces 8).map (memRead (onEngine id).mem)) < (run0.getK 3).toNat ∧
    2 ^ 63 ≤ bytesToNat ((winPlaces 8).map (memRead [(at1000 + 7, 0x80)])) :=
  ⟨engine_moves id (by decide), in_window (by decide), in_window (by decide), in_window (by decide), in_window (by decide),
    by decide +kernel⟩

/-- A window that is not there, and one that the offset 0x1000 in b3 passes. -/
theorem witness_outOfWindow (bit : Option Nat) :
    OutOfWindow (onEngine id) run0 1 8 bit ∧ OutOfWindow (onEngine fun r => r.setB 0 0x1000) (run0.setB 0 0x1000) 0 8 bit := by
  refine ⟨fun w h => ?_, fun w h => Or.inl ?_⟩
  · rw [show (nbeWins (onEngine id) run0.op)[(1 : BitVec 3).toNat]? = none by rfl] at h
    cases h
  · rw [show (nbeWins (onEngine fun r => r.setB 0 0x1000) (run0.setB 0 0x1000).op)[(0 : BitVec 3).toNat]? = some win0 by rfl] at h
    cases h
    decide +kernel

/-! #### PowerEvents, BedrockAndDebugRequests -/

/-- The reset state with bedrock's state as f makes it. -/
def bedState (f : Bedrock → Bedrock) : State := withBed State.reset f

theorem witness_power :
    Awake State.reset ∧ Powered State.reset ∧ Serving State.reset ∧ State.reset.bed.pwr.toNat ≤ 1 ∧ (mk .as id).ops = [] ∧
    (mk .as id).colls = [] ∧ (mk .as id).nbes = [] ∧ Serving (mk .as id) ∧
    (∀ g ∈ (mk .as id).gangs, ∀ h ∈ g.harts, h.mode ≠ .debugHalt ∧ h.ypend.getLsbD 63 = false ∧ h.abuf = [] ∧ h.cbuf = []) ∧
    Powered (bedState fun b => { b with pwr := 2 }) ∧ (bedState fun b => { b with pwr := 2 }).bed.pwr = 2 ∧
    (bedState fun b => { b with pwr := 2 }).launches = [] := by
  refine ⟨⟨⟨rfl, rfl⟩, rfl⟩, rfl, ⟨rfl, by decide, rfl⟩, by decide, rfl, rfl, rfl, ⟨rfl, by decide, rfl⟩, ?_, rfl, rfl, rfl⟩
  decide +kernel

/-- Counter 8 at 1. -/
def admitState : State := bedState fun b => { b with
  stage := 3, fuses := b.fuses.set 8 1 }

theorem witness_bedrock :
    Powered admitState ∧ admitState.bed.pwr ≠ 1 ∧ State.reset.bed.stage ≠ 3 ∧ (1 : BitVec 2).toNat ≤ 1 ∧ 1 < (2 : BitVec 2).toNat ∧
    admitState.bed.dbg.toNat ≤ (2 : BitVec 2).toNat ∧ admitState.bed.keys = true ∧
    (withBed admitState fun b => { b with keys := false }).bed.keys = false ∧ fuseOf admitState 9 < 5 ∧ 0 ≤ fuseOf admitState 9 ∧
    63 < 64 ∧ admitState.bed.stage = 3 ∧ (0 : BitVec 6).toNat < fuseOf admitState 8 ∧ (7 : BitVec 5).toNat < 8 ∧
    fuseOf admitState 8 ≤ (1 : BitVec 6).toNat ∧ 8 ≤ (8 : BitVec 5).toNat ∧
    (admitState.bed.fuses[8]?).getD 0 = 1 ∧ admitState.bed.cache.length < 256 := by
  refine ⟨rfl, ?_⟩
  decide +kernel

/-- Debug at level n in the open state, and survey core 0 in mode m. -/
def debugState (n : BitVec 2) (s : State) (m : SurveyMode := .running) : State :=
  mapSurvey (withBed s fun b => { b with dbg := n, sec := 2 }) 0 fun x => { x with mode := m }

theorem witness_debug :
    let s := debugState 3 (mapped (mk .as id)) .running
    let halted := debugState 3 (mk .as fun x => { x with mode := .debugHalt }) .halted
    Powered s ∧ findHart s 0 (0 : BitVec 4).toNat = some hart0 ∧ Serving s ∧ hart0.mode = .active ∧
    hart0.ypend.getLsbD 63 = false ∧ Powered halted ∧ findHart halted 0 0 = some { hart0 with mode := .debugHalt } ∧
    Serving halted ∧ hart0.answer = none ∧ ¬ Serving (withBed s fun b => { b with pwr := 2 }) ∧ 2 ≤ s.bed.dbg.toNat ∧ s.bed.sec = 2 ∧
    accessOf .as 0x030 = .rw ∧ (debugState 1 (mk .as id)).bed.dbg.toNat < 2 ∧ s.bed.dbg = 3 ∧
    (debugState 1 (mk .as id)).bed.dbg ≠ 3 ∧ (surveyOf s (0 : BitVec 2).toNat).mode = .running ∧
    (surveyOf halted (0 : BitVec 2).toNat).mode = .halted ∧ (0x1000 : Word).toNat + 8 < 0xFFFE00000 ∧
    physLocs s 0x1000 8 = some (locRange at1000 8) ∧ ∀ p ∈ locRange at1000 8, poisoned s p = false := by
  refine ⟨rfl, rfl, ⟨rfl, by decide, rfl⟩, rfl, rfl, rfl, rfl, ⟨rfl, by decide, rfl⟩, rfl, fun h => absurd h.2.1 (by decide +kernel), ?_⟩
  decide +kernel

/-- A debug access to eight bytes of the held page. -/
theorem witness_debugMemory :
    let s := debugState 3 (mapped (mk .as id))
    (∃ f s1 b s2, tried (locateCtx (hartXlat s 0 0) .load 0x1000 8) s = (.ok f, s1) ∧
      tried (readLocs hart0.abuf f.locs 0x1000) s1 = (.ok b, s2)) ∧
    ∃ f s1, tried (locateCtx (hartXlat s 0 0) .store 0x1000 8) s = (.ok f, s1) ∧ f.leaves.all (fun e => pteD e.pte) = true := by
  let s := debugState 3 (mapped (mk .as id))
  have h1 : (answer (tried (locateCtx (hartXlat s 0 0) .load 0x1000 8) s)).any (fun f =>
      went (tried (readLocs hart0.abuf f.locs 0x1000) (tried (locateCtx (hartXlat s 0 0) .load 0x1000 8) s).2)) = true := by decide +kernel
  have h2 : (answer (tried (locateCtx (hartXlat s 0 0) .store 0x1000 8) s)).any (fun f => f.leaves.all fun e => pteD e.pte) = true := by
    decide +kernel
  obtain ⟨f, hf, hg⟩ := (Option.any_eq_true ..).mp h1
  obtain ⟨b, hb⟩ := of_went hg
  obtain ⟨k, hk, hd⟩ := (Option.any_eq_true ..).mp h2
  exact ⟨⟨f, _, b, _, of_answer hf, hb⟩, k, _, of_answer hk, hd⟩

/-! #### DeviceRegisterEvents -/

/-- A collective operation of id 5, ended or not, and shootdown of die 0 in progress. -/
def coll5 (ended : Bool) : CollOp :=
  { id := 5, num := 0, route := none, members := [], ended := ended, complete := false }
def registerState : State :=
  { setDevReg (mk .as id) 0x60000 0x8000000000000000 with colls := [coll5 false, { coll5 true with id := 6 }] }

theorem witness_registers :
    Powered registerState ∧ (0x40008 : BitVec 20).toNat % 8 = 0 ∧ ownerOf registerState 4 = .survey ∧ ownerOf registerState 0 ≠ .host ∧
    (devReg (mapped State.reset) (0x10000 + 16 * 0)).getLsbD 63 = true ∧ (devReg State.reset (0x10000 + 16 * 0)).getLsbD 63 = false ∧
    (0x8400000000000000 : Word).getLsbD 63 = true ∧ (0 : Word).getLsbD 63 = false ∧ findColl registerState 5 0 = some (coll5 false) ∧
    findColl registerState 6 0 = some { coll5 true with id := 6 } ∧ findColl registerState 7 0 = none ∧ (coll5 false).ended = false ∧
    (coll5 true).ended = true ∧ (devReg registerState (0x60000 + 8 * 0)).getLsbD 63 = true ∧
    (devReg registerState (0x60000 + 8 * 1)).getLsbD 63 = false ∧ keepsWindow registerState 0 (devReg registerState 0x60000) = false := by
  refine ⟨rfl, ?_⟩
  decide +kernel

/-- A hart with a store to a peer whose request has no live link, and one whose stores can be performed. -/
def cutHart (x : Hart) : Hart :=
  { x with abuf := [{ cells := [(2 ^ 53 + 64, 7)], hops := [{ block := 1, links := 1, link := none }] }] }
def cutState : State := setDevReg (mk .as cutHart) 0x60000 0x8000000000000000

theorem witness_shootdown :
    (0, 0) ∈ hartsOfDie cutState 0 ∧ findHart cutState 0 0 = some (cutHart hart0) ∧
    (∃ y ∈ (cutHart hart0).abuf ++ (cutHart hart0).cbuf, ∃ p ∈ y.hops, p.link = none) ∧
    (devReg cutState (0x60000 + 8 * 0)).getLsbD 63 = true ∧ (∀ y ∈ (storing hart0).abuf ++ (storing hart0).cbuf, canGo y) := by
  refine ⟨by decide +kernel, rfl, ?_, by decide +kernel, ?_⟩
  · exact ⟨_, List.mem_cons_self .., _, List.mem_cons_self .., rfl⟩
  · intro y hy
    have h : ∀ y ∈ (storing hart0).abuf ++ (storing hart0).cbuf, y.open_ = false ∧ ∀ p ∈ y.hops, p.link ≠ none := by decide +kernel
    exact h y hy

/-- Stack 0 idle, 1 copying, 2 copied, 3 switching; channel 0 with two requests, two hints and a row open; link 0 the only one
that serves destination 1, and not live. -/
def req (bank row age : Nat) (capped : Bool) : ChanReq := ⟨bank, row, 0, 1, false, age, capped⟩
def busChan : Chan :=
  { chan := 0, reqs := [req 0 1 1024 false, req 1 1 0 false], hints := [(2, 1, 64), (2, 2, 0)], opened := [(2, 0)] }
def remaps : State :=
  setDevReg (setDevReg (setDevReg State.reset 0x20008 (mkRemap 1 0 0 false false)) 0x20010 (mkRemap 1 0 65535 true false))
    0x20018 (mkRemap 2 0 65535 true false)
def onChan (s : State) (c : Chan) : State := { s with dev := { s.dev with chans := [c] } }
def memoryState : State := onChan (mapLink (setDevReg remaps 0x40008 0x10001) 0 fun l => { l with live := false }) busChan

theorem witness_memory :
    let s := memoryState
    Powered s ∧ Serving s ∧ Clocked s ∧ noneWaits s ∧ s.adds = [] ∧ rmState (devReg s 0x20000) = 0 ∧ rmState (devReg s 0x20008) = 1 ∧
    (devReg s 0x20008).getLsbD 1 = false ∧ rmProg (devReg s 0x20008) ≠ 65535 ∧ rmState (devReg s 0x20010) = 1 ∧
    (devReg s 0x20010).getLsbD 1 = true ∧ rmState (devReg s 0x20018) = 2 ∧ findChan s 0 = busChan ∧
    busChan.reqs[0]? = some (req 0 1 1024 false) ∧ busChan.reqs[1]? = some (req 1 1 0 false) ∧
    ((devReg s 0x30000).toNat % 2 ^ 10 + 1) * 16 = 1024 ∧ busChan.hints[0]? = some (2, 1, 64) ∧ busChan.hints[1]? = some (2, 2, 0) ∧
    (devReg s 0x30000).getLsbD 16 = true ∧ (∃ r ∈ busChan.reqs, r.bank = 1) ∧ (∀ r ∈ busChan.reqs, r.bank ≠ 2) ∧
    (∃ o ∈ busChan.opened, o.1 = 2) ∧ (∀ r ∈ busChan.reqs, r.bank ≠ 3) ∧ (∀ o ∈ busChan.opened, o.1 ≠ 3) ∧
    (∀ e ∈ s.tlb, pteDEV e.pte = false) := by
  refine ⟨rfl, ⟨rfl, by decide, rfl⟩, ⟨rfl, rfl⟩, ⟨rfl, fun g hg => by cases hg⟩, rfl, ?_⟩
  decide +kernel

/-- A translation of a DEV page with bytes of row 0 of bank 0. -/
theorem witness_devRow :
    let s := mapped State.reset
    ∃ e : TlbEntry, ∃ f ∈ [e], f.devRow { s with tlb := [e] } 0 0 0 = true :=
  ⟨{ gallery := 0, asid := 0, level := 1, vpn := 0, pte := 0x16F, pteLoc := 2048 }, _, List.mem_cons_self .., by decide +kernel⟩

/-- What a channel issues: its oldest request, which is capped; a request to an open row before an older one; a hint. -/
theorem witness_issue :
    let s := { memoryState with agenda := [.issue 0] }
    let cap := ((devReg s (0x30000 + 8 * 0)).toNat % 2 ^ 10 + 1) * 16
    let hits (c : Chan) (r : ChanReq) : Prop := ∃ o ∈ c.opened, o.1 = r.bank ∧ o.2 = r.row
    let hit : Chan := { busChan with reqs := [req 1 1 0 false, req 2 0 0 false] }
    let hint : Chan := { busChan with reqs := [], hints := [(3, 1, 5)] }
    Powered s ∧ s.agenda = [.issue 0] ∧ findChan s 0 = busChan ∧ busChan.reqs = [req 0 1 1024 false, req 1 1 0 false] ∧ cap ≤ 1024 ∧
    findChan (onChan s hit) 0 = hit ∧ (∀ x ∈ hit.reqs, x.capped = false ∧ x.age < cap) ∧ ¬ hits hit (req 1 1 0 false) ∧
    hits hit (req 2 0 0 false) ∧ (req 1 1 0 false).nbe = false ∧ (req 2 0 0 false).nbe = false ∧ findChan (onChan s hint) 0 = hint ∧
    hint.hints = [(3, 1, 5)] ∧ (devReg (onChan s hint) (0x30000 + 8 * 0)).getLsbD 16 = true ∧ ∀ o ∈ hint.opened, o.1 ≠ 3 := by
  refine ⟨rfl, rfl, rfl, rfl, ?_⟩
  decide +kernel

/-- An addition of 1 to an object of destination 1 that waits for link 0, through a leaf of package 1. -/
def leaf0 : TlbEntry := { gallery := 0, asid := 0, level := 3, vpn := 0, pte := 0x40000000086F, pteLoc := 2048 }
def waitAdd : PendingAdd := { pa := 2 ^ 46, links := 1, leaf := leaf0, by_ := .csig, tag := 0, n := 1, err := false, gang := some 0 }

theorem witness_links :
    let s := { memoryState with adds := [waitAdd] }
    Powered s ∧ noneWaits s ∧ s.adds = [waitAdd] ∧ waitAdd.links.getLsbD (0 : BitVec 4).toNat = true ∧
    (∀ p ∈ locRange (2 ^ 53 + waitAdd.pa) 8, poisoned s p = false) ∧ noneLive s waitAdd.links ∧ linkless s 1 ∧
    Powered cutState ∧ noneWaits cutState ∧
    (cutHart hart0).buf .as = [{ cells := [(2 ^ 53 + 64, 7)], hops := [{ block := 1, links := 1, link := none }] }] := by
  refine ⟨rfl, ⟨rfl, fun g hg => by cases hg⟩, rfl, by decide +kernel, by decide +kernel, ?_, ⟨by decide +kernel, by decide +kernel, ?_⟩,
    rfl, ⟨rfl, ?_⟩, rfl⟩
  · unfold noneLive; decide +kernel
  · unfold noneLive; decide +kernel
  · have h : (∀ g ∈ cutState.gangs, ∀ h ∈ g.harts, h.answer.isNone = true) := by decide +kernel
    exact fun g hg x hx => Option.isNone_iff_eq_none.mp (h g hg x hx)

/-! #### OutsideRequests -/

/-- The host decoders' regions lead to interleave descriptor 0. -/
def hostState : State :=
  let s := mapped State.reset
  { s with dev := { s.dev with hostMap := [{ base := 0x1000, size := 4096, desc := 0 }] } }

/-- An addition of 1 to eight bytes. -/
def addOne : AtomicOp := { fn := .add, bytes := 8, operand := 1, expected := 0 }

theorem witness_outside :
    let s := hostState
    Powered s ∧ Serving s ∧ Powered (withBed s fun b => { b with pwr := 2 }) ∧ (withBed s fun b => { b with pwr := 2 }).bed.pwr = 2 ∧
    s.bed.pwr ≠ 2 ∧ physLocs s 0x1000 addOne.bytes = some (locRange at1000 8) ∧ physLocs s 0x1000 1 = some (locRange at1000 1) ∧
    (∀ p ∈ locRange at1000 8, poisoned s p = false) ∧ hostLocs s 0x1000 addOne.bytes = some (locRange at1000 8) ∧
    hostLocs s 0x1000 1 = some (locRange at1000 1) ∧ hostLocs s 0x3000 1 = none ∧
    atomicResult addOne (bytesToNat ((locRange at1000 8).map (memRead s.mem))) = some 1 ∧
    (∃ p ∈ locRange at1000 8, poisoned { s with poison := [at1000 / 32] } p = true) := by
  refine ⟨rfl, ⟨rfl, by decide, rfl⟩, rfl, rfl, by decide, ?_⟩
  decide +kernel

/-! #### PlacementEvents, GangEvents -/

/-- One gang of one hart to place, or a saved one to place again. -/
def placeState : State := { State.reset with launches := [{ l0 with placed := 0 }], nextLaunch := 1 }
def againState : State := { mk .as id with gangs := [{ gang0 id with st := .saved, harts := [{ hart0 with mode := .saving }] }] }

theorem witness_place :
    Awake State.reset ∧ placeQueue State.reset 0 = [] ∧ Awake placeState ∧
    (∃ w, placeQueue placeState 0 = [] ++ w :: [] ∧ fitGang placeState 0 w = some (0, [(0, 0)]) ∧ findGang placeState w.id = none ∧
      findLaunch placeState w.id = some { l0 with placed := 0 }) ∧ Awake againState ∧
    ∃ w, placeQueue againState 0 = [] ++ w :: [] ∧ fitGang againState 0 w = some (0, [(0, 0)]) ∧
      findGang againState w.id = some { gang0 id with st := .saved, harts := [{ hart0 with mode := .saving }] } :=
  ⟨⟨⟨rfl, rfl⟩, rfl⟩, rfl, ⟨⟨rfl, rfl⟩, rfl⟩, ⟨_, rfl, by decide +kernel, rfl, rfl⟩, ⟨⟨rfl, rfl⟩, rfl⟩, _, rfl, by decide +kernel, rfl⟩

/-- Each gallery of die 0 holds a gang with all 64 chamber blocks, for 32,000 cycles; a saved gang needs one. -/
def fullGang (k : Nat) : Gang := { gang0 id with id := k, gallery := k, chamber := List.replicate 64 (0, 0) }
def savedGang : Gang := { gang0 id with id := 32, st := .saved, chamber := [(0, 0)] }
def fullState : State :=
  { State.reset with
    cycle := 32000, ntime := 2 * 720720 * 1000000, launches := [l0], gangs := (List.range 32).map fullGang ++ [savedGang] }

def waiting32 : Waiting := { id := 32, cls := 0, since := 0, needs := [some { vrlen := 4096, tcm := 1 }], chamber := 1 }

theorem witness_victim :
    Awake fullState ∧ placeQueue fullState 0 = [waiting32] ∧ fitGang fullState 0 waiting32 = none ∧
    ((galleryOrder fullState 0).findSome? fun k =>
      takeVictims fullState 0 k waiting32 (leaving fullState 0 k) [] (victimsOf fullState 0 k 0)) = some [0] ∧
    takeVictims fullState 0 5 waiting32 (leaving fullState 0 5) [] (victimsOf fullState 0 5 0) = some [5] :=
  ⟨⟨⟨rfl, rfl⟩, rfl⟩, by decide +kernel, by decide +kernel, by decide +kernel, by decide +kernel⟩

/-- The same with a record of class 1: the saved gang has waited for one millisecond and for two. -/
theorem witness_aging :
    let l := { l0 with record := { l0.record with ctrl := 0x0000000100000401 } }
    let s : State := { fullState with launches := [l] }
    findLaunch s 32 = some l ∧ queuedSince s 32 = some 0 ∧ (assoc 32 s.aged).getD 0 = 0 ∧ 0 < l.record.pri ∧
    (0 + 1) * (720720 * 1000000) ≤ s.ntime - 0 ∧ ({ s with ntime := 5 } : State).ntime - 0 < (0 + 1) * (720720 * 1000000) := by
  decide +kernel

/-- Core clocks pass at a resident gang, whose hart was passed over on a pipe; a gang that is saved. -/
theorem witness_clocks :
    let s := { mk .as id with agenda := [.clocks 5] }
    Awake s ∧ s.agenda = [.clocks 5] ∧ findGang s 0 = some (gang0 id) ∧ (gang0 id).st = .resident ∧ (gang0 id).harts[0]? = some hart0 ∧
    hart0.passed[0]? = some 0 ∧ savedGang.st ≠ .resident ∧ findGang fullState 32 = some savedGang := by
  refine ⟨⟨⟨rfl, rfl⟩, rfl⟩, rfl, rfl, rfl, rfl, ?_⟩
  decide +kernel

/-- The hart with a yield request whose deadline is cycle 0. -/
def posted0 (x : Hart) : Hart := { x with ypend := 0xA000000000000000 }
/-- The hart ended. -/
def ended1 (x : Hart) : Hart := { x with mode := .exited }

theorem witness_gang :
    findGang (mk .as id) 0 = some (gang0 id) ∧ findLaunch (mk .as id) 0 = some l0 ∧ Awake (mk .as id) ∧ Powered (mk .as id) ∧
    (∀ k, (gang0 id).st ≠ .ended k) ∧ (gang0 id).st = .resident ∧ (gang0 id).harts[0]? = some hart0 ∧
    (∀ h ∈ (gang0 id).harts, (h.ypend.getLsbD 63 = false ∨ h.mode = .exited) ∧ (h.mode = .active → h.isWaiting = false) ∧
      h.mode ≠ .debugHalt) ∧
    (∃ h ∈ (gang0 posted0).harts, h.ypend.getLsbD 63 = true ∧ h.mode ≠ .exited) ∧
    (gang0 posted0).harts[0]? = some (posted0 hart0) ∧
    (posted0 hart0).mode = .active ∧ (posted0 hart0).ypend.getLsbD 63 = true ∧
    ((mk .as posted0).cycle.toNat + 2 ^ 48 - (posted0 hart0).ypend.toNat % 2 ^ 48) % 2 ^ 48 < 2 ^ 47 ∧
    (∀ o ∈ (mk .as ended1).ops, o.gang ≠ 0) ∧ (∀ a ∈ (mk .as ended1).adds, a.gang ≠ some 0) ∧
    ({ gang0 ended1 with st := .ended false } : Gang).st = .ended false ∧ (∀ h ∈ (gang0 ended1).harts, h.abuf = [] ∧ h.cbuf = []) ∧
    l0.ended + 1 = l0.record.gangs ∧
    ({ l0 with record := { l0.record with ctrl := 0x0000000200000001 } } : Launch).ended + 1 ≠
      ({ l0 with record := { l0.record with ctrl := 0x0000000200000001 } } : Launch).record.gangs := by
  refine ⟨rfl, rfl, ⟨⟨rfl, rfl⟩, rfl⟩, rfl, ?_, rfl, ?_⟩
  · intro k h; cases h
  · decide +kernel

/-- A hart's stores can all be performed, as they are and with a yield request. -/
theorem witness_storesGo : storesGo (posted0 (storing hart0)) ∧ storesGo (storing hart0) ∧ (storing hart0).mode = .active := by
  refine ⟨⟨?_, ?_⟩, ⟨?_, ?_⟩, rfl⟩ <;> simp [storing, posted0, canGo]

/-! #### LaunchPortEvents -/

/-- A code object at 0x20000: its header, the entries of its parts and of `.meta`, and `.meta` at 0x21000; module counter 8. -/
def objectCells : Memory :=
  [(2048, 0x6F), (4096, 0x44), (4097, 0x58), (4098, 0x4F), (4099, 1), (4100, 1), (4102, 3), (4105, 0x20), (4112, 0x40), (4160, 1),
   (4176, 0x40), (4192, 2), (4208, 0x40), (4224, 10), (4233, 0x10), (4241, 0x10), (4249, 0x10), (268439552, 1), (268439555, 1),
   (268439556, 8)]

/-- Where byte k of a page of local HBM lies. -/
def hbmAt (k : Nat) : Nat := (hbmMap 0x8400000000000000 0x0000004000000000 k).getD 0

/-- Its image, read from 0x20000, and the digest of it. -/
def objectImage (n : Nat) : List Byte := (List.range n).map fun k => memRead objectCells (hbmAt (0x20000 + k))
def objectDigest : BitVec 512 := shake256 (maskedImage (objectImage 8192) 4096)

/-- Port 0 enabled with root 0x10000, past boot; the digest d has been admitted. -/
def portState (d : BitVec 512) : State :=
  let s := setDevReg (setDevReg (mapped State.reset) 0x50000 0x8000000000010000) 0x50008 0
  { s with mem := objectCells, bed := { s.bed with stage := 3, cache := [{ digest := d, counter := 8, version := 0 }] } }

/-- A record for it, for one gang, and its bytes. -/
def record0 : Record :=
  { ctrl := 0x0000000100000001, code := 0x20000, kargs := 0, save := 0, waita := 0, waitv := 0, donea := 0, ids := 0 }
def recordData (ctrl code : Nat) : List Byte := natToBytes (ctrl + code * 2 ^ 64) 64

def portXlat : Xlat := { gallery := 0, root := 0x10000, asid := 0, hart := none, gang := none }

theorem port_granted (d : BitVec 512) (acc : Acc) {va : Nat} (hv : va < 4194304) :
    Granted (portState d) portXlat acc true va { gallery := 0, asid := 0, level := 1, vpn := 0, pte := 0x6F, pteLoc := 2048 } := by
  refine ⟨?_, ?_, ?_, ?_⟩
  · have h1 : ¬ Config.tcmBase ≤ va := by simp only [Config.tcmBase]; omega
    have h2 : ¬ Config.chamberBase ≤ va := by simp only [Config.chamberBase]; omega
    simp [inWindowSpan, inTcmSpan, inChamberSpan, h1, h2]
  · have ht : tlbTagVpn va 1 = 0 := by unfold tlbTagVpn pageBits; simp only; omega
    unfold tlbFind
    simp [portState, mapped, portXlat, ht, setDevReg]
  · intro _; cases acc <;> decide
  · intro _; decide

/-- n bytes of the object are located where its page puts them. -/
theorem port_locate (d : BitVec 512) (acc : Acc) (va n : Nat) (locs : List Nat)
    (hphys : physAccess acc 0x6F va va n (portState d) = .ok locs (portState d)) (ha : acc = .load ∨ acc = .fetch)
    (hv : va < 2097152) (hn : n ≤ 65536 - va % 65536) (h0 : 0 < n) :
    locate portXlat acc va n true (portState d) = .ok { locs := locs, dev := false, sa := false, kinds := [0] } (portState d) := by
  have hl : heldAt acc { gallery := 0, asid := 0, level := 1, vpn := 0, pte := 0x6F, pteLoc := 2048 } locs =
      { locs := locs, dev := false, sa := false, kinds := [0] } := by
    rcases ha with rfl | rfl <;> rfl
  rw [← hl]
  have e : leafPa { gallery := 0, asid := 0, level := 1, vpn := 0, pte := 0x6F, pteLoc := 2048 } va = va := by
    have h1 : ptePPN 0x6F = 0 := by decide +kernel
    simp only [leafPa, h1, pageBits]
    omega
  have h2 : inCavernSpan va = false := by
    have h : ¬ Config.cavernBase ≤ va := by simp only [Config.cavernBase]; omega
    simp [inCavernSpan, h]
  have h3 := canonical_low (va := (va + n - 1) % 2 ^ 64) (by omega)
  exact locate_held (port_granted d acc (by omega)) (by omega) (canonical_low (by omega)) h3 h2 hn (by rw [e]; exact hphys)

theorem port_reads (d : BitVec 512) (va n : Nat) (locs : List Nat)
    (hphys : physAccess .load 0x6F va va n (portState d) = .ok locs (portState d)) (hv : va < 2097152)
    (hn : n ≤ 65536 - va % 65536) (h0 : 0 < n) :
    readReachable portXlat va n (portState d) = .ok (locs.map (memRead objectCells)) (portState d) := by
  unfold readReachable
  rw [M.bind_ok (locateCtx_held h0 hn (port_locate d .load va n locs hphys (Or.inl rfl) hv hn h0)), M.bind_ok (M.get_run _)]
  simp only [show (portState d).dev.hostUp = true from rfl, Bool.not_true, Bool.and_false, Bool.false_eq_true, if_false]
  exact readLocs_run _ _ _ fun _ _ => rfl

theorem image_mapped : ∀ k, k < 8192 → hbmMap 0x8400000000000000 0x0000004000000000 (0x20000 + k) = some (hbmAt (0x20000 + k)) := by
  have h : (List.range 8192).all (fun k => decide
    (hbmMap 0x8400000000000000 0x0000004000000000 (0x20000 + k) = some (hbmAt (0x20000 + k)))) = true := by decide +kernel
  exact fun k hk => of_decide_eq_true (List.all_eq_true.mp h k (List.mem_range.mpr hk))

theorem image_read (d : BitVec 512) {n : Nat} (h0 : 256 < n) (hn : n ≤ 8192) :
    readReachable portXlat 0x20000 n (portState d) = .ok (objectImage n) (portState d) := by
  rw [port_reads d 0x20000 n ((List.range n).map fun k => hbmAt (0x20000 + k))
    (physAccess_hbm_bytes (by decide +kernel) (by omega) fun j hj => image_mapped j (by omega)) (by omega) (by omega) (by omega),
    List.map_map]
  rfl

/-- What its `.meta` gives. -/
def object : MetaInfo :=
  { vrl := 0, maxGang := 1, counter := 8, version := 0, emask := 0, asVec := 0x20000, csVec := 0x20000, asEntry := 0x20000
    csEntry := 0x20000, imageSize := 8192, metaOff := 4096 }

theorem port_meta (d : BitVec 512) : readMeta portXlat 0x20000 (portState d) = .ok (some object) (portState d) := by
  have places (va n loc : Nat) (hm : hbmMap 0x8400000000000000 0x0000004000000000 va = some loc) (hu : va % 256 + n ≤ 256) :
      physAccess .load 0x6F va va n (portState d) = .ok (locRange loc n) (portState d) :=
    physAccess_hbm (by decide +kernel) hm hu
  have r1 := port_reads d 0x20000 64 _ (places 0x20000 64 4096 (by decide +kernel) (by decide)) (by decide) (by decide) (by decide)
  have r2 := port_reads d (0x20000 + 64) (32 * 3) _ (places 0x20040 96 4160 (by decide +kernel) (by decide)) (by decide) (by decide) (by decide)
  have r3 := port_reads d (0x20000 + 4096) 128 _ (places 0x21000 128 268439552 (by decide +kernel) (by decide)) (by decide) (by decide) (by decide)
  have h1 : headerOk ((locRange 4096 64).map (memRead objectCells)) = some (3, 64, 8192) := by decide +kernel
  let secs := parseSections ((locRange 4160 96).map (memRead objectCells)) 3
  have h2 : (!(secs.all (·.ok 8192)) || !distinctTypes secs) = false := by decide +kernel
  have h3 : findSection secs 1 = some { type := 1, flags := 0, off := 0, size := 64, load := 0 } ∧
      findSection secs 2 = some { type := 2, flags := 0, off := 0, size := 64, load := 0 } ∧
      findSection secs 10 = some { type := 10, flags := 0, off := 4096, size := 4096, load := 4096 } := by decide +kernel
  have h4 : parseMeta 0x20000 ((locRange 268439552 128).map (memRead objectCells)) 8192 4096
      { type := 1, flags := 0, off := 0, size := 64, load := 0 } { type := 2, flags := 0, off := 0, size := 64, load := 0 } =
      some object := by decide +kernel
  unfold readMeta
  rw [show (0x20000 : Word).toNat = 0x20000 from rfl, M.bind_ok r1, h1]
  simp only
  rw [M.bind_ok r2]
  simp only [show parseSections ((locRange 4160 96).map (memRead objectCells)) 3 = secs from rfl, h2, h3, Bool.false_eq_true, if_false]
  rw [if_neg (by decide), M.bind_ok r3, h4]
  rfl

/-- A code object whose image has a digest that the cache holds is admitted. -/
theorem admits_cached {image : List Byte} {d : BitVec 512}
    (hi : readReachable portXlat 0x20000 8192 (portState d) = .ok image (portState d))
    (hd : shake256 (maskedImage image 4096) = d) :
    ∃ s1, s1.launches = [] ∧ ∀ tag, admitCode portXlat 0x20000 object tag (portState d) = (.yes d, s1) := by
  have hb : (portState d).bed = { Bedrock.reset with
    stage := 3, cache := [{ digest := d, counter := 8, version := 0 }] } := rfl
  have hv : (portState d).verdicts = [] := rfl
  refine ⟨{ portState d with bed := { (portState d).bed with
    cache := cacheUse (portState d).bed.cache { digest := d, counter := 8, version := 0 } } }, rfl, fun tag => ?_⟩
  unfold admitCode
  simp only [hb]
  rw [if_neg (by decide), show object.imageSize = 8192 from rfl, show (0x20000 : Word).toNat = 0x20000 from rfl, tried_ok hi]
  simp only [hb, hv]
  unfold admitDigest
  simp only [show object.metaOff = 4096 from rfl, hd]
  rw [if_neg (by decide : ¬ (!Bedrock.reset.keys || decide (object.version < (Bedrock.reset.fuses[object.counter]?).getD 0) ||
    decide (object.counter < 8)) = true)]
  simp only [List.find?_cons, beq_self_eq_true]
  rw [if_neg (by decide)]
  simp only [List.filter_nil, ite_self]

theorem port_code (d : BitVec 512) : codeOk portXlat 0x20000 (portState d) = (.holds, portState d) := by
  unfold codeOk accessCheck
  have h := port_locate d .fetch 0x20000 4 (locRange 4096 4)
    (physAccess_hbm (by decide +kernel)
      (show hbmMap 0x8400000000000000 0x0000004000000000 0x20000 = some 4096 by decide +kernel) (by decide))
    (Or.inr rfl) (by decide) (by decide) (by decide)
  have r := (M.bind_ok (f := fun l => readLocs [] l.locs 0x20000) h).trans (readLocs_run _ _ _ fun _ _ => rfl)
  rw [tried_ok r]

/-- A record without objects whose code translates, reads well and is admitted passes every check. -/
theorem late_of {s s1 : State} {p : BitVec 8} {r : Record} {c : PortCtx} {m : MetaInfo} {d : BitVec 512} (hw : r.waita = 0)
    (hd : r.donea = 0) (h1 : codeOk (ctxXlat (portDie p.toNat) c) r.code.toNat s = (.holds, s))
    (h2 : tried (readMeta (ctxXlat (portDie p.toNat) c) r.code) s = (.ok (some m), s))
    (h3 : (m.vrl != r.vrl || decide (m.maxGang < r.gsz)) = false)
    (h4 : ∀ tag, admitCode (ctxXlat (portDie p.toNat) c) r.code m tag s = (.yes d, s1)) :
    lateChecks s p r c = (s1, .admitted m d) := by
  have h5 : ∀ x s, loadOk x 0 s = (.holds, s) ∧ attrOk x 0 s = (.holds, s) := fun _ _ => ⟨rfl, rfl⟩
  unfold lateChecks codeChecks
  simp only [hw, hd, h1, h5, Check.also, h2, h3, h4, Bool.false_eq_true, if_false]

/-- The record passes every check. -/
theorem port_accepts {d : BitVec 512} {s1 : State} (h : ∀ tag, admitCode portXlat 0x20000 object tag (portState d) = (.yes d, s1)) :
    lateChecks (portState d) 0 record0 (portCtx (portState d) 0) = (s1, .admitted object d) := by
  have hx : ctxXlat (portDie (0 : BitVec 8).toNat) (portCtx (portState d) 0) = portXlat := by
    rw [show portCtx (portState d) 0 = portCtx (portState 0) 0 from rfl]
    decide +kernel
  refine late_of rfl rfl ?_ ?_ (by decide +kernel) ?_
  · rw [hx]; exact port_code d
  · rw [hx]; exact tried_ok (port_meta d)
  · rw [hx]; exact h

theorem object_admitted : ∃ s1, s1.launches = [] ∧
    ∀ tag, admitCode portXlat 0x20000 object tag (portState objectDigest) = (.yes objectDigest, s1) :=
  admits_cached (image_read objectDigest (by decide) (by decide)) rfl

theorem witness_port :
    let s := portState objectDigest
    let r := parseRecord (recordData 0x0000000100000001 0x20000)
    let c := portCtx s 0
    s.bed.stage = 3 ∧ Powered s ∧ Awake s ∧ (withBed s fun b => { b with pwr := 2 }).bed.pwr = 2 ∧
    (withBed s fun b => { b with pwr := 1 }).bed.pwr = 1 ∧ (∀ o d, HeldReq.record 0 o d ∉ s.heldReqs) ∧ r = record0 ∧
    (recordData 0x0000000100000001 0x20000).length = 64 ∧ r.donea = 0 ∧ r.waita = 0 ∧ (portQueue s 0).length < 16 ∧
    c.w0.getLsbD 63 = true ∧ (portCtx s 1).w0.getLsbD 63 = false ∧ r.ctrl.toNat % 8 = 1 ∧
    (parseRecord (recordData 2 0)).ctrl.toNat % 8 ≠ 1 ∧ r.fieldOk c = true ∧ (parseRecord (recordData 1 0)).fieldOk c = false ∧
    (∃ s1 m d, lateChecks s 0 r c = (s1, .admitted m d) ∧ portQueue s1 0 = []) ∧
    ∃ o d, HeldReq.record 0 o d ∈ ({ s with heldReqs := [.record 0 0 []] } : State).heldReqs := by
  have e : parseRecord (recordData 0x0000000100000001 0x20000) = record0 := by decide +kernel
  obtain ⟨s1, hl, ha⟩ := object_admitted
  have h := port_accepts ha
  simp only [e]
  refine ⟨rfl, rfl, ⟨⟨rfl, rfl⟩, rfl⟩, rfl, rfl, (fun _ _ h => by cases h), trivial, ?_, rfl, rfl, ?_, ?_, ?_, ?_, ?_, ?_, ?_,
    ⟨s1, object, _, h, ?_⟩, 0, [], List.mem_cons_self ..⟩
  case refine_9 => unfold portQueue; rw [hl]; rfl
  all_goals decide +kernel

/-- A record whose code is not mapped, one whose code lies behind a link that is down, and a full queue. -/
theorem witness_portRefuses :
    (∃ s1 code, lateChecks (portState 0) 0 { record0 with code := 0x10000000 } (portCtx (portState 0) 0) = (s1, .refused code)) ∧
    16 ≤ (portQueue { portState 0 with launches := (List.range 16).map fun k => { l0 with id := k, passed := false } } 0).length := by
  refine ⟨⟨(lateChecks (portState 0) 0 { record0 with code := 0x10000000 } (portCtx (portState 0) 0)).1, 7, Prod.ext rfl ?_⟩, ?_⟩
  · decide +kernel
  · decide +kernel

/-- Destination 1 has a route of one link, which is down; the page at 0x10000000 lies in that package. -/
def peerPage (s : State) : State :=
  let s := mapLink (setDevReg s 0x40008 0x10001) 0 fun l => { l with live := false }
  { s with tlb := s.tlb ++ [{ gallery := 0, asid := 0, level := 3, vpn := tlbTagVpn 0x10000000 3, pte := 0x40000000086F, pteLoc := 2048 }] }

theorem witness_portStalls : ∃ s1,
    lateChecks (peerPage (portState 0)) 0 { record0 with code := 0x10000000 } (portCtx (peerPage (portState 0)) 0) = (s1, .stalls) :=
  ⟨(lateChecks (peerPage (portState 0)) 0 { record0 with code := 0x10000000 } (portCtx (peerPage (portState 0)) 0)).1,
    Prod.ext rfl (by decide +kernel)⟩

/-- A record that waits at va for the value n, in port 0 of a device whose page at 0 is held, and its launch. -/
def waiting (va n : Word) : Launch :=
  { l0 with id := 0, passed := false, seen := none, record := { l0.record with waita := va, waitv := n } }
def waitState (va n : Word) : State :=
  { peerPage (mapped State.reset) with
    bed := { Bedrock.reset with stage := 3 }, launches := [waiting va n]
    notices := [{ duty := 2, kind := .dependence, words := [0, 0] }] }

theorem witness_observe (n : Word) (hn : n = 0 ∨ n = 1) :
    let s := waitState 0x1000 n
    let r1 := tried (waitRemote (ctxXlat (portDie (waiting 0x1000 n).port) (waiting 0x1000 n).ctx) 0x1000) s
    let r2 := tried (readCtx (ctxXlat (portDie (waiting 0x1000 n).port) (waiting 0x1000 n).ctx) 0x1000 8) r1.2
    s.bed.stage = 3 ∧ Awake s ∧ Powered s ∧ (waiting 0x1000 n).passed = false ∧ (waiting 0x1000 n).seen = none ∧
    findLaunchId s 0 = some (waiting 0x1000 n) ∧ r1 = (.ok false, r1.2) ∧ r2 = (.ok (List.replicate 8 0), r2.2) ∧
    (BitVec.ofNat 64 (bytesToNat (List.replicate 8 0))).toNat % 2 ^ 63 = 0 ∧
    (waiting 0x1000 n).record.waitv = n ∧ portQueue r2.2 (waiting 0x1000 n).port = [waiting 0x1000 n] ∧
    (waiting 0x1000 n).record.ctrl.getLsbD 15 = false ∧
    (∃ k ∈ s.notices, k.kind = .dependence ∧ (k.words[1]?).getD 0 = BitVec.ofNat 64 0) ∧ (waiting 0x1000 n).record.donea = 0 := by
  rcases hn with rfl | rfl
  all_goals
    refine ⟨rfl, ⟨⟨rfl, rfl⟩, rfl⟩, rfl, rfl, rfl, rfl, of_answer (by decide +kernel), of_answer (by decide +kernel),
      by decide, rfl, by decide +kernel, by decide +kernel, ⟨_, List.mem_cons_self .., rfl, rfl⟩, rfl⟩

/-- What the sequencer meets at a wait object at va: where it lies, and the load. -/
def waitWhere (va : Word) : Tried Bool × State := tried (waitRemote (ctxXlat (portDie 0) l0.ctx) va.toNat) (waitState va 1)
def waitLoad (va : Word) : Tried (List Byte) × State := tried (readCtx (ctxXlat (portDie 0) l0.ctx) va.toNat 8) (waitWhere va).2

/-- An object beyond what the descriptor maps, one whose address is not mapped, one in a package that no live link reaches. -/
theorem witness_observeFails :
    (waiting 0x500000 1).record.waita ≠ 0 ∧ waitWhere 0x500000 = (.ok false, (waitWhere 0x500000).2) ∧
    (∃ k, waitLoad 0x500000 = (.trap k, (waitLoad 0x500000).2) ∧ k.cause ≠ 0x1E) ∧
    (∃ k, waitWhere 0x40000001000 = (.trap k, (waitWhere 0x40000001000).2) ∧ k.cause ≠ 0x1E) ∧
    waitWhere 0x10000000 = (.ok true, (waitWhere 0x10000000).2) ∧
    portQueue (waitLoad 0x500000).2 (waiting 0x500000 1).port = [waiting 0x500000 1] := by
  have away {α : Type} {r : Tried α × State} (h : trapped r = true) (n : trapCause r ≠ some 0x1E) :
      ∃ k, r = (.trap k, r.2) ∧ k.cause ≠ 0x1E := by
    obtain ⟨k, hk⟩ := of_trapped h
    refine ⟨k, hk, fun e => n ?_⟩
    rw [hk]
    exact congrArg some e
  exact ⟨by decide, of_answer (by decide +kernel), away (by decide +kernel) (by decide +kernel),
    away (by decide +kernel) (by decide +kernel), of_answer (by decide +kernel), by decide +kernel⟩

/-- A record behind that one has been seen to pass. -/
theorem witness_dependence :
    let l := waiting 0x1000 1
    let m : Launch := { l with id := 1, seen := some 0 }
    let s : State := { waitState 0x1000 1 with launches := [l, m] }
    Powered s ∧ s.bed.stage = 3 ∧ findLaunchId s 0 = some l ∧ l.record.donea = 0 ∧ portQueue s l.port = [l, m] ∧ m.id ≠ l.id ∧
    m.seen = some 0 ∧ (0 : Word).getLsbD 63 = false ∧
    ∃ k ∈ s.notices, k.kind = .dependence ∧ (k.words[1]?).getD 0 = BitVec.ofNat 64 0 := by
  refine ⟨rfl, rfl, rfl, rfl, by decide +kernel, by decide +kernel, rfl, by decide +kernel, ?_⟩
  exact ⟨_, List.mem_cons_self .., rfl, rfl⟩

/-- Observations that carry the error bit, of records that check it or do not. -/
theorem witness_errorBit :
    (0x8000000000000000 : Word).getLsbD 63 = true ∧ (0x0000000100008001 : Word).getLsbD 15 = true ∧
    (0x0000000100000001 : Word).getLsbD 15 = false ∧ (0 : Word).toNat ≤ (0x8000000000000000 : Word).toNat % 2 ^ 63 := by decide

/-! #### AnswersAndSaves -/

/-- A hart stopped at a system trap of cause 0x14. -/
def trapping (x : Hart) : Hart := { x with sysTrap := true, tr := { x.tr with ecause := 0x14 } }
/-- A hart with a save in state st from offset off of an area at 0x40000. -/
def saving (st : SaveWait) (off : Nat) (base : Word) (x : Hart) : Hart :=
  { x with mode := .saving, save := some { base := base, limit := 2 ^ 24, off := off, st := st, done := false } }

theorem witness_answers :
    let x := trapping hart0
    findGang (mk .as id) 0 = some (gang0 id) ∧ findHart (mk .as id) 0 0 = some hart0 ∧ Powered (mk .as id) ∧ hart0.sysTrap = false ∧
    findHart (mk .as trapping) 0 0 = some x ∧ x.sysTrap = true ∧ x.mode = .active ∧ x.tr.ecause.getLsbD 11 = false ∧
    x.tr.epca.toNat % 8 = 0 ∧ x.tr.epcc.toNat % 8 = 0 ∧ x.held = [] ∧
    x.tr.ecause.toNat % 256 = 0x14 ∧ ({ x with mode := .debugHalt } : Hart).mode ≠ .active ∧
    (saving .needArea 0 0 hart0).save = some { base := 0, limit := 2 ^ 24, off := 0, st := .needArea, done := false } ∧
    (saving (.incomplete 0 0) 8 0 hart0).save = some { base := 0, limit := 2 ^ 24, off := 8, st := .incomplete 0 0, done := false } ∧
    8 ≤ (16 : Nat) ∧ (2 : Nat) ^ 32 ≠ 8 := by
  refine ⟨rfl, rfl, rfl, rfl, rfl, rfl, rfl, rfl, rfl, rfl, rfl, ?_⟩
  decide +kernel

/-- The writes that remain of that save, here only the status word: the hart lies on the held page, or on none. -/
def written (base : Word) : SaveEnd × Nat × State :=
  let s := mapped (mk .as (saving .writing (2 ^ 32) base))
  let x := saving .writing (2 ^ 32) base hart0
  let cxe := { hartXlat s 0 0 with hart := none, gang := none }
  writeChunks cxe base (2 ^ 24) ((saveChunks s 4096 (gang0 (saving .writing (2 ^ 32) base)) 0 x).filter (fun c => 2 ^ 32 ≤ c.off) ++
    [{ off := 0, bytes := natToBytes (statusWord x).toNat 8 }]) s

theorem witness_save :
    let s := mapped (mk .as (saving .writing (2 ^ 32) 0x40000))
    Clocked s ∧ findHart s 0 0 = some (saving .writing (2 ^ 32) 0x40000 hart0) ∧ findLaunch s 0 = some l0 ∧
    (∀ h ∈ (gang0 (saving .writing (2 ^ 32) 0x40000)).harts, h.mode = .saving ∨ h.mode = .exited) ∧
    (saving .writing (2 ^ 32) 0x40000 hart0).save =
      some { base := 0x40000, limit := 2 ^ 24, off := 2 ^ 32, st := .writing, done := false } ∧
    4096 * 2 ^ (l0.record.ctrl.toNat / 8 % 8) = 4096 ∧ (gang0 (saving .writing (2 ^ 32) 0x40000)).st = .resident ∧
    (written 0x40000).1 = .complete ∧ (written 0x10000000).1 ≠ .complete ∧ (written 0x10000000).1 ≠ .stall ∧
    findHart (written 0x10000000).2.2 0 0 = some (saving .writing (2 ^ 32) 0x10000000 hart0) :=
  ⟨⟨rfl, rfl⟩, rfl, rfl, by decide +kernel⟩

/-- A restore of a hart that had ended, whose gang holds no chamber block; and one from an area that is not mapped. -/
def restoring (m : HartMode) (base : Word) (x : Hart) : Hart :=
  { x with mode := m, save := some { base := base, limit := 2 ^ 24, off := 0, st := .writing, done := true } }
def restoreGang (m : HartMode) (base : Word) : Gang := { gang0 (restoring m base) with st := .restoring }
def restored (m : HartMode) (base : Word) : Tried Hart × State :=
  let s := { mapped (mk .as (restoring m base)) with gangs := [restoreGang m base] }
  tried (restoreHart { hartXlat s 0 0 with hart := none, gang := none } base 4096 (restoreGang m base) 0 (restoring m base hart0)) s

theorem witness_restore :
    (restoreGang .exited 0x40000).st = .restoring ∧ went (restored .exited 0x40000) = true ∧ (∃ k, restored .saving 0x10000000 = (.trap k, (restored .saving 0x10000000).2) ∧
      k.cause ≠ 0x1E) ∧
    findGang (restored .saving 0x10000000).2 0 = some (restoreGang .saving 0x10000000) := by
  refine ⟨rfl, by decide +kernel, ?_, by decide +kernel⟩
  have h : trapCause (restored .saving 0x10000000) ≠ some 0x1E ∧ trapped (restored .saving 0x10000000) = true := by decide +kernel
  obtain ⟨k, hk⟩ := of_trapped h.2
  refine ⟨k, hk, fun e => h.1 ?_⟩
  rw [hk]
  exact congrArg some e

/-! #### EngineEvents -/

/-- A copy of one byte from 0x1000 to 0x2000 on the held page, with an arrival counter at arr, or into n bits. -/
def copyDesc (ctl arr : Word) : CopyDesc := { from_ := 0x1000, to_ := 0x2000, ctl := ctl, arr := arr, dims := [(1, 0, 0)] }
def copyOp (fault : Option (Word × Word)) (d : CopyDesc) : Op :=
  { id := 0, gang := 0, hid := 0, gallery := 0, body := .copy d, obj := 0, done := 0, sent := 0, tfault := fault }
def copyState (fault : Option (Word × Word)) (d : CopyDesc) : State := { mapped (mk .as id) with ops := [copyOp fault d] }

def copyDone (arr : Word) : Nat × OpEnd × State :=
  copyRun (opXlat (copyState none (copyDesc 0xC6 arr)) (copyOp none (copyDesc 0xC6 arr))) (copyDesc 0xC6 arr) 1 0 (copyState none (copyDesc 0xC6 arr))

theorem witness_copyRuns :
    let d := copyDesc 0xC6 0
    findOp (copyState none d) 0 = some (copyOp none d) ∧ (copyOp none d).id = 0 ∧ Powered (copyState none d) ∧ Clocked (copyState none d) ∧
    (copyOp (some (0, 0)) d).tfault.isSome = true ∧ (copyOp none d).tfault = none ∧ (copyDesc 0 0x3).bad = false ∧
    (copyDesc 0xFFFF 0).bad = true ∧ d.bad = false ∧ d.arr = 0 ∧ d.total - 0 = 1 ∧ (copyDone 0).1 = 1 ∧ (copyDone 0).2.1 = .ok ∧
    d.fmtF = d.fmtT ∧ fmtWidth d.fmtF = 8 ∧ d.dims.map (fun x => x.1.toNat) = [1] ∧
    (copyDesc 0xC6 0x3000).arr.toNat % 8 = 0 ∧ (copyDone 0x3000).1 = 1 ∧ (copyDone 0x3000).2.1 = .ok := by
  refine ⟨rfl, rfl, rfl, ⟨rfl, rfl⟩, ?_⟩
  decide +kernel

/-- The access to its counter. -/
def counterAt : Tried Found × State :=
  tried (locate (opXlat (copyState none (copyDesc 0xC6 0x3000)) (copyOp none (copyDesc 0xC6 0x3000))) .atomic 0x3000 8)
    (mapOp (copyDone 0x3000).2.2 0 fun o => { o with done := 1 })

/-- The accesses of that copy and of its counter are made, one after another. -/
theorem witness_copyAccesses :
    let s := copyState none (copyDesc 0xC6 0x3000)
    let x := opXlat s (copyOp none (copyDesc 0xC6 0x3000))
    let r1 := tried (readCtx x 0x1000 (8 / 8)) s
    let r2 := tried (locateCtx x .store 0x2000 (8 / 8)) r1.2
    answer r1 = some [0] ∧ went r2 = true ∧
      ∃ f, counterAt = (.ok f, counterAt.2) ∧ went (tried (readLocs [] f.locs 0x3000) counterAt.2) = true := by
  have h : (answer counterAt).any (fun f => went (tried (readLocs [] f.locs 0x3000) counterAt.2)) = true := by decide +kernel
  refine ⟨by decide +kernel, by decide +kernel, ?_⟩
  obtain ⟨f, hf, hg⟩ := (Option.any_eq_true ..).mp h
  exact ⟨f, of_answer hf, hg⟩

/-- A sum of n words of two members in this package, of which the second has m words. -/
def sumDesc (n : Nat) (from_ to_ : Word) : CollDesc := { from_ := from_, to_ := to_, ctl := BitVec.ofNat 64 (n * 256 + 0x20), resv := 0 }
def sumOp (k n : Nat) (f t : Word) : Op :=
  { id := k, gang := 0, hid := 0, gallery := 0, body := .coll 9 0 (sumDesc n f t), obj := 0, done := 0, sent := 0, tfault := none }
def sumColl : CollOp := { id := 9, num := 0, route := some [0, 0], members := [(0, 0), (1, 1)], ended := false, complete := false }
def sumState (m : Nat) : State :=
  { mapped (mk .as id) with ops := [sumOp 0 1 0x1000 0x2000, sumOp 1 m 0x1100 0x2100], colls := [sumColl] }

theorem witness_collectiveRuns :
    let s := sumState 1
    let r0 := tried (readCtx (opXlat s (sumOp 0 1 0x1000 0x2000)) 0x1000 (1 * 4)) s
    let r1 := tried (readCtx (opXlat r0.2 (sumOp 1 1 0x1100 0x2100)) 0x1100 (1 * 4)) r0.2
    let r2 := tried (locateCtx (opXlat r1.2 (sumOp 0 1 0x1000 0x2000)) .store 0x2000 (1 * 4)) r1.2
    let r3 := tried (locateCtx (opXlat r2.2 (sumOp 1 1 0x1100 0x2100)) .store 0x2100 (1 * 4)) r2.2
    Clocked s ∧ findColl s 9 0 = some sumColl ∧ sumColl.route = some [0, 0] ∧ sumColl.ready s [0, 0] [] = true ∧
    s.dev.pkg = 0 ∧
    localMembers s sumColl [0, 0] = [(0, sumOp 0 1 0x1000 0x2000, sumDesc 1 0x1000 0x2000), (1, sumOp 1 1 0x1100 0x2100, sumDesc 1 0x1100 0x2100)] ∧
    collAgree 2 (sumDesc 1 0x1000 0x2000) (sumDesc 1 0x1000 0x2000) = true ∧
    collAgree 2 (sumDesc 1 0x1000 0x2000) (sumDesc 1 0x1100 0x2100) = true ∧ (sumDesc 1 0x1000 0x2000).op = 0 ∧
    (sumDesc 1 0x1000 0x2000).fmt = 0x04 ∧ (sumDesc 1 0x1000 0x2000).count = 1 ∧ went r0 = true ∧ went r1 = true ∧ went r2 = true ∧
    went r3 = true ∧ localMembers (sumState 2) sumColl [0, 0] =
      [(0, sumOp 0 1 0x1000 0x2000, sumDesc 1 0x1000 0x2000), (1, sumOp 1 2 0x1100 0x2100, sumDesc 2 0x1100 0x2100)] ∧
    collAgree 2 (sumDesc 1 0x1000 0x2000) (sumDesc 2 0x1100 0x2100) = false ∧
    (∀ p ∈ ([0, 0] : List (BitVec 8)), p.toNat = s.dev.pkg.toNat) ∧ (sumDesc 1 0x1000 0x2000).inWindow 2 = false ∧
    (sumDesc 1 0x1100 0x2100).inWindow 2 = false ∧ (sumDesc 1 0xF000000000 0x2000).inWindow 2 = true := by
  refine ⟨⟨rfl, rfl⟩, rfl, rfl, ?_⟩
  decide +kernel

/-- Two members of which one names a window. -/
theorem witness_collectiveWindow :
    let s : State := { mapped (mk .as id) with ops := [sumOp 0 1 0xF000000000 0x2000, sumOp 1 1 0x1100 0x2100], colls := [sumColl] }
    localMembers s sumColl [0, 0] =
      [(0, sumOp 0 1 0xF000000000 0x2000, sumDesc 1 0xF000000000 0x2000), (1, sumOp 1 1 0x1100 0x2100, sumDesc 1 0x1100 0x2100)] ∧
    sumColl.ready s [0, 0] [] = true := by decide +kernel

/-- A launch whose program 2 the near-bank owner was asked about. -/
def askedState : State :=
  { State.reset with
    launches := [{ l0 with id := 7, digest := 9 }]
    notices := [{ duty := 3, kind := .nbeVerdict, words := [0, 5, 1, 2, 7] }] }

/-- A fault of a collective, in a package that knows its operation or not, and a notice that asks for a verdict. -/
theorem witness_verdict :
    ({ sumOp 0 1 0 0 with tfault := some (0, 0) } : Op).tfault.isSome = true ∧ findColl (sumState 1) 9 0 = some sumColl ∧
    findColl State.reset 9 0 = none ∧ Powered askedState ∧
    (∃ n ∈ askedState.notices, n.kind = .nbeVerdict ∧
      (n.words.drop 1).take 3 = [5, (1 : BitVec 16).setWidth 64, BitVec.ofNat 64 (2 : BitVec 8).toNat] ∧
      n.words[4]? = some 7 ∧ findLaunchId askedState (7 : Word).toNat = some { l0 with id := 7, digest := 9 }) ∧
    (∀ n ∈ askedState.notices, n.words[4]? = some 7) ∧ askedState.verdicts = [] ∧
    (∃ v ∈ [((9 : BitVec 512), 2, Verdict.passed)], v.1 = 9 ∧ v.2.1 = 2) := by
  refine ⟨rfl, rfl, rfl, rfl, ⟨_, List.mem_cons_self .., rfl, rfl, rfl, rfl⟩, ?_, rfl, _, List.mem_cons_self .., rfl, rfl⟩
  intro n hn
  rw [List.mem_singleton.mp hn]
  rfl

/-! #### HartEvents -/

/-- The AS waits for the cold page of 0x10000000, which lies in host memory. -/
def coldHart (x : Hart) : Hart := { x with as_ := { x.as_ with cond := .waiting (.coldText 0x1000) } }
def coldState : State :=
  { mapped (mk .as coldHart) with
    tlb := [{ gallery := 0, asid := 0, level := 3, vpn := tlbTagVpn 0x10000000 3, pte := 0x1000E2B, pteLoc := 2048 }] }

/-- The same with the first byte of the page poisoned, and with a *resume* answer that came while the hart did not wait. -/
def coldSource : Nat := ((answer (tried (coldPage (hartXlat coldState 0 0) 0x10000000) coldState)).map fun p => p.2.headD 0).getD 0
def coldPoisoned : State := { coldState with poison := [coldSource / 32] }
def answered (x : Hart) : Hart :=
  { x with answer := some none, sysTrap := true, tr := { x.tr with ecause := 0x81E, epca := 0x10000004 } }

/-- A try that ended in a wait for cold page n. -/
def coldWaits {α : Type} (r : Tried α × State) (n : Nat) : Bool :=
  match r.1 with
  | .wait w => w == .coldText n
  | _ => false

theorem witness_cold :
    (coldHart hart0).as_.cond = .waiting (.coldText 0x1000) ∧ hart0.as_.cond ≠ .waiting (.coldText 0x1000) ∧
    hart0.cs.cond ≠ .waiting (.coldText 0x1000) ∧ (0x10000000 : Word).toNat / 65536 = 0x1000 ∧ hart0.answer = none ∧ coldState.bed.off = false ∧
    went (tried (coldPage (hartXlat coldState 0 0) 0x10000000) coldState) = true ∧
    went (tried (coldPage (hartXlat coldPoisoned 0 0) 0x10000000) coldPoisoned) = true ∧
    ((answer (tried (coldPage (hartXlat coldPoisoned 0 0) 0x10000000) coldPoisoned)).any fun p =>
      (p.2[0]?).any fun q => poisoned (tried (coldPage (hartXlat coldPoisoned 0 0) 0x10000000) coldPoisoned).2 q) = true ∧
    (answered hart0).mode = .active ∧ (answered hart0).answer = some none ∧ (answered hart0).tr.ecause.getLsbD 11 = true := by
  decide +kernel

/-- A hart with such an answer whose handler's `epc` lies on the cold page. -/
def answeredState : State := { mk .as answered with mem := coldState.mem, tlb := coldState.tlb }

theorem witness_coldAnswer :
    went (tried (coldPage (hartXlat answeredState 0 0) 0x10000000) answeredState) = true ∧
    coldWaits (tried (checkResume .as (((answered hart0).answered none).slice .as).pc)
      { withAnswer answeredState 0 0 none with cur := .slice 0 0 .as }) 0x1000 = true := by
  refine ⟨by decide +kernel, ?_⟩
  decide +kernel

theorem frame_mapped : ∃ dst, frameLocs (mapped State.reset) 0 0 = some dst := by
  have h : ∀ pa, pa < 4194304 → (hbmMap 0x8400000000000000 0x0000004000000000 pa).isSome = true := by
    intro pa hp
    have e1 : ilEn 0x8400000000000000 = true ∧ ilBase 0x8400000000000000 = 0 ∧ ilSize 0x0000004000000000 = 4194304 := by decide +kernel
    have e2 : ¬ ((!ilEn 0x8400000000000000 || decide (pa < ilBase 0x8400000000000000) ||
        decide (ilBase 0x8400000000000000 + ilSize 0x0000004000000000 ≤ pa)) = true) := by
      simp only [e1, Bool.not_true, Bool.false_or, Bool.or_eq_true, decide_eq_true_eq]
      omega
    unfold hbmMap
    rw [if_neg e2]
    simp only
    split <;> rfl
  have m : ∀ (l : List Nat) (f : Nat → Option Nat), (∀ k ∈ l, (f k).isSome = true) → (l.mapM f).isSome = true := by
    intro l f hl
    induction l with
    | nil => rfl
    | cons k l ih =>
      obtain ⟨a, ha⟩ := Option.isSome_iff_exists.mp (hl k (List.mem_cons_self ..))
      obtain ⟨b, hb⟩ := Option.isSome_iff_exists.mp (ih fun j hj => hl j (List.mem_cons_of_mem _ hj))
      rw [List.mapM_cons, ha]
      simp only [Option.bind_eq_bind, Option.bind_some, hb]
      rfl
  apply Option.isSome_iff_exists.mp
  refine m _ _ fun k hk => ?_
  have hk := List.mem_range.mp hk
  have e : (0 : BitVec 36).toNat * 65536 + k = k := by simp
  rw [e]
  exact h k (by omega)

/-- The page copied into the frame at 0, with no poison anywhere. -/
theorem witness_coldCopied : (∃ dst, frameLocs coldState 0 0 = some dst) ∧
    (tried (coldPage (hartXlat coldState 0 0) 0x10000000) coldState).2.poison = [] :=
  ⟨by obtain ⟨d, h⟩ := frame_mapped; exact ⟨d, h⟩, by decide +kernel⟩

/-- Both slices wait, for each other or for a descriptor. -/
def stuck (n : Nat) (w : WaitAt) (x : Hart) : Hart :=
  { x with waitCount := n, as_ := { x.as_ with cond := .waiting .queue }, cs := { x.cs with cond := .waiting w } }

theorem witness_hartEvents :
    Awake (mk .as id) ∧ Clocked (mk .as id) ∧ Powered (mk .as id) ∧ (stuck 65536 .queue hart0).mode = .active ∧
    (stuck 65536 .queue hart0).sysTrap = false ∧
    65536 ≤ (stuck 65536 .queue hart0).waitCount ∧ (stuck 65536 .queue hart0).as_.cond = .waiting .queue ∧
    (stuck 65536 .queue hart0).cs.cond = .waiting .queue ∧ (stuck 65536 .snext hart0).cs.cond = .waiting .snext ∧
    (stuck 65535 .queue hart0).waitCount < 65536 ∧ (gang0 id).st = .resident ∧
    ({ mk .as id with agenda := [.clocks 5] } : State).agenda = [.clocks 5] := by
  refine ⟨⟨⟨rfl, rfl⟩, rfl⟩, ⟨rfl, rfl⟩, rfl, ?_⟩
  decide +kernel

/-- A hart with a marker behind one store, or before it. -/
def marked (n : Nat) (x : Hart) : Hart := { x with markers := [(0, n)], cbuf := [{ cells := [(5, 1)], seq := 3 }] }

theorem witness_markers :
    (marked 3 hart0).markers = [(0, 3)] ∧ (∀ w ∈ (marked 3 hart0).cbuf, 3 ≤ w.seq) ∧
    ∀ k ∈ (marked 4 hart0).markers, ∃ w ∈ (marked 4 hart0).cbuf, w.seq < k.2 := by decide +kernel

/-- Of two stores of the CS to different bytes the younger passes; to the same byte it does not. -/
theorem witness_passes :
    let o : PWrite := { cells := [(5, 1)], seq := 0 }
    let w : PWrite := { cells := [(6, 1)], seq := 1 }
    let x : Hart := { hart0 with cbuf := [o, w] }
    (x.buf .cs)[1]? = some w ∧ (∀ o ∈ (x.buf .cs).take 1, passes .cs o w) ∧ canGo w ∧ ¬ passes .cs o { w with cells := [(5, 2)] } ∧
    ¬ canGo { w with open_ := true } := by
  refine ⟨rfl, ?_, ⟨rfl, by simp⟩, by simp [passes], by simp [canGo]⟩
  intro o ho
  rw [List.mem_singleton.mp ho]
  simp [passes]

/-- Stream 1 to read or to write in the TCM, or to write at an address that is not mapped. -/
def walkHart (d : Desc) (x : Hart) : Hart := adopts 1 d x

theorem witness_siphon :
    let r := walkElem (lin 0x06 2 false) ((walkHart (lin 0x06 2 false) hart0).stream 1) 0
    let s := mk .as (walkHart (lin 0x06 2 false))
    let far := lin 0x06 2 true 0x10000000
    Awake s ∧ (walkHart far hart0).mode = .active ∧ (walkHart far hart0).stream ((1 : BitVec 4).setWidth 5) = (walkHart far hart0).stream 1 ∧
    ((walkHart far hart0).stream 1).adopted = some far ∧ ((walkHart far hart0).stream 1).dfault = none ∧ far.wr = true ∧ far.kind ≠ 2 ∧
    max ((walkHart far hart0).stream 1).ahead ((walkHart far hart0).stream 1).pos < far.len ∧ far.pagesTo 0 0 ≤ 4 ∧
    (∃ cells next, tried r { s with cur := .slice 0 0 .cs } = (.ok (.read cells next), (tried r { s with cur := .slice 0 0 .cs }).2)) ∧
    went (tried (translateAhead (hartXlat (mk .as (walkHart (lin 0x06 2 true))) 0 0) (lin 0x06 2 true) 0 8) (mk .as (walkHart (lin 0x06 2 true)))) = true ∧
    trapped (tried (translateAhead (hartXlat (mk .as (walkHart far)) 0 0) far 0 8) (mk .as (walkHart far))) = true := by
  refine ⟨⟨⟨rfl, rfl⟩, rfl⟩, rfl, rfl, ?_, ?_, ?_, ?_, ?_, ?_, ?_, ?_, ?_⟩
  case refine_1 | refine_2 | refine_3 | refine_4 | refine_5 | refine_6 | refine_8 | refine_9 => decide +kernel
  have h : (match answer (tried (walkElem (lin 0x06 2 false) ((walkHart (lin 0x06 2 false) hart0).stream 1) 0)
      { mk .as (walkHart (lin 0x06 2 false)) with cur := .slice 0 0 .cs }) with | some (.read _ _) => true | _ => false) = true := by decide +kernel
  split at h
  · next a b e => exact ⟨a, b, of_answer e⟩
  · cases h

/-- A store stream that is five pages ahead; a page that is held; a load whose next element lies 64 KiB on; a load that faults. -/
theorem witness_siphonStops :
    let d := lin 0x06 400000 true 0
    let x := (walkHart d hart0).setStream 1 { (walkHart d hart0).stream 1 with ahead := 350000 }
    let s := mapped (mk .as id)
    let walk (l : Desc) (p : Nat) : Tried Ahead × State :=
      tried (walkElem l ((walkHart l hart0).stream 1) p) { mapped (mk .as (walkHart l)) with cur := .slice 0 0 .cs }
    4 < d.pagesTo (x.stream 1).pos (max (x.stream 1).ahead (x.stream 1).pos) ∧ max (x.stream 1).ahead (x.stream 1).pos < d.len ∧
    inWindowSpan (d.elemAt 0x1000 8).va = false ∧ canonical (d.elemAt 0x1000 8).va = true ∧
    (d.elemAt 0x1000 8).va % 65536 + (d.elemAt 0x1000 8).bytes ≤ 65536 ∧
    went (tried (pageLeaf (hartXlat s 0 0) .store true 0x1000 0x1000) s) = true ∧
    (match (walk (lin 0x06 400000 false 0) 350000).1 with | .ok .stop => true | _ => false) = true ∧
    trapped (walk (lin 0x06 2 false 0x10000000) 0) = true := by
  decide +kernel

/-! #### StepRunsDecoded, DecodeEncode, StepKeepsMemory -/

/-- A word that the fetch buffer holds at its pc. -/
def fetched (pc : Word) (c : List (Word × TextWord)) (x : Hart) : Hart := { x with as_ := { x.as_ with pc := pc, fbuf := c } }

theorem witness_step :
    let s := mk .as (fetched 0x1000 [(0x1000, 3)])
    s.agenda = [] ∧ s.cur = .slice 0 0 .as ∧ s.bed.off = false ∧ s.bed.pwr = 0 ∧ s.bed.retainPending = false ∧
    findGang s 0 = some (gang0 (fetched 0x1000 [(0x1000, 3)])) ∧ (gang0 (fetched 0x1000 [(0x1000, 3)])).st = .resident ∧
    hart0.mode = .active ∧ hart0.sysTrap = false ∧ hart0.as_.cond = .running ∧
    (0x1000 : Word).toNat % 4 = 0 ∧ (3 : TextWord).toNat % 4 ≠ 2 ∧ decodeWords 3 none false = .ok (.nop, 4) ∧
    (fetched 0x1000 [(0x1000, 3)] hart0).as_.fbuf.find? (fun c => c.1 == 0x1000) = some (0x1000, 3) := by
  refine ⟨rfl, rfl, rfl, rfl, rfl, rfl, rfl, ?_⟩
  decide +kernel

/-- A prefix and its word, a half word in the second slot, a word of a near-bank program and of survey text. -/
theorem witness_stepForms :
    (let w := encode (.vld2 (ops 3 1 0) 4)
     w.length = 2 ∧ (w.getD 0 0).toNat % 4 = 2 ∧ decodeWords (w.getD 0 0) (w[1]?) false = .ok (.vld2 (ops 3 1 0) 4, 8)) ∧
    (∃ w : TextWord, w.toNat % 4 = 1 ∧ decodeWords w none true = .ok (.cNop, 2)) ∧ decodeNbe 11 = .ok .nwait := by
  refine ⟨by decide +kernel, ⟨1, ?_⟩, by decide +kernel⟩
  decide +kernel

/-- An engine that runs `nwait`, and a survey core at a `nop` of its text in local HBM. -/
theorem witness_stepAgents :
    (run0.prog ++ [11])[0]? = some (11 : TextWord) ∧
    (let s := { debugState 3 (mapped (onSurvey 0)) with mem := [(0, 3)] }
     s.agenda = [] ∧ s.cur = .survey 0 ∧ s.bed.off = false ∧ s.bed.pwr ≠ 2 ∧ s.bed.retainPending = false ∧
     (surveyOf s 0).mode = .running ∧ (match fetchSurvey s 0 with | .ok (.instr i) => decide (i = .nop) | _ => false) = true) := by
  refine ⟨by decide +kernel, rfl, rfl, rfl, ?_⟩
  decide +kernel

/-- A turn of the queue's head for one element group: it ends, or pauses; and a hart that is past its deadline. -/
def grouped (n : Nat) (x : Hart) : Hart :=
  { regs { bits := 5, fill := 520 } { bits := 7, fill := 520 } x with
    viq := [{ entry with vl := n, vfmt := 0x18C6, o := ops 3 1 2 }], seq := 1 }
def partState (n : Nat) : State := { mk .cs (grouped n) with cur := .part 0 0 0 1 }
def headEnd (r : EStateM.Result Stop State HeadEnd) : Option Bool :=
  match r with
  | .ok .done _ => some true
  | .ok .paused _ => some false
  | _ => none

theorem witness_headPart :
    (partState 64).cur = .part 0 0 0 1 ∧ Awake (partState 64) ∧ findHart (partState 64) 0 0 = some (grouped 64 hart0) ∧
    headEnd (runHeadPart 1 (partState 64)) = some true ∧ headEnd (runHeadPart 1 (partState 65)) = some false :=
  ⟨rfl, ⟨⟨rfl, rfl⟩, rfl⟩, rfl, by decide +kernel, by decide +kernel⟩

theorem witness_late : Runs (mk .as overdue) hA (overdue hart0) ∧ late (mk .as overdue) (overdue hart0) ∧
    ¬ late (mk .as id) hart0 ∧ Runs (mk .as id) hA hart0 ∧ (∀ w, hart0.as_.cond ≠ .waiting w) := by
  refine ⟨runs_as _, ⟨?_, ?_, ?_⟩, fun h => absurd h.1 ?_, runs_as id, fun w h => by cases h⟩ <;> decide +kernel

/-- The head of the queue ends. -/
theorem witness_head : (match runHead (mk .cs queuedOne) with | .ok .done _ => true | _ => false) = true := by decide +kernel

/-- A fetch at 0x1000 of the held page, where `nop` stands. -/
theorem witness_fetch :
    let s := mapped (mk .as (fetched 0x1000 []))
    locateHere .fetch 0x1000 4 true s = .ok { locs := locRange at1000 4, sa := false, kinds := [0] } s ∧
    readLocs [] (locRange at1000 4) 0x1000 s = .ok ((locRange at1000 4).map (seenByte s [])) s ∧ Runs s hA (fetched 0x1000 [] hart0) ∧
    (fetched 0x1000 [] hart0).as_.fbuf.find? (fun c => c.1 == 0x1000) = none ∧
    ({ s with mem := [(2048, 0x6F), (at1000, 3)] } : State).mem.wf = true ∧
    bytesToNat ((locRange at1000 4).map (memRead [(2048, 0x6F), (at1000, 3)])) = 3 := by
  refine ⟨?_, readLocs_run _ _ _ fun _ _ => rfl, runs_mapped .as _, rfl, by decide +kernel, by decide +kernel⟩
  have h := locateHere_held (n := 4) (runs_mapped .as (fetched 0x1000 [])) (granted .as _ .fetch true (va := 0x1000)) (by decide)
    (by decide +kernel) (by decide +kernel) (by decide +kernel) (by decide) (physAccess_hbm (by decide +kernel)
      (show hbmMap 0x8400000000000000 0x0000004000000000 0x1000 = some at1000 by decide +kernel) (by decide))
  exact h

/-- Memory in canonical form in a state from which a step is taken, and instructions that are well formed. -/
theorem witness_keeps : (mk .as (fetched 0x1000 [(0x1000, 3)])).mem.wf = true ∧ Instr.nop.wf = true ∧ ¬ isNearBank .nop ∧
    Instr.nwait.wf = true ∧ isNearBank .nwait :=
  ⟨by decide +kernel, by decide +kernel, fun h => h, by decide +kernel, trivial⟩

/-! #### Further witnesses: traps of queued instructions, page faults, near-bank windows, security, refusals, saves, fetches -/

/-- A part of an instruction that traps PGFAULT at va and leaves the state as it was. -/
def faultsAt {α : Type} (r : EStateM.Result Stop State α) (va : Word) (t : State) : Bool :=
  match r with
  | .error (.trap k) u => k.cause == 8 && k.eaddr == va && decide (u = t)
  | _ => false

theorem of_faultsAt {α : Type} {r : EStateM.Result Stop State α} {va : Word} {t : State} (h : faultsAt r va t = true) :
    ∃ k, r = .error (.trap k) t ∧ k.cause = 8 ∧ k.eaddr = va := by
  unfold faultsAt at h
  split at h
  · simp only [Bool.and_eq_true, beq_iff_eq, decide_eq_true_eq] at h
    exact ⟨_, h.2 ▸ rfl, h.1⟩
  · simp at h


/-! #### O7 -/
theorem witness_surveyQueueBranch :
    cpu? (onSurvey 0) = some (.survey 0) ∧
    targetGood (onSurvey 0) (.survey 0) ((surveyOf (onSurvey 0) 0).pc + BitVec.ofInt 64 (4 * (2 : BitVec 15).toInt)) :=
  ⟨by decide +kernel, Or.inl (by decide +kernel)⟩

/-- A target at 2 mod 4; and the word after the instruction, reached by every form, where a held word is a prefix. -/
theorem witness_badTarget :
    let x := holding 2 (aReg 6 0x10004 hart0)
    Runs (mk .as (aReg 6 2)) hA (aReg 6 2 hart0) ∧
    targetBad (aReg 6 2 hart0) .as ((aReg 6 2 hart0).getReg .as 6 + BitVec.ofInt 64 (0 : BitVec 15).toInt) ∧
    Runs (mk .as fun x => holding 2 (aReg 6 0x10004 x)) hA x ∧ targetBad x .as 0x10004 ∧
    wordsFrom x.as_.pc (1 : BitVec 15).toInt = 0x10004 ∧ wordsFrom x.as_.pc (1 : BitVec 5).toInt = 0x10004 ∧
    wordsFrom x.as_.pc (1 : BitVec 10).toInt = 0x10004 ∧ x.as_.pc + BitVec.ofInt 64 (4 * (1 : BitVec 20).toInt) = 0x10004 ∧
    x.as_.pc + BitVec.ofInt 64 (4 * (1 : BitVec 15).toInt) = 0x10004 ∧
    x.getReg .as 6 + BitVec.ofInt 64 (0 : BitVec 15).toInt = 0x10004 ∧
    x.getReg .as 6 + BitVec.ofInt 64 (0 : BitVec 40).toInt = 0x10004 :=
  ⟨runs_as _, Or.inl (by decide +kernel), runs_as _,
    Or.inr ⟨by decide +kernel, 2, 3, by decide +kernel, by decide +kernel, Or.inl (by decide +kernel)⟩, by decide +kernel⟩

theorem witness_trapWhileHandling :
    Runs (mk .cs handling) hC (handling hart0) ∧ findLaunch (mk .cs handling) 0 = some l0 ∧
    (handling hart0).tr.ecause.getLsbD 11 = true ∧ (handling hart0).ypend.getLsbD 63 = false :=
  ⟨runs_cs _, rfl, by decide +kernel⟩

/-- What ran at the head of the queue trapped, in a hart with no yield request whose H bit is b. -/
def entryTraps (e : VEntry) (s : State) (b : Bool) : Bool :=
  match runEntry e s with
  | .ok (_, .trap _) s1 => runsAt s1 hC fun y => !y.ypend.getLsbD 63 && y.tr.ecause.getLsbD 11 == b
  | _ => false

/-- `vfcvt` of a reserved code of jxr16, at the head of the queue. -/
def badCode (x : Hart) : Hart :=
  let y := vec 1 (BitVec.ofNat 64 (0x12 + 0x0D * 2 ^ 10)) (regs { bits := 32, fill := 6 } { bits := 0, fill := 0 } x)
  { y with viq := [captured y .vfcvt (ops 3 1 0) 0 0 0 0 none], seq := 1 }

theorem witness_queuedTrap :
    Runs (mk .cs badCode) hC (badCode hart0) ∧
    ((badCode hart0).viq.head?.any fun e => entryTraps e (mk .cs badCode) false) = true ∧
    ((badCode (handling hart0)).viq.head?.any fun e => entryTraps e (mk .cs fun x => badCode (handling x)) true) = true :=
  ⟨runs_cs _, by decide +kernel, by decide +kernel⟩

/-- A queue that the slice does not push to, or pop from. -/
theorem witness_wrongQueue :
    Runs (mk .as id) hA hart0 ∧ Runs (mk .cs id) hC hart0 ∧ (∃ q : BitVec 2, q ≠ 0 ∧ q ≠ 1) ∧ (1 : BitVec 2) ≠ 0 ∧ (0 : BitVec 2) ≠ 1 :=
  ⟨runs_as id, runs_cs id, ⟨2, by decide⟩, by decide⟩

/-- A stream of two bytes whose second lies on an absent page, to write or to read. -/
def broken (wr : Bool) : Desc :=
  { base := 0xF000000100, cfg := BitVec.ofNat 64 (2 ^ 62 + 0x06 * 2 ^ 54 + (if wr then 2 ^ 53 else 0) + 2)
    stride := 0x40000001000 - 0xF000000100 }
/-- Stream 1 reads so and stream 3 writes so; register 2 holds 0 and 1, and mask 1 names element 1. -/
def brokenHart (x : Hart) : Hart :=
  { vec 2 0x18C6 (regs { bits := 0x0201, fill := 16 } { bits := 0x0100, fill := 16 } (adopts 3 (broken true) (adopts 1 (broken false) x)))
    with m := x.m.set 1 2 }
def brokenState : State := mapped (mk .cs brokenHart)

theorem broken_faults :
    (∃ k, pageFaults brokenState (loadBytes .cs 0x40000001000 1) 0x40000001000 1 k) ∧
    ∃ k, pageFaults brokenState (locateHere .store 0x40000001000 1) 0x40000001000 1 k := by
  have of {α : Type} {m : M α} (h : faultsAt (m brokenState) 0x40000001000 brokenState = true) :
      ∃ k, pageFaults brokenState m 0x40000001000 1 k := by
    obtain ⟨k, h1, h2, h3⟩ := of_faultsAt h
    exact ⟨k, h1, h2, by rw [h3]; decide, by rw [h3]; decide, by decide⟩
  exact ⟨of (by decide +kernel), of (by decide +kernel)⟩

theorem broken_first :
    stays brokenState (loadBytes .cs 0xF000000100 1) ((locRange (tcmAt (gang0 brokenHart) (brokenHart hart0) 0xF000000100 0) 1).map
      (seenByte brokenState ((brokenHart hart0).buf .cs))) ∧
    stays brokenState (locateHere .store 0xF000000100 1)
      { locs := locRange (tcmAt (gang0 brokenHart) (brokenHart hart0) 0xF000000100 0) 1, kinds := [4] } :=
  ⟨loadBytes_tcm (runs_mapped .cs brokenHart) rfl rfl in_tcm (by decide) (fun _ _ => rfl) .cs,
    locateHere_tcm (runs_mapped .cs brokenHart) rfl rfl in_tcm (by decide)⟩

/-- What VectorLoadResults and VectorStoreResults ask at the fault of element 1, of all elements or with element 0 masked off. -/
theorem witness_pageFault :
    let x := brokenHart hart0
    Starts brokenState hC x ∧ findLaunch brokenState 0 = some l0 ∧ x.viq = [] ∧ OnStream x 1 (broken false) ∧ OnStream x 3 (broken true) ∧
    vfmtReserved x.vc.vfmt = false ∧ x.tp.adjm = 0 ∧ x.ypend.getLsbD 63 = false ∧ x.vc.vstart.toNat ≤ 1 ∧ 1 < x.vc.vl.toNat ∧
    (∀ wr, (broken wr).wr = wr ∧ (broken wr).kind ≤ 1 ∧ fmtFixed (broken wr).fmt = true ∧ fmtWidth (broken wr).fmt = 8 ∧ 0 + 1 < (broken wr).len ∧
      ((broken wr).elemAt 0 8).va = 0xF000000100 ∧ ((broken wr).elemAt 0 8).bytes = 1 ∧
      ((broken wr).elemAt 1 8).va = 0x40000001000 ∧ ((broken wr).elemAt 1 8).bytes = 1) ∧
    8 * (1 + 1) ≤ destLimit x l0 ∧ 8 * (1 + 1) ≤ (x.vreg 2).fill ∧ x.maskBit 0 1 = true ∧ x.maskBit 1 1 = true ∧
    activeBelow x (ops 4 1 2) 1 = [0] ∧ activeBelow x { ops 4 1 2 with m := 1 } 1 = [] := by
  refine ⟨⟨runs_mapped .cs _, rfl⟩, rfl, rfl, on_stream (by decide +kernel), on_stream (by decide +kernel), by decide +kernel⟩

/-- What IndexedAndColumnResults asks where element 1 of two lies on an absent page. -/
theorem witness_batch :
    let x := brokenHart hart0
    intOrJxi (vfFB x.vc.vfmt) = true ∧ activeFrom x (ops 4 1 2) = [0, 1] ∧ activeFrom x (ops 3 2 1) = [0, 1] ∧
    [1] = ([0, 1] : List Nat).filter (fun i => decide (i ∈ [1])) ∧ ([0, 1] : List Nat).filter (fun i => decide (i ∉ [1])) = [0] ∧
    8 * 2 ≤ (x.vreg 1).fill ∧ 8 * 2 ≤ destLimit x l0 ∧
    (∀ i, i < 2 → elem (vfFB x.vc.vfmt) (x.vreg 2) i = some (i, 8)) ∧
    (∀ wr, ((broken wr).base + (patValue (vfFB x.vc.vfmt) 0 0).word * (broken wr).stride).toNat = 0xF000000100 ∧
      ((broken wr).base + (patValue (vfFB x.vc.vfmt) 0 1).word * (broken wr).stride).toNat = 0x40000001000) := by
  decide +kernel

/-- A store to a peer that no live link serves is pending at `gbar`. -/
theorem witness_barrierHeld :
    let f (x : Hart) : Hart := { x with abuf := [{ cells := [(2 ^ 53 + 64, 7)], hops := [{ block := 1, links := 1, link := none }] }] }
    Runs (mk .as f) hA (f hart0) ∧ findGang (mk .as f) 0 = some (gang0 f) ∧ (f hart0).mode ≠ .exited ∧
    ∃ w ∈ (f hart0).abuf, w.cutOff = true :=
  ⟨runs_as _, rfl, by decide +kernel, _, List.mem_cons_self .., rfl⟩

/-- Pages of the cavern, one within it, one past its end and one past its span; a page of package 5. -/
theorem witness_locateAway :
    let peer (s : State) (live : Bool) (lost : List Nat) : State :=
      { s with dev := { s.dev with links := Vector.replicate 16 { live := live, lanes := 8 }, linkLost := lost } }
    let routed (live : Bool) (lost : List Nat) : State := peer (setDevReg (mk .as id) 0x40028 0x10001) live lost
    let route (s : State) : Word := devReg s (0x40000 + 8 * 5)
    (∀ p ∈ [0x46F, 0x400046F, 0x8000046F], (BitVec.ofNat 64 p).toNat / 2 ^ 10 % 4 = 1) ∧
    leafAddress 0x46F 3 0x1000 = 0x1000 ∧ leafAddress 0x400046F 3 0x1000 = 0x4001000 ∧ leafAddress 0x8000046F 3 0x1000 = 2 ^ 31 + 0x1000 ∧
    (0x1000 % 2 ^ 28 + 8 ≤ (mk .as id).dev.cavernMiB * 2 ^ 20 ∧ (mk .as id).dev.cavernMiB * 2 ^ 20 < 0x4001000 % 2 ^ 28 + 8) ∧
    (BitVec.ofNat 64 (5 * 2 ^ 46 + 0x86F)).toNat / 2 ^ 10 % 4 = 2 ∧ leafAddress (BitVec.ofNat 64 (5 * 2 ^ 46 + 0x86F)) 3 0x1000 / 2 ^ 46 = 5 ∧
    5 ≠ (mk .as id).dev.pkg.toNat ∧ (route (mk .as id)).getLsbD 16 = false ∧
    (∀ live, (route (routed live [])).getLsbD 16 = true ∧ (route (routed live [])).extractLsb' 0 16 ≠ 0) ∧
    liveLinks (routed true []) 1 ≠ [] ∧ liveLinks (routed false []) 1 = [] ∧ 5 ∈ (routed false [5]).dev.linkLost ∧
    5 ∉ (routed false []).dev.linkLost := by
  decide +kernel

theorem witness_bankLimit :
    engineHere (onEngine fun r => { r with count := 2 ^ 32 }) = some (engine0 fun r => { r with count := 2 ^ 32 }) ∧
    (engine0 fun r => { r with count := 2 ^ 32 }).run = some { run0 with count := 2 ^ 32 } ∧ isNearBank (.nact 1) ∧ isNearBank .nend :=
  ⟨rfl, rfl, trivial, trivial⟩

/-- The same window on a DEV page. -/
theorem witness_bankDev :
    let w : NbeWindow := { win0 with dev := true }
    let s : State := { onEngine id with ops := [{ bankOp with body := .nbe 3 0 [w] [] true }] }
    OnEngine s (engine0 id) run0 ∧ InWindow s run0 0 1 w (winPlaces 1) ∧ w.dev = true := by
  refine ⟨⟨rfl, rfl, by decide⟩, ⟨rfl, by decide +kernel, by simp [winPlaces, locRange], fun k hk => ?_⟩, rfl⟩
  obtain rfl : k = 0 := by omega
  decide +kernel

/-- Counter 8 at 1; the digest of the image 1 admitted at version 1, and that of the image 2 at version 0. -/
def admitState2 : State := bedState fun b => { b with
  stage := 3, fuses := b.fuses.set 8 1
  cache := [{ digest := shake256 [1], counter := 8, version := 1 }, { digest := shake256 [2], counter := 8, version := 0 }] }

/-- No signature of no bytes is valid. -/
theorem no_signature (key : Config.Key) (d : BitVec 512) : verifiesDigest key d [] = false := by
  unfold verifiesDigest mlDsaVerify
  simp only
  split
  · rfl
  · simp [dsaSigBytes]

theorem finds_both {a b c : BitVec 512} (h : a ≠ b ∧ a ≠ c ∧ b ≠ c) :
    let l : List AdmitEntry := [{ digest := a, counter := 8, version := 1 }, { digest := b, counter := 8, version := 0 }]
    l.find? (fun e => e.digest == a) = some { digest := a, counter := 8, version := 1 } ∧
    l.find? (fun e => e.digest == b) = some { digest := b, counter := 8, version := 0 } ∧ ∀ e ∈ l, e.digest ≠ c := by
  simp [h]

theorem witness_admission :
    (admitState2.bed.cache.find? fun e => e.digest == shake256 [1]) = some { digest := shake256 [1], counter := 8, version := 1 } ∧
    (admitState2.bed.cache.find? fun e => e.digest == shake256 [2]) = some { digest := shake256 [2], counter := 8, version := 0 } ∧
    (∀ e ∈ admitState2.bed.cache, e.digest ≠ shake256 [3]) ∧
    verifiesDigest (.counter 8) (shake256 [3]) [] = false := by
  have h := finds_both (a := shake256 [1]) (b := shake256 [2]) (c := shake256 [3]) (by decide +kernel)
  exact ⟨h.1, h.2.1, h.2.2, no_signature ..⟩

/-- An addition that waits, through a leaf that the shootdown of die 0 in progress drops. -/
theorem witness_shootdownAdd :
    let w := devReg cutState (0x60000 + 8 * 0)
    (∃ a ∈ ({ cutState with adds := [waitAdd] } : State).adds, a.leaf.dropped 0 w = true) ∧
    (∀ a ∈ ({ cutState with adds := [{ waitAdd with leaf := { leaf0 with gallery := 32 } }] } : State).adds, a.leaf.dropped 0 w = false) ∧
    0 / 32 ∉ memoryState.dev.switching := by decide +kernel

/-- What a refused record with done object va meets in state s: its load, its page, its place. -/
def doneLoad (s : State) (va : Nat) : Tried (List Byte) × State := tried (readCtx portXlat va 8) s
def doneLeaf (s : State) (va : Nat) : Tried TlbEntry × State := tried (pageLeaf portXlat .load false va va) (doneLoad s va).2

/-- Done objects: none, one that is not mapped, one on a page that meets R57, and one on a page without W. -/
theorem witness_refused :
    let s := refused (portState 0) 0 4
    let ro : State := { s with tlb := [{ gallery := 0, asid := 0, level := 1, vpn := 0, pte := 0x6B, pteLoc := 2048 }] }
    ctxXlat (portDie (0 : BitVec 8).toNat) (portCtx (portState 0) 0) = portXlat ∧ record0.donea = 0 ∧ (0x1000 : Nat) % 8 = 0 ∧
    (portCtx (portState 0) 0).w0.getLsbD 63 = true ∧ (4 : Nat) ≠ 5 ∧ trapped (doneLoad s 0x40000001000) = true ∧
    went (doneLoad s 0x1000) = true ∧ ((answer (doneLeaf s 0x1000)).any fun e => leafR57 e.pte) = true ∧
    ((answer (tried (objectPlace portXlat 0x1000) (doneLeaf s 0x1000).2)).any fun o => o.2.2.isNone) = true ∧
    went (doneLoad ro 0x1000) = true ∧ ((answer (doneLeaf ro 0x1000)).any fun e => !leafR57 e.pte) = true := by
  decide +kernel

/-- Hart 0's save while hart 1 still runs, and the save of its area anew once every hart has stopped. -/
theorem witness_earlySave :
    let x := saving .writing 0 0x40000 hart0
    let early : Gang := { gang0 (saving .writing 0 0x40000) with harts := [x, hart0] }
    let y : Hart := { x with save := x.save.map fun v => { v with done := true } }
    x.mode ≠ .exited ∧ (∃ v, x.save = some v ∧ v.st = .writing ∧ v.done = false) ∧
    ¬ (∀ h ∈ early.harts, h.mode = .saving ∨ h.mode = .exited) ∧
    (∃ v, y.save = some v ∧ v.gang = false) ∧ ∀ h ∈ [y], h.mode = .saving ∨ h.mode = .exited :=
  ⟨by decide, ⟨_, rfl, rfl, rfl⟩, by decide +kernel, ⟨_, rfl, rfl⟩, by decide +kernel⟩

/-- An arrival of the AS that is held: its older store is visible, or is not. -/
theorem witness_heldArrival :
    let x : Hart := { hart0 with asHeld := [(0, 3)], abuf := [{ cells := [(5, 1)], seq := 3 }] }
    (x.asHeld = [(0, 3)] ∧ (∀ w ∈ x.abuf, 3 ≤ w.seq) ∧ ∀ k ∈ x.markers, ∃ w ∈ x.cbuf, w.seq < k.2) ∧
    ∀ k ∈ ({ x with asHeld := [(0, 4)] } : Hart).asHeld, ∃ w ∈ x.abuf, w.seq < k.2 := by decide +kernel

/-- A slice that waits for another page than the one copied, and one whose gang is not in place. -/
theorem witness_coldOther :
    (coldHart hart0).as_.cond ≠ .waiting (.coldText 0x1001) ∧ (coldHart hart0).answer = none ∧ savedGang.st ≠ .resident := by
  decide +kernel

/-- A turn of the entry behind the head: it goes on, or its operand is not ready. -/
def behind (n : Nat) (x : Hart) : Hart :=
  let y := grouped n x
  { y with viq := y.viq ++ [{ entry with vl := 64, vfmt := 0x18C6, o := ops 6 1 2 }] }
def behindState (n : Nat) : State := { mk .cs (behind n) with cur := .part 0 0 1 1 }

theorem witness_behindPart :
    (behindState 64).cur = .part 0 0 1 1 ∧ Awake (behindState 64) ∧ findHart (behindState 64) 0 0 = some (behind 64 hart0) ∧
    (∃ e, (behind 64 hart0).viq[1]? = some e) ∧
    (match runBehind 1 1 (behindState 64) with | .ok false _ => true | _ => false) = true :=
  ⟨rfl, ⟨⟨rfl, rfl⟩, rfl⟩, rfl, ⟨_, rfl⟩, by decide +kernel⟩

/-- Survey core 0 at pc, past the firmware. -/
def surveyAt (pc : Word) (s : State) : State := mapSurvey (debugState 3 s) 0 fun x => { x with pc := pc }

theorem witness_surveyFetch :
    let s := surveyAt 0x1000 (mapped (onSurvey 0))
    let away := surveyAt 0x10000000 (mapped (onSurvey 0))
    s.dev.firmwareBase + s.dev.firmware.length < (0x1000 : Word).toNat + 4 ∧ (surveyOf s 0).pc = 0x1000 ∧
    (physLocs s 0x1000 4 = some (locRange at1000 4)) ∧ (∃ p ∈ locRange at1000 4, poisoned { s with poison := [at1000 / 32] } p = true) ∧
    physLocs away 0x10000000 4 = none ∧ (match fetchSurvey away 0 with | .error _ => true | _ => false) = true := by
  decide +kernel

/-- The entry behind the head reads what the head has written. -/
def chainedHart (x : Hart) : Hart :=
  let y := regs { bits := 5, fill := 1040 } { bits := 7, fill := 1040 } x
  { y with
    v := y.v.set 3 { bits := 5, fill := 1040 }, seq := 2
    viq := [{ entry with idx := 64, begun := true, vl := 128, vfmt := 0x18C6, o := ops 3 1 2 },
      { entry with vl := 64, vfmt := 0x18C6, o := ops 6 3 1, seq := 1 }] }

theorem witness_behindGoes :
    (match runBehind 1 1 { mk .cs chainedHart with cur := .part 0 0 1 1 } with | .ok true _ => true | _ => false) = true := by
  decide +kernel

/-- x^255 times x is -1 modulo x^256 + 1, the ring of FIPS 204. -/
theorem test_ringProduct :
    intt (polyMul (ntt (List.replicate 255 0 ++ [1])) (ntt ([0, 1] ++ List.replicate 254 0))) = (dsaQ - 1) :: List.replicate 255 0 := by
  decide +kernel

end Sys2Proof.Tests
end

section
/-! How a body that keeps byte memory in canonical form (log 1) is built further, and the bodies that speak of the executing
processor, its targets and its words. -/

namespace Sys2Proof.Machine

/-! ### More ways of building a body -/

variable {α β : Type}

/-- A body whose parts depend on a state read before, whose memory is canonical. -/
theorem KeepsMem.withState {f : State → M β} (hf : ∀ s : State, s.MemWf → KeepsMem (f s)) :
    KeepsMem (MonadState.get >>= f) := fun s h => hf s h s h

theorem KeepsMem.set {s : State} (h : s.MemWf) : KeepsMem (MonadStateOf.set s : M PUnit) := fun _ _ => h

theorem KeepsMem.mapM {f : α → M β} (hf : ∀ a, KeepsMem (f a)) (l : List α) : KeepsMem (l.mapM f) := by
  induction l with
  | nil => exact .pure _
  | cons a l ih =>
    rw [List.mapM_cons]
    exact .bind (hf a) fun _ => .bind ih fun _ => .pure _

/-- Catching a stop keeps the state that it was raised in. -/
theorem KeepsMem.attempt {m : M α} (hm : KeepsMem m) : KeepsMem (attempt m) := by
  intro s h
  have := hm s h
  unfold Machine.attempt
  split <;> next e => rw [e] at this; exact this

theorem KeepsMem.mapTrap {m : M α} {f : TrapInfo → TrapInfo} (hm : KeepsMem m) : KeepsMem (mapTrap f m) := by
  intro s h
  have := hm s h
  unfold Machine.mapTrap
  split
  · next e => rw [e] at this; exact this
  · exact this

/-! ### The executing processor -/

theorem keepsMem_gangM : KeepsMem gangM := by
  refine .bind keepsMem_hereM fun k => .bind .get fun s => ?_
  split
  · exact .pure _
  · exact .throw _

theorem keepsMem_modGang {f : Gang → Gang} : KeepsMem (modGang f) :=
  .bind keepsMem_hereM fun _ => .modify fun _ hs => hs

theorem keepsMem_cpuM : KeepsMem cpuM := by
  refine .bind .get fun s => ?_
  split
  · exact .pure _
  · exact .throw _

theorem keepsMem_getX {r : RegField} : KeepsMem (getX r) := by
  refine .bind keepsMem_cpuM fun c => ?_
  split
  · exact .bind keepsMem_hartM fun _ => .pure _
  · exact .bind .get fun _ => .pure _

theorem keepsMem_setX {r : RegField} {v : Word} : KeepsMem (setX r v) := by
  refine .bind keepsMem_cpuM fun c => ?_
  split
  · exact keepsMem_modHart _
  · exact .modify fun _ hs => hs

theorem keepsMem_getPc : KeepsMem getPc := by
  refine .bind keepsMem_cpuM fun c => ?_
  split
  · exact .bind keepsMem_hartM fun _ => .pure _
  · exact .bind .get fun _ => .pure _

theorem keepsMem_setPcM {pc : Word} : KeepsMem (setPcM pc) := by
  refine .bind keepsMem_cpuM fun c => ?_
  split
  · exact keepsMem_modHart _
  · exact .modify fun _ hs => hs

theorem keepsMem_advance {n : Nat} : KeepsMem (advance n) :=
  .bind keepsMem_getPc fun _ => keepsMem_setPcM

/-! ### Fetching words and checking targets -/

theorem keepsMem_fetchWord {sl : SliceId} {va : Word} : KeepsMem (fetchWord sl va) := by
  refine .bind keepsMem_hartM fun h => ?_
  split
  · exact .pure _
  · exact .bind (keepsMem_locateHere _ _ _ _) fun _ => .bind (keepsMem_readLocs _ _ _) fun _ =>
      .bind (keepsMem_modHart _) fun _ => .pure _

theorem keepsMem_peekWord {sl : SliceId} {va : Word} : KeepsMem (peekWord sl va) := by
  intro s hs
  have := keepsMem_fetchWord (sl := sl) (va := va) s hs
  unfold peekWord
  split <;> next e => rw [e] at this; exact this

theorem keepsMem_checkTarget {sl : SliceId} {t : Word} : KeepsMem (checkTarget sl t) :=
  .ite (.trap _ _ _) (.ite (.pure _) (.bind keepsMem_peekWord fun _ => .bind keepsMem_peekWord fun _ =>
    .ite (.trap _ _ _) (.pure _)))

theorem keepsMem_checkTargetHere {t : Word} : KeepsMem (checkTargetHere t) := by
  unfold checkTargetHere
  refine .bind keepsMem_cpuM fun _ => ?_
  split
  · exact keepsMem_checkTarget
  · exact .bind .get fun _ => .ite (.trap _ _ _) (.pure _)

theorem keepsMem_checkSurveyResume {t : Word} : KeepsMem (checkSurveyResume t) :=
  .bind .get fun _ => .ite (.ite (.pure _) (.trap _ _ _)) keepsMem_checkTargetHere

theorem keepsMem_checkResume {sl : SliceId} {t : Word} : KeepsMem (checkResume sl t) :=
  .ite (.bind keepsMem_peekWord fun _ => .ite (.pure _) (.trap _ _ _)) keepsMem_checkTarget

theorem keepsMem_bothAdvance : KeepsMem bothAdvance :=
  keepsMem_modHart _

theorem keepsMem_vrlenM : KeepsMem vrlenM :=
  .bind keepsMem_hereM fun _ => .bind .get fun _ => .pure _

theorem keepsMem_homeUpdate {sl : SliceId} {l : Found} {va : Nat} {f : Nat → Nat} : KeepsMem (homeUpdate sl l va f) := by
  unfold homeUpdate
  refine .bind keepsMem_hartM fun _ => ?_
  extract_lets rest
  have hrest : ∀ r, KeepsMem (rest r) := fun _ => .bind (keepsMem_readLocs _ _ _) fun _ =>
    .bind (keepsMem_markDirty _) fun _ => .bind (.modify fun _ hs => homeWrite_memWf hs ..) fun _ => .pure _
  exact .ite (.bind (keepsMem_drain _) hrest) (hrest ())

theorem keepsMem_noDevLocate {va n : Nat} {acc : Acc} : KeepsMem (noDevLocate va n acc) := by
  have hl : KeepsMem (do
      let l ← locateHere acc va n
      if l.dev then trap cPROT (BitVec.ofNat 64 (va + min n (65536 - va % 65536))) acc.code else pure l : M Found) :=
    .bind (keepsMem_locateHere _ _ _ _) fun _ => .ite (.trap _ _ _) (.pure _)
  exact .ite (.bind keepsMem_hereM fun _ => .bind .get fun _ => .bind (keepsMem_pageLeaf _ _ _ _ _) fun _ =>
    .ite (.bind (.trap _ _ _) fun _ => hl) hl) hl

theorem keepsMem_atomicLocate {va n : Nat} : KeepsMem (atomicLocate va n) := by
  unfold atomicLocate
  extract_lets rest
  have hrest : ∀ r, KeepsMem (rest r) := fun _ => keepsMem_noDevLocate
  exact .ite (.bind (.trap _ _ _) hrest) (hrest ())

theorem keepsMem_regionCheck {r : Region} {acc : Acc} {va n : Nat} {fmt : Option Fmt} :
    KeepsMem (regionCheck r acc va n fmt) :=
  .ite (.pure _) (.trap _ _ _)

theorem keepsMem_atomicRegionCheck {va n : Nat} {acc : Acc} : KeepsMem (atomicRegionCheck va n acc) := by
  unfold atomicRegionCheck
  refine .bind keepsMem_hartM fun _ => ?_
  split
  · exact .pure _
  · exact .trap _ _ _

theorem keepsMem_wideLoad {va n : Nat} : KeepsMem (wideLoad va n) := by
  unfold wideLoad
  refine .bind (keepsMem_locateHere _ _ _ _) fun _ => .bind keepsMem_hartM fun _ => ?_
  extract_lets rest
  have hrest : ∀ r, KeepsMem (rest r) := fun _ => keepsMem_readFound _ _ _
  split
  · exact .bind keepsMem_regionCheck hrest
  · exact hrest ()

theorem keepsMem_refuseDevAt {va n : Nat} {l : Found} : KeepsMem (refuseDevAt va n l) := by
  unfold refuseDevAt
  refine .ite ?_ (.pure _)
  extract_lets first rest
  have hrest : ∀ r, KeepsMem (rest r) := fun _ => .trap _ _ _
  exact .ite (.bind (.bind (keepsMem_locateHere _ _ _ _) fun _ => .pure _) hrest) (.bind (.pure _) hrest)

theorem keepsMem_queueCellsOf {sl : SliceId} {merge : Bool} {l : Found} {bytes : List Byte} :
    KeepsMem (queueCellsOf sl merge l bytes) :=
  .ite (.bind (keepsMem_markDirty _) fun _ => .bind .get fun _ => .bind keepsMem_hartM fun _ => keepsMem_modHart _)
    (keepsMem_issueStore _ _ _)

theorem keepsMem_setTapeh {x : Nat} : KeepsMem (setTapeh x) :=
  keepsMem_modHart _

theorem keepsMem_tapePush {sl : SliceId} {region addr n : Nat} : KeepsMem (tapePush sl region addr n) := by
  unfold tapePush
  refine .bind keepsMem_hartM fun _ => .ite (.trap _ _ _) (.bind (keepsMem_locateHere _ _ _ _) fun _ =>
    .bind (keepsMem_locateHere _ _ _ _) fun _ => .bind keepsMem_hartM fun _ => ?_)
  extract_lets rest
  have hrest : ∀ r, KeepsMem (rest r) := fun _ => .bind (keepsMem_readFound _ _ _) fun _ =>
    .bind (keepsMem_markDirty _) fun _ => .bind (.modify fun _ hs => homeWrite_memWf hs ..) fun _ =>
    .bind keepsMem_setTapeh fun _ => .pure _
  exact .ite (.bind (keepsMem_drain _) hrest) (hrest ())

theorem keepsMem_tapePop {sl : SliceId} {merge : Bool} {r : Region} {addr n k count : Nat} :
    KeepsMem (tapePop sl merge r addr n k count) :=
  .bind keepsMem_hartM fun _ => .ite (.trap _ _ _) (.bind (keepsMem_locateHere _ _ _ _) fun _ =>
    .bind (keepsMem_readFound _ _ _) fun _ => .ite (.trap _ _ _) (.bind (keepsMem_locateHere _ _ _ _) fun _ =>
    .bind (keepsMem_locateHere _ _ _ _) fun _ => .bind (keepsMem_locateHere _ _ _ _) fun _ =>
    .bind (keepsMem_readFound _ _ _) fun _ => .bind (keepsMem_issueStore _ _ _) fun _ =>
    .bind keepsMem_queueCellsOf fun _ => .bind keepsMem_setTapeh fun _ => .pure _))

theorem keepsMem_copyUpdate {sl : SliceId} {w : Window} {lane c : Nat} {f : Nat → Nat} :
    KeepsMem (copyUpdate sl w lane c f) :=
  .bind (keepsMem_locateHere _ _ _ _) fun _ => .bind keepsMem_homeUpdate fun _ => .pure _

theorem keepsMem_accumulate {sl : SliceId} {i : Nat} {r : Region} {va k lane x : Nat} :
    KeepsMem (accumulate sl i r va k lane x) := by
  unfold accumulate
  refine .ite (.bind (keepsMem_locateHere _ _ _ _) fun _ => .bind keepsMem_homeUpdate fun _ => .pure _)
    (.bind keepsMem_hartM fun _ => ?_)
  split
  · exact .trap _ _ _
  · exact .ite (.trap _ _ _) keepsMem_copyUpdate

theorem keepsMem_pureBody {f : Nat → Hart → VEntry → Hart × VEntry × VEnd} {e : VEntry} : KeepsMem (pureBody f e) := by
  unfold pureBody
  refine .bind keepsMem_vrlenM fun _ => .bind keepsMem_hartM fun _ => ?_
  split
  exact .bind (keepsMem_modHart _) fun _ => .pure _

end Sys2Proof.Machine
end


section
/-! Vector entries that reach memory or the gang keep byte memory in canonical form: streams, indexed accesses, paired
streams, atomics, windows and tile rows. -/

namespace Sys2Proof.Machine

theorem keepsMem_readElem {ahead : Option (BitVec 5)} {a : ElemAt} : KeepsMem (readElem ahead a) := by
  unfold readElem
  refine .bind keepsMem_hartM fun _ => ?_
  extract_lets held
  clear_value held
  split
  · exact .pure _
  · exact .bind (keepsMem_loadBytes _ _ _) fun _ => .pure _

theorem keepsMem_queueCells {merge : Bool} {l : Found} {bytes : List Byte} : KeepsMem (queueCells merge l bytes) :=
  keepsMem_queueCellsOf

theorem keepsMem_writeElemAt {merge : Bool} {a : ElemAt} {l : Found} {bits : Nat} :
    KeepsMem (writeElemAt merge a l bits) := by
  unfold writeElemAt
  extract_lets whole rest
  have hrest : ∀ r, KeepsMem (rest r) := fun _ => keepsMem_queueCells
  exact .ite (.bind (.pure _) hrest) (.bind keepsMem_hartM fun _ => .bind (keepsMem_readLocs _ _ _) hrest)

theorem keepsMem_loadActive {ahead : Option (BitVec 5)} {f : Fmt} {d : BitVec 5} {i : Nat} {a : ElemAt} :
    KeepsMem (loadActive ahead f d i a) := by
  unfold loadActive
  refine .bind keepsMem_hartM fun _ => ?_
  split
  · exact .bind keepsMem_readElem fun _ => .pure _
  · exact .ite (.bind (keepsMem_locateHere _ _ _ _) fun _ => .bind keepsMem_regionCheck fun _ =>
    .bind keepsMem_accumulate fun _ => .pure _) (.bind keepsMem_readElem fun _ =>
    .bind keepsMem_regionCheck fun _ => .pure _)

theorem keepsMem_raiseRecord {r : BitVec 5} {accessed : DFault → Bool} {lo hi : Nat} :
    KeepsMem (raiseRecord r accessed lo hi) := by
  unfold raiseRecord
  refine .bind keepsMem_hartM fun _ => ?_
  extract_lets
  split
  · exact .pure _
  · exact .ite (.pure _) (.bind (keepsMem_modHart _) fun _ => .ite (.throw _) (.pure _))

theorem keepsMem_gate {r : BitVec 5} {counter need : Nat} : KeepsMem (gate r counter need) :=
  .bind keepsMem_hartM fun _ => .ite (.pure _) (.bind keepsMem_atomicLocate fun _ =>
    .bind keepsMem_hartM fun _ => .bind (keepsMem_readLocs _ _ _) fun _ => .bind (keepsMem_modHart _) fun _ =>
    .ite (.pure _) (.waitAt _))

theorem keepsMem_streamLoad {gated rev : Bool} {d : Desc} {limit : Nat} {e : VEntry} :
    KeepsMem (streamLoad gated rev d limit e) := by
  unfold streamLoad
  refine .bind keepsMem_hartM fun _ => ?_
  refine .ite ?_ ?_
  · refine .ite (.pure _) (.ite (.pure _) (.ite (.pure _) (.ite (.bind keepsMem_raiseRecord fun _ => .pure _) ?_)))
    extract_lets rest
    have hrest : ∀ r, KeepsMem (rest r) := by
      intro r
      refine .bind (.mapTrap (.bind keepsMem_raiseRecord fun _ => keepsMem_loadActive)) fun _ => ?_
      split <;> exact .pure _
    exact .ite (.bind keepsMem_gate hrest) (hrest ())
  · refine .ite (.pure _) ?_
    extract_lets tier rest
    have hrest : ∀ r, KeepsMem (rest r) := by
      intro r
      refine .bind (.mapTrap (.bind keepsMem_raiseRecord fun _ => keepsMem_readElem)) fun _ => .ite (.pure _)
        (.ite (.pure _) ?_)
      extract_lets rest
      have hrest : ∀ r, KeepsMem (rest r) := by
        intro r
        refine .bind (.mapTrap keepsMem_loadActive) fun _ => ?_
        split <;> exact .pure _
      exact .ite (.bind keepsMem_gate hrest) (hrest ())
    exact .ite (.bind keepsMem_gate hrest) (hrest ())

theorem keepsMem_setPos {r : BitVec 5} {p : Nat} : KeepsMem (setPos r p) :=
  keepsMem_modHart _

theorem keepsMem_commitLoad {rev rt : Bool} {f : Fmt} {e : VEntry} {read : Nat} {write : Option (Nat × Nat)} :
    KeepsMem (commitLoad rev rt f e read write) := by
  unfold commitLoad
  refine .bind keepsMem_hartM fun _ => ?_
  split
  exact .bind (keepsMem_modHart _) fun _ => .pure _

theorem keepsMem_vldLoop {ff gated rev : Bool} {d : Desc} {limit n : Nat} {b : Bool} {e : VEntry} :
    KeepsMem (vldLoop ff gated rev d limit n b e) := by
  induction n generalizing b e with
  | zero => exact .pure _
  | succ n ih =>
    unfold vldLoop
    refine .bind keepsMem_hartM fun _ => .bind (.attempt keepsMem_streamLoad) fun _ => ?_
    split
    · exact .ite (.bind (keepsMem_modHart _) fun _ => .pure _) (.pure _)
    · exact .pure _
    · exact .pure _
    · exact .pure _
    · exact .bind keepsMem_commitLoad fun _ => .bind keepsMem_setPos fun _ => ih

theorem keepsMem_loadBody {ff gated : Bool} {e : VEntry} : KeepsMem (loadBody ff gated e) := by
  unfold loadBody
  refine .bind keepsMem_vrlenM fun _ => .bind keepsMem_hartM fun _ => .ite (.pure _) ?_
  split
  · exact .pure _
  · refine .ite (.pure _) (.ite (.pure _) ?_)
    extract_lets limit n rev rest
    have hrest : ∀ r, KeepsMem (rest r) := by
      intro r
      refine .bind keepsMem_vldLoop fun _ => ?_
      split
      extract_lets rest
      have hrest : ∀ r, KeepsMem (rest r) := fun _ => .pure _
      exact .ite (.bind (keepsMem_modHart _) hrest) (hrest ())
    exact .ite (.bind (keepsMem_modHart _) hrest) (hrest ())

theorem keepsMem_tapedRun {merge : Bool} {k : Nat} {x : VReg} {f : Fmt} {i count : Nat} {a : ElemAt} :
    KeepsMem (tapedRun merge k x f i count a) :=
  .bind keepsMem_tapePush fun _ => keepsMem_queueCells

theorem keepsMem_plainStore {merge : Bool} {f : Fmt} {a : ElemAt} {bits : Nat} : KeepsMem (plainStore merge f a bits) := by
  unfold plainStore
  refine .bind (keepsMem_locateHere _ _ _ _) fun _ => .bind keepsMem_hartM fun _ => ?_
  extract_lets rest
  have hrest : ∀ r, KeepsMem (rest r) := fun _ => keepsMem_writeElemAt
  split
  · exact .bind keepsMem_regionCheck hrest
  · exact hrest ()

theorem keepsMem_checkRun {r : Region} {d : Desc} {k j : Nat} : KeepsMem (checkRun r d k j) := by
  induction k generalizing j with
  | zero => exact .pure _
  | succ k ih => exact .bind keepsMem_regionCheck fun _ => ih

theorem keepsMem_vstLoop {d : Desc} {vb : BitVec 5} {src : VReg → Nat → Option (Nat × Nat)} {total fuel : Nat}
    {e : VEntry} : KeepsMem (vstLoop d vb src total fuel e) := by
  induction fuel generalizing e with
  | zero => exact .pure _
  | succ fuel ih =>
    unfold vstLoop
    refine .ite (.pure _) (.bind keepsMem_hartM fun _ => ?_)
    extract_lets
    split
    · exact .pure _
    · refine .ite (.pure _) ?_
      refine .bind ?_ fun _ => ?_
      · refine .attempt (.mapTrap ?_)
        split
        · exact .bind keepsMem_raiseRecord fun _ => .ite (.bind keepsMem_plainStore fun _ => .pure _) (.pure _)
        · exact .bind keepsMem_raiseRecord fun _ => .bind keepsMem_checkRun fun _ =>
          .bind keepsMem_tapedRun fun _ => .pure _
      · split
        · exact .pure _
        · exact .pure _
        · exact .bind keepsMem_setPos fun _ => ih

theorem keepsMem_popRun {merge : Bool} {vb : BitVec 5} {r : Region} {i count va n : Nat} :
    KeepsMem (popRun merge vb r i count va n) :=
  .bind keepsMem_tapePop fun _ => keepsMem_modHart _

theorem keepsMem_descLoop {d : Desc} {vb : BitVec 5} {p0 fuel : Nat} {e : VEntry} : KeepsMem (descLoop d vb p0 fuel e) := by
  induction fuel generalizing e with
  | zero => exact .pure _
  | succ fuel ih =>
    unfold descLoop
    refine .ite (.pure _) (.ite (.pure _) (.bind keepsMem_hartM fun _ => ?_))
    refine .bind ?_ fun _ => ?_
    · refine .attempt (.mapTrap (.ite (.pure _) ?_))
      split
      · exact .bind keepsMem_raiseRecord fun _ => .bind keepsMem_plainStore fun _ => .pure _
      · exact .bind keepsMem_raiseRecord fun _ => .bind keepsMem_checkRun fun _ =>
        .bind keepsMem_popRun fun _ => .pure _
    · split
      · exact .pure _
      · exact .pure _
      · exact ih

theorem keepsMem_descBody {d : Desc} {vb : BitVec 5} {e : VEntry} : KeepsMem (descBody d vb e) := by
  unfold descBody
  refine .bind keepsMem_vrlenM fun _ => .bind keepsMem_hartM fun _ => ?_
  split
  · refine .bind keepsMem_descLoop fun _ => ?_
    split
    extract_lets rest
    have hrest : ∀ r, KeepsMem (rest r) := fun _ => .pure _
    split
    · exact .bind keepsMem_setPos hrest
    · exact hrest ()
  · refine .ite (.pure _) (.ite (.pure _) (.bind (keepsMem_modHart _) fun _ => .bind keepsMem_descLoop fun _ => ?_))
    split
    extract_lets rest
    have hrest : ∀ r, KeepsMem (rest r) := fun _ => .pure _
    split
    · exact .bind keepsMem_setPos hrest
    · exact hrest ()

theorem keepsMem_bodyVst {e : VEntry} : KeepsMem (bodyVst e) := by
  unfold bodyVst
  refine .bind keepsMem_hartM fun _ => .ite (.pure _) ?_
  split
  · exact .pure _
  · exact .ite (.pure _) (.ite (.pure _) (.ite keepsMem_descBody keepsMem_vstLoop))

theorem keepsMem_bodyVspill {e : VEntry} : KeepsMem (bodyVspill e) := by
  unfold bodyVspill
  refine .bind keepsMem_hartM fun _ => .ite (.pure _) ?_
  split
  · exact .pure _
  · split
    · exact .pure _
    · refine .bind keepsMem_vstLoop fun _ => ?_
      split
      exact .pure _

theorem keepsMem_vfillLoop {vrlen : Nat} {d : Desc} {fuel : Nat} {e : VEntry} : KeepsMem (vfillLoop vrlen d fuel e) := by
  induction fuel generalizing e with
  | zero => exact .pure _
  | succ fuel ih =>
    unfold vfillLoop
    refine .bind keepsMem_hartM fun _ => .ite (.pure _) (.ite (.pure _) (.ite (.pure _) ?_))
    refine .bind ?_ fun _ => ?_
    · refine .attempt (.mapTrap (.bind keepsMem_raiseRecord fun _ => .bind keepsMem_readElem fun _ =>
      .bind keepsMem_hartM fun _ => ?_))
      extract_lets rest
      have hrest : ∀ r, KeepsMem (rest r) := fun _ => .pure _
      split
      · exact .bind keepsMem_regionCheck hrest
      · exact hrest ()
    · split
      · exact .pure _
      · exact .pure _
      · exact .ite (.pure _) (.bind (keepsMem_modHart _) fun _ => .bind keepsMem_setPos fun _ => ih)

theorem keepsMem_bodyVfill {e : VEntry} : KeepsMem (bodyVfill e) := by
  unfold bodyVfill
  refine .bind keepsMem_vrlenM fun _ => .bind keepsMem_hartM fun _ => .ite (.pure _) ?_
  split
  · exact .pure _
  · split
    · exact .pure _
    · exact keepsMem_vfillLoop

/-- The accesses that the indices of an indexed instruction stand for keep memory. -/
def IdxKeeps (step : Hart → VEntry → Nat → Except IdxStop IdxStep) : Prop :=
  ∀ h e i x, step h e i = .ok x → KeepsMem x.access

theorem keepsMem_wholeFault {i : Nat} {s : IdxStep} {t : TrapInfo} : KeepsMem (wholeFault i s t) := by
  unfold wholeFault
  refine .bind keepsMem_hereM fun _ => .ite (.bind .get fun _ => .bind (.attempt (keepsMem_pageLeaf _ _ _ _ _)) fun _ => ?_)
    (.pure _)
  split <;> exact .pure _

theorem keepsMem_idxPass {step : Hart → VEntry → Nat → Except IdxStop IdxStep} {l : List Nat} {e : VEntry}
    {out : List IdxFault} (hstep : IdxKeeps step) : KeepsMem (idxPass step l e out) := by
  induction l generalizing e out with
  | nil => exact .pure _
  | cons x rest ih =>
    unfold idxPass
    refine .bind keepsMem_hartM fun _ => ?_
    split
    · exact .pure _
    · next x hx =>
      refine .ite (.bind (keepsMem_modHart _) fun _ => ih) (.bind (.attempt (hstep _ _ _ _ hx)) fun _ => ?_)
      split
      · exact .bind keepsMem_wholeFault fun _ => ih
      · exact ih
      · exact .bind (keepsMem_modHart _) fun _ => ih

theorem keepsMem_idxBody {step : Hart → VEntry → Nat → Except IdxStop IdxStep} {e : VEntry}
    (hstep : IdxKeeps step) : KeepsMem (idxBody step e) := by
  unfold idxBody
  extract_lets fresh top rest
  have hrest : ∀ r, KeepsMem (rest r) := by
    intro r
    refine .bind keepsMem_hartM fun _ => .bind (keepsMem_idxPass hstep) fun _ => ?_
    split
    refine .bind (keepsMem_modHart _) fun _ => .ite (.pure _) (.ite (.pure _) (.bind keepsMem_hartM fun _ => ?_))
    split <;> exact .pure _
  exact .ite (.bind (keepsMem_modHart _) hrest) (hrest ())

theorem keepsMem_emptyIndexed {e : VEntry} : KeepsMem (emptyIndexed e) :=
  .bind (keepsMem_modHart _) fun _ => .pure _

theorem keepsMem_bodyVldx {e : VEntry} : KeepsMem (bodyVldx e) := by
  unfold bodyVldx
  refine .bind keepsMem_vrlenM fun _ => .bind keepsMem_hartM fun _ => .ite (.pure _) ?_
  split
  · exact keepsMem_emptyIndexed
  · refine .ite (.pure _) (.ite (.pure _) (.bind (keepsMem_modHart _) fun _ => .bind (keepsMem_idxBody ?_) fun _ => ?_))
    · intro h e i x hx
      dsimp only at hx
      split at hx
      · nomatch hx
      · split_ifs at hx
        all_goals
          injection hx with hx
          subst hx
          refine .bind keepsMem_loadActive fun _ => ?_
          split <;> exact .pure _
    split
    exact .ite (.pure _) (.bind keepsMem_hartM fun _ => .bind (keepsMem_modHart _) fun _ => .pure _)

theorem keepsMem_storeOne {f : Fmt} {x : VReg} {i : Nat} {a : ElemAt} : KeepsMem (storeOne f x i a) := by
  unfold storeOne
  refine .bind keepsMem_hartM fun _ => ?_
  split
  · exact keepsMem_plainStore
  · exact .bind keepsMem_regionCheck fun _ => keepsMem_tapedRun

theorem keepsMem_descIdxElem {d : Desc} {e : VEntry} {i : Nat} {a : ElemAt} : KeepsMem (descIdxElem d e i a) := by
  unfold descIdxElem
  refine .bind keepsMem_hartM fun _ => ?_
  split
  · exact .bind keepsMem_plainStore fun _ => .pure _
  · exact .bind keepsMem_regionCheck fun _ => .bind keepsMem_popRun fun _ => .pure _

theorem keepsMem_storeFault {i : Nat} {a : ElemAt} {t : TrapInfo} : KeepsMem (storeFault i a t) :=
  keepsMem_wholeFault

theorem keepsMem_descIdxOthers {d : Desc} {e : VEntry} {i : Nat} {out : List IdxFault} :
    KeepsMem (descIdxOthers d e i out) := by
  induction i generalizing out with
  | zero => exact .pure _
  | succ i ih =>
    unfold descIdxOthers
    refine .bind keepsMem_hartM fun _ => ?_
    split
    · exact ih
    · refine .ite ih (.bind (.attempt keepsMem_descIdxElem) fun _ => ?_)
      split
      · extract_lets rest
        have hrest : ∀ r, KeepsMem (rest r) := fun _ => ih
        exact .ite (.bind (.bind keepsMem_storeFault fun _ => .pure _) hrest)
          (.bind (.pure _) hrest)
      · exact ih
      · exact .bind (keepsMem_modHart _) fun _ => ih

theorem keepsMem_descIdxTrap {d : Desc} {e : VEntry} {i : Nat} {a : ElemAt} {t : TrapInfo} :
    KeepsMem (descIdxTrap d e i a t) := by
  unfold descIdxTrap
  refine .bind keepsMem_storeFault fun _ => ?_
  extract_lets rest
  have hrest : ∀ r, KeepsMem (rest r) := fun _ => .bind (keepsMem_modHart _) fun _ => .pure _
  exact .ite (.bind keepsMem_descIdxOthers hrest) (.bind (.pure _) hrest)

theorem keepsMem_descIdxEnd {e : VEntry} {r : VEnd} : KeepsMem (descIdxEnd e r) :=
  .bind (keepsMem_modHart _) fun _ => .pure _

theorem keepsMem_descIdxLoop {d : Desc} {fuel : Nat} {e : VEntry} : KeepsMem (descIdxLoop d fuel e) := by
  induction fuel generalizing e with
  | zero => exact keepsMem_descIdxEnd
  | succ fuel ih =>
    unfold descIdxLoop
    refine .ite keepsMem_descIdxEnd (.ite (.pure _) (.bind keepsMem_hartM fun _ => ?_))
    extract_lets
    split
    · exact keepsMem_descIdxEnd
    · refine .bind (.attempt (.ite (.pure _) (.ite (.pure _) keepsMem_descIdxElem))) fun _ => ?_
      split
      · exact .bind keepsMem_descIdxTrap fun _ => .pure _
      · exact .pure _
      · extract_lets rest
        have hrest : ∀ r, KeepsMem (rest r) := fun _ => ih
        exact .ite (.bind (keepsMem_modHart _) hrest) (hrest ())

theorem keepsMem_bodyVstx {e : VEntry} : KeepsMem (bodyVstx e) := by
  unfold bodyVstx
  refine .bind keepsMem_vrlenM fun _ => .bind keepsMem_hartM fun _ => .ite (.pure _) ?_
  split
  · exact keepsMem_emptyIndexed
  · refine .ite (.pure _) (.ite (.pure _) (.ite (.ite (.pure _) ?_) (keepsMem_idxBody ?_)))
    · extract_lets rest
      have hrest : ∀ r, KeepsMem (rest r) := fun _ => keepsMem_descIdxLoop
      exact .ite (.bind (keepsMem_modHart _) hrest) (hrest ())
    · intro h e i x hx
      dsimp only at hx
      split at hx
      · injection hx with hx
        subst hx
        exact .bind keepsMem_storeOne fun _ => .pure _
      · nomatch hx

theorem keepsMem_vld2Loop {rev : Bool} {d : Desc} {limit fuel : Nat} {e : VEntry} :
    KeepsMem (vld2Loop rev d limit fuel e) := by
  induction fuel generalizing e with
  | zero => exact .pure _
  | succ fuel ih =>
    unfold vld2Loop
    refine .bind keepsMem_hartM fun _ => .ite (.pure _) (.ite (.pure _) ?_)
    refine .bind ?_ fun _ => ?_
    · refine .attempt (.ite (.pure _) ?_)
      split
      · exact .trap _ _ _
      · exact keepsMem_loadActive
    · split
      · exact .pure _
      · exact .pure _
      · exact .bind keepsMem_commitLoad fun _ => ih

theorem keepsMem_bodyVld2 {e : VEntry} : KeepsMem (bodyVld2 e) := by
  unfold bodyVld2
  refine .bind keepsMem_vrlenM fun _ => .bind keepsMem_hartM fun _ => .ite (.pure _) ?_
  split
  · exact .pure _
  · refine .ite (.pure _) (.ite (.pure _) (.bind keepsMem_vld2Loop fun _ => ?_))
    split
    extract_lets rest
    have hrest : ∀ r, KeepsMem (rest r) := fun _ => .pure _
    exact .ite (.bind (keepsMem_modHart _) hrest) (hrest ())

theorem keepsMem_refuseDev {a : ElemAt} : KeepsMem (refuseDev a) :=
  .bind (keepsMem_locateHere _ _ _ _) fun _ => keepsMem_refuseDevAt

theorem keepsMem_refuseDevs {d : Desc} {k j : Nat} : KeepsMem (refuseDevs d k j) := by
  induction k generalizing j with
  | zero => exact .pure _
  | succ k ih => exact .bind keepsMem_refuseDev fun _ => ih

theorem keepsMem_plainCopy {d : Desc} {x : VReg} {e : VEntry} {stop n j j2 : Nat} :
    KeepsMem (plainCopy d x e stop n j j2) := by
  induction n generalizing j j2 with
  | zero => exact .pure _
  | succ n ih =>
    unfold plainCopy
    refine .ite (.pure _) (.bind keepsMem_hartM fun _ => .ite (.bind keepsMem_raiseRecord fun _ => ih) ?_)
    refine .bind ?_ fun _ => ?_
    · refine .attempt (.mapTrap (.bind keepsMem_raiseRecord fun _ => ?_))
      split
      · exact .bind keepsMem_refuseDev fun _ => keepsMem_plainStore
      · exact .bind keepsMem_checkRun fun _ => .bind keepsMem_refuseDevs fun _ => keepsMem_tapedRun
    · split
      · exact ih
      · exact .pure _

theorem keepsMem_columnCopy {d : Desc} {x : VReg} {e : VEntry} {k j : Nat} : KeepsMem (columnCopy d x e k j) := by
  induction k generalizing j with
  | zero => exact .pure _
  | succ k ih =>
    unfold columnCopy
    refine .bind keepsMem_hartM fun _ => .ite ih (.bind (.attempt (.bind keepsMem_refuseDev fun _ =>
      keepsMem_storeOne)) fun _ => ?_)
    split
    · exact ih
    · exact .pure _

theorem keepsMem_vstpAt {e : VEntry} {first i : Nat} {half : Bool} : KeepsMem (vstpAt e first i half) :=
  .bind keepsMem_hartM fun _ => .bind keepsMem_setPos fun _ => .pure _

theorem keepsMem_vstpStop {e : VEntry} {first i : Nat} {half : Bool} {x : Tried Unit} :
    KeepsMem (vstpStop e first i half x) := by
  unfold vstpStop
  split
  · exact .bind keepsMem_vstpAt fun _ => .pure _
  · exact .bind keepsMem_vstpAt fun _ => .pure _
  · exact .pure _

theorem keepsMem_vstpLoop {d d2 : Desc} {fuel : Nat} {e : VEntry} : KeepsMem (vstpLoop d d2 fuel e) := by
  induction fuel generalizing e with
  | zero => exact .pure _
  | succ fuel ih =>
    unfold vstpLoop
    refine .ite (.pure _) (.ite (.pure _) (.bind keepsMem_hartM fun _ => ?_))
    extract_lets x p first stop n from_ w rest
    have hrest : ∀ r, KeepsMem (rest r) := by
      intro r
      cases r with
      | some stopped => exact keepsMem_vstpStop
      | none =>
        refine .bind keepsMem_columnCopy fun _ => ?_
        split
        · exact keepsMem_vstpStop
        · exact .bind keepsMem_vstpAt fun _ => .ite (.pure _) ih
    exact .ite (.bind (.pure _) hrest) (.bind keepsMem_plainCopy hrest)

theorem keepsMem_columnBack {d : Desc} {e : VEntry} {i : Nat} : KeepsMem (columnBack d e i) := by
  unfold columnBack
  refine .bind keepsMem_hartM fun _ => .ite (.pure _) (.bind keepsMem_refuseDev fun _ => ?_)
  split
  · exact keepsMem_plainStore
  · exact .bind keepsMem_regionCheck fun _ => keepsMem_popRun

theorem keepsMem_plainBack {d : Desc} {p0 : Nat} {e : VEntry} {i : Nat} : KeepsMem (plainBack d p0 e i) := by
  unfold plainBack
  refine .bind keepsMem_hartM fun _ => .ite (.pure _) ?_
  split
  · exact .bind keepsMem_raiseRecord fun _ => .bind keepsMem_refuseDev fun _ =>
    .bind keepsMem_plainStore fun _ => .pure _
  · exact .bind keepsMem_raiseRecord fun _ => .bind keepsMem_checkRun fun _ =>
    .bind keepsMem_refuseDevs fun _ => .bind keepsMem_popRun fun _ => .pure _

theorem keepsMem_vstpDesc {d d2 : Desc} {fuel : Nat} {e : VEntry} : KeepsMem (vstpDesc d d2 fuel e) := by
  induction fuel generalizing e with
  | zero => exact .pure _
  | succ fuel ih =>
    unfold vstpDesc
    refine .ite (.pure _) (.bind keepsMem_hartM fun _ => .ite (.pure _) ?_)
    refine .ite ?_ ?_
    · refine .ite ih (.bind (.attempt keepsMem_columnBack) fun _ => ?_)
      split
      · exact .pure _
      · exact .pure _
      · exact ih
    · refine .ite ih (.bind (.attempt (.mapTrap keepsMem_plainBack)) fun _ => ?_)
      split
      · exact .pure _
      · exact .pure _
      · exact ih

theorem keepsMem_vstpDown {d d2 : Desc} {p0 : Nat} {e : VEntry} : KeepsMem (vstpDown d d2 p0 e) := by
  unfold vstpDown
  refine .bind keepsMem_vstpDesc fun _ => ?_
  split
  extract_lets rest
  have hrest : ∀ r, KeepsMem (rest r) := fun _ => .pure _
  split
  · exact .bind keepsMem_setPos hrest
  · exact hrest ()

theorem keepsMem_bodyVstp {e : VEntry} : KeepsMem (bodyVstp e) := by
  unfold bodyVstp
  refine .bind keepsMem_vrlenM fun _ => .bind keepsMem_hartM fun _ => .ite (.pure _) ?_
  split
  · refine .ite (.pure _) (.ite (.pure _) (.ite ?_ keepsMem_vstpLoop))
    split
    · exact keepsMem_vstpDown
    · exact .ite (.pure _) (.ite (.pure _) (.bind (keepsMem_modHart _) fun _ => keepsMem_vstpDown))
  · exact .pure _

theorem keepsMem_atomicElem {e : VEntry} {d : Desc} {a : ElemAt} {v : Except TrapInfo Val} {f : Nat → Nat → Nat} :
    KeepsMem (atomicElem e d a v f) := by
  unfold atomicElem
  split
  · exact .throw _
  · exact .bind keepsMem_atomicRegionCheck fun _ => .bind keepsMem_noDevLocate fun _ =>
    .bind keepsMem_homeUpdate fun _ => .pure _

theorem keepsMem_atomicBody {ok : Fmt → Bool} {f : Fmt → Nat → Nat → Nat} {e : VEntry} :
    KeepsMem (atomicBody ok f e) := by
  unfold atomicBody
  refine .bind keepsMem_hartM fun _ => .ite (.pure _) ?_
  split
  · exact keepsMem_emptyIndexed
  · refine .ite (.pure _) (keepsMem_idxBody ?_)
    intro h e i x hx
    dsimp only at hx
    split at hx
    · injection hx with hx
      subst hx
      exact .bind keepsMem_atomicElem fun _ => .pure _
    · nomatch hx

theorem keepsMem_bindBlocks {gid hid k j : Nat} : KeepsMem (bindBlocks gid hid k j) := by
  induction k generalizing j with
  | zero => exact .pure _
  | succ k ih =>
    unfold bindBlocks
    refine .withState fun s hs => ?_
    split
    · split
      · exact .trap _ _ _
      · next e => exact .bind (.set (bindTcm_memWf hs e)) fun _ => ih
    · exact .throw _

theorem keepsMem_bodyWopen {e : VEntry} : KeepsMem (bodyWopen e) :=
  .bind keepsMem_hereM fun _ => .bind keepsMem_hartM fun _ => .bind keepsMem_gangM fun _ => .ite (.pure _)
    (.bind .get fun _ => .ite (.pure _) (.bind keepsMem_bindBlocks fun _ => .bind (keepsMem_modHart _) fun _ =>
    .pure _))

theorem keepsMem_bodyWclose {e : VEntry} : KeepsMem (bodyWclose e) := by
  unfold bodyWclose
  refine .bind keepsMem_hartM fun _ => .ite (.pure _) ?_
  extract_lets
  split
  · exact .pure _
  · exact .bind (keepsMem_drain _) fun _ => .bind (keepsMem_drain _) fun _ => .bind (keepsMem_modHart _) fun _ => .pure _

theorem keepsMem_windowAdd {e : VEntry} {float : Bool} {i : Nat} {c v : Except TrapInfo Val} :
    KeepsMem (windowAdd e float i c v) := by
  unfold windowAdd
  refine .bind keepsMem_hartM fun _ => ?_
  split
  · exact .throw _
  · split
    · refine .ite (.trap _ _ _) ?_
      split
      · exact .throw _
      · exact .bind keepsMem_atomicRegionCheck fun _ => keepsMem_copyUpdate
    · exact .trap _ _ _

theorem keepsMem_windowLoop {float : Bool} {fuel : Nat} {e : VEntry} : KeepsMem (windowLoop float fuel e) := by
  induction fuel generalizing e with
  | zero => exact .pure _
  | succ fuel ih =>
    unfold windowLoop
    refine .bind keepsMem_hartM fun _ => ?_
    split
    · refine .ite ih (.bind (.attempt keepsMem_windowAdd) fun _ => ?_)
      split
      · exact .pure _
      · exact .pure _
      · exact ih
    · exact .pure _

theorem keepsMem_windowBody {float : Bool} {e : VEntry} : KeepsMem (windowBody float e) := by
  unfold windowBody
  refine .bind keepsMem_hartM fun _ => .ite (.pure _) (.ite (.pure _) (.bind keepsMem_windowLoop fun _ => ?_))
  split
  exact .pure _

theorem keepsMem_mergeCell {r : Region} {w : Window} {c : Nat} : KeepsMem (mergeCell r w c) :=
  .bind (keepsMem_locateHere _ _ _ _) fun _ => .bind (keepsMem_drain _) fun _ => .bind (keepsMem_readLocs _ _ _) fun _ =>
    .bind (keepsMem_locateHere _ _ _ _) fun _ => .bind keepsMem_homeUpdate fun _ => .modify fun _ hs => homeWrite_memWf hs ..

theorem keepsMem_mergeLoop {r : Region} {w : Window} {fuel : Nat} {e : VEntry} : KeepsMem (mergeLoop r w fuel e) := by
  induction fuel generalizing e with
  | zero => exact .pure _
  | succ fuel ih =>
    unfold mergeLoop
    refine .bind (.attempt keepsMem_mergeCell) fun _ => ?_
    split
    · exact .pure _
    · exact .pure _
    · exact ih

theorem keepsMem_bodyWmerge {e : VEntry} : KeepsMem (bodyWmerge e) := by
  unfold bodyWmerge
  refine .bind keepsMem_hartM fun _ => .ite (.pure _) ?_
  split
  · refine .bind keepsMem_mergeLoop fun _ => ?_
    split
    exact .pure _
  · exact .pure _

theorem keepsMem_rowLocs {acc : Acc} {va n : Nat} : KeepsMem (rowLocs acc va n) := by
  unfold rowLocs
  refine .bind (keepsMem_locateHere _ _ _ _) fun _ => ?_
  extract_lets first rest
  have hrest : ∀ r, KeepsMem (rest r) := by
    intro r
    refine .bind keepsMem_hartM fun _ => ?_
    extract_lets
    split
    · exact .trap _ _ _
    · exact .pure _
  exact .ite (.bind (.bind (keepsMem_locateHere _ _ _ _) fun _ => .pure _) hrest) (.bind (.pure _) hrest)

theorem keepsMem_moveRow {store : Bool} {e : VEntry} {j : Nat} : KeepsMem (moveRow store e j) :=
  .bind keepsMem_hartM fun _ => .ite (.bind keepsMem_rowLocs fun _ => keepsMem_queueCells)
    (.bind keepsMem_rowLocs fun _ => .bind (keepsMem_readLocs _ _ _) fun _ => keepsMem_modHart _)

theorem keepsMem_rowLoop {store : Bool} {fuel : Nat} {e : VEntry} : KeepsMem (rowLoop store fuel e) := by
  induction fuel generalizing e with
  | zero => exact .pure _
  | succ fuel ih =>
    unfold rowLoop
    refine .ite (.pure _) (.ite (.pure _) (.bind keepsMem_hartM fun _ => .bind (.attempt keepsMem_moveRow) fun _ => ?_))
    split
    · exact .pure _
    · exact .pure _
    · exact ih

theorem keepsMem_rowBody {store : Bool} {e : VEntry} : KeepsMem (rowBody store e) :=
  .ite (.pure _) (.ite (.pure _) keepsMem_rowLoop)

theorem keepsMem_bodySnext {e : VEntry} : KeepsMem (bodySnext e) := by
  unfold bodySnext
  split
  · exact .pure _
  · exact .bind (keepsMem_modHart _) fun _ => .pure _

theorem keepsMem_bodyVsetf {e : VEntry} : KeepsMem (bodyVsetf e) :=
  .bind keepsMem_vrlenM fun _ => .bind (keepsMem_modHart _) fun _ => .pure _

theorem keepsMem_bodyVclr {e : VEntry} : KeepsMem (bodyVclr e) :=
  .bind (keepsMem_modHart _) fun _ => .pure _

theorem keepsMem_bodyFenceVv {e : VEntry} : KeepsMem (bodyFenceVv e) :=
  .bind (keepsMem_drain _) fun _ => .bind (keepsMem_modHart _) fun _ => .pure _

theorem keepsMem_barrierM : KeepsMem barrierM :=
  keepsMem_modGang

theorem keepsMem_bodyGarr {e : VEntry} : KeepsMem (bodyGarr e) :=
  .bind (keepsMem_modHart _) fun _ => .pure _

end Sys2Proof.Machine
end


section
/-! Every vector entry keeps byte memory in canonical form, and so does what the vector queue does with its entries. -/

namespace Sys2Proof.Machine

/-! ### The families of bodies that only compute on the hart -/

section PureFamilies

variable {e : VEntry}

theorem keepsMem_intBinary {cls : Cls} {rda rdb : Rd} {kind : Kind} {f : Fmt → Word → Word → Int} :
    KeepsMem (intBinary cls rda rdb kind f e) := keepsMem_pureBody

theorem keepsMem_satPattern {f : Int → Int → Int} : KeepsMem (satPattern f e) := keepsMem_pureBody

theorem keepsMem_intUnary {cls : Cls} {rda : Rd} {kind : Kind} {f : Fmt → Word → Int} :
    KeepsMem (intUnary cls rda kind f e) := keepsMem_pureBody

theorem keepsMem_pairBody {acc : Bool} : KeepsMem (pairBody acc e) := keepsMem_pureBody

theorem keepsMem_intCompare {f : Word → Word → Bool} : KeepsMem (intCompare f e) := keepsMem_pureBody

theorem keepsMem_fpCompare {f : FVal → FVal → Bool} : KeepsMem (fpCompare f e) := keepsMem_pureBody

theorem keepsMem_maskLogic {f : Bool → Bool → Bool} : KeepsMem (maskLogic f e) := keepsMem_pureBody

theorem keepsMem_fpBinary {f : Rnd → FVal → FVal → FVal} : KeepsMem (fpBinary f e) := keepsMem_pureBody

theorem keepsMem_fpMac {neg : Bool} : KeepsMem (fpMac neg e) := keepsMem_pureBody

theorem keepsMem_fpUnary {f : FloatFmt → FVal → FVal} : KeepsMem (fpUnary f e) := keepsMem_pureBody

theorem keepsMem_fpExact {sign : Option (Nat → Nat → Nat)} {f : Val → Val} :
    KeepsMem (fpExact sign f e) := keepsMem_pureBody

theorem keepsMem_codeUnary {ok : Fmt → Fmt → Bool} {res : VEntry → Val → Nat × Nat} :
    KeepsMem (codeUnary ok res e) := keepsMem_pureBody

theorem keepsMem_tierBody {f : Nat × Nat → Nat} : KeepsMem (tierBody f e) := keepsMem_pureBody

theorem keepsMem_reduction {cls : Cls} {init : VEntry → Val → Nat}
    {group : VEntry → Nat → Nat → List (Nat × Val) → Nat} {fin : VEntry → Nat → Nat × Nat} :
    KeepsMem (reduction cls init group fin e) := keepsMem_pureBody

theorem keepsMem_intReduce {f : Word → Word → Word} : KeepsMem (intReduce f e) := keepsMem_reduction

theorem keepsMem_fpReduce {node : FloatFmt → FVal → FVal} {add : FloatFmt → FVal → FVal → FVal} :
    KeepsMem (fpReduce node add e) := by
  unfold fpReduce
  exact keepsMem_reduction

theorem keepsMem_scanBody {cls : Cls} {enc : VEntry → Nat → Nat × Nat}
    {init : VEntry → Val → Nat} {step : VEntry → Nat → Val → Nat} :
    KeepsMem (scanBody cls enc init step e) := keepsMem_pureBody

theorem keepsMem_maskReduce {f : Nat → List Nat → Nat} {fin : Nat → Int} :
    KeepsMem (maskReduce f fin e) := keepsMem_pureBody

theorem keepsMem_indexBody {f : Hart → VEntry → Nat → Int} : KeepsMem (indexBody f e) := keepsMem_pureBody

theorem keepsMem_permBody {gov : Gov} {src : Hart → VEntry → Nat → Nat} :
    KeepsMem (permBody gov src e) := keepsMem_pureBody

theorem keepsMem_brkBody {extra : Nat} : KeepsMem (brkBody extra e) := keepsMem_pureBody

end PureFamilies

/-- Beside the bodies that reach memory or the gang, each is `pureBody` of a function on the hart and the entry. -/
theorem keepsMem_vecBody {x : VKind} {e : VEntry} : KeepsMem (vecBody x e) := by
  unfold vecBody
  cases x with
  | vadd | vsub | vmul | vmulh | vand | vor | vxor | vsll | vsrl | vsra | vmin | vmax | vminu | vmaxu | vadds
  | vsubs | vdiv | vrem | vdivu | vremu | vbext => exact keepsMem_intBinary
  | vaddsu | vsubsu => exact keepsMem_satPattern
  | vabs | vclz | vpop => exact keepsMem_intUnary
  | vwmul | vwmac => exact keepsMem_pairBody
  | vmeq | vmne | vmlt | vmle | vmltu | vmleu => exact keepsMem_intCompare
  | vmfeq | vmflt | vmfle | vmfun => exact keepsMem_fpCompare
  | vmand | vmor | vmxor | vmandn => exact keepsMem_maskLogic
  | vfadd | vfsub | vfmul | vfdiv | vfmin | vfmax => exact keepsMem_fpBinary
  | vfmac | vfnmac => exact keepsMem_fpMac
  | vfsqrt | vfrsq | vfrcp => exact keepsMem_fpUnary
  | vfabs | vfneg | vfcvt => exact keepsMem_fpExact
  | vdec | venc | vrepack => exact keepsMem_codeUnary
  | vtier | vbits => exact keepsMem_tierBody
  | vredsum | vredmin | vredmax | vredand | vredor | vredxor => exact keepsMem_intReduce
  | vfredsum | vfredmin | vfredmax | vfredsq => exact keepsMem_fpReduce
  | vscan | vfscan => exact keepsMem_scanBody
  | vfirst | vmcnt => exact keepsMem_maskReduce
  | viota | vid => exact keepsMem_indexBody
  | vslidedn | vbcast | vunzip | vrev => exact keepsMem_permBody
  | vbrk | vbrkb => exact keepsMem_brkBody
  | vld | vldff | vldw => exact keepsMem_loadBody
  | vst => exact keepsMem_bodyVst
  | vldx => exact keepsMem_bodyVldx
  | vstx => exact keepsMem_bodyVstx
  | vspill => exact keepsMem_bodyVspill
  | vfill => exact keepsMem_bodyVfill
  | vld2 => exact keepsMem_bodyVld2
  | vstp => exact keepsMem_bodyVstp
  | vamoadd | vamomin | vamomax | vamoand | vamoor | vamoxor | vamoswp | vfamoadd => exact keepsMem_atomicBody
  | wopen => exact keepsMem_bodyWopen
  | wadd | wfadd => exact keepsMem_windowBody
  | wmerge => exact keepsMem_bodyWmerge
  | wclose => exact keepsMem_bodyWclose
  | zld | zst => exact keepsMem_rowBody
  | snext => exact keepsMem_bodySnext
  | vsetf => exact keepsMem_bodyVsetf
  | vclr => exact keepsMem_bodyVclr
  | fenceVv => exact keepsMem_bodyFenceVv
  | garr => exact keepsMem_bodyGarr
  | _ => exact keepsMem_pureBody

/-! ### The vector queue -/

theorem keepsMem_runTo {s : State} {e : VEntry} {b : Nat} (hs : s.MemWf) : KeepsMem (runTo s e b) := by
  unfold runTo
  refine .bind (.set hs) fun _ => .ite (.pure _) (.bind keepsMem_vecBody fun _ => ?_)
  split
  exact .pure _

theorem keepsMem_keepCover {e : VEntry} {cover : Option Nat} : KeepsMem (keepCover e cover) :=
  .ite (keepsMem_modHart _) (.pure _)

theorem keepsMem_runEntry {e : VEntry} : KeepsMem (runEntry e) := by
  unfold runEntry
  refine .withState fun s hs => .bind (.attempt keepsMem_vecBody) fun _ => ?_
  split
  · exact .throw _
  · exact .pure _
  · split
    · exact .ite (.pure _) (.bind keepsMem_hartM fun _ => .bind (keepsMem_runTo hs) fun _ =>
      .bind keepsMem_keepCover fun _ => .pure _)
    · exact .pure _

theorem keepsMem_runHead : KeepsMem runHead := by
  unfold runHead
  refine .bind keepsMem_hereM fun _ => .bind keepsMem_hartM fun _ => ?_
  split
  · exact .pure _
  · refine .bind keepsMem_runEntry fun _ => ?_
    split
    refine .bind (keepsMem_modHart _) fun _ => ?_
    split
    · exact .bind (.modify fun _ hs => takeTrap_memWf hs ..) fun _ => .pure _
    · split
      · exact .pure _
      · exact .pure _
      · extract_lets rest
        have hrest : ∀ r, KeepsMem (rest r) := fun _ => .pure _
        exact .ite (.bind keepsMem_barrierM hrest) (hrest ())

theorem keepsMem_runHeadPart {n : Nat} : KeepsMem (runHeadPart n) := by
  unfold runHeadPart
  refine .withState fun s hs => .bind keepsMem_hartM fun _ => ?_
  split
  · exact .pure _
  · refine .bind keepsMem_runEntry fun _ => ?_
    split
    extract_lets e1 afterTrap done
    split
    · exact .bind (.set hs) fun _ => .pure _
    · have hafter : ∀ e2, KeepsMem (afterTrap e2) := fun _ => .bind (keepsMem_modHart _) fun _ => .pure _
      exact .ite (.bind (.pure _) hafter) (.bind (keepsMem_runTo hs) hafter)
    · exact .bind (keepsMem_modHart _) fun _ => .pure _
    · refine .bind (keepsMem_modHart _) fun _ => ?_
      split
      · exact .pure _
      · exact .pure _
      · exact .ite (.bind keepsMem_barrierM fun _ => .pure _) (.pure _)

theorem keepsMem_accessBytes {e : VEntry} {u : Nat} : KeepsMem (accessBytes e u) := by
  unfold accessBytes
  refine .bind keepsMem_hartM fun _ => ?_
  extract_lets
  split
  · exact .pure _
  · refine .ite (.pure _) (.bind ?_ fun _ => .pure _)
    refine .mapM (fun _ => .ite (.pure _) ?_) _
    split
    · exact .pure _
    · refine .bind (.attempt (keepsMem_locateHere _ _ _ _)) fun _ => ?_
      split
      · exact .bind .get fun _ => .pure _
      · exact .pure _

theorem keepsMem_bytesApart {older : List VEntry} {e : VEntry} {u : Nat} : KeepsMem (bytesApart older e u) := by
  unfold bytesApart
  refine .ite (.pure _) (.bind keepsMem_hartM fun _ => .ite (.pure _) (.bind keepsMem_accessBytes fun _ => ?_))
  split
  · exact .pure _
  · exact .bind (.mapM (fun _ => keepsMem_accessBytes) _) fun _ => .pure _

theorem keepsMem_mayRunBehind {older : List VEntry} {e : VEntry} {u : Nat} : KeepsMem (mayRunBehind older e u) :=
  .bind keepsMem_hartM fun _ => .ite keepsMem_bytesApart (.pure _)

theorem keepsMem_runBehind {k n : Nat} : KeepsMem (runBehind k n) := by
  unfold runBehind
  refine .bind keepsMem_hartM fun _ => ?_
  split
  · exact .pure _
  · refine .withState fun s hs => .bind keepsMem_mayRunBehind fun _ => ?_
    have hback : KeepsMem (do set s; pure false : M Bool) := .bind (.set hs) fun _ => .pure _
    refine .ite hback (.bind (keepsMem_modHart _) fun _ => .bind (.attempt keepsMem_vecBody) fun _ => ?_)
    split
    · exact .ite (.bind (keepsMem_modHart _) fun _ => .pure _) hback
    · exact hback

theorem keepsMem_needQueueEmpty : KeepsMem needQueueEmpty :=
  .bind keepsMem_hartM fun _ => .ite (.pure _) (.waitAt _)

theorem noteIssue_memWf {s : State} (hs : s.MemWf) (g h : Nat) (p : Pipe) : (noteIssue s g h p).MemWf := by
  unfold noteIssue
  split <;> exact hs

theorem keepsMem_enqueue {kind : VKind} {o : VOps} {n : Nat} {scal scal2 : Word} {aux : Nat} {taken : Option QDesc} :
    KeepsMem (enqueue kind o n scal scal2 aux taken) := by
  unfold enqueue
  refine .bind keepsMem_hartM fun _ => .ite (.waitAt _) (.bind keepsMem_advance fun _ =>
    .bind (keepsMem_modHart _) fun _ => .bind .get fun _ => .ite (.bind keepsMem_hereM fun _ =>
    .bind keepsMem_runHead fun _ => ?_) (.pure _))
  split
  · exact .pure _
  · exact .modify fun _ hs => noteIssue_memWf hs ..

theorem keepsMem_needTiles : KeepsMem needTiles :=
  .bind keepsMem_hartM fun _ => .ite (.pure _) (.trap _ _ _)

end Sys2Proof.Machine
end


section
/-! What a function from state to state keeps of byte memory's canonical form, and the parts that scalar instructions share. -/

namespace Sys2Proof.Machine

variable {α β : Type}

/-! ### States that a function gives back -/

theorem memWf_ite {c : Prop} [Decidable c] {a b : State} (ha : a.MemWf) (hb : b.MemWf) : (if c then a else b).MemWf := by
  split
  · exact ha
  · exact hb

theorem memWf_ite_fst {c : Prop} [Decidable c] {a b : State × α} (ha : a.1.MemWf) (hb : b.1.MemWf) :
    (if c then a else b).1.MemWf := by
  split
  · exact ha
  · exact hb

theorem memWf_ite_snd {c : Prop} [Decidable c] {a b : α × State} (ha : a.2.MemWf) (hb : b.2.MemWf) :
    (if c then a else b).2.MemWf := by
  split
  · exact ha
  · exact hb

theorem foldl_memWf {f : State → α → State} (hf : ∀ s a, s.MemWf → (f s a).MemWf) (l : List α) {s : State}
    (hs : s.MemWf) : (l.foldl f s).MemWf :=
  List.foldlRecOn l f hs fun s hs a _ => hf s a hs

/-- The state of a pair that a function gives back, when a case split has named its parts. -/
theorem memWf_snd {p : α × State} {a : α} {t : State} (e : p = (a, t)) (h : p.2.MemWf) : t.MemWf := by
  rw [e] at h
  exact h

theorem memWf_fst {p : State × α} {a : α} {t : State} (e : p = (t, a)) (h : p.1.MemWf) : t.MemWf := by
  rw [e] at h
  exact h

theorem memWf_trd {p : α × β × State} {a : α} {b : β} {t : State} (e : p = (a, b, t)) (h : p.2.2.MemWf) : t.MemWf := by
  rw [e] at h
  exact h

theorem tried_memWf {m : M α} (hm : KeepsMem m) {s : State} (hs : s.MemWf) : (tried m s).2.MemWf := by
  have := hm.attempt s hs
  unfold tried
  split <;> next e => rw [e] at this; exact this

/-! ### Parts of scalar instructions -/

theorem keepsMem_branchBits : KeepsMem branchBits := by
  unfold branchBits
  refine .bind keepsMem_cpuM fun _ => ?_
  split
  · exact .bind keepsMem_hartM fun _ => .pure _
  · exact .pure _

theorem keepsMem_jumpTo {n : Nat} {d : RegField} {t : Word} : KeepsMem (jumpTo n d t) :=
  .bind keepsMem_getPc fun _ => .bind keepsMem_checkTargetHere fun _ => .bind keepsMem_setX fun _ =>
    keepsMem_setPcM

theorem keepsMem_fpRnd {r : BitVec 3} : KeepsMem (fpRnd r) :=
  .ite (.bind keepsMem_hartM fun _ => .ite (.trap _ _ _) (.pure _)) (.pure _)

theorem keepsMem_takeGrant {d : RegField} {g : Nat} {ill : Bool} : KeepsMem (takeGrant d g ill) :=
  .bind (keepsMem_modHart _) fun _ => .bind keepsMem_setX fun _ => keepsMem_advance

theorem keepsMem_passFenceSv : KeepsMem passFenceSv :=
  .bind keepsMem_hartM fun _ => .ite (.bind (keepsMem_drain _) fun _ => keepsMem_modHart _) (.pure _)

theorem keepsMem_passFenceVs : KeepsMem passFenceVs :=
  .bind keepsMem_hartM fun _ => .ite (.waitAt _) (.ite (.bind (keepsMem_drain _) fun _ => keepsMem_modHart _) (.pure _))

theorem keepsMem_holdPush {room : Bool} : KeepsMem (holdPush room) :=
  .bind keepsMem_hartM fun _ => .ite (.waitAt _) keepsMem_passFenceSv

theorem keepsMem_takeEntry {sl : SliceId} {q : QWord} : KeepsMem (takeEntry sl q) := by
  unfold takeEntry
  refine .bind keepsMem_hereM fun _ => .bind keepsMem_hartM fun _ => ?_
  extract_lets rest
  have hrest : ∀ r, KeepsMem (rest r) := fun _ => .bind keepsMem_hartM fun _ => .ite (.bind (.modify fun _ hs =>
    drainBuf_memWf hs ..) fun _ => .bind keepsMem_hartM fun _ => .ite (.waitAt _) (.pure _)) (.pure _)
  exact .ite (.bind (.waitAt _) hrest) (hrest ())

theorem keepsMem_pushDesc {s : BitVec 4} {d : Desc} {resv : Word} : KeepsMem (pushDesc s d resv) :=
  .ite (.trap _ _ _) (.ite (.trap _ _ _) (.bind (keepsMem_modHart _) fun _ => keepsMem_advance))

theorem keepsMem_holdDesc {s : BitVec 4} : KeepsMem (holdDesc s) :=
  .bind keepsMem_hartM fun _ => .ite (.waitAt _) keepsMem_passFenceSv

theorem coopStop_memWf {s : State} (hs : s.MemWf) (g h : Nat) (sl : SliceId) : (coopStop s g h sl).MemWf := by
  unfold coopStop
  extract_lets s₁
  have hs₁ : s₁.MemWf := hs
  split
  · exact hs₁
  · exact memWf_ite (beginSave_memWf hs₁ ..) hs₁

theorem keepsMem_observeWord {va : Word} : KeepsMem (observeWord va) := by
  unfold observeWord
  refine .ite (.trap _ _ _) (.bind keepsMem_noDevLocate fun _ => .bind keepsMem_hartM fun _ => ?_)
  extract_lets rest
  have hrest : ∀ r, KeepsMem (rest r) := fun _ => .bind (keepsMem_readLocs _ _ _) fun _ => .pure _
  exact .ite (.bind (keepsMem_drain _) hrest) (hrest ())

theorem keepsMem_surveyObserve {va : Word} : KeepsMem (surveyObserve va) := by
  unfold surveyObserve
  refine .bind .get fun _ => .ite (.trap _ _ _) ?_
  split
  · exact .trap _ _ _
  · exact .ite (.trap _ _ _) (.pure _)

theorem keepsMem_settleHart {fn10 : Nat} : KeepsMem (settleHart fn10) :=
  .bind keepsMem_hartM fun _ => .ite (.waitAt _) (.bind (keepsMem_drain _) fun _ =>
    .bind (keepsMem_drain _) fun _ => .bind (keepsMem_modHart _) fun _ => keepsMem_barrierM)

theorem leaveIfSaved_memWf {s : State} (hs : s.MemWf) (g : Nat) : (leaveIfSaved s g).MemWf := by
  unfold leaveIfSaved
  split
  · exact memWf_ite hs hs
  · exact hs

theorem keepsMem_readTable : KeepsMem readTable := by
  unfold readTable
  refine .bind keepsMem_hartM fun _ => .ite (.pure _) (.bind (keepsMem_loadBytes _ _ _) fun _ => ?_)
  extract_lets
  split
  · exact .trap _ _ _
  · exact .pure _

theorem keepsMem_surveyGet {k n : Nat} : KeepsMem (surveyGet k n) := by
  unfold surveyGet
  refine .withState fun s hs => ?_
  split
  · exact .pure _
  · exact .bind (.set hs) fun _ => .pure _

theorem keepsMem_readThrough {x : Xlat} {n j j2 : Nat} : KeepsMem (readThrough x n j j2) := by
  induction n generalizing j j2 with
  | zero => exact .pure _
  | succ n ih =>
    exact .bind (keepsMem_locate _ _ _ _ _) fun _ => .bind (keepsMem_readLocs _ _ _) fun _ =>
      .ite (.pure _) (.bind ih fun _ => .pure _)

theorem keepsMem_readCtx {x : Xlat} {va n : Nat} : KeepsMem (readCtx x va n) :=
  .ite (.pure _) keepsMem_readThrough

theorem keepsMem_locateThrough {x : Xlat} {acc : Acc} {n j j2 : Nat} : KeepsMem (locateThrough x acc n j j2) := by
  induction n generalizing j j2 with
  | zero => exact .pure _
  | succ n ih =>
    exact .bind (keepsMem_locate _ _ _ _ _) fun _ => .ite (.pure _) (.bind ih fun _ => .pure _)

theorem keepsMem_locateCtx {x : Xlat} {acc : Acc} {va n : Nat} : KeepsMem (locateCtx x acc va n) :=
  .ite (.pure _) keepsMem_locateThrough

theorem keepsMem_readReachable {x : Xlat} {va n : Nat} : KeepsMem (readReachable x va n) :=
  .bind keepsMem_locateCtx fun _ => .bind .get fun _ => .ite (.trap _ _ _) (keepsMem_readLocs _ _ _)

theorem keepsMem_writeFound {f : Found} {bytes : List Byte} : KeepsMem (writeFound f bytes) :=
  .bind (keepsMem_markDirty _) fun _ => .modify fun _ hs => homeWrite_memWf hs ..

theorem completionAdd_memWf {s : State} (hs : s.MemWf) (by_ : Adder) (pa : Nat) (tag : Word) (locs : List Nat) (n : Nat)
    (e : Bool) : (completionAdd by_ pa tag locs n e s).MemWf :=
  memWf_ite hs (homeWrite_memWf hs ..)

theorem keepsMem_objectPlace {x : Xlat} {va : Word} : KeepsMem (objectPlace x va) := by
  unfold objectPlace
  refine .bind (.attempt (keepsMem_locate _ _ _ _ _)) fun _ => ?_
  split
  · exact .throw _
  · exact .bind (keepsMem_markDirty _) fun _ => .ite (.pure _) (.bind (keepsMem_leafFor _ _ _ _) fun _ => .pure _)
  · exact .bind (keepsMem_leafFor _ _ _ _) fun _ => .bind (.modify fun _ hs => setDirty_memWf hs ..) fun _ => .pure _

theorem keepsMem_objectCheck {x : Xlat} {va : Word} : KeepsMem (objectCheck x va) :=
  .ite (.trap _ _ _) (.ite (.bind (keepsMem_locate _ _ _ _ _) fun _ => .pure _) (.bind (keepsMem_pageLeaf _ _ _ _ _) fun _ =>
    .ite (.trap _ _ _) (.ite (.trap _ _ _) (.pure _))))

theorem addAt_memWf {s : State} (hs : s.MemWf) (p : List Nat × Nat × Option TlbEntry) (by_ : Adder) (tag : Word) (n : Nat)
    (e : Bool) (gang : Option Nat) : (addAt p by_ tag n e gang s).MemWf := by
  unfold addAt
  split
  · exact hs
  · exact completionAdd_memWf hs ..

theorem addThrough_memWf {s : State} (hs : s.MemWf) (x : Xlat) (by_ : Adder) (tag va : Word) (n : Nat) (e : Bool)
    (gang : Option Nat) : (addThrough x by_ tag va n e gang s).MemWf := by
  unfold addThrough
  split
  · next e =>
      have hs := memWf_snd e (tried_memWf keepsMem_objectPlace hs)
      exact addAt_memWf hs ..
  · next e => exact memWf_snd e (tried_memWf keepsMem_objectPlace hs)

theorem makeAdds_memWf {s : State} (hs : s.MemWf) : (makeAdds s).MemWf :=
  foldl_memWf (fun _ _ hs => completionAdd_memWf hs ..) _ hs

theorem endOp_memWf {s : State} (hs : s.MemWf) (op : Op) (e : Bool) : (endOp s op e).MemWf :=
  memWf_ite hs (addThrough_memWf hs ..)

theorem endColl_memWf {s : State} (hs : s.MemWf) (c : CollOp) (e whole : Bool) : (endColl s c e whole).MemWf :=
  foldl_memWf (fun _ _ hs => endOp_memWf hs ..) _ hs

theorem endAll_memWf {s : State} (hs : s.MemWf) (id : Nat) : (endAll s id).MemWf :=
  foldl_memWf (fun _ _ hs => endColl_memWf hs ..) _ hs

end Sys2Proof.Machine
end


section
/-! Launches, completion objects and device registers keep byte memory in canonical form, and so do scalar accesses. -/

namespace Sys2Proof.Machine

theorem accessCheck_memWf {α : Type} {m : M α} (hm : KeepsMem m) {s : State} (hs : s.MemWf) :
    (accessCheck m s).2.MemWf := by
  unfold accessCheck
  split <;> next e => exact memWf_snd e (tried_memWf hm hs)

theorem also_memWf {c : Check × State} {f : State → Check × State} (hc : c.2.MemWf)
    (hf : ∀ s, s.MemWf → (f s).2.MemWf) : (Check.also c f).2.MemWf := by
  unfold Check.also
  split
  · exact hf _ hc
  · exact hc

theorem codeOk_memWf {s : State} (hs : s.MemWf) (x : Xlat) (code : Nat) : (codeOk x code s).2.MemWf :=
  accessCheck_memWf (.bind (keepsMem_locate _ _ _ _ _) fun _ => keepsMem_readLocs _ _ _) hs

theorem loadOk_memWf {s : State} (hs : s.MemWf) (x : Xlat) (va : Word) : (loadOk x va s).2.MemWf :=
  memWf_ite_snd hs (accessCheck_memWf keepsMem_readCtx hs)

theorem attrOk_memWf {s : State} (hs : s.MemWf) (x : Xlat) (va : Word) : (attrOk x va s).2.MemWf :=
  memWf_ite_snd hs
    (accessCheck_memWf (.bind (keepsMem_pageLeaf _ _ _ _ _) fun _ => .ite (.pure _) (.trap _ _ _)) hs)

theorem doneAdd_memWf {s : State} (hs : s.MemWf) (port : Nat) (r : Record) (c : PortCtx) (n : Nat) (e refusal : Bool) :
    (doneAdd s port r c n e refusal).MemWf := by
  unfold doneAdd
  have hload : ∀ x, (if refusal then loadOk x r.donea s
      else accessCheck (locate x .load r.donea.toNat 8) s).2.MemWf := fun x =>
    memWf_ite_snd (loadOk_memWf hs ..) (accessCheck_memWf (keepsMem_locate _ _ _ _ _) hs)
  refine memWf_ite hs ?_
  split
  · next e => exact memWf_snd e (hload _)
  · next e =>
      have hs := memWf_snd e (hload _)
      split
      · next e => exact addThrough_memWf (memWf_snd e (attrOk_memWf hs ..)) ..
      · next e => exact memWf_snd e (attrOk_memWf hs ..)

theorem refuse_memWf {s : State} (hs : s.MemWf) (p : BitVec 8) (code : Nat) (rec? : Option (Record × PortCtx)) :
    (refuse s p code rec?).MemWf := by
  unfold refuse
  extract_lets x s₁
  have hs₁ : s₁.MemWf := hs
  split
  · exact memWf_ite hs₁ (doneAdd_memWf hs₁ ..)
  · exact hs₁

theorem keepsMem_readMeta {x : Xlat} {code : Word} : KeepsMem (readMeta x code) := by
  unfold readMeta
  refine .bind keepsMem_readReachable fun _ => ?_
  split
  · exact .pure _
  · refine .bind keepsMem_readReachable fun _ => .ite (.pure _) ?_
    split
    · exact .ite (.pure _) (.bind keepsMem_readReachable fun _ => .pure _)
    · exact .pure _

theorem imageUnread_memWf {s : State} (hs : s.MemWf) (t : TrapInfo) (tag : Word) : (imageUnread s t tag).MemWf :=
  memWf_ite hs hs

theorem admitCode_memWf {s : State} (hs : s.MemWf) (x : Xlat) (code : Word) (m : MetaInfo) (tag : Word) :
    (admitCode x code m tag s).2.MemWf := by
  unfold admitCode
  refine memWf_ite_snd hs ?_
  split
  · next e =>
      have hs := memWf_snd e (tried_memWf keepsMem_readReachable hs)
      extract_lets
      split <;> exact hs
  · next e =>
      have hs := memWf_snd e (tried_memWf keepsMem_readReachable hs)
      exact imageUnread_memWf hs ..
  · next e => exact memWf_snd e (tried_memWf keepsMem_readReachable hs)

theorem refuseAccepted_memWf {s : State} (hs : s.MemWf) (l : Launch) (code : Nat) : (refuseAccepted s l code).MemWf :=
  refuse_memWf (by exact hs) ..

theorem passHeads_memWf {s : State} (hs : s.MemWf) (p n : Nat) : (passHeads p n s).MemWf := by
  induction n generalizing s with
  | zero => exact hs
  | succ n ih =>
    unfold passHeads
    split
    · exact hs
    · split
      · exact hs
      · exact memWf_ite (ih (refuseAccepted_memWf hs ..)) (ih (by exact hs))

theorem acceptRecord_memWf {s : State} (hs : s.MemWf) (p : BitVec 8) (r : Record) (c : PortCtx) (m : MetaInfo)
    (digest : BitVec 512) : (acceptRecord s p r c m digest).MemWf :=
  passHeads_memWf (by exact hs) ..

theorem codeChecks_memWf {s : State} (hs : s.MemWf) (x : Xlat) (r : Record) (tag : Word) :
    (codeChecks x r tag s).1.MemWf := by
  unfold codeChecks
  split
  · next e =>
      have hs := memWf_snd e (tried_memWf keepsMem_readMeta hs)
      refine memWf_ite_fst hs ?_
      split <;> next e => exact memWf_snd e (admitCode_memWf hs ..)
  · next e => exact memWf_snd e (tried_memWf keepsMem_readMeta hs)
  · next e =>
      have hs := memWf_snd e (tried_memWf keepsMem_readMeta hs)
      exact imageUnread_memWf hs ..
  · next e => exact memWf_snd e (tried_memWf keepsMem_readMeta hs)

theorem lateChecks_memWf {s : State} (hs : s.MemWf) (p : BitVec 8) (r : Record) (c : PortCtx) :
    (lateChecks s p r c).1.MemWf := by
  unfold lateChecks
  have hload : ∀ x, ((Check.also (Check.also (codeOk x r.code.toNat s) (loadOk x r.waita)) (loadOk x r.donea))).2.MemWf :=
    fun x => also_memWf (also_memWf (codeOk_memWf hs ..) fun _ hs => loadOk_memWf hs ..) fun _ hs => loadOk_memWf hs ..
  extract_lets
  split
  · next e => exact memWf_snd e (hload _)
  · next e => exact memWf_snd e (hload _)
  · next s₁ e =>
      have hs := memWf_snd e (hload _)
      have hattr : ∀ x, (Check.also (attrOk x r.waita s₁) (attrOk x r.donea)).2.MemWf := fun x =>
        also_memWf (attrOk_memWf hs ..) fun _ hs => attrOk_memWf hs ..
      split
      · next e => exact codeChecks_memWf (memWf_snd e (hattr _)) ..
      · next e => exact memWf_snd e (hattr _)

theorem portWrite_memWf {s : State} (hs : s.MemWf) (p : BitVec 8) (off : Nat) (data : List Byte)
    (asid : Option (BitVec 16)) : (portWrite s p off data asid).2.MemWf := by
  unfold portWrite
  refine memWf_ite_snd (refuse_memWf hs ..) (memWf_ite_snd (refuse_memWf hs ..) (memWf_ite_snd (refuse_memWf hs ..)
    (memWf_ite_snd (refuse_memWf hs ..) (memWf_ite_snd (refuse_memWf hs ..) ?_))))
  split
  · next e =>
      have hs := memWf_fst e (lateChecks_memWf hs ..)
      exact refuse_memWf hs ..
  · next e =>
      have hs := memWf_fst e (lateChecks_memWf hs ..)
      exact acceptRecord_memWf hs ..
  · next e => exact memWf_fst e (lateChecks_memWf hs ..)

theorem recordArrives_memWf {s : State} (hs : s.MemWf) (p : BitVec 8) (off : Nat) (data : List Byte) :
    (recordArrives s p off data).MemWf := by
  unfold recordArrives
  refine memWf_ite hs ?_
  have hw := portWrite_memWf hs p off data none
  split
  · next e =>
      have hs := memWf_snd e hw
      exact hs
  · next e => exact memWf_snd e hw

theorem wakeIdle_memWf {s : State} (hs : s.MemWf) : (wakeIdle s).MemWf :=
  memWf_ite hs hs

theorem portArrives_memWf {s : State} (hs : s.MemWf) (port : BitVec 8) (off : Nat) (data : List Byte) :
    (portArrives port off data s).MemWf :=
  memWf_ite hs (recordArrives_memWf (wakeIdle_memWf hs ..) ..)

theorem observeValue_memWf {s : State} (hs : s.MemWf) (l : Launch) (v : Word) : (observeValue s l v).MemWf :=
  memWf_ite (passHeads_memWf (by exact hs) ..) hs

theorem refuseWait_memWf {s : State} (hs : s.MemWf) (l : Launch) : (refuseWait s l).MemWf :=
  passHeads_memWf (refuseAccepted_memWf hs ..) ..

theorem keepsMem_waitRemote {x : Xlat} {va : Nat} : KeepsMem (waitRemote x va) :=
  .ite (.pure _) (.bind (keepsMem_pageLeaf _ _ _ _ _) fun _ => .bind .get fun _ => .pure _)

theorem observeWait_memWf {s : State} (hs : s.MemWf) (l : Launch) (again : Bool) : (observeWait s l again).MemWf := by
  unfold observeWait
  refine memWf_ite hs ?_
  extract_lets x va bad
  have hbad : ∀ t s, s.MemWf → (bad t s).MemWf := fun _ _ hs => refuseWait_memWf (by exact memWf_ite hs hs) ..
  split
  · next e =>
      have hs := memWf_snd e (tried_memWf keepsMem_waitRemote hs)
      exact memWf_ite hs hs
  · next e =>
      have hs := memWf_snd e (tried_memWf keepsMem_waitRemote hs)
      split
      · next e => exact observeValue_memWf (memWf_snd e (tried_memWf keepsMem_readCtx hs)) ..
      · next e => exact hbad _ _ (memWf_snd e (tried_memWf keepsMem_readCtx hs))
      · next e => exact memWf_snd e (tried_memWf keepsMem_readCtx hs)
  · next e => exact hbad _ _ (memWf_snd e (tried_memWf keepsMem_waitRemote hs))
  · next e => exact memWf_snd e (tried_memWf keepsMem_waitRemote hs)

theorem writeInterleave_memWf {s : State} (hs : s.MemWf) (off : Nat) (v : Word) : (writeInterleave s off v).MemWf :=
  memWf_ite (memWf_ite hs hs) (memWf_ite (memWf_ite hs hs) hs)

theorem writeRemap_memWf {s : State} (hs : s.MemWf) (off : Nat) (v : Word) : (writeRemap s off v).MemWf := by
  unfold writeRemap
  split
  exact memWf_ite (memWf_ite hs hs) (memWf_ite hs hs)

theorem writeHeader_memWf {s : State} (hs : s.MemWf) (off : Nat) (v : Word) : (writeHeader s off v).MemWf :=
  memWf_ite hs (memWf_ite (endAll_memWf (by exact hs) ..) hs)

theorem writeOwned_memWf {s : State} (hs : s.MemWf) (off : Nat) (v : Word) : (writeOwned s off v).MemWf :=
  memWf_ite (writeInterleave_memWf hs ..) (memWf_ite (writeRemap_memWf hs ..)
    (memWf_ite hs (memWf_ite hs (memWf_ite hs (memWf_ite hs (writeHeader_memWf hs ..))))))

theorem writeReg_memWf {s : State} (hs : s.MemWf) (off : Nat) (v : Word) (by_ : RegAgent) : (writeReg s off v by_).MemWf :=
  memWf_ite (writeOwned_memWf hs ..) hs

theorem keepsMem_alignCheck {acc : Acc} {va n : Nat} {always : Bool} : KeepsMem (alignCheck acc va n always) := by
  unfold alignCheck
  refine .ite (.pure _) (.ite (.ite (.trap _ _ _) (.pure _)) (.bind keepsMem_hereM fun _ => .bind .get fun _ =>
    .bind (keepsMem_pageLeaf _ _ _ _ _) fun _ => ?_))
  extract_lets rest
  have hrest : ∀ r, KeepsMem (rest r) := fun _ => .ite (.trap _ _ _) (.pure _)
  exact .ite (.bind (.pure _) hrest) (.bind (keepsMem_pageLeaf _ _ _ _ _) fun _ => .bind (.pure _) hrest)

theorem keepsMem_scalarLocate {acc : Acc} {va n : Nat} {always : Bool} : KeepsMem (scalarLocate acc va n always) :=
  .bind keepsMem_alignCheck fun _ => keepsMem_locateHere _ _ _ _

theorem keepsMem_scalarLoad {va n : Nat} {acq atHome : Bool} : KeepsMem (scalarLoad va n acq atHome) := by
  unfold scalarLoad
  refine .bind keepsMem_scalarLocate fun _ => .bind keepsMem_hartM fun _ => ?_
  extract_lets rest
  have hrest : ∀ r, KeepsMem (rest r) := fun _ => .bind keepsMem_hartM fun _ => keepsMem_readLocs _ _ _
  exact .ite (.bind (keepsMem_drain _) hrest) (hrest ())

theorem keepsMem_scalarStore {va : Nat} {bytes : List Byte} {rel : Bool} : KeepsMem (scalarStore va bytes rel) := by
  unfold scalarStore
  refine .bind keepsMem_scalarLocate fun _ => ?_
  extract_lets rest
  have hrest : ∀ r, KeepsMem (rest r) := fun _ => keepsMem_issueStore _ _ _
  exact .ite (.bind (keepsMem_drain _) hrest) (hrest ())

theorem keepsMem_surveyLoad {va n : Nat} : KeepsMem (surveyLoad va n) := by
  unfold surveyLoad
  refine .bind .get fun _ => .ite (.pure _) (.ite (.pure _) ?_)
  split
  · exact .trap _ _ _
  · exact .ite (.trap _ _ _) (.pure _)

theorem keepsMem_surveyStore {va : Nat} {bytes : List Byte} : KeepsMem (surveyStore va bytes) := by
  unfold surveyStore
  refine .bind .get fun _ => .ite (.ite (.modify fun _ hs => portArrives_memWf hs ..) (.ite (.modify fun _ hs =>
    writeReg_memWf hs ..) (.pure _))) (.ite (.pure _) ?_)
  split
  · exact .trap _ _ _
  · exact .modify fun _ hs => homeWrite_memWf hs ..

theorem keepsMem_touchesHere {va n : Nat} : KeepsMem (touchesHere va n) :=
  .bind keepsMem_hartM fun _ => .pure _

theorem keepsMem_adjointLoad {i : Nat} {r : Region} {d : RegField} {va n : Nat} : KeepsMem (adjointLoad i r d va n) :=
  .bind (keepsMem_locateHere _ _ _ _) fun _ => .bind keepsMem_regionCheck fun _ => .ite (.trap _ _ _)
    (.bind keepsMem_getX fun _ => keepsMem_accumulate)

theorem keepsMem_hartLoad {n : Nat} {signed acq atHome : Bool} {d : RegField} {va : Nat} :
    KeepsMem (hartLoad n signed acq atHome d va) := by
  unfold hartLoad
  refine .bind keepsMem_touchesHere fun _ => ?_
  split
  · exact .bind keepsMem_scalarLoad fun _ => keepsMem_setX
  · exact .bind keepsMem_hartM fun _ => .ite keepsMem_adjointLoad (.bind keepsMem_scalarLocate fun _ =>
    .bind keepsMem_regionCheck fun _ => .bind keepsMem_scalarLoad fun _ => keepsMem_setX)

theorem keepsMem_adjointStore {r : Region} {b : RegField} {va n : Nat} : KeepsMem (adjointStore r b va n) := by
  unfold adjointStore
  refine .bind keepsMem_scalarLocate fun _ => .bind keepsMem_regionCheck fun _ =>
    .bind keepsMem_tapePop fun _ => ?_
  split
  · exact keepsMem_setX
  · exact .pure _

theorem keepsMem_hartStore {n : Nat} {rel : Bool} {b : RegField} {va : Nat} : KeepsMem (hartStore n rel b va) := by
  unfold hartStore
  refine .bind keepsMem_getX fun _ => .bind keepsMem_touchesHere fun _ => ?_
  split
  · exact keepsMem_scalarStore
  · exact .bind keepsMem_hartM fun _ => .ite keepsMem_adjointStore (.bind keepsMem_scalarLocate fun _ =>
    .bind keepsMem_regionCheck fun _ => .ite (.bind keepsMem_tapePush fun _ => keepsMem_issueStore _ _ _)
    keepsMem_scalarStore)

theorem keepsMem_hartAmo {n va : Nat} {f : Nat → Nat} : KeepsMem (hartAmo n va f) :=
  .bind keepsMem_atomicLocate fun _ => .bind keepsMem_atomicRegionCheck fun _ => keepsMem_homeUpdate

theorem keepsMem_surveyAmo {n va : Nat} {f : Nat → Nat} {writes : Nat → Bool} : KeepsMem (surveyAmo n va f writes) := by
  unfold surveyAmo
  refine .ite (.trap _ _ _) (.bind keepsMem_surveyLoad fun _ => ?_)
  extract_lets old rest
  have hrest : ∀ r, KeepsMem (rest r) := fun _ => .pure _
  exact .ite (.bind keepsMem_surveyStore hrest) (hrest ())

theorem keepsMem_adjointCell {va : Nat} {acc : Acc} : KeepsMem (adjointCell va acc) := by
  unfold adjointCell
  refine .bind keepsMem_hartM fun _ => ?_
  split
  · exact .pure _
  · exact .trap _ _ _

end Sys2Proof.Machine
end


section
/-! Commands, copies, collectives and near-bank runs keep byte memory in canonical form. -/

namespace Sys2Proof.Machine

theorem keepsMem_commandAlign {va : Word} {n : Nat} : KeepsMem (commandAlign va n) :=
  .ite (.trap _ _ _) (.pure _)

theorem keepsMem_commandObject {obj : Word} {windows : Bool} : KeepsMem (commandObject obj windows) :=
  .ite (.pure _) (.ite (.trap _ _ _) (.bind keepsMem_hereM fun _ => .bind .get fun _ => keepsMem_objectCheck))

theorem keepsMem_forkOp {full : Bool} {obj : Word} {body : OpBody} : KeepsMem (forkOp full obj body) :=
  .ite (.waitAt _) (.bind (keepsMem_drain _) fun _ => .bind keepsMem_hereM fun _ => .withState fun _ hs =>
    .bind (.set hs) fun _ => .pure _)

theorem keepsMem_copyElem {x : Xlat} {d : CopyDesc} {k : Nat} : KeepsMem (copyElem x d k) :=
  .bind keepsMem_readCtx fun _ => .bind keepsMem_locateCtx fun _ =>
    .ite (.bind (keepsMem_readLocs _ _ _) fun _ => keepsMem_writeFound) keepsMem_writeFound

theorem copyRun_memWf {s : State} (hs : s.MemWf) (x : Xlat) (d : CopyDesc) (n j : Nat) : (copyRun x d n j s).2.2.MemWf := by
  induction n generalizing j s with
  | zero => exact hs
  | succ n ih =>
    unfold copyRun
    split
    · next e =>
        have hs := memWf_snd e (tried_memWf keepsMem_copyElem hs)
        exact ih hs ..
    · next e => exact memWf_snd e (tried_memWf keepsMem_copyElem hs)

theorem addArrival_memWf {s : State} (hs : s.MemWf) (x : Xlat) (d : CopyDesc) (bytes sent : Nat) :
    (addArrival x d bytes sent s).2.MemWf :=
  memWf_ite_snd hs (memWf_ite_snd hs (tried_memWf (.bind (keepsMem_locate _ _ _ _ _) fun _ =>
    .bind (keepsMem_readLocs _ _ _) fun _ => keepsMem_writeFound) hs))

theorem afterPart_memWf {s : State} (hs : s.MemWf) (op : Op) (kind : Word) (r : OpEnd) : (afterPart s op kind r).MemWf := by
  unfold afterPart
  split
  · exact hs
  · exact hs
  · exact endOp_memWf hs ..
  · exact hs

theorem runCopy_memWf {s : State} (hs : s.MemWf) (op : Op) (d : CopyDesc) (n : Nat) (finish : Bool) :
    (runCopy s op d n finish).MemWf := by
  unfold runCopy
  refine memWf_ite (endOp_memWf hs ..) ?_
  extract_lets x
  split
  next k r s₁ e =>
    have hs := memWf_trd e (copyRun_memWf hs ..)
    refine memWf_ite (afterPart_memWf (by exact hs) ..) ?_
    split
    next r s₂ e =>
      have hs := memWf_snd e (addArrival_memWf (by exact hs) ..)
      exact memWf_ite (afterPart_memWf (by exact hs) ..) (memWf_ite (endOp_memWf (by exact hs) ..) hs)

theorem readRoute_memWf {s : State} (hs : s.MemWf) (id : Nat) : (readRoute s id).2.MemWf := by
  unfold readRoute
  refine memWf_ite_snd hs ?_
  split
  · exact hs
  · exact memWf_ite_snd hs hs

theorem setColl_memWf {s : State} (hs : s.MemWf) (c : CollOp) : (setColl s c).MemWf :=
  memWf_ite hs hs

theorem joinColl_memWf {s : State} (hs : s.MemWf) (op : Op) (id : Nat) (d : CollDesc) : (joinColl s op id d).MemWf := by
  unfold joinColl
  extract_lets j num
  split
  next c s₁ e =>
    have hs : s₁.MemWf := by
      refine memWf_snd e ?_
      split
      · exact hs
      · exact readRoute_memWf hs id
    refine memWf_ite (endOp_memWf hs ..) ?_
    extract_lets s₂ c s₃
    have hs₃ : s₃.MemWf := setColl_memWf (by exact hs) ..
    split
    · exact endColl_memWf hs₃ ..
    · exact memWf_ite (endColl_memWf hs₃ ..) hs₃

theorem forMembers_memWf {α : Type} {f : Op → CollDesc → M α} (hf : ∀ o d, KeepsMem (f o d)) {s : State} (hs : s.MemWf)
    (l : List (Nat × Op × CollDesc)) : (forMembers f l s).2.MemWf := by
  induction l generalizing s with
  | nil => exact hs
  | cons x rest ih =>
    unfold forMembers
    split
    · next e =>
      have hrest := ih (memWf_snd e (tried_memWf (hf _ _) hs))
      split
      · next e => exact memWf_snd e hrest
      · exact hrest
    · next e => exact memWf_snd e (tried_memWf (hf _ _) hs)

theorem collStopped_memWf {s : State} (hs : s.MemWf) (c : CollOp) (o : Op) (r : OpEnd) : (collStopped s c o r).MemWf := by
  unfold collStopped
  split
  · exact hs
  · exact endColl_memWf hs ..
  · exact hs

theorem runColl_memWf {s : State} (hs : s.MemWf) (c : CollOp) (r : List (BitVec 8)) (d : CollDesc)
    (remote : List RemoteMember) : (runColl s c r d remote).MemWf := by
  unfold runColl
  extract_lets mine w reads writes
  have hreads : ∀ o d, KeepsMem (reads o d) := fun _ _ =>
    .ite (.pure _) (.bind .get fun _ => .bind keepsMem_readCtx fun _ => .pure _)
  have hwrites : ∀ o d, KeepsMem (writes o d) := fun _ _ => .bind .get fun _ => keepsMem_locateCtx
  refine memWf_ite (endColl_memWf hs ..) ?_
  split
  · next e => exact collStopped_memWf (memWf_snd e (forMembers_memWf hreads hs _)) ..
  · next e =>
    have hs := memWf_snd e (forMembers_memWf hreads hs _)
    split
    · next e => exact collStopped_memWf (memWf_snd e (forMembers_memWf hwrites hs _)) ..
    · next e =>
      have hs := memWf_snd e (forMembers_memWf hwrites hs _)
      exact endColl_memWf (foldl_memWf (fun _ _ hs => homeWrite_memWf (foldl_setDirty_memWf hs _) ..) _ hs) ..

theorem keepsMem_nbeWindow {x : Xlat} {chan : Nat} {va w1 : Word} : KeepsMem (nbeWindow x chan va w1) := by
  unfold nbeWindow
  refine .ite (.pure _) (.ite (.trap _ _ _) (.bind (keepsMem_pageLeaf _ _ _ _ _) fun _ => .ite (.trap _ _ _) (.ite (.trap _ _ _)
    (.bind .get fun _ => ?_))))
  split
  exact .ite (.trap _ _ _) (.pure _)

theorem keepsMem_launchAdd {obj : Word} {e : Bool} : KeepsMem (launchAdd obj e) :=
  .bind keepsMem_hereM fun _ => .modify fun _ hs => memWf_ite hs (addThrough_memWf hs ..)

theorem hintArrives_memWf {s : State} (hs : s.MemWf) (chan bank row : Nat) : (hintArrives s chan bank row).MemWf :=
  memWf_ite hs hs

theorem nbeFinish_memWf {s : State} (hs : s.MemWf) (e : NbeEng) (op : Nat) (err : Bool) : (nbeFinish s e op err).MemWf := by
  unfold nbeFinish
  split
  · exact endOp_memWf hs ..
  · exact hs

theorem keepsMem_readProgram {x : Xlat} {code : Word} {i : Nat} : KeepsMem (readProgram x code i) := by
  unfold readProgram
  refine .bind keepsMem_readReachable fun _ => ?_
  split
  · exact .pure _
  · refine .bind keepsMem_readReachable fun _ => ?_
    split
    · exact .pure _
    · exact .bind keepsMem_readReachable fun _ => .ite (.pure _) (.bind keepsMem_readReachable fun _ =>
      .ite (.pure _) (.bind keepsMem_readReachable fun _ => .pure _))

theorem nbeStart_memWf {s : State} (hs : s.MemWf) (check : List TextWord → Bool) (e : NbeEng) (op : Op) (prog : Nat)
    (ks : List (BitVec 32)) (resvOk : Bool) : (nbeStart check s e op prog ks resvOk).MemWf := by
  unfold nbeStart
  extract_lets rest fail
  have hfail : ∀ s, s.MemWf → (fail s).MemWf := fun _ hs => endOp_memWf hs ..
  refine memWf_ite (hfail _ hs) ?_
  split
  · exact hfail _ hs
  · split
    · next e =>
      have hs := memWf_snd e (tried_memWf keepsMem_readProgram hs)
      extract_lets run words
      split
      · exact hs
      · exact hfail _ hs
      · exact memWf_ite hs (hfail _ hs)
      · exact memWf_ite hs hs
    · next e => exact hfail _ (memWf_snd e (tried_memWf keepsMem_readProgram hs))
    · next e =>
      have hs := memWf_snd e (tried_memWf keepsMem_readProgram hs)
      exact hfail _ (memWf_ite hs hs)
    · next e => exact memWf_snd e (tried_memWf keepsMem_readProgram hs)

theorem nbeNext_memWf {s : State} (hs : s.MemWf) (check : List TextWord → Bool) (e : NbeEng) : (nbeNext check s e).MemWf := by
  unfold nbeNext
  split
  · exact hs
  · split
    · exact hs
    · split
      · exact nbeStart_memWf hs ..
      · exact hs

theorem nbeBadWord_memWf {s : State} (hs : s.MemWf) : (nbeBadWord s).MemWf := by
  unfold nbeBadWord
  split
  · split
    · exact nbeFinish_memWf hs ..
    · exact hs
  · exact hs

end Sys2Proof.Machine
end


section
/-! Placing, stopping, saving and restoring gangs keep byte memory in canonical form. -/

namespace Sys2Proof.Machine

/-- Binding a block where one is free. -/
theorem getD_memWf {o : Option (Nat × State)} {s : State} (ho : ∀ p t, o = some (p, t) → t.MemWf) (hs : s.MemWf) :
    ((o.map (·.2)).getD s).MemWf := by
  cases o with
  | none => exact hs
  | some x => exact ho x.1 x.2 rfl

theorem rebind_memWf {s : State} (hs : s.MemWf) (old : Gang) : (rebind s old).MemWf := by
  unfold rebind
  extract_lets s₁
  have hs₁ : s₁.MemWf := by
    refine foldl_memWf (fun _ _ hs => foldl_memWf (fun _ _ hs => ?_) _ hs) _ hs
    dsimp only
    split
    · exact getD_memWf (fun _ _ e => bindTcm_memWf hs e) hs
    · exact hs
  refine foldl_memWf (fun _ _ hs => ?_) _ hs₁
  dsimp only
  split
  · exact getD_memWf (fun _ _ e => bindChamber_memWf hs e) hs
  · exact hs

theorem placeSaved_memWf {s : State} (hs : s.MemWf) (die : BitVec 3) (k : Nat) (old : Gang) (places : List (Nat × Nat)) :
    (placeSaved s die k old places).MemWf :=
  rebind_memWf (by exact hs) ..

theorem placeGang_memWf {s : State} (hs : s.MemWf) (die : BitVec 3) (w : Waiting) (k : Nat) (places : List (Nat × Nat)) :
    (placeGang s die w k places).MemWf := by
  unfold placeGang
  split
  · exact placeSaved_memWf hs ..
  · split <;> exact hs

theorem stopWaiting_memWf {s : State} (hs : s.MemWf) (g n : Nat) : (stopWaiting s g n).MemWf :=
  foldl_memWf (fun _ _ hs => stopIfWaiting_memWf hs ..) _ hs

theorem postYield_memWf {s : State} (hs : s.MemWf) (gang why : Nat) : (postYield s gang why).MemWf := by
  unfold postYield
  split
  · exact memWf_ite hs (stopWaiting_memWf (by exact hs) ..)
  · exact hs

theorem killGang_memWf {s : State} (hs : s.MemWf) (gang : Nat) : (killGang s gang).MemWf := by
  unfold killGang
  split
  · exact hs
  · split
    · exact hs
    · exact foldl_memWf (fun _ _ hs => drainBuf_memWf (drainBuf_memWf hs ..) ..) _ hs

theorem countEnd_memWf {s : State} (hs : s.MemWf) (l : Launch) : (countEnd s l).MemWf :=
  memWf_ite hs hs

theorem resumeChecked_memWf {s t : State} (hs : s.MemWf) {gang h : Nat} {sl : SliceId}
    (e : resumeChecked s gang h sl = .ok t) : t.MemWf := by
  unfold resumeChecked at e
  split at e
  · injection e with e
    exact e ▸ hs
  · next x _ =>
    split at e
    · injection e with e
      exact e ▸ hs
    · have hs := tried_memWf (keepsMem_checkResume (sl := sl) (t := (x.slice sl).pc))
        (s := { s with cur := .slice gang h sl }) hs
      split at e
      · next e₁ =>
        injection e with e
        have ht := memWf_snd e₁ hs
        exact e ▸ ht
      · next e₁ =>
        injection e with e
        have ht := memWf_snd e₁ hs
        exact e ▸ takeTrap_memWf (by exact ht) ..
      · nomatch e

theorem resumeHart_memWf {s : State} (hs : s.MemWf) (gang h : Nat) (tape : Option (Word × Word)) :
    (resumeHart s gang h tape).MemWf := by
  unfold resumeHart
  split
  · next e =>
    cases e₁ : resumeChecked (mapHart s gang h fun x => x.answered tape) gang h .as with
    | error w =>
      rw [e₁] at e
      nomatch e
    | ok u =>
      rw [e₁] at e
      exact resumeChecked_memWf (resumeChecked_memWf (by exact hs) e₁) e
  · exact hs

theorem takeAnswer_memWf {s : State} (hs : s.MemWf) (g h : Nat) : (takeAnswer s g h).MemWf := by
  unfold takeAnswer
  split
  · split
    · exact memWf_ite (resumeHart_memWf (by exact hs) ..) hs
    · exact hs
  · exact hs

theorem retryAnswers_memWf {s : State} (hs : s.MemWf) : (retryAnswers s).MemWf :=
  foldl_memWf (fun _ _ hs => takeAnswer_memWf hs ..) _ hs

theorem writeChunk_memWf {s : State} (hs : s.MemWf) (x : Xlat) (base : Word) (limit : Nat) (c : Chunk) :
    (writeChunk x base limit c s).2.MemWf := by
  unfold writeChunk
  refine memWf_ite_snd hs ?_
  extract_lets
  split <;> next e => exact memWf_snd e (tried_memWf (.bind keepsMem_locateCtx fun _ => keepsMem_writeFound) hs)

theorem writeChunks_memWf {s : State} (hs : s.MemWf) (x : Xlat) (base : Word) (limit : Nat) (l : List Chunk) :
    (writeChunks x base limit l s).2.2.MemWf := by
  induction l generalizing s with
  | nil => exact hs
  | cons x rest ih =>
    unfold writeChunks
    split
    · next e =>
        have hs := memWf_snd e (writeChunk_memWf hs ..)
        exact ih hs ..
    · next e => exact memWf_snd e (writeChunk_memWf hs ..)

theorem runSave_memWf {s : State} (hs : s.MemWf) (g h : Nat) (x : Gang) (y : Hart) (v : Save) :
    (runSave s g h x y v).2.2.MemWf :=
  writeChunks_memWf hs ..

theorem keepsMem_areaRead {x : Xlat} {base : Word} {off n : Nat} : KeepsMem (areaRead x base off n) :=
  keepsMem_readCtx

theorem keepsMem_areaNat {x : Xlat} {base : Word} {off n : Nat} : KeepsMem (areaNat x base off n) :=
  .bind keepsMem_areaRead fun _ => .pure _

theorem keepsMem_areaWord {x : Xlat} {base : Word} {off : Nat} : KeepsMem (areaWord x base off) :=
  .bind keepsMem_areaNat fun _ => .pure _

theorem keepsMem_areaFile {x : Xlat} {base : Word} {off : Nat} : KeepsMem (areaFile x base off) :=
  .bind keepsMem_areaRead fun _ => .pure _

theorem keepsMem_areaVregs {x : Xlat} {base : Word} {v n j : Nat} {out : List VReg} :
    KeepsMem (areaVregs x base v n j out) := by
  induction n generalizing j out with
  | zero => exact .pure _
  | succ n ih => exact .bind keepsMem_areaNat fun _ => .bind keepsMem_areaNat fun _ => ih

theorem keepsMem_areaNats {x : Xlat} {base : Word} {n stride t j : Nat} {out : List Nat} :
    KeepsMem (areaNats x base n stride t j out) := by
  induction t generalizing j out with
  | zero => exact .pure _
  | succ t ih => exact .bind keepsMem_areaNat fun _ => ih

theorem keepsMem_loadHart {x : Xlat} {base : Word} {v : Nat} {h : Hart} : KeepsMem (loadHart x base v h) := by
  unfold loadHart
  refine .bind keepsMem_areaNat fun _ => .bind keepsMem_areaWord fun _ =>
    .bind keepsMem_areaWord fun _ => .bind keepsMem_areaWord fun _ => .bind keepsMem_areaWord fun _ =>
    .bind keepsMem_areaNat fun _ => .bind keepsMem_areaRead fun _ => .bind keepsMem_areaFile fun _ =>
    .bind keepsMem_areaFile fun _ => .bind keepsMem_areaRead fun _ => .bind keepsMem_areaNats fun _ =>
    .bind keepsMem_areaNat fun _ => .bind keepsMem_areaVregs fun _ => ?_
  exact .ite (.bind keepsMem_areaNats fun _ => .pure _) (.bind (.pure _) fun _ => .pure _)

theorem keepsMem_loadBlocks {x : Xlat} {base : Word} {off block : Nat} {place : Nat → Nat} {l : List (Nat × Nat)} :
    KeepsMem (loadBlocks x base off block place l) := by
  induction l with
  | nil => exact .pure _
  | cons x rest ih => exact .bind keepsMem_areaRead fun _ => .bind (.modify fun _ hs =>
    homeWrite_memWf hs ..) fun _ => ih

theorem keepsMem_restoreHart {x : Xlat} {base : Word} {v : Nat} {g : Gang} {hid : Nat} {h : Hart} :
    KeepsMem (restoreHart x base v g hid h) := by
  unfold restoreHart
  extract_lets rest
  have hrest : ∀ r, KeepsMem (rest r) := by
    intro r
    exact .ite (.bind keepsMem_areaNat fun _ => .bind keepsMem_areaRead fun _ =>
      .bind keepsMem_loadBlocks fun _ => .bind (.modify fun _ hs => hs) fun _ => .pure _) (.pure _)
  exact .ite (.bind (.pure _) hrest) (.bind keepsMem_loadHart fun _ =>
    .bind keepsMem_loadBlocks fun _ => .bind (.pure _) hrest)

theorem becomeResident_memWf {s : State} (hs : s.MemWf) (gang : Nat) : (becomeResident s gang).MemWf := by
  unfold becomeResident
  split
  · exact memWf_ite (foldl_memWf (fun _ _ hs => takeAnswer_memWf hs ..) _ (by exact hs)) hs
  · exact hs

theorem runRestore_memWf {s : State} (hs : s.MemWf) (g h : Nat) (x : Gang) (y : Hart) (v : Save) :
    (runRestore s g h x y v).2.MemWf :=
  tried_memWf keepsMem_restoreHart hs

end Sys2Proof.Machine
end


section
/-! What comes from outside a hart keeps byte memory in canonical form: links, the host, operations' ends, walks ahead, power
and debug. -/

namespace Sys2Proof.Machine

theorem chanIssue_memWf {s : State} (hs : s.MemWf) (chan : Nat) : (chanIssue s chan).MemWf := by
  unfold chanIssue
  extract_lets
  split <;> split <;> exact hs

theorem recheckLinks_memWf {s : State} (hs : s.MemWf) : (recheckLinks s).MemWf := by
  refine retryAnswers_memWf (memWf_ite hs (foldl_memWf (fun _ _ hs => ?_) _ (by exact hs)))
  split
  · exact recordArrives_memWf hs ..
  · exact hs

theorem atomicAt_memWf {s : State} (hs : s.MemWf) (l : List Nat) (x : AtomicOp) : (atomicAt s l x).MemWf := by
  unfold atomicAt
  refine memWf_ite hs ?_
  split
  · exact homeWrite_memWf hs ..
  · exact hs

theorem servePeer_memWf {s : State} (hs : s.MemWf) (r : PeerReq) : (servePeer s r).MemWf := by
  unfold servePeer
  extract_lets
  split
  · exact hs
  · split
    · exact homeWrite_memWf hs ..
    · exact hs
  · split
    · exact atomicAt_memWf hs ..
    · exact hs
  · split
    · exact completionAdd_memWf hs ..
    · exact hs

theorem serveHost_memWf {s : State} (hs : s.MemWf) (pa : BitVec 52) (wr : Option (List Byte)) :
    (serveHost s pa wr).MemWf := by
  unfold serveHost
  split
  · exact hs
  · split
    · exact homeWrite_memWf hs ..
    · exact hs

theorem serveHostAtomic_memWf {s : State} (hs : s.MemWf) (pa : BitVec 52) (sa : Bool) (x : AtomicOp) :
    (serveHostAtomic s pa sa x).MemWf := by
  unfold serveHostAtomic
  split
  · exact hs
  · refine memWf_ite (atomicAt_memWf hs ..) ?_
    split <;> exact hs

theorem copyPart_memWf {s : State} (hs : s.MemWf) (op n : Nat) (finish needsArr : Bool) :
    (copyPart s op n finish needsArr).MemWf := by
  unfold copyPart
  split
  · split
    · exact memWf_ite hs (runCopy_memWf hs ..)
    · exact hs
  · exact hs

theorem completeColl_memWf {s : State} (hs : s.MemWf) (c : CollOp) (r : List (BitVec 8)) (remote : List RemoteMember) :
    (completeColl s c r remote).MemWf := by
  unfold completeColl
  extract_lets mine others
  clear_value mine
  split
  · exact hs
  · exact memWf_ite (endColl_memWf hs ..) (memWf_ite hs (runColl_memWf hs ..))

theorem coldFailed_memWf {s : State} (hs : s.MemWf) (g hid : Nat) (w : ColdWait) (va : Nat) :
    (coldFailed s g hid w va).MemWf := by
  unfold coldFailed
  extract_lets
  split <;> exact takeTrap_memWf (by exact hs) ..

theorem coldCopied_memWf {s : State} (hs : s.MemWf) (e : TlbEntry) (src dst : List Nat) (ir : BitVec 6)
    (ppn : BitVec 36) : (coldCopied s e src dst ir ppn).MemWf :=
  retryAnswers_memWf (by exact homeWrite_memWf (homeWrite_memWf hs ..) ..)

theorem keepsMem_coldPage {x : Xlat} {va : Nat} : KeepsMem (coldPage x va) :=
  .bind (keepsMem_leafFor _ _ _ _) fun _ => .ite (.trap _ _ _) (.bind (keepsMem_physAccess _ _ _ _ _) fun _ => .pure _)

theorem keepsMem_readAhead {a : ElemAt} : KeepsMem (readAhead a) :=
  .bind keepsMem_hereM fun _ => .bind .get fun _ => .bind (keepsMem_locate _ _ _ _ _) fun _ => .ite (.pure _)
    (.bind keepsMem_hartM fun _ => .ite (.pure _) (.bind keepsMem_hartM fun _ => .bind (keepsMem_readLocs _ _ _)
    fun _ => .pure _))

theorem keepsMem_walkElem {d : Desc} {st : Stream} {p : Nat} : KeepsMem (walkElem d st p) := by
  unfold walkElem
  refine .ite ?_ ?_
  · refine .ite (.pure _) (.bind keepsMem_readAhead fun _ => ?_)
    split
    · exact .pure _
    · refine .ite (.pure _) (.bind keepsMem_readAhead fun _ => ?_)
      split <;> exact .pure _
  · refine .ite (.pure _) (.bind keepsMem_readAhead fun _ => ?_)
    split <;> exact .pure _

theorem keepsMem_translateAhead {x : Xlat} {d : Desc} {p n : Nat} : KeepsMem (translateAhead x d p n) :=
  .ite (.pure _) (.bind (keepsMem_pageLeaf _ _ _ _ _) fun _ => .ite (.pure _) (.ite (.pure _)
    (.bind (keepsMem_pageLeaf _ _ _ _ _) fun _ => .pure _)))

theorem walkAdopted_memWf {s : State} (hs : s.MemWf) (g hid : Nat) (r : BitVec 5) (st : Stream) (d : Desc) :
    (walkAdopted s g hid r st d).MemWf := by
  unfold walkAdopted
  refine memWf_ite hs (memWf_ite (memWf_ite hs ?_) ?_)
  · have ht := tried_memWf (keepsMem_translateAhead (x := hartXlat s g hid) (d := d) (p := max st.ahead st.pos)
      (n := (storeAhead d (max st.ahead st.pos)).1)) hs
    split <;> next e =>
      have hs := memWf_snd e ht
      exact hs
  · extract_lets r1 s1
    have hs1 : s1.MemWf := tried_memWf keepsMem_walkElem (by exact hs)
    split <;> exact hs1

theorem walkQueued_memWf {s : State} (hs : s.MemWf) (g hid : Nat) (r : BitVec 5) (st : Stream) :
    (walkQueued s g hid r st).MemWf := by
  unfold walkQueued
  split
  · refine memWf_ite hs ?_
    extract_lets n
    split <;> next e =>
      have hs := memWf_snd e (tried_memWf keepsMem_translateAhead hs)
      exact hs
  · exact hs

theorem convertHart_memWf {s : State} (hs : s.MemWf) (g h : Nat) : (convertHart s g h).MemWf := by
  unfold convertHart
  split
  · split
    · exact beginSave_memWf hs ..
    · exact beginSave_memWf hs ..
    · exact hs
  · exact hs

theorem convertGang_memWf {s : State} (hs : s.MemWf) (g : Nat) : (convertGang s g).MemWf := by
  unfold convertGang
  split
  · exact memWf_ite (foldl_memWf (fun _ _ hs => convertHart_memWf hs ..) _ hs) hs
  · exact hs

theorem stopPosted_memWf {s : State} (hs : s.MemWf) (g h : Nat) : (stopPosted s g h).MemWf := by
  unfold stopPosted
  split
  · exact memWf_ite (beginSave_memWf hs ..) hs
  · exact hs

theorem performStores_memWf {s : State} (hs : s.MemWf) : (performStores s).MemWf := by
  unfold performStores
  refine foldl_memWf (fun _ _ hs => ?_) _ hs
  split
  exact drainBuf_memWf (drainBuf_memWf (by exact hs) ..) ..

theorem retainBegin_memWf {s : State} (hs : s.MemWf) : (retainBegin s).MemWf :=
  foldl_memWf (fun _ _ hs => stopPosted_memWf hs ..) _ (foldl_memWf (fun _ _ hs => convertGang_memWf hs ..) _ (by exact hs))

theorem runEngines_memWf {s : State} (hs : s.MemWf) : (runEngines s).MemWf := by
  unfold runEngines
  refine foldl_memWf (fun _ _ hs => ?_) _ (foldl_memWf (fun _ _ hs => ?_) _ hs)
  · split
    · exact memWf_ite (completeColl_memWf hs ..) hs
    · exact hs
  · split
    · exact copyPart_memWf hs ..
    · exact hs

theorem serveHeld_memWf {s : State} (hs : s.MemWf) (r : HeldReq) : (serveHeld s r).MemWf := by
  unfold serveHeld
  split
  · exact recordArrives_memWf hs ..
  · exact servePeer_memWf hs ..
  · exact serveHost_memWf hs ..
  · exact serveHostAtomic_memWf hs ..

theorem keepsMem_debugLoad {s : State} {gang hid va n : Nat} : KeepsMem (debugLoad s gang hid va n) :=
  .bind keepsMem_locateCtx fun _ => keepsMem_readLocs _ _ _

theorem keepsMem_debugStore {s : State} {gang hid va : Nat} {data : List Byte} : KeepsMem (debugStore s gang hid va data) :=
  .bind keepsMem_locateCtx fun _ => keepsMem_writeFound

theorem debugHalt_memWf {s : State} (hs : s.MemWf) (gang hid : Nat) (h : Hart) : (debugHalt s gang hid h).MemWf :=
  memWf_ite (stopIfWaiting_memWf (by exact hs) ..) hs

theorem debugStep_memWf {s : State} (hs : s.MemWf) (owner : BitVec 16) (gang : Nat) (hid : BitVec 4) :
    (debugStep s owner gang hid).MemWf :=
  takeAnswer_memWf (by exact hs) ..

theorem debugHart_memWf {s : State} (hs : s.MemWf) (owner : BitVec 16) (gang : Nat) (hid : BitVec 4) (act : DebugAct) :
    (debugHart s owner gang hid act).MemWf := by
  unfold debugHart
  split
  · exact hs
  · extract_lets
    split
    · exact debugHalt_memWf hs ..
    · exact memWf_ite (debugStep_memWf hs ..) hs
    · exact hs
    · exact hs
    · exact tried_memWf keepsMem_debugLoad hs
    · exact tried_memWf keepsMem_debugStore hs

theorem debugSurvey_memWf {s : State} (hs : s.MemWf) (owner : BitVec 16) (k : BitVec 2) (act : DebugAct) :
    (debugSurvey s owner k act).MemWf := by
  unfold debugSurvey
  extract_lets
  split
  · exact memWf_ite hs hs
  · exact memWf_ite hs hs
  · exact hs
  · exact hs
  · exact tried_memWf keepsMem_surveyLoad hs
  · exact tried_memWf keepsMem_surveyStore hs

end Sys2Proof.Machine
end


section
/-! The instructions of slices and survey cores go on only to states whose byte memory is in canonical form. -/

namespace Sys2Proof.Machine

/-! ### The outcome of a step -/

/-- An outcome whose next state, if it is one, has its memory in canonical form. -/
def NextWf (r : Result) : Prop := ∀ t, r = .next t → t.MemWf

/-- From a state whose memory is canonical, a step function goes on to such states alone. -/
def KeepsStep (f : State → Result) : Prop := ∀ s, s.MemWf → NextWf (f s)

theorem NextWf.next {s : State} (hs : s.MemWf) : NextWf (.next s) := by
  intro t e
  injection e with e
  exact e ▸ hs

theorem NextWf.fault {f : Fault} : NextWf (.fault f) := fun _ e => nomatch e

theorem NextWf.ite {c : Prop} [Decidable c] {a b : Result} (ha : NextWf a) (hb : NextWf b) :
    NextWf (if c then a else b) := by
  split
  · exact ha
  · exact hb

theorem nextWf_finish {c : Cpu} {m : M Unit} (hm : KeepsMem m) {s : State} (hs : s.MemWf) : NextWf (finish c (m s)) :=
  fun _ e => finish_memWf hm hs e

/-- An error that a body ends in leaves the state that it was raised in. -/
theorem nextWf_finish_error {c : Cpu} {w : Stop} {s : State} (hs : s.MemWf) : NextWf (finish c (.error w s)) :=
  nextWf_finish (m := throw w) (.throw _) hs

theorem keepsStep_runScalar {b : Belongs} {m : M Unit} (hm : KeepsMem m) : KeepsStep (runScalar b m) :=
  fun _ hs _ e => runScalar_memWf hm hs e

theorem keepsStep_event {ok : State → Bool} {f : State → State} (hf : ∀ s, s.MemWf → (f s).MemWf) :
    KeepsStep (event ok f) :=
  fun s hs => .next (memWf_ite (hf s hs) hs)

theorem keepsStep_rendezvous {fn10 : Nat} {m : M Unit} (hm : KeepsMem m) : KeepsStep (rendezvous fn10 m) := by
  intro s hs
  have hboth : KeepsMem (do m; bothAdvance : M Unit) := .bind hm fun _ => keepsMem_bothAdvance
  unfold rendezvous
  split
  · exact .fault
  · exact nextWf_finish_error hs
  · split
    · exact .fault
    · split
      · refine .ite ?_ (.next (takeTrap_memWf hs ..))
        split
        · next e =>
          have hk := hboth s hs
          rw [e] at hk
          exact .next (takeTrap_memWf hk ..)
        · exact nextWf_finish hboth hs
      · exact nextWf_finish_error hs

theorem forceStop_memWf {s : State} (hs : s.MemWf) (gang h : Nat) : (forceStop s gang h).MemWf := by
  unfold forceStop
  split
  · exact memWf_ite (beginSave_memWf hs ..) hs
  · exact hs

theorem forceGang_memWf {s : State} (hs : s.MemWf) (gang : Nat) : (forceGang s gang).MemWf := by
  unfold forceGang
  split
  · exact memWf_ite (foldl_memWf (fun _ _ hs => forceStop_memWf hs ..) _ hs) hs
  · exact hs

/-! ### Instructions that run one body -/

theorem keepsStep_issueV {kind : VKind} {o : VOps} : KeepsStep (issueV kind o) :=
  keepsStep_runScalar (.bind keepsMem_getX fun _ => keepsMem_enqueue)

theorem keepsStep_issueZ {kind : VKind} {o : VOps} : KeepsStep (issueZ kind o) :=
  keepsStep_runScalar (.bind keepsMem_needTiles fun _ => .bind keepsMem_getX fun _ => keepsMem_enqueue)

theorem keepsStep_alu2 {f : Word → Word → Word} {d a b : RegField} : KeepsStep (alu2 f d a b) :=
  keepsStep_runScalar (.bind keepsMem_getX fun _ => .bind keepsMem_getX fun _ =>
    .bind keepsMem_setX fun _ => keepsMem_advance)

theorem keepsStep_alu1 {f : Word → Word} {n : Nat} {d a : RegField} : KeepsStep (alu1 f n d a) :=
  keepsStep_runScalar (.bind keepsMem_getX fun _ => .bind keepsMem_setX fun _ => keepsMem_advance)

theorem keepsStep_aluPc {f : Word → Word} {n : Nat} {d : RegField} : KeepsStep (aluPc f n d) :=
  keepsStep_runScalar (.bind keepsMem_getPc fun _ => .bind keepsMem_setX fun _ => keepsMem_advance)

theorem keepsStep_execBins {d a b : RegField} : KeepsStep (execBins d a b) :=
  keepsStep_runScalar (.bind keepsMem_getX fun _ => .bind keepsMem_getX fun _ =>
    .bind keepsMem_getX fun _ => .bind keepsMem_setX fun _ => keepsMem_advance)

theorem keepsStep_slot2 {f : Word → Word → Word} {x y : RegField} : KeepsStep (slot2 f x y) :=
  keepsStep_runScalar (.bind keepsMem_getX fun _ => .bind keepsMem_getX fun _ =>
    .bind keepsMem_setX fun _ => keepsMem_advance)

theorem keepsStep_branch {taken : Word → Bool} {n : Nat} {off : Word} {a : RegField} : KeepsStep (branch taken n off a) :=
  keepsStep_runScalar (.bind keepsMem_getPc fun _ => .bind keepsMem_checkTargetHere fun _ =>
    .bind keepsMem_getX fun _ => .ite keepsMem_setPcM keepsMem_advance)

theorem keepsStep_queueBranch {want : Bool} {off : BitVec 15} : KeepsStep (queueBranch want off) := by
  unfold queueBranch
  refine keepsStep_runScalar (.bind keepsMem_getPc fun _ => .bind keepsMem_checkTargetHere fun _ =>
    .bind keepsMem_branchBits fun _ => ?_)
  split
  · exact .waitAt _
  · exact .bind (keepsMem_modHart _) fun _ => .ite keepsMem_setPcM keepsMem_advance

theorem keepsStep_execJal {d : RegField} {off : BitVec 20} : KeepsStep (execJal d off) :=
  keepsStep_runScalar (.bind keepsMem_getPc fun _ => keepsMem_jumpTo)

theorem keepsStep_execJalr {d a : RegField} {imm : BitVec 15} : KeepsStep (execJalr d a imm) :=
  keepsStep_runScalar (.bind keepsMem_getX fun _ => keepsMem_jumpTo)

theorem keepsStep_execJalrLong {d a : RegField} {imm : BitVec 40} : KeepsStep (execJalrLong d a imm) :=
  keepsStep_runScalar (.bind keepsMem_getX fun _ => keepsMem_jumpTo)

theorem keepsStep_execCJ {off : BitVec 10} : KeepsStep (execCJ off) :=
  keepsStep_runScalar (.bind keepsMem_getPc fun _ => .bind keepsMem_checkTargetHere fun _ => keepsMem_setPcM)

theorem keepsStep_execVld2 {o : VOps} {p : RegField} : KeepsStep (execVld2 o p) :=
  keepsStep_runScalar (.bind keepsMem_getX fun _ => keepsMem_enqueue)

theorem keepsStep_execVstp {o : VOps} {p : RegField} {s2 : BitVec 4} : KeepsStep (execVstp o p s2) :=
  keepsStep_runScalar (.bind keepsMem_getX fun _ => keepsMem_enqueue)

theorem keepsStep_issueRows {kind : VKind} {a b : RegField} {tile : BitVec 2} {frow nrowm1 : BitVec 6} :
    KeepsStep (issueRows kind a b tile frow nrowm1) :=
  keepsStep_runScalar (.bind keepsMem_needTiles fun _ => .bind keepsMem_getX fun _ =>
    .bind keepsMem_getX fun _ => keepsMem_enqueue)

theorem keepsStep_execSnext {o : VOps} : KeepsStep (execSnext o) := by
  unfold execSnext
  refine keepsStep_runScalar (.bind keepsMem_hartM fun _ => .ite (.waitAt _) ?_)
  split
  · exact .waitAt _
  · exact .bind (keepsMem_modHart _) fun _ => keepsMem_enqueue

theorem keepsStep_fp2 {f : Rnd → FVal → FVal → FVal} {d a b : RegField} {p : BitVec 2} {r : BitVec 3} :
    KeepsStep (fp2 f d a b p r) :=
  keepsStep_runScalar (.bind keepsMem_fpRnd fun _ => .bind keepsMem_getX fun _ =>
    .bind keepsMem_getX fun _ => .bind keepsMem_setX fun _ => keepsMem_advance)

theorem keepsStep_fp1 {f : Rnd → FVal → FVal} {d a : RegField} {p : BitVec 2} {r : BitVec 3} : KeepsStep (fp1 f d a p r) :=
  keepsStep_runScalar (.bind keepsMem_fpRnd fun _ => .bind keepsMem_getX fun _ =>
    .bind keepsMem_setX fun _ => keepsMem_advance)

theorem keepsStep_execFma {d a b : RegField} {p : BitVec 2} {r : BitVec 3} : KeepsStep (execFma d a b p r) :=
  keepsStep_runScalar (.bind keepsMem_fpRnd fun _ => .bind keepsMem_getX fun _ =>
    .bind keepsMem_getX fun _ => .bind keepsMem_getX fun _ => .bind keepsMem_setX fun _ => keepsMem_advance)

theorem keepsStep_fpPlain {f : Word → Word → Word} {d a b : RegField} : KeepsStep (fpPlain f d a b) :=
  keepsStep_runScalar (.bind keepsMem_getX fun _ => .bind keepsMem_getX fun _ =>
    .bind keepsMem_setX fun _ => keepsMem_advance)

theorem keepsStep_execFclass {d a : RegField} {p : BitVec 2} : KeepsStep (execFclass d a p) :=
  keepsStep_runScalar (.bind keepsMem_getX fun _ => .bind keepsMem_setX fun _ => keepsMem_advance)

theorem keepsStep_execFcvt {d a : RegField} {ty : BitVec 3} {p : BitVec 2} {r : BitVec 3} : KeepsStep (execFcvt d a ty p r) :=
  keepsStep_runScalar (.bind keepsMem_fpRnd fun _ => .bind keepsMem_getX fun _ =>
    .bind keepsMem_setX fun _ => keepsMem_advance)

theorem keepsStep_execFcvti {d a : RegField} {ty : BitVec 3} {p : BitVec 2} {r : BitVec 3} :
    KeepsStep (execFcvti d a ty p r) :=
  keepsStep_runScalar (.bind keepsMem_fpRnd fun _ => .bind keepsMem_getX fun _ =>
    .bind keepsMem_setX fun _ => keepsMem_advance)

theorem keepsStep_execVsetg {d a : RegField} : KeepsStep (execVsetg d a) := by
  unfold execVsetg
  refine keepsStep_runScalar (.bind keepsMem_hereM fun _ => .bind keepsMem_vrlenM fun _ =>
    .bind keepsMem_getX fun _ => .bind keepsMem_hartM fun _ => .bind keepsMem_gangM fun _ => ?_)
  extract_lets rest
  have hrest : ∀ r, KeepsMem (rest r) := by
    intro r
    refine .bind keepsMem_hartM fun _ => ?_
    split
    · exact keepsMem_takeGrant
    · exact .waitAt _
  exact .ite (.bind keepsMem_modGang hrest) (hrest ())

theorem keepsStep_execVsetl {d a : RegField} : KeepsStep (execVsetl d a) :=
  keepsStep_runScalar (.bind keepsMem_vrlenM fun _ => .bind keepsMem_getX fun _ => .bind keepsMem_hartM fun _ =>
    .bind (keepsMem_modHart _) fun _ => .bind keepsMem_setX fun _ => keepsMem_advance)

theorem keepsStep_execVsetf {d a : RegField} : KeepsStep (execVsetf d a) :=
  keepsStep_runScalar (.bind keepsMem_getX fun _ => keepsMem_enqueue)

theorem keepsStep_execVclr {d : RegField} : KeepsStep (execVclr d) :=
  keepsStep_runScalar keepsMem_enqueue

theorem keepsStep_execVsetst : KeepsStep execVsetst :=
  keepsStep_runScalar (.bind keepsMem_needQueueEmpty fun _ => .bind (keepsMem_modHart _) fun _ => keepsMem_advance)

theorem keepsStep_execVgetf {d a : RegField} : KeepsStep (execVgetf d a) :=
  keepsStep_runScalar (.bind keepsMem_needQueueEmpty fun _ => .bind keepsMem_hartM fun _ =>
    .bind keepsMem_setX fun _ => keepsMem_advance)

theorem keepsStep_execGbar {d : RegField} : KeepsStep (execGbar d) := by
  unfold execGbar
  refine keepsStep_runScalar (.bind keepsMem_hereM fun _ => ?_)
  extract_lets rest
  have hrest : ∀ r, KeepsMem (rest r) := by
    intro r
    refine .bind keepsMem_hartM fun _ => ?_
    extract_lets rest
    have hrest : ∀ r, KeepsMem (rest r) := fun _ => .bind keepsMem_setX fun _ =>
      .bind keepsMem_advance fun _ => keepsMem_barrierM
    split <;> exact .bind (keepsMem_modHart _) hrest
  exact .ite (.bind (.modify fun _ hs => drainBuf_memWf hs ..) hrest) (hrest ())

theorem keepsStep_execGarr {d : RegField} : KeepsStep (execGarr d) :=
  keepsStep_runScalar (.bind keepsMem_hartM fun _ => .ite (.waitAt _) (.bind (keepsMem_modHart _) fun _ =>
    .bind keepsMem_setX fun _ => keepsMem_enqueue))

theorem keepsStep_execGwait {a : RegField} : KeepsStep (execGwait a) :=
  keepsStep_runScalar (.bind keepsMem_getX fun _ => .bind keepsMem_gangM fun _ => .ite (.waitAt _) keepsMem_advance)

theorem keepsStep_pushWord {rel : Bool} {n : Nat} {a : RegField} {q : BitVec 2} : KeepsStep (pushWord rel n a q) := by
  unfold pushWord
  refine keepsStep_runScalar (.bind keepsMem_hereM fun _ => .bind keepsMem_hartM fun _ => ?_)
  split
  · exact .ite (.trap _ _ _) (.bind keepsMem_holdPush fun _ => .bind keepsMem_getX fun _ =>
    .bind (keepsMem_modHart _) fun _ => keepsMem_advance)
  · exact .ite (.trap _ _ _) (.ite (.waitAt _) (.bind keepsMem_passFenceVs fun _ => .bind keepsMem_getX fun _ =>
    .bind (keepsMem_modHart _) fun _ => keepsMem_advance))

theorem keepsStep_popWord {take : Bool} {n : Nat} {d : RegField} {q : BitVec 2} : KeepsStep (popWord take n d q) := by
  unfold popWord
  refine keepsStep_runScalar (.bind keepsMem_hereM fun _ => .bind keepsMem_hartM fun _ => ?_)
  split
  · refine .ite (.trap _ _ _) ?_
    split
    · exact .waitAt _
    · extract_lets rest
      have hrest : ∀ r, KeepsMem (rest r) := fun _ => .bind keepsMem_setX fun _ => keepsMem_advance
      exact .ite (.bind keepsMem_takeEntry fun _ => .bind (keepsMem_modHart _) hrest) (hrest ())
  · refine .ite (.trap _ _ _) ?_
    split
    · exact .waitAt _
    · extract_lets rest
      have hrest : ∀ r, KeepsMem (rest r) := fun _ => .bind keepsMem_setX fun _ => keepsMem_advance
      exact .ite (.bind keepsMem_takeEntry fun _ => .bind (keepsMem_modHart _) hrest) (hrest ())

theorem keepsStep_execQpushb {a : RegField} : KeepsStep (execQpushb a) :=
  keepsStep_runScalar (.bind keepsMem_hartM fun _ => .ite (.waitAt _) (.bind keepsMem_passFenceVs fun _ =>
    .bind keepsMem_getX fun _ => .bind (keepsMem_modHart _) fun _ => keepsMem_advance))

theorem keepsStep_execQcnt {d : RegField} {q : BitVec 2} : KeepsStep (execQcnt d q) :=
  keepsStep_runScalar (.ite (.trap _ _ _) (.bind keepsMem_hartM fun _ => .bind keepsMem_setX fun _ => keepsMem_advance))

theorem keepsStep_execQclr {q : BitVec 2} : KeepsStep (execQclr q) :=
  keepsStep_runScalar (.ite (.trap _ _ _) (.bind (keepsMem_modHart _) fun _ => keepsMem_advance))

theorem keepsStep_execSload {s : BitVec 4} {a : RegField} : KeepsStep (execSload s a) :=
  keepsStep_runScalar (.bind keepsMem_holdDesc fun _ => .bind keepsMem_getX fun _ => .ite (.trap _ _ _)
    (.bind keepsMem_wideLoad fun _ => keepsMem_pushDesc))

theorem keepsStep_buildDesc {kind : Nat} {s : BitVec 4} {a b : RegField} {fmt : BitVec 5} :
    KeepsStep (buildDesc kind s a b fmt) :=
  keepsStep_runScalar (.bind keepsMem_holdDesc fun _ => .bind keepsMem_getX fun _ =>
    .bind keepsMem_getX fun _ => keepsMem_pushDesc)

theorem keepsStep_execSdrop {s : BitVec 4} : KeepsStep (execSdrop s) :=
  keepsStep_runScalar (.bind (keepsMem_modHart _) fun _ => keepsMem_advance)

theorem keepsStep_execSpos {s : BitVec 4} {a : RegField} : KeepsStep (execSpos s a) :=
  keepsStep_runScalar (.bind keepsMem_hartM fun _ => .bind keepsMem_setX fun _ => keepsMem_advance)

theorem keepsStep_execNop : KeepsStep execNop :=
  keepsStep_runScalar keepsMem_advance

theorem keepsStep_execCNop : KeepsStep execCNop :=
  keepsStep_runScalar keepsMem_advance

theorem keepsStep_execBrk : KeepsStep execBrk :=
  keepsStep_runScalar (.trap _ _ _)

theorem keepsStep_execTrap {n : BitVec 5} : KeepsStep (execTrap n) :=
  keepsStep_runScalar (.trap _ _ _)

theorem keepsStep_execIllegalEncoding {misplaced : Bool} : KeepsStep (execIllegalEncoding misplaced) :=
  keepsStep_runScalar (.bind keepsMem_getPc fun _ => .ite (.trap _ _ _) (.trap _ _ _))

theorem keepsStep_execSupervisorFunction {fn d a b : BitVec 5} : KeepsStep (execSupervisorFunction fn d a b) := by
  unfold execSupervisorFunction
  refine keepsStep_runScalar (.bind keepsMem_cpuM fun _ => ?_)
  split
  · exact .trap _ _ _
  · exact .throw _

theorem keepsStep_execEret : KeepsStep execEret := by
  unfold execEret
  refine keepsStep_runScalar (.bind keepsMem_cpuM fun _ => ?_)
  split
  · refine .bind .get fun _ => .ite (.trap _ _ _) (.bind (.attempt keepsMem_checkSurveyResume) fun _ => ?_)
    split
    · exact .bind (.modify fun _ hs => hs) fun _ => .throw _
    · exact .modify fun _ hs => hs
  · refine .bind keepsMem_hartM fun _ => .ite (.trap _ _ _) (.bind keepsMem_needQueueEmpty fun _ =>
    .bind (.attempt keepsMem_checkResume) fun _ => ?_)
    split
    · exact keepsMem_modHart _
    · exact .waitAt _
    · exact .bind (keepsMem_modHart _) fun _ => .throw _

theorem keepsStep_execYield : KeepsStep execYield :=
  keepsStep_runScalar (.bind keepsMem_hereM fun _ => .bind keepsMem_hartM fun _ => .bind .get fun _ =>
    .ite (.modify fun _ hs => forceGang_memWf hs ..) (.bind keepsMem_advance fun _ =>
    .ite (.modify fun _ hs => coopStop_memWf hs ..) (.pure _)))

theorem keepsStep_execWait {a b : RegField} : KeepsStep (execWait a b) := by
  unfold execWait
  refine keepsStep_runScalar (.bind keepsMem_getX fun _ => .bind keepsMem_getX fun _ =>
    .bind keepsMem_cpuM fun _ => ?_)
  extract_lets rest
  have hrest : ∀ r, KeepsMem (rest r) := fun _ => .ite (.waitAt _) keepsMem_advance
  split
  · exact .bind keepsMem_observeWord hrest
  · exact .bind keepsMem_surveyObserve hrest

theorem keepsStep_execFenceSv : KeepsStep execFenceSv :=
  keepsStep_runScalar (.bind (keepsMem_modHart _) fun _ => keepsMem_advance)

theorem keepsStep_execFenceVs : KeepsStep execFenceVs :=
  keepsStep_runScalar (.bind (keepsMem_modHart _) fun _ => keepsMem_advance)

theorem keepsStep_execFenceVv : KeepsStep execFenceVv :=
  keepsStep_runScalar keepsMem_enqueue

theorem keepsStep_execZstart {a : RegField} : KeepsStep (execZstart a) :=
  keepsStep_runScalar (.bind keepsMem_needQueueEmpty fun _ => .bind keepsMem_getX fun _ => .ite (.trap _ _ _)
    (.bind (keepsMem_modHart _) fun _ => keepsMem_advance))

theorem keepsStep_execZend : KeepsStep execZend := by
  unfold execZend
  refine keepsStep_runScalar (.bind keepsMem_needQueueEmpty fun _ => .bind keepsMem_hartM fun _ => ?_)
  extract_lets rest
  have hrest : ∀ r, KeepsMem (rest r) := fun _ => keepsMem_advance
  exact .ite (.bind (keepsMem_modHart _) hrest) (hrest ())

theorem keepsStep_execFenceAll : KeepsStep execFenceAll :=
  keepsStep_rendezvous (.bind keepsMem_settleHart fun _ => keepsMem_modHart _)

theorem keepsStep_adjSwitch {fn10 : Nat} {mode : BitVec 2} : KeepsStep (adjSwitch fn10 mode) :=
  keepsStep_rendezvous (.bind keepsMem_settleHart fun _ => .bind keepsMem_readTable fun _ => keepsMem_modHart _)

theorem keepsStep_execGetc {d : RegField} {n : BitVec 15} : KeepsStep (execGetc d n) := by
  unfold execGetc
  refine keepsStep_runScalar (.bind keepsMem_cpuM fun _ => ?_)
  split
  · exact .ite (.trap _ _ _) (.bind keepsMem_surveyGet fun _ => .bind keepsMem_setX fun _ => keepsMem_advance)
  · refine .ite (.trap _ _ _) ?_
    extract_lets rest
    have hrest : ∀ r, KeepsMem (rest r) := fun _ => .bind keepsMem_vrlenM fun _ => .bind .get fun _ =>
      .bind keepsMem_hartM fun _ => .bind keepsMem_setX fun _ => keepsMem_advance
    exact .ite (.bind keepsMem_needQueueEmpty hrest) (hrest ())

theorem keepsStep_execSetc {n : BitVec 15} {a : RegField} : KeepsStep (execSetc n a) := by
  unfold execSetc
  refine keepsStep_runScalar (.bind keepsMem_cpuM fun _ => ?_)
  split
  · exact .ite (.trap _ _ _) (.bind keepsMem_getX fun _ => .bind (.modify fun _ hs => hs) fun _ => keepsMem_advance)
  · refine .ite (.trap _ _ _) ?_
    extract_lets done rest
    have hrest : ∀ r, KeepsMem (rest r) := fun _ => .bind keepsMem_getX fun _ => .bind keepsMem_vrlenM fun _ =>
      .ite (.bind (keepsMem_modHart _) fun _ => keepsMem_advance) keepsMem_advance
    exact .ite (.bind keepsMem_needQueueEmpty hrest) (hrest ())

theorem keepsStep_load {n : Nat} {signed acq atHome : Bool} {len : Nat} {d a : RegField} {off : Word} :
    KeepsStep (load n signed acq atHome len d a off) := by
  unfold load
  refine keepsStep_runScalar (.bind keepsMem_getX fun _ => .bind keepsMem_cpuM fun _ => ?_)
  extract_lets rest
  have hrest : ∀ r, KeepsMem (rest r) := fun _ => keepsMem_advance
  split
  · exact .bind keepsMem_hartLoad hrest
  · exact .ite (.bind (.trap _ _ _) hrest) (.bind keepsMem_surveyLoad fun _ =>
    .bind keepsMem_setX hrest)

theorem keepsStep_store {n : Nat} {rel : Bool} {len : Nat} {a b : RegField} {off : Word} :
    KeepsStep (store n rel len a b off) := by
  unfold store
  refine keepsStep_runScalar (.bind keepsMem_getX fun _ => .bind keepsMem_cpuM fun _ => ?_)
  extract_lets rest
  have hrest : ∀ r, KeepsMem (rest r) := fun _ => keepsMem_advance
  split
  · exact .bind keepsMem_hartStore hrest
  · exact .ite (.bind (.trap _ _ _) hrest) (.bind keepsMem_getX fun _ =>
    .bind keepsMem_surveyStore hrest)

theorem keepsStep_amo {n : Nat} {f : Word → Word → Nat → Nat} {d a b : RegField} {scope : BitVec 3}
    {writes : Word → Nat → Bool} : KeepsStep (amo n f d a b scope writes) := by
  unfold amo
  refine keepsStep_runScalar (.ite (.trap _ _ _) (.bind keepsMem_getX fun _ => .bind keepsMem_getX fun _ =>
    .bind keepsMem_getX fun _ => .bind keepsMem_cpuM fun _ => ?_))
  extract_lets rest
  have hrest : ∀ r, KeepsMem (rest r) := fun _ => .bind keepsMem_setX fun _ => keepsMem_advance
  split
  · exact .bind keepsMem_hartAmo hrest
  · exact .bind keepsMem_surveyAmo hrest

theorem keepsStep_execAdjld {d a : RegField} : KeepsStep (execAdjld d a) :=
  keepsStep_runScalar (.bind keepsMem_getX fun _ => .bind keepsMem_adjointCell fun _ =>
    .bind keepsMem_scalarLoad fun _ => .bind keepsMem_setX fun _ => keepsMem_advance)

theorem keepsStep_execAdjst {a b : RegField} : KeepsStep (execAdjst a b) :=
  keepsStep_runScalar (.bind keepsMem_getX fun _ => .bind keepsMem_getX fun _ =>
    .bind keepsMem_adjointCell fun _ => .bind keepsMem_scalarStore fun _ => keepsMem_advance)

theorem keepsStep_execTmark {a : RegField} : KeepsStep (execTmark a) := by
  unfold execTmark
  refine keepsStep_runScalar (.bind keepsMem_getX fun _ => .bind keepsMem_hartM fun _ => ?_)
  extract_lets top rest
  have hrest : ∀ r, KeepsMem (rest r) := fun _ => keepsMem_advance
  split
  · exact .ite (.bind (.trap _ _ _) hrest) (.bind (keepsMem_storeBytes _ _ _) fun _ =>
    .bind keepsMem_setTapeh hrest)
  · exact .ite (.bind (.trap _ _ _) hrest) (.bind (keepsMem_loadBytes _ _ _) fun _ =>
    .ite (.bind (.trap _ _ _) hrest) (.bind keepsMem_setTapeh hrest))
  · exact hrest ()

theorem keepsStep_execTrew {a : RegField} : KeepsStep (execTrew a) :=
  keepsStep_runScalar (.bind keepsMem_getX fun _ => .bind keepsMem_hartM fun _ => .ite (.trap _ _ _)
    (.bind (keepsMem_drain _) fun _ => .bind keepsMem_setTapeh fun _ => keepsMem_advance))

theorem keepsStep_execCpy {a e : RegField} : KeepsStep (execCpy a e) :=
  keepsStep_runScalar (.bind keepsMem_getX fun _ => .bind keepsMem_getX fun _ =>
    .bind keepsMem_commandAlign fun _ => .bind keepsMem_commandObject fun _ =>
    .bind keepsMem_wideLoad fun _ => .bind keepsMem_wideLoad fun _ => .bind keepsMem_gangM fun _ =>
    .bind .get fun _ => .bind keepsMem_forkOp fun _ => keepsMem_advance)

theorem keepsStep_execColl {id : BitVec 8} {a e : RegField} : KeepsStep (execColl id a e) :=
  keepsStep_runScalar (.bind keepsMem_getX fun _ => .bind keepsMem_getX fun _ =>
    .bind keepsMem_commandAlign fun _ => .bind keepsMem_commandObject fun _ =>
    .bind keepsMem_wideLoad fun _ => .bind keepsMem_gangM fun _ => .bind .get fun _ =>
    .bind keepsMem_forkOp fun _ => .bind (.modify fun _ hs => joinColl_memWf hs ..) fun _ => keepsMem_advance)

theorem keepsStep_execNbe {prog : BitVec 8} {a b e : RegField} : KeepsStep (execNbe prog a b e) :=
  keepsStep_runScalar (.bind keepsMem_getX fun _ => .bind keepsMem_getX fun _ =>
    .bind keepsMem_getX fun _ => .bind keepsMem_commandAlign fun _ => .ite (.trap _ _ _)
    (.bind keepsMem_commandObject fun _ => .bind keepsMem_wideLoad fun _ => .bind keepsMem_hereM fun _ =>
    .bind .get fun _ => .bind (.mapM (fun _ => keepsMem_nbeWindow) _) fun _ => .bind .get fun _ =>
    .bind keepsMem_forkOp fun _ => .bind (.modify fun _ hs =>
    foldl_memWf (fun _ _ hs => setDirty_memWf hs ..) _ hs) fun _ => keepsMem_advance))

theorem keepsStep_execLaunch {port : BitVec 8} {a e : RegField} : KeepsStep (execLaunch port a e) := by
  unfold execLaunch
  refine keepsStep_runScalar (.bind keepsMem_getX fun _ => .bind keepsMem_getX fun _ =>
    .bind keepsMem_commandAlign fun _ => .bind keepsMem_commandObject fun _ =>
    .bind keepsMem_wideLoad fun _ => .bind keepsMem_hereM fun _ => .withState fun s hs =>
    .bind (keepsMem_drain _) fun _ => .withState fun s hs => .ite (.waitAt _) (.withState fun s hs => ?_))
  split
  next e =>
    have hs := memWf_snd e (portWrite_memWf hs ..)
    exact .bind (.set hs) fun _ => .ite (.waitAt _) (.bind keepsMem_launchAdd fun _ => keepsMem_advance)

theorem keepsStep_execCwait {d a b : RegField} : KeepsStep (execCwait d a b) :=
  keepsStep_runScalar (.bind keepsMem_getX fun _ => .bind keepsMem_getX fun _ =>
    .bind keepsMem_observeWord fun _ => .ite (.bind keepsMem_setX fun _ => keepsMem_advance) (.waitAt _))

theorem keepsStep_execCsig {a b : RegField} : KeepsStep (execCsig a b) :=
  keepsStep_runScalar (.bind keepsMem_getX fun _ => .bind keepsMem_getX fun _ =>
    .bind keepsMem_hereM fun _ => .bind .get fun _ => .bind keepsMem_objectCheck fun _ =>
    .bind (keepsMem_drain _) fun _ => .bind keepsMem_objectPlace fun _ => .bind (.modify fun _ hs =>
    addAt_memWf hs ..) fun _ => keepsMem_advance)

end Sys2Proof.Machine
end


section
/-! The instructions of a near-bank engine go on only to states whose byte memory is in canonical form. -/

namespace Sys2Proof.Machine

/-- The state with which an engine's instruction ends has its memory in canonical form. -/
def NbeEnd.Wf : NbeEnd → Prop
  | .next _ s | .error s | .done s => s.MemWf
  | .wait => True

theorem NbeEnd.wf_ite {c : Prop} [Decidable c] {a b : NbeEnd} (ha : a.Wf) (hb : b.Wf) : (if c then a else b).Wf := by
  split
  · exact ha
  · exact hb

theorem keepsStep_runNbe {body : NbeEng → NbeRun → State → NbeEnd} (hb : ∀ e r s, s.MemWf → (body e r s).Wf) :
    KeepsStep (runNbe body) := by
  intro s hs
  unfold runNbe
  split
  · exact .fault
  · next eng _ =>
    split
    · exact .fault
    · next r _ =>
      refine .ite (.next (nbeFinish_memWf hs ..)) ?_
      have hend := hb eng { r with count := r.count + 1, pc := r.pc + 1 } s hs
      split
      · next e =>
        rw [e] at hend
        exact .next hend
      · exact .next hs
      · next e =>
        rw [e] at hend
        exact .next (nbeFinish_memWf hend ..)
      · next e =>
        rw [e] at hend
        exact .next (nbeFinish_memWf hend ..)

theorem keepsStep_execNset {k : Bool} {x : BitVec 3} {imm : BitVec 24} : KeepsStep (execNset k x imm) :=
  keepsStep_runNbe fun _ _ _ hs => hs

theorem keepsStep_execNaddImm {k : Bool} {x y : BitVec 3} {imm : BitVec 13} : KeepsStep (execNaddImm k x y imm) :=
  keepsStep_runNbe fun _ _ _ hs => hs

theorem keepsStep_execNaddReg {k : Bool} {x y : BitVec 3} : KeepsStep (execNaddReg k x y) :=
  keepsStep_runNbe fun _ _ _ hs => hs

theorem keepsStep_execNloop {x : BitVec 3} {imm : BitVec 13} : KeepsStep (execNloop x imm) :=
  keepsStep_runNbe fun _ _ _ hs => NbeEnd.wf_ite hs (NbeEnd.wf_ite hs hs)

theorem keepsStep_execNwait : KeepsStep execNwait := keepsStep_runNbe fun _ _ _ hs => hs

theorem keepsStep_execNnop : KeepsStep execNnop := keepsStep_runNbe fun _ _ _ hs => hs

theorem keepsStep_execNend : KeepsStep execNend := keepsStep_runNbe fun _ _ _ hs => hs

theorem keepsStep_execNact {x : BitVec 3} : KeepsStep (execNact x) := by
  unfold execNact
  refine keepsStep_runNbe fun _ _ _ hs => ?_
  split
  · exact memWf_ite hs (hintArrives_memWf hs ..)
  · exact hs

theorem keepsStep_execNrd {x : BitVec 3} {imm : BitVec 13} : KeepsStep (execNrd x imm) := by
  unfold execNrd
  generalize nbeDecBits = room
  refine keepsStep_runNbe fun _ _ _ hs => NbeEnd.wf_ite hs ?_
  split <;> exact hs

theorem keepsStep_execNldx {x y : BitVec 3} {imm : BitVec 13} : KeepsStep (execNldx x y imm) := by
  unfold execNldx
  refine keepsStep_runNbe fun _ _ _ hs => NbeEnd.wf_ite hs ?_
  split <;> exact hs

theorem keepsStep_execNst {x y : BitVec 3} {fmt : BitVec 5} {imm : BitVec 13} : KeepsStep (execNst x y fmt imm) := by
  unfold execNst
  refine keepsStep_runNbe fun _ _ _ hs => NbeEnd.wf_ite hs ?_
  split
  · exact hs
  · exact NbeEnd.wf_ite hs (homeWrite_memWf hs ..)

theorem keepsStep_execNsig {x : BitVec 3} {imm : BitVec 13} : KeepsStep (execNsig x imm) := by
  unfold execNsig
  refine keepsStep_runNbe fun _ _ _ hs => ?_
  split
  · exact hs
  · exact completionAdd_memWf hs ..

theorem keepsStep_execNbar {x y : BitVec 3} : KeepsStep (execNbar x y) := by
  unfold execNbar
  refine keepsStep_runNbe fun _ _ _ hs => ?_
  split
  · exact hs
  · exact NbeEnd.wf_ite hs (NbeEnd.wf_ite hs (NbeEnd.wf_ite hs trivial))

theorem keepsStep_execNdec {fmt : BitVec 5} {imm : BitVec 13} : KeepsStep (execNdec fmt imm) := by
  unfold execNdec
  refine keepsStep_runNbe fun _ _ _ hs => NbeEnd.wf_ite hs ?_
  split <;> exact hs

theorem keepsStep_execNmac {x y : BitVec 3} {fmt : BitVec 5} : KeepsStep (execNmac x y fmt) := by
  unfold execNmac
  refine keepsStep_runNbe fun _ _ _ hs => NbeEnd.wf_ite hs (NbeEnd.wf_ite hs ?_)
  split <;> exact hs

theorem keepsStep_execNred {k : Bool} {x y : BitVec 3} {imm : BitVec 13} : KeepsStep (execNred k x y imm) :=
  keepsStep_runNbe fun _ _ _ hs => NbeEnd.wf_ite hs hs

theorem keepsStep_execNcvt {k : Bool} {y : BitVec 3} {fmt : BitVec 5} {imm : BitVec 13} : KeepsStep (execNcvt k y fmt imm) :=
  keepsStep_runNbe fun _ _ _ hs => NbeEnd.wf_ite hs hs

end Sys2Proof.Machine
end


section
/-! The events go on only to states whose byte memory is in canonical form. -/

namespace Sys2Proof.Machine

theorem keepsStep_execGangPlace {die : BitVec 3} : KeepsStep (execGangPlace die) := by
  unfold execGangPlace
  refine keepsStep_event fun _ hs => ?_
  split
  · exact placeGang_memWf hs ..
  · exact hs

theorem keepsStep_execClassAging {gang : Nat} : KeepsStep (execClassAging gang) := by
  unfold execClassAging
  refine keepsStep_event fun _ hs => ?_
  split
  · exact memWf_ite hs hs
  · exact hs

theorem keepsStep_execIssueClassAging {gang : Nat} {hid : BitVec 4} {pipe : Pipe} :
    KeepsStep (execIssueClassAging gang hid pipe) := by
  unfold execIssueClassAging
  refine keepsStep_event fun _ hs => ?_
  split
  · exact memWf_ite hs hs
  · exact hs

theorem keepsStep_execSystemYieldRequest {gang : Nat} : KeepsStep (execSystemYieldRequest gang) :=
  keepsStep_event fun _ hs => postYield_memWf hs ..

theorem keepsStep_execVictimSelect {die : BitVec 3} : KeepsStep (execVictimSelect die) := by
  unfold execVictimSelect
  refine keepsStep_event fun _ hs => ?_
  split
  · exact hs
  · refine memWf_ite hs ?_
    split
    · exact foldl_memWf (fun _ _ hs => postYield_memWf hs ..) _ hs
    · exact hs

theorem keepsStep_execGangKill {gang : Nat} : KeepsStep (execGangKill gang) :=
  keepsStep_event fun _ hs => killGang_memWf hs ..

theorem keepsStep_execForcedStop {gang : Nat} : KeepsStep (execForcedStop gang) :=
  keepsStep_event fun _ hs => forceGang_memWf hs ..

theorem keepsStep_execGangEnd {gang : Nat} : KeepsStep (execGangEnd gang) := by
  unfold execGangEnd
  refine keepsStep_event fun _ hs => ?_
  split
  · exact memWf_ite (countEnd_memWf (by exact doneAdd_memWf hs ..) ..) hs
  · exact hs

theorem keepsStep_execTrapResume {gang : Nat} {hid : BitVec 4} {tape : Option (Word × Word)} :
    KeepsStep (execTrapResume gang hid tape) := by
  unfold execTrapResume
  refine keepsStep_event fun _ hs => ?_
  split
  · exact memWf_ite hs (memWf_ite (resumeHart_memWf hs ..) hs)
  · exact hs

theorem keepsStep_execTrapKill {gang : Nat} {hid : BitVec 4} : KeepsStep (execTrapKill gang hid) := by
  unfold execTrapKill
  refine keepsStep_event fun _ hs => ?_
  split
  · exact memWf_ite (killGang_memWf hs ..) hs
  · exact hs

theorem keepsStep_execSaveComplete {gang : Nat} {hid : BitVec 4} : KeepsStep (execSaveComplete gang hid) := by
  unfold execSaveComplete
  refine keepsStep_event fun _ hs => ?_
  split
  · split
    · next e =>
        have hs := memWf_trd e (runSave_memWf hs ..)
        exact leaveIfSaved_memWf (by exact hs) ..
    · exact hs
  · exact hs

theorem keepsStep_execSaveIncomplete {gang : Nat} {hid : BitVec 4} : KeepsStep (execSaveIncomplete gang hid) := by
  unfold execSaveIncomplete
  refine keepsStep_event fun _ hs => ?_
  split
  · split
    · next e =>
        have hs := memWf_trd e (runSave_memWf hs ..)
        exact hs
    · exact hs
  · exact hs

theorem keepsStep_execSaveContinue {gang : Nat} {hid : BitVec 4} {limit : Nat} :
    KeepsStep (execSaveContinue gang hid limit) := by
  unfold execSaveContinue
  refine keepsStep_event fun _ hs => ?_
  split
  · exact memWf_ite hs hs
  · exact hs

theorem keepsStep_execSaveRestart {gang : Nat} {hid : BitVec 4} {base : Word} {limit : Nat} :
    KeepsStep (execSaveRestart gang hid base limit) := by
  unfold execSaveRestart
  refine keepsStep_event fun _ hs => ?_
  split <;> exact hs

theorem keepsStep_execSaveKill {gang : Nat} {hid : BitVec 4} : KeepsStep (execSaveKill gang hid) := by
  unfold execSaveKill
  refine keepsStep_event fun _ hs => ?_
  split
  · exact killGang_memWf hs ..
  · exact hs

theorem keepsStep_execSaveAreaProvided {gang : Nat} {hid : BitVec 4} {base : Word} {limit : Nat} :
    KeepsStep (execSaveAreaProvided gang hid base limit) :=
  keepsStep_event fun _ hs => hs

theorem keepsStep_execRestoreComplete {gang : Nat} {hid : BitVec 4} : KeepsStep (execRestoreComplete gang hid) := by
  unfold execRestoreComplete
  refine keepsStep_event fun _ hs => ?_
  split
  · split
    · next e =>
        have hs := memWf_snd e (runRestore_memWf hs ..)
        exact becomeResident_memWf (by exact hs) ..
    · next e =>
        have hs := memWf_snd e (runRestore_memWf hs ..)
        exact memWf_ite (killGang_memWf (by exact hs) ..) hs
    · next e => exact memWf_snd e (runRestore_memWf hs ..)
  · exact hs

theorem keepsStep_execRestoreFault {gang : Nat} {hid : BitVec 4} : KeepsStep (execRestoreFault gang hid) := by
  unfold execRestoreFault
  refine keepsStep_event fun _ hs => ?_
  split
  · split
    · next e =>
        have hs := memWf_snd e (runRestore_memWf hs ..)
        exact memWf_ite hs hs
    · exact hs
  · exact hs

theorem keepsStep_execRestoreAnswer {gang : Nat} : KeepsStep (execRestoreAnswer gang) :=
  keepsStep_event fun _ hs => hs

theorem keepsStep_execLaunchRecordWrite {port : BitVec 8} {off : Nat} {data : List Byte} :
    KeepsStep (execLaunchRecordWrite port off data) :=
  keepsStep_event fun _ hs => portArrives_memWf hs ..

theorem keepsStep_execWaitObjectObserve {launch : Nat} : KeepsStep (execWaitObjectObserve launch) := by
  unfold execWaitObjectObserve
  refine keepsStep_event fun _ hs => ?_
  split
  · exact observeWait_memWf hs ..
  · exact hs

theorem keepsStep_execDependenceRelease {launch : Nat} {v : Word} : KeepsStep (execDependenceRelease launch v) := by
  unfold execDependenceRelease
  refine keepsStep_event fun _ hs => ?_
  split
  · exact observeValue_memWf hs ..
  · exact hs

theorem keepsStep_execDependenceFail {launch : Nat} : KeepsStep (execDependenceFail launch) := by
  unfold execDependenceFail
  refine keepsStep_event fun _ hs => ?_
  split
  · exact refuseWait_memWf hs ..
  · exact hs

theorem keepsStep_execRegisterWrite {off : BitVec 20} {v : Word} {by_ : RegAgent} : KeepsStep (execRegisterWrite off v by_) :=
  keepsStep_event fun _ hs => memWf_ite (portArrives_memWf hs ..) (writeReg_memWf hs ..)

theorem keepsStep_execInterleaveDescriptorWrite {n : BitVec 6} {word1 : Bool} {v : Word} {by_ : RegAgent} :
    KeepsStep (execInterleaveDescriptorWrite n word1 v by_) :=
  keepsStep_event fun _ hs => writeReg_memWf hs ..

theorem keepsStep_execCollEnd {id : BitVec 8} {by_ : RegAgent} : KeepsStep (execCollEnd id by_) :=
  keepsStep_event fun _ hs => writeReg_memWf hs ..

theorem keepsStep_execEndFromOtherPackage {id : BitVec 8} {num : Nat} : KeepsStep (execEndFromOtherPackage id num) := by
  unfold execEndFromOtherPackage
  refine keepsStep_event fun _ hs => ?_
  split
  · exact memWf_ite hs (endColl_memWf hs ..)
  · exact setColl_memWf hs ..

theorem keepsStep_execShootdownGo {die : BitVec 3} {v : Word} {by_ : RegAgent} : KeepsStep (execShootdownGo die v by_) :=
  keepsStep_event fun _ hs => writeReg_memWf hs ..

theorem keepsStep_execShootdownDone {die : BitVec 3} : KeepsStep (execShootdownDone die) := by
  unfold execShootdownDone
  refine keepsStep_event fun _ hs => memWf_ite hs (memWf_ite hs (foldl_memWf (fun _ _ hs => ?_) _ hs))
  split
  exact drainBuf_memWf (drainBuf_memWf hs ..) ..

theorem keepsStep_execRemapStartCopy {stack layer : BitVec 4} {by_ : RegAgent} :
    KeepsStep (execRemapStartCopy stack layer by_) :=
  keepsStep_event fun _ hs => writeReg_memWf hs ..

theorem keepsStep_execRemapAbandon {stack : BitVec 4} {by_ : RegAgent} : KeepsStep (execRemapAbandon stack by_) :=
  keepsStep_event fun _ hs => writeReg_memWf hs ..

theorem keepsStep_execRemapSwitch {stack : BitVec 4} {by_ : RegAgent} : KeepsStep (execRemapSwitch stack by_) :=
  keepsStep_event fun _ hs => writeReg_memWf hs ..

theorem keepsStep_execRemapFaultClear {stack : BitVec 4} {by_ : RegAgent} : KeepsStep (execRemapFaultClear stack by_) :=
  keepsStep_event fun _ hs => writeReg_memWf hs ..

theorem keepsStep_execRemapBlockCopied {stack : BitVec 4} : KeepsStep (execRemapBlockCopied stack) :=
  keepsStep_event fun _ hs => memWf_ite hs hs

theorem keepsStep_execRemapSwitchDone {stack : BitVec 4} : KeepsStep (execRemapSwitchDone stack) :=
  keepsStep_event fun _ hs => hs

theorem keepsStep_execRequestCapped {chan : BitVec 9} {idx : Nat} : KeepsStep (execRequestCapped chan idx) :=
  keepsStep_event fun _ hs => hs

theorem keepsStep_execStripAheadHint {chan : BitVec 9} {bank : BitVec 5} {row : BitVec 16} :
    KeepsStep (execStripAheadHint chan bank row) :=
  keepsStep_event fun _ hs => memWf_ite hs (hintArrives_memWf hs ..)

theorem keepsStep_execHintExpiry {chan : BitVec 9} {idx : Nat} : KeepsStep (execHintExpiry chan idx) := by
  unfold execHintExpiry
  refine keepsStep_event fun _ hs => ?_
  extract_lets
  split
  · exact memWf_ite hs hs
  · exact hs

theorem keepsStep_execLinkLaneLoss {link : BitVec 4} : KeepsStep (execLinkLaneLoss link) :=
  keepsStep_event fun _ hs => hs

theorem keepsStep_execLinkFailure {link : BitVec 4} : KeepsStep (execLinkFailure link) :=
  keepsStep_event fun _ hs => hs

theorem keepsStep_execLinkLossTimeout : KeepsStep execLinkLossTimeout :=
  keepsStep_event fun _ hs => recheckLinks_memWf hs ..

theorem keepsStep_execLiveLinkReturn {link : BitVec 4} : KeepsStep (execLiveLinkReturn link) :=
  keepsStep_event fun _ hs => recheckLinks_memWf (makeAdds_memWf hs ..) ..

theorem keepsStep_execPeerRequest {r : PeerReq} : KeepsStep (execPeerRequest r) :=
  keepsStep_event fun _ hs => memWf_ite hs (servePeer_memWf hs ..)

theorem keepsStep_execHostCxlMemAccess {pa : BitVec 52} {n : Nat} {wr : Option (List Byte)} :
    KeepsStep (execHostCxlMemAccess pa n wr) :=
  keepsStep_event fun _ hs => memWf_ite hs (serveHost_memWf hs ..)

theorem keepsStep_execHostAtomic {pa : BitVec 52} {sa : Bool} {x : AtomicOp} : KeepsStep (execHostAtomic pa sa x) :=
  keepsStep_event fun _ hs => memWf_ite hs (serveHostAtomic_memWf hs ..)

theorem keepsStep_execOpFaultResume {op : Nat} : KeepsStep (execOpFaultResume op) := by
  unfold execOpFaultResume
  refine keepsStep_event fun _ hs => ?_
  split <;> exact hs

theorem keepsStep_execOpFaultFail {op : Nat} : KeepsStep (execOpFaultFail op) := by
  unfold execOpFaultFail
  refine keepsStep_event fun _ hs => ?_
  split
  · split
    · split
      · exact endColl_memWf hs ..
      · exact endOp_memWf hs ..
    · exact endOp_memWf hs ..
  · exact hs

theorem keepsStep_execArrivalCounterAddition {op n : Nat} : KeepsStep (execArrivalCounterAddition op n) :=
  keepsStep_event fun _ hs => copyPart_memWf hs ..

theorem keepsStep_execCopyComplete {op : Nat} : KeepsStep (execCopyComplete op) := by
  unfold execCopyComplete
  refine keepsStep_event fun _ hs => ?_
  split
  · split
    · exact copyPart_memWf hs ..
    · exact hs
  · exact hs

theorem keepsStep_execCollectiveComplete {id : BitVec 8} {num : Nat} {remote : List RemoteMember} :
    KeepsStep (execCollectiveComplete id num remote) := by
  unfold execCollectiveComplete
  refine keepsStep_event fun _ hs => ?_
  split
  · split
    · exact memWf_ite (completeColl_memWf hs ..) hs
    · exact hs
  · exact hs

theorem keepsStep_execNbeVerdict {code : Word} {asid : BitVec 16} {prog : BitVec 8} {ok : Bool} :
    KeepsStep (execNbeVerdict code asid prog ok) := by
  unfold execNbeVerdict
  refine keepsStep_event fun _ hs => ?_
  split <;> exact hs

theorem keepsStep_execColdTextCopied {gang : Nat} {hid : BitVec 4} {va : Word} {ir : BitVec 6} {ppn : BitVec 36}
    {reachable : Bool} : KeepsStep (execColdTextCopied gang hid va ir ppn reachable) := by
  unfold execColdTextCopied
  refine keepsStep_event fun _ hs => ?_
  split
  · exact hs
  · split
    · next e =>
      have hs := memWf_snd e (tried_memWf keepsMem_coldPage hs)
      refine memWf_ite (coldFailed_memWf hs ..) ?_
      split
      · exact coldFailed_memWf hs ..
      · split
        · exact coldCopied_memWf hs ..
        · exact hs
    · next e => exact memWf_snd e (tried_memWf keepsMem_coldPage hs)

theorem keepsStep_execQdeadlockExpiry {gang : Nat} {hid : BitVec 4} : KeepsStep (execQdeadlockExpiry gang hid) := by
  unfold execQdeadlockExpiry
  refine keepsStep_event fun _ hs => ?_
  split
  · exact memWf_ite (takeTrap_memWf hs ..) hs
  · exact hs

theorem keepsStep_execWaitRecheck {gang : Nat} {hid : BitVec 4} : KeepsStep (execWaitRecheck gang hid) :=
  keepsStep_event fun _ hs => hs

theorem keepsStep_execGarrMarkerFire {gang : Nat} {hid : BitVec 4} : KeepsStep (execGarrMarkerFire gang hid) := by
  unfold execGarrMarkerFire
  refine keepsStep_event fun _ hs => ?_
  split
  · refine memWf_ite hs ?_
    split <;> exact hs
  · exact hs

theorem keepsStep_execWritePerformedAtHome {gang : Nat} {hid : BitVec 4} {agent : SliceId} {idx : Nat} :
    KeepsStep (execWritePerformedAtHome gang hid agent idx) := by
  unfold execWritePerformedAtHome
  refine keepsStep_event fun _ hs => ?_
  split
  · split
    · exact memWf_ite (performWrite_memWf hs _) hs
    · exact hs
  · exact hs

theorem keepsStep_execSiphonWalkAhead {gang : Nat} {hid stream : BitVec 4} :
    KeepsStep (execSiphonWalkAhead gang hid stream) := by
  unfold execSiphonWalkAhead
  refine keepsStep_event fun _ hs => ?_
  split
  · refine memWf_ite hs ?_
    extract_lets r st
    clear_value st
    split
    · exact memWf_ite (walkAdopted_memWf hs ..) (walkQueued_memWf hs ..)
    · exact walkQueued_memWf hs ..
  · exact hs

theorem keepsStep_execColdReset {b : BootInputs} : KeepsStep (execColdReset b) := fun _ hs => .next hs

theorem keepsStep_execPowerOff : KeepsStep execPowerOff := fun _ hs => .next (memWfFrom_filter hs)

theorem keepsStep_execIdleEntry : KeepsStep execIdleEntry := keepsStep_event fun _ hs => hs

theorem keepsStep_execRetainEnter : KeepsStep execRetainEnter := by
  refine keepsStep_event fun s hs => ?_
  have hbegun : (if s.bed.retainPending then s.bed.converting.foldl convertGang s else retainBegin (wakeIdle s)).MemWf :=
    memWf_ite (foldl_memWf (fun _ _ hs => convertGang_memWf hs ..) _ hs) (retainBegin_memWf (wakeIdle_memWf hs))
  have hdone := performStores_memWf (runEngines_memWf hbegun)
  exact memWf_ite hdone hdone

theorem keepsStep_execRetainExit : KeepsStep execRetainExit := by
  refine keepsStep_event fun s hs => foldl_memWf (fun _ _ hs => serveHeld_memWf hs ..) _ ?_
  refine foldl_memWf (s := { s with bed := { s.bed with pwr := 0 } }) (fun _ _ hs => ?_) _ hs
  split
  · exact observeWait_memWf hs ..
  · exact hs

theorem keepsStep_execPowerLimitExceeded : KeepsStep execPowerLimitExceeded := keepsStep_event fun _ hs => hs

theorem keepsStep_execClockRaise : KeepsStep execClockRaise := keepsStep_event fun _ hs => hs

theorem keepsStep_execDebugRequest {level : BitVec 2} : KeepsStep (execDebugRequest level) :=
  keepsStep_event fun _ hs => memWf_ite hs hs

theorem keepsStep_execDebugHaltRequest {owner : BitVec 16} {target : DebugTarget} {act : DebugAct} :
    KeepsStep (execDebugHaltRequest owner target act) := by
  unfold execDebugHaltRequest
  refine keepsStep_event fun _ hs => ?_
  split
  · exact memWf_ite (debugHart_memWf hs ..) hs
  · exact memWf_ite (debugSurvey_memWf hs ..) hs

theorem keepsStep_execQuoteRequest {nonce : BitVec 256} : KeepsStep (execQuoteRequest nonce) :=
  keepsStep_event fun _ hs => memWf_ite (wakeIdle_memWf hs) (wakeIdle_memWf hs)

theorem keepsStep_execCounterAdvance {counter : BitVec 5} {value : Nat} {sig : List Byte} :
    KeepsStep (execCounterAdvance counter value sig) :=
  keepsStep_event fun _ hs => memWf_ite (wakeIdle_memWf hs) (wakeIdle_memWf hs)

theorem keepsStep_execModuleAdmissionRequest {image : List Byte} {counter : BitVec 5} {version : BitVec 6}
    {sig : List Byte} : KeepsStep (execModuleAdmissionRequest image counter version sig) :=
  keepsStep_event fun _ hs => wakeIdle_memWf hs

/-! ### Instructions that end in one of several ways -/

theorem keepsStep_execExit : KeepsStep execExit := by
  intro s hs
  unfold execExit
  split
  · refine .ite (keepsStep_runScalar (.trap _ _ _) s hs) (keepsStep_rendezvous ?_ s hs)
    exact .bind keepsMem_settleHart fun _ => .bind (keepsMem_modHart _) fun _ => .bind keepsMem_modGang fun _ =>
      .modify fun s hs => leaveIfSaved_memWf (hs.of_mem (openGangArea_mem ..)) _
  · exact keepsStep_runScalar (.trap _ _ _) s hs

theorem keepsStep_execLdAcq {d a : RegField} {scope : BitVec 3} {off : BitVec 9} :
    KeepsStep (execLdAcq d a scope off) :=
  fun s hs => .ite (keepsStep_runScalar (.trap _ _ _) s hs) (keepsStep_load s hs)

theorem keepsStep_execSdRel {a b : RegField} {scope : BitVec 3} {off : BitVec 9} :
    KeepsStep (execSdRel a b scope off) :=
  fun s hs => .ite (keepsStep_runScalar (.trap _ _ _) s hs) (keepsStep_store s hs)

end Sys2Proof.Machine
end


section
/-! O58: a step is an agent's turn or an event, and each goes on only to states whose byte memory is in canonical form. -/

namespace Sys2Proof.Machine

theorem keepsMem_fetchSlice {sl : SliceId} : KeepsMem (fetchSlice sl) :=
  .bind keepsMem_getPc fun _ => .bind keepsMem_fetchWord fun _ => .ite (.pure _) (.ite (.pure _) (.ite (.pure _)
    (.bind keepsMem_fetchWord fun _ => .pure _)))

theorem afterHead_memWf {s : State} (hs : s.MemWf) (g h : Nat) (k : VKind) : (afterHead s g h k).MemWf := by
  unfold afterHead
  extract_lets s₁
  have hs₁ : s₁.MemWf := noteIssue_memWf (by exact hs) ..
  split
  · exact memWf_ite (beginSave_memWf hs₁ ..) hs₁
  · exact hs₁

theorem passClocks_memWf {s : State} (hs : s.MemWf) (n : Nat) : (passClocks n s).MemWf :=
  memWf_ite hs (memWf_ite hs hs)

theorem memoryError_memWf {s : State} (hs : s.MemWf) (u : Nat) (inSpare : Bool) : (memoryError s u inSpare).MemWf := by
  unfold memoryError
  extract_lets mark
  split
  · exact memWf_ite hs hs
  · exact memWf_ite (memWf_ite hs hs) (memWf_ite hs (memWf_ite hs hs))

theorem nextWf_afterSlice {g h : Nat} {sl : SliceId} {r : Result} (hr : NextWf r) : NextWf (afterSlice g h sl r) := by
  unfold afterSlice
  split
  · have hs := hr _ rfl
    split
    · refine .next ?_
      split
      · exact hs
      · exact noteIssue_memWf hs ..
    · exact .next hs
  · exact hr

theorem nextWf_turnHart {s : State} (hs : s.MemWf) {g hid : Nat} {f : Hart → Result} (hf : ∀ x, NextWf (f x)) :
    NextWf (turnHart s g hid f) := by
  unfold turnHart
  split
  · exact .ite (.next (forceGang_memWf hs _)) (hf _)
  · exact .next hs

theorem nextWf_turnPart {s : State} (hs : s.MemWf) {g hid k n : Nat} : NextWf (turnPart s g hid k n) := by
  refine nextWf_turnHart hs fun x => ?_
  split
  · exact .next hs
  · refine .ite ?_ ?_
    · have hk := keepsMem_runHeadPart (n := n) s hs
      generalize runHeadPart n s = r at hk
      split
      · exact .next (afterHead_memWf hk ..)
      · exact .next (noteIssue_memWf hk ..)
      · exact .next hk
      · exact nextWf_finish_error hk
    · have hk := keepsMem_runBehind (k := k) (n := n) s hs
      generalize runBehind k n s = r at hk
      split
      · exact .next (memWf_ite (noteIssue_memWf hk ..) hk)
      · exact nextWf_finish_error hk

section Turns

variable {ex : Instr → State → Result} (hex : ∀ i, KeepsStep (ex i))

include hex

theorem nextWf_runFetched {h : Here} {r : EStateM.Result Stop State Fetched} (hr : (endState r).MemWf) :
    NextWf (runFetched ex h r) := by
  unfold runFetched
  split
  · exact hex _ _ hr
  · exact keepsStep_execIllegalEncoding _ hr
  · exact nextWf_finish_error hr

theorem nextWf_runSlice {s : State} (hs : s.MemWf) {h : Here} {x : Hart} : NextWf (runSlice ex s h x) :=
  .ite (nextWf_afterSlice (nextWf_runFetched hex (keepsMem_fetchSlice s hs))) (.next hs)

theorem nextWf_runCs {s : State} (hs : s.MemWf) {h : Here} {x : Hart} : NextWf (runCs ex s h x) := by
  unfold runCs
  split
  · exact .ite (.next (beginSave_memWf hs ..)) (nextWf_runSlice hex hs)
  · have hk := keepsMem_runHead s hs
    generalize runHead s = r at hk
    split
    · exact .next (afterHead_memWf hk ..)
    · refine .ite (.next (memWf_ite (beginSave_memWf hk ..) hk)) ?_
      split
      · exact nextWf_runSlice hex hk
      · exact .next hk
    · exact .next hk
    · exact nextWf_finish_error hk

theorem nextWf_turnSlice {s : State} (hs : s.MemWf) {h : Here} : NextWf (turnSlice ex s h) := by
  refine nextWf_turnHart hs fun x => ?_
  split
  · exact nextWf_runCs hex hs
  · exact nextWf_runSlice hex hs
  · exact .next hs

theorem nextWf_turnAhead {s : State} (hs : s.MemWf) {g hid : Nat} : NextWf (turnAhead ex s g hid) :=
  nextWf_turnHart hs fun _ => .ite (nextWf_runSlice hex hs) (.next hs)

theorem nextWf_turnEngine {s : State} (hs : s.MemWf) : NextWf (turnEngine ex s) := by
  unfold turnEngine
  split
  · exact .next hs
  · refine .ite (.next hs) ?_
    split
    · exact .next (nbeNext_memWf hs ..)
    · split
      · exact .next (nbeBadWord_memWf hs)
      · split
        · exact hex _ s hs
        · exact .next (nbeBadWord_memWf hs)

theorem nextWf_turnSurvey {s : State} (hs : s.MemWf) {k : Nat} : NextWf (turnSurvey ex s k) := by
  unfold turnSurvey
  refine .ite (.next hs) ?_
  split
  · exact hex _ s hs
  · exact keepsStep_execIllegalEncoding s hs
  · exact nextWf_finish_error hs

theorem keepsStep_turn {a : Agent} : KeepsStep (turn ex a) := by
  intro s hs
  have hs₁ : ({ s with cur := a } : State).MemWf := hs
  cases a with
  | none => exact .next hs₁
  | slice g h sl => exact nextWf_turnSlice hex hs₁
  | ahead g h => exact nextWf_turnAhead hex hs₁
  | part g h k n => exact nextWf_turnPart hs₁
  | engine chan => exact nextWf_turnEngine hex hs₁
  | survey k => exact nextWf_turnSurvey hex hs₁

theorem keepsStep_stepWith : KeepsStep (stepWith ex) := by
  intro s hs
  unfold stepWith
  split
  · exact keepsStep_turn hex _ hs
  · exact hex _ _ hs
  · exact keepsStep_turn hex _ hs
  · exact .next (passClocks_memWf (by exact hs) _)
  · exact .next (memoryError_memWf (by exact hs) ..)
  · exact .next hs
  · exact .next (chanIssue_memWf (by exact hs) _)
  · exact .next hs
  · exact .next hs
  · exact .next hs

end Turns

/-- The meaning of every instruction and event keeps byte memory in canonical form: one arm per family of instructions that
share a definition, and one for each of the others. -/
theorem keepsStep_exec (i : Instr) : KeepsStep (exec i) := by
  unfold exec
  cases i with
  | adjFwd | adjRev | adjOff => exact keepsStep_adjSwitch
  | add | sub | and | or | xor | sll | srl | sra | slt | sltu | min | max | minu | maxu | mul | mulh | mulhu | div
  | divu | rem | remu | bext | bexts | fshi => exact keepsStep_alu2
  | clz | ctz | pop | addi | andi | ori | xori | slti | sltui | slli | srli | srai | addiLong | andiLong | oriLong
  | xoriLong | sltiLong | sltuiLong | cMov | cAddi | cSlli => exact keepsStep_alu1
  | ldhi | adpc | ldhiLong | adpcLong => exact keepsStep_aluPc
  | lbLong | lhLong | lwLong | ldLong | lbuLong | lhuLong | lwuLong | lb | lh | lw | ld | lbu | lhu | lwu | cLd
  => exact keepsStep_load
  | sbLong | shLong | swLong | sdLong | sb | sh | sw | sd | cSd => exact keepsStep_store
  | beqz | bnez | bltz | bgez | bgtz | blez | cBnez => exact keepsStep_branch
  | bqt | bqf => exact keepsStep_queueBranch
  | amoAddW | amoAddD | amoSwpW | amoSwpD | amoCasW | amoCasD | amoAnd | amoOr | amoXor | amoMin | amoMax | amoMinu
  | amoMaxu => exact keepsStep_amo
  | qpush | qpushRel | cQpush => exact keepsStep_pushWord
  | qpop | qpeek | qpopAcq | cQpop => exact keepsStep_popWord
  | slin | sbit => exact keepsStep_buildDesc
  | fadd | fsub | fmul | fdiv => exact keepsStep_fp2
  | fsqrt | frsq => exact keepsStep_fp1
  | fmin | fmax | feq | flt | fle => exact keepsStep_fpPlain
  | vadd | vsub | vmul | vmulh | vmac | vand | vor | vxor | vsll | vsrl | vsra | vmin | vmax | vminu | vmaxu | vsel
  | vadds | vsubs | vaddsu | vsubsu | vdiv | vrem | vdivu | vremu | vabs | vclz | vpop | vwmul | vwmac | vbext
  | vmov | vmeq | vmne | vmlt | vmle | vmltu | vmleu | vmfeq | vmflt | vmfle | vmfun | vmfin | vmand | vmor | vmxor
  | vmandn | vfadd | vfsub | vfmul | vfdiv | vfmac | vfnmac | vfmin | vfmax | vfsqrt | vfrsq | vfrcp | vfabs | vfneg
  | vfcvt | vdec | venc | vbnd | vcnt | vtier | vbits | vskip | vcat | vbget | vpack | vexpand | vrepack | vredsum
  | vredmin | vredmax | vredand | vredor | vredxor | vfredsum | vfredmin | vfredmax | vfredsq | vscan | vfscan
  | vfirst | vmcnt | viota | vid | vslidedn | vslideup | vgatherv | vbcast | vext | vins | vzip | vunzip | vrev | vbrk
  | vbrkb | vbput | vld | vst | vldff | vldx | vstx | vldw | vspill | vfill | vamoadd | vamomin | vamomax | vamoand
  | vamoor | vamoxor | vamoswp | vfamoadd | wopen | wadd | wfadd | wmerge | wclose => exact keepsStep_issueV
  | zzero | zmma | zop | zdr | zacc => exact keepsStep_issueZ
  | zld | zst => exact keepsStep_issueRows
  | cAdd | cSub | cAnd => exact keepsStep_slot2
  | coldReset => exact keepsStep_execColdReset
  | powerOff => exact keepsStep_execPowerOff
  | retainEnter => exact keepsStep_execRetainEnter
  | retainExit => exact keepsStep_execRetainExit
  | powerLimitExceeded => exact keepsStep_execPowerLimitExceeded
  | clockRaise => exact keepsStep_execClockRaise
  | debugRequest => exact keepsStep_execDebugRequest
  | quoteRequest => exact keepsStep_execQuoteRequest
  | counterAdvance => exact keepsStep_execCounterAdvance
  | launchRecordWrite => exact keepsStep_execLaunchRecordWrite
  | waitObjectObserve => exact keepsStep_execWaitObjectObserve
  | dependenceRelease => exact keepsStep_execDependenceRelease
  | dependenceFail => exact keepsStep_execDependenceFail
  | gangPlace => exact keepsStep_execGangPlace
  | classAging => exact keepsStep_execClassAging
  | victimSelect => exact keepsStep_execVictimSelect
  | systemYieldRequest => exact keepsStep_execSystemYieldRequest
  | gangKill => exact keepsStep_execGangKill
  | issueClassAging => exact keepsStep_execIssueClassAging
  | forcedStop => exact keepsStep_execForcedStop
  | saveComplete => exact keepsStep_execSaveComplete
  | saveIncomplete => exact keepsStep_execSaveIncomplete
  | saveContinue => exact keepsStep_execSaveContinue
  | saveRestart => exact keepsStep_execSaveRestart
  | saveKill => exact keepsStep_execSaveKill
  | restoreComplete => exact keepsStep_execRestoreComplete
  | restoreFault => exact keepsStep_execRestoreFault
  | restoreAnswer => exact keepsStep_execRestoreAnswer
  | gangEnd => exact keepsStep_execGangEnd
  | trapResume => exact keepsStep_execTrapResume
  | trapKill => exact keepsStep_execTrapKill
  | opFaultResume => exact keepsStep_execOpFaultResume
  | opFaultFail => exact keepsStep_execOpFaultFail
  | coldTextCopied => exact keepsStep_execColdTextCopied
  | nbeVerdict => exact keepsStep_execNbeVerdict
  | qdeadlockExpiry => exact keepsStep_execQdeadlockExpiry
  | waitRecheck => exact keepsStep_execWaitRecheck
  | garrMarkerFire => exact keepsStep_execGarrMarkerFire
  | siphonWalkAhead => exact keepsStep_execSiphonWalkAhead
  | arrivalCounterAddition => exact keepsStep_execArrivalCounterAddition
  | copyComplete => exact keepsStep_execCopyComplete
  | collectiveComplete => exact keepsStep_execCollectiveComplete
  | collEnd => exact keepsStep_execCollEnd
  | shootdownGo => exact keepsStep_execShootdownGo
  | shootdownDone => exact keepsStep_execShootdownDone
  | remapStartCopy => exact keepsStep_execRemapStartCopy
  | remapAbandon => exact keepsStep_execRemapAbandon
  | remapSwitch => exact keepsStep_execRemapSwitch
  | remapFaultClear => exact keepsStep_execRemapFaultClear
  | remapBlockCopied => exact keepsStep_execRemapBlockCopied
  | remapSwitchDone => exact keepsStep_execRemapSwitchDone
  | interleaveDescriptorWrite => exact keepsStep_execInterleaveDescriptorWrite
  | registerWrite => exact keepsStep_execRegisterWrite
  | requestCapped => exact keepsStep_execRequestCapped
  | stripAheadHint => exact keepsStep_execStripAheadHint
  | hintExpiry => exact keepsStep_execHintExpiry
  | peerRequest => exact keepsStep_execPeerRequest
  | linkLaneLoss => exact keepsStep_execLinkLaneLoss
  | linkFailure => exact keepsStep_execLinkFailure
  | linkLossTimeout => exact keepsStep_execLinkLossTimeout
  | hostCxlMemAccess => exact keepsStep_execHostCxlMemAccess
  | hostAtomic => exact keepsStep_execHostAtomic
  | idleEntry => exact keepsStep_execIdleEntry
  | debugHaltRequest => exact keepsStep_execDebugHaltRequest
  | moduleAdmissionRequest => exact keepsStep_execModuleAdmissionRequest
  | liveLinkReturn => exact keepsStep_execLiveLinkReturn
  | endFromOtherPackage => exact keepsStep_execEndFromOtherPackage
  | saveAreaProvided => exact keepsStep_execSaveAreaProvided
  | writePerformedAtHome => exact keepsStep_execWritePerformedAtHome
  | illegalEncoding => exact keepsStep_execIllegalEncoding
  | nop => exact keepsStep_execNop
  | exit => exact keepsStep_execExit
  | brk => exact keepsStep_execBrk
  | trap => exact keepsStep_execTrap
  | eret => exact keepsStep_execEret
  | yield => exact keepsStep_execYield
  | wait => exact keepsStep_execWait
  | fenceSv => exact keepsStep_execFenceSv
  | fenceVs => exact keepsStep_execFenceVs
  | fenceVv => exact keepsStep_execFenceVv
  | fenceAll => exact keepsStep_execFenceAll
  | zstart => exact keepsStep_execZstart
  | zend => exact keepsStep_execZend
  | supervisorFunction => exact keepsStep_execSupervisorFunction
  | getc => exact keepsStep_execGetc
  | setc => exact keepsStep_execSetc
  | bins => exact keepsStep_execBins
  | jalrLong => exact keepsStep_execJalrLong
  | jal => exact keepsStep_execJal
  | jalr => exact keepsStep_execJalr
  | ldAcq => exact keepsStep_execLdAcq
  | sdRel => exact keepsStep_execSdRel
  | qpushb => exact keepsStep_execQpushb
  | qcnt => exact keepsStep_execQcnt
  | qclr => exact keepsStep_execQclr
  | sload => exact keepsStep_execSload
  | sdrop => exact keepsStep_execSdrop
  | spos => exact keepsStep_execSpos
  | fma => exact keepsStep_execFma
  | fcvt => exact keepsStep_execFcvt
  | fclass => exact keepsStep_execFclass
  | fcvti => exact keepsStep_execFcvti
  | vsetl => exact keepsStep_execVsetl
  | vsetg => exact keepsStep_execVsetg
  | vsetf => exact keepsStep_execVsetf
  | vsetst => exact keepsStep_execVsetst
  | vclr => exact keepsStep_execVclr
  | vgetf => exact keepsStep_execVgetf
  | snext => exact keepsStep_execSnext
  | vld2 => exact keepsStep_execVld2
  | vstp => exact keepsStep_execVstp
  | adjld => exact keepsStep_execAdjld
  | adjst => exact keepsStep_execAdjst
  | tmark => exact keepsStep_execTmark
  | trew => exact keepsStep_execTrew
  | cpy => exact keepsStep_execCpy
  | coll => exact keepsStep_execColl
  | nbe => exact keepsStep_execNbe
  | launch => exact keepsStep_execLaunch
  | cwait => exact keepsStep_execCwait
  | csig => exact keepsStep_execCsig
  | gbar => exact keepsStep_execGbar
  | garr => exact keepsStep_execGarr
  | gwait => exact keepsStep_execGwait
  | cNop => exact keepsStep_execCNop
  | cJ => exact keepsStep_execCJ
  | nset => exact keepsStep_execNset
  | naddImm => exact keepsStep_execNaddImm
  | naddReg => exact keepsStep_execNaddReg
  | nloop => exact keepsStep_execNloop
  | nact => exact keepsStep_execNact
  | nrd => exact keepsStep_execNrd
  | ndec => exact keepsStep_execNdec
  | nldx => exact keepsStep_execNldx
  | nmac => exact keepsStep_execNmac
  | nred => exact keepsStep_execNred
  | nst => exact keepsStep_execNst
  | nsig => exact keepsStep_execNsig
  | nwait => exact keepsStep_execNwait
  | nbar => exact keepsStep_execNbar
  | ncvt => exact keepsStep_execNcvt
  | nend => exact keepsStep_execNend
  | nnop => exact keepsStep_execNnop

/-- Settles O58: a step is a turn or an event, and each of these keeps byte memory in canonical form. -/
theorem stepKeepsMemory : Obligations.StepKeepsMemory :=
  fun s t hs e => keepsStep_stepWith keepsStep_exec s hs t e

end Sys2Proof.Machine
end


section
/-! O57: what the package's registers, surveys and links hold right after reset. -/

namespace Sys2Proof.Machine

@[simp] theorem devReg_reset (off : Nat) : devReg State.reset off = regReset off := rfl

/-- A channel's register at 0x30000: CAP 63 and HINTEN 1 (01 R22). -/
theorem regReset_channel {off : Nat} (lo : 0x30000 ≤ off) (hi : off < 0x31000) : regReset off = 0x1003F#64 := by
  simp [regReset, lo, hi]

/-- PCEIL, the odd words of the ports' table at 0x50000: 3 (03 R60). -/
theorem regReset_portCeiling {off : Nat} (lo : 0x50000 ≤ off) (hi : off < 0x51000) (odd : off % 16 = 8) :
    regReset off = 3#64 := by
  simp [regReset, lo, hi, odd, show ¬ off < 0x31000 by omega]

theorem regReset_zero {off : Nat} (chan : off < 0x30000 ∨ 0x31000 ≤ off)
    (port : off < 0x50000 ∨ 0x51000 ≤ off ∨ off % 16 ≠ 8) : regReset off = 0#64 := by
  have hc : (0x30000 ≤ off && off < 0x31000) = false := by
    simp only [Bool.and_eq_false_iff, decide_eq_false_iff_not]; omega
  have hp : (0x50000 ≤ off && off < 0x51000 && off % 16 = 8) = false := by
    simp only [Bool.and_eq_false_iff, decide_eq_false_iff_not]; omega
  simp [regReset, hc, hp]

theorem survey_reset_held (k : Fin 4) : (State.reset.dev.surveys[k]).mode = .held := by
  simp [State.reset, Device.reset, Survey.reset]

theorem link_reset_live (k : Fin 16) : (State.reset.dev.links[k]).live = true ∧ (State.reset.dev.links[k]).lanes = 8 := by
  simp [State.reset, Device.reset]

/-- Settles O57: no register is listed after reset, so each reads the reset value of the table that its offset lies in; the
other parts are fields of `State.reset`. -/
theorem resetState : Obligations.ResetState := by
  refine ⟨reset_memWf, rfl, rfl, rfl, fun chan h => ?channels, fun port h => ?ports, fun stack h => ?remaps,
    fun n h => ?interleaves, fun die h => ?shootdowns, fun id h => ?collectives, rfl, rfl, rfl, rfl, rfl, rfl, rfl, rfl,
    survey_reset_held, link_reset_live⟩
  case channels =>
    rw [devReg_reset, regReset_channel (by omega) (by omega)]
    decide
  case ports =>
    exact ⟨regReset_zero (by omega) (by omega), regReset_portCeiling (by omega) (by omega) (by omega)⟩
  case remaps => exact regReset_zero (by omega) (by omega)
  case interleaves => exact ⟨regReset_zero (by omega) (by omega), regReset_zero (by omega) (by omega)⟩
  case shootdowns => exact regReset_zero (by omega) (by omega)
  case collectives => exact ⟨regReset_zero (by omega) (by omega), regReset_zero (by omega) (by omega)⟩

end Sys2Proof.Machine
end


section
/-! O48: requests of peers and of the host at their homes in local HBM, and those that are held. -/

namespace Sys2Proof.Machine

open Sys2Proof.Claims

variable {s : State}

/-! ### Events -/

theorem event_next {ok : State → Bool} {f : State → State} (h : ok s = true) : event ok f s = .next (f s) := by
  simp [event, h]

theorem powered_of (h : Powered s) : powered s = true := by
  unfold Powered at h
  simp [powered, h]

theorem clocked_of (h : Clocked s) : clocked s = true := by
  obtain ⟨hoff, hpwr⟩ := h
  simp [clocked, hoff, hpwr]

theorem holdsRequests_iff : holdsRequests s = true ↔ s.bed.pwr = 2 ∨ s.bed.retainPending = true := by
  simp [holdsRequests]

theorem holdsRequests_of_serving (h : Serving s) : holdsRequests s = false := by
  obtain ⟨-, hpwr, hpend⟩ := h
  rw [← Bool.not_eq_true, holdsRequests_iff]
  exact fun e => e.elim hpwr (by simp [hpend])

theorem any_poisoned_eq_false {l : List Nat} (h : ∀ p ∈ l, poisoned s p = false) : l.any (poisoned s) = false := by
  simpa using h

theorem any_poisoned_eq_true {l : List Nat} (h : ∃ p ∈ l, poisoned s p = true) : l.any (poisoned s) = true := by
  simpa using h

/-! ### Atomics (14 R305, R320) -/

/-- The smaller number: the old one only where it is strictly less. -/
theorem signedPick_min (n x y : Nat) :
    signedPick false n x y = if signExt (8 * n) x < signExt (8 * n) y then x else y := by
  by_cases h : signExt (8 * n) x < signExt (8 * n) y <;> simp [signedPick, h]

theorem signedPick_max (n x y : Nat) :
    signedPick true n x y = if signExt (8 * n) x < signExt (8 * n) y then y else x := by
  by_cases h : signExt (8 * n) x < signExt (8 * n) y <;> simp [signedPick, h]

/-- Each function's result: the operands as numbers of the atomic's width, added modulo it, compared as signed or
unsigned numbers, or added in f32. -/
theorem atomicResult_of_fn (x : AtomicOp) (old : Nat) :
    let m := 2 ^ (8 * x.bytes)
    let y := x.operand.toNat % m
    let less := signExt (8 * x.bytes) old < signExt (8 * x.bytes) y
    let gives (v : Nat) : Prop := atomicResult x old = some v
    (x.fn = .add → gives ((old + y) % m)) ∧ (x.fn = .swp → gives y) ∧
    (x.fn = .cas → (old = x.expected.toNat % m → gives y) ∧ (old ≠ x.expected.toNat % m → atomicResult x old = none)) ∧
    (x.fn = .and → gives (old &&& y)) ∧ (x.fn = .or → gives (old ||| y)) ∧ (x.fn = .xor → gives (old ^^^ y)) ∧
    (x.fn = .min → gives (if less then old else y)) ∧ (x.fn = .max → gives (if less then y else old)) ∧
    (x.fn = .minu → gives (if old < y then old else y)) ∧ (x.fn = .maxu → gives (if old < y then y else old)) ∧
    (x.fn = .fadd → gives (roundF f32Fmt 0 (fAdd 0 (decodeF f32Fmt old) (decodeF f32Fmt y)))) := by
  refine ⟨fun e => ?add, fun e => ?swp, fun e => ⟨fun c => ?casEqual, fun c => ?casOther⟩, fun e => ?and, fun e => ?or,
    fun e => ?xor, fun e => ?min, fun e => ?max, fun e => ?minu, fun e => ?maxu, fun e => ?fadd⟩ <;>
    simp only [atomicResult, e]
  case casEqual => rw [if_pos c]
  case casOther => rw [if_neg c]
  case min => rw [signedPick_min]
  case max => rw [signedPick_max]
  case minu => split <;> congr 1 <;> omega
  case maxu => split <;> congr 1 <;> omega
  case fadd => rfl

/-- What an atomic leaves of the memory at its place: the result of the operation, or what was there. -/
def atomicLeaves (s : State) (l : List Nat) (x : AtomicOp) : State :=
  match atomicResult x (bytesToNat (l.map (memRead s.mem))) with
  | some v => homeWrite s l (natToBytes v x.bytes)
  | none => s

theorem atomicAt_clean {l : List Nat} {x : AtomicOp} (h : ∀ p ∈ l, poisoned s p = false) :
    atomicAt s l x = atomicLeaves s l x := by
  unfold atomicAt
  rw [any_poisoned_eq_false h]
  rfl

theorem atomicAt_poisoned {l : List Nat} {x : AtomicOp} (h : ∃ p ∈ l, poisoned s p = true) : atomicAt s l x = s := by
  unfold atomicAt
  rw [any_poisoned_eq_true h, if_pos rfl]

theorem completionAdd_clean {by_ : Adder} {pa : Nat} {tag : Word} {l : List Nat} {n : Nat} {e : Bool}
    (h : ∀ p ∈ l, poisoned s p = false) :
    completionAdd by_ pa tag l n e s =
      homeWrite s l (natToBytes (completionValue (bytesToNat (l.map (memRead s.mem))) n e) 8) := by
  unfold completionAdd
  rw [any_poisoned_eq_false h]
  rfl

theorem completionAdd_poisoned {by_ : Adder} {pa : Nat} {tag : Word} {l : List Nat} {n : Nat} {e : Bool}
    (h : ∃ p ∈ l, poisoned s p = true) :
    completionAdd by_ pa tag l n e s = notify s 7 .poison [BitVec.ofNat 64 pa, by_.code, tag] := by
  unfold completionAdd
  rw [any_poisoned_eq_true h, if_pos rfl]

/-! ### Requests of peers -/

theorem exec_peerRequest_held (hp : Powered s) (h : s.bed.pwr = 2 ∨ s.bed.retainPending = true) (r : PeerReq) :
    exec (.peerRequest r) s = .next { s with heldReqs := s.heldReqs ++ [.peer r] } := by
  change execPeerRequest r s = _
  rw [execPeerRequest, event_next (powered_of hp), if_pos (holdsRequests_iff.mpr h)]
  rfl

theorem exec_peerRequest_served (hp : Powered s) (hs : Serving s) (r : PeerReq) :
    exec (.peerRequest r) s = .next (servePeer s r) := by
  change execPeerRequest r s = _
  rw [execPeerRequest, event_next (powered_of hp), holdsRequests_of_serving hs, if_neg (by simp)]

theorem servePeer_load {r : PeerReq} {n : Nat} (e : r.op = .load n) : servePeer s r = s := by
  simp [servePeer, e]

theorem servePeer_store {r : PeerReq} {data : List Byte} {l : List Nat} (e : r.op = .store data)
    (hl : physLocs s r.addr.toNat data.length = some l) : servePeer s r = homeWrite s l data := by
  simp [servePeer, e, hl]

theorem servePeer_atomic {r : PeerReq} {x : AtomicOp} {l : List Nat} (e : r.op = .atomic x)
    (hl : physLocs s r.addr.toNat x.bytes = some l) : servePeer s r = atomicAt s l x := by
  simp [servePeer, e, hl]

theorem servePeer_addition {r : PeerReq} {n : Word} {err : Bool} {l : List Nat} (e : r.op = .addition n err)
    (hl : physLocs s r.addr.toNat 8 = some l) :
    servePeer s r = completionAdd .peer r.addr.toNat 0 l (n.toNat % 2 ^ 63) err s := by
  simp [servePeer, e, hl]

/-! ### Requests of the host -/

theorem exec_hostCxlMemAccess_held (hp : Powered s) (h : s.bed.pwr = 2) (pa : BitVec 52) (n : Nat)
    (wr : Option (List Byte)) :
    exec (.hostCxlMemAccess pa n wr) s = .next { s with heldReqs := s.heldReqs ++ [.host pa n wr] } := by
  change execHostCxlMemAccess pa n wr s = _
  rw [execHostCxlMemAccess, event_next (powered_of hp), if_pos h]
  rfl

theorem exec_hostCxlMemAccess_served (hp : Powered s) (h : s.bed.pwr ≠ 2) (pa : BitVec 52) (n : Nat)
    (wr : Option (List Byte)) : exec (.hostCxlMemAccess pa n wr) s = .next (serveHost s pa wr) := by
  change execHostCxlMemAccess pa n wr s = _
  rw [execHostCxlMemAccess, event_next (powered_of hp), if_neg h]

theorem exec_hostAtomic_held (hp : Powered s) (h : s.bed.pwr = 2) (pa : BitVec 52) (sa : Bool) (x : AtomicOp) :
    exec (.hostAtomic pa sa x) s = .next { s with heldReqs := s.heldReqs ++ [.hostAtomic pa sa x] } := by
  change execHostAtomic pa sa x s = _
  rw [execHostAtomic, event_next (powered_of hp), if_pos h]
  rfl

theorem exec_hostAtomic_served (hp : Powered s) (h : s.bed.pwr ≠ 2) (pa : BitVec 52) (sa : Bool) (x : AtomicOp) :
    exec (.hostAtomic pa sa x) s = .next (serveHostAtomic s pa sa x) := by
  change execHostAtomic pa sa x s = _
  rw [execHostAtomic, event_next (powered_of hp), if_neg h]

theorem serveHost_write {pa : BitVec 52} {data : List Byte} {l : List Nat}
    (hl : hostLocs s pa.toNat data.length = some l) : serveHost s pa (some data) = homeWrite s l data := by
  simp [serveHost, hl]

theorem serveHost_homeless {pa : BitVec 52} {data : List Byte} (hl : hostLocs s pa.toNat data.length = none) :
    serveHost s pa (some data) = s := by
  simp [serveHost, hl]

theorem serveHostAtomic_whole {pa : BitVec 52} {x : AtomicOp} {l : List Nat}
    (hl : hostLocs s pa.toNat x.bytes = some l) : serveHostAtomic s pa true x = atomicAt s l x := by
  simp [serveHostAtomic, hl]

/-- On a page without SA the write is a second part, at the end of the agenda (log 89). -/
theorem serveHostAtomic_split {pa : BitVec 52} {x : AtomicOp} {l : List Nat} {v : Nat}
    (hl : hostLocs s pa.toNat x.bytes = some l) (hv : atomicResult x (bytesToNat (l.map (memRead s.mem))) = some v) :
    serveHostAtomic s pa false x =
      { s with agenda := s.agenda ++ [.event (.hostCxlMemAccess pa x.bytes (some (natToBytes v x.bytes)))] } := by
  simp [serveHostAtomic, hl, homeRead, hv]

/-- A byte of the region that the first decoder's range maps goes through that range's descriptor (01 R36). -/
theorem hostLocs_first {r : HostRange} {more : List HostRange} {pa : Nat} (hm : s.dev.hostMap = r :: more)
    (lo : r.base ≤ pa) (hi : pa < r.base + r.size) :
    hostLocs s pa 1 =
      (hbmMap (devReg s (0x10000 + 16 * r.desc.toNat)) (devReg s (0x10008 + 16 * r.desc.toNat)) pa).map fun p => [p] := by
  have hb : hostByte s pa = hbmMap (devReg s (0x10000 + 16 * r.desc.toNat)) (devReg s (0x10008 + 16 * r.desc.toNat)) pa := by
    simp [hostByte, hm, lo, hi, descWords]
  unfold hostLocs
  simp only [List.range_one, List.mapM_cons, List.mapM_nil, Nat.add_zero, hb]
  cases hbmMap (devReg s (0x10000 + 16 * r.desc.toNat)) (devReg s (0x10008 + 16 * r.desc.toNat)) pa <;> rfl

/-- Settles O48: a request from outside is held, or served at the locations that its address has. -/
theorem outsideRequests : Obligations.OutsideRequests := by
  refine ⟨atomicResult_of_fn, fun s hp => ⟨fun h r => exec_peerRequest_held hp h r,
    fun h => ⟨fun pa n wr => exec_hostCxlMemAccess_held hp h pa n wr, fun pa sa x => exec_hostAtomic_held hp h pa sa x⟩,
    fun hs r => ?peer,
    fun h => ⟨fun pa n => ⟨exec_hostCxlMemAccess_served hp h pa n none, fun data => ⟨fun l hl => ?write, fun hl => ?homeless⟩⟩,
      fun pa x l hl => ⟨fun hq => ?whole, fun v hv => ?split⟩, fun r more pa hm lo hi => hostLocs_first hm lo hi⟩⟩⟩
  case peer =>
    rw [exec_peerRequest_served hp hs]
    refine ⟨fun n e => by rw [servePeer_load e], fun data l e hl => ⟨_, by rw [servePeer_store e hl], rfl, fun wf a ha => homeWrite_read_other wf ha⟩,
      fun x l e hl => ⟨fun hq => ?_, fun hq => ?_⟩, fun n err l e hl => ⟨fun hq => ?_, fun hq => ?_⟩⟩
    · rw [servePeer_atomic e hl, atomicAt_clean hq]; rfl
    · rw [servePeer_atomic e hl, atomicAt_poisoned hq]
    · rw [servePeer_addition e hl, completionAdd_clean hq]
    · exact ⟨_, rfl, rfl, by rw [servePeer_addition e hl, completionAdd_poisoned hq]; rfl⟩
  case write =>
    exact ⟨_, by rw [exec_hostCxlMemAccess_served hp h, serveHost_write hl], rfl, fun wf a ha => homeWrite_read_other wf ha⟩
  case homeless => rw [exec_hostCxlMemAccess_served hp h, serveHost_homeless hl]
  case whole => rw [exec_hostAtomic_served hp h, serveHostAtomic_whole hl, atomicAt_clean hq]; rfl
  case split => rw [exec_hostAtomic_served hp h, serveHostAtomic_split hl hv]

end Sys2Proof.Machine
end


section
/-! Fields, bytes and words: reading a field as quotient and remainder, bytes of a number and back, setting one clear bit,
and reading what a list of bytes was written over. -/

namespace Sys2Proof.Machine

open Sys2Proof.Claims

theorem bitsOf_eq (x lo n : Nat) : bitsOf x lo n = x / 2 ^ lo % 2 ^ n := by
  rw [bitsOf, Nat.shiftRight_eq_div_pow]

theorem bitsOf_lt (x lo n : Nat) : bitsOf x lo n < 2 ^ n := Nat.mod_lt _ (Nat.two_pow_pos n)

/-! ### Bytes of a number -/

@[simp] theorem natToBytes_length (x n : Nat) : (natToBytes x n).length = n := by
  induction n generalizing x with
  | zero => rfl
  | succ n ih => simp [natToBytes, ih]

theorem bytesToNat_lt (b : List Byte) : bytesToNat b < 256 ^ b.length := by
  induction b with
  | nil => simp [bytesToNat]
  | cons c b ih =>
    have := c.isLt
    simp only [bytesToNat, List.length_cons, Nat.pow_succ]
    omega

theorem bytesToNat_natToBytes (x n : Nat) : bytesToNat (natToBytes x n) = x % 256 ^ n := by
  induction n generalizing x with
  | zero => simp [natToBytes, bytesToNat, Nat.mod_one]
  | succ n ih =>
    have e : (256 : Nat) ^ (n + 1) = 256 * 256 ^ n := Nat.pow_succ'
    simp only [natToBytes, bytesToNat, ih, BitVec.toNat_ofNat, e]
    exact (Nat.mod_mul (x := x) (a := 256) (b := 256 ^ n)).symm

/-! ### Setting one bit -/

/-- Setting a bit that is clear adds its weight. -/
theorem or_two_pow_eq_add {x i : Nat} (h : x.testBit i = false) : x ||| 2 ^ i = x + 2 ^ i := by
  have low : x % 2 ^ (i + 1) < 2 ^ i := by
    rw [Nat.testBit_eq_decide_div_mod_eq] at h
    have e : x % 2 ^ (i + 1) = x % 2 ^ i + 2 ^ i * (x / 2 ^ i % 2) := by rw [Nat.pow_succ, Nat.mod_mul]
    have z : x / 2 ^ i % 2 = 0 := by simpa using h
    rw [e, z]
    simpa using Nat.mod_lt x (Nat.two_pow_pos i)
  have split : x = 2 ^ (i + 1) * (x / 2 ^ (i + 1)) ||| x % 2 ^ (i + 1) := by
    rw [← Nat.two_pow_add_eq_or_of_lt (Nat.mod_lt x (Nat.two_pow_pos _)), Nat.div_add_mod]
  have high : x % 2 ^ (i + 1) ||| 2 ^ i = 2 ^ i + x % 2 ^ (i + 1) := by
    rw [Nat.or_comm, ← Nat.mul_one (2 ^ i), ← Nat.two_pow_add_eq_or_of_lt low]
  calc x ||| 2 ^ i = 2 ^ (i + 1) * (x / 2 ^ (i + 1)) ||| (x % 2 ^ (i + 1) ||| 2 ^ i) := by
        conv => lhs; rw [split]
        exact Nat.lor_assoc ..
    _ = 2 ^ (i + 1) * (x / 2 ^ (i + 1)) + (2 ^ i + x % 2 ^ (i + 1)) := by
        have e : 2 ^ (i + 1) = 2 ^ i * 2 := Nat.pow_succ ..
        rw [high, Nat.two_pow_add_eq_or_of_lt]
        omega
    _ = x + 2 ^ i := by
        have := Nat.div_add_mod x (2 ^ (i + 1))
        omega

theorem testBit_bytesToNat_ofNat {x i : Nat} (hi : i < 64) (h : (BitVec.ofNat 64 x).getLsbD i = false) :
    x.testBit i = false := by
  rw [BitVec.getLsbD_ofNat] at h
  simpa [hi] using h

/-! ### Reading what was written -/

theorem locRange_nodup (lo n : Nat) : (locRange lo n).Nodup :=
  List.Nodup.map (fun _ _ e => Nat.add_left_cancel e) List.nodup_range

@[simp] theorem locRange_length (lo n : Nat) : (locRange lo n).length = n := by simp [locRange]

theorem mem_locRange {lo n a : Nat} : a ∈ locRange lo n ↔ lo ≤ a ∧ a < lo + n := by
  simp only [locRange, List.mem_map, List.mem_range]
  exact ⟨by rintro ⟨k, hk, rfl⟩; omega, fun ⟨h1, h2⟩ => ⟨a - lo, by omega, by omega⟩⟩

/-- A list of distinct locations reads the bytes that were written over it. -/
theorem map_memRead_memWriteAll {m : Memory} {l : List Nat} {b : List Byte} (h : m.wf = true) (hn : l.Nodup)
    (hb : l.length = b.length) : l.map (memRead (memWriteAll m (l.zip b))) = b := by
  refine List.ext_getElem (by simpa using hb) fun k hk hk' => ?_
  rw [List.getElem_map]
  refine memRead_memWriteAll_mem h (hn.sublist (zip_fst_sublist l b)) ?_
  exact List.mem_iff_getElem.mpr ⟨k, by simpa [hb] using hk', by simp⟩

theorem memRead_memWriteAll_notMem {m : Memory} {l : List Nat} {b : List Byte} {y : Nat} (h : m.wf = true) (hy : y ∉ l) :
    memRead (memWriteAll m (l.zip b)) y = memRead m y := by
  refine memRead_memWriteAll_other h ?_
  rintro ⟨c1, c2⟩ hc e
  exact hy (e ▸ (List.of_mem_zip hc).1)

/-! ### Setting a bit of a word in memory -/

theorem wordIn_lt (m : Memory) (loc : Nat) : wordIn m loc < 2 ^ 64 := by
  have := bytesToNat_lt ((locRange loc 8).map (memRead m))
  rw [List.length_map, locRange_length] at this
  exact this

/-- A word whose bit is clear grows by the bit's weight. -/
theorem wordIn_orWordAt {s : State} {loc i : Nat} {bit : Word} (h : s.MemWf) (hi : i < 64) (hb : bit.toNat = 2 ^ i)
    (hc : (wordIn s.mem loc).testBit i = false) : wordIn (orWordAt s loc bit).mem loc = wordIn s.mem loc + 2 ^ i := by
  have hlt : wordIn s.mem loc ||| 2 ^ i < 256 ^ 8 :=
    Nat.or_lt_two_pow (n := 64) (wordIn_lt s.mem loc) (Nat.pow_lt_pow_right (by omega) hi)
  have hw : wordIn (orWordAt s loc bit).mem loc =
      bytesToNat (natToBytes (wordIn s.mem loc ||| bit.toNat) 8) :=
    congrArg bytesToNat (map_memRead_memWriteAll h (locRange_nodup loc 8) (by simp))
  rw [hw, hb, bytesToNat_natToBytes, Nat.mod_eq_of_lt hlt, or_two_pow_eq_add hc]

theorem memRead_orWordAt_other {s : State} {loc a : Nat} {bit : Word} (h : s.MemWf) (ha : a < loc ∨ loc + 8 ≤ a) :
    memRead (orWordAt s loc bit).mem a = memRead s.mem a :=
  memRead_memWriteAll_notMem h (by rw [mem_locRange]; omega)

end Sys2Proof.Machine
end


section
/-! O60, parts: where a physical address lies (01 R20, R21, R391), and what a walk of page tables answers (07 R142 to R144). -/

namespace Sys2Proof.Machine

open Sys2Proof.Claims

variable {s : State}

/-! ### Interleave descriptors (01 R20, R21) -/

theorem ilBase_eq (w : Word) : ilBase w = w.toNat / 2 ^ 16 % 2 ^ 36 * 65536 := by rw [ilBase, bitsOf_eq]
theorem ilSize_eq (w : Word) : ilSize w = w.toNat / 2 ^ 32 % 2 ^ 25 * 65536 := by rw [ilSize, bitsOf_eq]
theorem ilRowb_eq (w : Word) : ilRowb w = w.toNat / 2 ^ 16 % 2 ^ 16 := by rw [ilRowb, bitsOf_eq]
theorem ilChan_eq (w : Word) : ilChan w = w.toNat / 2 ^ 7 % 2 ^ 9 := by rw [ilChan, bitsOf_eq]
theorem ilBank_eq (w : Word) : ilBank w = w.toNat % 32 := by
  rw [ilBank, bitsOf_eq, Nat.pow_zero, Nat.div_one]
  rfl
theorem ilMode_eq (w : Word) : ilMode w = w.toNat / 2 ^ 58 % 4 := bitsOf_eq ..

theorem hbmMap_outside {w0 w1 : Word} {pa : Nat} (h : ilEn w0 = false ∨ pa < ilBase w0 ∨ ilBase w0 + ilSize w1 ≤ pa) :
    hbmMap w0 w1 pa = none := by
  unfold hbmMap
  rw [if_pos (by simpa [or_assoc] using h)]

section Inside

variable {w0 w1 : Word} {pa : Nat} (en : ilEn w0 = true) (lo : ilBase w0 ≤ pa) (hi : pa < ilBase w0 + ilSize w1)
include en lo hi

theorem hbmMap_inside_guard : ¬ (!ilEn w0 || pa < ilBase w0 || ilBase w0 + ilSize w1 ≤ pa) = true := by
  simp [en, Nat.not_lt.mpr lo, Nat.not_le.mpr hi]

/-- Mode 0: 256-byte units go round the channels. -/
theorem hbmMap_mode0 (m : ilMode w0 = 0) :
    let o := pa - ilBase w0
    let co := o / 256 / 512 * 256 + o % 256
    hbmMap w0 w1 pa = some (hbmLoc (o / 256 % 512) (co / 1024 % 32) (ilRowb w1 + co / 32768) (co % 1024)) := by
  unfold hbmMap
  rw [if_neg (hbmMap_inside_guard en lo hi)]
  simp [m]

/-- Mode 1: one channel, the banks in turn. -/
theorem hbmMap_mode1 (m : ilMode w0 = 1) :
    let o := pa - ilBase w0
    hbmMap w0 w1 pa = some (hbmLoc (ilChan w1) (o / 1024 % 32) (ilRowb w1 + o / 32768) (o % 1024)) := by
  unfold hbmMap
  rw [if_neg (hbmMap_inside_guard en lo hi)]
  simp [m]

/-- Mode 2: one bank. -/
theorem hbmMap_mode2 (m : ilMode w0 = 2) :
    let o := pa - ilBase w0
    hbmMap w0 w1 pa = some (hbmLoc (ilChan w1) (ilBank w1) (ilRowb w1 + o / 1024) (o % 1024)) := by
  unfold hbmMap
  rw [if_neg (hbmMap_inside_guard en lo hi)]
  simp [m]

end Inside

/-! ### Addresses without a descriptor (01 R391) -/

/-- The lowest-numbered descriptor that maps the address gives its location. -/
theorem hbmByPhys_lowest {pa n l : Nat} (hn : n < 64)
    (hl : hbmMap (descWords s n).1 (descWords s n).2 pa = some l)
    (low : ∀ m, m < n → hbmMap (descWords s m).1 (descWords s m).2 pa = none) : hbmByPhys s pa = some l := by
  refine List.findSome?_eq_some_iff.mpr ⟨List.range n, n, List.range' (n + 1) (63 - n), ?_, hl, fun m hm => ?_⟩
  · have e : 64 = n + ((63 - n) + 1) := by omega
    rw [e, List.range_eq_range', List.range_eq_range', ← List.range'_append_1, List.range'_succ]
    simp
  · exact low m (List.mem_range.mp hm)

theorem hbmByPhys_none {pa : Nat} (h : ∀ n, n < 64 → hbmMap (descWords s n).1 (descWords s n).2 pa = none) :
    hbmByPhys s pa = none :=
  List.findSome?_eq_none_iff.mpr fun n hn => h n (List.mem_range.mp hn)

/-- Within one 256-byte unit the locations are consecutive. -/
theorem physLocs_unit {pa n : Nat} (h : pa % 256 + n ≤ 256) :
    physLocs s pa n = (hbmByPhys s pa).map fun l => locRange l n := by
  rw [physLocs, if_pos h]

/-! ### Page-table entries (07 R142, R143) -/

theorem pageBits_eq {level : Nat} (lo : 1 ≤ level) (hi : level ≤ 3) : pageBits level = levelBits level := by
  obtain rfl | rfl | rfl : level = 1 ∨ level = 2 ∨ level = 3 := by omega
  all_goals rfl

/-- A page is at least 64 KiB and at most 4 TiB. -/
theorem pageBits_cases (level : Nat) : pageBits level = 42 ∨ pageBits level = 29 ∨ pageBits level = 16 := by
  unfold pageBits
  split <;> simp

theorem ptePPN_eq (p : Word) : ptePPN p = p.toNat / 2 ^ 16 % 2 ^ 36 := by rw [ptePPN, bitsOf_eq]
theorem pteLOC_eq (p : Word) : pteLOC p = p.toNat / 2 ^ 10 % 4 := bitsOf_eq ..
theorem pteIR_eq (p : Word) : pteIR p = p.toNat / 2 ^ 52 % 64 := bitsOf_eq ..

/-- An entry that a walk does not accept. -/
theorem pteBad_iff (p : Word) : (!pteV p || pteResv p) = true ↔
    p.getLsbD 0 = false ∨ p.getLsbD 4 = true ∨ p.toNat / 2 ^ 12 % 16 ≠ 0 := by
  simp [pteV, pteResv, bitsOf_eq]

theorem pteLeaf_iff (p : Word) : pteLeaf p = true ↔ p.getLsbD 1 = true ∨ p.getLsbD 2 = true ∨ p.getLsbD 3 = true := by
  simp [pteLeaf, pteR, pteW, pteX, or_assoc]

theorem grants_iff (acc : Acc) (p : Word) : grants acc p ↔ leafGrants acc p = true := by
  cases acc
  case fetch =>
    simp [grants, leafGrants, pteX, pteDEV, pteCOLD, pteW, and_assoc, imp_iff_not_or]
  all_goals simp [grants, leafGrants, pteR, pteW]

/-! ### A level of a walk (07 R142, R144) -/

section Level

variable {va n level table : Nat}

theorem walkFrom_unmapped (h : physLocs s (table + 8 * tableIndex va level) 8 = none) :
    walkFrom s va (n + 1) level table = .ends cPROT := by
  simp [walkFrom, h]

variable {l : List Nat} (hl : physLocs s (table + 8 * tableIndex va level) 8 = some l)
include hl

theorem walkFrom_poisoned (hq : ∃ q ∈ l, poisoned s q = true) : walkFrom s va (n + 1) level table = .ends cMCHK := by
  unfold walkFrom
  simp only [hl, any_poisoned_eq_true hq, if_true]

variable (hq : ∀ q ∈ l, poisoned s q = false)
include hq

/-- What a level makes of the entry that it reads. -/
theorem walkFrom_entry :
    let p : Word := BitVec.ofNat 64 (bytesToNat (l.map (memRead s.mem)))
    walkFrom s va (n + 1) level table =
      if !pteV p || pteResv p then .ends cPGFAULT
      else if pteLeaf p then
        if ptePPN p % 2 ^ (pageBits level - 16) != 0 then .ends cPGFAULT else .leaf p level (l.headD 0)
      else walkFrom s va n (level + 1) (ptePPN p * 65536) := by
  rw [walkFrom]
  simp only [hl, any_poisoned_eq_false hq, Bool.false_eq_true, if_false, homeRead]
  rfl

end Level

/-- The leaf that a walk ends in is of a level that it went through. -/
theorem walkFrom_leaf_level {va n level table loc lv : Nat} {p : Word}
    (h : walkFrom s va n level table = .leaf p lv loc) : level ≤ lv ∧ lv < level + n := by
  induction n generalizing level table with
  | zero => simp [walkFrom] at h
  | succ n ih =>
    rw [walkFrom] at h
    split at h
    · simp at h
    · extract_lets e at h
      split at h
      · simp at h
      · split at h
        · simp at h
        · split at h
          · split at h
            · simp at h
            · simp only [WalkEnd.leaf.injEq] at h
              omega
          · have := ih h
            omega

end Sys2Proof.Machine
end


section
/-! O60, parts: an access within one page, from its leaf to its place (07 R143 to R146), and the bits a walk and a store set. -/

namespace Sys2Proof.Machine

open Sys2Proof.Claims

variable {s t : State} {x : Xlat} {acc : Acc} {e : TlbEntry} {va n : Nat} {pte : Word} {pa : Nat}

/-! ### The physical side (07 R145) -/

theorem physAccess_hbm_unmapped (h0 : pteLOC pte = 0)
    (hm : hbmMap (descWords s (pteIR pte)).1 (descWords s (pteIR pte)).2 pa = none) :
    physAccess acc pte pa va n s = .error (.trap { cause := cPROT, eaddr := BitVec.ofNat 64 va, einfo := acc.code }) s := by
  unfold physAccess
  rw [M.bind_ok (M.get_run s)]
  simp only [h0, hm]
  rfl

section Cavern

variable (h1 : pteLOC pte = 1)
include h1

theorem physAccess_cavern_beyond (hpa : 2 ^ 31 ≤ pa) :
    physAccess acc pte pa va n s = .error (.trap { cause := cPROT, eaddr := BitVec.ofNat 64 va, einfo := acc.code }) s := by
  have : (pa / 2 ^ 31 != 0) = true := by simpa using hpa
  unfold physAccess
  rw [M.bind_ok (M.get_run s)]
  simp only [h1, this, if_true]
  rfl

variable (hpa : pa < 2 ^ 31)
include hpa

theorem physAccess_cavern (hn : pa % 2 ^ 28 + n ≤ s.dev.cavernMiB * 2 ^ 20) :
    physAccess acc pte pa va n s = .ok (locRange (cavernLoc (pa / 2 ^ 28) (pa % 2 ^ 28)) n) s := by
  have : (pa / 2 ^ 31 != 0) = false := by simpa using hpa
  unfold physAccess
  rw [M.bind_ok (M.get_run s)]
  simp only [h1, this, Bool.false_eq_true, if_false, if_neg (Nat.not_lt.mpr hn)]
  rfl

theorem physAccess_cavern_end (hn : s.dev.cavernMiB * 2 ^ 20 < pa % 2 ^ 28 + n) :
    physAccess acc pte pa va n s = .error (.trap
      { cause := cPROT
        eaddr := BitVec.ofNat 64 (va + (s.dev.cavernMiB * 2 ^ 20 - min (pa % 2 ^ 28) (s.dev.cavernMiB * 2 ^ 20)))
        einfo := acc.code }) s := by
  have : (pa / 2 ^ 31 != 0) = false := by simpa using hpa
  unfold physAccess
  rw [M.bind_ok (M.get_run s)]
  simp only [h1, this, Bool.false_eq_true, if_false, if_pos hn]
  rfl

end Cavern

/-! ### Peers (01 R28 to R31) -/

/-- A link is found exactly where one of the set is live. -/
theorem linkFor_isSome {links : BitVec 16} {block : Nat} : (linkFor s links block).isSome = true ↔ liveLinks s links ≠ [] := by
  unfold linkFor
  simp only [isSome_getElem?]
  constructor
  · intro h e
    simp [e] at h
  · intro h
    simpa using Nat.mod_lt _ (List.length_pos_iff.mpr h)

theorem isPeer_peerLoc {pa : Nat} : isPeer (peerLoc pa) = true ↔ pa < 2 ^ 53 := by
  have e : 2 ^ 53 + pa < 2 ^ 54 ↔ pa < 2 ^ 53 := by omega
  simp only [isPeer, peerLoc, Nat.le_add_right, decide_true, Bool.true_and, decide_eq_true_eq, e]

/-- The blocks of n bytes of one page of a peer all belong to the package that the address names. -/
theorem peerBlocks_dest {b : Nat} (hb : b ∈ peerBlocks (locRange (peerLoc pa) n)) (hp : pa % 65536 + n ≤ 65536) :
    b / 2 ^ 40 = pa / 2 ^ 46 := by
  simp only [peerBlocks, List.mem_eraseDups, List.mem_map, List.mem_filter, mem_locRange, peerLoc] at hb
  obtain ⟨l, ⟨hl, -⟩, rfl⟩ := hb
  omega

theorem peerBlocks_nonempty (hpa : pa < 2 ^ 53) (hn : 0 < n) : ∃ b, b ∈ peerBlocks (locRange (peerLoc pa) n) := by
  refine ⟨(peerLoc pa - 2 ^ 53) / 64, ?_⟩
  simp only [peerBlocks, List.mem_eraseDups, List.mem_map, List.mem_filter]
  exact ⟨peerLoc pa, ⟨mem_locRange.mpr ⟨Nat.le_refl _, by omega⟩, isPeer_peerLoc.mpr hpa⟩, rfl⟩

/-- Every request of such an access has a link exactly where the destination's route has a live one. -/
theorem hopsFor_page (hp : pa % 65536 + n ≤ 65536) (hpa : pa < 2 ^ 53) (hn : 0 < n) :
    ((hopsFor s (locRange (peerLoc pa) n)).all fun h => h.link.isSome) = true ↔
      liveLinks s (routeLinks (routeEntry s (pa / 2 ^ 46))) ≠ [] := by
  simp only [hopsFor, List.all_map, List.all_eq_true, Function.comp, linkFor_isSome]
  constructor
  · intro h
    obtain ⟨b, hb⟩ := peerBlocks_nonempty hpa hn
    simpa only [peerBlocks_dest hb hp] using h b hb
  · intro h b hb
    simpa only [peerBlocks_dest hb hp] using h

theorem hopsFor_page_cut (hp : pa % 65536 + n ≤ 65536) (hpa : pa < 2 ^ 53) (hn : 0 < n)
    (hl : liveLinks s (routeLinks (routeEntry s (pa / 2 ^ 46))) = []) :
    ((hopsFor s (locRange (peerLoc pa) n)).all fun h => h.link.isSome) = false := by
  rw [← Bool.not_eq_true, hopsFor_page hp hpa hn]
  exact not_not_intro hl

section Peer

variable (h2 : pteLOC pte = 2) (away : pa / 2 ^ 46 ≠ s.dev.pkg.toNat)
include h2 away

theorem physAccess_peer_routeless (hr : routeOn (routeEntry s (pa / 2 ^ 46)) = false) :
    physAccess acc pte pa va n s = .error (.trap { cause := cPROT, eaddr := BitVec.ofNat 64 va, einfo := acc.code }) s := by
  unfold physAccess
  rw [M.bind_ok (M.get_run s)]
  simp only [h2, if_neg away, hr, Bool.not_false, if_true]
  rfl

variable (hr : routeOn (routeEntry s (pa / 2 ^ 46)) = true) (hp : pa % 65536 + n ≤ 65536) (hpa : pa < 2 ^ 53) (hn : 0 < n)
include hr hp hpa hn

theorem physAccess_peer_live (hl : liveLinks s (routeLinks (routeEntry s (pa / 2 ^ 46))) ≠ []) :
    physAccess acc pte pa va n s = .ok (locRange (peerLoc pa) n) s := by
  unfold physAccess
  rw [M.bind_ok (M.get_run s)]
  simp only [h2, if_neg away, hr, Bool.not_true, Bool.false_eq_true, if_false, (hopsFor_page hp hpa hn).mpr hl, if_true]
  rfl

variable (hl : liveLinks s (routeLinks (routeEntry s (pa / 2 ^ 46))) = [])
include hl

theorem physAccess_peer_lost (lost : pa / 2 ^ 46 ∈ s.dev.linkLost) :
    physAccess acc pte pa va n s = .error (.trap { cause := cMCHK, eaddr := BitVec.ofNat 64 va, einfo := 0 }) s := by
  have hc := hopsFor_page_cut hp hpa hn hl
  unfold physAccess
  rw [M.bind_ok (M.get_run s)]
  simp only [h2, if_neg away, hr, Bool.not_true, Bool.false_eq_true, if_false, hc, List.contains_iff_mem.mpr lost, if_true]
  rfl

theorem physAccess_peer_waits (lost : pa / 2 ^ 46 ∉ s.dev.linkLost) :
    physAccess acc pte pa va n s = .error (.wait .link) s := by
  have hc := hopsFor_page_cut hp hpa hn hl
  have hm : s.dev.linkLost.contains (pa / 2 ^ 46) = false := by simpa using lost
  unfold physAccess
  rw [M.bind_ok (M.get_run s)]
  simp only [h2, if_neg away, hr, Bool.not_true, Bool.false_eq_true, if_false, hc, hm]
  rfl

end Peer

theorem routeOn_iff {w : Word} : routeOn w = true ↔ w.getLsbD 16 = true ∧ w.extractLsb' 0 16 ≠ 0 := by
  simp [routeOn, routeLinks]

/-! ### Host memory -/

section HostPage

variable (h3 : pteLOC pte = 3)
include h3

theorem physAccess_host_attr (ha : acc = .atomic) (hs : pteSA pte = false) :
    physAccess acc pte pa va n s =
      .error (.trap { cause := cATOMATTR, eaddr := BitVec.ofNat 64 va, einfo := acc.code }) s := by
  unfold physAccess
  rw [M.bind_ok (M.get_run s)]
  simp only [h3, ha, hs, decide_true, Bool.not_false, Bool.and_self, if_true]
  rfl

theorem physAccess_host (h : acc ≠ .atomic ∨ pteSA pte = true) :
    physAccess acc pte pa va n s = .ok (locRange (hostLoc pa) n) s := by
  have c : (decide (acc = .atomic) && !pteSA pte) = false := by
    rcases h with h | h <;> simp [h]
  unfold physAccess
  rw [M.bind_ok (M.get_run s)]
  simp only [h3, c, Bool.false_eq_true, if_false]
  rfl

end HostPage

/-! ### The address through a leaf -/

theorem leafPa_eq (lo : 1 ≤ e.level) (hi : e.level ≤ 3) : leafPa e va = leafAddress e.pte e.level va := by
  rw [leafPa, leafAddress, ptePPN_eq, pageBits_eq lo hi]

/-- A physical address keeps its place in the 64 KiB of the smallest page. -/
theorem leafPa_mod : leafPa e va % 65536 = va % 65536 := by
  have h : va % 2 ^ pageBits e.level % 65536 = va % 65536 := by
    rcases pageBits_cases e.level with h | h | h <;> rw [h] <;> omega
  rw [leafPa]
  omega

theorem leafPa_lt : leafPa e va < 2 ^ 53 := by
  have hp : ptePPN e.pte < 2 ^ 36 := bitsOf_lt ..
  have h : va % 2 ^ pageBits e.level < 2 ^ 42 := by
    rcases pageBits_cases e.level with h | h | h <;> rw [h] <;> omega
  rw [leafPa]
  omega

/-! ### An access within one page (14 R303) -/

theorem canonical_same_page {a b : Nat} (h : a / 65536 = b / 65536) : canonical a = canonical b := by
  have e : a / 2 ^ 54 = b / 2 ^ 54 := by omega
  simp only [canonical, e]

/-- n bytes in one page outside the windows are located through the page's leaf. -/
theorem locate_onePage (hp : inOnePage va n) :
    locate x acc va n true s = (pageLeaf x acc true va va >>= fun e => physAccess acc e.pte (leafPa e va) va n >>= fun locs =>
      pure (heldAt acc e locs)) s := by
  obtain ⟨hva, hn, hpage, hc, hw, hcav⟩ := hp
  have hlast : (va + n - 1) % 2 ^ 64 = va + n - 1 := Nat.mod_eq_of_lt (by omega)
  have hc' : canonical (va + n - 1) = true := by
    rw [← canonical_same_page (a := va) (by omega), hc]
  unfold locate
  simp only [Nat.mod_eq_of_lt hva, hlast, hc, hc', hw, hcav, Bool.not_true, Bool.or_self, Bool.false_eq_true, if_false,
    Bool.false_and, if_pos (show n ≤ min n (65536 - va % 65536) by omega)]
  simp only [heldAt, Bool.or_eq_true, decide_eq_true_eq]

/-- A leaf that does not grant the access traps PROT. -/
theorem pageLeaf_refused (hw : inWindowSpan va = false) (hl : leafFor x acc va va s = .ok e t)
    (hg : leafGrants acc e.pte = false) :
    pageLeaf x acc true va va s = .error (.trap
      { cause := cPROT, eaddr := BitVec.ofNat 64 va, einfo := acc.code
        leaf := acc != .fetch || (pteCOLD e.pte && pteW e.pte) }) t := by
  unfold pageLeaf
  simp only [hw, Bool.false_eq_true, if_false]
  rw [M.bind_ok hl]
  simp only [hg, Bool.not_false, Bool.and_self, if_true]
  rfl

theorem pageLeaf_granted (hw : inWindowSpan va = false) (hl : leafFor x acc va va s = .ok e t)
    (hg : leafGrants acc e.pte = true) (hc : acc ≠ .fetch ∨ pteCOLD e.pte = false) :
    pageLeaf x acc true va va s = .ok e t := by
  have c : (decide (acc = .fetch) && pteCOLD e.pte) = false := by
    rcases hc with h | h <;> simp [h]
  unfold pageLeaf
  simp only [hw, Bool.false_eq_true, if_false]
  rw [M.bind_ok hl]
  simp only [hg, Bool.not_true, Bool.and_false, Bool.false_eq_true, if_false, c]
  rfl

theorem pageLeaf_walkEnds {k : Stop} {low : Nat} (hw : inWindowSpan va = false) (hl : leafFor x acc va low s = .error k t) :
    pageLeaf x acc true va low s = .error k t := by
  unfold pageLeaf
  simp only [hw, Bool.false_eq_true, if_false]
  rw [M.bind_error hl]

theorem tried_trap {α : Type} {m : M α} {k : TrapInfo} (h : m s = .error (.trap k) t) : tried m s = (.trap k, t) := by
  unfold tried attempt
  rw [h]

theorem tried_wait {α : Type} {m : M α} {w : WaitAt} (h : m s = .error (.wait w) t) : tried m s = (.wait w, t) := by
  unfold tried attempt
  rw [h]

theorem tried_locate_walkEnds {k : TrapInfo} (hp : inOnePage va n) (hl : leafFor x acc va va s = .error (.trap k) t) :
    tried (locate x acc va n) s = (.trap k, t) := by
  refine tried_trap ?_
  obtain ⟨-, -, -, -, hw, -⟩ := id hp
  rw [locate_onePage hp, M.bind_error (pageLeaf_walkEnds hw hl)]

theorem tried_locate_refused (hp : inOnePage va n) (hl : leafFor x acc va va s = .ok e t)
    (hg : leafGrants acc e.pte = false) :
    tried (locate x acc va n) s = (.trap
      { cause := cPROT, eaddr := BitVec.ofNat 64 va, einfo := acc.code
        leaf := acc != .fetch || (pteCOLD e.pte && pteW e.pte) }, t) := by
  refine tried_trap ?_
  obtain ⟨-, -, -, -, hw, -⟩ := id hp
  rw [locate_onePage hp, M.bind_error (pageLeaf_refused hw hl hg)]

section Granted

variable (hp : inOnePage va n) (hl : leafFor x acc va va s = .ok e t) (hg : leafGrants acc e.pte = true)
  (hc : acc ≠ .fetch ∨ pteCOLD e.pte = false)
include hp hl hg hc

theorem locate_granted : locate x acc va n true s = (physAccess acc e.pte (leafPa e va) va n >>= fun locs =>
    pure (heldAt acc e locs)) t := by
  obtain ⟨-, -, -, -, hw, -⟩ := id hp
  rw [locate_onePage hp, M.bind_ok (pageLeaf_granted hw hl hg hc)]

theorem tried_locate_found {locs : List Nat} (h : physAccess acc e.pte (leafPa e va) va n t = .ok locs t) :
    tried (locate x acc va n) s = (.ok (heldAt acc e locs), t) :=
  tried_ok (by rw [locate_granted hp hl hg hc, M.bind_ok h]; rfl)

theorem tried_locate_trap {k : TrapInfo} (h : physAccess acc e.pte (leafPa e va) va n t = .error (.trap k) t) :
    tried (locate x acc va n) s = (.trap k, t) :=
  tried_trap (by rw [locate_granted hp hl hg hc, M.bind_error h])

theorem tried_locate_wait {w : WaitAt} (h : physAccess acc e.pte (leafPa e va) va n t = .error (.wait w) t) :
    tried (locate x acc va n) s = (.wait w, t) :=
  tried_wait (by rw [locate_granted hp hl hg hc, M.bind_error h])

end Granted

/-! ### The leaf that a walk finds, and the bits that are set (07 R143, R144) -/

/-- The translation that is held of a leaf. -/
def walkedEntry (x : Xlat) (va : Nat) (p : Word) (level loc : Nat) : TlbEntry :=
  { gallery := x.gallery, asid := x.asid, level := level, vpn := tlbTagVpn va level, pte := p ||| 0x20#64, pteLoc := loc }

/-- The state in which the translation of a leaf is held: A is set in its entry. -/
def walkedState (s : State) (x : Xlat) (va : Nat) (p : Word) (level loc : Nat) : State :=
  tlbAdd (if pteA p then s else orWordAt s loc 0x20#64) (walkedEntry x va p level loc)

theorem leafFor_ends {low : Nat} {cause : BitVec 8} (h : tlbFind s x va = none)
    (hw : walkFrom s (va % 2 ^ 55) 3 1 x.root = .ends cause) :
    leafFor x acc va low s = .error (.trap
      { cause := cause, eaddr := BitVec.ofNat 64 (if cause = cPGFAULT then va else low)
        einfo := if cause = cMCHK then 0 else acc.code }) s := by
  unfold leafFor
  rw [M.bind_ok (M.get_run s), h]
  simp only [hw]
  rfl

theorem leafFor_walked {low level loc : Nat} {p : Word} (h : tlbFind s x va = none)
    (hw : walkFrom s (va % 2 ^ 55) 3 1 x.root = .leaf p level loc) :
    leafFor x acc va low s = .ok (walkedEntry x va p level loc) (walkedState s x va p level loc) := by
  unfold leafFor
  rw [M.bind_ok (M.get_run s), h]
  simp only [hw]
  rfl

section Walked

variable {level loc : Nat} {p : Word}

theorem walkedState_tlb : walkedEntry x va p level loc ∈ (walkedState s x va p level loc).tlb := by
  simp [walkedState, tlbAdd]

theorem walkedState_gangs : (walkedState s x va p level loc).gangs = s.gangs := by
  unfold walkedState tlbAdd
  split <;> rfl

theorem walkedState_dev : (walkedState s x va p level loc).dev = s.dev := by
  unfold walkedState tlbAdd
  split <;> rfl

theorem walkedState_mem_of_set (h : pteA p = true) : (walkedState s x va p level loc).mem = s.mem := by
  unfold walkedState
  rw [if_pos h, tlbAdd_mem]

theorem walkedState_mem_of_clear (h : pteA p = false) :
    (walkedState s x va p level loc).mem = (orWordAt s loc 0x20#64).mem := by
  unfold walkedState
  rw [if_neg (by simp [h]), tlbAdd_mem]

end Walked

theorem setDirty_of_set (h : pteD e.pte = true) : setDirty s e = s := by
  unfold setDirty
  rw [if_pos h]

section Clear

variable (h : pteD e.pte = false)
include h

theorem setDirty_mem_of_clear : (setDirty s e).mem = (orWordAt s e.pteLoc 0x40#64).mem := by
  unfold setDirty
  rw [if_neg (by simp [h])]

/-- Every held translation of the entry has D. -/
theorem setDirty_tlb_of_clear {y : TlbEntry} (hy : y ∈ (setDirty s e).tlb) (hg : y.gallery = e.gallery)
    (hl : y.pteLoc = e.pteLoc) : pteD y.pte = true := by
  unfold setDirty at hy
  rw [if_neg (by simp [h])] at hy
  obtain ⟨z, -, rfl⟩ := List.mem_map.mp hy
  split
  · simp [pteD]
  · next c =>
    rw [if_neg c] at hg hl
    simp [hg, hl] at c

end Clear

end Sys2Proof.Machine
end


section
/-! Scalar loads of the AS that touch no region (14 R302, R303), and O60. -/

namespace Sys2Proof.Machine

open Sys2Proof.Claims

variable {s s1 : State} {h : Here} {x x1 : Hart} {va n len : Nat} {signed acq atHome : Bool} {d a : RegField} {off : Word}

/-! ### A scalar load -/

theorem touches_of_off (hm : x.tp.adjm = 0) : x.touches va n = none := by
  unfold Hart.touches Hart.adjMode
  rw [hm]
  rfl

theorem asSurvey_admits (hs : h.sl = .as) : asSurvey.admits (.slice h) = true := by
  simp [asSurvey, Belongs.admits, hs]

theorem extendBytes_word (v : Nat) : extendBytes 8 true v = BitVec.ofNat 64 v := by
  apply BitVec.eq_of_toNat_eq
  simp only [extendBytes, if_true, wordOfInt, signExt, BitVec.toNat_ofInt, BitVec.toNat_ofNat]
  split <;> omega

section Load

variable (r : Runs s h x) (ht : x.touches va n = none)
include r ht

theorem hartLoad_plain {bytes : List Byte} (hl : scalarLoad va n acq atHome s = .ok bytes s1) (r1 : Runs s1 h x1) :
    hartLoad n signed acq atHome d va s =
      .ok () ((Cpu.slice h).setReg s1 d (extendBytes n signed (bytesToNat bytes))) := by
  have e : touchesHere va n s = .ok none s := by
    unfold touchesHere
    rw [M.bind_ok (hartM_run r), ht]
    rfl
  unfold hartLoad
  rw [M.bind_ok e]
  simp only
  rw [M.bind_ok hl, setX_run r1.cpu]

theorem hartLoad_stops {k : Stop} (hl : scalarLoad va n acq atHome s = .error k s1) :
    hartLoad n signed acq atHome d va s = .error k s1 := by
  have e : touchesHere va n s = .ok none s := by
    unfold touchesHere
    rw [M.bind_ok (hartM_run r), ht]
    rfl
  unfold hartLoad
  rw [M.bind_ok e]
  simp only
  rw [M.bind_error hl]

end Load

section LoadInstr

variable (r : Runs s h x) (hs : h.sl = .as) (hv : va = (x.getReg .as a + off).toNat) (ht : x.touches va n = none)
include r hs hv ht

/-- A load whose bytes are read writes them, extended, to d and goes on. -/
theorem load_plain {bytes : List Byte} (hl : scalarLoad va n acq atHome s = .ok bytes s1) (r1 : Runs s1 h x1) :
    load n signed acq atHome len d a off s =
      .next (goOn s1 h (x1.as_.pc + BitVec.ofNat 64 len) fun y => y.setReg .as d (extendBytes n signed (bytesToNat bytes))) := by
  have hx : (Cpu.slice h).reg s a = x.getReg .as a := by simp [Cpu.reg, r.hart, hs]
  have hpc : (Cpu.slice h).pc s1 = x1.as_.pc := by simp [Cpu.pc, r1.hart, hs, Hart.slice]
  unfold load
  rw [runScalar_run r.cpu (asSurvey_admits hs), M.bind_ok (getX_run r.cpu a)]
  simp only [hx, ← hv]
  rw [M.bind_ok (cpuM_run r.cpu)]
  simp only
  rw [M.bind_ok (hartLoad_plain r ht hl r1), advance_run (by rw [cpu?_setReg, r1.cpu]), Cpu.pc_setReg r1.cpu,
    finish_setReg_setPc, hpc]
  simp only [retire, goOn, hs]

/-- A load that stops at its access traps there. -/
theorem load_trap {k : TrapInfo} (hl : scalarLoad va n acq atHome s = .error (.trap k) s1) :
    load n signed acq atHome len d a off s = .next (takeTrap s1 h.gang h.hid .as none k) := by
  have hx : (Cpu.slice h).reg s a = x.getReg .as a := by simp [Cpu.reg, r.hart, hs]
  unfold load
  rw [runScalar_run r.cpu (asSurvey_admits hs), M.bind_ok (getX_run r.cpu a)]
  simp only [hx, ← hv]
  rw [M.bind_ok (cpuM_run r.cpu)]
  simp only
  rw [M.bind_error (hartLoad_stops r ht hl)]
  simp only [finish, hs]

end LoadInstr

/-! ### A load within one page -/

section Page

variable {acc : Acc} {e : TlbEntry} {k : Stop} (r : Runs s h x) (hp : inOnePage va n)
include r hp

/-- On a page without DEV an access need not be aligned. -/
theorem alignCheck_page (i : Granted s (hartXlat s h.gang h.hid) acc true va e) (hd : pteDEV e.pte = false) :
    alignCheck acc va n false s = .ok () s := by
  obtain ⟨-, -, hpage, -, hw, -⟩ := hp
  unfold alignCheck
  simp only
  split
  · rfl
  · simp only [hw, Bool.false_eq_true, if_false]
    rw [M.bind_ok (hereM_run r.who), M.bind_ok (M.get_run s), M.bind_ok (pageLeaf_held i va)]
    rw [M.bind_ok (M.pure_run false s)]
    simp only [hd, Bool.or_self, Bool.false_eq_true, if_false]
    rfl

/-- Bytes of one held page that no store of the hart is pending to are read at their homes. -/
theorem scalarLoad_page {locs : List Nat} (i : Granted s (hartXlat s h.gang h.hid) .load true va e)
    (hd : pteDEV e.pte = false) (hphys : physAccess .load e.pte (leafPa e va) va n s = .ok locs s)
    (hq : ∀ c ∈ locs, poisoned s c = false) (hb : ∀ c ∈ locs, bufByte x.abuf c = none) :
    scalarLoad va n false false s = .ok (locs.map (memRead s.mem)) s := by
  have hl : scalarLocate .load va n false s = .ok (heldAt .load e locs) s := by
    unfold scalarLocate locateHere
    rw [M.bind_ok (alignCheck_page r hp i hd), M.bind_ok (hereM_run r.who), M.bind_ok (M.get_run s),
      locate_granted hp (leafFor_held i.held va) (i.grants rfl) (.inl (by simp)), M.bind_ok hphys]
    rfl
  have seen : locs.map (seenByte s x.abuf) = locs.map (memRead s.mem) :=
    List.map_congr_left fun c hc => by simp [seenByte, hb c hc]
  unfold scalarLoad
  rw [M.bind_ok hl, M.bind_ok (hartM_run r)]
  have plain : (heldAt .load e locs).dev = false := hd
  simp only [plain, Bool.false_and, Bool.or_self, Bool.false_eq_true, if_false]
  rw [M.bind_ok (hartM_run r)]
  change readLocs x.abuf locs va s = _
  rw [readLocs_run _ _ _ hq, seen]

theorem scalarLocate_walkEnds (hl : leafFor (hartXlat s h.gang h.hid) acc va va s = .error k s) (always : Bool) :
    scalarLocate acc va n always s = .error k s := by
  obtain ⟨-, -, -, -, hw, -⟩ := id hp
  have hfail := pageLeaf_walkEnds hw hl
  have hloc : locateHere acc va n true s = .error k s := by
    unfold locateHere
    rw [M.bind_ok (hereM_run r.who), M.bind_ok (M.get_run s), locate_onePage hp, M.bind_error hfail]
  have hal : alignCheck acc va n always s = .ok () s ∨ alignCheck acc va n always s = .error k s := by
    unfold alignCheck
    simp only
    split
    · exact .inl rfl
    · simp only [hw, Bool.false_eq_true, if_false]
      rw [M.bind_ok (hereM_run r.who), M.bind_ok (M.get_run s), M.bind_error hfail]
      exact .inr rfl
  unfold scalarLocate
  rcases hal with hal | hal
  · rw [M.bind_ok hal, hloc]
  · rw [M.bind_error hal]

theorem scalarLoad_walkEnds (hl : leafFor (hartXlat s h.gang h.hid) .load va va s = .error k s) :
    scalarLoad va n acq atHome s = .error k s := by
  unfold scalarLoad
  rw [M.bind_error (scalarLocate_walkEnds r hp hl acq)]

end Page

/-- `ld` of 8 bytes of one held page of local HBM without DEV, none of them poisoned or pending, reads them at their home. -/
theorem ld_page {loc : Nat} {e : TlbEntry} {imm : BitVec 12} (r : Runs s h x) (hs : h.sl = .as) (hm : x.tp.adjm = 0)
    (hv : va = (x.getReg .as a + imm.signExtend 64).toNat) (hp : inOnePage va 8)
    (i : Granted s (hartXlat s h.gang h.hid) .load true va e) (hd : pteDEV e.pte = false)
    (hphys : physAccess .load e.pte (leafPa e va) va 8 s = .ok (locRange loc 8) s)
    (clean : ∀ k, k < 8 → poisoned s (loc + k) = false ∧ bufByte x.abuf (loc + k) = none) :
    exec (.ld d a imm) s =
      .next (goOn s h (x.as_.pc + 4) fun y => y.setReg .as d (BitVec.ofNat 64 (wordIn s.mem loc))) := by
  have hclean : ∀ c ∈ locRange loc 8, poisoned s c = false ∧ bufByte x.abuf c = none := fun c hc => by
    obtain ⟨lo, hi⟩ := mem_locRange.mp hc
    have := clean (c - loc) (by omega)
    rwa [Nat.add_sub_cancel' lo] at this
  have hload := scalarLoad_page r hp i hd hphys (fun c hc => (hclean c hc).1) (fun c hc => (hclean c hc).2)
  have key := load_plain (d := d) (signed := true) (len := 4) r hs hv (touches_of_off hm) hload r
  rw [extendBytes_word] at key
  exact key

/-- `ld` within one page whose translation a walk does not find takes the walk's trap. -/
theorem ld_walkEnds {k : TrapInfo} {imm : BitVec 12} (r : Runs s h x) (hs : h.sl = .as) (hm : x.tp.adjm = 0)
    (hv : va = (x.getReg .as a + imm.signExtend 64).toNat) (hp : inOnePage va 8)
    (hl : leafFor (hartXlat s h.gang h.hid) .load va va s = .error (.trap k) s) :
    exec (.ld d a imm) s = .next (takeTrap s h.gang h.hid .as none k) :=
  load_trap (d := d) (signed := true) (len := 4) r hs hv (touches_of_off hm)
    (scalarLoad_walkEnds (acq := false) (atHome := false) r hp hl)

/-! ### What an access finds through its leaf, kind by kind -/

/-- An access of va ends in a trap with a cause and an `einfo`, and leaves state t. -/
def TrapsAt (found : Tried Found × State) (t : State) (va : Nat) (cause : BitVec 8) (info : Word) : Prop :=
  ∃ k, found = (.trap k, t) ∧ k.cause = cause ∧ k.eaddr = BitVec.ofNat 64 va ∧ k.einfo = info

section Through

variable {xl : Xlat} {acc : Acc} {e : TlbEntry} (hp : inOnePage va n) (hl : leafFor xl acc va va s = .ok e s1)
  (hdev : s1.dev = s.dev) (lo : 1 ≤ e.level) (hi : e.level ≤ 3) (hg : grants acc e.pte)
  (hc : acc ≠ .fetch ∨ e.pte.getLsbD 9 = false)

theorem devReg_of_dev (hdev : s1.dev = s.dev) (o : Nat) : devReg s1 o = devReg s o := by
  unfold devReg
  rw [hdev]

theorem liveLinks_of_dev (hdev : s1.dev = s.dev) (links : BitVec 16) : liveLinks s1 links = liveLinks s links := by
  simp only [liveLinks, hdev]

include hp hl hg hc

theorem through_found {locs : List Nat} (h : physAccess acc e.pte (leafPa e va) va n s1 = .ok locs s1) :
    tried (locate xl acc va n) s = (.ok (heldAt acc e locs), s1) :=
  tried_locate_found hp hl ((grants_iff _ _).mp hg) hc h

theorem through_trap {cause : BitVec 8} {info : Word}
    (h : physAccess acc e.pte (leafPa e va) va n s1 =
      .error (.trap { cause := cause, eaddr := BitVec.ofNat 64 va, einfo := info }) s1) :
    TrapsAt (tried (locate xl acc va n) s) s1 va cause info :=
  ⟨_, tried_locate_trap hp hl ((grants_iff _ _).mp hg) hc h, rfl, rfl, rfl⟩

include hdev lo hi

theorem through_hbm (h0 : pteLOC e.pte = 0) (hu : leafAddress e.pte e.level va % 256 + n ≤ 256) :
    let pa := leafAddress e.pte e.level va
    let ir := 16 * (e.pte.toNat / 2 ^ 52 % 64)
    let at_ := hbmMap (devReg s (0x10000 + ir)) (devReg s (0x10008 + ir)) pa
    (∀ l, at_ = some l → tried (locate xl acc va n) s = (.ok (heldAt acc e (locRange l n)), s1)) ∧
      (at_ = none → TrapsAt (tried (locate xl acc va n) s) s1 va cPROT acc.code) := by
  intro pa ir at_
  have hpa : leafPa e va = pa := leafPa_eq lo hi
  have hat : hbmMap (descWords s1 (pteIR e.pte)).1 (descWords s1 (pteIR e.pte)).2 (leafPa e va) = at_ := by
    simp only [descWords, devReg_of_dev hdev, pteIR_eq, hpa, at_, ir]
  exact ⟨fun l hm => through_found hp hl hg hc (physAccess_hbm h0 (hat.trans hm) (by rw [hpa]; exact hu)),
    fun hm => through_trap hp hl hg hc (physAccess_hbm_unmapped h0 (hat.trans hm))⟩

theorem through_cavern (h1 : pteLOC e.pte = 1) :
    let pa := leafAddress e.pte e.level va
    let off := pa % 2 ^ 28
    let size := s.dev.cavernMiB * 2 ^ 20
    (2 ^ 31 ≤ pa → TrapsAt (tried (locate xl acc va n) s) s1 va cPROT acc.code) ∧
      (pa < 2 ^ 31 → off + n ≤ size →
        tried (locate xl acc va n) s = (.ok (heldAt acc e (locRange (cavernLoc (pa / 2 ^ 28) off) n)), s1)) ∧
      (pa < 2 ^ 31 → size < off + n → ∃ k, tried (locate xl acc va n) s = (.trap k, s1) ∧ k.cause = cPROT ∧
        k.einfo = acc.code ∧ k.eaddr = BitVec.ofNat 64 (va + (size - min off size))) := by
  intro pa off size
  have hpa : pa = leafPa e va := (leafPa_eq lo hi).symm
  have hsize : size = s1.dev.cavernMiB * 2 ^ 20 := by rw [hdev]
  simp only [off, hsize, hpa]
  exact ⟨fun far => through_trap hp hl hg hc (physAccess_cavern_beyond h1 far),
    fun near fits => through_found hp hl hg hc (physAccess_cavern h1 near fits),
    fun near out => ⟨_, tried_locate_trap hp hl ((grants_iff _ _).mp hg) hc (physAccess_cavern_end h1 near out), rfl, rfl, rfl⟩⟩

theorem through_peer (h2 : pteLOC e.pte = 2) (away : leafAddress e.pte e.level va / 2 ^ 46 ≠ s.dev.pkg.toNat) :
    let pa := leafAddress e.pte e.level va
    let route := devReg s (0x40000 + 8 * (pa / 2 ^ 46))
    let links := route.extractLsb' 0 16
    (route.getLsbD 16 = false ∨ links = 0 → TrapsAt (tried (locate xl acc va n) s) s1 va cPROT acc.code) ∧
      (route.getLsbD 16 = true → links ≠ 0 →
        (liveLinks s links ≠ [] → tried (locate xl acc va n) s = (.ok (heldAt acc e (locRange (peerLoc pa) n)), s1)) ∧
        (liveLinks s links = [] → pa / 2 ^ 46 ∈ s.dev.linkLost → TrapsAt (tried (locate xl acc va n) s) s1 va cMCHK 0) ∧
        (liveLinks s links = [] → pa / 2 ^ 46 ∉ s.dev.linkLost → tried (locate xl acc va n) s = (.wait .link, s1))) := by
  intro pa route links
  obtain ⟨-, hn, hpage, -⟩ := id hp
  have hin : leafPa e va % 65536 + n ≤ 65536 := by rw [leafPa_mod]; exact hpage
  have hpa : leafPa e va = pa := leafPa_eq lo hi
  have hroute : routeEntry s1 (leafPa e va / 2 ^ 46) = route := by rw [routeEntry, devReg_of_dev hdev, hpa]
  have hlive : liveLinks s1 (routeLinks (routeEntry s1 (leafPa e va / 2 ^ 46))) = liveLinks s links := by
    rw [hroute, liveLinks_of_dev hdev]
    rfl
  have away' : leafPa e va / 2 ^ 46 ≠ s1.dev.pkg.toNat := by rw [hpa, hdev]; exact away
  refine ⟨fun off => ?_, fun valid listed => ?_⟩
  · have hoff : routeOn (routeEntry s1 (leafPa e va / 2 ^ 46)) = false := by
      rw [hroute, ← Bool.not_eq_true, routeOn_iff]
      rintro ⟨hv, hlinks⟩
      rcases off with off | off
      · exact absurd hv (by rw [off]; simp)
      · exact hlinks off
    exact through_trap hp hl hg hc (physAccess_peer_routeless h2 away' hoff)
  · have hon : routeOn (routeEntry s1 (leafPa e va / 2 ^ 46)) = true := by
      rw [hroute]
      exact routeOn_iff.mpr ⟨valid, listed⟩
    have lost_iff : leafPa e va / 2 ^ 46 ∈ s1.dev.linkLost ↔ pa / 2 ^ 46 ∈ s.dev.linkLost := by rw [hpa, hdev]
    refine ⟨fun live => ?_, fun none lost => ?_, fun none kept => ?_⟩
    · rw [← hpa]
      exact through_found hp hl hg hc (physAccess_peer_live h2 away' hon hin leafPa_lt hn (hlive.trans_ne live))
    · exact through_trap hp hl hg hc
        (physAccess_peer_lost h2 away' hon hin leafPa_lt hn (hlive.trans none) (lost_iff.mpr lost))
    · exact tried_locate_wait hp hl ((grants_iff _ _).mp hg) hc
        (physAccess_peer_waits h2 away' hon hin leafPa_lt hn (hlive.trans none) (mt lost_iff.mp kept))

omit hdev

theorem through_host (h3 : pteLOC e.pte = 3) :
    let pa := leafAddress e.pte e.level va
    (acc = .atomic → e.pte.getLsbD 7 = false → TrapsAt (tried (locate xl acc va n) s) s1 va cATOMATTR acc.code) ∧
      (acc ≠ .atomic ∨ e.pte.getLsbD 7 = true →
        tried (locate xl acc va n) s = (.ok (heldAt acc e (locRange (2 ^ 52 + pa) n)), s1)) := by
  intro pa
  have hpa : pa = leafPa e va := (leafPa_eq lo hi).symm
  rw [hpa]
  exact ⟨fun ha hs => through_trap hp hl hg hc (physAccess_host_attr h3 ha hs),
    fun h => through_found hp hl hg hc (physAccess_host h3 h)⟩

end Through

/-- Settles O60: each clause is what the model's own function answers, read with the fields of its words as quotients and
remainders; an access is followed from its leaf, held or walked, to the place that the leaf's page has. -/
theorem translationResults : Obligations.TranslationResults := by
  refine ⟨fun w0 w1 pa => ?descriptor, fun s pa h8 => ?physical, fun s va n level table => ?walk,
    fun s xl acc va n hp => ?access, fun s e => ?dirty, fun s h x g l d a i r hs hg hl hm => ?load⟩
  case descriptor =>
    intro base size rowb chan o mode
    have hbase := ilBase_eq w0; have hsize := ilSize_eq w1; have hrowb := ilRowb_eq w1
    have hchan := ilChan_eq w1; have hbank := ilBank_eq w1; have hmode := ilMode_eq w0
    refine ⟨fun out => hbmMap_outside (by rw [hbase, hsize]; exact out), fun en lo hi => ?_⟩
    have lo' : ilBase w0 ≤ pa := by rw [hbase]; exact lo
    have hi' : pa < ilBase w0 + ilSize w1 := by rw [hbase, hsize]; exact hi
    refine ⟨fun m => ?_, fun m => ?_, fun m => ?_⟩
    · have := hbmMap_mode0 en lo' hi' (hmode.trans m)
      rwa [hbase, hrowb] at this
    · have := hbmMap_mode1 en lo' hi' (hmode.trans m)
      rwa [hbase, hrowb, hchan] at this
    · have := hbmMap_mode2 en lo' hi' (hmode.trans m)
      rwa [hbase, hrowb, hchan, hbank] at this
  case physical =>
    intro by_
    have hu := physLocs_unit (s := s) (pa := pa) (n := 8) (by omega)
    refine ⟨fun n l hn hl low => ?_, fun none => ?_⟩
    · rw [hu, hbmByPhys_lowest hn hl low]; rfl
    · rw [hu, hbmByPhys_none none]; rfl
  case walk =>
    intro at_ walk lo hi
    have hat : physLocs s (table + 8 * tableIndex va level) 8 = at_ := by rw [tableIndex, pageBits_eq lo hi]
    refine ⟨rfl, fun h => walkFrom_unmapped (hat.trans h), fun l h => ?_⟩
    intro p ppn bad leaf
    refine ⟨fun hq => walkFrom_poisoned (hat.trans h) hq, fun hq => ?_⟩
    have he : walk = _ := walkFrom_entry (n := n) (hat.trans h) hq
    have hppn : ptePPN p = ppn := ptePPN_eq p
    simp only [pteBad_iff, pteLeaf_iff, pageBits_eq lo hi] at he
    rw [he]
    refine ⟨fun hb => if_pos hb, fun hb hleaf hm => ?_, fun hb hleaf hm => ?_, fun hb hleaf => ?_⟩
    · rw [if_neg hb, if_pos hleaf, if_pos (by simpa [← hppn] using hm)]; rfl
    · rw [if_neg hb, if_pos hleaf, if_neg (by simpa [← hppn] using hm)]
    · rw [if_neg hb, if_neg hleaf, ← hppn]
  case access =>
    intro goes trapped reaches
    have key : ∀ e s1, leafFor xl acc va va s = .ok e s1 → s1.dev = s.dev → 1 ≤ e.level → e.level ≤ 3 → reaches s1 e := by
      intro e s1 hl hdev lo hi
      unfold reaches
      intro pa found
      have hfound : found = heldAt acc e := by
        funext l
        simp only [found, heldAt, pteLOC_eq]
        rfl
      rw [hfound]
      simp only [← pteLOC_eq]
      exact ⟨fun hg => ⟨_, tried_locate_refused hp hl (by simpa [grants_iff] using hg), rfl, rfl, rfl⟩,
        fun hg hc => ⟨fun h0 hu => through_hbm hp hl hdev lo hi hg hc h0 hu, fun h1 => through_cavern hp hl hdev lo hi hg hc h1,
          fun h2 away => through_peer hp hl hdev lo hi hg hc h2 away, fun h3 => through_host hp hl lo hi hg hc h3⟩⟩
    refine ⟨fun e he lo hi => key e s (leafFor_held he va) rfl lo hi, fun none => ⟨fun cause hw => ?ends, fun p level loc hw => ?leaf⟩⟩
    case ends =>
      exact ⟨_, tried_locate_walkEnds hp (leafFor_ends none hw), rfl, by simp, rfl⟩
    case leaf =>
      obtain ⟨lo, hi⟩ := walkFrom_leaf_level hw
      refine ⟨_, _, key _ _ (leafFor_walked none hw) walkedState_dev lo (Nat.le_of_lt_succ hi), rfl, rfl, rfl, rfl, rfl,
        walkedState_tlb, walkedState_gangs, walkedState_dev, walkedState_mem_of_set, fun hwf clear hword => ?_⟩
      have hbit : (wordIn s.mem loc).testBit 5 = false := hword ▸ clear
      rw [walkedState_mem_of_clear clear, ← hword]
      exact ⟨wordIn_orWordAt (i := 5) hwf (by omega) rfl hbit, fun a ha => memRead_orWordAt_other hwf ha⟩
  case dirty =>
    refine ⟨setDirty_of_set, fun hd hwf hc => ?_⟩
    have hmem : (setDirty s e).mem = _ := setDirty_mem_of_clear hd
    rw [hmem]
    exact ⟨wordIn_orWordAt (i := 6) hwf (by omega) rfl (testBit_bytesToNat_ofNat (by omega) hc),
      fun a ha => memRead_orWordAt_other hwf ha, fun y hy hgal hloc => setDirty_tlb_of_clear hd hy hgal hloc⟩
  case load =>
    intro va xl hp
    obtain ⟨-, -, -, -, hwin, -⟩ := id hp
    refine ⟨fun e loc he level readable plain local_ unit map clean => ?_,
      fun none hw => ld_walkEnds r hs hm rfl hp (leafFor_ends none hw)⟩
    have hpa : leafPa e va = e.pte.toNat / 2 ^ 16 % 2 ^ 36 * 65536 + va % 65536 := by
      rw [leafPa, ptePPN_eq, level]
      rfl
    exact ld_page r hs hm rfl hp ⟨hwin, he, fun _ => readable, by simp⟩ plain
      (physAccess_hbm ((pteLOC_eq _).trans local_) (by rw [hpa, pteIR_eq]; exact map) (by rw [hpa]; omega)) clean

end Sys2Proof.Machine
end


section
/-! O46, parts: device registers as they are read and written (01 R10, R19, R34, 07 R147), and destinations without a live
link (01 R31). -/

namespace Sys2Proof.Machine

open Sys2Proof.Claims

variable {s : State} {off o : Nat} {v : Word} {by_ : RegAgent}

/-! ### A register after a write -/

theorem find?_insertKey {α : Type} {k : Nat} {w : α} (j : Nat) {l : List (Nat × α)} (h : ∀ c ∈ l, c.1 ≠ k) :
    (insertKey k w l).find? (fun c => c.1 == j) = if j = k then some (k, w) else l.find? fun c => c.1 == j := by
  have head (m : List (Nat × α)) : ((k, w) :: m).find? (fun c => c.1 == j) =
      if j = k then some (k, w) else m.find? fun c => c.1 == j := by
    by_cases e : j = k
    · simp [e]
    · simp [e, beq_false_of_ne (Ne.symm e)]
  induction l with
  | nil => exact head []
  | cons c l ih =>
    obtain ⟨i, u⟩ := c
    have hi : i ≠ k := h (i, u) (List.mem_cons_self ..)
    have ih := ih fun c hc => h c (List.mem_cons_of_mem _ hc)
    unfold insertKey
    split
    · exact head _
    · rw [if_neg (Ne.symm hi), List.find?_cons, List.find?_cons, ih]
      by_cases e : j = k
      · simp [e, beq_false_of_ne hi]
      · simp [e]

theorem find?_filter_other {α : Type} {k j : Nat} (h : j ≠ k) (l : List (Nat × α)) :
    (l.filter fun c => c.1 != k).find? (fun c => c.1 == j) = l.find? fun c => c.1 == j := by
  rw [List.find?_filter]
  congr 1
  funext c
  by_cases e : c.1 = j <;> simp [e, h]

theorem find?_filter_same {α : Type} {k : Nat} (l : List (Nat × α)) :
    (l.filter fun c => c.1 != k).find? (fun c => c.1 == k) = none := by
  rw [List.find?_filter, List.find?_eq_none]
  intro c _
  by_cases e : c.1 = k <;> simp [e]

theorem setDevReg_regs (s : State) (off : Nat) (v : Word) : (setDevReg s off v).dev.regs =
    if v = regReset off then s.dev.regs.filter (fun c => c.1 != off)
    else insertKey off v (s.dev.regs.filter fun c => c.1 != off) := rfl

/-- A write of a register changes what that register reads, and no other. -/
theorem devReg_setDevReg (s : State) (off : Nat) (v : Word) (o : Nat) :
    devReg (setDevReg s off v) o = if o = off then v else devReg s o := by
  have absent : ∀ c ∈ s.dev.regs.filter (fun c => c.1 != off), c.1 ≠ off := fun c hc => by
    simpa using (List.mem_filter.mp hc).2
  unfold devReg
  rw [setDevReg_regs]
  by_cases e : o = off
  · subst e
    rw [if_pos rfl]
    split
    · next z => rw [find?_filter_same, z]; rfl
    · rw [find?_insertKey o absent, if_pos rfl]; rfl
  · rw [if_neg e]
    split
    · rw [find?_filter_other e]
    · rw [find?_insertKey o absent, if_neg e, find?_filter_other e]

@[simp] theorem devReg_setDevReg_same (s : State) (off : Nat) (v : Word) : devReg (setDevReg s off v) off = v := by
  rw [devReg_setDevReg, if_pos rfl]

/-- Writing back what a register holds changes no register. -/
theorem devReg_setDevReg_self (s : State) (off o : Nat) : devReg (setDevReg s off (devReg s off)) o = devReg s o := by
  rw [devReg_setDevReg]
  split
  · next e => rw [e]
  · rfl

@[simp] theorem setDevReg_spare (s : State) (off : Nat) (v : Word) : (setDevReg s off v).spare = s.spare := rfl

/-! ### Who writes (01 R10) -/

theorem writeReg_owner (h8 : off % 8 = 0) (ho : regOwner s.bed off = some by_) : writeReg s off v by_ = writeOwned s off v := by
  simp [writeReg, h8, ho]

theorem writeReg_foreign {a : RegAgent} (ho : regOwner s.bed off = some a) (hb : by_ ≠ a) : writeReg s off v by_ = s := by
  have : (some a == some by_) = false := by simpa using Ne.symm hb
  simp [writeReg, ho, this]

/-- The owner of a range of registers that lies in one of the tables below. -/
theorem regOwner_interleave (b : Bedrock) (lo : 0x10000 ≤ off) (hi : off < 0x10400) : regOwner b off = some .survey := by
  simp [regOwner, lo, hi]

theorem regOwner_remap (lo : 0x20000 ≤ off) (hi : off < 0x20080) : regOwner s.bed off = some (ownerOf s 5) := by
  unfold regOwner
  simp only [Bool.or_eq_true, Bool.and_eq_true, decide_eq_true_eq]
  rw [if_neg (by omega), if_pos ⟨lo, hi⟩]
  rfl

theorem regOwner_route (lo : 0x40000 ≤ off) (hi : off < 0x40200) : regOwner s.bed off = some (ownerOf s 4) := by
  unfold regOwner
  simp only [Bool.or_eq_true, Bool.and_eq_true, decide_eq_true_eq]
  rw [if_neg (by omega), if_neg (by omega), if_pos (.inl ⟨lo, hi⟩)]
  rfl

theorem regOwner_collective (lo : 0x70000 ≤ off) (hi : off < 0x71000) : regOwner s.bed off = some (ownerOf s 4) := by
  unfold regOwner
  simp only [Bool.or_eq_true, Bool.and_eq_true, decide_eq_true_eq]
  rw [if_neg (by omega), if_neg (by omega), if_pos (.inr ⟨lo, hi⟩)]
  rfl

theorem regOwner_shootdown (lo : 0x60000 ≤ off) (hi : off < 0x60040) : regOwner s.bed off = some (ownerOf s 0) := by
  unfold regOwner
  simp only [Bool.or_eq_true, Bool.and_eq_true, decide_eq_true_eq]
  rw [if_neg (by omega), if_neg (by omega), if_neg (by omega), if_pos ⟨lo, hi⟩]
  rfl

/-! ### Live links and lost destinations (01 R29, R31) -/

theorem mem_liveLinks {links : BitVec 16} {k : Nat} :
    k ∈ liveLinks s links ↔ ∃ h : k < 16, links.getLsbD k = true ∧ (s.dev.links[k]'h).live = true := by
  simp only [liveLinks, List.mem_filter, List.mem_range, Bool.and_eq_true]
  constructor
  · rintro ⟨hk, hl, hv⟩
    exact ⟨hk, hl, by simpa [hk] using hv⟩
  · rintro ⟨hk, hl, hv⟩
    exact ⟨hk, hl, by simpa [hk] using hv⟩

theorem liveLinks_eq_nil {links : BitVec 16} : liveLinks s links = [] ↔ noneLive s links := by
  rw [List.eq_nil_iff_forall_not_mem]
  constructor
  · intro h k hk
    exact Bool.eq_false_iff.mpr fun hv => h k.val (mem_liveLinks.mpr ⟨k.isLt, hk, hv⟩)
  · intro h k hk
    obtain ⟨hlt, hl, hv⟩ := mem_liveLinks.mp hk
    have := h ⟨k, hlt⟩ hl
    exact Bool.eq_false_iff.mp this hv

theorem cutOff_iff {d : Nat} : cutOff s d = true ↔ linkless s d := by
  have hz : ∀ w : Word, routeLinks w ≠ 0 ↔ w.toNat % 2 ^ 16 ≠ 0 := fun w => by
    rw [routeLinks, ne_eq, ← BitVec.toNat_inj, BitVec.extractLsb'_toNat]
    simp
  simp only [cutOff, routeOn, Bool.and_eq_true, bne_iff_ne, hz, List.isEmpty_iff, liveLinks_eq_nil, and_assoc]
  rfl

/-- What remains lost: the destinations that still have no live link. -/
theorem mem_filter_cutOff {d : Nat} {l : List Nat} : d ∈ l.filter (cutOff s) ↔ d ∈ l ∧ linkless s d := by
  rw [List.mem_filter, cutOff_iff]

/-! ### Routes, interleave descriptors, collective headers -/

theorem exec_registerWrite (hp : Powered s) {r : BitVec 20} (h : 0x4000 ≤ r.toNat) :
    exec (.registerWrite r v by_) s = .next (writeReg s r.toNat v by_) := by
  change execRegisterWrite r v by_ s = _
  rw [execRegisterWrite, event_next (powered_of hp), if_neg (Nat.not_lt.mpr h)]

theorem writeOwned_route (lo : 0x40000 ≤ off) (hi : off < 0x50000) :
    writeOwned s off v = regainRoutes (setDevReg s off (v &&& 0x1FFFF#64)) := by
  unfold writeOwned
  rw [if_neg (by omega), if_neg (by omega), if_neg (by omega), if_pos hi]

theorem exec_interleaveDescriptorWrite (hp : Powered s) (n : BitVec 6) (word1 : Bool) :
    exec (.interleaveDescriptorWrite n word1 v by_) s =
      .next (if by_ = .survey then writeInterleave s (0x10000 + 16 * n.toNat + (if word1 then 8 else 0)) v else s) := by
  have hn : n.toNat < 64 := n.isLt
  have hw : (if word1 = true then 8 else 0) ≤ 8 ∧ (if word1 = true then 8 else 0) % 8 = 0 := by cases word1 <;> simp
  obtain ⟨hw8, hw0⟩ := hw
  have owner := regOwner_interleave (off := 0x10000 + 16 * n.toNat + (if word1 then 8 else 0)) s.bed (by omega) (by omega)
  change execInterleaveDescriptorWrite n word1 v by_ s = _
  rw [execInterleaveDescriptorWrite, event_next (powered_of hp)]
  by_cases e : by_ = .survey
  · subst e
    rw [writeReg_owner (by omega) owner, writeOwned, if_pos (by omega), if_pos rfl]
  · rw [writeReg_foreign owner e, if_neg e]

theorem ilEn_mask (v : Word) : ilEn (v &&& ilMask0) = v.getLsbD 63 := by
  simp [ilEn, ilMask0]

section Interleave

variable {n : Nat}

theorem writeInterleave_word1 : writeInterleave s (0x10000 + 16 * n + 8) v =
    if ilEn (devReg s (0x10000 + 16 * n)) then s else setDevReg s (0x10000 + 16 * n + 8) (v &&& ilMask1) := by
  have e : (0x10000 + 16 * n + 8) / 16 * 16 = 0x10000 + 16 * n := by omega
  unfold writeInterleave
  simp only [e]
  rw [if_pos (by omega)]

theorem writeInterleave_word0 : writeInterleave s (0x10000 + 16 * n) v =
    if v.getLsbD 63 then
      if ilEn (devReg s (0x10000 + 16 * n)) then s
      else setDevReg s (0x10000 + 16 * n) (if ilValid (v &&& ilMask0) (devReg s (0x10000 + 16 * n + 8)) then v &&& ilMask0
        else v &&& ilMask0 &&& 0x7FFFFFFFFFFFFFFF#64)
    else setDevReg s (0x10000 + 16 * n) (v &&& ilMask0) := by
  have e : (0x10000 + 16 * n) / 16 * 16 = 0x10000 + 16 * n := by omega
  unfold writeInterleave
  simp only [e]
  rw [if_neg (by omega), ilEn_mask]
  rfl

end Interleave

/-- END is written with the header's other fields as they are: the header stays, and the operations end (01 R34). -/
theorem exec_collEnd (hp : Powered s) (id : BitVec 8) :
    exec (.collEnd id by_) s = .next (if by_ = ownerOf s 4 then
      endAll (setDevReg s (0x70000 + 16 * id.toNat) (devReg s (0x70000 + 16 * id.toNat) &&& 0x8000000000000FFF#64)) id.toNat
      else s) := by
  have hid : id.toNat < 256 := id.isLt
  have owner := regOwner_collective (s := s) (off := 0x70000 + 16 * id.toNat) (by omega) (by omega)
  change execCollEnd id by_ s = _
  rw [execCollEnd, event_next (powered_of hp)]
  simp only
  split
  · next e =>
    subst e
    have hv (w : Word) : (w ||| 0x4000000000000000#64) &&& 0x8000000000000FFF#64 = w &&& 0x8000000000000FFF#64 := by
      rw [BitVec.and_or_distrib_right]
      simp
    have hend (w : Word) : (w ||| 0x4000000000000000#64).getLsbD 62 = true := by simp
    rw [writeReg_owner (by omega) owner, writeOwned, if_neg (by omega), if_neg (by omega), if_neg (by omega),
      if_neg (by omega), if_neg (by omega), if_neg (by omega), writeHeader, if_neg (by omega)]
    simp only [hv, hend, if_true]
    rw [show (0x70000 + 16 * id.toNat - 0x70000) / 16 = id.toNat by omega]
  · next e => rw [writeReg_foreign owner e]

section EndFromOther

variable {id : BitVec 8} {num : Nat}

theorem exec_endFromOtherPackage_known (hp : Powered s) {c : CollOp} (hc : findColl s id.toNat num = some c) :
    exec (.endFromOtherPackage id num) s = .next (if c.ended then s else endColl s c true) := by
  change execEndFromOtherPackage id num s = _
  rw [execEndFromOtherPackage, event_next (powered_of hp), hc]

/-- An operation number not known here becomes an ended record without members (log 93). -/
theorem exec_endFromOtherPackage_unknown (hp : Powered s) (hc : findColl s id.toNat num = none) :
    ∃ t c, exec (.endFromOtherPackage id num) s = .next t ∧ findColl t id.toNat num = some c ∧ c.ended = true ∧
      c.members = [] := by
  let c : CollOp := { id := id.toNat, num := num, route := none, members := [], ended := true, complete := false }
  refine ⟨setColl s c, c, ?_, ?_, rfl, rfl⟩
  · change execEndFromOtherPackage id num s = _
    rw [execEndFromOtherPackage, event_next (powered_of hp), hc]
  · have hn : (findColl s c.id c.num).isSome = false := by rw [show findColl s c.id c.num = none from hc]; rfl
    unfold findColl at hc
    unfold setColl
    rw [hn]
    simp [findColl, hc, c]

end EndFromOther

end Sys2Proof.Machine
end


section
/-! O46, parts: a shootdown performs the pending stores of every hart of its die (07 R147, R148). -/

namespace Sys2Proof.Machine

open Sys2Proof.Claims

variable {s : State} {g h : Nat}

/-! ### Which pending stores stay -/

theorem canGo_iff (w : PWrite) : canGo w ↔ w.open_ = false ∧ w.cutOff = false := by
  simp [canGo, PWrite.cutOff]

theorem marked_cons {α : Type} (b : Bool) (a : α) (l : List α) (m : Bool) (marks : List Bool) :
    marked b (a :: l) (m :: marks) = if m = b then a :: marked b l marks else marked b l marks := by
  by_cases e : m = b <;> simp [marked, e]

/-- A store that cannot go stays. -/
theorem mem_staying {sl : SliceId} {w : PWrite} {buf : List PWrite} (kept : List PWrite) (hw : w ∈ buf) (hs : ¬ canGo w) :
    w ∈ marked true buf (staying sl kept buf) := by
  induction buf generalizing kept with
  | nil => simp at hw
  | cons v buf ih =>
    rw [staying, marked_cons]
    rcases List.mem_cons.mp hw with e | e
    · have hv : (v.open_ || v.cutOff || kept.any fun o => !mayPass sl o v) = true := by
        subst e
        rw [canGo_iff] at hs
        by_cases o : w.open_ = true
        · simp [o]
        · by_cases c : w.cutOff = true
          · simp [c]
          · simp [o, c] at hs
      rw [if_pos hv, e]
      exact List.mem_cons_self ..
    · split
      · exact List.mem_cons_of_mem _ (ih _ e)
      · exact ih _ e

/-- Stores that can all go leave nothing. -/
theorem staying_eq_nil {sl : SliceId} {buf : List PWrite} (hb : ∀ w ∈ buf, canGo w) :
    marked true buf (staying sl [] buf) = [] := by
  induction buf with
  | nil => rfl
  | cons v buf ih =>
    obtain ⟨ho, hc⟩ := (canGo_iff v).mp (hb v (List.mem_cons_self ..))
    rw [staying, marked_cons]
    simp only [ho, hc, List.any_nil, Bool.or_self, Bool.false_eq_true, if_false]
    exact ih fun w hw => hb w (List.mem_cons_of_mem _ hw)

/-! ### Performing a hart's stores -/

/-- A hart once its agent's stores that can go have gone. -/
def Hart.performed (x : Hart) (sl : SliceId) : Hart :=
  x.setBuf sl (marked true (x.buf sl) (staying sl [] (x.buf sl)))

/-- A hart once a shootdown has performed its stores and dropped its walk-ahead data. -/
def Hart.settled (x : Hart) : Hart := ((x.performed .as).performed .cs).dropWalks

theorem foldl_performWrite_frame (ws : List PWrite) (s : State) :
    (ws.foldl performWrite s).gangs = s.gangs ∧ (ws.foldl performWrite s).tlb = s.tlb := by
  induction ws generalizing s with
  | nil => exact ⟨rfl, rfl⟩
  | cons w ws ih =>
    rw [List.foldl_cons]
    exact ih (performWrite s w)

@[simp] theorem drainBuf_tlb (s : State) (g h : Nat) (sl : SliceId) : (drainBuf s g h sl).tlb = s.tlb := by
  unfold drainBuf
  split
  · rfl
  · rw [mapHart_tlb]
    exact (foldl_performWrite_frame _ s).2

theorem findHart_of_gangs {t : State} (e : t.gangs = s.gangs) : findHart t g h = findHart s g h := by
  unfold findHart findGang
  rw [e]

theorem findHart_drainBuf_same (sl : SliceId) :
    findHart (drainBuf s g h sl) g h = (findHart s g h).map fun x => x.performed sl := by
  unfold drainBuf
  split
  · next e => rw [e]; rfl
  · next x e =>
    rw [findHart_mapHart_same, findHart_of_gangs (foldl_performWrite_frame _ s).1, e]
    rfl

theorem findHart_drainBuf_other {g' h' : Nat} (sl : SliceId) (ne : ¬ (g' = g ∧ h' = h)) :
    findHart (drainBuf s g h sl) g' h' = findHart s g' h' := by
  unfold drainBuf
  split
  · rfl
  · rw [findHart_mapHart_other _ ne, findHart_of_gangs (foldl_performWrite_frame _ s).1]

/-- What a shootdown does to one hart of its die. -/
def settleAt (s : State) (p : Nat × Nat) : State :=
  mapHart (drainBuf (drainBuf s p.1 p.2 .as) p.1 p.2 .cs) p.1 p.2 Hart.dropWalks

theorem findHart_settleAt (s : State) (p : Nat × Nat) :
    findHart (settleAt s p) g h = if p = (g, h) then (findHart s g h).map Hart.settled else findHart s g h := by
  unfold settleAt
  split
  · next e =>
    subst e
    rw [findHart_mapHart_same, findHart_drainBuf_same, findHart_drainBuf_same]
    simp only [Option.map_map]
    rfl
  · next e =>
    have ne : ¬ (g = p.1 ∧ h = p.2) := fun ⟨hg, hh⟩ => e (by rw [hg, hh])
    rw [findHart_mapHart_other _ ne, findHart_drainBuf_other _ ne, findHart_drainBuf_other _ ne]

/-- A hart is settled as often as it is listed. -/
theorem findHart_settleAll (l : List (Nat × Nat)) (s : State) :
    findHart (l.foldl settleAt s) g h = (findHart s g h).map Hart.settled^[l.count (g, h)] := by
  induction l generalizing s with
  | nil => simp
  | cons p l ih =>
    rw [List.foldl_cons, ih, findHart_settleAt, List.count_cons]
    by_cases e : p = (g, h)
    · simp [e, Function.iterate_succ, Option.map_map]
    · simp [e]

@[simp] theorem settleAll_tlb (l : List (Nat × Nat)) (s : State) : (l.foldl settleAt s).tlb = s.tlb := by
  induction l generalizing s with
  | nil => rfl
  | cons p l ih =>
    rw [List.foldl_cons, ih, settleAt, mapHart_tlb, drainBuf_tlb, drainBuf_tlb]

/-! ### What settling leaves of a hart -/

/-- Some pending store of the hart cannot go. -/
def Hart.stuck (x : Hart) : Prop := ∃ y ∈ x.abuf ++ x.cbuf, ¬ canGo y

/-- A hart without pending stores and walk-ahead data. -/
def Hart.clear (x : Hart) : Prop := x.abuf = [] ∧ x.cbuf = [] ∧ ∀ k : Fin 16, (x.s[k]).walk = []

theorem Hart.settled_abuf (x : Hart) : x.settled.abuf = marked true x.abuf (staying .as [] x.abuf) := rfl
theorem Hart.settled_cbuf (x : Hart) : x.settled.cbuf = marked true x.cbuf (staying .cs [] x.cbuf) := rfl

theorem Hart.stuck_settled {x : Hart} (hx : x.stuck) : x.settled.stuck := by
  obtain ⟨y, hy, hs⟩ := hx
  refine ⟨y, ?_, hs⟩
  rw [List.mem_append, x.settled_abuf, x.settled_cbuf]
  exact (List.mem_append.mp hy).imp (fun ha => mem_staying [] ha hs) (fun hc => mem_staying [] hc hs)

theorem Hart.clear_settled {x : Hart} (hx : ¬ x.stuck) : x.settled.clear := by
  have go : ∀ y ∈ x.abuf ++ x.cbuf, canGo y := fun y hy => not_not.mp fun hs => hx ⟨y, hy, hs⟩
  refine ⟨?_, ?_, fun k => ?_⟩
  · exact x.settled_abuf.trans (staying_eq_nil fun y hy => go y (List.mem_append_left _ hy))
  · exact x.settled_cbuf.trans (staying_eq_nil fun y hy => go y (List.mem_append_right _ hy))
  · simp [Hart.settled, Hart.dropWalks]

theorem Hart.not_stuck_of_clear {x : Hart} (hx : x.clear) : ¬ x.stuck := by
  obtain ⟨ha, hc, -⟩ := hx
  rintro ⟨y, hy, -⟩
  simp [ha, hc] at hy

theorem Hart.stuck_iterate {x : Hart} (hx : x.stuck) (n : Nat) : (Hart.settled^[n] x).stuck := by
  induction n with
  | zero => exact hx
  | succ n ih =>
    rw [Function.iterate_succ_apply']
    exact stuck_settled ih

theorem Hart.clear_iterate {x : Hart} (hx : ¬ x.stuck) {n : Nat} (hn : 0 < n) : (Hart.settled^[n] x).clear := by
  induction n with
  | zero => omega
  | succ n ih =>
    rw [Function.iterate_succ_apply']
    rcases Nat.eq_zero_or_pos n with e | e
    · subst e
      exact clear_settled hx
    · exact clear_settled (not_stuck_of_clear (ih e))

theorem Hart.stuck_holds {x : Hart} (hx : x.stuck) : (!x.abuf.isEmpty || !x.cbuf.isEmpty) = true := by
  obtain ⟨y, hy, -⟩ := hx
  rcases List.mem_append.mp hy with ha | hc
  · simp [List.ne_nil_of_mem ha]
  · simp [List.ne_nil_of_mem hc]

theorem Hart.clear_holds {x : Hart} (hx : x.clear) : (!x.abuf.isEmpty || !x.cbuf.isEmpty) = false := by
  obtain ⟨ha, hc, -⟩ := hx
  simp [ha, hc]

/-! ### `SHOOTDOWN_GO` and `SHOOTDOWN_DONE` -/

variable {die : BitVec 3} {by_ : RegAgent} {v : Word}

theorem exec_shootdownGo (hp : Powered s) : exec (.shootdownGo die v by_) s =
    .next (if by_ = ownerOf s 0 then setDevReg s (0x60000 + 8 * die.toNat)
      (if (devReg s (0x60000 + 8 * die.toNat)).getLsbD 63 then devReg s (0x60000 + 8 * die.toNat)
       else (v &&& 0x387FFFFFFFFFFFFF#64) ||| 0x8000000000000000#64) else s) := by
  have hd : die.toNat < 8 := die.isLt
  have owner := regOwner_shootdown (s := s) (off := 0x60000 + 8 * die.toNat) (by omega) (by omega)
  have hgo : (v ||| 0x8000000000000000#64).getLsbD 63 = true := by simp
  have hv : (v ||| 0x8000000000000000#64) &&& 0x387FFFFFFFFFFFFF#64 = v &&& 0x387FFFFFFFFFFFFF#64 := by
    rw [BitVec.and_or_distrib_right]
    simp
  change execShootdownGo die v by_ s = _
  rw [execShootdownGo, event_next (powered_of hp), shootOff]
  by_cases e : by_ = ownerOf s 0
  · rw [if_pos e, e, writeReg_owner (by omega) owner, writeOwned, if_neg (by omega), if_neg (by omega), if_neg (by omega),
      if_neg (by omega), if_neg (by omega), if_pos (by omega), shootAfter]
    simp only [hgo, hv, if_true]
  · rw [if_neg e, writeReg_foreign owner e]

/-- The harts that a shootdown of a die meets, with the translations of its range dropped. -/
def shotDown (s : State) (die : Nat) (w : Word) : State :=
  (hartsOfDie s die).foldl settleAt { s with tlb := s.tlb.filter fun e => !e.dropped die w }

theorem exec_shootdownDone (hp : Powered s) :
    let w := devReg s (0x60000 + 8 * die.toNat)
    let t := shotDown s die.toNat w
    exec (.shootdownDone die) s = .next (
      if !w.getLsbD 63 || keepsWindow s die.toNat w || s.adds.any (fun a => a.leaf.dropped die.toNat w) then s
      else if (hartsOfDie s die.toNat).any (fun p => ((findHart t p.1 p.2).map fun x =>
          !x.abuf.isEmpty || !x.cbuf.isEmpty).getD false) then s
      else setDevReg t (0x60000 + 8 * die.toNat) ((w &&& 0x3FFFFFFFFFFFFFFF#64) ||| 0x4000000000000000#64)) := by
  change execShootdownDone die s = _
  rw [execShootdownDone, event_next (powered_of hp)]
  rfl

/-- A hart of the die as the shootdown leaves it. -/
theorem findHart_shotDown (s : State) (d : Nat) (w : Word) :
    findHart (shotDown s d w) g h = (findHart s g h).map Hart.settled^[(hartsOfDie s d).count (g, h)] :=
  findHart_settleAll _ _

theorem mem_hartsOfDie {d : Nat} {x : Gang} (hx : findGang s g = some x) (hd : x.die = d) (hh : h < x.harts.length) :
    (g, h) ∈ hartsOfDie s d := by
  have hm : x ∈ s.gangs := List.mem_of_find?_eq_some hx
  refine List.mem_flatMap.mpr ⟨x, hm, ?_⟩
  rw [if_pos hd, findGang_id hx]
  exact List.mem_map.mpr ⟨h, List.mem_range.mpr hh, rfl⟩

/-- Nothing is done while GO is 0, or while an addition or a store is still out. -/
theorem exec_shootdownDone_waits (hp : Powered s)
    (out : let w := devReg s (0x60000 + 8 * die.toNat)
      w.getLsbD 63 = false ∨ (∃ a ∈ s.adds, a.leaf.dropped die.toNat w = true) ∨
        ∃ p ∈ hartsOfDie s die.toNat, ∃ x, findHart s p.1 p.2 = some x ∧ x.stuck) :
    exec (.shootdownDone die) s = .next s := by
  rw [exec_shootdownDone hp]
  congr 1
  rcases out with off | add | ⟨p, hm, x, hx, hs⟩
  · rw [off, if_pos (by simp)]
  · have : s.adds.any (fun a => a.leaf.dropped die.toNat (devReg s (0x60000 + 8 * die.toNat))) = true := by simpa using add
    rw [this, if_pos (by simp)]
  · split
    · rfl
    · rw [if_pos]
      refine List.any_eq_true.mpr ⟨p, hm, ?_⟩
      rw [findHart_shotDown, hx]
      exact Hart.stuck_holds (Hart.stuck_iterate hs _)

/-- A shootdown ends once nothing that used its range is out: the harts of its die have no store left. -/
theorem exec_shootdownDone_ends (hp : Powered s)
    (go : (devReg s (0x60000 + 8 * die.toNat)).getLsbD 63 = true)
    (win : keepsWindow s die.toNat (devReg s (0x60000 + 8 * die.toNat)) = false)
    (adds : ∀ a ∈ s.adds, a.leaf.dropped die.toNat (devReg s (0x60000 + 8 * die.toNat)) = false)
    (free : ∀ p ∈ hartsOfDie s die.toNat, ∀ x, findHart s p.1 p.2 = some x → ¬ x.stuck) :
    let w := devReg s (0x60000 + 8 * die.toNat)
    exec (.shootdownDone die) s = .next (setDevReg (shotDown s die.toNat w) (0x60000 + 8 * die.toNat)
      ((w &&& 0x3FFFFFFFFFFFFFFF#64) ||| 0x4000000000000000#64)) := by
  intro w
  have hadds : s.adds.any (fun a => a.leaf.dropped die.toNat w) = false := by simpa using adds
  have hempty : (hartsOfDie s die.toNat).any (fun p => ((findHart (shotDown s die.toNat w) p.1 p.2).map fun x =>
      !x.abuf.isEmpty || !x.cbuf.isEmpty).getD false) = false := by
    rw [List.any_eq_false]
    intro p hm
    rw [findHart_shotDown]
    cases hx : findHart s p.1 p.2 with
    | none => simp
    | some x =>
      have := Hart.clear_holds (Hart.clear_iterate (free p hm x hx) (List.count_pos_iff.mpr hm))
      simpa using this
  rw [exec_shootdownDone hp]
  simp only [w] at hadds hempty
  rw [go, win, hadds, if_neg (by simp), hempty, if_neg (by simp)]

end Sys2Proof.Machine
end


section
/-! O46, parts: the layer-remap register of a stack (01 R13 to R16) and a channel's queue (01 R22 to R25). -/

namespace Sys2Proof.Machine

open Sys2Proof.Claims

variable {s : State}

/-! ### Fields of a layer-remap register (01 R13) -/

section Fields

variable {state layer prog : Nat} (done fault : Bool)

/-- The number that the fields make, which fits in a register. -/
theorem mkRemap_toNat (hs : state < 4) (hl : layer < 16) (hp : prog < 65536) :
    (mkRemap state layer prog done fault).toNat =
      state * 2 ^ 62 + layer * 2 ^ 56 + prog * 2 ^ 32 + done.toNat * 2 + fault.toNat := by
  have hd := done.toNat_le
  have hf := fault.toNat_le
  rw [mkRemap, BitVec.toNat_ofNat]
  exact Nat.mod_eq_of_lt (by omega)

variable (hs : state < 4) (hl : layer < 16) (hp : prog < 65536)
include hs hl hp

theorem rmState_mkRemap : rmState (mkRemap state layer prog done fault) = state := by
  have hd := done.toNat_le
  have hf := fault.toNat_le
  rw [rmState, bitsOf_eq, mkRemap_toNat done fault hs hl hp]
  omega

theorem rmLayer_mkRemap : rmLayer (mkRemap state layer prog done fault) = layer := by
  have hd := done.toNat_le
  have hf := fault.toNat_le
  rw [rmLayer, bitsOf_eq, mkRemap_toNat done fault hs hl hp]
  omega

theorem rmFault_mkRemap : rmFault (mkRemap state layer prog done fault) = fault := by
  have hd := done.toNat_le
  rw [rmFault, BitVec.getLsbD, mkRemap_toNat done fault hs hl hp, Nat.testBit_zero]
  cases fault <;> simp <;> omega

end Fields

theorem rmState_lt (w : Word) : rmState w < 4 := bitsOf_lt ..
theorem rmLayer_lt (w : Word) : rmLayer w < 16 := bitsOf_lt ..
theorem rmProg_lt (w : Word) : rmProg w < 65536 := bitsOf_lt ..

/-! ### What a write makes of the register (01 R14) -/

section After

variable {w : Word} {layer : Nat} {clears : Bool}

theorem remapAfter_start (h : rmState w = 0) (hl : layer < 16) :
    remapAfter w (mkRemap 1 layer 0 false false) = (mkRemap 1 layer 0 false (rmFault w), false) := by
  simp only [remapAfter, h, rmState_mkRemap false false (show 1 < 4 by omega) hl (show 0 < 65536 by omega),
    rmLayer_mkRemap false false (show 1 < 4 by omega) hl (show 0 < 65536 by omega),
    rmFault_mkRemap false false (show 1 < 4 by omega) hl (show 0 < 65536 by omega), Bool.not_false, Bool.and_true]

theorem remapAfter_abandon (h : rmState w = 1) (hl : layer < 16) :
    remapAfter w (mkRemap 0 layer 0 false false) = (mkRemap 0 (rmLayer w) 0 false (rmFault w), false) := by
  simp only [remapAfter, h, rmState_mkRemap false false (show 0 < 4 by omega) hl (show 0 < 65536 by omega),
    rmFault_mkRemap false false (show 0 < 4 by omega) hl (show 0 < 65536 by omega), Bool.not_false, Bool.and_true]

theorem remapAfter_switch (h : rmState w = 1) (hl : layer < 16) :
    remapAfter w (mkRemap 2 layer 0 false false) =
      if rmDone w then (mkRemap 2 (rmLayer w) (rmProg w) true (rmFault w), true) else (w, false) := by
  simp only [remapAfter, h, rmState_mkRemap false false (show 2 < 4 by omega) hl (show 0 < 65536 by omega),
    rmFault_mkRemap false false (show 2 < 4 by omega) hl (show 0 < 65536 by omega), Bool.not_false, Bool.and_true]

/-- FAULT is cleared with the state and the layer as they are. -/
theorem remapAfter_faultClear (h : rmState w = 0 ∨ rmState w = 1) :
    remapAfter w (mkRemap (rmState w) (rmLayer w) 0 false true) =
      (mkRemap (rmState w) (rmLayer w) (rmProg w) (rmDone w) false, false) := by
  rcases h with h | h <;>
  simp only [remapAfter, h, rmState_mkRemap false true (show 0 < 4 by omega) (rmLayer_lt w) (show 0 < 65536 by omega),
    rmState_mkRemap false true (show 1 < 4 by omega) (rmLayer_lt w) (show 0 < 65536 by omega),
    rmLayer_mkRemap false true (show 0 < 4 by omega) (rmLayer_lt w) (show 0 < 65536 by omega),
    rmFault_mkRemap false true (show 0 < 4 by omega) (rmLayer_lt w) (show 0 < 65536 by omega),
    rmFault_mkRemap false true (show 1 < 4 by omega) (rmLayer_lt w) (show 0 < 65536 by omega), Bool.not_true, Bool.and_false]

/-- A stack that is switching takes no write. -/
theorem remapAfter_switching (h : rmState w = 2) (v : Word) : remapAfter w v = (w, false) := by
  simp [remapAfter, h]

end After

/-! ### Marks that move with a layer (01 R15, R16) -/

theorem mem_insertRising {x y : Nat} {l : List Nat} : y ∈ insertRising x l ↔ y = x ∨ y ∈ l := by
  induction l with
  | nil => simp [insertRising]
  | cons z l ih =>
    unfold insertRising
    split
    · simp
    · split
      · next e => simp [e]
      · simp only [List.mem_cons, ih]
        tauto

theorem mem_foldr_insertRising {y : Nat} {l m : List Nat} : y ∈ l.foldr insertRising m ↔ y ∈ l ∨ y ∈ m := by
  induction l with
  | nil => simp
  | cons z l ih => simp [mem_insertRising, ih, or_assoc]

/-- The marks of one list where a test holds, and of another elsewhere. -/
theorem mem_movedMarks {here : Nat → Bool} {l m : List Nat} {u : Nat} :
    u ∈ (l.filter here).foldr insertRising (m.filter fun u => !here u) ↔ if here u = true then u ∈ l else u ∈ m := by
  rw [mem_foldr_insertRising]
  by_cases h : here u = true <;> simp [List.mem_filter, h]

theorem mem_copyMarks_spare {stack layer blk u : Nat} : u ∈ (copyMarks s stack layer blk).spare ↔
    if inLayerBlock stack layer blk u = true then u ∈ s.poison else u ∈ s.spare :=
  mem_movedMarks (here := inLayerBlock stack layer blk)

/-! ### Writes of a stack's register -/

section Remap

variable {stack : BitVec 4} {by_ : RegAgent} {v : Word}

theorem remap_owner (stack : BitVec 4) : regOwner s.bed (0x20000 + 8 * stack.toNat) = some (ownerOf s 5) :=
  have h : stack.toNat < 16 := stack.isLt
  regOwner_remap (by omega) (by omega)

/-- The owner's write of a stack's register. -/
theorem writeReg_remap : writeReg s (0x20000 + 8 * stack.toNat) v (ownerOf s 5) =
    writeRemap s (0x20000 + 8 * stack.toNat) v := by
  have h : stack.toNat < 16 := stack.isLt
  rw [writeReg_owner (by omega) (remap_owner stack), writeOwned, if_neg (by omega), if_pos (by omega)]

/-- A write that begins no switch: the marks of the spare layer go where its copy begins again or is abandoned. -/
theorem writeRemap_stays {w' : Word} (h : remapAfter (devReg s (0x20000 + 8 * stack.toNat)) v = (w', false)) :
    writeRemap s (0x20000 + 8 * stack.toNat) v =
      if rmState (devReg s (0x20000 + 8 * stack.toNat)) = 0 ∧ rmState w' = 1 ∨
          rmState (devReg s (0x20000 + 8 * stack.toNat)) = 1 ∧ rmState w' = 0
      then { setDevReg s (0x20000 + 8 * stack.toNat) w' with spare := s.spare.filter fun u => !inStack stack.toNat u }
      else setDevReg s (0x20000 + 8 * stack.toNat) w' := by
  have e : (0x20000 + 8 * stack.toNat - 0x20000) / 8 = stack.toNat := by omega
  unfold writeRemap
  simp only [h, e, Bool.or_eq_true, Bool.and_eq_true, decide_eq_true_eq, Bool.false_eq_true, if_false]
  rfl

/-- A write that begins a switch: the stack is among those that switch, and its spare layer's marks take the layer's place. -/
theorem writeRemap_switches {w' : Word} (h : remapAfter (devReg s (0x20000 + 8 * stack.toNat)) v = (w', true))
    (hs : rmState (devReg s (0x20000 + 8 * stack.toNat)) = 1) (hw : rmState w' = 2) :
    let t := writeRemap s (0x20000 + 8 * stack.toNat) v
    devReg t (0x20000 + 8 * stack.toNat) = w' ∧ stack.toNat ∈ t.dev.switching ∧ t.mem = s.mem ∧
      ∀ u, u ∈ t.poison ↔ if inLayer stack.toNat (rmLayer w') u = true then u ∈ s.spare else u ∈ s.poison := by
  have e : writeRemap s (0x20000 + 8 * stack.toNat) v =
      switchMarks { setDevReg s (0x20000 + 8 * stack.toNat) w' with
        dev := { (setDevReg s (0x20000 + 8 * stack.toNat) w').dev with
          switching := insertRising stack.toNat s.dev.switching } } stack.toNat (rmLayer w') := by
    unfold writeRemap
    simp [h, hs, hw]
    rfl
  intro t
  simp only [t, e]
  exact ⟨devReg_setDevReg_same s _ w', mem_insertRising.mpr (.inl rfl), rfl, fun u => mem_movedMarks⟩

/-- A write that the register's state does not admit changes no register. -/
theorem writeRemap_ignored (h : remapAfter (devReg s (0x20000 + 8 * stack.toNat)) v = (devReg s (0x20000 + 8 * stack.toNat), false))
    (o : Nat) : devReg (writeRemap s (0x20000 + 8 * stack.toNat) v) o = devReg s o := by
  rw [writeRemap_stays h]
  split <;> exact devReg_setDevReg_self s _ o

variable (hp : Powered s)
include hp

theorem exec_remapStartCopy (layer : BitVec 4) : exec (.remapStartCopy stack layer (ownerOf s 5)) s =
    .next (writeRemap s (0x20000 + 8 * stack.toNat) (mkRemap 1 layer.toNat 0 false false)) := by
  change execRemapStartCopy stack layer (ownerOf s 5) s = _
  rw [execRemapStartCopy, event_next (powered_of hp), remapOff, writeReg_remap]

theorem exec_remapAbandon : exec (.remapAbandon stack (ownerOf s 5)) s =
    .next (writeRemap s (0x20000 + 8 * stack.toNat)
      (mkRemap 0 (rmLayer (devReg s (0x20000 + 8 * stack.toNat))) 0 false false)) := by
  change execRemapAbandon stack (ownerOf s 5) s = _
  rw [execRemapAbandon, event_next (powered_of hp), remapOff, writeReg_remap]

theorem exec_remapSwitch : exec (.remapSwitch stack (ownerOf s 5)) s =
    .next (writeRemap s (0x20000 + 8 * stack.toNat)
      (mkRemap 2 (rmLayer (devReg s (0x20000 + 8 * stack.toNat))) 0 false false)) := by
  change execRemapSwitch stack (ownerOf s 5) s = _
  rw [execRemapSwitch, event_next (powered_of hp), remapOff, writeReg_remap]

theorem exec_remapFaultClear : exec (.remapFaultClear stack (ownerOf s 5)) s =
    .next (writeRemap s (0x20000 + 8 * stack.toNat)
      (mkRemap (rmState (devReg s (0x20000 + 8 * stack.toNat))) (rmLayer (devReg s (0x20000 + 8 * stack.toNat))) 0 false true)) := by
  change execRemapFaultClear stack (ownerOf s 5) s = _
  rw [execRemapFaultClear, event_next (powered_of hp), remapOff]
  simp only [writeReg_remap]

/-- A stack that switches ignores every write of its register. -/
theorem exec_remap_switching (h : rmState (devReg s (0x20000 + 8 * stack.toNat)) = 2) (layer : BitVec 4) :
    ∀ i ∈ [Instr.remapStartCopy stack layer (ownerOf s 5), .remapAbandon stack (ownerOf s 5), .remapSwitch stack (ownerOf s 5),
        .remapFaultClear stack (ownerOf s 5)], ∃ t, exec i s = .next t ∧ ∀ o, devReg t o = devReg s o := by
  have kept (v : Word) := writeRemap_ignored (s := s) (stack := stack) (remapAfter_switching h v)
  intro i hi
  simp only [List.mem_cons, List.not_mem_nil, or_false] at hi
  rcases hi with rfl | rfl | rfl | rfl
  · exact ⟨_, exec_remapStartCopy hp layer, kept _⟩
  · exact ⟨_, exec_remapAbandon hp, kept _⟩
  · exact ⟨_, exec_remapSwitch hp, kept _⟩
  · exact ⟨_, exec_remapFaultClear hp, kept _⟩

theorem exec_remapStartCopy_idle (h : rmState (devReg s (0x20000 + 8 * stack.toNat)) = 0) (layer : BitVec 4) :
    exec (.remapStartCopy stack layer (ownerOf s 5)) s =
      .next { setDevReg s (0x20000 + 8 * stack.toNat)
          (mkRemap 1 layer.toNat 0 false (rmFault (devReg s (0x20000 + 8 * stack.toNat)))) with
        spare := s.spare.filter fun u => !inStack stack.toNat u } := by
  rw [exec_remapStartCopy hp, writeRemap_stays (remapAfter_start h layer.isLt), if_pos]
  exact .inl ⟨h, rmState_mkRemap _ _ (by omega) layer.isLt (by omega)⟩

theorem exec_remapFaultClear_steady (h : rmState (devReg s (0x20000 + 8 * stack.toNat)) = 0 ∨
      rmState (devReg s (0x20000 + 8 * stack.toNat)) = 1) :
    let w := devReg s (0x20000 + 8 * stack.toNat)
    exec (.remapFaultClear stack (ownerOf s 5)) s =
      .next (setDevReg s (0x20000 + 8 * stack.toNat) (mkRemap (rmState w) (rmLayer w) (rmProg w) (rmDone w) false)) := by
  intro w
  have e := rmState_mkRemap (rmDone w) false (rmState_lt w) (rmLayer_lt w) (rmProg_lt w)
  rw [exec_remapFaultClear hp, writeRemap_stays (remapAfter_faultClear h), if_neg]
  rw [e]
  rintro (⟨h0, h1⟩ | ⟨h1, h0⟩) <;> exact absurd (h0.symm.trans h1) (by decide)

theorem exec_remapAbandon_copying (h : rmState (devReg s (0x20000 + 8 * stack.toNat)) = 1) :
    let w := devReg s (0x20000 + 8 * stack.toNat)
    exec (.remapAbandon stack (ownerOf s 5)) s =
      .next { setDevReg s (0x20000 + 8 * stack.toNat) (mkRemap 0 (rmLayer w) 0 false (rmFault w)) with
        spare := s.spare.filter fun u => !inStack stack.toNat u } := by
  intro w
  rw [exec_remapAbandon hp, writeRemap_stays (remapAfter_abandon h (rmLayer_lt w)), if_pos]
  exact .inr ⟨h, rmState_mkRemap _ _ (by omega) (rmLayer_lt w) (by omega)⟩

/-- A switch begins once the copy is done: the spare layer's marks take the place of the layer's. -/
theorem exec_remapSwitch_done (h : rmState (devReg s (0x20000 + 8 * stack.toNat)) = 1)
    (hd : rmDone (devReg s (0x20000 + 8 * stack.toNat)) = true) :
    let w := devReg s (0x20000 + 8 * stack.toNat)
    ∃ t, exec (.remapSwitch stack (ownerOf s 5)) s = .next t ∧
      devReg t (0x20000 + 8 * stack.toNat) = mkRemap 2 (rmLayer w) (rmProg w) true (rmFault w) ∧
      stack.toNat ∈ t.dev.switching ∧ t.mem = s.mem ∧
      ∀ u, u ∈ t.poison ↔ if inLayer stack.toNat (rmLayer w) u = true then u ∈ s.spare else u ∈ s.poison := by
  have ha := remapAfter_switch h (rmLayer_lt (devReg s (0x20000 + 8 * stack.toNat)))
  rw [if_pos hd] at ha
  have hw := rmState_mkRemap true (rmFault (devReg s (0x20000 + 8 * stack.toNat))) (show 2 < 4 by omega)
    (rmLayer_lt (devReg s (0x20000 + 8 * stack.toNat))) (rmProg_lt (devReg s (0x20000 + 8 * stack.toNat)))
  have hl := rmLayer_mkRemap true (rmFault (devReg s (0x20000 + 8 * stack.toNat))) (show 2 < 4 by omega)
    (rmLayer_lt (devReg s (0x20000 + 8 * stack.toNat))) (rmProg_lt (devReg s (0x20000 + 8 * stack.toNat)))
  have key := writeRemap_switches ha h hw
  rw [hl] at key
  exact ⟨_, exec_remapSwitch hp, key⟩

theorem exec_remapSwitch_undone (h : rmState (devReg s (0x20000 + 8 * stack.toNat)) = 1)
    (hd : rmDone (devReg s (0x20000 + 8 * stack.toNat)) = false) :
    ∃ t, exec (.remapSwitch stack (ownerOf s 5)) s = .next t ∧ ∀ o, devReg t o = devReg s o := by
  have ha := remapAfter_switch h (rmLayer_lt (devReg s (0x20000 + 8 * stack.toNat)))
  rw [if_neg (by simp [hd])] at ha
  exact ⟨_, exec_remapSwitch hp, writeRemap_ignored ha⟩

/-- A block is copied with its marks; an uncorrectable error in it sets FAULT (01 R15). -/
theorem exec_remapBlockCopied (hs : Serving s) (h : rmState (devReg s (0x20000 + 8 * stack.toNat)) = 1)
    (hd : rmDone (devReg s (0x20000 + 8 * stack.toNat)) = false) :
    let w := devReg s (0x20000 + 8 * stack.toNat)
    let bad := s.poison.any (inLayerBlock stack.toNat (rmLayer w) (rmProg w))
    exec (.remapBlockCopied stack) s =
      .next (setDevReg (copyMarks s stack.toNat (rmLayer w) (rmProg w)) (0x20000 + 8 * stack.toNat)
        (if rmProg w = 65535 then mkRemap 1 (rmLayer w) 65535 true (rmFault w || bad)
         else mkRemap 1 (rmLayer w) (rmProg w + 1) false (rmFault w || bad))) := by
  intro w bad
  have hb : blockCopied w bad = if rmProg w = 65535 then mkRemap 1 (rmLayer w) 65535 true (rmFault w || bad)
      else mkRemap 1 (rmLayer w) (rmProg w + 1) false (rmFault w || bad) := by
    unfold blockCopied
    simp only
    split
    · next e => rw [e]
    · rfl
  change execRemapBlockCopied stack s = _
  rw [execRemapBlockCopied, event_next (powered_of hp), remapOff]
  simp only [holdsRequests_of_serving hs, h, hd, bne_self_eq_false, Bool.or_self, Bool.false_eq_true, if_false]
  rw [← hb]

end Remap

/-! ### A channel's queue (01 R22 to R25) -/

section Channel

variable {chan : BitVec 9} {c : Chan} {k : Nat}

theorem ageCap_eq (s : State) (n : Nat) : ageCap s n = ((devReg s (0x30000 + 8 * n)).toNat % 2 ^ 10 + 1) * 16 := by
  rw [ageCap, bitsOf_eq, Nat.pow_zero, Nat.div_one]

theorem exec_requestCapped (hp : Powered s) (hc : findChan s chan.toNat = c) {r : ChanReq} (hr : c.reqs[k]? = some r) :
    exec (.requestCapped chan k) s = .next (setChan s (if ageCap s chan.toNat ≤ r.age
      then { c with reqs := c.reqs.set k { r with capped := true } } else c)) := by
  have hk := List.getElem?_eq_some_iff.mp hr
  obtain ⟨hlt, hget⟩ := hk
  change execRequestCapped chan k s = _
  rw [execRequestCapped, event_next (powered_of hp), hc]
  simp only [List.modify_eq_set_getElem?, hr, Option.map_eq_map, Option.map_some, Option.getD_some]
  split
  · rfl
  · rw [← hget, List.set_getElem_self]

theorem exec_hintExpiry (hp : Powered s) (hc : findChan s chan.toNat = c) {x : Nat × Nat × Nat} (hx : c.hints[k]? = some x) :
    exec (.hintExpiry chan k) s = .next (if 64 ≤ x.2.2 then setChan s { c with hints := c.hints.eraseIdx k } else s) := by
  change execHintExpiry chan k s = _
  rw [execHintExpiry, event_next (powered_of hp), hc]
  simp only [hx]

theorem exec_stripAheadHint (hc : Clocked s) (bank : BitVec 5) (row : BitVec 16) :
    exec (.stripAheadHint chan bank row) s = .next (
      if s.tlb.any fun e => e.devRow s chan.toNat bank.toNat row.toNat then s
      else hintArrives s chan.toNat bank.toNat row.toNat) := by
  change execStripAheadHint chan bank row s = _
  rw [execStripAheadHint, event_next (clocked_of hc)]

theorem acts_iff {bank : Nat} : c.acts bank = true ↔ (∀ r ∈ c.reqs, r.bank ≠ bank) ∧ ∀ o ∈ c.opened, o.1 ≠ bank := by
  simp [Chan.acts]

/-- A page without DEV has no row that a hint must leave alone. -/
theorem not_devRow {e : TlbEntry} {n bank row : Nat} (h : pteDEV e.pte = false) : e.devRow s n bank row = false := by
  simp [TlbEntry.devRow, h]

/-! ### What issues next -/

theorem nthWhere_all {α : Type} {f : α → Bool} {l : List α} (h : ∀ x ∈ l, f x = true) (k : Nat) (hk : k < l.length) :
    nthWhere f l k = some k := by
  have e : l.zipIdx.filter (fun x => f x.1) = l.zipIdx :=
    List.filter_eq_self.mpr fun x hx => h _ (List.fst_mem_of_mem_zipIdx hx)
  rw [nthWhere, e]
  simp [hk]

theorem pickRequest_head {f : ChanReq → Bool} {r : ChanReq} {more : List ChanReq} (h : f r = true) :
    pickRequest f [] (r :: more) = some 0 := by
  simp [pickRequest, h]

theorem pickRequest_none {f : ChanReq → Bool} {l : List ChanReq} (older : List ChanReq) (h : ∀ r ∈ l, f r = false) :
    pickRequest f older l = none := by
  induction l generalizing older with
  | nil => rfl
  | cons r l ih =>
    rw [pickRequest, h r (List.mem_cons_self ..)]
    exact ih _ fun q hq => h q (List.mem_cons_of_mem _ hq)

theorem pickRequest_second {f : ChanReq → Bool} {r q : ChanReq} {more : List ChanReq} (hr : f r = false) (hq : f q = true)
    (hc : q.commutes r = true) : pickRequest f [] (r :: q :: more) = some 1 := by
  simp [pickRequest, hr, hq, hc]

theorem commutes_of_bank {r q : ChanReq} (hr : r.nbe = false) (hq : q.nbe = false) (hb : r.bank ≠ q.bank) :
    q.commutes r = true := by
  simp [ChanReq.commutes, hr, hq, Ne.symm hb]

/-- A request is late once it is capped or as old as the cap. -/
def ChanReq.late (cap : Nat) (r : ChanReq) : Bool := r.capped || decide (cap ≤ r.age)

/-- A request to the open row of its bank. -/
def Chan.hit (c : Chan) (r : ChanReq) : Bool := c.opened.any fun o => o.1 == r.bank && o.2 == r.row

theorem nextRequest_eq (c : Chan) (cap : Nat) : nextRequest c cap =
    ((pickRequest (ChanReq.late cap) [] c.reqs).or
      (if c.reqs.any (ChanReq.late cap) then (if c.reqs.isEmpty then none else some 0) else none)).or
      ((pickRequest c.hit [] c.reqs).or (if c.reqs.isEmpty then none else some 0)) := rfl

theorem not_late {cap : Nat} {r : ChanReq} (h : r.capped = false ∧ r.age < cap) : r.late cap = false := by
  obtain ⟨hc, ha⟩ := h
  simp [ChanReq.late, hc, ha]

variable {cap : Nat} {r : ChanReq} {more : List ChanReq}

/-- The oldest request issues: where it is late, alone, or to an open row while none is late. -/
theorem nextRequest_oldest (hc : c.reqs = r :: more)
    (h : r.late cap = true ∨ more = [] ∨ (c.hit r = true ∧ ∀ x ∈ c.reqs, x.capped = false ∧ x.age < cap)) :
    nextRequest c cap = some 0 := by
  rw [nextRequest_eq, hc]
  by_cases late : r.late cap = true
  · rw [pickRequest_head late]
    rfl
  · rcases h with h | h | ⟨hit, young⟩
    · exact absurd h late
    · subst h
      by_cases hit : c.hit r = true <;> simp [pickRequest, late, hit]
    · have none_late : ∀ x ∈ r :: more, ChanReq.late cap x = false := fun x hx => not_late (young x (hc ▸ hx))
      have any_late : (r :: more).any (ChanReq.late cap) = false := by simpa using none_late
      rw [pickRequest_none [] none_late, any_late, pickRequest_head hit]
      rfl

/-- While none is late, a request to an open row issues before an older one with which it commutes. -/
theorem nextRequest_second {q : ChanReq} (hc : c.reqs = r :: q :: more) (young : ∀ x ∈ c.reqs, x.capped = false ∧ x.age < cap)
    (miss : c.hit r = false) (hit : c.hit q = true) (comm : q.commutes r = true) : nextRequest c cap = some 1 := by
  have none_late : ∀ x ∈ r :: q :: more, ChanReq.late cap x = false := fun x hx => not_late (young x (hc ▸ hx))
  have any_late : (r :: q :: more).any (ChanReq.late cap) = false := by simpa using none_late
  rw [nextRequest_eq, hc, pickRequest_none [] none_late, any_late, pickRequest_second miss hit comm]
  rfl

theorem nextRequest_empty (hc : c.reqs = []) : nextRequest c cap = none := by
  rw [nextRequest_eq, hc]
  rfl

/-! ### `issue` -/

section Issue

variable {n : Nat} (hn : n / 32 ∉ s.dev.switching) (hc : findChan s n = c)
include hn hc

omit hc in
/-- A channel of a stack that does not switch holds no request back. -/
theorem heldBySwitch_of_steady (r : ChanReq) : (!heldBySwitch s n r) = true := by
  simp [heldBySwitch, hn]

omit hc in
theorem filter_heldBySwitch : c.reqs.filter (fun r => !heldBySwitch s n r) = c.reqs :=
  List.filter_eq_self.mpr fun r _ => heldBySwitch_of_steady hn r

theorem chanIssue_issues {k : Nat} {r : ChanReq} (hk : nextRequest c (ageCap s n) = some k) (hr : c.reqs[k]? = some r) :
    chanIssue s n = setChan s { c with reqs := c.reqs.eraseIdx k, opened := insertKey r.bank r.row c.opened } := by
  have hlt : k < c.reqs.length := (List.getElem?_eq_some_iff.mp hr).1
  have hnth := nthWhere_all (fun r _ => heldBySwitch_of_steady (s := s) hn r) k hlt
  unfold chanIssue
  simp only [hc, filter_heldBySwitch hn, hk, Option.bind_some, hnth, hr]

/-- With no request queued, the oldest hint that may be acted on opens its row. -/
theorem chanIssue_hint {bank row age : Nat} {rest : List (Nat × Nat × Nat)} (hr : c.reqs = [])
    (hh : c.hints = (bank, row, age) :: rest) (en : hintEn s n = true) (young : age < 64)
    (free : ∀ o ∈ c.opened, o.1 ≠ bank) :
    chanIssue s n = setChan s { c with hints := rest, opened := insertKey bank row c.opened } := by
  have acts : Chan.acts { c with hints := rest } bank = true := acts_iff.mpr ⟨by simp [hr], free⟩
  unfold chanIssue
  simp only [hc, filter_heldBySwitch hn, nextRequest_empty hr, Option.bind_none]
  simp only [hh, en, young, acts, decide_true, Bool.and_self, if_true]

end Issue

end Channel

end Sys2Proof.Machine
end


section
/-! O46, parts: the links between packages, and what waits for one (01 R27, R31). -/

namespace Sys2Proof.Machine

open Sys2Proof.Claims

variable {s : State} {g h : Nat} {links : BitVec 16}

/-! ### Every hart changed -/

/-- Every hart of every gang changed. -/
def mapHarts (s : State) (f : Hart → Hart) : State :=
  { s with gangs := s.gangs.map fun g => { g with harts := g.harts.map f } }

theorem findHart_mapHarts (s : State) (f : Hart → Hart) : findHart (mapHarts s f) g h = (findHart s g h).map f := by
  have e : findGang (mapHarts s f) g = (findGang s g).map fun x => { x with harts := x.harts.map f } := by
    unfold findGang mapHarts
    rw [List.find?_map]
    rfl
  unfold findHart
  rw [e]
  cases findGang s g with
  | none => rfl
  | some x => simp

theorem exists_findHart_mapHarts {s : State} {f : Hart → Hart} {y : Hart} (hy : findHart (mapHarts s f) g h = some y) :
    ∃ x, findHart s g h = some x ∧ f x = y := by
  rw [findHart_mapHarts] at hy
  exact Option.map_eq_some_iff.mp hy

/-- Pending stores of a hart changed. -/
def Hart.withStores (x : Hart) (f : List PWrite → List PWrite) : Hart := { x with abuf := f x.abuf, cbuf := f x.cbuf }

/-! ### Requests on live links (01 R30, R31) -/

@[simp] theorem resend_links (p : Hop) : (p.resend s).links = p.links := by
  unfold Hop.resend
  dsimp only
  split <;> rfl

/-- A request that has been sent again travels on a live link of its set. -/
theorem mem_liveLinks_of_resend {p : Hop} {k : Nat} (e : (p.resend s).link = some k) : k ∈ liveLinks s p.links := by
  unfold Hop.resend at e
  dsimp only at e
  split at e
  · next live =>
    rw [e] at live
    simpa using live
  · exact List.mem_of_getElem? e

/-- A request waits only where its set has no live link. -/
theorem liveLinks_eq_nil_of_resend {p : Hop} (e : (p.resend s).link = none) : liveLinks s p.links = [] := by
  unfold Hop.resend at e
  dsimp only at e
  split at e
  · next live => simp [e] at live
  · by_contra ne
    have some := linkFor_isSome (block := p.block) |>.mpr ne
    simp only at e
    simp [e] at some

/-- A pending store whose requests have been sent again. -/
def PWrite.resent (s : State) (w : PWrite) : PWrite := { w with hops := w.hops.map (Hop.resend s) }

theorem onLiveLinks_resent (w : PWrite) : onLiveLinks s (w.resent s) := by
  intro p hp
  obtain ⟨q, -, rfl⟩ := List.mem_map.mp hp
  rw [resend_links]
  split
  · next k e =>
    obtain ⟨hk, hl, hv⟩ := mem_liveLinks.mp (mem_liveLinks_of_resend e)
    exact ⟨⟨k, hk⟩, rfl, hl, hv⟩
  · next e => exact liveLinks_eq_nil.mp (liveLinks_eq_nil_of_resend e)

theorem onLiveLinks_of_links {t : State} (e : t.dev.links = s.dev.links) {w : PWrite} (hw : onLiveLinks s w) :
    onLiveLinks t w := by
  unfold onLiveLinks noneLive at hw ⊢
  simpa only [e] using hw

theorem resendAll_eq (s : State) : resendAll s = mapHarts s fun x => x.withStores (List.map (PWrite.resent s)) := rfl

/-- After a change of links every pending store travels on links that are live now. -/
theorem resendAll_onLiveLinks {y : Hart} (hy : findHart (resendAll s) g h = some y) :
    ∀ w ∈ y.abuf ++ y.cbuf, onLiveLinks s w := by
  rw [resendAll_eq] at hy
  obtain ⟨x, -, rfl⟩ := exists_findHart_mapHarts hy
  intro w hw
  rw [Hart.withStores, ← List.map_append] at hw
  obtain ⟨v, -, rfl⟩ := List.mem_map.mp hw
  exact onLiveLinks_resent v

theorem resendAll_cells {x : Hart} (hx : findHart s g h = some x) : ∃ y, findHart (resendAll s) g h = some y ∧
    y.abuf.map (·.cells) = x.abuf.map (·.cells) ∧ y.cbuf.map (·.cells) = x.cbuf.map (·.cells) := by
  rw [resendAll_eq, findHart_mapHarts, hx]
  refine ⟨_, rfl, ?_, ?_⟩ <;> simp [Hart.withStores, PWrite.resent, Function.comp_def]

/-! ### What waits for a link looks again -/

/-- Both slices of a hart look again. -/
def Hart.relinked (x : Hart) : Hart := { x with as_ := x.as_.relink, cs := x.cs.relink }

theorem relink_cond (x : Slice) : x.relink.cond ≠ .waiting .link := by
  unfold Slice.relink
  split
  · simp
  · next e => exact e

theorem takeAnswer_none (s : State) (g h : Nat) (hn : ∀ x, findHart s g h = some x → x.answer = none) :
    takeAnswer s g h = s := by
  unfold takeAnswer
  split
  · next x hx => rw [hn x hx]
  · rfl

theorem findHart_mem {x : Hart} (hx : findHart s g h = some x) : ∃ a ∈ s.gangs, x ∈ a.harts := by
  obtain ⟨a, ha, hh⟩ := Option.bind_eq_some_iff.mp hx
  exact ⟨a, List.mem_of_find?_eq_some ha, List.mem_of_getElem? hh⟩

theorem retryAnswers_none (hn : ∀ a ∈ s.gangs, ∀ x ∈ a.harts, x.answer = none) : retryAnswers s = s := by
  have step (p : Nat × Nat) : takeAnswer s p.1 p.2 = s := takeAnswer_none s p.1 p.2 fun x hx => by
    obtain ⟨a, ha, hm⟩ := findHart_mem hx
    exact hn a ha x hm
  unfold retryAnswers
  generalize hartsInPlace s = l
  induction l with
  | nil => rfl
  | cons p l ih => rw [List.foldl_cons, step, ih]

theorem noneWaits_mapHarts {f : Hart → Hart} (hf : ∀ x, (f x).answer = x.answer) (hn : noneWaits s) :
    noneWaits (mapHarts s f) := by
  obtain ⟨hheld, hans⟩ := hn
  refine ⟨hheld, fun a ha x hx => ?_⟩
  obtain ⟨b, hb, rfl⟩ := List.mem_map.mp ha
  obtain ⟨y, hy, rfl⟩ := List.mem_map.mp hx
  rw [hf]
  exact hans b hb y hy

/-- Where no record and no answer waits, only the slices look again. -/
theorem recheckLinks_noneWaits (hn : noneWaits s) : recheckLinks s = mapHarts s Hart.relinked := by
  have hm : noneWaits (mapHarts s Hart.relinked) := noneWaits_mapHarts (fun _ => rfl) hn
  obtain ⟨hheld, hans⟩ := hm
  have step : recheckLinks s = retryAnswers (if (mapHarts s Hart.relinked).bed.pwr = 2 then mapHarts s Hart.relinked else
      (mapHarts s Hart.relinked).heldReqs.foldl (fun s r => match r with
        | .record port off data => recordArrives s port off data
        | r => { s with heldReqs := s.heldReqs ++ [r] }) { mapHarts s Hart.relinked with heldReqs := [] }) := rfl
  rw [step, hheld, List.foldl_nil, ← hheld, ite_self, retryAnswers_none hans]

/-! ### Additions that wait (01 R31, 03 R56) -/

theorem completionAdd_frame (by_ : Adder) (pa : Nat) (tag : Word) (l : List Nat) (n : Nat) (e : Bool) (s : State) :
    let t := completionAdd by_ pa tag l n e s
    t.gangs = s.gangs ∧ t.dev = s.dev ∧ t.heldReqs = s.heldReqs ∧ t.adds = s.adds := by
  unfold completionAdd
  split <;> exact ⟨rfl, rfl, rfl, rfl⟩

theorem makeAdds_frame (s : State) : (makeAdds s).gangs = s.gangs ∧ (makeAdds s).dev = s.dev ∧
    (makeAdds s).heldReqs = s.heldReqs ∧ (makeAdds s).adds = s.adds.filter fun a => (liveLinks s a.links).isEmpty := by
  have fold (l : List PendingAdd) (t : State) :
      let u := l.foldl (fun s a => completionAdd a.by_ a.pa a.tag (locRange (peerLoc a.pa) 8) a.n a.err s) t
      u.gangs = t.gangs ∧ u.dev = t.dev ∧ u.heldReqs = t.heldReqs ∧ u.adds = t.adds := by
    induction l generalizing t with
    | nil => exact ⟨rfl, rfl, rfl, rfl⟩
    | cons a l ih =>
      obtain ⟨g1, d1, h1, a1⟩ := completionAdd_frame a.by_ a.pa a.tag (locRange (peerLoc a.pa) 8) a.n a.err t
      obtain ⟨g2, d2, h2, a2⟩ := ih (completionAdd a.by_ a.pa a.tag (locRange (peerLoc a.pa) 8) a.n a.err t)
      exact ⟨g2.trans g1, d2.trans d1, h2.trans h1, a2.trans a1⟩
  unfold makeAdds
  simp only [Bool.not_not]
  exact fold _ _

theorem makeAdds_nil (h : s.adds = []) : makeAdds s = s := by
  unfold makeAdds
  simp only [h, List.filter_nil, List.foldl_nil]
  rw [← h]

theorem makeAdds_one {a : PendingAdd} (h : s.adds = [a]) (live : liveLinks s a.links ≠ []) :
    makeAdds s = completionAdd a.by_ a.pa a.tag (locRange (peerLoc a.pa) 8) a.n a.err { s with adds := [] } := by
  have e : (liveLinks s a.links).isEmpty = false := by simpa using live
  unfold makeAdds
  simp [h, e]

/-! ### `LINK_LANE_LOSS`, `LINK_FAILURE`, `LIVE_LINK_RETURN` -/

section Event

variable (hp : Powered s) {link : BitVec 4}
include hp

theorem exec_linkLaneLoss : exec (.linkLaneLoss link) s = .next (mapLink s link fun l => { l with lanes := 4 }) := by
  change execLinkLaneLoss link s = _
  rw [execLinkLaneLoss, event_next (powered_of hp)]

theorem exec_linkFailure : exec (.linkFailure link) s =
    .next (resendAll (mapLink s link fun l => { l with live := false })) := by
  change execLinkFailure link s = _
  rw [execLinkFailure, event_next (powered_of hp)]

/-- The state as a link has returned: requests are sent again, and destinations that it reaches are no longer lost. -/
def linkReturned (s : State) (link : BitVec 4) : State :=
  regainRoutes (resendAll (mapLink s link fun l => { l with live := true }))

theorem exec_liveLinkReturn : exec (.liveLinkReturn link) s = .next (recheckLinks (makeAdds (linkReturned s link))) := by
  change execLiveLinkReturn link s = _
  rw [execLiveLinkReturn, event_next (powered_of hp)]
  rfl

omit hp

theorem noneWaits_linkReturned (hn : noneWaits s) : noneWaits (linkReturned s link) :=
  noneWaits_mapHarts (s := mapLink s link fun l => { l with live := true })
    (f := fun x => x.withStores (List.map (PWrite.resent (mapLink s link fun l => { l with live := true })))) (fun _ => rfl) hn

theorem noneWaits_of_eq {t : State} (hg : t.gangs = s.gangs) (hh : t.heldReqs = s.heldReqs) (hn : noneWaits s) :
    noneWaits t := by
  unfold noneWaits at hn ⊢
  rwa [hg, hh]

theorem recheckLinks_makeAdds (hn : noneWaits s) : recheckLinks (makeAdds s) = mapHarts (makeAdds s) Hart.relinked := by
  obtain ⟨hg, -, hh, -⟩ := makeAdds_frame s
  exact recheckLinks_noneWaits (noneWaits_of_eq hg hh hn)

theorem linkReturned_links : (linkReturned s link).dev.links = (mapLink s link fun l => { l with live := true }).dev.links := rfl

/-- A link that has returned is live. -/
theorem linkReturned_live (hl : links.getLsbD link.toNat = true) : liveLinks (linkReturned s link) links ≠ [] := by
  refine List.ne_nil_of_mem (mem_liveLinks.mpr ⟨link.isLt, hl, ?_⟩)
  simp [linkReturned_links, mapLink]

theorem mem_linkLost_linkReturned {d : Nat} :
    d ∈ (linkReturned s link).dev.linkLost ↔ d ∈ s.dev.linkLost ∧ linkless (linkReturned s link) d :=
  mem_filter_cutOff (s := linkReturned s link)

theorem linkless_of_dev {t : State} (e : t.dev = s.dev) (d : Nat) : linkless t d ↔ linkless s d := by
  unfold linkless noneLive devReg
  rw [e]

end Event

/-! ### `LINK_LOSS_TIMEOUT` -/

/-- A pending store keeps the bytes whose requests travel. -/
theorem mem_dropLost {w : PWrite} {c : Nat × Byte} : c ∈ w.dropLost.cells ↔ c ∈ w.cells ∧
    ∀ p ∈ w.hops, p.link = none → ¬ (2 ^ 53 ≤ c.1 ∧ c.1 < 2 ^ 54 ∧ (c.1 - 2 ^ 53) / 64 = p.block) := by
  have kept : c ∈ w.dropLost.cells ↔ c ∈ w.cells ∧
      ¬ (isPeer c.1 = true ∧ (c.1 - 2 ^ 53) / 64 ∈ (w.hops.filter fun p => p.link.isNone).map (·.block)) := by
    unfold PWrite.dropLost
    rw [List.mem_filter, Bool.not_eq_true', ← Bool.not_eq_true, Bool.and_eq_true, List.contains_iff_mem]
  have peer : isPeer c.1 = true ↔ 2 ^ 53 ≤ c.1 ∧ c.1 < 2 ^ 54 := by
    simp [isPeer]
  rw [kept, peer]
  simp only [List.mem_map, List.mem_filter, Option.isNone_iff_eq_none]
  refine and_congr_right fun _ => ⟨fun n p hp hl hc => ?_, fun n hc => ?_⟩
  · exact n ⟨⟨hc.1, hc.2.1⟩, p, ⟨hp, hl⟩, hc.2.2.symm⟩
  · obtain ⟨hr, p, ⟨hp, hl⟩, e⟩ := hc
    exact n p hp hl ⟨hr.1, hr.2, e.symm⟩

theorem dropLost_hops {w : PWrite} : ∀ p ∈ w.dropLost.hops, p.link ≠ none := by
  intro p hp
  exact Option.isSome_iff_ne_none.mp (List.mem_filter.mp hp).2

/-- What a timeout leaves of an agent's pending stores. -/
def keepSent (b : List PWrite) : List PWrite := (b.map PWrite.dropLost).filter fun w => !w.cells.isEmpty

/-- The state in which destinations without a live link have been given up. -/
def linksGivenUp (s : State) : State :=
  { mapHarts s (fun x => x.withStores keepSent) with
    dev := { s.dev with linkLost := ((List.range 64).filter (cutOff s)).foldr insertRising s.dev.linkLost }
    adds := s.adds.filter fun a => !(liveLinks s a.links).isEmpty }

theorem exec_linkLossTimeout (hp : Powered s) : exec .linkLossTimeout s = .next (recheckLinks (linksGivenUp s)) := by
  change execLinkLossTimeout s = _
  rw [execLinkLossTimeout, event_next (powered_of hp)]
  rfl

theorem noneWaits_linksGivenUp (hn : noneWaits s) : noneWaits (linksGivenUp s) :=
  noneWaits_mapHarts (s := s) (f := fun x => x.withStores keepSent) (fun _ => rfl) hn

end Sys2Proof.Machine
end


section
/-! O46: device registers, remaps, channels and links, each event by the lemmas of the parts above. -/

namespace Sys2Proof.Machine

open Sys2Proof.Claims

variable {s : State}

/-! ### Registers -/

/-- A route is written by its owner; destinations that it reaches again are no longer lost. -/
theorem routeWrite_owner (hp : Powered s) {off : BitVec 20} (v : Word) (lo : 0x40000 ≤ off.toNat) (hi : off.toNat < 0x40200)
    (h8 : off.toNat % 8 = 0) : exec (.registerWrite off v (ownerOf s 4)) s =
      .next (regainRoutes (setDevReg s off.toNat (v &&& 0x1FFFF#64))) := by
  rw [exec_registerWrite hp (by omega), writeReg_owner h8 (regOwner_route lo hi), writeOwned_route lo (by omega)]

theorem mem_linkLost_regainRoutes {d : Nat} :
    d ∈ (regainRoutes s).dev.linkLost ↔ d ∈ s.dev.linkLost ∧ linkless (regainRoutes s) d :=
  mem_filter_cutOff (s := s)

section Shootdown

variable {die : BitVec 3} {g h : Nat} {w v : Word} {off : Nat}

/-- Where none of a die's harts is stuck, a shootdown leaves each of them clear. -/
theorem clear_of_shotDown {d : Nat} {x : Gang} {y : Hart}
    (free : ∀ p ∈ hartsOfDie s d, ∀ x, findHart s p.1 p.2 = some x → ¬ x.stuck)
    (hx : findGang s g = some x) (hd : x.die = d) (hy : findHart (shotDown s d w) g h = some y) : y.clear := by
  rw [findHart_shotDown] at hy
  obtain ⟨z, hz, rfl⟩ := Option.map_eq_some_iff.mp hy
  have hlen : h < x.harts.length := by
    rw [findHart, hx] at hz
    exact (List.getElem?_eq_some_iff.mp hz).1
  have hm := mem_hartsOfDie hx hd hlen
  exact Hart.clear_iterate (free _ hm z hz) (List.count_pos_iff.mpr hm)

theorem shotDown_tlb (s : State) (d : Nat) (w : Word) : (shotDown s d w).tlb = s.tlb.filter fun e => !e.dropped d w :=
  settleAll_tlb _ _

end Shootdown

/-! ### Remaps -/

theorem setDevReg_withSpare (s : State) (off : Nat) (w : Word) (l : List Nat) :
    setDevReg { s with spare := l } off w = { setDevReg s off w with spare := l } := rfl

theorem copyMarks_eq (s : State) (stack layer blk : Nat) :
    copyMarks s stack layer blk = { s with spare := (copyMarks s stack layer blk).spare } := rfl

/-- A copied block changes its stack's register and the spare layer's marks, and nothing else. -/
theorem setDevReg_copyMarks (s : State) (stack layer blk off : Nat) (w : Word) :
    setDevReg (copyMarks s stack layer blk) off w =
      { setDevReg s off w with spare := (setDevReg (copyMarks s stack layer blk) off w).spare } := by
  rw [setDevReg_spare, copyMarks_eq, setDevReg_withSpare]

section FaultClear

variable {stack : BitVec 4}

theorem exec_remapFaultClear_idle (hp : Powered s) (h : rmState (devReg s (0x20000 + 8 * stack.toNat)) = 0) :
    let w := devReg s (0x20000 + 8 * stack.toNat)
    exec (.remapFaultClear stack (ownerOf s 5)) s =
      .next (setDevReg s (0x20000 + 8 * stack.toNat) (mkRemap 0 (rmLayer w) (rmProg w) (rmDone w) false)) := by
  intro w
  have key := exec_remapFaultClear_steady hp (.inl h)
  dsimp only at key
  rwa [h] at key

theorem exec_remapFaultClear_copying (hp : Powered s) (h : rmState (devReg s (0x20000 + 8 * stack.toNat)) = 1) :
    let w := devReg s (0x20000 + 8 * stack.toNat)
    exec (.remapFaultClear stack (ownerOf s 5)) s =
      .next (setDevReg s (0x20000 + 8 * stack.toNat) (mkRemap 1 (rmLayer w) (rmProg w) (rmDone w) false)) := by
  intro w
  have key := exec_remapFaultClear_steady hp (.inr h)
  dsimp only at key
  rwa [h] at key

end FaultClear

theorem exec_remapSwitchDone (hp : Powered s) (stack : BitVec 4) : exec (.remapSwitchDone stack) s =
    .next { s with dev := { s.dev with switching := s.dev.switching.filter fun k => k != stack.toNat } } := by
  change execRemapSwitchDone stack s = _
  rw [execRemapSwitchDone, event_next (powered_of hp)]

/-! ### Channels -/

section Channel

variable {chan : BitVec 9} {c : Chan} {bank : BitVec 5} {row : BitVec 16}

/-- No hint is sent for a row of a DEV page. -/
theorem exec_stripAheadHint_devRow (hc : Clocked s)
    (dev : ∃ e ∈ s.tlb, e.devRow s chan.toNat bank.toNat row.toNat = true) : exec (.stripAheadHint chan bank row) s = .next s := by
  rw [exec_stripAheadHint hc, if_pos (List.any_eq_true.mpr dev)]

/-- A hint is dropped where hints are off, a request for its bank waits or the bank is open. -/
theorem exec_stripAheadHint_dropped (hc : Clocked s) (hf : findChan s chan.toNat = c)
    (no : hintEn s chan.toNat = false ∨ ¬ c.acts bank.toNat = true) : exec (.stripAheadHint chan bank row) s = .next s := by
  have drop : hintArrives s chan.toNat bank.toNat row.toNat = s := by
    unfold hintArrives
    rw [hf]
    exact if_pos (by simpa using no)
  rw [exec_stripAheadHint hc, drop, ite_self]

theorem exec_stripAheadHint_kept (hc : Clocked s) (hf : findChan s chan.toNat = c) (en : hintEn s chan.toNat = true)
    (acts : c.acts bank.toNat = true) (plain : ∀ e ∈ s.tlb, pteDEV e.pte = false) :
    exec (.stripAheadHint chan bank row) s =
      .next (setChan s { c with hints := c.hints ++ [(bank.toNat, row.toNat, 0)] }) := by
  have keep : hintArrives s chan.toNat bank.toNat row.toNat =
      setChan s { c with hints := c.hints ++ [(bank.toNat, row.toNat, 0)] } := by
    unfold hintArrives
    rw [hf]
    exact if_neg (by simp [en, acts])
  have none : ¬ (s.tlb.any fun e => e.devRow s chan.toNat bank.toNat row.toNat) = true := by
    rw [List.any_eq_true]
    rintro ⟨e, he, hd⟩
    rw [not_devRow (plain e he)] at hd
    exact absurd hd (by decide)
  rw [exec_stripAheadHint hc, keep, if_neg none]

theorem hit_iff {r : ChanReq} : c.hit r = true ↔ ∃ o ∈ c.opened, o.1 = r.bank ∧ o.2 = r.row := by
  simp [Chan.hit]

theorem late_iff {cap : Nat} {r : ChanReq} : r.late cap = true ↔ r.capped = true ∨ cap ≤ r.age := by
  simp [ChanReq.late]

theorem step_issue {rest : List Move} (ha : s.agenda = .issue chan :: rest) :
    step s = .next (chanIssue { s with agenda := rest } chan.toNat) := by
  unfold step stepWith
  rw [ha]

end Channel

/-! ### Links -/

section Link

variable {link : BitVec 4} {g h : Nat} {y : Hart}

/-- No slice waits for a link once all have looked again. -/
theorem running_of_relinked (hy : findHart (mapHarts s Hart.relinked) g h = some y) :
    y.as_.cond ≠ .waiting .link ∧ y.cs.cond ≠ .waiting .link := by
  obtain ⟨x, -, rfl⟩ := exists_findHart_mapHarts hy
  exact ⟨relink_cond x.as_, relink_cond x.cs⟩

/-- The pending stores of a hart that has looked again are those of the hart before. -/
theorem stores_of_relinked (hy : findHart (mapHarts s Hart.relinked) g h = some y) :
    ∃ x, findHart s g h = some x ∧ x.abuf = y.abuf ∧ x.cbuf = y.cbuf := by
  obtain ⟨x, hx, rfl⟩ := exists_findHart_mapHarts hy
  exact ⟨x, hx, rfl, rfl⟩

@[simp] theorem mapHarts_dev (f : Hart → Hart) : (mapHarts s f).dev = s.dev := rfl
@[simp] theorem mapHarts_mem (f : Hart → Hart) : (mapHarts s f).mem = s.mem := rfl

/-- The state after the return of a link. -/
theorem linkReturn_stores (hy : findHart (makeAdds (linkReturned s link)) g h = some y) :
    ∀ w ∈ y.abuf ++ y.cbuf, onLiveLinks (linkReturned s link) w := by
  rw [findHart_of_gangs (makeAdds_frame _).1] at hy
  exact fun w hw => onLiveLinks_of_links linkReturned_links (resendAll_onLiveLinks hy w hw)

/-- A single addition that waited for the link is made. -/
theorem linkReturn_addition {a : PendingAdd} (ha : s.adds = [a]) (hl : a.links.getLsbD link.toNat = true)
    (clean : ∀ p ∈ locRange (peerLoc a.pa) 8, poisoned s p = false) :
    let t := makeAdds (linkReturned s link)
    t.adds = [] ∧ t.mem = (homeWrite s (locRange (peerLoc a.pa) 8)
      (natToBytes (completionValue (bytesToNat ((locRange (peerLoc a.pa) 8).map (memRead s.mem))) a.n a.err) 8)).mem := by
  intro t
  have made : t = _ := makeAdds_one (s := linkReturned s link) ha (linkReturned_live hl)
  have clean' : ∀ p ∈ locRange (peerLoc a.pa) 8, poisoned { linkReturned s link with adds := [] } p = false := clean
  rw [completionAdd_clean clean'] at made
  rw [made]
  exact ⟨rfl, rfl⟩

/-! ### A loss that has timed out -/

theorem mem_linkLost_linksGivenUp {d : Nat} :
    d ∈ (linksGivenUp s).dev.linkLost ↔ d ∈ s.dev.linkLost ∨ (d < 64 ∧ linkless s d) := by
  refine mem_foldr_insertRising.trans ?_
  rw [List.mem_filter, List.mem_range, cutOff_iff, or_comm]

theorem mem_adds_linksGivenUp {a : PendingAdd} : a ∈ (linksGivenUp s).adds ↔ a ∈ s.adds ∧ ¬ noneLive s a.links := by
  refine List.mem_filter.trans ?_
  simp [← liveLinks_eq_nil]

/-- A hart as the timeout leaves it. -/
def Hart.givenUp (x : Hart) : Hart := (x.withStores keepSent).relinked

theorem Hart.givenUp_buf (x : Hart) (sl : SliceId) : x.givenUp.buf sl = keepSent (x.buf sl) := by
  cases sl <;> rfl

theorem findHart_givenUp {x : Hart} (hx : findHart s g h = some x) :
    findHart (mapHarts (linksGivenUp s) Hart.relinked) g h = some x.givenUp := by
  rw [findHart_mapHarts, findHart_of_gangs (show (linksGivenUp s).gangs = (mapHarts s fun x => x.withStores keepSent).gangs from rfl),
    findHart_mapHarts, hx]
  rfl

/-- A hart's only pending store keeps what travels. -/
theorem sent_of_givenUp {x : Hart} {sl : SliceId} {v w : PWrite} (hw : x.buf sl = [w]) (hv : v ∈ x.givenUp.buf sl) :
    (∀ p ∈ v.hops, p.link ≠ none) ∧ ∀ c, c ∈ v.cells ↔ c ∈ w.cells ∧
      ∀ p ∈ w.hops, p.link = none → ¬ (2 ^ 53 ≤ c.1 ∧ c.1 < 2 ^ 54 ∧ (c.1 - 2 ^ 53) / 64 = p.block) := by
  rw [Hart.givenUp_buf, hw] at hv
  have e : v = w.dropLost := List.mem_singleton.mp (List.mem_of_mem_filter hv)
  subst e
  exact ⟨dropLost_hops, fun c => mem_dropLost⟩

end Link

/-- Settles O46: each event is one lemma of the parts above, applied to the register, queue or link that the clause names. -/
theorem deviceRegisterEvents : Obligations.DeviceRegisterEvents := by
  refine ⟨fun s v by_ hp => ⟨fun off lo hi h8 => ?route, fun n => ?interleave, fun id => ?collective,
    fun id num hn => exec_endFromOtherPackage_unknown hp hn, fun die => ?shootdown⟩,
    fun s hp => ⟨fun stack layer => ?remap, fun chan c hc => ?channel, fun link => ?link, fun hn => ?timeout⟩⟩
  case route =>
    refine ⟨fun hb => ?_, fun hb => ?_⟩
    · subst hb
      exact ⟨_, routeWrite_owner hp v lo hi h8, rfl, fun d => mem_linkLost_regainRoutes⟩
    · rw [exec_registerWrite hp (by omega), writeReg_foreign (regOwner_route lo hi) hb]
  case interleave =>
    intro at0 w0
    have word0 := exec_interleaveDescriptorWrite (v := v) (by_ := .survey) hp n false
    have word1 := exec_interleaveDescriptorWrite (v := v) (by_ := .survey) hp n true
    rw [if_pos rfl] at word0 word1
    simp only [Bool.false_eq_true, if_false, Nat.add_zero, writeInterleave_word0] at word0
    simp only [if_true, writeInterleave_word1] at word1
    have enabled : ilEn (devReg s (0x10000 + 16 * n.toNat)) = w0.getLsbD 63 := rfl
    rw [enabled] at word0 word1
    refine ⟨?_, fun on => ⟨?_, fun hv => ?_⟩, fun off => ⟨?_, fun hv => ?_⟩, fun hv => ?_⟩
    · rw [exec_interleaveDescriptorWrite hp, if_neg (by decide)]
    · rw [word1, if_pos on]
    · rw [word0, if_pos hv, if_pos on]
    · rw [word1, if_neg (ne_true_of_eq_false off)]
    · rw [word0, if_pos hv, if_neg (ne_true_of_eq_false off)]
    · rw [word0, if_neg (ne_true_of_eq_false hv)]
  case collective =>
    refine ⟨fun hb => ?_, fun hb => ?_, fun num c hc => ⟨fun he => ?_, fun he => ?_⟩⟩
    · rw [exec_collEnd hp, if_pos hb]
    · rw [exec_collEnd hp, if_neg hb]
    · rw [exec_endFromOtherPackage_known hp hc, if_neg (by simp [he])]
    · rw [exec_endFromOtherPackage_known hp hc, if_pos he]
  case shootdown =>
    intro off w
    refine ⟨fun hb hg => ?_, fun hb hg => ?_, fun hb => ?_, fun hg => exec_shootdownDone_waits hp (.inl hg),
      fun _ out => exec_shootdownDone_waits hp (.inr ?_), fun hg hw ha hf => ?_⟩
    · rw [exec_shootdownGo hp, if_pos hb, if_neg (by rw [hg]; decide)]
    · rw [exec_shootdownGo hp, if_pos hb, if_pos hg]
      exact ⟨_, rfl, devReg_setDevReg_self s off⟩
    · rw [exec_shootdownGo hp, if_neg hb]
    · exact out
    · have free : ∀ p ∈ hartsOfDie s die.toNat, ∀ x, findHart s p.1 p.2 = some x → ¬ x.stuck := by
        rintro p hm x hx ⟨y, hy, hs⟩
        exact hs (hf p hm x hx y hy)
      exact ⟨_, exec_shootdownDone_ends hp hg hw ha free, devReg_setDevReg_same .., shotDown_tlb s die.toNat w,
        fun g x h y hx hd hy => clear_of_shotDown free hx hd hy⟩
  case remap =>
    intro off w lay fault owner dropped
    refine ⟨fun h0 => ⟨exec_remapStartCopy_idle hp h0 layer, exec_remapFaultClear_idle hp h0⟩,
      fun h1 => ⟨exec_remapAbandon_copying hp h1, exec_remapFaultClear_copying hp h1, exec_remapSwitch_done hp h1, exec_remapSwitch_undone hp h1, fun hs hd => ?_⟩,
      fun h2 => exec_remap_switching hp h2 layer, exec_remapSwitchDone hp stack⟩
    intro copied bad
    exact ⟨_, exec_remapBlockCopied hp hs h1 hd, setDevReg_copyMarks .., fun u => mem_copyMarks_spare⟩
  case channel =>
    intro cap
    have hcap : ageCap s chan.toNat = cap := ageCap_eq s chan.toNat
    refine ⟨fun k r hr => ⟨fun old => ?_, fun young => ?_⟩, fun k x hx => ⟨fun old => ?_, fun young => ?_⟩,
      fun hclk bank row => ?hint, fun rest ha hsw => ?issue⟩
    · rw [exec_requestCapped hp hc hr, if_pos (hcap ▸ old)]
    · rw [exec_requestCapped hp hc hr, if_neg (by omega)]
    · rw [exec_hintExpiry hp hc hx, if_pos old]
    · rw [exec_hintExpiry hp hc hx, if_neg (by omega)]
    case hint =>
      intro en hint
      refine ⟨exec_stripAheadHint_devRow hclk, fun no => exec_stripAheadHint_dropped hclk hc ?_,
        fun on free closed plain => exec_stripAheadHint_kept hclk hc on (acts_iff.mpr ⟨free, closed⟩) plain⟩
      rw [acts_iff]
      rcases no with no | ⟨r, hr, e⟩ | ⟨o, ho, e⟩
      · exact .inl no
      · exact .inr fun ⟨free, _⟩ => free r hr e
      · exact .inr fun ⟨_, closed⟩ => closed o ho e
    case issue =>
      intro s1 hits
      have hc1 : findChan s1 chan.toNat = c := hc
      have hsw1 : chan.toNat / 32 ∉ s1.dev.switching := hsw
      have hcap1 : ageCap s1 chan.toNat = cap := hcap
      rw [step_issue ha]
      refine ⟨fun r more hr => ⟨fun first => ?_, fun q more2 hq young miss hit hrn hqn hb => ?_⟩,
        fun hr bank row age more hh en young closed => ?_⟩
      · have next : nextRequest c cap = some 0 := nextRequest_oldest hr (by
          rw [late_iff, hit_iff]
          tauto)
        rw [chanIssue_issues hsw1 hc1 (by rw [hcap1]; exact next) (by rw [hr]; rfl), hr]
        rfl
      · subst hq
        have next : nextRequest c cap = some 1 := nextRequest_second hr young
          (Bool.not_eq_true _ ▸ mt hit_iff.mp miss) (hit_iff.mpr hit) (commutes_of_bank hrn hqn hb)
        rw [chanIssue_issues hsw1 hc1 (by rw [hcap1]; exact next) (by rw [hr]; rfl), hr]
        rfl
      · rw [chanIssue_hint hsw1 hc1 hr hh en young closed]
  case link =>
    refine ⟨exec_linkLaneLoss hp, ⟨_, exec_linkFailure hp, rfl, rfl,
      fun g h y hy w hw => onLiveLinks_of_links rfl (resendAll_onLiveLinks hy w hw), fun g h x hx => resendAll_cells hx⟩, fun hn => ?_⟩
    have hdev : (makeAdds (linkReturned s link)).dev = (linkReturned s link).dev := (makeAdds_frame _).2.1
    refine ⟨_, (exec_liveLinkReturn hp).trans (congrArg _ (recheckLinks_makeAdds (noneWaits_linkReturned hn))), ?_, fun d => ?_,
      fun g h y hy => ?_, fun none => ?_, fun a ha hl => linkReturn_addition ha hl⟩
    · rw [mapHarts_dev, hdev]
      exact linkReturned_links
    · rw [mapHarts_dev, hdev, mem_linkLost_linkReturned]
      exact and_congr_right fun _ => linkless_of_dev hdev.symm d
    · obtain ⟨has, hcs⟩ := running_of_relinked hy
      obtain ⟨x, hx, ea, ec⟩ := stores_of_relinked hy
      refine ⟨has, hcs, fun w hw => ?_⟩
      rw [← ea, ← ec] at hw
      exact onLiveLinks_of_links (congrArg _ hdev) (linkReturn_stores hx w hw)
    · rw [mapHarts_mem, makeAdds_nil (s := linkReturned s link) none]
      rfl
  case timeout =>
    refine ⟨_, (exec_linkLossTimeout hp).trans (congrArg _ (recheckLinks_noneWaits (noneWaits_linksGivenUp hn))), rfl, rfl,
      fun d => ?_, fun a => ?_, fun g h y hy => running_of_relinked hy, fun g h x sl w hx hw => ?_⟩
    · exact mem_linkLost_linksGivenUp
    · exact mem_adds_linksGivenUp
    · exact ⟨_, findHart_givenUp hx, fun v hv => sent_of_givenUp hw hv⟩

end Sys2Proof.Machine
end


section
/-! O44, parts: what boot makes of the device (02 R40, R46), and entry to retain with everything at rest (02 R48 to R50). -/

namespace Sys2Proof.Machine

open Sys2Proof.Claims

variable {s : State} {fuses : Vector Nat 32} {b : BootInputs}

/-! ### Boot steps (02 R40) -/

/-- The patch is accepted. -/
def patchBoots (fuses : Vector Nat 32) (b : BootInputs) : Prop :=
  signedBy .root b.patch = true ∧ fuses[0] ≤ b.patch.version

/-- And then the boot configuration. -/
def configBoots (fuses : Vector Nat 32) (b : BootInputs) : Prop :=
  patchBoots fuses b ∧ signedBy .odrek b.config = true

/-- And then the survey firmware. -/
def surveyBoots (fuses : Vector Nat 32) (b : BootInputs) : Prop :=
  configBoots fuses b ∧ signedBy .odrek b.survey = true ∧ fuses[1] ≤ b.survey.version

theorem bootStage_no_patch (h : ¬ patchBoots fuses b) : bootStage fuses b = 0 := by
  unfold bootStage
  rw [if_pos]
  simpa [patchBoots, imp_iff_not_or] using h

theorem bootStage_no_config (hp : patchBoots fuses b) (h : ¬ configBoots fuses b) : bootStage fuses b = 1 := by
  obtain ⟨hs, hv⟩ := hp
  have hc : signedBy .odrek b.config = false := Bool.eq_false_iff.mpr fun e => h ⟨⟨hs, hv⟩, e⟩
  simp [bootStage, hs, hv, hc]

theorem bootStage_no_survey (hc : configBoots fuses b) (h : ¬ surveyBoots fuses b) : bootStage fuses b = 2 := by
  have hn : ¬ (signedBy .odrek b.survey = true ∧ fuses[1] ≤ b.survey.version) := fun e => h ⟨hc, e⟩
  obtain ⟨⟨hs, hv⟩, hc⟩ := hc
  unfold bootStage
  rw [if_neg (by simp [hs, hv]), if_neg (by simp [hc]), if_pos (by simpa [imp_iff_not_or] using hn)]

theorem bootStage_survey (h : surveyBoots fuses b) : bootStage fuses b = 3 := by
  obtain ⟨⟨⟨hs, hv⟩, hc⟩, hs', hv'⟩ := h
  simp [bootStage, hs, hv, hc, hs', hv']

/-- The stage counts the boot steps that are accepted. -/
theorem bootStage_iff :
    (1 ≤ bootStage fuses b ↔ patchBoots fuses b) ∧ (2 ≤ bootStage fuses b ↔ configBoots fuses b) ∧
      (bootStage fuses b = 3 ↔ surveyBoots fuses b) ∧ bootStage fuses b ≤ 3 := by
  have ofConfig : configBoots fuses b → patchBoots fuses b := And.left
  have ofSurvey : surveyBoots fuses b → configBoots fuses b := And.left
  by_cases hp : patchBoots fuses b
  · by_cases hc : configBoots fuses b
    · by_cases hs : surveyBoots fuses b
      · simp [bootStage_survey hs, hp, hc, hs]
      · simp [bootStage_no_survey hc hs, hp, hc, hs]
    · simp [bootStage_no_config hp hc, hp, hc, mt ofSurvey hc]
  · simp [bootStage_no_patch hp, hp, mt ofConfig hp, mt ofSurvey (mt ofConfig hp)]

theorem certAccepted_eq (key : Config.Key) (c : Option Signed) :
    certAccepted key c = c.any fun x => signedBy key x && Config.certBound x.bytes := by
  cases c <;> rfl

/-- The security state of a cold reset (02 R46). -/
theorem secChoice_eq (b : BootInputs) :
    secChoice b = if b.provisioned = false ∨ certAccepted .odrek b.returnCert = true then 2
      else if certAccepted .owner b.ownerCert = true then 1 else 0 := by
  simp [secChoice]

theorem bootDevice_survey (up : Bool) (b : BootInputs) :
    (bootDevice up b 3).firmware = b.survey.bytes ∧
      ∀ k : Fin 4, (bootDevice up b 3).surveys[k] = Survey.released b.entry := by
  refine ⟨rfl, fun k => ?_⟩
  simp [bootDevice]

theorem bootDevice_held (up : Bool) (b : BootInputs) {stage : Nat} (h : stage ≠ 3) (k : Fin 4) :
    (bootDevice up b stage).surveys[k] = Survey.reset := by
  unfold bootDevice
  simp only [h, if_false]
  split <;> simp [Device.reset]

/-! ### Power off (02 R48) -/

theorem memRead_powerOff (h : s.MemWf) (a : Nat) :
    memRead (s.mem.filter fun c => isOutside c.1) a = if a < 2 ^ 52 then 0 else memRead s.mem a := by
  rw [memRead_filter (p := isOutside) h]
  by_cases e : 2 ^ 52 ≤ a
  · rw [if_pos (by simpa [isOutside] using e), if_neg (by omega)]
  · rw [if_neg (by simpa [isOutside] using e), if_pos (by omega)]
    rfl

/-! ### Idle (02 R48) -/

theorem awake_of (h : Awake s) : awake s = true := by
  obtain ⟨hc, hr⟩ := h
  simp [awake, clocked_of hc, hr]

theorem wakeIdle_eq (s : State) : wakeIdle s = withBed s fun b => { b with pwr := if b.pwr = 1 then 0 else b.pwr } := by
  unfold wakeIdle withBed
  split
  · next h => simp only [if_pos h]
  · next h => simp only [if_neg h]

theorem wakeIdle_of_not_idle (h : s.bed.pwr ≠ 1) : wakeIdle s = s := if_neg h

/-! ### Updates that change nothing -/

/-- An update of a hart that leaves every hart as it is. -/
theorem mapHart_fixed {g h : Nat} {f : Hart → Hart} (hf : ∀ a ∈ s.gangs, ∀ x ∈ a.harts, f x = x) : mapHart s g h f = s := by
  have each : ∀ a ∈ s.gangs, (if a.id = g then { a with harts := a.harts.modify h f } else a) = a := by
    intro a ha
    have same : a.harts.modify h f = a.harts := by
      refine List.ext_getElem? fun i => ?_
      rw [List.getElem?_modify]
      cases e : a.harts[i]? with
      | none => simp
      | some x => simp [hf a ha x (List.mem_of_getElem? e)]
    rw [same, ite_self]
  unfold mapHart mapGang
  rw [List.map_congr_left each, List.map_id']

theorem Hart.setBuf_buf (x : Hart) (sl : SliceId) : x.setBuf sl (x.buf sl) = x := by cases sl <;> rfl

theorem Hart.closeStores_nil {x : Hart} (h : x.cbuf = []) : x.closeStores = x := by
  unfold Hart.closeStores
  rw [h, List.map_nil, ← h]

/-- Where no hart has a pending store of an agent, none is performed. -/
theorem drainBuf_empty {g h : Nat} {sl : SliceId} (he : ∀ a ∈ s.gangs, ∀ x ∈ a.harts, x.buf sl = []) :
    drainBuf s g h sl = s := by
  unfold drainBuf
  split
  · rfl
  · next x hx =>
    obtain ⟨a, ha, hm⟩ := findHart_mem hx
    rw [he a ha x hm]
    refine mapHart_fixed fun c hc y hy => ?_
    conv_rhs => rw [← y.setBuf_buf sl, he c hc y hy]
    rfl

/-! ### A device at rest (02 R49, R50) -/

/-- No engine works, no hart is halted by debug, and none has a yield request or a pending store. -/
structure AtRest (s : State) : Prop where
  ops : s.ops = []
  colls : s.colls = []
  nbes : s.nbes = []
  harts : ∀ g ∈ s.gangs, ∀ x ∈ g.harts, x.mode ≠ .debugHalt ∧ x.ypend.getLsbD 63 = false ∧ x.abuf = [] ∧ x.cbuf = []

theorem AtRest.withBed (h : AtRest s) (f : Bedrock → Bedrock) : AtRest (withBed s f) := ⟨h.ops, h.colls, h.nbes, h.harts⟩

section AtRest

variable (r : AtRest s)
include r

theorem AtRest.buf (sl : SliceId) : ∀ a ∈ s.gangs, ∀ x ∈ a.harts, x.buf sl = [] := by
  intro a ha x hx
  obtain ⟨-, -, habuf, hcbuf⟩ := r.harts a ha x hx
  cases sl with
  | as => exact habuf
  | cs => exact hcbuf

theorem AtRest.haltedGangs : haltedGangs s = [] := by
  unfold Machine.haltedGangs
  rw [List.map_eq_nil_iff, List.filter_eq_nil_iff]
  intro a ha
  have none : a.harts.any (fun x => x.mode == .debugHalt) = false := by
    rw [List.any_eq_false]
    intro x hx
    obtain ⟨hmode, -⟩ := r.harts a ha x hx
    simpa using hmode
  simp [none]

theorem AtRest.stopPosted (g h : Nat) : stopPosted s g h = s := by
  unfold Machine.stopPosted
  split
  · next x hx =>
    obtain ⟨a, ha, hm⟩ := findHart_mem hx
    obtain ⟨-, hy, -⟩ := r.harts a ha x hm
    have none : ypP x = false := hy
    simp [none]
  · rfl

theorem AtRest.performStores : performStores s = s := by
  unfold Machine.performStores
  refine List.foldl_fixed' (fun p => ?_) _
  have closed : mapHart s p.1 p.2 (·.closeStores) = s :=
    mapHart_fixed fun a ha x hx => Hart.closeStores_nil (r.buf .cs a ha x hx)
  dsimp only
  rw [closed, drainBuf_empty (r.buf .as), drainBuf_empty (r.buf .cs)]

theorem AtRest.runEngines : runEngines s = s := by
  unfold Machine.runEngines
  simp only [r.ops, List.foldl_nil, r.colls]

theorem AtRest.retainBegin :
    retainBegin s = Claims.withBed s fun b => { b with retainPending := true, converting := [] } := by
  unfold Machine.retainBegin
  rw [r.haltedGangs]
  have begun := r.withBed fun b => { b with retainPending := true, converting := [] }
  simp only [List.foldl_nil]
  exact List.foldl_fixed' (f := fun s (p : Nat × Nat) => Machine.stopPosted s p.1 p.2)
    (fun p => begun.stopPosted p.1 p.2) _

theorem AtRest.retainReady (h : s.bed.converting = []) : retainReady s = true := by
  have empty : ∀ p ∈ hartsInPlace s,
      (((findHart s p.1 p.2).map fun x => x.abuf.isEmpty && x.cbuf.isEmpty).getD true) = true := by
    intro p _
    cases hx : findHart s p.1 p.2 with
    | none => rfl
    | some x =>
      obtain ⟨a, ha, hm⟩ := findHart_mem hx
      obtain ⟨-, -, habuf, hcbuf⟩ := r.harts a ha x hm
      simp [habuf, hcbuf]
  unfold Machine.retainReady
  rw [h, r.ops, r.nbes, List.all_eq_true.mpr empty]
  rfl

/-- Entry to retain with nothing to wait for completes at once. -/
theorem exec_retainEnter_atRest (hp : Powered s) (hpwr : s.bed.pwr.toNat ≤ 1) (hpend : s.bed.retainPending = false) :
    exec .retainEnter s = .next (retainComplete
      (withBed (wakeIdle s) fun b => { b with retainPending := true, converting := [] })) := by
  have woken : AtRest (wakeIdle s) := by
    rw [wakeIdle_eq]
    exact r.withBed _
  have begun := woken.withBed fun b => { b with retainPending := true, converting := [] }
  change execRetainEnter s = _
  rw [execRetainEnter, event_next (by simp [powered_of hp, hpwr])]
  simp only [hpend, Bool.false_eq_true, if_false]
  rw [woken.retainBegin, begun.runEngines, begun.performStores, if_pos (begun.retainReady rfl)]

end AtRest

/-- What a completed entry leaves: the survey cores that debug halted run again, from their firmware's entry. -/
theorem retainComplete_surveys (s : State) (k : Fin 4) :
    ((retainComplete s).dev.surveys[k]).mode =
      if (s.dev.surveys[k]).mode = .halted then .running else (s.dev.surveys[k]).mode := by
  simp only [retainComplete, resetHalted, Fin.getElem_fin, Vector.getElem_map]
  split <;> rfl

/-- Settles O44: a cold reset boots as far as its steps are accepted, and entry to retain with the engines at rest completes. -/
theorem powerEvents : Obligations.PowerEvents := by
  intro s
  refine ⟨fun b => ?cold, ?off, fun ha => ?idle, fun hp => ⟨?limit, ?raise⟩, fun hs hpwr hops hcolls hnbes hh => ?enter,
    fun hp hpwr hl => ?leave⟩
  case cold =>
    obtain ⟨h1, h2, h3, hle⟩ := bootStage_iff (fuses := s.bed.fuses) (b := b)
    intro signed bound step1 step2 step3
    refine ⟨coldReset s b, rfl, rfl, rfl, rfl, rfl, rfl, rfl, rfl, rfl, rfl, rfl, rfl, rfl, ?_, h1, h2, h3, hle, fun h => ?_,
      fun h => ?_, fun h k => ?_⟩
    · have sec : (coldReset s b).bed.sec = secChoice b := rfl
      rw [sec, secChoice_eq, certAccepted_eq, certAccepted_eq]
      rfl
    · exact if_pos (h2.mpr h)
    · have stage : bootStage s.bed.fuses b = 3 := h3.mpr h
      obtain ⟨firmware, released⟩ := bootDevice_survey s.dev.hostUp b
      unfold coldReset
      rw [stage]
      exact ⟨firmware, rfl, fun k => ⟨congrArg Survey.mode (released k), congrArg Survey.pc (released k)⟩⟩
    · exact congrArg Survey.mode (bootDevice_held s.dev.hostUp b (mt h3.mp h) k)
  case off => exact ⟨_, rfl, rfl, rfl, rfl, rfl, rfl, rfl, fun h a => memRead_powerOff h a⟩
  case idle =>
    change execIdleEntry s = _
    exact event_next (awake_of ha)
  case limit =>
    change execPowerLimitExceeded s = _
    exact event_next (powered_of hp)
  case raise =>
    change execClockRaise s = _
    exact event_next (powered_of hp)
  case enter =>
    obtain ⟨hoff, -, hpend⟩ := hs
    refine ⟨_, exec_retainEnter_atRest ⟨hops, hcolls, hnbes, hh⟩ hoff hpwr hpend, rfl, rfl, rfl, ?_⟩
    rw [wakeIdle_eq]
    exact ⟨rfl, rfl, rfl, rfl, fun k => retainComplete_surveys _ k⟩
  case leave =>
    change execRetainExit s = _
    rw [execRetainExit, event_next (by simp [powered_of hp, hpwr])]
    have none : s.launches.map (·.id) = [] := by rw [hl, List.map_nil]
    dsimp only
    rw [none]
    rfl

end Sys2Proof.Machine
end


section
/-! O45, parts: requests to bedrock's mailbox (02 R42, R43, R47, R51, R52). -/

namespace Sys2Proof.Machine

open Sys2Proof.Claims

variable {s : State}

/-! ### Events that cannot happen, and a device that has booted -/

theorem event_skipped {ok : State → Bool} {f : State → State} (h : ok s = false) : event ok f s = .next s := by
  simp [event, h]

theorem booted_of (hp : Powered s) (h : s.bed.stage = 3) : booted s = true := by
  unfold Powered at hp
  simp [booted, hp, h]

theorem not_booted_of (h : s.bed.stage ≠ 3) : booted s = false := by
  simp [booted, h]

/-! ### The debug level (02 R47) -/

theorem exec_debugRequest_granted (hp : Powered s) {level : BitVec 2}
    (h : level.toNat ≤ debugMax s.bed.sec ∨ level.toNat < s.bed.dbg.toNat) :
    exec (.debugRequest level) s = .next (withBed s fun b => { b with
      dbg := level, hidbg := if b.hidbg.toNat < level.toNat then level else b.hidbg, keys := b.keys && level != 3 }) := by
  change execDebugRequest level s = _
  rw [execDebugRequest, event_next (powered_of hp), if_neg]
  · rfl
  · simpa [imp_iff_not_or] using h

theorem exec_debugRequest_refused (hp : Powered s) {level : BitVec 2} (h : debugMax s.bed.sec < level.toNat)
    (hd : s.bed.dbg.toNat ≤ level.toNat) : exec (.debugRequest level) s = .next s := by
  change execDebugRequest level s = _
  rw [execDebugRequest, event_next (powered_of hp), if_pos (by simp [h, hd])]

/-! ### Quotes (02 R51, R52) -/

@[simp] theorem freeBytes_length (s : State) (k n : Nat) : (freeBytes s k n).length = n := by simp [freeBytes]

section Quote

variable {nonce : BitVec 256}

theorem exec_quoteRequest_keyless (hp : Powered s) (hi : s.bed.pwr ≠ 1) (hk : s.bed.keys = false) :
    exec (.quoteRequest nonce) s = .next s := by
  change execQuoteRequest nonce s = _
  rw [execQuoteRequest, event_next (powered_of hp), wakeIdle_of_not_idle hi, if_pos (by simp [hk])]

theorem exec_quoteRequest (hp : Powered s) (hi : s.bed.pwr ≠ 1) (hk : s.bed.keys = true) :
    exec (.quoteRequest nonce) s = .next { withBed s (fun b =>
      { b with quotes := b.quotes ++ signedQuote s (quoteFields s.bed nonce) }) with freeCtr := s.freeCtr + 4 } := by
  change execQuoteRequest nonce s = _
  rw [execQuoteRequest, event_next (powered_of hp), wakeIdle_of_not_idle hi, if_neg (by simp [hk])]
  rfl

/-- The signature over the fields follows them. -/
theorem exec_quoteRequest_signed (hp : Powered s) (hi : s.bed.pwr ≠ 1) (hk : s.bed.keys = true) {sig : List Byte}
    (hs : signDigest (shake256 (quoteFields s.bed nonce)) (freeBytes s 0 32) = some sig) :
    exec (.quoteRequest nonce) s = .next { withBed s (fun b =>
      { b with quotes := b.quotes ++ [quoteFields s.bed nonce ++ sig] }) with freeCtr := s.freeCtr + 4 } := by
  rw [exec_quoteRequest hp hi hk, signedQuote, hs]
  rfl

theorem exec_quoteRequest_unsigned (hp : Powered s) (hi : s.bed.pwr ≠ 1) (hk : s.bed.keys = true)
    (hs : signDigest (shake256 (quoteFields s.bed nonce)) (freeBytes s 0 32) = none) :
    exec (.quoteRequest nonce) s = .next { s with freeCtr := s.freeCtr + 4 } := by
  rw [exec_quoteRequest hp hi hk, signedQuote, hs, Option.map_none, Option.toList_none]
  simp only [List.append_nil]
  rfl

end Quote

/-! ### Counters (02 R42) -/

section Counter

variable {k : BitVec 5} {n : Nat} {sig : List Byte}

theorem exec_counterAdvance_unbooted (h : s.bed.stage ≠ 3) : exec (.counterAdvance k n sig) s = .next s := by
  change execCounterAdvance k n sig s = _
  rw [execCounterAdvance, event_skipped (not_booted_of h)]

variable (hp : Powered s) (hi : s.bed.pwr ≠ 1) (hb : s.bed.stage = 3)
include hp hi hb

theorem exec_counterAdvance_advances (hs : verifiesDigest (.counter k) (shake256 (Config.counterCommand k n)) sig = true)
    (hlo : fuseOf s k < n) (hhi : n ≤ 63) :
    exec (.counterAdvance k n sig) s = .next (withBed s fun b => { b with fuses := b.fuses.set k.toNat n k.isLt }) := by
  have now : ¬ n ≤ s.bed.fuses[k.toNat]'k.isLt := Nat.not_le_of_lt hlo
  change execCounterAdvance k n sig s = _
  rw [execCounterAdvance, event_next (booted_of hp hb), wakeIdle_of_not_idle hi, if_neg]
  · rfl
  · simpa [hs, now] using hhi

theorem exec_counterAdvance_refused (h : n ≤ fuseOf s k ∨ 63 < n ∨
    verifiesDigest (.counter k) (shake256 (Config.counterCommand k n)) sig = false) :
    exec (.counterAdvance k n sig) s = .next s := by
  change execCounterAdvance k n sig s = _
  rw [execCounterAdvance, event_next (booted_of hp hb), wakeIdle_of_not_idle hi, if_pos]
  rcases h with low | high | unsigned
  · have now : n ≤ s.bed.fuses[k.toNat]'k.isLt := low
    simp [now]
  · simp [high]
  · simp [unsigned]

end Counter

/-! ### Admission (02 R43, R44) -/

section Admission

variable {b : Bedrock} {digest : BitVec 512} {counter version : Nat} {ok : Bool}

theorem admitDigest_refused (h : b.keys = false ∨ version < (b.fuses[counter]?).getD 0 ∨ counter < 8) :
    (admitDigest b digest counter version ok).2 = b := by
  unfold admitDigest
  rw [if_pos]
  simpa [or_assoc] using h

variable (hk : b.keys = true) (hv : (b.fuses[counter]?).getD 0 ≤ version) (hc : 8 ≤ counter)
include hk hv hc

/-- What the checks before the cache let through. -/
theorem admitDigest_checks : ¬ (!b.keys || version < (b.fuses[counter]?).getD 0 || counter < 8) = true := by
  simp [hk, hv, hc]

/-- A cached digest that is still current becomes the most recently used. -/
theorem admitDigest_cached {e : AdmitEntry} (he : (b.cache.find? fun e => e.digest == digest) = some e)
    (hf : (b.fuses[e.counter]?).getD 0 ≤ e.version) :
    (admitDigest b digest counter version ok).2 = { b with cache := b.cache.erase e ++ [e] } := by
  unfold admitDigest
  rw [if_neg (admitDigest_checks hk hv hc), he]
  dsimp only
  rw [if_neg (Nat.not_lt.mpr hf)]
  rfl

/-- A cached digest that its counter has overtaken is dropped. -/
theorem admitDigest_stale {e : AdmitEntry} (he : (b.cache.find? fun e => e.digest == digest) = some e)
    (hf : e.version < (b.fuses[e.counter]?).getD 0) :
    (admitDigest b digest counter version ok).2 = { b with cache := b.cache.erase e } := by
  unfold admitDigest
  rw [if_neg (admitDigest_checks hk hv hc), he]
  dsimp only
  rw [if_pos hf]

theorem admitDigest_signed (hs : ok = true) (he : ∀ e ∈ b.cache, e.digest ≠ digest) (hl : b.cache.length < 256) :
    (admitDigest b digest counter version ok).2 =
      { b with cache := b.cache ++ [{ digest := digest, counter := counter, version := version }] } := by
  have none : (b.cache.find? fun e => e.digest == digest) = none := by simpa using he
  have room : b.cache.length + 1 - 256 = 0 := by omega
  unfold admitDigest
  rw [if_neg (admitDigest_checks hk hv hc), none]
  simp only [hs, if_true, cacheInsert, room, List.drop_zero]

theorem admitDigest_unsigned (hs : ok = false) (he : ∀ e ∈ b.cache, e.digest ≠ digest) :
    (admitDigest b digest counter version ok).2 = b := by
  have none : (b.cache.find? fun e => e.digest == digest) = none := by simpa using he
  unfold admitDigest
  rw [if_neg (admitDigest_checks hk hv hc), none, hs]
  rfl

end Admission

theorem exec_moduleAdmissionRequest {image : List Byte} {k : BitVec 5} {v : BitVec 6} {sig : List Byte}
    {f : Bedrock → Bedrock} (hp : Powered s) (hi : s.bed.pwr ≠ 1) (hb : s.bed.stage = 3)
    (h : (admitDigest s.bed (shake256 image) k.toNat v.toNat
      (verifiesDigest (.counter k) (shake256 image) sig)).2 = f s.bed) :
    exec (.moduleAdmissionRequest image k v sig) s = .next (withBed s f) := by
  change execModuleAdmissionRequest image k v sig s = _
  rw [execModuleAdmissionRequest, event_next (booted_of hp hb), wakeIdle_of_not_idle hi]
  dsimp only
  rw [h]
  rfl

theorem fuseOf_eq (s : State) (k : BitVec 5) : (s.bed.fuses[k.toNat]?).getD 0 = fuseOf s k := by
  rw [Vector.getElem?_eq_getElem k.isLt]
  rfl

end Sys2Proof.Machine
end


section
/-! O45, parts: debug requests on harts and on survey cores (02 R47, R49). -/

namespace Sys2Proof.Machine

open Sys2Proof.Claims

variable {s s1 s2 : State} {g hid : Nat} {x : Hart}

/-! ### Halts and steps -/

theorem holdsRequests_of_not_serving (hp : Powered s) (h : ¬ Serving s) : holdsRequests s = true := by
  rw [holdsRequests_iff]
  by_contra none
  rw [not_or, Bool.not_eq_true] at none
  obtain ⟨hpwr, hpend⟩ := none
  exact h ⟨hp, hpwr, hpend⟩

/-- A hart without a yield request is halted and no save begins. -/
theorem debugHalt_active (hx : findHart s g hid = some x) (hs : Serving s) (hm : x.mode = .active)
    (hy : x.ypend.getLsbD 63 = false) :
    debugHalt s g hid x = mapHart s g hid fun y => { y with mode := .debugHalt } := by
  have unposted : Hart.stopsAtOnce { x with mode := .debugHalt } = false := by
    unfold Hart.stopsAtOnce ypP
    rw [hy, Bool.false_and]
  unfold debugHalt
  rw [if_pos (by simp [hm, holdsRequests_of_serving hs]), stopIfWaiting, findHart_mapHart_same, hx]
  dsimp only [Option.map_some]
  rw [unposted]
  rfl

theorem debugHalt_held (h : holdsRequests s = true) : debugHalt s g hid x = s := by
  unfold debugHalt
  rw [if_neg (by simp [h])]

theorem debugStep_unanswered {owner : BitVec 16} {hid : BitVec 4} (hx : findHart s g hid.toNat = some x)
    (ha : x.answer = none) :
    debugStep s owner g hid =
      { mapHart s g hid.toNat (fun y => { y with mode := .active }) with
        agenda := [.turn (.slice g hid.toNat .as), .turn (.slice g hid.toNat .cs),
          .event (.debugHaltRequest owner (.hart g hid) .halt)] ++ s.agenda } := by
  unfold debugStep
  rw [takeAnswer_none _ _ _ fun y hy => ?_]
  · rfl
  · rw [findHart_mapHart_same, hx] at hy
    cases hy
    exact ha

/-! ### Registers and memory -/

/-- A part of 64 bits of a vector register. -/
theorem debugRead_vector (vrlen : Nat) (r : BitVec 5) (k : Nat) :
    debugRead s vrlen x (.vector r k) = BitVec.ofNat 64 ((x.vreg r).bits / 2 ^ (64 * k) % 2 ^ 64) := by
  rw [← bitsOf_eq]
  rfl

theorem ok_of_tried {α : Type} {m : M α} {v : α} (h : tried m s = (.ok v, s1)) : m s = .ok v s1 := by
  unfold tried attempt at h
  cases e : m s with
  | ok w t => simpa [e] using h
  | error r t => cases r <;> simp [e] at h

/-- Leaves that are dirty already are left as they are. -/
theorem markDirty_dirty {f : Found} (hd : f.leaves.all (fun e => pteD e.pte) = true) : f.markDirty s = .ok () s := by
  have same : f.leaves.foldl setDirty s = s := by
    generalize f.leaves = l at hd
    induction l with
    | nil => rfl
    | cons e l ih =>
      rw [List.all_cons, Bool.and_eq_true] at hd
      obtain ⟨he, hl⟩ := hd
      rw [List.foldl_cons, setDirty_of_set he, ih hl]
  unfold Found.markDirty
  rw [M.modify_run, same]

theorem debugLoad_run (hx : findHart s g hid = some x) {va n : Nat} {f : Found} {b : List Byte} (hn : n ≤ 8)
    (hl : locateCtx (hartXlat s g hid).noWindows .load va n s = .ok f s1)
    (hr : readLocs x.abuf f.locs va s1 = .ok b s2) : debugLoad s g hid va n s = .ok b s2 := by
  unfold debugLoad
  rw [Nat.min_eq_left hn, M.bind_ok hl, hx]
  exact hr

theorem debugStore_run {va : Nat} {data : List Byte} {f : Found} (hn : data.length ≤ 8)
    (hl : locateCtx (hartXlat s g hid).noWindows .store va data.length s = .ok f s1)
    (hd : f.leaves.all (fun e => pteD e.pte) = true) :
    debugStore s g hid va data s = .ok () (homeWrite s1 f.locs data) := by
  unfold debugStore
  simp only [List.take_of_length_le hn]
  rw [M.bind_ok hl, writeFound, M.bind_ok (markDirty_dirty hd), M.modify_run]

section Survey

variable {va n : Nat} {l : List Nat}

theorem below_windows (hv : va < Config.pubWindow) : ¬ Config.regWindow ≤ va ∧ ¬ Config.pubWindow ≤ va := by
  have order : Config.pubWindow ≤ Config.regWindow := by decide
  omega

/-- Below bedrock's registers a survey core reads and writes local HBM (log 12). -/
theorem surveyLoad_run (hv : va < Config.pubWindow) (hl : physLocs s va n = some l)
    (hq : ∀ p ∈ l, poisoned s p = false) : surveyLoad va n s = .ok (l.map (memRead s.mem)) s := by
  obtain ⟨hreg, hpub⟩ := below_windows hv
  unfold surveyLoad
  rw [M.bind_ok (M.get_run s), if_neg (by simp [hreg]), if_neg (by simp [hpub]), hl]
  dsimp only
  rw [any_poisoned_eq_false hq]
  rfl

theorem surveyStore_run {data : List Byte} (hv : va < Config.pubWindow) (hl : physLocs s va data.length = some l) :
    surveyStore va data s = .ok () (homeWrite s l data) := by
  obtain ⟨hreg, hpub⟩ := below_windows hv
  unfold surveyStore
  rw [M.bind_ok (M.get_run s)]
  dsimp only
  rw [if_neg (by simp [hreg]), if_neg (by simp [hpub]), hl]
  rfl

end Survey

/-! ### `DEBUG_HALT_REQUEST` on a hart -/

section Hart

variable {owner : BitVec 16} {hid : BitVec 4} {act : DebugAct}

theorem exec_debugHart_refused (hp : Powered s) (hd : s.bed.dbg.toNat < 2) :
    exec (.debugHaltRequest owner (.hart g hid) act) s = .next s := by
  have level : ¬ 2 ≤ s.bed.dbg.toNat := Nat.not_le_of_lt hd
  change execDebugHaltRequest owner (.hart g hid) act s = _
  rw [execDebugHaltRequest, event_next (powered_of hp)]
  simp [debugsHart, level]

variable (hp : Powered s) (hd : 2 ≤ s.bed.dbg.toNat) (hsec : s.bed.sec = 2)
include hp hd hsec

theorem exec_debugHart :
    exec (.debugHaltRequest owner (.hart g hid) act) s = .next (debugHart s owner g hid act) := by
  change execDebugHaltRequest owner (.hart g hid) act s = _
  rw [execDebugHaltRequest, event_next (powered_of hp)]
  simp [debugsHart, hd, hsec]

variable (hx : findHart s g hid.toNat = some x)
include hx

theorem exec_debugHart_halt :
    exec (.debugHaltRequest owner (.hart g hid) .halt) s = .next (debugHalt s g hid.toNat x) := by
  rw [exec_debugHart hp hd hsec, debugHart, hx]

theorem exec_debugHart_step (hs : Serving s) (hm : x.mode = .debugHalt) :
    exec (.debugHaltRequest owner (.hart g hid) .step) s = .next (debugStep s owner g hid) := by
  rw [exec_debugHart hp hd hsec, debugHart, hx]
  dsimp only
  rw [if_pos (by simp [hm, holdsRequests_of_serving hs])]

theorem exec_debugHart_read (r : DebugReg) :
    exec (.debugHaltRequest owner (.hart g hid) (.read r)) s =
      .next (debugGives s (debugRead s (((findLaunch s g).map (·.vrlen)).getD 4096) x r)) := by
  rw [exec_debugHart hp hd hsec, debugHart, hx]
  rfl

theorem exec_debugHart_write (r : DebugReg) (v : Word) :
    exec (.debugHaltRequest owner (.hart g hid) (.write r v)) s =
      .next (mapHart s g hid.toNat fun y => debugWrite (((findLaunch s g).map (·.vrlen)).getD 4096) y r v) := by
  rw [exec_debugHart hp hd hsec, debugHart, hx]

theorem exec_debugHart_memRead {va : Word} {n : Nat} {b : List Byte}
    (hl : debugLoad s g hid.toNat va.toNat n s = .ok b s2) :
    exec (.debugHaltRequest owner (.hart g hid) (.memRead va n)) s =
      .next (debugGives s2 (BitVec.ofNat 64 (bytesToNat b))) := by
  rw [exec_debugHart hp hd hsec, debugHart, hx]
  dsimp only
  rw [tried_ok hl]
  rfl

theorem exec_debugHart_memWrite {va : Word} {data : List Byte}
    (hl : debugStore s g hid.toNat va.toNat data s = .ok () s2) :
    exec (.debugHaltRequest owner (.hart g hid) (.memWrite va data)) s = .next s2 := by
  rw [exec_debugHart hp hd hsec, debugHart, hx]
  dsimp only
  rw [tried_ok hl]

end Hart

/-! ### `DEBUG_HALT_REQUEST` on a survey core -/

section SurveyCore

variable {owner : BitVec 16} {k : BitVec 2} {act : DebugAct}

theorem exec_debugSurvey_refused (hp : Powered s) (hd : s.bed.dbg ≠ 3) :
    exec (.debugHaltRequest owner (.survey k) act) s = .next s := by
  change execDebugHaltRequest owner (.survey k) act s = _
  rw [execDebugHaltRequest, event_next (powered_of hp)]
  dsimp only
  rw [if_neg hd]

variable (hp : Powered s) (hd : s.bed.dbg = 3)
include hp hd

theorem exec_debugSurvey :
    exec (.debugHaltRequest owner (.survey k) act) s = .next (debugSurvey s owner k act) := by
  change execDebugHaltRequest owner (.survey k) act s = _
  rw [execDebugHaltRequest, event_next (powered_of hp)]
  dsimp only
  rw [if_pos hd]

theorem exec_debugSurvey_halt (hs : Serving s) (hm : (surveyOf s k.toNat).mode = .running) :
    exec (.debugHaltRequest owner (.survey k) .halt) s =
      .next (mapSurvey s k.toNat fun x => { x with mode := .halted }) := by
  rw [exec_debugSurvey hp hd, debugSurvey, if_pos (by simp [hm, holdsRequests_of_serving hs])]

theorem exec_debugSurvey_step (hs : Serving s) (hm : (surveyOf s k.toNat).mode = .halted) :
    exec (.debugHaltRequest owner (.survey k) .step) s =
      .next { mapSurvey s k.toNat (fun x => { x with mode := .running }) with
        agenda := [.turn (.survey k.toNat), .event (.debugHaltRequest owner (.survey k) .halt)] ++ s.agenda } := by
  rw [exec_debugSurvey hp hd, debugSurvey, if_pos (by simp [hm, holdsRequests_of_serving hs])]
  rfl

theorem exec_debugSurvey_memRead {va : Word} {n : Nat} {b : List Byte} (hn : n ≤ 8)
    (hl : surveyLoad va.toNat n s = .ok b s2) :
    exec (.debugHaltRequest owner (.survey k) (.memRead va n)) s =
      .next (debugGives s2 (BitVec.ofNat 64 (bytesToNat b))) := by
  rw [exec_debugSurvey hp hd, debugSurvey, Nat.min_eq_left hn, tried_ok hl]
  rfl

theorem exec_debugSurvey_memWrite {va : Word} {data : List Byte} (hn : data.length ≤ 8)
    (hl : surveyStore va.toNat data s = .ok () s2) :
    exec (.debugHaltRequest owner (.survey k) (.memWrite va data)) s = .next s2 := by
  rw [exec_debugSurvey hp hd, debugSurvey, List.take_of_length_le hn, tried_ok hl]

end SurveyCore

/-- Settles O45: each clause is what its request does, or that it does nothing, by the lemmas of the parts above. -/
theorem bedrockAndDebugRequests : Obligations.BedrockAndDebugRequests := by
  refine ⟨fun s hp hi => ⟨fun level => ?level, fun nonce => ?quote, fun hb k n sig => exec_counterAdvance_unbooted hb,
      fun hb k n sig => ?counter, fun hb image k v sig => ?admission⟩,
    fun s owner hp => ⟨fun g hid x hx => ?hart, fun k => ?survey⟩⟩
  case level => exact ⟨exec_debugRequest_granted hp, exec_debugRequest_refused hp⟩
  case quote =>
    exact ⟨fun hk => ⟨freeBytes s 0 32, freeBytes_length .., fun sig => exec_quoteRequest_signed hp hi hk,
      exec_quoteRequest_unsigned hp hi hk⟩, exec_quoteRequest_keyless hp hi⟩
  case counter => exact ⟨exec_counterAdvance_advances hp hi hb, exec_counterAdvance_refused hp hi hb⟩
  case admission =>
    intro digest signed
    rw [← fuseOf_eq]
    refine ⟨fun no => ?_, fun hk hv hc => ⟨fun e he => ⟨fun hf => ?_, fun hf => ?_⟩,
      fun he => ⟨fun sd hl => ?_, fun sd => ?_⟩⟩⟩
    · exact exec_moduleAdmissionRequest (f := id) hp hi hb (admitDigest_refused no)
    · exact exec_moduleAdmissionRequest hp hi hb (admitDigest_cached hk hv hc he hf)
    · exact exec_moduleAdmissionRequest hp hi hb (admitDigest_stale hk hv hc he hf)
    · exact exec_moduleAdmissionRequest hp hi hb (admitDigest_signed hk hv hc sd he hl)
    · exact exec_moduleAdmissionRequest (f := id) hp hi hb (admitDigest_unsigned hk hv hc sd he)
  case hart =>
    intro asks vrlen xl
    refine ⟨fun hd hsec => ⟨fun hs hm hy => ?_, fun hs => ?_, fun hs hm ha => ?_, fun sl r => ?_, fun sl => ?_, fun sl n => ?_,
      fun r k => ?_, fun sl r v => ?_, fun sl v => ?_, fun sl n v hrw => ?_, fun va n f s1 b s2 hn hl hr => ?_,
      fun va data f s1 hn hl hdirty => ?_⟩, fun hd act => exec_debugHart_refused hp hd⟩
    · rw [exec_debugHart_halt hp hd hsec hx, debugHalt_active hx hs hm hy]
    · rw [exec_debugHart_halt hp hd hsec hx, debugHalt_held (holdsRequests_of_not_serving hp hs)]
    · rw [exec_debugHart_step hp hd hsec hx hs hm, debugStep_unanswered hx ha]
    · exact exec_debugHart_read hp hd hsec hx (.scalar sl r)
    · exact exec_debugHart_read hp hd hsec hx (.pc sl)
    · exact exec_debugHart_read hp hd hsec hx (.ctl sl n)
    · rw [exec_debugHart_read hp hd hsec hx (.vector r k), debugRead_vector]
    · exact exec_debugHart_write hp hd hsec hx (.scalar sl r) v
    · exact exec_debugHart_write hp hd hsec hx (.pc sl) v
    · rw [exec_debugHart_write hp hd hsec hx (.ctl sl n) v]
      simp only [debugWrite, if_pos hrw]
      rfl
    · exact exec_debugHart_memRead hp hd hsec hx (debugLoad_run hx hn (ok_of_tried hl) (ok_of_tried hr))
    · exact exec_debugHart_memWrite hp hd hsec hx (debugStore_run hn (ok_of_tried hl) hdirty)
  case survey =>
    intro asks
    refine ⟨fun hd => ⟨exec_debugSurvey_halt hp hd, exec_debugSurvey_step hp hd, fun va n l hv hn hl => ?_⟩,
      fun hd act => exec_debugSurvey_refused hp hd⟩
    have below : va.toNat < Config.pubWindow := by unfold Config.pubWindow; omega
    refine ⟨fun hq => exec_debugSurvey_memRead hp hd hn (surveyLoad_run below hl hq), fun data hlen => ?_⟩
    subst hlen
    exact ⟨_, exec_debugSurvey_memWrite hp hd hn (surveyStore_run below hl), rfl, fun wf a ha => homeWrite_read_other wf ha⟩

end Sys2Proof.Machine
end


section
/-! O29: completion additions at a home, and the AS's `cwait` and `csig` on a completion object (03 R56, R392, 15 R348). -/

namespace Sys2Proof.Machine

open Sys2Proof.Claims

variable {s s1 s2 : State} {h : Here} {x x1 x2 : Hart} {d a b : RegField}

/-! ### The value of a completion object -/

theorem completionValue_lt (old n : Nat) (e : Bool) : completionValue old n e < 2 ^ 64 := by
  unfold completionValue
  split <;> omega

/-- An addition counts modulo 2^63, whatever the error flag. -/
theorem completionValue_mod (old n : Nat) (e : Bool) : completionValue old n e % 2 ^ 63 = (old + n) % 2 ^ 63 := by
  unfold completionValue
  split <;> omega

/-- The error flag is set by the addition, or stays set. -/
theorem completionValue_div {old : Nat} (h : old < 2 ^ 64) (n : Nat) (e : Bool) :
    completionValue old n e / 2 ^ 63 = if e = true ∨ 2 ^ 63 ≤ old then 1 else 0 := by
  have flag : (e || old.testBit 63) = true ↔ e = true ∨ 2 ^ 63 ≤ old := by
    rw [Bool.or_eq_true, Nat.testBit_eq_decide_div_mod_eq, decide_eq_true_eq]
    exact or_congr_right (by omega)
  unfold completionValue
  simp only [flag]
  split <;> omega

/-! ### An addition at its home -/

/-- Distinct locations hold the bytes that were written over all of them. -/
theorem homeRead_homeWrite {l : List Nat} {v : List Byte} (wf : s.MemWf) (hl : l.Nodup) (hv : l.length = v.length) :
    homeRead (homeWrite s l v) l = v :=
  map_memRead_memWriteAll wf hl hv

theorem bytesToNat_homeRead_lt {l : List Nat} (hl : l.length = 8) : bytesToNat (homeRead s l) < 2 ^ 64 := by
  have := bytesToNat_lt (homeRead s l)
  rw [homeRead, List.length_map, hl] at this
  exact this

/-- The object's number after an addition to a unit that is not poisoned. -/
theorem bytesToNat_completionAdd {who : Adder} {pa n : Nat} {tag : Word} {l : List Nat} {e : Bool} (wf : s.MemWf)
    (clean : ∀ p ∈ l, poisoned s p = false) (len : l.length = 8) (dis : l.Nodup) :
    bytesToNat (homeRead (completionAdd who pa tag l n e s) l) = completionValue (bytesToNat (homeRead s l)) n e := by
  have fits : completionValue (bytesToNat (homeRead s l)) n e < 256 ^ 8 := completionValue_lt ..
  rw [completionAdd_clean clean, homeRead_homeWrite wf dis (by simp [len]), bytesToNat_natToBytes]
  exact Nat.mod_eq_of_lt fits

/-! ### The AS's stores, and going on -/

theorem here?_congr {t : State} (hc : t.cur = s.cur) (hg : t.gangs = s.gangs) : here? t = here? s := by
  unfold here?
  simp only [hc, findHart_of_gangs hg]

theorem Runs.congr {t : State} (r : Runs s h x) (hc : t.cur = s.cur) (hg : t.gangs = s.gangs) : Runs t h x :=
  ⟨(here?_congr hc hg).trans r.who, (findHart_of_gangs hg).trans r.hart⟩

theorem foldl_performWrite_cur (ws : List PWrite) (s : State) : (ws.foldl performWrite s).cur = s.cur := by
  induction ws generalizing s with
  | nil => rfl
  | cons w ws ih => exact ih (performWrite s w)

/-- Performing an agent's stores leaves the executing hart executing. -/
theorem Runs.drainBuf (r : Runs s h x) (sl : SliceId) : Runs (drainBuf s h.gang h.hid sl) h (x.performed sl) := by
  refine ⟨?_, by rw [findHart_drainBuf_same, r.hart]; rfl⟩
  unfold Machine.drainBuf
  rw [r.hart]
  simp only
  rw [here?_mapHart, here?_congr (foldl_performWrite_cur _ s) (foldl_performWrite_frame _ s).1, r.who]

/-- The AS's stores that can be sent leave none pending. -/
theorem performed_as_of_sendable (ok : Sendable x .as) : (x.closeStores.performed .as).buf .as = [] :=
  staying_eq_nil fun w hw => (canGo_iff w).mpr ⟨(ok w hw).2 rfl, (ok w hw).1⟩

/-- A release by the AS goes on once its stores have been performed. -/
theorem drain_run (r : Runs s h x) (ok : Sendable x .as) : drain .as s = .ok () (drained s h .as) := by
  have after := (r.mapHart fun y => y.closeStores).drainBuf .as
  unfold drain
  rw [M.bind_ok (hereM_run r.who), M.bind_ok (modHart_run r.who _), M.bind_ok (M.modify_run _ _), M.bind_ok (hartM_run after),
    performed_as_of_sendable ok]
  rfl

/-- The slice goes on past an instruction of n bytes that leaves its hart to what has been done. -/
theorem finish_advance (r : Runs s h x) (n : Nat) :
    finish (.slice h) (advance n s) = .next (goOn s h ((x.slice h.sl).pc + BitVec.ofNat 64 n) id) := by
  have pc : (Cpu.slice h).pc s = (x.slice h.sl).pc := by simp [Cpu.pc, r.hart]
  rw [advance_run r.cpu, pc]
  simp [finish, Cpu.setPc, goOn, mapHart_mapHart]

theorem asOnly_admits (hs : h.sl = .as) : asOnly.admits (.slice h) = true := by simp [asOnly, Belongs.admits, hs]

theorem reg_of_runs (r : Runs s h x) (k : RegField) : (Cpu.slice h).reg s k = x.getReg h.sl k := by simp [Cpu.reg, r.hart]

/-! ### `cwait` -/

/-- `cwait` once it has observed its word. -/
theorem exec_cwait_observed {v : Word} (r : Runs s h x) (hs : h.sl = .as) (ho : observeWord (x.getReg .as a) s = .ok v s1) :
    exec (.cwait d a b) s = finish (.slice h)
      ((if (x.getReg .as b).toNat ≤ v.toNat % 2 ^ 63 then (do setX d v; advance 4) else waitAt .cwait : M Unit) s1) := by
  change execCwait d a b s = _
  unfold execCwait
  rw [runScalar_run r.cpu (asOnly_admits hs), M.bind_ok (getX_run r.cpu a), M.bind_ok (getX_run r.cpu b), reg_of_runs r,
    reg_of_runs r, hs, M.bind_ok ho]

theorem exec_cwait_reached {v : Word} (r : Runs s h x) (hs : h.sl = .as) (r1 : Runs s1 h x1)
    (ho : observeWord (x.getReg .as a) s = .ok v s1) (hv : (x.getReg .as b).toNat ≤ v.toNat % 2 ^ 63) :
    exec (.cwait d a b) s = .next (goOn s1 h (x1.as_.pc + 4) fun y => y.setReg .as d v) := by
  have pc : (Cpu.slice h).pc s1 = x1.as_.pc := by simp [Cpu.pc, r1.hart, hs, Hart.slice]
  rw [exec_cwait_observed r hs ho, if_pos hv, writes_run r1.cpu, pc]
  simp [retire, goOn, hs]

theorem exec_cwait_waits {v : Word} (r : Runs s h x) (hs : h.sl = .as) (ho : observeWord (x.getReg .as a) s = .ok v s1)
    (hv : v.toNat % 2 ^ 63 < (x.getReg .as b).toNat) : exec (.cwait d a b) s = .next (waits s1 h .cwait) := by
  rw [exec_cwait_observed r hs ho, if_neg (by omega)]
  rfl

/-! ### `csig` -/

theorem addAt_frame (p : List Nat × Nat × Option TlbEntry) (by_ : Adder) (tag : Word) (n : Nat) (e : Bool) (g : Option Nat)
    (s : State) : (addAt p by_ tag n e g s).cur = s.cur ∧ (addAt p by_ tag n e g s).gangs = s.gangs := by
  unfold addAt
  split
  · exact ⟨rfl, rfl⟩
  · unfold completionAdd
    split <;> exact ⟨rfl, rfl⟩

/-- `csig` adds to its object as it finds it once the AS's older stores have been performed. -/
theorem exec_csig_placed {p : List Nat × Nat × Option TlbEntry} (r : Runs s h x) (hs : h.sl = .as) (r1 : Runs s1 h x1)
    (r2 : Runs s2 h x2) (ok : Sendable x1 .as) (hc : objectCheck (hartXlat s h.gang h.hid) (x.getReg .as a) s = .ok () s1)
    (hp : objectPlace (hartXlat s h.gang h.hid) (x.getReg .as a) (drained s1 h .as) = .ok p s2) :
    exec (.csig a b) s = .next (goOn (addAt p .csig (tagOwnerOf s2 h.gang) ((x.getReg .as b).toNat % 2 ^ 63)
      ((x.getReg .as b).getLsbD 63) none s2) h (x2.as_.pc + 4) id) := by
  obtain ⟨hcur, hgangs⟩ := addAt_frame p .csig (tagOwnerOf s2 h.gang) ((x.getReg .as b).toNat % 2 ^ 63)
    ((x.getReg .as b).getLsbD 63) none s2
  change execCsig a b s = _
  unfold execCsig
  rw [runScalar_run r.cpu (asOnly_admits hs), M.bind_ok (getX_run r.cpu a), M.bind_ok (getX_run r.cpu b), reg_of_runs r,
    reg_of_runs r, hs, M.bind_ok (hereM_run r.who), M.bind_ok (M.get_run s), M.bind_ok hc, M.bind_ok (drain_run r1 ok),
    M.bind_ok hp, M.bind_ok (M.modify_run _ _), finish_advance (r2.congr hcur hgangs), hs]
  rfl

/-- Settles O29: an addition by the value it leaves at its home, `cwait` by what it observed, `csig` by where its object is. -/
theorem completionResults : Obligations.CompletionResults := by
  refine ⟨fun s who pa tag locs n e wf => ⟨fun bad => ?poisoned, fun clean len dis => ?clean⟩,
    fun s s1 h x x1 d a b r hs r1 => ⟨fun v ho => ⟨exec_cwait_reached r hs r1 ho, exec_cwait_waits r hs ho⟩,
      fun s2 x2 locs pa r2 ok hc => ⟨fun hp => exec_csig_placed r hs r1 r2 ok hc hp,
        fun leaf hp => ⟨_, rfl, rfl, rfl, rfl, rfl, exec_csig_placed r hs r1 r2 ok hc hp⟩⟩⟩⟩
  case poisoned =>
    rw [completionAdd_poisoned (List.any_eq_true.mp bad)]
    exact ⟨rfl, rfl, _, rfl, rfl, rfl⟩
  case clean =>
    have each : ∀ p ∈ locs, poisoned s p = false := by simpa using clean
    simp only [bytesToNat_completionAdd wf each len dis]
    refine ⟨?_, completionValue_mod .., completionValue_div (bytesToNat_homeRead_lt len) n e, fun l hl => ?_⟩ <;>
      rw [completionAdd_clean each]
    · rfl
    · exact homeWrite_read_other wf hl

end Sys2Proof.Machine
end


section
/-! O47, parts: records at a launch port, and what its queue and its done objects become (03 R58, R62, R66, R67). -/

namespace Sys2Proof.Machine

open Sys2Proof.Claims

variable {s s1 s2 : State} {p : BitVec 8} {r : Record} {c : PortCtx} {l m : Launch} {v : Word} {n code : Nat}

/-! ### The queue of a port -/

theorem mem_portQueue {q : Nat} : l ∈ portQueue s q ↔ l ∈ s.launches ∧ l.port = q ∧ l.passed = false := by
  simp [portQueue]

/-- The state without a launch. -/
def withoutLaunch (s : State) (id : Nat) : State := { s with launches := s.launches.filter fun x => x.id != id }

theorem portQueue_withoutLaunch (s : State) (id q : Nat) :
    portQueue (withoutLaunch s id) q = (portQueue s q).filter fun x => x.id != id := by
  simp only [portQueue, withoutLaunch, List.filter_filter, Bool.and_comm]

/-- A change of launches that leaves their ports, and lets none pass, changes them where they stand in the queue. -/
theorem portQueue_mapLaunch {f : Launch → Launch} (hf : ∀ x, (f x).port = x.port ∧ (f x).passed = x.passed) (id q : Nat) :
    portQueue (mapLaunch s id f) q = (portQueue s q).map fun x => if x.id = id then f x else x := by
  unfold portQueue mapLaunch
  rw [List.filter_map]
  refine congrArg _ (List.filter_congr fun x _ => ?_)
  obtain ⟨hport, hpassed⟩ := hf x
  simp only [Function.comp]
  split
  · rw [hport, hpassed]
  · rfl

/-- A change of a launch that keeps its number is lost when the launch leaves. -/
theorem withoutLaunch_mapLaunch {f : Launch → Launch} (hf : ∀ x, (f x).id = x.id) (s : State) (id : Nat) :
    withoutLaunch (mapLaunch s id f) id = withoutLaunch s id := by
  have keep : ((s.launches.map fun x => if x.id = id then f x else x).filter fun x => x.id != id) =
      s.launches.filter fun x => x.id != id := by
    induction s.launches with
    | nil => rfl
    | cons x rest ih => by_cases e : x.id = id <;> simp [e, hf, ih]
  unfold withoutLaunch mapLaunch
  rw [keep]

theorem mapLaunch_mapLaunch {f g : Launch → Launch} (hf : ∀ x, (f x).id = x.id) (s : State) (id : Nat) :
    mapLaunch (mapLaunch s id f) id g = mapLaunch s id fun x => g (f x) := by
  unfold mapLaunch
  simp only [List.map_map]
  congr 1
  refine List.map_congr_left fun x _ => ?_
  by_cases e : x.id = id <;> simp [e, hf]

/-! ### Records at the head of a queue (R67) -/

theorem passHeads_empty {q : Nat} (hq : portQueue s q = []) : passHeads q n s = s := by
  cases n with
  | zero => rfl
  | succ n => simp [passHeads, hq]

theorem passHeads_unseen {q : Nat} {rest : List Launch} (hq : portQueue s q = l :: rest) (hs : l.seen = none) :
    passHeads q n s = s := by
  cases n with
  | zero => rfl
  | succ n => simp [passHeads, hq, hs]

/-- The head of a queue passes now. -/
def headPasses (s : State) (id : Nat) : State := mapLaunch s id fun x => { x with passed := true, since := s.ntime }

/-- A record that stood alone in its queue leaves it empty as it passes. -/
theorem portQueue_headPasses {q : Nat} (hq : portQueue s q = [l]) : portQueue (headPasses s l.id) q = [] := by
  rw [List.eq_nil_iff_forall_not_mem]
  intro x hx
  obtain ⟨hmem, hport, hpassed⟩ := mem_portQueue.mp hx
  obtain ⟨y, hy, rfl⟩ := List.mem_map.mp hmem
  split at hpassed
  · cases hpassed
  · next ne =>
    rw [if_neg ne] at hport
    have only : y ∈ portQueue s q := mem_portQueue.mpr ⟨hy, hport, hpassed⟩
    rw [hq, List.mem_singleton] at only
    exact ne (congrArg Launch.id only)

/-- A head that has been seen passes, unless its object's error bit refuses it. -/
theorem passHeads_passes {q : Nat} {rest : List Launch} (hq : portQueue s q = l :: rest) (hs : l.seen = some v)
    (hw : l.record.werr = false ∨ v.getLsbD 63 = false) : passHeads q (n + 1) s = passHeads q n (headPasses s l.id) := by
  have no : (l.record.werr && v.getLsbD 63) = false := by rw [Bool.and_eq_false_iff]; exact hw
  simp only [passHeads, hq, hs, no, Bool.false_eq_true, if_false]
  rfl

theorem passHeads_refuses {q : Nat} {rest : List Launch} (hq : portQueue s q = l :: rest) (hs : l.seen = some v)
    (hw : l.record.werr = true) (hv : v.getLsbD 63 = true) :
    passHeads q (n + 1) s = passHeads q n (refuseAccepted s l 9) := by
  simp only [passHeads, hq, hs, hw, hv, Bool.and_self, if_true]

/-! ### A refusal, and the done object (R66) -/

@[simp] theorem portOf_setPort (s : State) (p : BitVec 8) (x : Port) : portOf (setPort s p x) p = x := by
  simp [portOf, setPort]

theorem portQueue_refused (q : Nat) : portQueue (refused s p code) q = portQueue s q := rfl

section DoneObject

variable {port : Nat} {e : Bool} {b : List Byte} {leaf : TlbEntry}

theorem doneAdd_none {refusal : Bool} (h : c.en = false ∨ r.donea = 0 ∨ r.donea.toNat % 8 ≠ 0) :
    doneAdd s port r c n e refusal = s := by
  unfold doneAdd
  simp only
  rw [if_pos (by rcases h with h | h | h <;> simp [h])]

variable (hen : c.en = true) (hd : r.donea ≠ 0) (h8 : r.donea.toNat % 8 = 0)
include hen hd h8

/-- The guard of an addition that is to be made. -/
theorem doneAdd_guard : (!c.en || decide (r.donea = 0) || r.donea.toNat % 8 != 0) = false := by
  rw [hen, decide_eq_false hd, h8]
  rfl

theorem doneAdd_unread {k : TrapInfo} (hl : tried (readCtx (ctxXlat (portDie port) c) r.donea.toNat 8) s = (.trap k, s1)) :
    doneAdd s port r c n e true = s1 := by
  simp only [doneAdd, doneAdd_guard hen hd h8, Bool.false_eq_true, if_false, if_true, loadOk, if_neg hd, accessCheck, hl]

omit hen h8 in
/-- An object's page is eligible just if its leaf meets R57. -/
theorem attrOk_leaf {x : Xlat} (hp : tried (pageLeaf x .load false r.donea.toNat r.donea.toNat) s = (.ok leaf, s1)) :
    attrOk x r.donea s = (if leafR57 leaf.pte = true then .holds else .fails, s1) := by
  unfold attrOk accessCheck
  rw [if_neg hd]
  by_cases m : leafR57 leaf.pte = true
  · rw [tried_ok ((M.bind_ok (ok_of_tried hp)).trans (by rw [if_pos m]; rfl)), if_pos m]
  · rw [tried_trap ((M.bind_ok (ok_of_tried hp)).trans (by rw [if_neg m]; rfl)), if_neg m]

theorem doneAdd_ineligible (hl : tried (readCtx (ctxXlat (portDie port) c) r.donea.toNat 8) s = (.ok b, s1))
    (hp : tried (pageLeaf (ctxXlat (portDie port) c) .load false r.donea.toNat r.donea.toNat) s1 = (.ok leaf, s2))
    (hm : leafR57 leaf.pte = false) : doneAdd s port r c n e true = s2 := by
  simp only [doneAdd, doneAdd_guard hen hd h8, Bool.false_eq_true, if_false, if_true, loadOk, if_neg hd, accessCheck, hl,
    attrOk_leaf hd hp, hm]

theorem doneAdd_adds {s3 : State} {locs : List Nat} {pa : Nat}
    (hl : tried (readCtx (ctxXlat (portDie port) c) r.donea.toNat 8) s = (.ok b, s1))
    (hp : tried (pageLeaf (ctxXlat (portDie port) c) .load false r.donea.toNat r.donea.toNat) s1 = (.ok leaf, s2))
    (hm : leafR57 leaf.pte = true)
    (ho : tried (objectPlace (ctxXlat (portDie port) c) r.donea) s2 = (.ok (locs, pa, none), s3)) :
    doneAdd s port r c n e true = completionAdd .sequencer pa (tagOwnerRec r c) locs n e s3 := by
  simp only [doneAdd, doneAdd_guard hen hd h8, Bool.false_eq_true, if_false, if_true, loadOk, if_neg hd, accessCheck, hl,
    attrOk_leaf hd hp, hm, addThrough, ho, addAt]

end DoneObject

/-- A refusal that adds nothing. -/
theorem refuse_plain (h : code = 5 ∨ c.en = false ∨ r.donea = 0 ∨ r.donea.toNat % 8 ≠ 0) :
    refuse s p code (some (r, c)) = refused s p code := by
  unfold refuse
  simp only
  split
  · rfl
  · next no => exact doneAdd_none (h.resolve_left fun e => no (by simp [e]))

theorem refuse_doneAdd (h1 : code ≠ 1) (h5 : code ≠ 5) :
    refuse s p code (some (r, c)) = doneAdd (refused s p code) p.toNat r c r.gangs true true := by
  unfold refuse
  simp only
  rw [if_neg (by simp [h1, h5])]
  rfl

/-- A record refused for its contents counts at its port, and its done object receives what R66 says. -/
theorem refusedWith_refuse (h1 : code ≠ 1) : refusedWith s (refuse s p code (some (r, c))) p r c code := by
  refine ⟨fun h => refuse_plain ?_, fun hd h8 hen h5 s1 => ⟨fun k hl => ?_, fun b e s2 hl hp =>
    ⟨fun hm => ?_, fun locs pa s3 hm ho => ?_⟩⟩⟩
  · rcases h with h | h | h | h
    · exact .inr (.inr (.inl h))
    · exact .inr (.inr (.inr h))
    · exact .inr (.inl h)
    · exact .inl h
  · rw [refuse_doneAdd h1 h5, doneAdd_unread hen hd h8 hl]
  · rw [refuse_doneAdd h1 h5, doneAdd_ineligible hen hd h8 hl hp hm]
  · rw [refuse_doneAdd h1 h5, doneAdd_adds hen hd h8 hl hp hm ho]

/-! ### A record that arrives (R58, R66) -/

section Arrival

variable {off : Nat} {data : List Byte}

theorem portArrives_retain (h : s.bed.pwr = 2) :
    portArrives p off data s = { s with heldReqs := s.heldReqs ++ [.record p off data] } := by
  rw [portArrives, if_pos h]
  rfl

theorem portArrives_awake (h : s.bed.pwr ≠ 2) : portArrives p off data s = recordArrives (wakeIdle s) p off data := by
  rw [portArrives, if_neg h]

theorem holdsFor_iff : holdsFor s p = true ↔ ∃ o d, HeldReq.record p o d ∈ s.heldReqs := by
  unfold holdsFor
  rw [List.any_eq_true]
  constructor
  · rintro ⟨q, hq, e⟩
    split at e
    · exact ⟨_, _, (beq_iff_eq.mp e) ▸ hq⟩
    · cases e
  · rintro ⟨o, d, hm⟩
    exact ⟨_, hm, by simp⟩

theorem recordArrives_behind (h : ∃ o d, HeldReq.record p o d ∈ s.heldReqs) :
    recordArrives s p off data = { s with heldReqs := s.heldReqs ++ [.record p off data] } := by
  rw [recordArrives, if_pos (holdsFor_iff.mpr h)]

section First

variable (first : ∀ o d, HeldReq.record p o d ∉ s.heldReqs)
include first

theorem holdsFor_first : holdsFor s p = false := by
  rw [← Bool.not_eq_true, holdsFor_iff]
  exact fun ⟨o, d, hm⟩ => first o d hm

theorem recordArrives_stalls (h : portWrite s p off data none = (.stalls, s1)) :
    recordArrives s p off data = { s1 with heldReqs := s1.heldReqs ++ [.record p off data] } := by
  simp [recordArrives, holdsFor_first first, h]

theorem recordArrives_ends {o : PortEnd} (h : portWrite s p off data none = (o, s1)) (ho : o ≠ .stalls) :
    recordArrives s p off data = s1 := by
  cases o with
  | accepted => simp [recordArrives, holdsFor_first first, h]
  | refused => simp [recordArrives, holdsFor_first first, h]
  | stalls => exact absurd rfl ho

end First

theorem portWrite_size (h : data.length ≠ 64 ∨ off ≠ 0) : portWrite s p off data none = (.refused, refused s p 1) := by
  unfold portWrite
  rw [if_pos (by simpa using h)]
  rfl

/-! ### The checks of a record of 64 bytes -/

variable (hlen : data.length = 64)
include hlen

theorem portWrite_full (h : 16 ≤ (portQueue s p.toNat).length) :
    portWrite s p 0 data none = (.refused, refuse s p 2 (some (parseRecord data, portCtx s p))) := by
  simp [portWrite, hlen, h]

variable (room : (portQueue s p.toNat).length < 16)
include room

theorem portWrite_closed (h : (portCtx s p).en = false) :
    portWrite s p 0 data none = (.refused, refuse s p 5 (some (parseRecord data, portCtx s p))) := by
  simp [portWrite, hlen, Nat.not_le.mpr room, h]

variable (hen : (portCtx s p).en = true)
include hen

theorem portWrite_version (h : (parseRecord data).ver ≠ 1) :
    portWrite s p 0 data none = (.refused, refuse s p 3 (some (parseRecord data, portCtx s p))) := by
  simp [portWrite, hlen, Nat.not_le.mpr room, hen, h]

variable (hver : (parseRecord data).ver = 1)
include hver

theorem portWrite_field (h : (parseRecord data).fieldOk (portCtx s p) = false) :
    portWrite s p 0 data none = (.refused, refuse s p 4 (some (parseRecord data, portCtx s p))) := by
  simp [portWrite, hlen, Nat.not_le.mpr room, hen, hver, h]

variable (hfield : (parseRecord data).fieldOk (portCtx s p) = true)
include hfield

/-- A record whose own fields pass ends as the checks of what it names do. -/
theorem portWrite_stalls (h : lateChecks s p (parseRecord data) (portCtx s p) = (s1, .stalls)) :
    portWrite s p 0 data none = (.stalls, s1) := by
  simp [portWrite, hlen, Nat.not_le.mpr room, hen, hver, hfield, h]

theorem portWrite_late (h : lateChecks s p (parseRecord data) (portCtx s p) = (s1, .refused code)) :
    portWrite s p 0 data none = (.refused, refuse s1 p code (some (parseRecord data, portCtx s p))) := by
  simp [portWrite, hlen, Nat.not_le.mpr room, hen, hver, hfield, h]

theorem portWrite_admitted {mi : MetaInfo} {digest : BitVec 512}
    (h : lateChecks s p (parseRecord data) (portCtx s p) = (s1, .admitted mi digest)) :
    portWrite s p 0 data none = (.accepted, acceptRecord s1 p (parseRecord data) (portCtx s p) mi digest) := by
  simp [portWrite, hlen, Nat.not_le.mpr room, hen, hver, hfield, h]

end Arrival

/-- A code object is refused with ADMIT or META. -/
theorem codeChecks_code {x : Xlat} {tag : Word} (h : codeChecks x r tag s = (s1, .refused code)) : code = 6 ∨ code = 10 := by
  unfold codeChecks at h
  split at h
  case h_1 =>
    split at h
    · cases h
      exact .inr rfl
    · split at h <;> cases h
      exact .inl rfl
  case h_2 => cases h; exact .inr rfl
  case h_3 => cases h; exact .inl rfl
  case h_4 => cases h

/-- The checks from CODE on never refuse for the size of the write. -/
theorem lateChecks_code (h : lateChecks s p r c = (s1, .refused code)) : code ≠ 1 := by
  unfold lateChecks at h
  simp only at h
  split at h
  · cases h; decide
  · cases h
  · split at h
    · rcases codeChecks_code h with e | e <;> simp [e]
    · cases h; decide

/-! ### A record that is accepted -/

/-- The state in which a record has been accepted, before records pass. -/
def accepted (s : State) (p : BitVec 8) (r : Record) (c : PortCtx) (m : MetaInfo) (digest : BitVec 512) : State :=
  { setPort s p { portOf s p with acc := (portOf s p).acc + 1 } with
    launches := s.launches ++ [newLaunch s p.toNat r c m digest], nextLaunch := s.nextLaunch + 1 }

theorem portQueue_accepted (s : State) (p : BitVec 8) (r : Record) (c : PortCtx) (m : MetaInfo) (digest : BitVec 512) :
    portQueue (accepted s p r c m digest) p.toNat = portQueue s p.toNat ++ [newLaunch s p.toNat r c m digest] := by
  simp [portQueue, accepted, newLaunch]

theorem acceptRecord_eq (s : State) (p : BitVec 8) (r : Record) (c : PortCtx) (m : MetaInfo) (digest : BitVec 512) :
    acceptRecord s p r c m digest = passHeads p.toNat 16 (accepted s p r c m digest) := rfl

section Accept

variable {mi : MetaInfo} {digest : BitVec 512} (alone : portQueue s p.toNat = [])
include alone

theorem acceptRecord_waits (hw : r.waita ≠ 0) : acceptRecord s p r c mi digest = accepted s p r c mi digest := by
  have hq := portQueue_accepted s p r c mi digest
  rw [alone, List.nil_append] at hq
  rw [acceptRecord_eq]
  exact passHeads_unseen hq (if_neg hw)

theorem acceptRecord_passes (hw : r.waita = 0) :
    acceptRecord s p r c mi digest = headPasses (accepted s p r c mi digest) s.nextLaunch := by
  have hq := portQueue_accepted s p r c mi digest
  rw [alone, List.nil_append] at hq
  rw [acceptRecord_eq, passHeads_passes hq (if_pos hw) (.inr (by simp))]
  exact passHeads_empty (portQueue_headPasses hq)

end Accept

theorem mem_headPasses_accepted (s : State) (p : BitVec 8) (r : Record) (c : PortCtx) (mi : MetaInfo) (digest : BitVec 512) :
    { newLaunch s p.toNat r c mi digest with passed := true, since := s.ntime } ∈
      (headPasses (accepted s p r c mi digest) s.nextLaunch).launches :=
  List.mem_map.mpr ⟨newLaunch s p.toNat r c mi digest, by simp [accepted], if_pos rfl⟩

theorem acc_headPasses_accepted (s : State) (p : BitVec 8) (r : Record) (c : PortCtx) (mi : MetaInfo) (digest : BitVec 512)
    (id : Nat) : (portOf (headPasses (accepted s p r c mi digest) id) p).acc = (portOf s p).acc + 1 :=
  congrArg Port.acc (portOf_setPort s p { portOf s p with acc := (portOf s p).acc + 1 })

end Sys2Proof.Machine
end


section
/-! O47: wait objects that are observed or answered for (03 R67), and the events of a launch port. -/

namespace Sys2Proof.Machine

open Sys2Proof.Claims

variable {s s1 s2 : State} {p : BitVec 8} {r : Record} {l m : Launch} {v : Word} {id : Nat}

/-! ### A value of a wait object -/

theorem record_passes_iff : l.record.passes v = true ↔ l.record.waitv.toNat ≤ v.toNat % 2 ^ 63 := by
  simp [Record.passes]

theorem observeValue_early (h : v.toNat % 2 ^ 63 < l.record.waitv.toNat) : observeValue s l v = s := by
  rw [observeValue, if_neg (by rw [record_passes_iff]; omega)]

section Alone

variable (hv : l.record.waitv.toNat ≤ v.toNat % 2 ^ 63) (hq : portQueue s l.port = [l])
include hv hq

/-- A passing value is looked at at the head of the queue. -/
theorem observeValue_head : observeValue s l v = passHeads l.port 1 (mapLaunch s l.id fun x => { x with seen := some v }) ∧
    portQueue (mapLaunch s l.id fun x => { x with seen := some v }) l.port = [{ l with seen := some v }] := by
  refine ⟨?_, ?_⟩
  · rw [observeValue, if_pos (record_passes_iff.mpr hv), hq]
    rfl
  · rw [portQueue_mapLaunch (f := fun x => { x with seen := some v }) (fun _ => ⟨rfl, rfl⟩), hq]
    simp

/-- With WERR set the error bit refuses the record. -/
theorem observeValue_refuses (hw : l.record.werr = true) (he : v.getLsbD 63 = true) :
    observeValue s l v = refuseAccepted s l 9 := by
  obtain ⟨value, queue⟩ := observeValue_head hv hq
  have gone := withoutLaunch_mapLaunch (f := fun x => { x with seen := some v }) (fun _ => rfl) s l.id
  rw [value, passHeads_refuses queue rfl hw he]
  exact congrArg (fun u => refuse u (BitVec.ofNat 8 l.port) 9 (some (l.record, l.ctx))) gone

theorem observeValue_passes (hw : l.record.werr = false ∨ v.getLsbD 63 = false) : observeValue s l v = hasPassed s l v := by
  obtain ⟨value, queue⟩ := observeValue_head hv hq
  rw [value, passHeads_passes queue rfl hw]
  exact mapLaunch_mapLaunch (f := fun x => { x with seen := some v }) (fun _ => rfl) s l.id

end Alone

/-! ### A record whose wait object fails -/

theorem refuseAccepted_eq (s : State) (l : Launch) (code : Nat) :
    refuseAccepted s l code = refuse (withoutLaunch s l.id) (BitVec.ofNat 8 l.port) code (some (l.record, l.ctx)) := rfl

theorem refuseWait_eq (s : State) (l : Launch) :
    refuseWait s l = passHeads l.port (portQueue (refuseAccepted s l 7) l.port).length (refuseAccepted s l 7) := rfl

section NoDone

variable (hd : l.record.donea = 0)
include hd

theorem refuseAccepted_noDone : refuseAccepted s l 7 = refused (withoutLaunch s l.id) (BitVec.ofNat 8 l.port) 7 := by
  rw [refuseAccepted_eq, refuse_plain (.inr (.inr (.inl hd)))]

theorem refuseWait_alone (hq : portQueue s l.port = [l]) :
    refuseWait s l = refused (withoutLaunch s l.id) (BitVec.ofNat 8 l.port) 7 := by
  rw [refuseWait_eq, refuseAccepted_noDone hd]
  refine passHeads_empty ?_
  rw [portQueue_refused, portQueue_withoutLaunch, hq]
  simp

/-- The record behind it, already seen, passes. -/
theorem refuseWait_next (hq : portQueue s l.port = [l, m]) (ne : m.id ≠ l.id) (hm : m.seen = some v)
    (hv : v.getLsbD 63 = false) :
    refuseWait s l = headPasses (refused (withoutLaunch s l.id) (BitVec.ofNat 8 l.port) 7) m.id := by
  have queue : portQueue (refused (withoutLaunch s l.id) (BitVec.ofNat 8 l.port) 7) l.port = [m] := by
    rw [portQueue_refused, portQueue_withoutLaunch, hq]
    simp [ne]
  rw [refuseWait_eq, refuseAccepted_noDone hd, queue, List.length_singleton, passHeads_passes queue hm (.inr hv)]
  rfl

end NoDone

/-! ### Observations by the sequencer -/

section Observe

variable (hp : l.passed = false) (hs : l.seen = none) (hw : l.record.waita ≠ 0)
include hp hs hw

/-- The sequencer looks at the object of a record that waits. -/
theorem observeWait_guard : (l.passed || decide (l.record.waita = 0) || (l.seen.isSome && !false)) = false := by
  rw [hp, hs, decide_eq_false hw]
  rfl

theorem observeWait_value {b : List Byte}
    (hr : tried (waitRemote (ctxXlat (portDie l.port) l.ctx) l.record.waita.toNat) s = (.ok false, s1))
    (hb : tried (readCtx (ctxXlat (portDie l.port) l.ctx) l.record.waita.toNat 8) s1 = (.ok b, s2)) :
    observeWait s l = observeValue s2 l (BitVec.ofNat 64 (bytesToNat b)) := by
  simp only [observeWait, observeWait_guard hp hs hw, Bool.false_eq_true, if_false, hr, hb]

/-- A trap that is no poison: of the look at the page, or of the load. -/
theorem observeWait_unobserved {k : TrapInfo}
    (ht : tried (waitRemote (ctxXlat (portDie l.port) l.ctx) l.record.waita.toNat) s = (.trap k, s1) ∨
      ∃ s0, tried (waitRemote (ctxXlat (portDie l.port) l.ctx) l.record.waita.toNat) s = (.ok false, s0) ∧
        tried (readCtx (ctxXlat (portDie l.port) l.ctx) l.record.waita.toNat 8) s0 = (.trap k, s1))
    (hk : k.cause ≠ cMCHK) : observeWait s l = refuseWait s1 l := by
  rcases ht with ht | ⟨s0, hr, ht⟩
  · simp only [observeWait, observeWait_guard hp hs hw, Bool.false_eq_true, if_false, ht, if_neg hk]
  · simp only [observeWait, observeWait_guard hp hs hw, Bool.false_eq_true, if_false, hr, ht, if_neg hk]

theorem observeWait_remote
    (hr : tried (waitRemote (ctxXlat (portDie l.port) l.ctx) l.record.waita.toNat) s = (.ok true, s1)) :
    observeWait s l =
      let note : Notice := ⟨3, .dependence, [l.tagOwner, BitVec.ofNat 64 l.id, l.record.waita, l.record.waitv]⟩
      if note ∈ s1.notices then s1 else { s1 with notices := s1.notices ++ [note] } := by
  simp only [observeWait, observeWait_guard hp hs hw, Bool.false_eq_true, if_false, hr]
  simp only [hs, Option.isSome_none, Bool.false_or, List.contains_iff_mem]
  rfl

end Observe

/-! ### The events -/

theorem exec_launchRecordWrite (hp : Powered s) (hs : s.bed.stage = 3) (off : Nat) (data : List Byte) :
    exec (.launchRecordWrite p off data) s = .next (portArrives p off data s) := by
  unfold Powered at hp
  exact event_next (by simp [booted, hp, hs])

theorem exec_launchRecordWrite_active (hp : Powered s) (hs : s.bed.stage = 3) (h0 : s.bed.pwr = 0) (off : Nat)
    (data : List Byte) : exec (.launchRecordWrite p off data) s = .next (recordArrives s p off data) := by
  rw [exec_launchRecordWrite hp hs, portArrives_awake (by rw [h0]; decide), wakeIdle_of_not_idle (by rw [h0]; decide)]

theorem ver_eq (r : Record) : r.ver = r.ctrl.toNat % 8 := by simp [Record.ver, bitsOf_eq]

theorem exec_waitObjectObserve (ha : Awake s) (hf : findLaunchId s id = some l) :
    exec (.waitObjectObserve id) s = .next (observeWait s l) := by
  change execWaitObjectObserve id s = _
  rw [execWaitObjectObserve, event_next (awake_of ha), hf]

/-- A launch that waits, and that a notice has named to the dependence owner. -/
theorem dependent_of (hf : findLaunchId s id = some l) (hp : l.passed = false) (hs : l.seen = none)
    (hn : ∃ n ∈ s.notices, n.kind = .dependence ∧ (n.words[1]?).getD 0 = BitVec.ofNat 64 id) : dependent s id = some l := by
  have asked : (s.notices.any fun n => n.kind == .dependence && (n.words[1]?).getD 0 == BitVec.ofNat 64 id) = true := by
    simpa using hn
  simp only [dependent, hf, asked, hp, hs, Option.isNone_none, Bool.not_false, Bool.and_self, if_true]

theorem exec_dependenceRelease (hp : Powered s) (hd : dependent s id = some l) (v : Word) :
    exec (.dependenceRelease id v) s = .next (observeValue s l v) := by
  change execDependenceRelease id v s = _
  rw [execDependenceRelease, event_next (powered_of hp), hd]

theorem exec_dependenceFail (hp : Powered s) (hd : dependent s id = some l) :
    exec (.dependenceFail id) s = .next (refuseWait s l) := by
  change execDependenceFail id s = _
  rw [execDependenceFail, event_next (powered_of hp), hd]

/-- Settles O47: a record by the first check that it fails, and a wait object by what is seen of it. -/
theorem launchPortEvents : Obligations.LaunchPortEvents := by
  refine fun s stage => ⟨?record, fun id l passed seen found => ?wait⟩
  case record =>
    intro p off data writes held
    refine ⟨fun hp h2 => ?retain, fun hp h1 => ?idle, fun hp h0 hh => ?behind, fun hp h0 first => ?checks⟩
    case retain => exact (exec_launchRecordWrite hp stage off data).trans (congrArg _ (portArrives_retain h2))
    case idle =>
      have awake : wakeIdle s = withBed s fun b => { b with pwr := 0 } := if_pos h1
      have slept := exec_launchRecordWrite (p := p) hp stage off data
      rw [portArrives_awake (by rw [h1]; decide), awake] at slept
      exact slept.trans (exec_launchRecordWrite_active (s := withBed s fun b => { b with pwr := 0 }) hp stage rfl off data).symm
    case behind => exact (exec_launchRecordWrite_active hp stage h0 off data).trans (congrArg _ (recordArrives_behind hh))
    case checks =>
      intro r c
      have arrives := exec_launchRecordWrite_active (p := p) hp stage h0 off data
      have ends {o : PortEnd} {s1 : State} (h : portWrite s p off data none = (o, s1)) (ho : o ≠ .stalls) : writes s = .next s1 :=
        arrives.trans (congrArg _ (recordArrives_ends first h ho))
      refine ⟨fun size => ends (portWrite_size size) (by decide), fun len hoff => ?_⟩
      subst hoff
      refine ⟨fun full => ⟨_, ends (portWrite_full len full) (by decide), refusedWith_refuse (by decide)⟩,
        fun room en => ⟨_, ends (portWrite_closed len room en) (by decide), refusedWith_refuse (by decide)⟩,
        fun room en ver => ⟨_, ends (portWrite_version len room en (by rwa [ver_eq])) (by decide), refusedWith_refuse (by decide)⟩,
        fun room en ver field => ⟨_, ends (portWrite_field len room en (by rwa [ver_eq]) field) (by decide),
          refusedWith_refuse (by decide)⟩,
        fun room en ver field => ⟨fun s1 late => ?stalls, fun s1 code late => ?refused, fun s1 m digest late alone =>
          ⟨fun hw => ?waits, fun hw => ?passes⟩⟩⟩
      all_goals rw [← ver_eq] at ver
      case stalls =>
        exact arrives.trans (congrArg _ (recordArrives_stalls first (portWrite_stalls len room en ver field late)))
      case refused =>
        exact ⟨_, ends (portWrite_late len room en ver field late) (by decide), refusedWith_refuse (lateChecks_code late)⟩
      case waits =>
        rw [ends (portWrite_admitted len room en ver field late) (by decide), acceptRecord_waits alone hw]
        rfl
      case passes =>
        refine ⟨_, { newLaunch s1 p.toNat r c m digest with passed := true, since := s1.ntime },
          ends (portWrite_admitted len room en ver field late) (by decide), ?_, rfl, rfl, rfl, rfl, ?_⟩ <;>
          rw [acceptRecord_passes alone hw]
        · exact mem_headPasses_accepted ..
        · exact acc_headPasses_accepted ..
  case wait =>
    intro leaves answers without failed xl va
    obtain rfl : l.id = id := by simpa using List.find?_some found
    have answer {i : Instr} {v : Word} {s2 : State} (h : exec i s = .next (observeValue s2 l v)) : answers i v s2 := by
      refine ⟨fun early => h.trans (congrArg _ (observeValue_early early)), fun hv hq => ⟨fun hw he => ⟨_, h, ?_⟩, fun hw => ?_⟩⟩
      · rw [observeValue_refuses hv hq hw he]
        exact refusedWith_refuse (by decide)
      · exact h.trans (congrArg _ (observeValue_passes hv hq hw))
    have fails {i : Instr} {s1 : State} (h : exec i s = .next (refuseWait s1 l)) : failed i s1 ∧
        (l.record.donea = 0 → portQueue s1 l.port = [l] → exec i s = .next (without s1)) :=
      ⟨⟨_, refusedWith_refuse (by decide), h⟩, fun hd hq => h.trans (congrArg _ (refuseWait_alone hd hq))⟩
    refine ⟨fun ha hw s1 => ⟨fun b s2 hr hb => ?_, fun k ht hk => ?_, fun hr => ?_⟩, fun hp asked => ?_⟩
    · exact answer ((exec_waitObjectObserve ha found).trans (congrArg _ (observeWait_value passed seen hw hr hb)))
    · exact fails ((exec_waitObjectObserve ha found).trans (congrArg _ (observeWait_unobserved passed seen hw ht hk)))
    · exact (exec_waitObjectObserve ha found).trans (congrArg _ (observeWait_remote passed seen hw hr))
    · have named := dependent_of found passed seen asked
      obtain ⟨hfailed, halone⟩ := fails (exec_dependenceFail hp named)
      exact ⟨fun v => answer (exec_dependenceRelease hp named v), hfailed, halone, fun hd m v hq ne hm hv =>
        (exec_dependenceFail hp named).trans (congrArg _ (refuseWait_next hd hq ne hm hv))⟩

end Sys2Proof.Machine
end


section
/-! O53, parts: cold text (03 R75): which wait of a hart a copy of its page ends, and what the event makes of it. -/

namespace Sys2Proof.Machine

open Sys2Proof.Claims

variable {s s1 : State} {gang page : Nat} {hid : BitVec 4} {g : Gang} {x : Hart} {va : Word} {ir : BitVec 6}
  {ppn : BitVec 36} {e : TlbEntry} {src : List Nat}

theorem coldPage?_eq_some {k : Cond} : k.coldPage? = some page ↔ k = .waiting (.coldText page) := by
  constructor
  · intro h
    unfold Cond.coldPage? at h
    split at h <;> cases h
    rfl
  · rintro rfl
    rfl

/-! ### A hart that takes an answer while a handler runs -/

theorem foldl_retranslate_tr (l : List (BitVec 5)) (x : Hart) :
    (l.foldl (fun h r => h.setStream r { h.stream r with dfault := none }) x).tr = x.tr := by
  induction l generalizing x with
  | nil => rfl
  | cons r l ih => rw [List.foldl_cons, ih]; rfl

theorem resumeHead_tr (x : Hart) (q : List VEntry) : (resumeHead x q).1.tr = x.tr := by
  unfold resumeHead
  split
  · split
    · rfl
    · split
      · exact foldl_retranslate_tr _ x
      · rfl
  · rfl

/-- With a handler running an answer keeps the trap registers and ends the system trap. -/
theorem resume_of_handlerOn (h : x.handlerOn = true) : x.resume.tr = x.tr ∧ x.resume.sysTrap = false := by
  unfold Hart.resume
  rw [if_pos h]
  simp [resumeHead_tr]

theorem answered_of_handlerOn (h : x.handlerOn = true) (tape : Option (Word × Word)) :
    (x.answered tape).tr = x.tr ∧ (x.answered tape).sysTrap = false := by
  cases tape with
  | none => exact resume_of_handlerOn h
  | some t =>
    unfold Hart.answered
    simp only
    split
    · exact resume_of_handlerOn (x := x.setTape t) h
    · exact resume_of_handlerOn h

/-- Then only the slice that took the trap resumes. -/
theorem answered_resumes (h : x.handlerOn = true) (tape : Option (Word × Word)) (sl : SliceId) :
    (x.answered tape).resumes sl = (x.tr.took == sl) := by
  obtain ⟨htr, hsys⟩ := answered_of_handlerOn h tape
  have on : (x.answered tape).handlerOn = true := by rw [Hart.handlerOn, htr]; exact h
  simp [Hart.resumes, hsys, on, htr]

/-! ### The checks on an answer -/

theorem resumeChecked_stays {k : Nat} {sl : SliceId} (hx : findHart s gang k = some x) (hr : x.resumes sl = false) :
    resumeChecked s gang k sl = .ok s := by
  simp [resumeChecked, hx, hr]

theorem resumeChecked_waits {k : Nat} {sl : SliceId} {w : WaitAt} (hx : findHart s gang k = some x) (hr : x.resumes sl = true)
    (hw : tried (checkResume sl (x.slice sl).pc) { s with cur := .slice gang k sl } = (.wait w, s1)) :
    resumeChecked s gang k sl = .error w := by
  simp [resumeChecked, hx, hr, hw]

/-- An answer to a hart whose handler runs waits for the page that the checks in the handler's slice wait for. -/
theorem answerCold_took {k : Nat} (hx : findHart s gang k = some x) (hr : ∀ sl, x.resumes sl = (x.tr.took == sl))
    (hw : tried (checkResume x.tr.took (x.slice x.tr.took).pc) { s with cur := .slice gang k x.tr.took } =
      (.wait (.coldText page), s1)) : answerCold s gang k page = some x.tr.took := by
  have waits := resumeChecked_waits hx (by simp [hr]) hw
  cases t : x.tr.took with
  | as => rw [t] at waits; simp [answerCold, waits]
  | cs =>
    rw [t] at waits
    simp [answerCold, waits, resumeChecked_stays hx (sl := .as) (by simp [hr, t])]

/-! ### The wait that a copy ends -/

section Wait

variable (hg : findGang s gang = some g) (hx : findHart s gang hid.toNat = some x)
include hg hx

theorem coldWait_slice (res : g.st = .resident) (mode : x.mode = .active ∨ x.mode = .debugHalt)
    (hc : x.as_.cond = .waiting (.coldText page) ∨ x.cs.cond = .waiting (.coldText page)) :
    coldWait s gang hid.toNat page =
      some (.slice (if x.as_.cond = .waiting (.coldText page) then .as else .cs)) := by
  have place : (g.st != .resident || !(x.mode = .active || x.mode = .debugHalt)) = false := by
    rcases mode with m | m <;> simp [res, m]
  simp only [coldWait, hg, hx, place, Bool.false_eq_true, if_false, coldPage?_eq_some]
  by_cases ha : x.as_.cond = .waiting (.coldText page)
  · simp [ha]
  · simp [ha, hc.resolve_left ha]

theorem coldWait_answer {tape : Option (Word × Word)} {sl : SliceId} (res : g.st = .resident) (mode : x.mode = .active)
    (ha : x.as_.cond ≠ .waiting (.coldText page)) (hc : x.cs.cond ≠ .waiting (.coldText page)) (hans : x.answer = some tape)
    (hw : answerCold (withAnswer s gang hid.toNat tape) gang hid.toNat page = some sl) :
    coldWait s gang hid.toNat page = some (.answer tape sl) := by
  simp [coldWait, hg, hx, res, mode, coldPage?_eq_some, ha, hc, hans, hw]

theorem coldWait_none (h : g.st ≠ .resident ∨ (x.mode ≠ .active ∧ x.mode ≠ .debugHalt) ∨
    (x.as_.cond ≠ .waiting (.coldText page) ∧ x.cs.cond ≠ .waiting (.coldText page) ∧ (x.mode ≠ .active ∨ x.answer = none))) :
    coldWait s gang hid.toNat page = none := by
  simp only [coldWait, hg, hx, coldPage?_eq_some]
  rcases h with h | ⟨ha, hd⟩ | ⟨ha, hc, h⟩
  · simp [h]
  · simp [ha, hd]
  · rcases h with h | h <;> simp [ha, hc, h]

/-- The answer of a hart whose handler's slice resumes on the page. -/
theorem coldWait_answered {tape : Option (Word × Word)} (res : g.st = .resident) (mode : x.mode = .active)
    (ha : x.as_.cond ≠ .waiting (.coldText page)) (hc : x.cs.cond ≠ .waiting (.coldText page)) (hans : x.answer = some tape)
    (on : x.handlerOn = true)
    (hw : ∃ s2, tried (checkResume x.tr.took ((x.answered tape).slice x.tr.took).pc)
      { withAnswer s gang hid.toNat tape with cur := .slice gang hid.toNat x.tr.took } = (.wait (.coldText page), s2)) :
    coldWait s gang hid.toNat page = some (.answer tape x.tr.took) := by
  obtain ⟨s2, hw⟩ := hw
  obtain ⟨htr, -⟩ := answered_of_handlerOn on tape
  have found : findHart (withAnswer s gang hid.toNat tape) gang hid.toNat = some { x.answered tape with answer := none } := by
    rw [withAnswer, findHart_mapHart_same, hx]
    rfl
  have took : ({ x.answered tape with answer := none } : Hart).tr.took = x.tr.took := congrArg TrapRegs.took htr
  refine coldWait_answer hg hx res mode ha hc hans ?_
  rw [← took]
  refine answerCold_took found (fun sl => ?_) (s1 := s2) ?_
  · rw [took]
    exact answered_resumes on tape sl
  · rw [took]
    exact hw

end Wait

/-! ### `COLD_TEXT_COPIED` -/

section Copied

variable {w : ColdWait} {reach : Bool} (hp : Powered s)
include hp

theorem exec_coldTextCopied_unwaited (hw : coldWait s gang hid.toNat (va.toNat / 65536) = none) :
    exec (.coldTextCopied gang hid va ir ppn reach) s = .next s := by
  change execColdTextCopied gang hid va ir ppn reach s = _
  rw [execColdTextCopied, event_next (powered_of hp), hw]

variable (hw : coldWait s gang hid.toNat (va.toNat / 65536) = some w)
  (hc : tried (coldPage (hartXlat s gang hid.toNat) va.toNat) s = (.ok (e, src), s1))
include hw hc

theorem exec_coldTextCopied_unreachable (hr : reach = false) : exec (.coldTextCopied gang hid va ir ppn reach) s =
    .next (coldFailed s1 gang hid.toNat w va.toNat) := by
  change execColdTextCopied gang hid va ir ppn reach s = _
  rw [execColdTextCopied, event_next (powered_of hp), hw]
  simp [hc, hr]

/-- The lowest poisoned byte of the page is reported. -/
theorem exec_coldTextCopied_poisoned {k q : Nat} (hr : reach = true) (hk : src[k]? = some q) (hq : poisoned s1 q = true)
    (low : ∀ q ∈ src.take k, poisoned s1 q = false) : exec (.coldTextCopied gang hid va ir ppn reach) s =
      .next (coldFailed s1 gang hid.toNat w (va.toNat / 65536 * 65536 + k)) := by
  have first : src.findIdx? (poisoned s1) = some k := by
    obtain ⟨hlt, rfl⟩ := List.getElem?_eq_some_iff.mp hk
    refine List.findIdx?_eq_some_iff_getElem.mpr ⟨hlt, hq, fun j hj => ?_⟩
    rw [low _ (List.mem_take_iff_getElem.mpr ⟨j, by omega, rfl⟩)]
    decide
  change execColdTextCopied gang hid va ir ppn reach s = _
  rw [execColdTextCopied, event_next (powered_of hp), hw]
  simp [hc, hr, first]

theorem exec_coldTextCopied_copied {dst : List Nat} (hr : reach = true) (clean : ∀ q ∈ src, poisoned s1 q = false)
    (hd : frameLocs s1 ir ppn = some dst) :
    exec (.coldTextCopied gang hid va ir ppn reach) s = .next (coldCopied s1 e src dst ir ppn) := by
  change execColdTextCopied gang hid va ir ppn reach s = _
  rw [execColdTextCopied, event_next (powered_of hp), hw]
  simp [hc, hr, List.findIdx?_eq_none_iff.mpr clean, hd]

end Copied

end Sys2Proof.Machine
end


section
/-! O53, parts: harts that wait (05 R105, 11 R229, R251), and stores that reach their homes (16 R358, R361, R362). -/

namespace Sys2Proof.Machine

open Sys2Proof.Claims

variable {s : State} {gang : Nat} {hid : BitVec 4} {g : Gang} {x : Hart}

/-! ### Slices that wait only for each other (05 R105) -/

theorem mutual_of (mode : x.mode = .active) (free : x.sysTrap = false) : x.mutual =
    (condMutual x.as_.cond && condMutual x.cs.cond && !(x.as_.cond.atRendezvous && x.cs.cond.atRendezvous)) := by
  simp [Hart.mutual, mode, free]

section Deadlock

variable (ha : Awake s) (hx : findHart s gang hid.toNat = some x)
include ha hx

theorem exec_qdeadlockExpiry_traps (hm : x.mutual = true) (hc : 65536 ≤ x.waitCount) : exec (.qdeadlockExpiry gang hid) s =
    .next (takeTrap s gang hid.toNat .as none
      { cause := cQDEADLOCK
        einfo := BitVec.ofNat 64 ((atQueue x.as_.cond).toNat + (atQueue x.cs.cond).toNat * 2) } true) := by
  change execQdeadlockExpiry gang hid s = _
  rw [execQdeadlockExpiry, event_next (awake_of ha), hx]
  simp [hm, hc]

theorem exec_qdeadlockExpiry_early (hc : x.waitCount < 65536) : exec (.qdeadlockExpiry gang hid) s = .next s := by
  change execQdeadlockExpiry gang hid s = _
  rw [execQdeadlockExpiry, event_next (awake_of ha), hx]
  simp [Nat.not_le.mpr hc]

end Deadlock

/-! ### Clocks that pass (05 R105) -/

theorem step_clocks {n : Nat} {rest : List Move} (h : s.agenda = .clocks n :: rest) :
    step s = .next (passClocks n { s with agenda := rest }) := by
  simp [step, stepWith, h]

theorem findGang_map {t : State} {f : Gang → Gang} (hid : ∀ y, (f y).id = y.id) (h : t.gangs = s.gangs.map f) :
    findGang t gang = (findGang s gang).map f := by
  unfold findGang
  rw [h, List.find?_map]
  simp only [Function.comp_def, hid]

theorem passClocks_gangs (ha : Awake s) (n : Nat) : ∃ u, (passClocks n s).gangs = s.gangs.map fun y =>
    if y.st = .resident then { y with harts := y.harts.mapIdx fun k h => h.after (readyBehind u y.id k) n } else y := by
  have on : ¬ s.bed.off = true := by rw [ha.1.1]; decide
  have runs := awake_of ha
  unfold passClocks
  rw [if_neg on]
  exact ⟨_, by rw [if_neg (by simpa [awake, clocked] using runs)]⟩

/-- What clocks make of a hart of a resident gang. -/
theorem findHart_passClocks (ha : Awake s) (hg : findGang s gang = some g) (res : g.st = .resident) {k : Nat}
    (hx : findHart s gang k = some x) (n : Nat) :
    ∃ behind, findHart (passClocks n s) gang k = some (x.after behind n) := by
  obtain ⟨u, hu⟩ := passClocks_gangs ha n
  have place : g.harts[k]? = some x := by rw [findHart, hg] at hx; exact hx
  refine ⟨readyBehind u g.id k, ?_⟩
  rw [findHart, findGang_map (fun y => by split <;> rfl) hu, hg]
  simp [res, place]

theorem after_waitCount (x : Hart) (behind : Nat → Bool) (n : Nat) :
    (x.after behind n).waitCount = if x.mutual then x.waitCount + n else x.waitCount := by
  have same : (x.passClocks behind n).mutual = x.mutual := rfl
  unfold Hart.after
  simp only [same]
  split <;> rfl

/-! ### Markers and held arrivals (11 R251) -/

theorem phases_frame (n : Nat) (g : Gang) : (g.phases n).id = g.id ∧ (g.phases n).harts = g.harts := by
  induction n generalizing g with
  | zero => exact ⟨rfl, rfl⟩
  | succ n ih =>
    unfold Gang.phases
    split
    · exact ih { g with ph := g.ph + 1 }
    · exact ⟨rfl, rfl⟩

theorem advance_frame (g : Gang) : g.advance.id = g.id ∧ g.advance.harts = g.harts := by
  unfold Gang.advance
  split
  · exact ⟨rfl, rfl⟩
  · exact phases_frame _ g

/-- A recheck of a gang's barrier changes no hart. -/
theorem findHart_advance (k h : Nat) : findHart (mapGang s gang Gang.advance) k h = findHart s k h := by
  unfold findHart
  rw [findGang_mapGang _ fun y => (advance_frame y).1]
  cases findGang s k with
  | none => rfl
  | some y =>
    simp only [Option.map_some, Option.bind_some]
    split
    · rw [(advance_frame y).2]
    · rfl

theorem firstFree_head {m : Nat × Nat} {l : List (Nat × Nat)} {buf : List PWrite} (h : ∀ w ∈ buf, m.2 ≤ w.seq) :
    firstFree (m :: l) buf = some 0 := by
  have free : (buf.all fun w => decide (m.2 ≤ w.seq)) = true := by simpa using h
  simp [firstFree, List.findIdx?_cons, free]

theorem firstFree_none {l : List (Nat × Nat)} {buf : List PWrite} (h : ∀ k ∈ l, ∃ w ∈ buf, w.seq < k.2) :
    firstFree l buf = none := by
  unfold firstFree
  rw [List.findIdx?_eq_none_iff]
  intro k hk
  obtain ⟨w, hw, lt⟩ := h k hk
  rw [← Bool.not_eq_true, List.all_eq_true]
  exact fun all => absurd (of_decide_eq_true (all w hw)) (by omega)

theorem fireMarker_marker {k : Nat × Nat} {n : List (Nat × Nat)} (hm : x.markers = k :: n) (hw : ∀ w ∈ x.cbuf, k.2 ≤ w.seq) :
    x.fireMarker = some { x with markers := n } := by
  simp [Hart.fireMarker, hm, firstFree_head hw]

section Markers

variable (hm : ∀ k ∈ x.markers, ∃ w ∈ x.cbuf, w.seq < k.2)
include hm

theorem fireMarker_held {k : Nat × Nat} {n : List (Nat × Nat)} (hk : x.asHeld = k :: n) (hw : ∀ w ∈ x.abuf, k.2 ≤ w.seq) :
    x.fireMarker = some { x with asHeld := n } := by
  simp [Hart.fireMarker, firstFree_none hm, hk, firstFree_head hw]

theorem fireMarker_none (hk : ∀ k ∈ x.asHeld, ∃ w ∈ x.abuf, w.seq < k.2) : x.fireMarker = none := by
  simp [Hart.fireMarker, firstFree_none hm, firstFree_none hk]

end Markers

section Fire

variable (hc : Clocked s) (hg : findGang s gang = some g) (hx : findHart s gang hid.toNat = some x)
include hc hg hx

theorem exec_garrMarkerFire_fires {y : Hart} (res : g.st = .resident) (hf : x.fireMarker = some y) :
    ∃ t, exec (.garrMarkerFire gang hid) s = .next t ∧ findHart t gang hid.toNat = some y ∧ t.mem = s.mem := by
  refine ⟨mapGang (mapHart s gang hid.toNat fun _ => y) gang Gang.advance, ?_, ?_, rfl⟩
  · change execGarrMarkerFire gang hid s = _
    rw [execGarrMarkerFire, event_next (clocked_of hc), hg, hx]
    simp [res, hf]
  · rw [findHart_advance, findHart_mapHart_same, hx]
    rfl

theorem exec_garrMarkerFire_none (hf : x.fireMarker = none) : exec (.garrMarkerFire gang hid) s = .next s := by
  change execGarrMarkerFire gang hid s = _
  rw [execGarrMarkerFire, event_next (clocked_of hc), hg, hx]
  simp [hf]

end Fire

/-! ### Stores that reach their homes (16 R358) -/

theorem mayPass_iff {sl : SliceId} {o w : PWrite} : mayPass sl o w = true ↔ passes sl o w := by
  cases sl with
  | as =>
    simp only [mayPass, passes, isPeer, Bool.and_eq_true, Bool.not_eq_true', Bool.and_eq_false_iff, List.all_eq_true,
      List.any_eq_false, decide_eq_true_eq, List.forall_mem_append, beq_iff_eq, and_assoc, List.any_eq_true, not_exists, not_and]
  | cs =>
    simp only [mayPass, passes, Bool.not_eq_true', List.any_eq_false, List.any_eq_true, beq_iff_eq, not_exists, not_and]

theorem mayPerform_iff {sl : SliceId} {buf : List PWrite} {k : Nat} {w : PWrite} :
    mayPerform sl buf k w = true ↔ (∀ o ∈ buf.take k, passes sl o w) ∧ canGo w := by
  simp only [mayPerform, Bool.and_eq_true, Bool.not_eq_true', List.all_eq_true, mayPass_iff, canGo_iff]
  exact and_comm

section Perform

variable {sl : SliceId} {k : Nat} {w : PWrite} (hx : findHart s gang hid.toNat = some x)
include hx

theorem exec_writePerformedAtHome (hp : Powered s) (hk : (x.buf sl)[k]? = some w) :
    exec (.writePerformedAtHome gang hid sl k) s = .next
      (if mayPerform sl (x.buf sl) k w then mapHart (performWrite s w) gang hid.toNat fun h => h.setBuf sl ((h.buf sl).eraseIdx k)
      else s) := by
  change execWritePerformedAtHome gang hid sl k s = _
  rw [execWritePerformedAtHome, event_next (powered_of hp), hx]
  simp [hk]

theorem findHart_writePerformed : findHart (mapHart (performWrite s w) gang hid.toNat fun h =>
    h.setBuf sl ((h.buf sl).eraseIdx k)) gang hid.toNat = some (x.setBuf sl ((x.buf sl).eraseIdx k)) := by
  rw [findHart_mapHart_same, findHart_of_gangs (performWrite_gangs s w), hx]
  rfl

end Perform

end Sys2Proof.Machine
end


section
/-! O53: what the siphon reads and translates ahead (05 R109), and the events of a hart in place. -/

namespace Sys2Proof.Machine

open Sys2Proof.Claims

variable {s s1 : State} {gang : Nat} {hid k : BitVec 4} {g : Gang} {x : Hart} {r : BitVec 5} {st : Stream} {d : Desc} {p : Nat}

/-! ### Translating ahead -/

/-- A page that grants the access lets the siphon go on, unless it is a DEV page. -/
theorem translateAhead_page {xl : Xlat} {n : Nat} {e : TlbEntry} (hw : inWindowSpan (d.elemAt p n).va = false)
    (hc : canonical (d.elemAt p n).va = true) (hp : (d.elemAt p n).va % 65536 + (d.elemAt p n).bytes ≤ 65536)
    (hl : pageLeaf xl (if d.wr then .store else .load) true (d.elemAt p n).va (d.elemAt p n).va s = .ok e s1) :
    translateAhead xl d p n s = .ok (!pteDEV e.pte) s1 := by
  have same : (d.elemAt p n).va + (d.elemAt p n).bytes ≤ (d.elemAt p n).va / 65536 * 65536 + 65536 := by omega
  unfold translateAhead
  simp only [hw, hc, Bool.not_true, Bool.or_self, Bool.false_eq_true, if_false]
  rw [M.bind_ok hl]
  cases hd : pteDEV e.pte with
  | true => rfl
  | false => simp [same]

/-- A stream of a hart changed. -/
def withStream (s : State) (g h : Nat) (r : BitVec 5) (f : Stream → Stream) : State :=
  mapHart s g h fun y => y.setStream r (f (y.stream r))

/-! ### An adopted descriptor -/

section Adopted

variable (hf : st.dfault = none) (hh : d.holds (max st.ahead st.pos) = true)
include hf hh

theorem walkAdopted_guard : (st.dfault.isSome || !d.holds (max st.ahead st.pos)) = false := by
  rw [hf, hh]
  rfl

section Stores

variable (hw : d.wr = true)
include hw

/-- Translations for four pages are held already. -/
theorem walkAdopted_far {h : Nat} (far : 4 < d.pagesTo st.pos (max st.ahead st.pos)) : walkAdopted s gang h r st d = s := by
  simp only [walkAdopted, walkAdopted_guard hf hh, Bool.false_eq_true, if_false, if_pos hw, if_pos far]

variable {h : Nat} (near : d.pagesTo st.pos (max st.ahead st.pos) ≤ 4) (kind : d.kind ≠ 2)
include near kind

theorem walkAdopted_translates {go : Bool}
    (ht : tried (translateAhead (hartXlat s gang h) d (max st.ahead st.pos) (fmtWidth d.fmt)) s = (.ok go, s1)) :
    walkAdopted s gang h r st d = withStream s1 gang h r fun y =>
      { y with ahead := if go then max st.ahead st.pos + 1 else max st.ahead st.pos } := by
  simp only [walkAdopted, walkAdopted_guard hf hh, Bool.false_eq_true, if_false, if_pos hw, if_neg (Nat.not_lt.mpr near),
    storeAhead, if_neg kind, ht]
  rfl

theorem walkAdopted_storeFault {t : TrapInfo}
    (ht : tried (translateAhead (hartXlat s gang h) d (max st.ahead st.pos) (fmtWidth d.fmt)) s = (.trap t, s1)) :
    walkAdopted s gang h r st d = withStream s1 gang h r fun y =>
      { y with dfault := some (walkFault t (max st.ahead st.pos)) } := by
  simp only [walkAdopted, walkAdopted_guard hf hh, Bool.false_eq_true, if_false, if_pos hw, if_neg (Nat.not_lt.mpr near),
    storeAhead, if_neg kind, ht]
  rfl

end Stores

section Loads

variable {h : Nat} (hw : d.wr = false)
include hw

theorem walkAdopted_reads {cells : List (Nat × Byte)} {next : Nat}
    (ht : tried (walkElem d st (max st.ahead st.pos)) { s with cur := .slice gang h .cs } = (.ok (.read cells next), s1)) :
    walkAdopted s gang h r st d = withStream { s1 with cur := s.cur } gang h r fun y =>
      { y with walk := y.walk ++ cells, ahead := next } := by
  simp only [walkAdopted, walkAdopted_guard hf hh, hw, Bool.false_eq_true, if_false, ht]
  rfl

theorem walkAdopted_stops
    (ht : tried (walkElem d st (max st.ahead st.pos)) { s with cur := .slice gang h .cs } = (.ok .stop, s1)) :
    walkAdopted s gang h r st d = { s1 with cur := s.cur } := by
  simp only [walkAdopted, walkAdopted_guard hf hh, hw, Bool.false_eq_true, if_false, ht]

theorem walkAdopted_loadFault {t : TrapInfo}
    (ht : tried (walkElem d st (max st.ahead st.pos)) { s with cur := .slice gang h .cs } = (.trap t, s1)) :
    walkAdopted s gang h r st d = withStream { s1 with cur := s.cur } gang h r fun y =>
      { y with dfault := some (walkFault t (max st.ahead st.pos)) } := by
  simp only [walkAdopted, walkAdopted_guard hf hh, hw, Bool.false_eq_true, if_false, ht]
  rfl

end Loads

end Adopted

/-! ### The events of a hart in place -/

theorem exec_siphonWalkAhead (ha : Awake s) (hg : findGang s gang = some g) (hx : findHart s gang hid.toNat = some x)
    (res : g.st = .resident) (mode : x.mode = .active) (hd : (x.stream (k.setWidth 5)).adopted = some d)
    (hf : (x.stream (k.setWidth 5)).dfault = none)
    (hh : d.holds (max (x.stream (k.setWidth 5)).ahead (x.stream (k.setWidth 5)).pos) = true) :
    exec (.siphonWalkAhead gang hid k) s =
      .next (walkAdopted s gang hid.toNat (k.setWidth 5) (x.stream (k.setWidth 5)) d) := by
  change execSiphonWalkAhead gang hid k s = _
  rw [execSiphonWalkAhead, event_next (awake_of ha), hg, hx]
  simp [res, mode, hd, hf, hh]

theorem exec_waitRecheck (ha : Awake s) : exec (.waitRecheck gang hid) s = .next (mapHart s gang hid.toNat fun y =>
    if y.mode = .active ∧ (y.as_.cond = .waiting .word ∨ y.as_.cond = .waiting .cwait) then
      { y with as_ := { y.as_ with cond := .running } }
    else y) := by
  change execWaitRecheck gang hid s = _
  rw [execWaitRecheck, event_next (awake_of ha)]
  simp only [Bool.and_eq_true, Bool.or_eq_true, decide_eq_true_eq, beq_iff_eq]
  rfl

/-- A copy that could not be made: MCHK at the address itself. -/
theorem coldFailed_slice (s : State) (g h : Nat) (sl : SliceId) (va : Word) :
    coldFailed s g h (.slice sl) va.toNat = takeTrap s g h sl none { cause := 0x1E, eaddr := va } := by
  simp [coldFailed, cMCHK]

theorem coldFailed_answer (s : State) (g h : Nat) (tape : Option (Word × Word)) (sl : SliceId) (va : Word) :
    coldFailed s g h (.answer tape sl) va.toNat =
      takeTrap (withAnswer s g h tape) g h sl none { cause := 0x1E, eaddr := va } := by
  simp [coldFailed, cMCHK]

/-- Settles O53: each event of a hart by the hart that it finds. -/
theorem hartEvents : Obligations.HartEvents := by
  intro s gang hid g x hg hx
  refine ⟨fun hp va ir ppn reach e src s1 hc => ?cold, fun ha mode free => ?deadlock, fun ha => exec_waitRecheck ha,
    fun hc res => ?markers, fun hp sl k w hk => ?stores, fun ha res mode k d => ?siphon⟩
  case cold =>
    intro copied cold
    refine ⟨fun res mode hcold => ?slice, fun tape res hna hnc mode hans on waits hr => ?answer, fun h => ?none⟩
    case slice =>
      have hw := coldWait_slice hg hx res mode hcold
      intro sl
      refine ⟨fun hr => ?_, fun k q hr hk hq low => exec_coldTextCopied_poisoned hp hw hc hr hk hq low,
        fun hr clean dst hd => exec_coldTextCopied_copied hp hw hc hr clean hd⟩
      rw [← coldFailed_slice]
      exact exec_coldTextCopied_unreachable hp hw hc hr
    case answer =>
      rw [← coldFailed_answer]
      exact exec_coldTextCopied_unreachable hp (coldWait_answered hg hx res mode hna hnc hans on waits) hc hr
    case none => exact exec_coldTextCopied_unwaited hp (coldWait_none hg hx h)
  case deadlock =>
    have together := mutual_of mode free
    refine ⟨fun hn hq hq' => ?_, fun hn hq hsn => ?_, exec_qdeadlockExpiry_early ha hx, fun n rest hag res => ?_⟩
    · rw [exec_qdeadlockExpiry_traps ha hx (by rw [together, hq, hq']; rfl) hn, hq, hq']
      rfl
    · rw [exec_qdeadlockExpiry_traps ha hx (by rw [together, hq, hsn]; rfl) hn, hq, hsn]
      rfl
    · obtain ⟨behind, hy⟩ := findHart_passClocks (s := { s with agenda := rest }) ha hg res hx n
      exact ⟨_, _, step_clocks hag, hy, by rw [after_waitCount, together]⟩
  case markers =>
    refine ⟨fun k n hk hw => ?_, fun hm => ⟨fun k n hk hw => ?_, fun hk => ?_⟩⟩
    · obtain ⟨t, ht, hy, hmem⟩ := exec_garrMarkerFire_fires hc hg hx res (fireMarker_marker hk hw)
      exact ⟨t, _, ht, hy, rfl, rfl, rfl, rfl, hmem⟩
    · obtain ⟨t, ht, hy, hmem⟩ := exec_garrMarkerFire_fires hc hg hx res (fireMarker_held hm hk hw)
      exact ⟨t, _, ht, hy, rfl, rfl, rfl, hmem⟩
    · exact exec_garrMarkerFire_none hc hg hx (fireMarker_none hm hk)
  case stores =>
    have run := exec_writePerformedAtHome hx hp hk
    refine ⟨fun pass go => ⟨_, _, ?_, findHart_writePerformed hx, Hart.buf_setBuf .., rfl,
      Hart.buf_setBuf_other .., Hart.setBuf_a .., Hart.setBuf_c ..⟩, fun stays => ?_⟩
    · rw [run, if_pos (mayPerform_iff.mpr ⟨pass, go⟩)]
    · rw [run, if_neg]
      rw [mayPerform_iff]
      rintro ⟨pass, go⟩
      rcases stays with ⟨o, ho, no⟩ | no
      · exact no (pass o ho)
      · exact no go
  case siphon =>
    intro r st p xl w walks put hd hf kind inside
    have holds : d.holds p = true := by simp [Desc.holds, kind, inside]
    have run := exec_siphonWalkAhead ha hg hx res mode hd hf holds
    have becomes {t : State} (h : walkAdopted s gang hid.toNat r st d = t) : walks = .next t := run.trans (congrArg _ h)
    refine ⟨fun hw => ⟨fun far => becomes (walkAdopted_far hf holds hw far), fun near =>
        ⟨fun go s1 ht => becomes (walkAdopted_translates hf holds hw near kind ht),
          fun t s1 ht => becomes (walkAdopted_storeFault hf holds hw near kind ht)⟩⟩,
      fun e s1 => ?page, fun hw s1 => ⟨fun cells next ht => becomes (walkAdopted_reads hf holds hw ht),
        fun ht => becomes (walkAdopted_stops hf holds hw ht), fun t ht => becomes (walkAdopted_loadFault hf holds hw ht)⟩⟩
    intro a hspan hcan hpage hl
    exact tried_ok (translateAhead_page hspan hcan hpage (ok_of_tried hl))

end Sys2Proof.Machine
end


section
/-! O20, parts: the phases of a gang's barrier, and what an arrival leaves (11 R250, R251). -/

namespace Sys2Proof.Machine

open Sys2Proof.Claims

variable {s : State} {g : Gang} {x : Hart} {k : Nat}

/-! ### Phases -/

/-- The model's check of an arrival is R250's. -/
theorem arrivedAt_iff : x.arrivedAt k = true ↔ hasArrived x k := by
  simp only [Hart.arrivedAt, Hart.asArrived, Hart.csArrived, hasArrived, Bool.or_eq_true, Bool.and_eq_true, beq_iff_eq,
    Bool.not_eq_true', List.any_eq_false, decide_eq_true_eq, List.forall_mem_append, not_and, and_assoc, ne_eq]

theorem all_arrivedAt_iff : (g.harts.all (·.arrivedAt k)) = true ↔ ∀ z ∈ g.harts, hasArrived z k := by
  simp only [List.all_eq_true, arrivedAt_iff]

/-- A hart that has not executed `exit` has not arrived at a phase beyond the arrivals of its AS. -/
theorem not_hasArrived_beyond (live : x.mode ≠ .exited) (h : x.asArr ≤ k) : ¬ hasArrived x k := by
  rintro (e | ⟨lt, -⟩)
  · exact live e
  · omega

/-- Phases are counted up to the first one that is not complete, when that one is among the n looked at. -/
theorem phasesDone_phases (n : Nat) (g : Gang) (last : ¬ ∀ z ∈ g.harts, hasArrived z (g.ph + n)) :
    phasesDone (g.phases n) g.ph := by
  induction n generalizing g with
  | zero => exact ⟨Nat.le_refl _, fun k lo hi => absurd hi (by simp only [Gang.phases]; omega), last⟩
  | succ n ih =>
    unfold Gang.phases
    split
    · next all =>
      rw [all_arrivedAt_iff] at all
      obtain ⟨le, upTo, not⟩ := ih { g with ph := g.ph + 1 } (by rwa [Nat.add_right_comm, Nat.add_assoc])
      have harts := (phases_frame n { g with ph := g.ph + 1 }).2
      refine ⟨by simp only at le; omega, fun k lo hi => ?_, not⟩
      by_cases first : k = g.ph
      · rw [harts, first]
        exact all
      · exact upTo k (by simp only; omega) hi
    · next short =>
      rw [all_arrivedAt_iff] at short
      exact ⟨Nat.le_refl _, fun k lo hi => absurd hi (by omega), short⟩

theorem le_foldl_max {α : Type} (f : α → Nat) {a : α} {l : List α} (m : Nat) (ha : a ∈ l ∨ f a ≤ m) :
    f a ≤ l.foldl (fun m b => max m (f b)) m := by
  induction l generalizing m with
  | nil => simpa using ha
  | cons b l ih =>
    refine ih _ ?_
    rcases ha with ha | ha
    · rcases List.mem_cons.mp ha with rfl | ha
      · exact .inr (Nat.le_max_right ..)
      · exact .inl ha
    · exact .inr (Nat.le_trans ha (Nat.le_max_left ..))

/-- A recheck of the barrier of a gang with a hart that has not executed `exit`. -/
theorem phasesDone_advance (hx : x ∈ g.harts) (live : x.mode ≠ .exited) : phasesDone g.advance g.ph := by
  have running : ¬ (g.harts.all (·.mode == .exited)) = true := by
    rw [List.all_eq_true]
    exact fun all => live (by simpa using all x hx)
  have bound := le_foldl_max (fun h : Hart => max h.asArr h.csArr) 0 (.inl hx)
  unfold Gang.advance
  rw [if_neg running]
  refine phasesDone_phases _ g fun all => not_hasArrived_beyond live ?_ (all x hx)
  omega

/-- What counts as an arrival is left alone. -/
def keepsArrivals (f : Hart → Hart) : Prop := ∀ y k, hasArrived (f y) k ↔ hasArrived y k

/-- A hart with the conditions of its slices and the counts of its issues replaced. -/
def Hart.reissued (y : Hart) (ka kc : Cond) (w : Nat) (cls passed : List Nat) : Hart :=
  { y with
    as_ := { y.as_ with cond := ka }, cs := { y.cs with cond := kc }, waitCount := w, issueClass := cls, passed := passed }

/-- What ends an instruction changes those and nothing else. -/
def onlyIssues (f : Hart → Hart) : Prop := ∀ y, ∃ ka kc w cls passed, f y = y.reissued ka kc w cls passed

theorem onlyIssues.keepsArrivals {f : Hart → Hart} (hf : onlyIssues f) : keepsArrivals f := by
  intro y k
  obtain ⟨ka, kc, w, cls, passed, e⟩ := hf y
  rw [e]
  exact Iff.rfl

theorem onlyIssues.comp {f f' : Hart → Hart} (hf : onlyIssues f) (hf' : onlyIssues f') : onlyIssues fun y => f' (f y) := by
  intro y
  obtain ⟨ka, kc, w, cls, passed, e⟩ := hf y
  obtain ⟨ka', kc', w', cls', passed', e'⟩ := hf' (f y)
  refine ⟨ka', kc', w', cls', passed', ?_⟩
  dsimp only
  rw [e', e]
  rfl

theorem onlyIssues_issued (sl : SliceId) : onlyIssues fun y => y.issued sl := by
  intro y
  cases sl <;> simp only [Hart.issued, Hart.slice] <;> split <;> exact ⟨_, _, _, _, _, rfl⟩

theorem onlyIssues_issuesOn (pri p : Nat) : onlyIssues fun y => y.issuesOn pri p := fun _ => ⟨_, _, _, _, _, rfl⟩

/-- Where no record is found a pipe's issue is not noted. -/
theorem noteIssue_mapHart (s : State) (k h : Nat) (p : Pipe) : ∃ f, onlyIssues f ∧ noteIssue s k h p = mapHart s k h f := by
  unfold noteIssue
  split
  · exact ⟨_, onlyIssues_issuesOn _ _, rfl⟩
  · exact ⟨fun y => y, fun _ => ⟨_, _, _, _, _, rfl⟩, (mapHart_fixed fun _ _ _ _ => rfl).symm⟩

theorem all_hasArrived_modify {f : Hart → Hart} (hf : keepsArrivals f) (l : List Hart) (i k : Nat) :
    (∀ z ∈ l.modify i f, hasArrived z k) ↔ ∀ z ∈ l, hasArrived z k := by
  simp only [List.forall_mem_iff_getElem, List.length_modify, List.getElem_modify]
  refine forall_congr' fun j => forall_congr' fun hj => ?_
  split
  · exact hf _ k
  · exact Iff.rfl

/-- A gang with hart i as f makes it. -/
def Gang.withHart (g : Gang) (i : Nat) (f : Hart → Hart) : Gang := { g with harts := g.harts.modify i f }

theorem phasesDone_withHart {f : Hart → Hart} (hf : keepsArrivals f) {p : Nat} (h : phasesDone g p) (i : Nat) :
    phasesDone (g.withHart i f) p := by
  obtain ⟨le, upTo, not⟩ := h
  exact ⟨le, fun k lo hi => (all_hasArrived_modify hf ..).mpr (upTo k lo hi), mt (all_hasArrived_modify hf ..).mp not⟩

theorem findGang_mapGang_same {f : Gang → Gang} (hid : ∀ y, (f y).id = y.id) :
    findGang (mapGang s k f) k = (findGang s k).map f := by
  rw [findGang_mapGang f hid]
  cases hg : findGang s k with
  | none => rfl
  | some y => simp [findGang_id hg]

theorem findGang_mapHart_same {h : Nat} {f : Hart → Hart} :
    findGang (mapHart s k h f) k = (findGang s k).map fun y => y.withHart h f := findGang_mapGang_same fun _ => rfl

theorem findHart_place {h : Nat} (hx : findHart s k h = some x) (hg : findGang s k = some g) : g.harts[h]? = some x := by
  rw [findHart, hg] at hx
  exact hx

/-! ### An arrival -/

/-- Hart h of gang k as f makes it, with the barrier of its gang looked at, and then as f' makes it. -/
def arrives (s : State) (k h : Nat) (f f' : Hart → Hart) : State :=
  mapHart (mapGang (mapHart s k h f) k Gang.advance) k h f'

@[simp] theorem arrives_mem (s : State) (k h : Nat) (f f' : Hart → Hart) : (arrives s k h f f').mem = s.mem := rfl

section Arrives

variable {h : Nat} {f f' : Hart → Hart} (hx : findHart s k h = some x)
include hx

theorem findHart_arrives : findHart (arrives s k h f f') k h = some (f' (f x)) := by
  rw [arrives, findHart_mapHart_same, findHart_advance, findHart_mapHart_same, hx]
  rfl

theorem findGang_arrives (hg : findGang s k = some g) (hf : onlyIssues f') (live : (f x).mode ≠ .exited) :
    ∃ u, findGang (arrives s k h f f') k = some u ∧ phasesDone u g.ph := by
  have place := findHart_place hx hg
  have member : f x ∈ (g.withHart h f).harts := List.mem_of_getElem? (i := h) (by simp [Gang.withHart, place])
  refine ⟨_, ?_, phasesDone_withHart hf.keepsArrivals (phasesDone_advance member live) h⟩
  rw [arrives, findGang_mapHart_same, findGang_mapGang_same fun y => (advance_frame y).1, findGang_mapHart_same, hg]
  rfl

/-- What an arrival leaves: its hart, but for what ends an instruction, and its gang with the phases that are then complete. -/
theorem arrives_leaves (hg : findGang s k = some g) (hf : onlyIssues f') (live : (f x).mode ≠ .exited) :
    ∃ ka kc w cls passed u, findHart (arrives s k h f f') k h = some ((f x).reissued ka kc w cls passed) ∧
      findGang (arrives s k h f f') k = some u ∧ phasesDone u g.ph := by
  obtain ⟨u, found, done⟩ := findGang_arrives hx hg hf live
  obtain ⟨ka, kc, w, cls, passed, e⟩ := hf (f x)
  exact ⟨ka, kc, w, cls, passed, u, by rw [findHart_arrives hx, e], found, done⟩

end Arrives

end Sys2Proof.Machine
end


section
/-! O20, parts: `gbar`, `garr` and `gwait` (11 R251). -/

namespace Sys2Proof.Machine

open Sys2Proof.Claims

variable {s : State} {h : Here} {g : Gang} {x : Hart} {d a : RegField}

/-! ### Running -/

theorem bothHart_admits : bothHart.admits (.slice h) = true := by cases e : h.sl <;> simp [bothHart, Belongs.admits, e]

theorem csOnly_admits (hs : h.sl = .cs) : csOnly.admits (.slice h) = true := by simp [csOnly, Belongs.admits, hs]

theorem modGang_run (w : here? s = some h) (f : Gang → Gang) : modGang f s = .ok () (mapGang s h.gang f) := by
  unfold modGang
  rw [M.bind_ok (hereM_run w)]
  rfl

theorem barrierM_run (w : here? s = some h) : barrierM s = .ok () (mapGang s h.gang Gang.advance) := modGang_run w _

theorem gangM_found (r : Runs s h x) (hg : findGang s h.gang = some g) : gangM s = .ok g s := by
  obtain ⟨g', run, found⟩ := gangM_run r
  rw [hg] at found
  cases found
  exact run

theorem pc_of_runs (r : Runs s h x) : (Cpu.slice h).pc s = (x.slice h.sl).pc := by simp [Cpu.pc, r.hart]

/-- Register d is written, the slice goes on at the next word, and the barrier is looked at. -/
theorem setX_advance_barrierM (r : Runs s h x) (v : Word) :
    (do setX d v; advance 4; barrierM : M Unit) s =
      .ok () (mapGang (mapHart s h.gang h.hid fun y => (y.setReg h.sl d v).setPc h.sl ((x.slice h.sl).pc + 4)) h.gang
        Gang.advance) := by
  rw [M.bind_ok (setX_run r.cpu d v), M.bind_ok (advance_run (by simpa using r.cpu) 4), Cpu.pc_setReg r.cpu, pc_of_runs r]
  unfold Cpu.setPc Cpu.setReg
  dsimp only
  rw [mapHart_mapHart, barrierM_run (by simpa using r.who)]
  rfl

/-! ### The AS's stores -/

/-- The state once those of the AS's pending stores that can go have gone. -/
def asSent (s : State) (x : Hart) : State := (marked false x.abuf (staying .as [] x.abuf)).foldl performWrite s

theorem drainBuf_as (hx : findHart s h.gang h.hid = some x) : drainBuf s h.gang h.hid .as =
    mapHart (asSent s x) h.gang h.hid fun y => y.setBuf .as (x.performed .as).abuf := by
  unfold drainBuf
  rw [hx]
  rfl

theorem asSent_gangs (s : State) (x : Hart) : (asSent s x).gangs = s.gangs := (foldl_performWrite_frame _ s).1

theorem asSent_findGang (k : Nat) : findGang (asSent s x) k = findGang s k := by unfold findGang; rw [asSent_gangs]

theorem foldl_performWrite_mem (ws : List PWrite) (s : State) :
    (ws.foldl performWrite s).mem = performed s.mem ws := by
  induction ws generalizing s with
  | nil => rfl
  | cons w ws ih =>
    rw [List.foldl_cons, ih, performWrite_mem]
    simp only [performed, List.flatMap_cons, memWriteAll_append]

/-- Stores that can all go are all performed. -/
theorem going_eq_self {sl : SliceId} {buf : List PWrite} (hb : ∀ w ∈ buf, canGo w) :
    marked false buf (staying sl [] buf) = buf := by
  induction buf with
  | nil => rfl
  | cons v buf ih =>
    obtain ⟨ho, hc⟩ := (canGo_iff v).mp (hb v (List.mem_cons_self ..))
    rw [staying, marked_cons]
    simp only [ho, hc, List.any_nil, Bool.or_self, Bool.false_eq_true, if_false, if_true]
    rw [ih fun w hw => hb w (List.mem_cons_of_mem _ hw)]

theorem canGo_of_sendable (ok : Sendable x .as) : ∀ w ∈ x.abuf, canGo w :=
  fun w hw => (canGo_iff w).mpr ⟨(ok w hw).2 rfl, (ok w hw).1⟩

theorem asSent_mem (ok : Sendable x .as) : (asSent s x).mem = performed s.mem x.abuf := by
  rw [asSent, foldl_performWrite_mem, going_eq_self (canGo_of_sendable ok)]

theorem performed_abuf_nil (ok : Sendable x .as) : (x.performed .as).abuf = [] := staying_eq_nil (canGo_of_sendable ok)

/-- A store with no link stays. -/
theorem performed_abuf_cutOff (hc : ∃ w ∈ x.abuf, w.cutOff = true) : ∃ w ∈ (x.performed .as).abuf, w.cutOff = true := by
  obtain ⟨w, hw, cut⟩ := hc
  refine ⟨w, mem_staying [] hw fun go => ?_, cut⟩
  have open_ := ((canGo_iff w).mp go).2
  simp [cut] at open_

theorem asArrives_sent (he : x.abuf = []) : x.asArrives = { x with asArr := x.asArr + 1 } := by
  simp [Hart.asArrives, he]

theorem asArrives_held (he : x.abuf ≠ []) : x.asArrives =
    { x with asArr := x.asArr + 1, asHeld := x.asHeld ++ [(x.asArr, x.seq + 1)], seq := x.seq + 1 } := by
  simp [Hart.asArrives, he]

/-! ### `gbar` -/

/-- What `gbar` of the AS of hart x makes of it: the stores that can go are gone, and the arrival is counted or held. -/
def Hart.afterGbarAs (y x : Hart) (d : RegField) : Hart :=
  ((y.setBuf .as (x.performed .as).abuf).asArrives.setReg .as d (BitVec.ofNat 64 x.asArr)).setPc .as (x.as_.pc + 4)

/-- What `gbar` of the CS makes of it. -/
def Hart.afterGbarCs (y x : Hart) (d : RegField) : Hart :=
  (({ y with csArr := y.csArr + 1 } : Hart).setReg .cs d (BitVec.ofNat 64 x.csArr)).setPc .cs (x.cs.pc + 4)

theorem exec_gbar_as (r : Runs s h x) (hs : h.sl = .as) : exec (.gbar d) s =
    .next (arrives (asSent s x) h.gang h.hid (fun y => y.afterGbarAs x d) fun y => y.issued .as) := by
  have r1 := r.drainBuf .as
  have r2 := r1.mapHart Hart.asArrives
  have pc : ((x.performed .as).asArrives.slice .as).pc = x.as_.pc := by
    unfold Hart.asArrives
    split <;> rfl
  change execGbar d s = _
  unfold execGbar
  rw [runScalar_run r.cpu bothHart_admits, M.bind_ok (hereM_run r.who)]
  simp only [hs, if_true]
  rw [M.bind_ok (M.modify_run ..), M.bind_ok (hartM_run r1), M.bind_ok (modHart_run r1.who _), setX_advance_barrierM r2,
    mapHart_mapHart, drainBuf_as r.hart, mapHart_mapHart, hs, pc]
  simp only [finish, hs]
  rfl

theorem exec_gbar_cs (r : Runs s h x) (hs : h.sl = .cs) : exec (.gbar d) s =
    .next (arrives s h.gang h.hid (fun y => y.afterGbarCs x d) fun y => y.issued .cs) := by
  have r1 := r.mapHart fun y => { y with csArr := y.csArr + 1 }
  change execGbar d s = _
  unfold execGbar
  rw [runScalar_run r.cpu bothHart_admits, M.bind_ok (hereM_run r.who)]
  simp only [hs, reduceCtorEq, if_false]
  rw [M.bind_ok (hartM_run r), M.bind_ok (modHart_run r.who _), setX_advance_barrierM r1, mapHart_mapHart, hs]
  simp only [finish, hs]
  rfl

/-- What `gbar` of the AS leaves, its hart y with the arrival given: register d, the pc, and the phases of its gang. -/
theorem gbar_as_leaves (r : Runs s h x) (hs : h.sl = .as) (hg : findGang s h.gang = some g) {y : Hart}
    (counted : (x.setBuf .as (x.performed .as).abuf).asArrives = y) (live : y.mode ≠ .exited) :
    ∃ t ka kc w cls passed u, exec (.gbar d) s = .next t ∧ t.mem = (asSent s x).mem ∧
      findHart t h.gang h.hid = some (((y.setReg .as d (BitVec.ofNat 64 x.asArr)).setPc .as (x.as_.pc + 4)).reissued ka kc w
        cls passed) ∧ findGang t h.gang = some u ∧ phasesDone u g.ph := by
  have hx := (findHart_of_gangs (asSent_gangs s x)).trans r.hart
  have after : x.afterGbarAs x d = (y.setReg .as d (BitVec.ofNat 64 x.asArr)).setPc .as (x.as_.pc + 4) := by
    rw [Hart.afterGbarAs, counted]
  obtain ⟨ka, kc, w, cls, passed, u, hart, gang, phases⟩ := arrives_leaves (f := fun y => y.afterGbarAs x d) hx
    ((asSent_findGang _).trans hg) (onlyIssues_issued .as) (by rw [after]; exact live)
  rw [after] at hart
  exact ⟨_, ka, kc, w, cls, passed, u, exec_gbar_as r hs, arrives_mem .., hart, gang, phases⟩

/-! ### `gwait` -/

section Gwait

variable (r : Runs s h x) (hg : findGang s h.gang = some g)
include r hg

theorem exec_gwait : exec (.gwait a) s =
    finish (.slice h) ((if g.ph ≤ (x.getReg h.sl a).toNat then waitAt .gwait else advance 4 : M Unit) s) := by
  change execGwait a s = _
  unfold execGwait
  rw [runScalar_run r.cpu bothHart_admits, M.bind_ok (getX_run r.cpu a), reg_of_runs r, M.bind_ok (gangM_found r hg)]

theorem exec_gwait_passes (lt : (x.getReg h.sl a).toNat < g.ph) :
    exec (.gwait a) s = .next (goOn s h ((x.slice h.sl).pc + 4) id) := by
  rw [exec_gwait r hg, if_neg (by omega)]
  exact finish_advance r 4

theorem exec_gwait_waits (le : g.ph ≤ (x.getReg h.sl a).toNat) : exec (.gwait a) s = .next (waits s h .gwait) := by
  rw [exec_gwait r hg, if_pos le]
  rfl

end Gwait

/-! ### `garr` -/

/-- The hart once `garr` has counted its arrival. -/
def Hart.countsGarr (y : Hart) (d : RegField) (v : Nat) : Hart :=
  ({ y with csArr := y.csArr + 1 } : Hart).setReg .cs d (BitVec.ofNat 64 v)

theorem exec_garr_full (r : Runs s h x) (hs : h.sl = .cs) (full : 16 ≤ x.viq.length) :
    exec (.garr d) s = .next (waits s h (queueWait x)) := by
  change execGarr d s = _
  unfold execGarr
  rw [runScalar_run r.cpu (csOnly_admits hs), M.bind_ok (hartM_run r), if_pos full]
  rfl

theorem exec_garr_room (r : Runs s h x) (hs : h.sl = .cs) (room : x.viq.length < 16) :
    exec (.garr d) s = finish (.slice h) (enqueue .garr noOps 4 0 0 x.csArr none
      (mapHart s h.gang h.hid fun y => y.countsGarr d x.csArr)) := by
  have r1 := r.mapHart fun y => { y with csArr := y.csArr + 1 }
  change execGarr d s = _
  unfold execGarr
  rw [runScalar_run r.cpu (csOnly_admits hs), M.bind_ok (hartM_run r), if_neg (by omega), M.bind_ok (modHart_run r.who _),
    M.bind_ok (setX_run r1.cpu d _)]
  unfold Cpu.setReg
  dsimp only
  rw [mapHart_mapHart, hs]
  rfl

/-! ### Entry to the queue (12 R253) -/

/-- The state once an instruction of 4 bytes stands in the queue. -/
def enqueued (s : State) (h : Here) (pc : Word) (e : VEntry) : State :=
  mapHart s h.gang h.hid fun y => (y.setPc h.sl pc).enter e

section Enqueue

variable {kind : VKind} {o : VOps} {aux : Nat} {scal scal2 : Word} {taken : Option QDesc}
variable (r : Runs s h x) (room : x.viq.length < 16)
include r room

/-- An instruction that finds older ones, or whose CS runs ahead, is only queued. -/
theorem enqueue_queues (just : s.ahead = true ∨ x.viq ≠ []) : enqueue kind o 4 scal scal2 aux taken s =
    .ok () (enqueued s h ((x.slice h.sl).pc + 4) (x.entry kind o x.cs.pc scal scal2 aux taken)) := by
  have stays : (x.viq.isEmpty && !s.ahead) = false := by
    rcases just with e | e <;> simp [e]
  unfold enqueue
  rw [M.bind_ok (hartM_run r), if_neg (by omega), M.bind_ok (advance_run r.cpu 4), pc_of_runs r]
  unfold Cpu.setPc
  dsimp only
  rw [M.bind_ok (modHart_run (by simpa using r.who) _), mapHart_mapHart, M.bind_ok (M.get_run _)]
  change (if (x.viq.isEmpty && !s.ahead) = true then _ else _ : M Unit) _ = _
  rw [stays]
  rfl

/-- One that finds the queue empty begins at once. -/
theorem enqueue_begins (near : s.ahead = false) (empty : x.viq = []) {t : State}
    (done : runHead (enqueued s h ((x.slice h.sl).pc + 4) (x.entry kind o x.cs.pc scal scal2 aux taken)) = .ok .done t) :
    enqueue kind o 4 scal scal2 aux taken s = .ok () (noteIssue t h.gang h.hid (vPipe kind)) := by
  have begins : (x.viq.isEmpty && !s.ahead) = true := by simp [near, empty]
  unfold enqueue
  rw [M.bind_ok (hartM_run r), if_neg (by omega), M.bind_ok (advance_run r.cpu 4), pc_of_runs r]
  unfold Cpu.setPc
  dsimp only
  rw [M.bind_ok (modHart_run (by simpa using r.who) _), mapHart_mapHart, M.bind_ok (M.get_run _)]
  change (if (x.viq.isEmpty && !s.ahead) = true then _ else _ : M Unit) _ = _
  rw [begins, if_pos rfl, M.bind_ok (hereM_run (by simpa using r.who))]
  change (runHead >>= _) (enqueued s h ((x.slice h.sl).pc + 4) (x.entry kind o x.cs.pc scal scal2 aux taken)) = _
  rw [M.bind_ok done]
  rfl

end Enqueue

/-! ### The marker at the queue head -/

/-- The hart once the marker of an arrival has left the queue: it waits beside it for older stores. -/
def Hart.leavesMarker (y : Hart) (e : VEntry) : Hart :=
  { y with markers := if y.cbuf.any fun w => w.seq < e.seq then y.markers ++ [(e.aux, e.seq)] else y.markers }

theorem bodyGarr_run (r : Runs s h x) (e : VEntry) :
    bodyGarr e s = .ok (e, .quiet) (mapHart s h.gang h.hid fun y => y.leavesMarker e) := by
  have same (y : Hart) : (if y.cbuf.any fun w => w.seq < e.seq then { y with markers := y.markers ++ [(e.aux, e.seq)] } else y) =
      y.leavesMarker e := by
    unfold Hart.leavesMarker
    split <;> rfl
  unfold bodyGarr
  rw [M.bind_ok (modHart_run r.who _), funext same]
  rfl

theorem runEntry_garr (r : Runs s h x) {e : VEntry} (hk : e.kind = .garr) :
    runEntry e s = .ok (e, .quiet) (mapHart s h.gang h.hid fun y => y.leavesMarker e) := by
  have body : vecBody e.kind e s = .ok (e, .quiet) (mapHart s h.gang h.hid fun y => y.leavesMarker e) := by
    rw [hk]
    exact bodyGarr_run r e
  unfold runEntry
  rw [M.bind_ok (M.get_run s), M.bind_ok (attempt_ok body)]
  rfl

theorem runHead_garr (r : Runs s h x) {e : VEntry} (hk : e.kind = .garr) (hv : x.viq = [e]) :
    runHead s = .ok .done (mapGang (mapHart s h.gang h.hid fun y => (y.leavesMarker e).afterHead e e [] .quiet) h.gang
      Gang.advance) := by
  unfold runHead
  rw [M.bind_ok (hereM_run r.who), M.bind_ok (hartM_run r), hv]
  dsimp only
  rw [M.bind_ok (runEntry_garr r hk), M.bind_ok (modHart_run (by simpa using r.who) _), mapHart_mapHart]
  simp only [VEnd.trap?, hk, if_true]
  rw [M.bind_ok (barrierM_run (by simpa using r.who))]
  rfl

/-- A marker captures nothing. -/
theorem enter_marker {e : VEntry} (hk : e.kind.marker = true) (y : Hart) : y.enter e = { y with
    viq := y.viq ++ [e], seq := y.seq + 1, cbuf := if y.viq.isEmpty then y.closeStores.cbuf else y.cbuf } := by
  simp [Hart.enter, hk]

/-- The entry of `garr`. -/
def garrEntry (x : Hart) : VEntry := captured x .garr noOps 0 0 x.csArr 0 none

theorem entry_garr (x : Hart) (d : RegField) :
    (x.countsGarr d x.csArr).entry .garr noOps (x.countsGarr d x.csArr).cs.pc 0 0 x.csArr none = garrEntry x := rfl

theorem enter_garr (y : Hart) (x : Hart) : y.enter (garrEntry x) = entered y (garrEntry x) := by
  unfold Hart.enter entered
  cases y.viq <;> rfl

theorem exec_garr_queues (r : Runs s h x) (hs : h.sl = .cs) (just : JustQueues s x) : exec (.garr d) s =
    .next (goOn s h (x.cs.pc + 4) fun y =>
      (entered { y with csArr := y.csArr + 1 } (garrEntry x)).setReg .cs d (BitVec.ofNat 64 x.csArr)) := by
  obtain ⟨waits, room⟩ := just
  have r1 := r.mapHart fun y => y.countsGarr d x.csArr
  rw [exec_garr_room r hs room, enqueue_queues r1 room waits, entry_garr]
  unfold enqueued goOn finish
  dsimp only
  rw [mapHart_mapHart, mapHart_mapHart]
  congr 2
  funext y
  rw [enter_garr]
  simp only [hs]
  rfl

/-- The hart once `garr` has gone through the empty queue. -/
def Hart.afterGarr (y x : Hart) (d : RegField) : Hart :=
  (((y.countsGarr d x.csArr).setPc .cs (x.cs.pc + 4)).enter (garrEntry x)).leavesMarker (garrEntry x) |>.afterHead
    (garrEntry x) (garrEntry x) [] .quiet

/-- The hart once its entry stands in the empty queue. -/
theorem afterGarr_frame : (x.afterGarr x d).mode = x.mode ∧ (x.afterGarr x d).c = fileSet x.c d (BitVec.ofNat 64 x.csArr) ∧
    (x.afterGarr x d).csArr = x.csArr + 1 ∧ (x.afterGarr x d).viq = [] ∧ (x.afterGarr x d).cs.pc = x.cs.pc + 4 :=
  by
  unfold Hart.afterGarr
  rw [enter_marker rfl]
  refine ⟨rfl, rfl, rfl, rfl, ?_⟩
  simp only [Hart.afterHead, Hart.leavesMarker, Hart.closeStores]
  rfl

theorem afterGarr_markers (empty : x.viq = []) : (x.afterGarr x d).markers =
    if x.cbuf.any (fun w => w.seq < x.seq) then x.markers ++ [(x.csArr, x.seq)] else x.markers := by
  have closed : (if x.viq.isEmpty then x.closeStores.cbuf else x.cbuf).any (fun w => w.seq < x.seq) =
      x.cbuf.any fun w => w.seq < x.seq := by
    rw [empty]
    simp only [List.isEmpty_nil, if_true, Hart.closeStores, List.any_map]
    rfl
  rw [← closed]
  rfl

theorem exec_garr_begins (r : Runs s h x) (hs : h.sl = .cs) (near : s.ahead = false) (empty : x.viq = []) :
    ∃ f', onlyIssues f' ∧ exec (.garr d) s = .next (arrives s h.gang h.hid (fun y => y.afterGarr x d) f') := by
  obtain ⟨gang, hid, sl⟩ := h
  cases hs
  have r1 := r.mapHart fun y => y.countsGarr d x.csArr
  have room : x.viq.length < 16 := by simp [empty]
  have r2 := r1.mapHart fun y => (y.setPc .cs (x.cs.pc + 4)).enter (garrEntry x)
  have head := runHead_garr r2 (e := garrEntry x) rfl (by
    change x.viq ++ [garrEntry x] = _
    rw [empty, List.nil_append])
  rw [exec_garr_room r rfl room, enqueue_begins r1 room near empty head, mapHart_mapHart, mapHart_mapHart]
  obtain ⟨f, hf, noted⟩ := noteIssue_mapHart (mapGang (mapHart s gang hid fun y => y.afterGarr x d) gang Gang.advance) gang
    hid (vPipe .garr)
  refine ⟨_, hf.comp (onlyIssues_issued .cs), ?_⟩
  rw [arrives, ← mapHart_mapHart f fun y => y.issued .cs, ← noted]
  rfl

end Sys2Proof.Machine
end


section
/-! O20: the set-length round and `vsetg` (04 R77, 12 R265), and the statement. -/

namespace Sys2Proof.Machine

open Sys2Proof.Claims

variable {s : State} {h : Here} {g : Gang} {x : Hart} {l : Launch} {d a : RegField}

/-! ### Contributions -/

theorem foldl_min_left {α : Type} (f : α → Nat) (l : List α) (m n : Nat) :
    l.foldl (fun m c => min m (f c)) (min m n) = min m (l.foldl (fun m c => min m (f c)) n) := by
  induction l generalizing n with
  | nil => rfl
  | cons c l ih => rw [List.foldl_cons, List.foldl_cons, Nat.min_assoc, ih]

/-- The minimum of a round is that of the last contribution and the earlier ones. -/
theorem minContribution_append (l : List (Nat × Nat × Bool)) (c : Nat × Nat × Bool) :
    minContribution (l ++ [c]) = l.foldl (fun m c => min m c.2.1) c.2.1 := by
  cases l with
  | nil => rfl
  | cons b l =>
    change (l ++ [c]).foldl (fun m c => min m c.2.1) b.2.1 = l.foldl (fun m c => min m c.2.1) (min c.2.1 b.2.1)
    rw [List.foldl_append, foldl_min_left (fun c : Nat × Nat × Bool => c.2.1)]
    exact Nat.min_comm ..

/-! ### A round -/

/-- A hart with a grant. -/
def Hart.withGrant (y : Hart) (G : Nat) (ill : Bool) : Hart :=
  { y with grant := some (G, ill), vc := { y.vc with vl := BitVec.ofNat 64 G } }

/-- A hart that has arrived is given the grant. -/
theorem granted_of_mem {l : List (Nat × Nat × Bool)} (once : (l.map (·.1)).Nodup) {c : Nat × Nat × Bool} (hc : c ∈ l) (G : Nat)
    (y : Hart) : y.granted l G c.1 = y.withGrant G c.2.2 := by
  have found : l.find? (fun b => b.1 == c.1) = some c := by
    cases e : l.find? fun b => b.1 == c.1 with
    | none => simpa using List.find?_eq_none.mp e c hc
    | some b =>
      have key : b.1 = c.1 := by simpa using List.find?_some e
      rw [List.inj_on_of_nodup_map once (List.mem_of_find?_eq_some e) hc key]
  simp only [Hart.granted, found]
  rfl

theorem any_arrived_eq_false {l : List (Nat × Nat × Bool)} {i : Nat} (absent : ∀ c ∈ l, c.1 ≠ i) :
    (l.any fun c => c.1 == i) = false :=
  List.any_eq_false.mpr fun c hc => by simpa using absent c hc

theorem settle_frame (g : Gang) : g.settle.id = g.id ∧ g.settle.harts.length = g.harts.length := by
  unfold Gang.settle
  dsimp only
  split
  · exact ⟨rfl, rfl⟩
  · exact ⟨rfl, List.length_mapIdx⟩

/-- A round stands while a hart that has not executed `exit` has not arrived. -/
theorem settle_waits {i : Nat} {z : Hart} (hz : g.harts[i]? = some z) (live : z.mode ≠ .exited)
    (absent : ∀ c ∈ g.arrived, c.1 ≠ i) : g.settle = g := by
  have awaited : g.awaits i z = true := by
    unfold Gang.awaits
    rw [any_arrived_eq_false absent]
    simpa using live
  have waits : (g.harts.mapIdx fun i h => g.awaits i h).any (·) = true := by
    rw [List.any_eq_true]
    exact ⟨true, List.mem_of_getElem? (i := i) (by simp [hz, awaited]), rfl⟩
  unfold Gang.settle
  dsimp only
  rw [if_pos (by rw [waits, Bool.or_true])]

/-- It completes once all have arrived, when none of them has executed `exit` since. -/
theorem settle_completes (begun : g.arrived ≠ []) (live : ∀ c ∈ g.arrived, ∃ z, g.harts[c.1]? = some z ∧ z.mode ≠ .exited)
    (all : ∀ i z, g.harts[i]? = some z → z.mode ≠ .exited → ∃ c ∈ g.arrived, c.1 = i) :
    g.settle = { g with arrived := [], harts := g.harts.mapIdx fun i y => y.granted g.arrived (minContribution g.arrived) i } := by
  have stay : g.arrived.filter (fun c => (g.harts[c.1]?.map (·.mode != .exited)).getD false) = g.arrived := by
    refine List.filter_eq_self.mpr fun c hc => ?_
    obtain ⟨z, hz, hm⟩ := live c hc
    simpa [hz] using hm
  have nobody : (g.harts.mapIdx fun i h => g.awaits i h).any (·) = false := by
    rw [List.any_eq_false]
    intro b hb
    obtain ⟨i, hi, rfl⟩ := List.mem_mapIdx.mp hb
    simp only [Gang.awaits, Bool.and_eq_true, bne_iff_ne, ne_eq, Bool.not_eq_true', List.any_eq_false, beq_iff_eq, not_and]
    intro hm absent
    obtain ⟨c, hc, e⟩ := all i _ (List.getElem?_eq_getElem hi) hm
    exact absent c hc e
  unfold Gang.settle
  dsimp only
  rw [stay, nobody, if_neg (by simpa using begun)]

/-! ### A gang updated -/

theorem findHart_mapGang_isSome {k a b : Nat} {f : Gang → Gang} (hid : ∀ y, (f y).id = y.id)
    (len : ∀ y, (f y).harts.length = y.harts.length) : (findHart (mapGang s k f) a b).isSome = (findHart s a b).isSome := by
  unfold findHart
  rw [findGang_mapGang f hid]
  cases findGang s a with
  | none => rfl
  | some y =>
    have same : (if y.id = k then f y else y).harts.length = y.harts.length := by split <;> simp [len]
    rw [Bool.eq_iff_iff, Option.isSome_iff_ne_none, Option.isSome_iff_ne_none, ne_eq, ne_eq]
    simp only [Option.map_some, Option.bind_some, List.getElem?_eq_none_iff, same]

theorem here?_mapGang {k : Nat} {f : Gang → Gang} (hid : ∀ y, (f y).id = y.id)
    (len : ∀ y, (f y).harts.length = y.harts.length) : here? (mapGang s k f) = here? s := by
  have same (a b : Nat) (c : Here) : ((findHart (mapGang s k f) a b).map fun _ => c) = (findHart s a b).map fun _ => c := by
    have found := findHart_mapGang_isSome (s := s) (k := k) (a := a) (b := b) hid len
    cases e : findHart (mapGang s k f) a b <;> cases e' : findHart s a b <;> simp [e, e'] at found ⊢
  unfold here?
  simp only [same]
  rfl

/-! ### `vsetg` -/

/-- A gang at whose round a contribution arrives. -/
def Gang.joined (g : Gang) (c : Nat × Nat × Bool) : Gang := Gang.settle { g with arrived := g.arrived ++ [c] }

theorem joined_frame (c : Nat × Nat × Bool) (g : Gang) :
    (g.joined c).id = g.id ∧ (g.joined c).harts.length = g.harts.length := settle_frame _

/-- The state once the executing hart has arrived at its gang's round. -/
def atRound (s : State) (k : Nat) (c : Nat × Nat × Bool) : State := mapGang s k fun g => g.joined c

theorem findGang_atRound {c : Nat × Nat × Bool} {k : Nat} :
    findGang (atRound s k c) k = (findGang s k).map fun g => g.joined c :=
  findGang_mapGang_same fun _ => (joined_frame c _).1

/-- The contribution of a hart (12 R265). -/
def roundEntry (l : Launch) (h : Here) (x : Hart) (a : RegField) : Nat × Nat × Bool :=
  (h.hid, contribution (vrlenOf l.record.ctrl) (x.getReg .cs a).toNat x.vc.vfmt, vfmtReserved x.vc.vfmt)

section Vsetg

variable (r : Runs s h x) (hs : h.sl = .cs) (hg : findGang s h.gang = some g) (hl : findLaunch s h.gang = some l)
include r hg

/-- The executing hart as the round leaves it. -/
theorem runs_atRound {c : Nat × Nat × Bool} {y : Hart}
    (hy : (g.joined c).harts[h.hid]? = some y) : Runs (atRound s h.gang c) h y := by
  refine ⟨?_, ?_⟩
  · unfold atRound
    rw [here?_mapGang (fun _ => (joined_frame c _).1) fun _ => (joined_frame c _).2, r.who]
  · rw [findHart, findGang_atRound, hg]
    exact hy

include hs hl

/-- `vsetg` of a hart that has not arrived. -/
theorem exec_vsetg_arrives (free : x.grant = none) (absent : ∀ c ∈ g.arrived, c.1 ≠ h.hid) {y : Hart}
    (hy : (g.joined (roundEntry l h x a)).harts[h.hid]? = some y) :
    exec (.vsetg d a) s = finish (.slice h) ((match y.grant with
      | some (G, ill) => takeGrant d G ill
      | none => waitAt .vsetg : M Unit) (atRound s h.gang (roundEntry l h x a))) := by
  have arrives : (x.grant.isNone && !g.arrived.any fun b => b.1 == h.hid) = true := by
    rw [free, any_arrived_eq_false absent]
    rfl
  have vrlen : vrlenM s = .ok (vrlenOf l.record.ctrl) s := by
    unfold vrlenM
    rw [M.bind_ok (hereM_run r.who), M.bind_ok (M.get_run s), hl]
    rfl
  change execVsetg d a s = _
  unfold execVsetg
  rw [runScalar_run r.cpu (csOnly_admits hs), M.bind_ok (hereM_run r.who), M.bind_ok vrlen, M.bind_ok (getX_run r.cpu a),
    reg_of_runs r, hs, M.bind_ok (hartM_run r), M.bind_ok (gangM_found r hg)]
  dsimp only
  rw [if_pos arrives, M.bind_ok (modGang_run r.who _)]
  change finish _ ((hartM >>= _) (atRound s h.gang (roundEntry l h x a))) = _
  refine (congrArg (finish _) (M.bind_ok (hartM_run (runs_atRound r hg hy)))).trans ?_
  rfl

end Vsetg

/-- The hart once it has taken its grant. -/
def Hart.takesGrant (y : Hart) (d : RegField) (G : Nat) (ill : Bool) : Hart :=
  ({ y with grant := none, vc := { y.vc with vl := BitVec.ofNat 64 G, vstat := vstatIll y.vc.vstat ill } } : Hart).setReg .cs d
    (BitVec.ofNat 64 G)

theorem takeGrant_run (r : Runs s h x) (hs : h.sl = .cs) (G : Nat) (ill : Bool) :
    finish (.slice h) (takeGrant d G ill s) = .next (goOn s h (x.cs.pc + 4) fun y => y.takesGrant d G ill) := by
  have r1 := r.mapHart fun y => { y with
    grant := none, vc := { y.vc with vl := BitVec.ofNat 64 G, vstat := vstatIll y.vc.vstat ill } }
  unfold takeGrant
  rw [M.bind_ok (modHart_run r.who _), writes_run r1.cpu, pc_of_runs r1, hs]
  unfold retire
  dsimp only
  rw [mapHart_mapHart, hs]
  unfold goOn
  rw [hs]
  rfl

/-! ### Both ends of an arrival -/

/-- A hart that executes, and the others of its gang that have arrived before it at a round, none twice. -/
structure Joins (g : Gang) (hid : Nat) (x : Hart) : Prop where
  place : g.harts[hid]? = some x
  active : x.mode = .active
  others : ∀ c ∈ g.arrived, c.1 ≠ hid ∧ ∃ z, g.harts[c.1]? = some z ∧ z.mode ≠ .exited
  once : (g.arrived.map (·.1)).Nodup

/-- The grant of a round that a contribution completes. -/
def grantOf (g : Gang) (c : Nat × Nat × Bool) : Nat := g.arrived.foldl (fun m b => min m b.2.1) c.2.1

section Joins

variable {c : Nat × Nat × Bool} (j : Joins g c.1 x)
include j

theorem Joins.nodup : ((g.arrived ++ [c]).map (·.1)).Nodup := by
  rw [List.map_append, List.nodup_append]
  refine ⟨j.once, List.nodup_singleton _, fun i hi k hk => ?_⟩
  obtain ⟨b, hb, rfl⟩ := List.mem_map.mp hi
  obtain rfl : k = c.1 := by simpa using hk
  exact (j.others b hb).1

/-- The last arrival completes the round. -/
theorem Joins.completes (all : ∀ k z, k ≠ c.1 → g.harts[k]? = some z → z.mode ≠ .exited → ∃ b ∈ g.arrived, b.1 = k) :
    g.joined c = { g with
      arrived := [], harts := g.harts.mapIdx fun i y => y.granted (g.arrived ++ [c]) (grantOf g c) i } := by
  have running : x.mode ≠ .exited := by rw [j.active]; decide
  have present : ∀ b ∈ g.arrived ++ [c], ∃ z, g.harts[b.1]? = some z ∧ z.mode ≠ .exited := by
    intro b hb
    rcases List.mem_append.mp hb with hb | hb
    · exact (j.others b hb).2
    · obtain rfl : b = c := by simpa using hb
      exact ⟨x, j.place, running⟩
  unfold Gang.joined
  rw [settle_completes (by simp) present, minContribution_append]
  · rfl
  · intro i z hz live
    by_cases e : i = c.1
    · exact ⟨c, List.mem_append_right _ (List.mem_singleton_self c), e.symm⟩
    · obtain ⟨b, hb, hi⟩ := all i z e hz live
      exact ⟨b, List.mem_append_left _ hb, hi⟩

theorem Joins.granted {b : Nat × Nat × Bool} {z : Hart} (hb : b ∈ g.arrived ++ [c]) (hz : g.harts[b.1]? = some z) (G : Nat) :
    (g.harts.mapIdx fun i y => y.granted (g.arrived ++ [c]) G i)[b.1]? =
      some (z.withGrant G b.2.2) := by
  rw [List.getElem?_mapIdx, hz, Option.map_some, granted_of_mem j.nodup hb]

/-- Before that it stands. -/
theorem Joins.waits {k : Nat} {z : Hart} (ne : k ≠ c.1) (hz : g.harts[k]? = some z) (live : z.mode ≠ .exited)
    (absent : ∀ b ∈ g.arrived, b.1 ≠ k) : g.joined c = { g with arrived := g.arrived ++ [c] } := by
  refine settle_waits hz live fun b hb => ?_
  rcases List.mem_append.mp hb with hb | hb
  · exact absent b hb
  · obtain rfl : b = c := by simpa using hb
    exact ne.symm

end Joins

theorem vrlenOf_eq (ctrl : Word) : vrlenOf ctrl = 4096 * 2 ^ (ctrl.toNat / 8 % 8) := by
  rw [vrlenOf, bitsOf_eq]
  rfl

theorem vstatIll_eq (v : Word) (b : Bool) : vstatIll v b = (v &&& ~~~(8#64)) ||| (if b then 8#64 else 0#64) := by
  cases b <;> rfl

/-- A waiting slice stays where it is while no request is posted to its hart. -/
theorem waits_unposted {w : WaitAt} (r : Runs s h x) (hy : x.ypend.getLsbD 63 = false) :
    waits s h w = mapHart s h.gang h.hid fun y => y.setCond h.sl (.waiting w) := by
  have unposted : Hart.stopsAtOnce (x.setCond h.sl (.waiting w)) = false := by
    unfold Hart.stopsAtOnce ypP
    rw [Hart.setCond_ypend, hy, Bool.false_and]
  unfold waits stopIfWaiting
  rw [findHart_mapHart_same, r.hart]
  dsimp only [Option.map_some]
  rw [unposted]
  rfl

section Round

variable {c : Nat × Nat × Bool} (r : Runs s h x) (hs : h.sl = .cs) (hg : findGang s h.gang = some g)
  (hl : findLaunch s h.gang = some l) (free : x.grant = none) (j : Joins g c.1 x) (entry : roundEntry l h x a = c)
include r hs hg hl free j entry

/-- `vsetg` of the last hart to arrive takes its grant at once. -/
theorem exec_vsetg_completes
    (all : ∀ k z, k ≠ c.1 → g.harts[k]? = some z → z.mode ≠ .exited → ∃ b ∈ g.arrived, b.1 = k) :
    Runs (atRound s h.gang c) h (x.withGrant (grantOf g c) c.2.2) ∧ exec (.vsetg d a) s =
      .next (goOn (atRound s h.gang c) h (x.cs.pc + 4) fun y => y.takesGrant d (grantOf g c) c.2.2) := by
  subst entry
  have mine : (g.joined (roundEntry l h x a)).harts[h.hid]? =
      some (x.withGrant (grantOf g (roundEntry l h x a)) (roundEntry l h x a).2.2) := by
    rw [j.completes all]
    exact j.granted (List.mem_append_right _ (List.mem_singleton_self _)) j.place _
  have r1 := runs_atRound r hg mine
  exact ⟨r1, (exec_vsetg_arrives r hs hg hl free (fun c hc => (j.others c hc).1) mine).trans (takeGrant_run r1 hs ..)⟩

/-- That of an earlier one waits. -/
theorem exec_vsetg_waits {k : Nat} {z : Hart} (ne : k ≠ c.1) (hz : g.harts[k]? = some z) (live : z.mode ≠ .exited)
    (absent : ∀ b ∈ g.arrived, b.1 ≠ k) (hy : x.ypend.getLsbD 63 = false) :
    Runs (atRound s h.gang c) h x ∧ exec (.vsetg d a) s =
      .next (mapHart (atRound s h.gang c) h.gang h.hid fun y => y.setCond .cs (.waiting .vsetg)) := by
  subst entry
  have mine : (g.joined (roundEntry l h x a)).harts[h.hid]? = some x := by
    rw [j.waits ne hz live absent]
    exact j.place
  have r1 := runs_atRound r hg mine
  have run := exec_vsetg_arrives (d := d) r hs hg hl free (fun c hc => (j.others c hc).1) mine
  have stays := waits_unposted (w := .vsetg) r1 hy
  rw [free] at run
  rw [hs] at stays
  exact ⟨r1, run.trans (congrArg _ stays)⟩

end Round

/-- Settles O20: a round by its last arrival or an earlier one, a barrier's arrival by the phases that the gang then counts. -/
theorem grantAndBarrierResults : Obligations.GrantAndBarrierResults := by
  refine ⟨fun s h x g l d a r hs hg hl free act others once => ?round,
    fun s h x g d a r hg => ⟨fun live => ⟨fun hs ok => ?sent, fun hs cut => ?heldBack, fun hs => ?cs, fun hs near empty => ?marker⟩,
      fun hs just => exec_garr_queues r hs just, fun hs full => ⟨_, exec_garr_full r hs full⟩, exec_gwait_passes r hg,
      exec_gwait_waits r hg⟩⟩
  case round =>
    intro ill v G
    have entry : roundEntry l h x a = (h.hid, v, ill) := by
      rw [roundEntry, vrlenOf_eq]
      rfl
    have j : Joins g (h.hid, v, ill).1 x := ⟨findHart_place r.hart hg, act, others, once⟩
    refine ⟨fun all => ?_, fun k z ne hz alive absent unposted => ?_⟩
    · obtain ⟨r1, run⟩ := exec_vsetg_completes (d := d) r hs hg hl free j entry all
      have gang := j.completes all
      obtain ⟨ka, kc, w, cls, passed, ended⟩ :=
        onlyIssues_issued .cs (((x.withGrant G ill).takesGrant d G ill).setPc .cs (x.cs.pc + 4))
      refine ⟨_, (((x.withGrant G ill).takesGrant d G ill).setPc .cs (x.cs.pc + 4)).reissued ka kc w cls passed,
        (g.joined (h.hid, v, ill)).withHart h.hid fun y => ((y.takesGrant d G ill).setPc .cs (x.cs.pc + 4)).issued .cs,
        run, ?_, rfl, vstatIll_eq .., rfl, rfl, rfl, rfl, rfl, ?_, congrArg Gang.arrived gang, ?_⟩
      · rw [goOn, findHart_mapHart_same, r1.hart, hs]
        exact congrArg some ended
      · rw [goOn, findGang_mapHart_same, findGang_atRound, hg, hs]
        rfl
      · intro c hc z hz
        have ne : ¬ (h.gang = h.gang ∧ c.1 = h.hid) := fun e => (others c hc).1 e.2
        rw [goOn, findHart_mapHart_other _ ne, findHart, findGang_atRound, hg]
        change (g.joined _).harts[c.1]? = _
        rw [gang]
        exact j.granted (List.mem_append_left _ hc) hz G
    · obtain ⟨r1, run⟩ := exec_vsetg_waits (d := d) r hs hg hl free j entry ne hz alive absent unposted
      refine ⟨_, x.setCond .cs (.waiting .vsetg), run, ?_, rfl, rfl, rfl, ?_⟩
      · rw [findHart_mapHart_same, r1.hart]
        rfl
      · rw [findGang_mapHart_same, findGang_atRound, hg]
        exact congrArg (fun u => some u.arrived) (j.waits ne hz alive absent)
  case sent =>
    have counted : (x.setBuf .as (x.performed .as).abuf).asArrives = { x with abuf := [], asArr := x.asArr + 1 } := by
      rw [performed_abuf_nil ok]
      exact asArrives_sent rfl
    obtain ⟨t, ka, kc, w, cls, passed, u, run, mem, hart, gang, phases⟩ := gbar_as_leaves r hs hg counted live
    exact ⟨t, _, u, run, hart, rfl, rfl, rfl, rfl, mem.trans (asSent_mem ok), rfl, gang, phases⟩
  case heldBack =>
    have held := performed_abuf_cutOff cut
    have counted : (x.setBuf .as (x.performed .as).abuf).asArrives = { x with
        abuf := (x.performed .as).abuf, asArr := x.asArr + 1, asHeld := x.asHeld ++ [(x.asArr, x.seq + 1)], seq := x.seq + 1 } := by
      obtain ⟨w, hw, -⟩ := held
      exact asArrives_held (List.ne_nil_of_mem hw)
    obtain ⟨t, ka, kc, w, cls, passed, u, run, -, hart, gang, phases⟩ := gbar_as_leaves r hs hg counted live
    exact ⟨t, _, u, run, hart, rfl, rfl, rfl, rfl, held, rfl, gang, phases⟩
  case cs =>
    obtain ⟨ka, kc, w, cls, passed, u, hart, gang, phases⟩ := arrives_leaves (f := fun y => y.afterGbarCs x d) r.hart hg
      (onlyIssues_issued .cs) live
    exact ⟨_, _, u, exec_gbar_cs r hs, hart, rfl, rfl, rfl, rfl, rfl, gang, phases⟩
  case marker =>
    obtain ⟨f', only, run⟩ := exec_garr_begins (d := d) r hs near empty
    obtain ⟨mode, file, count, queue, pc⟩ := afterGarr_frame (x := x) (d := d)
    obtain ⟨ka, kc, w, cls, passed, u, hart, gang, phases⟩ := arrives_leaves r.hart hg only (f := fun y => y.afterGarr x d)
      (by rw [mode]; exact live)
    have markers := afterGarr_markers (d := d) empty
    generalize x.afterGarr x d = z at hart mode file count queue pc markers
    refine ⟨_, _, u, run, hart, file, count, queue, pc, fun young => ?_, fun ⟨w, hw, old⟩ => ?_, rfl, gang, phases⟩ <;>
      refine markers.trans ?_
    · rw [if_neg]
      simpa using young
    · rw [if_pos]
      simpa using ⟨w, hw, old⟩

end Sys2Proof.Machine
end


section
/-! O50, parts: saves that begin, and walks over a gang's harts (04 R90, R91). -/

namespace Sys2Proof.Machine

open Sys2Proof.Claims

variable {s : State} {g h k : Nat} {x y : Hart} {l : Launch} {coop : Bool}

/-! ### A walk over the harts of a gang -/

/-- What one visit makes of P is Q, and the other visits keep both: then a walk that makes that visit ends in Q. -/
theorem foldl_range_visits {α : Type} {f : α → Nat → α} {P Q : α → Prop} {n : Nat} (hk : k < n)
    (before : ∀ s h, h ≠ k → P s → P (f s h)) (own : ∀ s, P s → Q (f s k)) (after : ∀ s h, h ≠ k → Q s → Q (f s h))
    {s : α} (hs : P s) : Q ((List.range n).foldl f s) := by
  have short (m : Nat) (hm : m ≤ k) : P ((List.range m).foldl f s) := by
    induction m with
    | zero => exact hs
    | succ m ih =>
      rw [List.range_succ, List.foldl_append]
      exact before _ m (by omega) (ih (by omega))
  induction n with
  | zero => omega
  | succ n ih =>
    rw [List.range_succ, List.foldl_append]
    by_cases e : n = k
    · subst e
      exact own _ (short n (Nat.le_refl n))
    · exact after _ n e (ih (by omega))

theorem findGang_everyHart (f : Hart → Hart) : findGang (mapGang s g fun y => { y with harts := y.harts.map f }) g =
    (findGang s g).map fun y => { y with harts := y.harts.map f } := findGang_mapGang_same fun _ => rfl

/-! ### Performing stores -/

theorem foldl_performWrite_rest (ws : List PWrite) (s : State) :
    (ws.foldl performWrite s).cycle = s.cycle ∧ (ws.foldl performWrite s).launches = s.launches := by
  induction ws generalizing s with
  | nil => exact ⟨rfl, rfl⟩
  | cons w ws ih =>
    rw [List.foldl_cons]
    exact ih (performWrite s w)

theorem drainBuf_rest (sl : SliceId) :
    (drainBuf s g h sl).cycle = s.cycle ∧ (drainBuf s g h sl).launches = s.launches := by
  unfold drainBuf
  split
  · exact ⟨rfl, rfl⟩
  · exact foldl_performWrite_rest _ s

/-- Both agents' stores of a hart, performed. -/
def drainHart (s : State) (g h : Nat) : State := drainBuf (drainBuf s g h .as) g h .cs

theorem drainHart_rest : (drainHart s g h).cycle = s.cycle ∧ (drainHart s g h).launches = s.launches := by
  obtain ⟨c1, l1⟩ := drainBuf_rest (s := s) (g := g) (h := h) .as
  obtain ⟨c2, l2⟩ := drainBuf_rest (s := drainBuf s g h .as) (g := g) (h := h) .cs
  exact ⟨c2.trans c1, l2.trans l1⟩

/-- A hart with what is left of its stores. -/
def Hart.drained (x : Hart) : Hart := (x.performed .as).performed .cs

theorem findHart_drainHart_same : findHart (drainHart s g h) g h = (findHart s g h).map Hart.drained := by
  rw [drainHart, findHart_drainBuf_same, findHart_drainBuf_same, Option.map_map]
  rfl

theorem findHart_drainHart_other (ne : h ≠ k) : findHart (drainHart s g h) g k = findHart s g k := by
  have other : ¬ (g = g ∧ k = h) := fun e => ne e.2.symm
  rw [drainHart, findHart_drainBuf_other _ other, findHart_drainBuf_other _ other]

theorem findGang_drainBuf {a : Gang} (sl : SliceId) (ha : findGang s g = some a) :
    ∃ b, findGang (drainBuf s g h sl) g = some b ∧ b.harts.length = a.harts.length := by
  unfold drainBuf
  split
  · exact ⟨a, ha, rfl⟩
  · have same (ws : List PWrite) : findGang (ws.foldl performWrite s) g = some a := by
      rw [← ha]
      unfold findGang
      rw [(foldl_performWrite_frame ws s).1]
    refine ⟨_, by rw [findGang_mapHart_same, same]; rfl, List.length_modify ..⟩

/-- The gang keeps its harts. -/
theorem findGang_drainHart {a : Gang} (ha : findGang s g = some a) :
    ∃ b, findGang (drainHart s g h) g = some b ∧ b.harts.length = a.harts.length := by
  obtain ⟨b, hb, len⟩ := findGang_drainBuf (h := h) .as ha
  obtain ⟨c, hc, len'⟩ := findGang_drainBuf (h := h) .cs hb
  exact ⟨c, hc, len'.trans len⟩

theorem drained_stores (ha : ∀ w ∈ x.abuf, canGo w) (hc : ∀ w ∈ x.cbuf, canGo w) : x.drained.abuf = [] ∧ x.drained.cbuf = [] :=
  ⟨staying_eq_nil (sl := .as) ha, staying_eq_nil (sl := .cs) hc⟩

/-- Stores of the CS that have their links can go once they are closed. -/
theorem canGo_closeStores (hc : ∀ w ∈ x.cbuf, ∀ p ∈ w.hops, p.link ≠ none) : ∀ w ∈ x.closeStores.cbuf, canGo w := by
  intro w hw
  obtain ⟨v, hv, rfl⟩ := List.mem_map.mp hw
  exact ⟨by simp, hc v hv⟩

/-! ### A save area opens (03 R65) -/

theorem openSave_rest (s : State) (l : Launch) (a : Gang) (h : Nat) :
    (openSave s l a h).cycle = s.cycle ∧ (openSave s l a h).launches = s.launches := by
  unfold openSave
  dsimp only
  split <;> exact ⟨rfl, rfl⟩

/-- It leaves the gangs as the hart's new save record does. -/
theorem openSave_gangs (s : State) (l : Launch) (a : Gang) (h : Nat) :
    ∃ v, (openSave s l a h).gangs = (mapHart s a.id h fun y => { y with save := some v }).gangs := by
  unfold openSave
  dsimp only
  split <;> exact ⟨_, rfl⟩

theorem findHart_openSave_same {a : Gang} (ha : a.id = g) (hx : findHart s g h = some x) :
    ∃ v, findHart (openSave s l a h) g h = some { x with save := some v } := by
  obtain ⟨v, e⟩ := openSave_gangs s l a h
  refine ⟨v, ?_⟩
  rw [findHart_of_gangs e, ha, findHart_mapHart_same, hx]
  rfl

theorem findHart_openSave_other {a : Gang} (ne : h ≠ k) : findHart (openSave s l a h) g k = findHart s g k := by
  obtain ⟨v, e⟩ := openSave_gangs s l a h
  rw [findHart_of_gangs e, findHart_mapHart_other _ fun e => ne e.2.symm]

/-- The area of the gang's state is opened only in the place of a hart 0 that has exited. -/
theorem openGangArea_cases (s : State) (g : Nat) : openGangArea s g = s ∨
    ∃ a l z, findGang s g = some a ∧ a.harts[0]? = some z ∧ z.mode = .exited ∧ openGangArea s g = openSave s l a 0 := by
  unfold openGangArea
  split
  · next a l ha _ =>
    split
    · next z hz =>
      split
      · next opens =>
        simp only [Bool.and_eq_true, decide_eq_true_eq] at opens
        exact .inr ⟨a, l, z, ha, by rw [← List.head?_eq_getElem?, hz], opens.1.1, rfl⟩
      · exact .inl rfl
    · exact .inl rfl
  · exact .inl rfl

theorem openGangArea_rest (s : State) (g : Nat) :
    (openGangArea s g).cycle = s.cycle ∧ (openGangArea s g).launches = s.launches := by
  rcases openGangArea_cases s g with e | ⟨a, l, z, -, -, -, e⟩ <;> rw [e]
  · exact ⟨rfl, rfl⟩
  · exact openSave_rest ..

/-- A hart that has not exited is left alone. -/
theorem findHart_openGangArea (hy : findHart s g k = some y) (live : y.mode ≠ .exited) :
    findHart (openGangArea s g) g k = some y := by
  rcases openGangArea_cases s g with e | ⟨a, l, z, ha, hz, gone, e⟩ <;> rw [e]
  · exact hy
  · have ne : 0 ≠ k := by
      rintro rfl
      rw [findHart_place hy ha] at hz
      cases hz
      exact live gone
    rw [findHart_openSave_other ne, hy]

/-! ### A save begins (07 R165) -/

/-- A stopped hart: what it shows of a row move, its stores closed, its slices stopped or yielded. -/
theorem stopForSave_frame (x : Hart) (coop : Bool) : (x.stopForSave coop).mode = .saving ∧ (x.stopForSave coop).coop = coop ∧
    (x.stopForSave coop).abuf = x.abuf ∧ (x.stopForSave coop).cbuf = x.closeStores.cbuf ∧
    (x.stopForSave coop).as_.pc = x.as_.pc ∧ (x.stopForSave coop).cs.pc = x.cs.pc ∧ (x.stopForSave coop).a = x.a ∧
    (x.stopForSave coop).c = x.c := by
  have row : ∃ r q, x.keepRow = { x with zrow := r, viq := q } := by
    unfold Hart.keepRow
    split
    · split
      · exact ⟨_, _, rfl⟩
      · exact ⟨x.zrow, x.viq, rfl⟩
    · exact ⟨x.zrow, x.viq, rfl⟩
  obtain ⟨r, q, e⟩ := row
  unfold Hart.stopForSave
  rw [e]
  exact ⟨rfl, rfl, rfl, rfl, rfl, rfl, rfl, rfl⟩

/-- The state once a stopped hart's stores have been performed. -/
def stoppedAt (s : State) (g h : Nat) (coop : Bool) : State := drainHart (mapHart s g h fun y => y.stopForSave coop) g h

theorem beginSave_eq (s : State) (g h : Nat) (coop : Bool) : beginSave s g h coop =
    match findGang (stoppedAt s g h coop) g, findLaunch (stoppedAt s g h coop) g with
    | some a, some l => openGangArea (openSave (stoppedAt s g h coop) l a h) g
    | _, _ => stoppedAt s g h coop := rfl

theorem stoppedAt_rest : (stoppedAt s g h coop).cycle = s.cycle ∧ (stoppedAt s g h coop).launches = s.launches :=
  drainHart_rest (s := mapHart s g h fun y => y.stopForSave coop)

theorem beginSave_rest : (beginSave s g h coop).cycle = s.cycle ∧ (beginSave s g h coop).launches = s.launches := by
  obtain ⟨cycle, launches⟩ := stoppedAt_rest (s := s) (g := g) (h := h) (coop := coop)
  rw [beginSave_eq]
  split
  · next a l _ _ =>
    obtain ⟨c1, l1⟩ := openSave_rest (stoppedAt s g h coop) l a h
    obtain ⟨c2, l2⟩ := openGangArea_rest (openSave (stoppedAt s g h coop) l a h) g
    exact ⟨(c2.trans c1).trans cycle, (l2.trans l1).trans launches⟩
  · exact ⟨cycle, launches⟩

/-- Another hart's save leaves a hart that has not exited alone. -/
theorem findHart_beginSave_other (ne : h ≠ k) (hy : findHart s g k = some y) (live : y.mode ≠ .exited) :
    findHart (beginSave s g h coop) g k = some y := by
  have stays : findHart (stoppedAt s g h coop) g k = some y := by
    rw [stoppedAt, findHart_drainHart_other ne, findHart_mapHart_other _ fun e => ne e.2.symm, hy]
  rw [beginSave_eq]
  split
  · exact findHart_openGangArea (by rw [findHart_openSave_other ne, stays]) live
  · exact stays

/-- A hart whose save begins. -/
theorem findHart_beginSave_same (hx : findHart s g h = some x) (hl : findLaunch s g = some l) :
    ∃ v, findHart (beginSave s g h coop) g h = some { (x.stopForSave coop).drained with save := some v } := by
  have stopped : findHart (stoppedAt s g h coop) g h = some (x.stopForSave coop).drained := by
    rw [stoppedAt, findHart_drainHart_same, findHart_mapHart_same, hx]
    rfl
  obtain ⟨a, ha, -⟩ := Option.bind_eq_some_iff.mp stopped
  have launch : findLaunch (stoppedAt s g h coop) g = some l := by
    unfold findLaunch
    rw [stoppedAt_rest.2]
    exact hl
  obtain ⟨v, hv⟩ := findHart_openSave_same (l := l) (findGang_id ha) stopped
  refine ⟨v, ?_⟩
  rw [beginSave_eq, ha, launch]
  refine findHart_openGangArea hv ?_
  have saving : (x.stopForSave coop).drained.mode = .saving := (stopForSave_frame x coop).1
  simp [saving]

end Sys2Proof.Machine
end


section
/-! O50: yield requests, forced stops, kills and ends of gangs (04 R87 to R93, 03 R68). -/

namespace Sys2Proof.Machine

open Sys2Proof.Claims

variable {s : State} {gang k : Nat} {g : Gang} {x : Hart} {l : Launch}

/-! ### Yield requests -/

theorem posted_iff : g.posted = true ↔ ∃ h ∈ g.harts, h.ypend.getLsbD 63 = true ∧ h.mode ≠ .exited := by
  simp [Gang.posted, ypP]

theorem ycls_eq (r : Record) : r.ycls = r.ctrl.toNat / 2 ^ 12 % 8 := by
  rw [Record.ycls, bitsOf_eq]
  rfl

section Yield

variable (hg : findGang s gang = some g) (hl : findLaunch s gang = some l)
include hg hl

/-- A second request is ignored. -/
theorem postYield_again (again : g.posted = true) (why : Nat) : postYield s gang why = s := by
  simp [postYield, hg, hl, again]

theorem postYield_first (res : g.st = .resident) (first : g.posted = false) (why : Nat) : postYield s gang why =
    stopWaiting (mapGang s gang fun y => { y with
      harts := y.harts.map fun h => { h with ypend := ypendPosted s.cycle.toNat why l.record.ycls } }) gang g.harts.length := by
  simp [postYield, hg, hl, res, first]

end Yield

/-- No hart stops at once that neither waits nor is halted. -/
theorem stopWaiting_none (n : Nat) (runs : ∀ i y, findHart s gang i = some y →
    (y.mode = .active → y.isWaiting = false) ∧ y.mode ≠ .debugHalt) : stopWaiting s gang n = s := by
  refine List.foldl_fixed' (fun i => ?_) _
  unfold stopIfWaiting
  cases hy : findHart s gang i with
  | none => rfl
  | some y =>
    obtain ⟨busy, free⟩ := runs i y hy
    have stays : y.stopsAtOnce = false := by
      by_cases act : y.mode = .active
      · simp [Hart.stopsAtOnce, busy act, act]
      · simp [Hart.stopsAtOnce, act, free]
    simp only [stays, Bool.false_eq_true, if_false]

/-! ### Forced stops -/

theorem deadlineReached_of (hy : x.ypend.getLsbD 63 = true)
    (past : (s.cycle.toNat + 2 ^ 48 - x.ypend.toNat % 2 ^ 48) % 2 ^ 48 < 2 ^ 47) : deadlineReached s x = true := by
  simp only [deadlineReached, ypP, hy, pastDeadline, bitsOf_eq, Nat.pow_zero, Nat.div_one, Bool.true_and, decide_eq_true_eq]
  exact past

theorem forceStop_rest (s : State) (gang h : Nat) :
    (forceStop s gang h).cycle = s.cycle ∧ (forceStop s gang h).launches = s.launches := by
  unfold forceStop
  split
  · split
    · exact beginSave_rest
    · exact ⟨rfl, rfl⟩
  · exact ⟨rfl, rfl⟩

theorem findHart_forceStop_other {h : Nat} (ne : h ≠ k) (hx : findHart s gang k = some x) (live : x.mode ≠ .exited) :
    findHart (forceStop s gang h) gang k = some x := by
  unfold forceStop
  split
  · split
    · exact findHart_beginSave_other ne hx live
    · exact hx
  · exact hx

/-- Of a hart past its deadline that has not stopped the save begins, with its stores performed. -/
theorem findHart_forceGang (hg : findGang s gang = some g) (hl : findLaunch s gang = some l) (res : g.st = .resident)
    (hx : g.harts[k]? = some x) (act : x.mode = .active) (late : deadlineReached s x = true) :
    ∃ v, findHart (forceGang s gang) gang k = some { (x.stopForSave false).drained with save := some v } := by
  have found : findHart s gang k = some x := by rw [findHart, hg]; exact hx
  have inGang : k < g.harts.length := (List.getElem?_eq_some_iff.mp hx).1
  have live : x.mode ≠ .exited := by rw [act]; decide
  have saving : (x.stopForSave false).drained.mode = .saving := (stopForSave_frame x false).1
  unfold forceGang
  rw [hg]
  dsimp only
  rw [if_pos res]
  refine foldl_range_visits (P := fun t => findHart t gang k = some x ∧ t.cycle = s.cycle ∧ t.launches = s.launches)
    (Q := fun t => ∃ v, findHart t gang k = some { (x.stopForSave false).drained with save := some v }) inGang
    (fun t h ne ⟨hart, cycle, launches⟩ => ?_) (fun t ⟨hart, cycle, launches⟩ => ?_) (fun t h ne ⟨v, hart⟩ => ?_)
    ⟨found, rfl, rfl⟩
  · obtain ⟨c, ls⟩ := forceStop_rest t gang h
    exact ⟨findHart_forceStop_other ne hart live, c.trans cycle, ls.trans launches⟩
  · have reached : deadlineReached t x = true := by
      rw [← late]
      unfold deadlineReached pastDeadline
      rw [cycle]
    have launch : findLaunch t gang = some l := by
      rw [← hl]
      unfold findLaunch
      rw [launches]
    unfold forceStop
    rw [hart]
    dsimp only
    rw [if_pos (by simp [act, reached])]
    exact findHart_beginSave_same hart launch
  · exact ⟨v, findHart_forceStop_other ne hart (by simp [saving])⟩

/-! ### Kills -/

/-- A gang that begins to be killed: its harts' stores are closed, and then performed. -/
def killDrained (s : State) (gang n : Nat) : State :=
  (List.range n).foldl (fun t h => drainHart t gang h)
    (mapGang s gang fun y => { y with harts := y.harts.map (·.closeStores) })

theorem findGang_killDrained (hg : findGang s gang = some g) (n : Nat) :
    ∃ u, findGang (killDrained s gang n) gang = some u ∧ u.harts.length = g.harts.length := by
  refine List.foldlRecOn (motive := fun t => ∃ u, findGang t gang = some u ∧ u.harts.length = g.harts.length) _ _ ?_ ?_
  · exact ⟨_, by rw [findGang_everyHart, hg]; rfl, List.length_map _⟩
  · rintro t ⟨u, hu, len⟩ h -
    obtain ⟨v, hv, len'⟩ := findGang_drainHart (h := h) hu
    exact ⟨v, hv, len'.trans len⟩

/-- The walk leaves no hart a pending store, when each store can go. -/
theorem killDrained_stores (hg : findGang s gang = some g) (goes : ∀ h ∈ g.harts, storesGo h) (hk : k < g.harts.length) :
    ∀ y, findHart (killDrained s gang g.harts.length) gang k = some y → y.abuf = [] ∧ y.cbuf = [] := by
  refine foldl_range_visits (P := fun t => ∀ y, findHart t gang k = some y → (∀ w ∈ y.abuf, canGo w) ∧ ∀ w ∈ y.cbuf, canGo w)
    (Q := fun t => ∀ y, findHart t gang k = some y → y.abuf = [] ∧ y.cbuf = []) hk (fun t h ne going y hy => ?_)
    (fun t going y hy => ?_) (fun t h ne gone y hy => ?_) (fun y hy => ?_)
  · rw [findHart_drainHart_other ne] at hy
    exact going y hy
  · rw [findHart_drainHart_same] at hy
    obtain ⟨z, hz, rfl⟩ := Option.map_eq_some_iff.mp hy
    obtain ⟨ha, hc⟩ := going z hz
    exact drained_stores ha hc
  · rw [findHart_drainHart_other ne] at hy
    exact gone y hy
  · rw [findHart, findGang_everyHart, hg] at hy
    obtain ⟨z, hz, rfl⟩ := List.mem_map.mp (List.mem_of_getElem? hy)
    obtain ⟨ha, hc⟩ := goes z hz
    exact ⟨ha, canGo_closeStores hc⟩

theorem killGang_eq (hg : findGang s gang = some g) (alive : ∀ b, g.st ≠ .ended b) : killGang s gang =
    forgetAge (mapGang (killDrained s gang g.harts.length) gang fun y =>
      { y with st := .ended true, harts := y.harts.map Hart.killed, arrived := [], chamber := [] }) gang := by
  unfold killGang
  rw [hg]
  dsimp only
  split
  · next b e => exact absurd e (alive b)
  · rfl

/-! ### Ends -/

theorem over_of {b : Bool} (id : g.id = gang) (ended : g.st = .ended b) (ops : ∀ o ∈ s.ops, o.gang ≠ gang)
    (adds : ∀ a ∈ s.adds, a.gang ≠ some gang) (stores : ∀ h ∈ g.harts, h.abuf = [] ∧ h.cbuf = []) : g.over s = true := by
  have noOp : s.ops.any (fun o => o.gang == g.id) = false := by simpa [id] using ops
  have noAdd : s.adds.any (fun a => a.gang == some g.id) = false := by simpa [id] using adds
  have noStore : g.harts.all (fun h => h.abuf.isEmpty && h.cbuf.isEmpty) = true := by simpa using stores
  unfold Gang.over
  rw [noOp, noAdd, noStore, ended]
  cases b <;> rfl

/-- Settles O50: a request by whether one is posted already, a stop and a kill hart by hart. -/
theorem gangEvents : Obligations.GangEvents := by
  intro s gang g l hg hl
  refine ⟨fun ha res => ⟨fun again => ?again, fun free => ?posts, fun hid x hx act hy past goes => ?force⟩,
    fun hp alive goes => ?kill, fun k ha ended ops adds stores => ?ends⟩
  case again =>
    change execSystemYieldRequest gang s = _
    rw [execSystemYieldRequest, event_next (awake_of ha), postYield_again hg hl (posted_iff.mpr again)]
  case posts =>
    intro ycls interval
    have first : g.posted = false := by
      rw [← Bool.not_eq_true, posted_iff]
      rintro ⟨h, hh, posted, live⟩
      obtain ⟨unposted, -⟩ := free h hh
      rcases unposted with e | e
      · exact Bool.noConfusion (e.symm.trans posted)
      · exact live e
    change execSystemYieldRequest gang s = _
    rw [execSystemYieldRequest, event_next (awake_of ha), postYield_first hg hl res first, stopWaiting_none]
    · rw [ycls_eq]
      rfl
    · intro i y hy
      rw [findHart, findGang_everyHart, hg] at hy
      obtain ⟨z, hz, rfl⟩ := List.mem_map.mp (List.mem_of_getElem? hy)
      obtain ⟨-, busy, running⟩ := free z hz
      exact ⟨busy, running⟩
  case force =>
    obtain ⟨goA, goC⟩ := goes
    obtain ⟨v, hart⟩ := findHart_forceGang hg hl res hx act (deadlineReached_of hy past)
    obtain ⟨mode, coop, abuf, cbuf, apc, cpc, a, c⟩ := stopForSave_frame x false
    obtain ⟨noA, noC⟩ := drained_stores (x := x.stopForSave false) (by rw [abuf]; exact goA)
      (by rw [cbuf]; exact canGo_closeStores goC)
    refine ⟨_, _, ?_, hart, mode, coop, rfl, noA, noC, apc, cpc, a, c⟩
    change execForcedStop gang s = _
    exact event_next (awake_of ha)
  case kill =>
    obtain ⟨u, hu, len⟩ := findGang_killDrained hg g.harts.length
    have killed : findGang (killGang s gang) gang = some { u with
        st := .ended true, harts := u.harts.map Hart.killed, arrived := [], chamber := [] } := by
      rw [killGang_eq hg alive]
      refine (findGang_mapGang_same (f := fun y => { y with
        st := .ended true, harts := y.harts.map Hart.killed, arrived := [], chamber := [] }) fun _ => rfl).trans ?_
      rw [hu]
      rfl
    have run : exec (.gangKill gang) s = .next (killGang s gang) := by
      change execGangKill gang s = _
      exact event_next (powered_of hp)
    refine ⟨_, _, run, killed, rfl, rfl, (List.length_map _).trans len, fun h hh => ?_⟩
    obtain ⟨y, hy, rfl⟩ := List.mem_map.mp hh
    obtain ⟨i, hi, at_⟩ := List.mem_iff_getElem.mp hy
    obtain ⟨noA, noC⟩ := killDrained_stores hg goes (len ▸ hi) y (by
      rw [findHart, hu, ← at_]
      exact List.getElem?_eq_getElem hi)
    exact ⟨rfl, rfl, rfl, rfl, rfl, rfl, rfl, noA, noC, rfl⟩
  case ends =>
    intro t
    have isOver := over_of (findGang_id hg) ended ops adds stores
    have run : exec (.gangEnd gang) s =
        .next (countEnd { t with gangs := t.gangs.filter fun x => x.id != gang } l) := by
      change execGangEnd gang s = _
      rw [execGangEnd, event_next (awake_of ha), hg, hl]
      dsimp only
      rw [if_pos isOver, ended]
      cases k <;> rfl
    refine ⟨fun last => ?_, fun more => ?_⟩
    · rw [run, countEnd, if_pos last]
    · rw [run, countEnd, if_neg more]

end Sys2Proof.Machine
end


section
/-! O49: placement, restores, victims and aging of gangs (04 R80 to R83, R85). -/

namespace Sys2Proof.Machine

open Sys2Proof.Claims

variable {s t t' : State} {gang k n : Nat} {g : Gang} {x : Hart} {l : Launch} {w : Waiting} {die : BitVec 3}
  {places : List (Nat × Nat)}

/-! ### The order of the queue (R82) -/

theorem before_iff (v w : Waiting) : v.before w = true ↔
    v.cls < w.cls ∨ (v.cls = w.cls ∧ (v.since < w.since ∨ (v.since = w.since ∧ v.id < w.id))) := by
  simp [Waiting.before]

theorem not_before_of_before {v w : Waiting} (h : v.before w = true) : w.before v = false := by
  rw [Bool.eq_false_iff, Ne, before_iff]
  rw [before_iff] at h
  omega

/-- That an entry does not come before another carries over a third. -/
theorem not_before_trans {u v w : Waiting} (huv : v.before u = false) (hvw : w.before v = false) : w.before u = false := by
  rw [Bool.eq_false_iff, Ne, before_iff] at *
  omega

theorem mem_insertWaiting {v : Waiting} {q : List Waiting} : w ∈ insertWaiting v q ↔ w = v ∨ w ∈ q := by
  induction q with
  | nil => simp [insertWaiting]
  | cons u q ih =>
    unfold insertWaiting
    split
    · exact List.mem_cons
    · rw [List.mem_cons, ih, List.mem_cons]
      tauto

theorem insertWaiting_sorted {v : Waiting} {q : List Waiting} (h : q.Pairwise fun x y => y.before x = false) :
    (insertWaiting v q).Pairwise fun x y => y.before x = false := by
  induction q with
  | nil => exact List.pairwise_singleton _ _
  | cons u q ih =>
    obtain ⟨first, rest⟩ := List.pairwise_cons.mp h
    unfold insertWaiting
    split
    · next goes =>
      refine List.pairwise_cons.mpr ⟨fun y hy => ?_, h⟩
      rcases List.mem_cons.mp hy with rfl | hy
      · exact not_before_of_before goes
      · exact not_before_trans (not_before_of_before goes) (first y hy)
    · next stays =>
      refine List.pairwise_cons.mpr ⟨fun y hy => ?_, ih rest⟩
      rcases mem_insertWaiting.mp hy with rfl | hy
      · exact Bool.eq_false_iff.mpr stays
      · exact first y hy

theorem placeQueue_sorted (s : State) (d : Nat) : (placeQueue s d).Pairwise fun x y => y.before x = false := by
  unfold placeQueue
  induction placeable s d with
  | nil => exact List.Pairwise.nil
  | cons v q ih => exact insertWaiting_sorted ih

/-! ### The first that fits (R80) -/

theorem gangPlace_none (ha : Awake s) (none_ : ∀ v ∈ placeQueue s die.toNat, fitGang s die v = none) :
    exec (.gangPlace die) s = .next s := by
  have nothing : ((placeQueue s die.toNat).findSome? fun v => (fitGang s die v).map fun p => (v, p)) = none := by
    rw [List.findSome?_eq_none_iff]
    intro v hv
    rw [none_ v hv]
    rfl
  change execGangPlace die s = _
  rw [execGangPlace, event_next (awake_of ha), nothing]

theorem gangPlace_first (ha : Awake s) {pre rest : List Waiting} (queue : placeQueue s die.toNat = pre ++ w :: rest)
    (unfit : ∀ v ∈ pre, fitGang s die v = none) (fits : fitGang s die w = some (k, places)) :
    exec (.gangPlace die) s = .next (placeGang s die w k places) := by
  have passed : (pre.findSome? fun v => (fitGang s die v).map fun p => (v, p)) = none := by
    rw [List.findSome?_eq_none_iff]
    intro v hv
    rw [unfit v hv]
    rfl
  have found : ((placeQueue s die.toNat).findSome? fun v => (fitGang s die v).map fun p => (v, p)) = some (w, k, places) := by
    rw [queue, List.findSome?_append, passed, List.findSome?_cons, fits]
    rfl
  change execGangPlace die s = _
  rw [execGangPlace, event_next (awake_of ha), found]

/-! ### First residency (03 R65) -/

/-- Every scalar register of a hart reads 0 as it first becomes resident. -/
theorem fresh_getReg (l : Launch) (num hid core ctx : Nat) (sl : SliceId) (r : RegField) :
    (Hart.fresh l num hid core ctx).getReg sl r = 0 := by
  have zeros : fileGet (Vector.replicate 32 0) r = 0 := by
    unfold fileGet
    split
    · rfl
    · exact Vector.getElem_replicate _
  cases sl with
  | as => exact zeros
  | cs => exact zeros

theorem fresh_hart {d hid : Nat} (hx : (Gang.fresh s l d k places).harts[hid]? = some x) :
    ∃ p, places[hid]? = some p ∧ x = Hart.fresh l l.placed hid p.1 p.2 := by
  rw [Gang.fresh, List.getElem?_map, List.getElem?_zipIdx] at hx
  cases hp : places[hid]? with
  | none => simp [hp] at hx
  | some p => exact ⟨p, rfl, by simpa [hp] using hx.symm⟩

theorem placeGang_fresh (new : findGang s w.id = none) (hl : findLaunch s w.id = some l) : placeGang s die w k places =
    forgetAge (leaveQueue (mapLaunch { s with gangs := s.gangs ++ [Gang.fresh s l die.toNat k places] } l.id fun l =>
      { l with placed := l.placed + 1 }) die k) w.id := by
  rw [placeGang, new, hl]

/-! ### Restores (R81) -/

/-- A gang of n harts reserved in gallery k for its restore, its harts on the cores that `places` gives. -/
structure Gang.setDown (y : Gang) (k : Nat) (places : List (Nat × Nat)) (n : Nat) : Prop where
  st : y.st = .restoring
  gallery : y.gallery = k
  size : y.harts.length = n
  on : ∀ (hid : Nat) (p : Nat × Nat) (h : Hart), places[hid]? = some p → y.harts[hid]? = some h → h.core = p.1 ∧ h.ctx = p.2

/-- A gang is set down in a state, in which aging and the galleries last chosen are those of s. -/
structure setDownFrom (s : State) (gang k : Nat) (places : List (Nat × Nat)) (n : Nat) (t : State) : Prop where
  placed : ∃ y, findGang t gang = some y ∧ y.setDown k places n
  aged : t.aged = s.aged
  last : t.lastGallery = s.lastGallery

theorem Gang.setDown.withHart (h : g.setDown k places n) (i : Nat) {f : Hart → Hart}
    (keeps : ∀ y, (f y).core = y.core ∧ (f y).ctx = y.ctx) : (g.withHart i f).setDown k places n where
  st := h.st
  gallery := h.gallery
  size := (List.length_modify ..).trans h.size
  on hid p y hp hy := by
    rw [Gang.withHart, List.getElem?_modify] at hy
    obtain ⟨z, hz, rfl⟩ := Option.map_eq_some_iff.mp hy
    obtain ⟨core, ctx⟩ := h.on hid p z hp hz
    split
    · exact ⟨(keeps z).1.trans core, (keeps z).2.trans ctx⟩
    · exact ⟨core, ctx⟩

/-- Binding a TCM block changes the hart's bound blocks and memory only. -/
theorem bindTcm_next {hid j p : Nat} (e : bindTcm t g gang hid x j = some (p, t')) :
    ∃ m, t' = { mapHart t gang hid fun h => { h with tcm := insertKey j p h.tcm } with mem := m } := by
  unfold bindTcm at e
  dsimp only at e
  split at e
  · cases e
  · cases e
    exact ⟨_, rfl⟩

theorem bindChamber_next {j p : Nat} (e : bindChamber t g j = some (p, t')) :
    ∃ m, t' = { mapGang t g.id fun y => { y with chamber := insertKey j p y.chamber } with mem := m } := by
  unfold bindChamber at e
  dsimp only at e
  split at e
  · cases e
  · cases e
    exact ⟨_, rfl⟩

theorem setDownFrom_bindTcm (h : setDownFrom s gang k places n t) (hid j : Nat) :
    setDownFrom s gang k places n (((bindTcm t g gang hid x j).map (·.2)).getD t) := by
  cases e : bindTcm t g gang hid x j with
  | none => exact h
  | some r =>
    obtain ⟨p, t'⟩ := r
    obtain ⟨m, rfl⟩ := bindTcm_next e
    obtain ⟨y, hy, down⟩ := h.placed
    exact ⟨⟨_, findGang_mapHart_same.trans (congrArg _ hy), down.withHart hid fun _ => ⟨rfl, rfl⟩⟩, h.aged, h.last⟩

theorem setDownFrom_bindChamber (h : setDownFrom s gang k places n t) (id : g.id = gang) (j : Nat) :
    setDownFrom s gang k places n (((bindChamber t g j).map (·.2)).getD t) := by
  cases e : bindChamber t g j with
  | none => exact h
  | some r =>
    obtain ⟨p, t'⟩ := r
    obtain ⟨m, rfl⟩ := bindChamber_next e
    obtain ⟨y, hy, down⟩ := h.placed
    subst id
    have bound := findGang_mapGang_same (s := t) (k := g.id) (f := fun y => { y with chamber := insertKey j p y.chamber })
      fun _ => rfl
    exact ⟨⟨_, bound.trans (congrArg _ hy), ⟨down.st, down.gallery, down.size, down.on⟩⟩, h.aged, h.last⟩

/-- Binding blocks anew leaves a gang where it was set down. -/
theorem setDownFrom_rebind (h : setDownFrom s g.id k places n t) : setDownFrom s g.id k places n (rebind t g) := by
  unfold rebind
  refine List.foldlRecOn _ _ (List.foldlRecOn _ _ h fun u hu ⟨y, hid⟩ _ =>
    List.foldlRecOn _ _ hu fun u hu ⟨j, _⟩ _ => ?_) fun u hu ⟨j, _⟩ _ => ?_
  · dsimp only
    split
    · exact setDownFrom_bindTcm hu ..
    · exact hu
  · dsimp only
    split
    · next y hy => exact setDownFrom_bindChamber hu (findGang_id hy) _
    · exact hu

/-- A saved gang that a gallery is reserved for. -/
def Gang.reserved (g : Gang) (k : Nat) (places : List (Nat × Nat)) : Gang :=
  { g with
    st := .restoring, gallery := k, chamber := []
    harts := g.harts.zipIdx.map fun (h, hid) =>
      match places[hid]? with
      | some p => { h with core := p.1, ctx := p.2, tcm := [] }
      | none => h }

theorem Gang.reserved_setDown (g : Gang) (k : Nat) (places : List (Nat × Nat)) :
    (g.reserved k places).setDown k places g.harts.length where
  st := rfl
  gallery := rfl
  size := by simp [Gang.reserved]
  on hid p y hp hy := by
    rw [Gang.reserved, List.getElem?_map, List.getElem?_zipIdx] at hy
    obtain ⟨z, hz, rfl⟩ := Option.map_eq_some_iff.mp hy
    obtain ⟨v, -, rfl⟩ := Option.map_eq_some_iff.mp hz
    simp only [Nat.zero_add, hp, and_self]

/-- What `placeSaved` does before the gang leaves the queue sets it down in its gallery. -/
theorem setDownFrom_placeSaved (hg : findGang s g.id = some g) :
    setDownFrom s g.id k places g.harts.length (rebind (mapGang s g.id fun y => y.reserved k places) g) :=
  setDownFrom_rebind ⟨⟨_, (findGang_mapGang_same (f := fun y => y.reserved k places) fun _ => rfl).trans (congrArg _ hg),
    g.reserved_setDown k places⟩, rfl, rfl⟩

/-! ### Victims (R83) -/

theorem mem_insertVictim {u v : Victim} {q : List Victim} : u ∈ insertVictim v q ↔ u = v ∨ u ∈ q := by
  induction q with
  | nil => simp [insertVictim]
  | cons a q ih =>
    unfold insertVictim
    split
    · exact List.mem_cons
    · rw [List.mem_cons, ih, List.mem_cons]
      tauto

theorem mem_sortVictims {u : Victim} {q : List Victim} : u ∈ q.foldr insertVictim [] ↔ u ∈ q := by
  induction q with
  | nil => exact Iff.rfl
  | cons v q ih => rw [List.foldr_cons, mem_insertVictim, ih, List.mem_cons]

/-- A victim is a gang of the gallery that waits, or one of a class no more urgent that has run long enough. -/
theorem victim_gang {d cls : Nat} {v : Victim} (hv : v ∈ victimsOf s d k cls) :
    ∃ g ∈ s.gangs, ∃ a, g.id = v.id ∧ findLaunch s v.id = some a ∧ g.st = .resident ∧ g.gallery = k ∧
      (g.allWaiting = true ∨ (cls ≤ a.record.pri ∧ 32000 ≤ s.cycle.toNat - g.since)) := by
  obtain ⟨g, hg, e⟩ := List.mem_filterMap.mp (mem_sortVictims.mp hv)
  split at e
  · next a ha =>
    dsimp only at e
    split at e
    · next may =>
      cases e
      simp only [Bool.and_eq_true, Bool.or_eq_true, decide_eq_true_eq] at may
      obtain ⟨⟨⟨⟨res, -⟩, gallery⟩, -⟩, why⟩ := may
      exact ⟨g, hg, a, rfl, ha, res, gallery, why⟩
    · cases e
  · cases e

/-- The gangs that are asked are those taken already and victims. -/
theorem takeVictims_mem {d : Nat} {gone taken ids : List Nat} {vs : List Victim}
    (e : takeVictims s d k w gone taken vs = some ids) : ∀ i ∈ ids, i ∈ taken ∨ ∃ v ∈ vs, v.id = i := by
  induction vs generalizing taken with
  | nil =>
    unfold takeVictims at e
    split at e
    · cases e
      exact fun i hi => .inl hi
    · cases e
  | cons v vs ih =>
    unfold takeVictims at e
    split at e
    · cases e
      exact fun i hi => .inl hi
    · intro i hi
      rcases ih e i hi with hi | ⟨u, hu, rfl⟩
      · rcases List.mem_append.mp hi with hi | hi
        · exact .inl hi
        · exact .inr ⟨v, List.mem_cons_self, (List.mem_singleton.mp hi).symm⟩
      · exact .inr ⟨u, List.mem_cons_of_mem _ hu, rfl⟩

section Select

variable {rest : List Waiting} (ha : Awake s) (queue : placeQueue s die.toNat = w :: rest)
include ha queue

theorem victimSelect_fits (fits : (fitGang s die w).isSome = true) : exec (.victimSelect die) s = .next s := by
  change execVictimSelect die s = _
  rw [execVictimSelect, event_next (awake_of ha), queue]
  dsimp only
  rw [if_pos fits]

theorem victimSelect_takes {ids : List Nat} (full : fitGang s die w = none)
    (found : ((galleryOrder s die).findSome? fun k =>
      takeVictims s die.toNat k w (leaving s die.toNat k) [] (victimsOf s die.toNat k w.cls)) = some ids) :
    exec (.victimSelect die) s = .next (ids.foldl (fun s g => postYield s g 0) s) := by
  change execVictimSelect die s = _
  rw [execVictimSelect, event_next (awake_of ha), queue]
  dsimp only
  rw [if_neg (by simp [full]), found]

end Select

/-! ### Aging (R82, R85) -/

theorem classAging_eq {since : Nat} (ha : Awake s) (hl : findLaunch s gang = some l) (queued : queuedSince s gang = some since)
    (gained : (assoc gang s.aged).getD 0 = k) : exec (.classAging gang) s =
      .next (if k < l.record.pri ∧ (k + 1) * (720720 * 1000000) ≤ s.ntime - since then
        { s with aged := insertKey gang (k + 1) s.aged } else s) := by
  change execClassAging gang s = _
  rw [execClassAging, event_next (awake_of ha), hl, queued]
  simp only [gained, oneMs, Bool.and_eq_true, decide_eq_true_eq]

theorem issueClassAging_eq {hid : BitVec 4} {pipe : Pipe} (ha : Awake s) (hg : findGang s gang = some g) :
    exec (.issueClassAging gang hid pipe) s =
      .next (if g.st = .resident then mapHart s gang hid.toNat fun h => h.passedOver (pipeIndex pipe) else s) := by
  change execIssueClassAging gang hid pipe s = _
  rw [execIssueClassAging, event_next (awake_of ha), hg]

/-! ### Clocks (R85) -/

/-- The device time, and the ages of what waits in the channels, after n clocks. -/
def timePasses (n : Nat) (s : State) : State :=
  let u := s.ntime + n * coreUnits s.clock
  { s with
    ntime := u
    dev := { s.dev with chans := s.dev.chans.map (·.older (u / controllerUnits - s.ntime / controllerUnits)) } }

theorem passClocks_awake (ha : Awake s) (n : Nat) : passClocks n s = { timePasses n s with
    cycle := s.cycle + BitVec.ofNat 64 n
    gangs := s.gangs.map fun g =>
      if g.st = .resident then
        { g with harts := g.harts.mapIdx fun k h => h.after (readyBehind (timePasses n s) g.id k) n } else g } := by
  have on : ¬ s.bed.off = true := by rw [ha.1.1]; decide
  have runs : awake (timePasses n s) = true := awake_of ha
  unfold passClocks
  rw [if_neg on]
  change (if (!awake (timePasses n s)) = true then _ else _) = _
  rw [if_neg (by simp [runs])]
  rfl

theorem findHart_passClocks_awake {hid : Nat} (ha : Awake s) (hg : findGang s gang = some g) (res : g.st = .resident)
    (hx : g.harts[hid]? = some x) (n : Nat) : findHart (passClocks n s) gang hid =
      some (x.after (readyBehind (timePasses n s) gang hid) n) := by
  have all := congrArg State.gangs (passClocks_awake ha n)
  rw [findHart, findGang_map (fun y => by split <;> rfl) all, hg]
  simp [res, hx, findGang_id hg]

theorem after_issueClass (x : Hart) (behind : Nat → Bool) (n : Nat) : (x.after behind n).issueClass = x.issueClass := by
  unfold Hart.after
  dsimp only
  split
  · rfl
  · rfl

theorem after_passed {behind : Nat → Bool} {p : Nat} (hp : x.passed[k]? = some p) (n : Nat) :
    (x.after behind n).passed[k]? = some (if x.readyFor behind k then p + n else 0) := by
  have counts : (x.after behind n).passed = (x.passClocks behind n).passed := by
    unfold Hart.after
    dsimp only
    split
    · rfl
    · rfl
  rw [counts, Hart.passClocks, List.getElem?_mapIdx, hp]
  rfl

/-- Settles O49: the queue by its order, a placement by whether the first gang that fits is new or saved, a victim by how it
was found, and the aging of classes and of issue. -/
theorem placementEvents : Obligations.PlacementEvents := by
  intro s ha
  refine ⟨fun die => ⟨placeQueue_sorted s _, gangPlace_none ha, ?fresh, ?saved, ?victim⟩, ?aging, ?issue, ?clocks⟩
  case fresh =>
    intro pre w rest k places l queue unfit fits new hl
    refine ⟨_, Gang.fresh s l die.toNat k places, gangPlace_first ha queue unfit fits, ?_⟩
    rw [placeGang_fresh new hl]
    refine ⟨rfl, rfl, rfl, rfl, rfl, rfl, rfl, by simp [Gang.fresh], fun hid h hh => ?_⟩
    obtain ⟨p, hp, rfl⟩ := fresh_hart hh
    exact ⟨hp, rfl, rfl, rfl, rfl, rfl, rfl, rfl, rfl, rfl, rfl, rfl, rfl, rfl, rfl, fresh_getReg l _ hid p.1 p.2, rfl, rfl⟩
  case saved =>
    intro pre w rest k places g queue unfit fits hg
    have id := findGang_id hg
    rw [← id] at hg ⊢
    obtain ⟨⟨y, hy, down⟩, aged, last⟩ := setDownFrom_placeSaved (k := k) (places := places) hg
    have run := gangPlace_first ha queue unfit fits
    rw [placeGang, ← id, hg] at run
    refine ⟨_, y, run, hy, down.st, down.gallery, aged, ?_, down.size, down.on⟩
    exact congrArg (fun v => v.set die.toNat k die.isLt) last
  case victim =>
    refine fun w rest queue => ⟨victimSelect_fits ha queue, fun l => victimSelect_takes ha queue, fun k l e i hi => ?_⟩
    rcases takeVictims_mem e i hi with none_ | ⟨v, hv, rfl⟩
    · cases none_
    · exact victim_gang hv
  case aging =>
    intro gang l since k hl queued gained
    rw [classAging_eq ha hl queued gained]
    refine ⟨fun more long => ?_, fun stays => ?_⟩
    · rw [if_pos ⟨more, long⟩]
    · rw [if_neg (by omega)]
  case issue =>
    intro gang hid pipe g hg
    rw [issueClassAging_eq ha hg]
    refine ⟨fun res => ?_, fun away => ?_⟩
    · rw [if_pos res]
      rfl
    · rw [if_neg away]
  case clocks =>
    intro n rest gang g hid x agenda hg res hx
    have awake : Awake { s with agenda := rest } := ha
    refine ⟨_, _, step_clocks agenda, findHart_passClocks_awake awake hg res hx n, after_issueClass .., ?_, ?_⟩
    · rw [passClocks_awake awake]
    · rw [passClocks_awake awake]
      exact fun k p hp => after_passed hp n

end Sys2Proof.Machine
end


section
/-! O5: register 0 of a file (05 R97). -/

namespace Sys2Proof.Machine

theorem fileGet_zero (f : Vector Word 32) : fileGet f 0 = 0 := if_pos rfl

theorem fileSet_zero (f : Vector Word 32) (v : Word) : fileSet f 0 v = f := if_pos rfl

/-- Settles O5, by what a file reads after a write. -/
theorem registerZero : Obligations.RegisterZero := by
  refine fun f d r v => ⟨fileGet_zero f, fileSet_zero f v, ?_⟩
  rw [fileGet_fileSet]
  exact if_congr (and_congr_left' eq_comm) rfl rfl

end Sys2Proof.Machine
end


section
/-! O11, parts: which numbers name a control register of a slice (05 R98), and what `getc` and `setc` do with a register of the
slice, with one that waits for the vector queue, and with a number that is none (05 R99, 11 R233). -/

namespace Sys2Proof.Machine

open Sys2Proof.Claims

variable {s : State} {h : Here} {x : Hart} {l : Launch} {d a : RegField} {n : BitVec 15} {sl : SliceId}

/-! ### The table of 05 R98, which ends below 0x062 -/

theorem accessOf_eq_absent_iff (sl : SliceId) (k : Nat) : accessOf sl k = .absent ↔ ctlListed sl k = false := by
  have near : ∀ k, k < 0x62 → (accessOf sl k = .absent ↔ ctlListed sl k = false) := by cases sl <;> decide
  rcases Nat.lt_or_ge k 0x62 with lt | ge
  · exact near k lt
  · obtain ⟨m, rfl⟩ := Nat.exists_eq_add_of_le' ge
    cases sl <;> exact iff_of_true rfl rfl

theorem accessOf_eq_rw_iff (sl : SliceId) (k : Nat) : accessOf sl k = .rw ↔ ctlWrittenBy sl k = true := by
  have near : ∀ k, k < 0x62 → (accessOf sl k = .rw ↔ ctlWrittenBy sl k = true) := by cases sl <;> decide
  rcases Nat.lt_or_ge k 0x62 with lt | ge
  · exact near k lt
  · obtain ⟨m, rfl⟩ := Nat.exists_eq_add_of_le' ge
    cases sl <;> exact iff_of_false nofun nofun

theorem accessOf_eq_ro {k : Nat} (listed : ctlListed sl k = true) (unwritten : ctlWrittenBy sl k = false) :
    accessOf sl k = .ro := by
  cases e : accessOf sl k with
  | absent => rw [(accessOf_eq_absent_iff sl k).mp e] at listed; cases listed
  | rw => rw [(accessOf_eq_rw_iff sl k).mp e] at unwritten; cases unwritten
  | ro => rfl

/-- The registers whose `setc` waits for the queue are the CS's to write. -/
theorem setWaits_written {k : Nat} (waits : setWaits k = true) : ctlWrittenBy .cs k = true := by
  unfold setWaits at waits
  split at waits
  · rfl
  · rfl
  · rfl
  · rfl
  · cases waits

theorem ctlRows_toNat : ∀ p ∈ ctlRows, (BitVec.ofNat 15 p.1).toNat = p.1 := by decide

theorem ctlRows_waits : ∀ p ∈ ctlRows, getWaits p.1 = p.2.2.2.1 := by decide

theorem ctlRows_waits_cs : ∀ p ∈ ctlRows, p.2.2.2.1 = true → ctlReads .cs p = true := by decide

theorem ctlRows_present (sl : SliceId) : ∀ p ∈ ctlRows, ctlReads sl p = true → accessOf sl p.1 ≠ .absent := by
  cases sl <;> decide

theorem ctlWrites_toNat : ∀ p ∈ ctlWrites, (BitVec.ofNat 15 p.1).toNat = p.1 := by decide

theorem ctlWrites_waits : ∀ p ∈ ctlWrites, setWaits p.1 = p.2.2.2.1 := by decide

theorem ctlWrites_writable (sl : SliceId) : ∀ p ∈ ctlWrites, ctlWritable sl p = true → accessOf sl p.1 = .rw := by
  cases sl <;> decide

/-- A register of the table reads as its field of the hart. -/
theorem readCtl_row (s : State) (vrlen : Nat) (x : Hart) (sl : SliceId) :
    ∀ p ∈ ctlRows, readCtl s vrlen x sl p.1 = p.2.2.2.2 x sl := by
  simp only [ctlRows, List.forall_mem_cons]
  exact ⟨rfl, rfl, rfl, rfl, rfl, rfl, rfl, rfl, rfl, rfl, rfl, rfl, rfl, rfl, rfl, rfl, rfl, rfl, rfl, rfl, rfl, rfl, rfl, rfl,
    rfl, rfl, rfl, rfl, rfl, rfl, rfl, nofun⟩

/-- A register of the table is written as its field of the hart. -/
theorem writeCtl_row (vrlen : Nat) (x : Hart) (sl : SliceId) (v : Word) :
    ∀ p ∈ ctlWrites, x.writeCtl vrlen sl p.1 v = p.2.2.2.2 x sl v := by
  simp only [ctlWrites, List.forall_mem_cons]
  refine ⟨rfl, rfl, rfl, rfl, rfl, rfl, rfl, rfl, rfl, rfl, rfl, rfl, ?_, nofun⟩
  cases sl <;> rfl

@[simp] theorem Hart.slice_writeCtl (x : Hart) (vrlen : Nat) (sl sl' : SliceId) (k : Nat) (v : Word) :
    (x.writeCtl vrlen sl k v).slice sl' = x.slice sl' := by
  unfold Hart.writeCtl
  cases sl' <;> (repeat' split) <;> rfl

/-! ### The vector length and the vector queue -/

/-- VRLEN of the executing hart. -/
def vrlenAt (s : State) (h : Here) : Nat := ((findLaunch s h.gang).map fun l => vrlenOf l.record.ctrl).getD 4096

theorem vrlenM_run (r : Runs s h x) : vrlenM s = .ok (vrlenAt s h) s := by
  unfold vrlenM
  rw [M.bind_ok (hereM_run r.who), M.bind_ok (M.get_run s)]
  rfl

theorem vrlenAt_of_launch (hl : findLaunch s h.gang = some l) :
    vrlenAt s h = 4096 * 2 ^ (l.record.ctrl.toNat / 8 % 8) := by
  rw [vrlenAt, hl, Option.map_some, Option.getD_some, vrlenOf, bitsOf_eq]
  rfl

section Gate

variable {α : Type} {c : Prop} [Decidable c] (r : Runs s h x) (k : PUnit → M α)
include r

/-- A body that needs the vector queue empty where c holds goes on where it does not, or the queue is empty. -/
theorem queueGate_open (ready : c → x.viq = []) : (if c then needQueueEmpty >>= k else k ⟨⟩) s = k ⟨⟩ s := by
  split
  · next hc =>
    have empty : needQueueEmpty s = .ok () s := by
      unfold needQueueEmpty
      rw [M.bind_ok (hartM_run r), ready hc]
      rfl
    rw [M.bind_ok empty]
  · rfl

theorem queueGate_shut (hc : c) (full : x.viq ≠ []) :
    (if c then needQueueEmpty >>= k else k ⟨⟩) s = .error (.wait (queueWait x)) s := by
  have held : needQueueEmpty s = .error (.wait (queueWait x)) s := by
    unfold needQueueEmpty
    rw [M.bind_ok (hartM_run r), if_neg (by simpa using full)]
    rfl
  rw [if_pos hc, M.bind_error held]

end Gate

/-! ### `getc` -/

section Slice

variable (r : Runs s h x)
include r

theorem getc_reads (present : accessOf h.sl n.toNat ≠ .absent) (ready : h.sl = .cs → getWaits n.toNat = true → x.viq = []) :
    exec (.getc d n) s =
      .next (retire s (.slice h) d (readCtl s (vrlenAt s h) x h.sl n.toNat) ((x.slice h.sl).pc + 4)) := by
  change execGetc d n s = _
  unfold execGetc
  rw [runScalar_run r.cpu both_admits, M.bind_ok (cpuM_run r.cpu)]
  simp only [present, if_false]
  rw [queueGate_open r _ (by simpa using ready), M.bind_ok (vrlenM_run r), M.bind_ok (M.get_run s), M.bind_ok (hartM_run r),
    writes_run r.cpu, pc_of_runs r]
  rfl

theorem getc_waits (present : accessOf h.sl n.toNat ≠ .absent) (hs : h.sl = .cs) (needs : getWaits n.toNat = true)
    (full : x.viq ≠ []) : exec (.getc d n) s = .next (waits s h (queueWait x)) := by
  change execGetc d n s = _
  unfold execGetc
  rw [runScalar_run r.cpu both_admits, M.bind_ok (cpuM_run r.cpu)]
  simp only [present, if_false]
  rw [queueGate_shut r _ (by simp [hs, needs]) full]
  rfl

theorem getc_absent (absent : accessOf h.sl n.toNat = .absent) : exec (.getc d n) s =
    .next (takeTrap s h.gang h.hid h.sl none { cause := cILLEGAL, eaddr := 0, einfo := 0 }) := by
  change execGetc d n s = _
  unfold execGetc
  rw [runScalar_run r.cpu both_admits, M.bind_ok (cpuM_run r.cpu)]
  simp only [absent, if_true]
  rfl

/-! ### `setc` -/

theorem setc_writes (rw_ : accessOf h.sl n.toNat = .rw) (ready : h.sl = .cs → setWaits n.toNat = true → x.viq = []) :
    exec (.setc n a) s = .next (goOn s h ((x.slice h.sl).pc + 4) fun y =>
      y.writeCtl (vrlenAt s h) h.sl n.toNat (x.getReg h.sl a)) := by
  change execSetc n a s = _
  unfold execSetc
  rw [runScalar_run r.cpu both_admits, M.bind_ok (cpuM_run r.cpu)]
  simp only [rw_, reduceCtorEq, if_false, if_true]
  rw [queueGate_open r _ (by simpa using ready), M.bind_ok (getX_run r.cpu a), M.bind_ok (vrlenM_run r),
    M.bind_ok (modHart_run r.who _), finish_advance (r.mapHart _), reg_of_runs r, Hart.slice_writeCtl, goOn,
    mapHart_mapHart]
  rfl

/-- No register that is read-only for its slice is one whose `setc` waits, so it goes on whatever the queue holds (log 169). -/
theorem setc_ignored (ro : accessOf h.sl n.toNat = .ro) :
    exec (.setc n a) s = .next (goOn s h ((x.slice h.sl).pc + 4) id) := by
  change execSetc n a s = _
  have ready : h.sl = .cs → setWaits n.toNat = true → x.viq = [] := fun hs needs => by
    have rw_ := (accessOf_eq_rw_iff .cs _).mpr (setWaits_written needs)
    rw [← hs, ro] at rw_
    cases rw_
  unfold execSetc
  rw [runScalar_run r.cpu both_admits, M.bind_ok (cpuM_run r.cpu)]
  simp only [ro, reduceCtorEq, if_false]
  rw [queueGate_open r _ (by simpa using ready), M.bind_ok (getX_run r.cpu a), M.bind_ok (vrlenM_run r), finish_advance r]
  rfl

theorem setc_waits (present : accessOf h.sl n.toNat ≠ .absent) (hs : h.sl = .cs) (needs : setWaits n.toNat = true)
    (full : x.viq ≠ []) : exec (.setc n a) s = .next (waits s h (queueWait x)) := by
  change execSetc n a s = _
  unfold execSetc
  rw [runScalar_run r.cpu both_admits, M.bind_ok (cpuM_run r.cpu)]
  simp only [present, if_false]
  rw [queueGate_shut r _ (by simp [hs, needs]) full]
  rfl

theorem setc_absent (absent : accessOf h.sl n.toNat = .absent) : exec (.setc n a) s =
    .next (takeTrap s h.gang h.hid h.sl none { cause := cILLEGAL, eaddr := 0, einfo := 0 }) := by
  change execSetc n a s = _
  unfold execSetc
  rw [runScalar_run r.cpu both_admits, M.bind_ok (cpuM_run r.cpu)]
  simp only [absent, if_true]
  rfl

end Slice

/-! ### `qstat` (05 R101) -/

/-- A sum of powers of two, one for each place of a list where q fails. -/
theorem foldl_zipIdx_eq_ofBits {α : Type} (q : α → Bool) (l : List α) (i n : Nat) :
    (l.zipIdx i).foldl (fun n (y, j) => n + (if q y then 0 else 2 ^ j)) n =
      n + 2 ^ i * Nat.ofBits fun j : Fin l.length => !q l[j] := by
  induction l generalizing i n with
  | nil => simp
  | cons y l ih =>
    rw [List.zipIdx_cons, List.foldl_cons, ih]
    have tail : (Nat.ofBits fun j : Fin (y :: l).length => !q (y :: l)[j]) =
        2 * (Nat.ofBits fun j : Fin l.length => !q l[j]) + (!q y).toNat := Nat.ofBits_succ _
    have head : (if q y then 0 else 2 ^ i) = 2 ^ i * (!q y).toNat := by cases q y <;> simp
    simp only [tail, head]
    ring

theorem slipUse_eq (x : Hart) : x.slipUse = x.qa.length + (x.s.toList.map fun r => r.queue.length).sum := by
  unfold Hart.slipUse
  rw [← Vector.foldl_toList, List.sum_eq_foldl, List.foldl_map]

/-- The streams whose descriptor queues hold something, as the bits of a number. -/
def Hart.queuedStreams (x : Hart) : Nat := Nat.ofBits fun j : Fin x.s.toList.length => !x.s.toList[j].queue.isEmpty

theorem queuedStreams_lt (x : Hart) : x.queuedStreams < 2 ^ 16 := by
  have lt := Nat.ofBits_lt_two_pow fun j : Fin x.s.toList.length => !x.s.toList[j].queue.isEmpty
  exact lt.trans_eq (congrArg (2 ^ ·) (Vector.length_toList ..))

theorem testBit_queuedStreams (x : Hart) (k : Fin 16) : x.queuedStreams.testBit k = !(x.s[k]).queue.isEmpty := by
  rw [Hart.queuedStreams, Nat.testBit_ofBits_lt _ _ (by simp)]
  simp

section Qstat

variable (ha : x.qa.length ≤ 64) (hc : x.qc.length ≤ 16) (hb : x.qb.length ≤ 64) (hu : x.slipUse < 2 ^ 16)
include ha hc hb hu

theorem qstat_toNat : x.qstat.toNat =
    x.slipUse * 2 ^ 48 + x.queuedStreams * 2 ^ 32 + x.qb.length * 2 ^ 16 + x.qc.length * 2 ^ 8 + x.qa.length := by
  have streams := foldl_zipIdx_eq_ofBits (fun r : Stream => r.queue.isEmpty) x.s.toList 0 0
  have small := queuedStreams_lt x
  rw [Nat.zero_add, Nat.pow_zero, Nat.one_mul, ← Hart.queuedStreams] at streams
  unfold Hart.qstat
  dsimp only
  rw [streams, BitVec.toNat_ofNat, Nat.mod_eq_of_lt (by omega)]

theorem qstat_fields :
    x.qstat.toNat % 2 ^ 8 = x.qa.length ∧ x.qstat.toNat / 2 ^ 8 % 2 ^ 8 = x.qc.length ∧
    x.qstat.toNat / 2 ^ 16 % 2 ^ 16 = x.qb.length ∧
    (∀ k : Fin 16, x.qstat.getLsbD (32 + k.val) = !(x.s[k]).queue.isEmpty) ∧
    x.qstat.toNat / 2 ^ 48 = x.qa.length + (x.s.toList.map fun r => r.queue.length).sum := by
  have value := qstat_toNat ha hc hb hu
  have small := queuedStreams_lt x
  refine ⟨by omega, by omega, by omega, fun k => ?_, by rw [← slipUse_eq]; omega⟩
  have field : x.qstat.toNat / 2 ^ 32 % 2 ^ 16 = x.queuedStreams := by omega
  rw [← testBit_queuedStreams, ← field, Nat.testBit_mod_two_pow, Nat.testBit_div_two_pow, BitVec.getLsbD]
  simp [Nat.add_comm]

end Qstat

/-! ### `cycle` and `ntime` -/

theorem getc_survey {k : Nat} {v : Word} (hc : cpu? s = some (.survey k)) (present : accessAs n.toNat ≠ .absent)
    (held : surveyCtl s (surveyOf s k) n.toNat = some v) :
    exec (.getc d n) s = .next (retire s (.survey k) d v ((Cpu.survey k).pc s + 4)) := by
  have reads : surveyGet k n.toNat s = .ok v s := by
    unfold surveyGet
    rw [M.bind_ok (M.get_run s), held]
    rfl
  change execGetc d n s = _
  unfold execGetc
  rw [runScalar_run hc both_admits, M.bind_ok (cpuM_run hc)]
  simp only [present, if_false]
  rw [M.bind_ok reads, writes_run hc]
  rfl

/-- A register that needs no queue and reads the same on a slice and on a survey core. -/
theorem getc_clock {c : Cpu} {v : Word} (hc : cpu? s = some c) (present : ∀ sl, accessOf sl n.toNat ≠ .absent)
    (needs : getWaits n.toNat = false) (onSlice : ∀ vrlen x sl, readCtl s vrlen x sl n.toNat = v)
    (onSurvey : ∀ y, surveyCtl s y n.toNat = some v) :
    exec (.getc d n) s = .next (retire s c d v (c.pc s + 4)) := by
  cases c with
  | slice h =>
    obtain ⟨x, hx⟩ := here?_hart (cpu?_slice hc)
    have r : Runs s h x := ⟨cpu?_slice hc, hx⟩
    rw [getc_reads r (present _) (by simp [needs]), onSlice, pc_of_runs r]
  | survey k => exact getc_survey hc (present .as) (onSurvey _)

/-! ### `slip` and `vcap` (05 R102, R115) -/

theorem slipWrite_taken {old v : Word} (pos : 0 < v.toNat) (le : v.toNat ≤ 128) : slipWrite old v = v := by
  have nonzero : v ≠ 0#64 := fun e => by simp [e] at pos
  simp [slipWrite, nonzero, Nat.not_lt.mpr le]

theorem slipWrite_ignored {old v : Word} (out : v.toNat = 0 ∨ 128 < v.toNat) : slipWrite old v = old := by
  have ignored : v = 0#64 ∨ 128 < v.toNat := out.imp_left fun zero => BitVec.eq_of_toNat_eq zero
  exact if_pos (by simpa using ignored)

theorem vcapWrite_eq (vrlen : Nat) (v : Word) : vcapWrite vrlen v = BitVec.ofNat 64 (min v.toNat (8 * vrlen)) := by
  unfold vcapWrite
  split
  · rw [Nat.min_eq_right (by omega)]
  · rw [Nat.min_eq_left (by omega), BitVec.ofNat_toNat, BitVec.setWidth_eq]

theorem setc_slip (r : Runs s h x) (hs : h.sl = .as) : exec (.setc 0x030 a) s =
    .next (goOn s h (x.as_.pc + 4) fun y => { y with slip := slipWrite y.slip (x.getReg .as a) }) := by
  have key := setc_writes (n := 0x030) (a := a) r (by rw [hs]; rfl) (by rw [hs]; nofun)
  rw [hs] at key
  exact key

theorem setc_vcap (r : Runs s h x) (hs : h.sl = .cs) (empty : x.viq = []) : exec (.setc 0x00A a) s =
    .next (goOn s h (x.cs.pc + 4) fun y =>
      { y with vc := { y.vc with vcap := vcapWrite (vrlenAt s h) (x.getReg .cs a) } }) := by
  have key := setc_writes (n := 0x00A) (a := a) r (by rw [hs]; rfl) fun _ _ => empty
  rw [hs] at key
  exact key

/-- Settles O11: a number by what the table lists for the slice, a register by its row, `qstat` by the sum of its fields. -/
theorem controlRegisters : Obligations.ControlRegisters := by
  refine ⟨⟨fun s h x d r p hp reads ready => ?row, fun s c d hc => ⟨?cycle, ?ntime⟩, fun s h x l d r hl => ?vlen,
    fun s h x d r ready ha hcq hb hu => ⟨_, ?qstat, qstat_fields ha hcq hb hu⟩, fun s h x d n r hs full named => ?getWaits⟩,
    fun s h x a d r => ⟨fun p hp writable ready => ?write, fun hs pos le => ?slip, fun hs out => ?slipIgnored,
      fun l hs empty hl => ?vcap, fun p hp hs writable needs full => ?setWaits, fun n listed unwritten =>
        setc_ignored r (accessOf_eq_ro listed unwritten), fun n unlisted => ?absent⟩⟩
  case row =>
    have num := ctlRows_toNat p hp
    rw [getc_reads r (by rw [num]; exact ctlRows_present _ p hp reads) (by rw [num, ctlRows_waits p hp]; exact ready), num,
      readCtl_row _ _ _ _ p hp]
  case cycle => exact getc_clock hc (fun sl => by cases sl <;> decide) rfl (fun _ _ _ => rfl) fun _ => rfl
  case ntime => exact getc_clock hc (fun sl => by cases sl <;> decide) rfl (fun _ _ _ => rfl) fun _ => rfl
  case vlen =>
    rw [getc_reads r (by cases h.sl <;> decide) fun _ needs => absurd needs (by decide), ← vrlenAt_of_launch hl]
    rfl
  case qstat => exact getc_reads r (by cases h.sl <;> decide) fun hs _ => ready hs
  case getWaits =>
    rcases named with rfl | ⟨p, hp, num, needs⟩
    · exact ⟨_, getc_waits r (by cases h.sl <;> decide) hs rfl full⟩
    · refine ⟨_, getc_waits r ?_ hs (by rw [← num, ctlRows_waits p hp]; exact needs) full⟩
      rw [← num, hs]
      exact ctlRows_present .cs p hp (ctlRows_waits_cs p hp needs)
  case write =>
    have num := ctlWrites_toNat p hp
    rw [setc_writes r (by rw [num]; exact ctlWrites_writable _ p hp writable)
      (by rw [num, ctlWrites_waits p hp]; exact ready), num]
    simp only [writeCtl_row _ _ _ _ p hp]
  case slip =>
    rw [setc_slip r hs]
    simp only [slipWrite_taken pos le]
  case slipIgnored =>
    rw [setc_slip r hs]
    simp only [slipWrite_ignored out]
    rfl
  case vcap => rw [setc_vcap r hs empty, vcapWrite_eq, vrlenAt_of_launch hl]
  case setWaits =>
    have num := ctlWrites_toNat p hp
    have access : accessOf h.sl (BitVec.ofNat 15 p.1).toNat = .rw := by
      rw [num, hs]
      exact ctlWrites_writable .cs p hp writable
    exact ⟨_, setc_waits r (by rw [access]; decide) hs (by rw [num, ctlWrites_waits p hp]; exact needs) full⟩
  case absent =>
    have absent := (accessOf_eq_absent_iff _ _).mpr unlisted
    exact ⟨getc_absent r absent, setc_absent r absent⟩

end Sys2Proof.Machine
end


section
/-! O23: 8 bytes of the AS in one bound block of the TCM window (05 R117, R118), and what the AS sees of its own youngest
store (14 R304, 16 R362). -/

namespace Sys2Proof.Machine

open Sys2Proof.Claims

variable {s s1 : State} {h : Here} {x x1 : Hart} {g : Gang} {l : Launch} {va n len p : Nat} {acc : Acc} {d a b : RegField}
  {off : Word} {i : BitVec 12}

/-! ### Bytes of a word -/

theorem natToBytes_eq_storedBytes (v : Word) (n : Nat) : natToBytes v.toNat n = storedBytes v n := by
  suffices key : ∀ x : Nat, natToBytes x n = (List.range n).map fun k => BitVec.ofNat 8 (x / 256 ^ k) from key v.toNat
  induction n with
  | zero => exact fun _ => rfl
  | succ n ih =>
    intro x
    rw [natToBytes, ih, List.range_succ_eq_map, List.map_cons, List.map_map, pow_zero, Nat.div_one]
    congr 1
    exact List.map_congr_left fun k _ => by rw [Function.comp_apply, Nat.pow_succ', Nat.div_div_eq_div_mul]

theorem bytesToNat_storedBytes (v : Word) : bytesToNat (storedBytes v 8) = v.toNat := by
  rw [← natToBytes_eq_storedBytes, bytesToNat_natToBytes]
  exact Nat.mod_eq_of_lt v.isLt

/-! ### The youngest pending store -/

theorem bufByte_append (buf : List PWrite) (w : PWrite) (c : Nat) :
    bufByte (buf ++ [w]) c = ((w.cells.reverse.find? fun q => q.1 == c).map (·.2)).or (bufByte buf c) := by
  simp [bufByte]

/-- Of a store to distinct places, the byte of a place is the one that it was given. -/
theorem bufByte_append_zip (buf : List PWrite) {w : PWrite} {locs : List Nat} {bytes : List Byte}
    (cells : w.cells = locs.zip bytes) (distinct : locs.Nodup) (len : locs.length = bytes.length) {c : Nat} {v : Byte}
    (hm : (c, v) ∈ locs.zip bytes) : bufByte (buf ++ [w]) c = some v := by
  have keys : ((locs.zip bytes).map Prod.fst).Nodup := by rwa [List.map_fst_zip len.le]
  have isFound : ((locs.zip bytes).reverse.find? fun q => q.1 == c).isSome :=
    List.find?_isSome.mpr ⟨(c, v), List.mem_reverse.mpr hm, beq_self_eq_true c⟩
  obtain ⟨⟨c', v'⟩, found⟩ := Option.isSome_iff_exists.mp isFound
  have same : c' = c := beq_iff_eq.mp (List.find?_some (p := fun q : Nat × Byte => q.1 == c) found)
  have only : (c', v') = (c, v) :=
    List.inj_on_of_nodup_map keys (List.mem_reverse.mp (List.mem_of_find?_eq_some found)) hm same
  rw [bufByte_append, cells, found, only]
  rfl

/-- Places that all have a pending byte are read as the agent sees them, poisoned or not. -/
theorem readLocs_pending {buf : List PWrite} {locs : List Nat} (va : Nat) (hb : ∀ c ∈ locs, (bufByte buf c).isSome) :
    readLocs buf locs va s = .ok (locs.map (seenByte s buf)) s := by
  have key : ∀ (rest : List Nat) (k : Nat) (out : List Byte), (∀ c ∈ rest, (bufByte buf c).isSome) →
      readLocs.go buf va s rest k out s = .ok (out.reverse ++ rest.map (seenByte s buf)) s := by
    intro rest
    induction rest with
    | nil => simp [readLocs.go]
    | cons c rest ih =>
      intro k out hb
      obtain ⟨v, hv⟩ := Option.isSome_iff_exists.mp (hb c (List.mem_cons_self ..))
      rw [readLocs.go, hv]
      simp only
      rw [ih _ _ fun e he => hb e (List.mem_cons_of_mem _ he)]
      simp [seenByte, hv]
  unfold readLocs
  rw [M.bind_ok (M.get_run s), key locs 0 [] hb]
  rfl

/-- What a store has just been given for its places is what its agent reads there. -/
theorem readLocs_own_store (buf : List PWrite) {w : PWrite} {locs : List Nat} {bytes : List Byte} (va : Nat)
    (cells : w.cells = locs.zip bytes) (distinct : locs.Nodup) (len : locs.length = bytes.length) :
    readLocs (buf ++ [w]) locs va s = .ok bytes s := by
  have each : ∀ (k : Nat) (h1 : k < locs.length) (h2 : k < bytes.length), bufByte (buf ++ [w]) locs[k] = some bytes[k] :=
    fun k h1 h2 => bufByte_append_zip buf cells distinct len (List.mem_iff_getElem.mpr ⟨k, by simp [h1, h2], by simp⟩)
  rw [readLocs_pending va fun c hc => ?pending]
  case pending =>
    obtain ⟨k, hk, rfl⟩ := List.mem_iff_getElem.mp hc
    simp [each k hk (len ▸ hk)]
  congr 1
  refine List.ext_getElem (by simp [len]) fun k h1 h2 => ?_
  simp [seenByte, each k (len ▸ h2) h2]

/-! ### A scalar access in a bound block -/

theorem InTcm.of_inTcmBlock (i : inTcmBlock x va n p) : InTcm x va n p := by
  obtain ⟨low, high, block, bound⟩ := i
  exact ⟨low, high, block, bound⟩

section Tcm

variable (r : Runs s h x) (hg : findGang s h.gang = some g) (hl : findLaunch s h.gang = some l) (w : InTcm x va n p)
  (hn : 0 < n)
include r hg hl w hn

/-- A plain load there reads what the AS sees. -/
theorem scalarLoad_tcm_reads : scalarLoad va n false false s = readLocs x.abuf (locRange (tcmAt g x va p) n) va s := by
  unfold scalarLoad
  rw [M.bind_ok (scalarLocate_tcm r hg hl w hn false (by simp)), M.bind_ok (hartM_run r)]
  simp only [Bool.false_and, Bool.or_self, Bool.false_eq_true, if_false]
  rw [M.bind_ok (hartM_run r)]

/-- A plain store there is queued behind the AS's others, under the number at which the executing hart is. -/
theorem scalarStore_tcm {bytes : List Byte} (hb : bytes.length = n) :
    scalarStore va bytes false s = .ok () (mapHart s h.gang h.hid fun y =>
      withStore y (storeOf s { locs := locRange (tcmAt g x va p) n } bytes x.seq)) := by
  unfold scalarStore
  rw [hb, M.bind_ok (scalarLocate_tcm r hg hl w hn false (by simp))]
  simp only [Bool.false_eq_true, if_false]
  unfold issueStore Found.markDirty pushWrite
  rw [M.bind_ok (M.modify_run _ _), List.foldl_nil, M.bind_ok (M.get_run s), M.bind_ok (hartM_run r), modHart_run r.who]
  rfl

end Tcm

/-! ### `ld` and `sd` there -/

/-- A store that queues what it stores goes on. -/
theorem store_plain (r : Runs s h x) (hs : h.sl = .as) (hv : va = (x.getReg .as a + off).toNat) (ht : x.touches va n = none)
    (hst : scalarStore va (storedBytes (x.getReg .as b) n) false s = .ok () s1) (r1 : Runs s1 h x1) :
    store n false len a b off s = .next (goOn s1 h (x1.as_.pc + BitVec.ofNat 64 len) id) := by
  have touches : touchesHere va n s = .ok none s := by
    unfold touchesHere
    rw [M.bind_ok (hartM_run r), ht]
    rfl
  have stores : hartStore n false b va s = .ok () s1 := by
    unfold hartStore
    rw [M.bind_ok (getX_run r.cpu b), reg_of_runs r, hs, natToBytes_eq_storedBytes, M.bind_ok touches]
    exact hst
  unfold store
  rw [runScalar_run r.cpu (asSurvey_admits hs), M.bind_ok (getX_run r.cpu a), reg_of_runs r, hs, ← hv,
    M.bind_ok (cpuM_run r.cpu)]
  simp only
  rw [M.bind_ok stores, finish_advance r1, hs]
  rfl

theorem InTcm.congr {y : Hart} (w : InTcm x va n p) (e : y.tcm = x.tcm) : InTcm y va n p :=
  ⟨w.low, w.high, w.block, by rw [e]; exact w.bound⟩

theorem Runs.goOn (r : Runs s h x) (pc : Word) (f : Hart → Hart) :
    Runs (goOn s h pc f) h (((f x).setPc h.sl pc).issued h.sl) :=
  r.mapHart _

/-- An update of a hart is known by what it makes of the harts that it reaches. -/
theorem mapHart_congr {k j : Nat} {f f' : Hart → Hart}
    (same : ∀ y ∈ s.gangs, y.id = k → ∀ z, y.harts[j]? = some z → f z = f' z) : mapHart s k j f = mapHart s k j f' := by
  unfold mapHart mapGang
  congr 1
  refine List.map_congr_left fun y hy => ?_
  split
  · next id =>
    have harts : y.harts.modify j f = y.harts.modify j f' := by
      refine List.ext_getElem? fun n => ?_
      rw [List.getElem?_modify, List.getElem?_modify]
      refine Option.map_congr fun z hz => ?_
      split
      · next e => exact same y hy id z (e ▸ hz)
      · rfl
    exact congrArg (fun l => { y with harts := l }) harts
  · rfl

/-- The store that the AS of hart x of gang g queues for 8 bytes at va, in bound block p. -/
def tcmStore (s : State) (g : Gang) (x : Hart) (va p : Nat) (v : Word) (seq : Nat) : PWrite :=
  storeOf s { locs := locRange (tcmAt g x va p) 8 } (storedBytes v 8) seq

section Instr

variable (r : Runs s h x) (hs : h.sl = .as) (hm : x.tp.adjm = 0) (hv : va = (x.getReg .as a + i.signExtend 64).toNat)
include r hs hm hv

theorem ld_reads {bytes : List Byte} (hload : scalarLoad va 8 false false s = .ok bytes s) :
    exec (.ld d a i) s = .next (goOn s h (x.as_.pc + 4) fun y => y.setReg .as d (BitVec.ofNat 64 (bytesToNat bytes))) := by
  have key := load_plain (d := d) (signed := true) (len := 4) r hs hv (touches_of_off hm) hload r
  rw [extendBytes_word] at key
  exact key

variable (hg : findGang s h.gang = some g) (hl : findLaunch s h.gang = some l) (w : InTcm x va 8 p)
include hg hl w

/-- `ld` reads each byte from the AS's youngest pending store to it, or from memory. -/
theorem ld_tcm (clean : ∀ c ∈ locRange (tcmAt g x va p) 8, poisoned s c = false) :
    exec (.ld d a i) s = .next (goOn s h (x.as_.pc + 4) fun y => y.setReg .as d (BitVec.ofNat 64
      (bytesToNat ((locRange (tcmAt g x va p) 8).map (seenByte s x.abuf))))) :=
  ld_reads r hs hm hv (scalarLoad_tcm r hg hl w (by decide) false false (by simp) (by simp) clean)

/-- `ld` from where the AS's youngest pending store went reads what that stored, whatever else is pending, poisoned or not. -/
theorem ld_own_store {buf : List PWrite} {u : PWrite} {v : Word} (queued : x.abuf = buf ++ [u])
    (cells : u.cells = (locRange (tcmAt g x va p) 8).zip (storedBytes v 8)) :
    exec (.ld d a i) s = .next (goOn s h (x.as_.pc + 4) fun y => y.setReg .as d v) := by
  have reads := readLocs_own_store (s := s) buf va cells (locRange_nodup _ 8) (by simp [locRange, storedBytes])
  rw [← queued, ← scalarLoad_tcm_reads r hg hl w (by decide)] at reads
  rw [ld_reads r hs hm hv reads, bytesToNat_storedBytes, BitVec.ofNat_toNat, BitVec.setWidth_eq]

/-- `sd` queues its bytes under the number at which the executing hart is. -/
theorem sd_tcm : exec (.sd a b i) s = .next (goOn s h (x.as_.pc + 4) fun y =>
    withStore y (tcmStore s g x va p (x.getReg .as b) x.seq)) := by
  have key := store_plain (len := 4) (b := b) r hs hv (touches_of_off hm)
    (scalarStore_tcm r hg hl w (bytes := storedBytes (x.getReg .as b) 8) (by decide) (by simp [storedBytes])) (r.mapHart _)
  refine key.trans ?_
  rw [goOn, mapHart_mapHart]
  rfl

/-- Where no other gang has the gang's number, that is the number of each hart that is changed. -/
theorem sd_tcm_of_unique (unique : ∀ y ∈ s.gangs, y.id = h.gang → y = g) :
    exec (.sd a b i) s = .next (goOn s h (x.as_.pc + 4) fun y =>
      withStore y (tcmStore s g x va p (x.getReg .as b) y.seq)) := by
  rw [sd_tcm r hs hm hv hg hl w, goOn, goOn]
  refine congrArg _ (mapHart_congr fun y hy id z hz => ?_)
  rw [unique y hy id] at hz
  have here := r.hart
  rw [findHart, hg, Option.bind_some, hz] at here
  cases here
  rfl

/-- A load from where the AS has just stored reads what it stored; neither changes memory. -/
theorem ld_after_sd_tcm {t : State} (hd : d ≠ 0) (stores : exec (.sd a b i) s = .next t) :
    ∃ u y, exec (.ld d a i) t = .next u ∧ findHart u h.gang h.hid = some y ∧ y.getReg .as d = x.getReg .as b ∧
      u.mem = s.mem := by
  rw [sd_tcm r hs hm hv hg hl w] at stores
  cases stores
  have r1 := r.goOn (x.as_.pc + 4) fun y => withStore y (tcmStore s g x va p (x.getReg .as b) x.seq)
  generalize hy : Hart.issued _ _ = y at r1
  have reg : y.getReg .as a = x.getReg .as a := by simp [← hy, Hart.getReg, withStore]
  have ld := ld_own_store (p := p) (d := d) (v := x.getReg .as b) r1 hs (by simp [← hy, withStore, hm]) (reg ▸ hv)
    (findGang_mapHart_same.trans (congrArg _ hg)) hl (w.congr (by simp [← hy, withStore]))
    (by rw [← hy]; exact (Hart.issued_abuf ..).trans (Hart.setPc_abuf ..))
    (by rw [← hy]; simp [tcmStore, storeOf, tcmAt, coreOf, withStore, Gang.withHart])
  have nonzero : d ≠ 0#5 := hd
  exact ⟨_, _, ld, (r1.goOn _ _).hart, by simp [Hart.getReg, Hart.setReg, fileGet_fileSet, nonzero], by simp [goOn]⟩

end Instr

/-! ### Two gangs of one number -/

/-- The hart of such a gang: register 6 holds the address of its TCM window, whose block 0 is bound. -/
def twinHart (seq : Nat) : Hart :=
  { (Hart.fresh (placedLaunch 0) 0 0 0 0).setReg .as 6 (BitVec.ofNat 64 Config.tcmBase) with tcm := [(0, 0)], seq := seq }

def twinGang (seq : Nat) : Gang := { Gang.fresh State.reset (placedLaunch 0) 0 0 [] with harts := [twinHart seq] }

/-- Both gangs have number 0, and their harts number their next stores 0 and 1. -/
def twinGangs : State :=
  { State.reset with launches := [placedLaunch 0], gangs := [twinGang 0, twinGang 1], cur := .slice 0 0 .as }

/-- The numbers of the AS's pending stores, gang by gang. -/
def storeNumbers (r : Result) : List (List Nat) :=
  match r with
  | .next t => t.gangs.map fun g => g.harts.flatMap fun y => y.abuf.map (·.seq)
  | _ => []

/-- Refutes O23: of two gangs of one number, `sd` queues its store in the hart of each, under the executing hart's number and
not, as the statement says, under that of each. The statement does not shut such states out. The rest of it holds
(`ld_tcm`, `ld_after_sd_tcm`), and this clause too where the gang's number is its own (`sd_tcm_of_unique`). -/
theorem not_tcmAndOwnStores : ¬ Obligations.TcmAndOwnStores := by
  rintro ⟨access, -⟩
  have runs : Runs twinGangs ⟨0, 0, .as⟩ (twinHart 0) := ⟨rfl, rfl⟩
  have block : inTcmBlock (twinHart 0) ((twinHart 0).getReg .as 6 + (0 : BitVec 12).signExtend 64).toNat 8 0 := by
    unfold inTcmBlock
    decide
  obtain ⟨-, claimed⟩ := access twinGangs ⟨0, 0, .as⟩ (twinHart 0) (twinGang 0) (placedLaunch 0) 5 6 7 0 0 runs rfl rfl rfl
    rfl block
  rw [sd_tcm runs rfl rfl rfl rfl rfl (.of_inTcmBlock block)] at claimed
  have numbers := congrArg storeNumbers claimed
  revert numbers
  decide

end Sys2Proof.Machine
end


section
/-! O9: traps taken in the hart, traps for the hart's owner, and traps of a queued instruction (07 R151 to R153, R155). -/

namespace Sys2Proof.Machine

open Sys2Proof.Claims

variable {s s1 : State} {gang k d : Nat} {h : Here} {x x1 : Hart} {l : Launch} {sl : SliceId} {vpc : Option Word}
  {t : TrapInfo} {both on vq : Bool} {c : BitVec 8} {e e1 : VEntry} {rest : List VEntry}

/-! ### Causes (07 R151) and `ecause` (07 R152) -/

theorem handled_iff : ∀ c : BitVec 8, handled c = true ↔ c ∈ hartCauses := by decide +kernel

theorem trapDuty_eq : ∀ c : BitVec 8, trapDuty c =
    if c ∈ [0x08, 0x09, 0x0A] then 0 else if c = 0x14 then 2 else if c = 0x1E then 7 else 8 := by decide +kernel

theorem mkEcause_scalar : mkEcause 0 on false sl c =
    BitVec.ofNat 64 ((if on then 2 ^ 11 else 0) + (if sl = .cs then 2 ^ 8 else 0) + c.toNat) := by
  cases on <;> cases sl <;> simp [mkEcause]

/-- The fields of `ecause` where a queued instruction traps. -/
theorem mkEcause_queued : (mkEcause d on true .cs c).getLsbD 9 = true ∧ (mkEcause d on true .cs c).getLsbD 8 = true ∧
    (mkEcause d on true .cs c).toNat % 2 ^ 8 = c.toNat ∧ (mkEcause d on true .cs c).toNat / 2 ^ 16 = d % 2 ^ 48 := by
  have h1 := on.toNat_le
  have h3 := c.isLt
  have word : (mkEcause d on true .cs c).toNat = d % 2 ^ 48 * 2 ^ 16 + on.toNat * 2 ^ 11 + 2 ^ 9 + 2 ^ 8 + c.toNat := by
    rw [mkEcause, BitVec.toNat_ofNat, Bool.toNat_true, Nat.mod_eq_of_lt (by omega)]
    omega
  simp only [BitVec.getLsbD, Nat.testBit_eq_decide_div_mod_eq, decide_eq_true_eq, word]
  omega

/-! ### The hart that has taken a trap (07 R153) -/

theorem takesInHart_iff : x.takesInHart c = true ↔
    c ∈ hartCauses ∧ x.tr.emask.getLsbD c.toNat = true ∧ x.tr.ecause.getLsbD 11 = false := by
  simp [Hart.takesInHart, handled_iff, Hart.handlerOn, ecH, and_assoc]

theorem takesInHart_eq_false (h : c ∉ hartCauses ∨ x.tr.emask.getLsbD c.toNat = false ∨ x.tr.ecause.getLsbD 11 = true) :
    x.takesInHart c = false := by
  rw [← Bool.not_eq_true, takesInHart_iff]
  rintro ⟨cause, mask, off⟩
  rcases h with h | h | h
  · exact h cause
  · exact Bool.noConfusion (mask.symm.trans h)
  · exact Bool.noConfusion (off.symm.trans h)

section Hart

variable (x sl vpc t both)

/-- The registers of the files, of the vector and tape units and of requests stand. -/
theorem takeTrap_frame : let y := x.takeTrap sl vpc t both
    y.a = x.a ∧ y.c = x.c ∧ y.v = x.v ∧ y.m = x.m ∧ y.vc = x.vc ∧ y.tp = x.tp ∧ y.ypend = x.ypend := by
  unfold Hart.takeTrap
  dsimp only
  split
  · simp
  · exact ⟨rfl, rfl, rfl, rfl, rfl, rfl, rfl⟩

theorem takeTrap_tr : (x.takeTrap sl vpc t both).tr = x.trapRegs sl vpc t (x.takesInHart t.cause) both := by
  unfold Hart.takeTrap
  dsimp only
  split
  · simp
  · rfl

theorem takeTrap_sysTrap : (x.takeTrap sl vpc t both).sysTrap = !x.takesInHart t.cause := by
  unfold Hart.takeTrap
  dsimp only
  split
  · simp
  · rfl

/-- With no handler running the vector queue becomes the held queue. -/
theorem takeTrap_queues_of_handlerOff (off : x.tr.ecause.getLsbD 11 = false) :
    (x.takeTrap sl vpc t both).held = x.viq ∧ (x.takeTrap sl vpc t both).viq = [] := by
  have off : x.handlerOn = false := off
  unfold Hart.takeTrap
  dsimp only
  split <;> simp [off]

/-- Of a handler both queues stay in their places (log 19). -/
theorem takeTrap_queues_of_handlerOn (on : x.tr.ecause.getLsbD 11 = true) :
    (x.takeTrap sl vpc t both).held = x.held ∧ (x.takeTrap sl vpc t both).viq = x.viq := by
  have on : x.handlerOn = true := on
  unfold Hart.takeTrap
  dsimp only
  split <;> simp [on]

/-- A trap at the queue head, which the CS takes, saves its distance to the next instruction of the CS, and the pc of that one
whether the hart handles the trap or not. -/
theorem takeTrap_tr_queued (p : Word) : let y := x.takeTrap .cs (some p) t both
    y.tr.ecause = mkEcause ((x.cs.pc - p).toNat / 2) (x.takesInHart t.cause || x.handlerOn) true .cs t.cause ∧
    y.tr.epcc = x.cs.pc ∧ y.tr.eaddr = t.eaddr ∧ y.tr.einfo = t.einfo := by
  dsimp only
  rw [takeTrap_tr]
  simp [Hart.trapRegs, vdistOf]

/-- The trapping slice runs the handler, and the other one is stopped. -/
theorem takeTrap_slices_of_handled (own : x.takesInHart t.cause = true) : let y := x.takeTrap sl vpc t both
    (y.slice sl).pc = x.evec sl ∧ (y.slice sl).cond = .running ∧
    (y.slice (other sl)).cond = .stopped ∧ (y.slice (other sl)).pc = (x.slice (other sl)).pc := by
  unfold Hart.takeTrap
  dsimp only
  rw [if_pos own]
  cases sl <;> exact ⟨rfl, rfl, rfl, rfl⟩

theorem takeTrap_slices_of_system (sys : x.takesInHart t.cause = false) : let y := x.takeTrap sl vpc t both
    y.as_.cond = .stopped ∧ y.cs.cond = .stopped ∧ y.as_.pc = x.as_.pc ∧ y.cs.pc = x.cs.pc := by
  unfold Hart.takeTrap
  simp [sys]

/-- The AS is stopped by every trap of the CS. -/
theorem takeTrap_stops_as : (x.takeTrap .cs vpc t both).as_.cond = .stopped := by
  cases own : x.takesInHart t.cause with
  | true =>
    obtain ⟨-, -, stopped, -⟩ := takeTrap_slices_of_handled x .cs vpc t both own
    exact stopped
  | false =>
    obtain ⟨stopped, -⟩ := takeTrap_slices_of_system x .cs vpc t both own
    exact stopped

end Hart

/-- What a system trap of slice sl makes of hart x, its queues apart: both pcs are saved, and H and the slice that runs the
handler stay as they are. -/
structure Hart.ToOwner (x : Hart) (sl : SliceId) (t : TrapInfo) (y : Hart) : Prop where
  tr : y.tr = { x.tr with
    ecause := mkEcause 0 x.handlerOn false sl t.cause, epca := x.as_.pc, epcc := x.cs.pc, eaddr := t.eaddr, einfo := t.einfo }
  sysTrap : y.sysTrap = true
  slices : y.as_.cond = .stopped ∧ y.cs.cond = .stopped ∧ y.as_.pc = x.as_.pc ∧ y.cs.pc = x.cs.pc
  files : y.a = x.a ∧ y.c = x.c ∧ y.v = x.v ∧ y.m = x.m

theorem takeTrap_toOwner (sys : x.takesInHart t.cause = false) : x.ToOwner sl t (x.takeTrap sl none t both) := by
  obtain ⟨a, c, v, m, -⟩ := takeTrap_frame x sl none t both
  refine ⟨?_, by rw [takeTrap_sysTrap, sys]; rfl, takeTrap_slices_of_system x sl none t both sys, a, c, v, m⟩
  rw [takeTrap_tr, sys]
  rfl

/-! ### The state that a trap leaves -/

theorem takeTrap_handled (hx : findHart s gang k = some x) (own : x.takesInHart t.cause = true) :
    takeTrap s gang k sl vpc t both = mapHart s gang k fun _ => x.takeTrap sl vpc t both := by
  unfold takeTrap
  rw [hx]
  dsimp only
  rw [takeTrap_sysTrap, own]
  rfl

/-- A notice leaves the harts and memory as they are. -/
theorem trapNotice_frame (y : Hart) : (trapNotice s gang y t).gangs = s.gangs ∧ (trapNotice s gang y t).mem = s.mem := by
  unfold trapNotice
  split <;> exact ⟨rfl, rfl⟩

/-- A hart to which no request is posted stays stopped for its owner. -/
theorem takeTrap_system (hx : findHart s gang k = some x) (sys : x.takesInHart t.cause = false)
    (unposted : x.ypend.getLsbD 63 = false) : takeTrap s gang k sl vpc t both =
      trapNotice (mapHart s gang k fun _ => x.takeTrap sl vpc t both) gang (x.takeTrap sl vpc t both) t := by
  have found : findHart (trapNotice (mapHart s gang k fun _ => x.takeTrap sl vpc t both) gang (x.takeTrap sl vpc t both) t) gang k
      = some (x.takeTrap sl vpc t both) := by
    rw [findHart_of_gangs (trapNotice_frame _).1, findHart_mapHart_same, hx]
    rfl
  have stays : (x.takeTrap sl vpc t both).stopsAtOnce = false := by
    obtain ⟨-, -, -, -, -, -, yp⟩ := takeTrap_frame x sl vpc t both
    rw [Hart.stopsAtOnce, ypP, yp, unposted, Bool.false_and]
  unfold takeTrap
  rw [hx]
  dsimp only
  rw [takeTrap_sysTrap, sys, stopIfWaiting, found]
  simp [stays]

/-- Its owner has one notice. -/
theorem takeTrap_notice (hx : findHart s gang k = some x) (hl : findLaunch s gang = some l)
    (sys : x.takesInHart t.cause = false) (unposted : x.ypend.getLsbD 63 = false) :
    ∃ n, n.kind = .trap ∧ n.duty = trapDuty t.cause ∧ (takeTrap s gang k sl vpc t both).notices = s.notices ++ [n] := by
  rw [takeTrap_system hx sys unposted, trapNotice, mapHart_findLaunch, hl]
  exact ⟨_, rfl, rfl, rfl⟩

/-- Whoever serves the trap, the hart is what the trap makes of it, and memory stands. -/
theorem findHart_takeTrap (hx : findHart s gang k = some x) (unposted : x.ypend.getLsbD 63 = false) :
    findHart (takeTrap s gang k sl vpc t both) gang k = some (x.takeTrap sl vpc t both) ∧
    (takeTrap s gang k sl vpc t both).mem = s.mem := by
  have found : findHart (mapHart s gang k fun _ => x.takeTrap sl vpc t both) gang k = some (x.takeTrap sl vpc t both) := by
    rw [findHart_mapHart_same, hx]
    rfl
  cases own : x.takesInHart t.cause with
  | true =>
    rw [takeTrap_handled hx own]
    exact ⟨found, rfl⟩
  | false =>
    rw [takeTrap_system hx own unposted]
    obtain ⟨gangs, mem⟩ := trapNotice_frame (s := mapHart s gang k fun _ => x.takeTrap sl vpc t both) (gang := gang) (t := t)
      (x.takeTrap sl vpc t both)
    exact ⟨(findHart_of_gangs gangs).trans found, mem⟩

/-! ### A queued instruction (07 R152) -/

/-- `vstat.fault`. -/
theorem trapReport_fault (v : VCtl) : (v.trapReport e).vstat.getLsbD 2 = true := by
  unfold VCtl.trapReport VCtl.report vstatAfter
  cases e.half <;> simp

theorem runHead_trap (r : Runs s h x) (hv : x.viq = e :: rest) (run : runEntry e s = .ok (e1, .trap t) s1)
    (r1 : Runs s1 h x1) : runHead s = .ok .trapped
      (takeTrap (mapHart s1 h.gang h.hid fun y => y.afterHead e e1 rest (.trap t)) h.gang h.hid .cs (some e.pc) t) := by
  unfold runHead
  rw [M.bind_ok (hereM_run r.who), M.bind_ok (hartM_run r), hv]
  dsimp only
  rw [M.bind_ok run, M.bind_ok (modHart_run r1.who _)]
  rfl

/-- Settles O9: a trap by whether the hart handles it and whether a handler runs, and a queued instruction's by its entry. -/
theorem trapTaken : Obligations.TrapTaken := by
  refine ⟨fun s h x t r cause mask off => ?handled, fun s h x l t r hl why off unposted => ?system,
    fun s h x l t r hl on unposted => ?nested, fun s s1 h x x1 e e1 rest t r hv run r1 unposted => ?queued⟩
  case handled =>
    have own := takesInHart_iff.mpr ⟨cause, mask, off⟩
    have tr : (x.takeTrap h.sl none t false).tr = x.trapRegs h.sl none t true false := by rw [takeTrap_tr, own]
    obtain ⟨a, c, v, m, vc, tp, -⟩ := takeTrap_frame x h.sl none t false
    obtain ⟨held, viq⟩ := takeTrap_queues_of_handlerOff x h.sl none t false off
    obtain ⟨pc, runs, stops, stays⟩ := takeTrap_slices_of_handled x h.sl none t false own
    rw [takeTrap_handled r.hart own]
    refine ⟨x.takeTrap h.sl none t false, by rw [findHart_mapHart_same, r.hart]; rfl, ?ecause, by rw [tr]; rfl, by rw [tr]; rfl,
      fun as => ?as, fun cs => ?cs, held, viq, by rw [takeTrap_sysTrap, own]; rfl, a, c, v, m, vc, tp, rfl, rfl,
      fun g k other => findHart_mapHart_other _ fun e => other (Prod.ext e.1 e.2)⟩
    case ecause =>
      rw [tr]
      exact mkEcause_scalar (on := true)
    case as =>
      rw [as] at pc runs stops stays tr ⊢
      rw [tr]
      exact ⟨rfl, rfl, pc, runs, stops, stays⟩
    case cs =>
      rw [cs] at pc runs stops stays tr ⊢
      rw [tr]
      exact ⟨rfl, rfl, pc, runs, stops, stays⟩
  case system =>
    have sys : x.takesInHart t.cause = false := takesInHart_eq_false (why.imp_right .inl)
    have handlerOff : x.handlerOn = false := off
    obtain ⟨found, mem⟩ := findHart_takeTrap (sl := h.sl) (vpc := none) (t := t) (both := false) r.hart unposted
    obtain ⟨n, kind, duty, posted⟩ := takeTrap_notice (sl := h.sl) (vpc := none) (both := false) r.hart hl sys unposted
    obtain ⟨tr, owned, ⟨stopA, stopC, pcA, pcC⟩, a, c, v, m⟩ := takeTrap_toOwner (sl := h.sl) (both := false) sys
    obtain ⟨held, viq⟩ := takeTrap_queues_of_handlerOff x h.sl none t false off
    refine ⟨_, n, found, ?_, by rw [tr], by rw [tr], by rw [tr], by rw [tr], owned, stopA, stopC, pcA, pcC, held, viq,
      a, c, v, m, posted, kind, duty.trans (trapDuty_eq _), mem⟩
    rw [tr, handlerOff]
    simp [mkEcause_scalar]
  case nested =>
    have sys : x.takesInHart t.cause = false := takesInHart_eq_false (.inr (.inr on))
    have handlerOn : x.handlerOn = true := on
    obtain ⟨found, mem⟩ := findHart_takeTrap (sl := h.sl) (vpc := none) (t := t) (both := false) r.hart unposted
    obtain ⟨n, kind, -, posted⟩ := takeTrap_notice (sl := h.sl) (vpc := none) (both := false) r.hart hl sys unposted
    obtain ⟨tr, owned, ⟨stopA, stopC, pcA, pcC⟩, a, c, v, m⟩ := takeTrap_toOwner (sl := h.sl) (both := false) sys
    obtain ⟨held, viq⟩ := takeTrap_queues_of_handlerOn x h.sl none t false on
    refine ⟨_, n, found, ?_, by rw [tr], by rw [tr], by rw [tr], by rw [tr], by rw [tr], owned, stopA, stopC, pcA, pcC,
      held, viq, a, c, v, m, posted, kind, mem⟩
    rw [tr, handlerOn]
    exact mkEcause_scalar
  case queued =>
    have head : findHart (mapHart s1 h.gang h.hid fun y => y.afterHead e e1 rest (.trap t)) h.gang h.hid =
        some (x1.afterHead e e1 rest (.trap t)) := (r1.mapHart _).hart
    obtain ⟨found, mem⟩ := findHart_takeTrap (sl := .cs) (vpc := some e.pc) (t := t) (both := false) head unposted
    obtain ⟨a, c, v, m, vc, -⟩ := takeTrap_frame (x1.afterHead e e1 rest (.trap t)) .cs (some e.pc) t false
    obtain ⟨ecause, epcc, eaddr, einfo⟩ := takeTrap_tr_queued (x1.afterHead e e1 rest (.trap t)) t false e.pc
    obtain ⟨vq, slice, cause, vdist⟩ := mkEcause_queued (d := (x1.cs.pc - e.pc).toNat / 2)
      (on := x1.takesInHart t.cause || x1.handlerOn) (c := t.cause)
    refine ⟨_, _, runHead_trap r hv run r1, found, by rw [vc]; rfl, by rw [vc]; exact trapReport_fault _,
      by rw [ecause]; exact vq, by rw [ecause]; exact slice, by rw [ecause]; exact cause, by rw [ecause]; exact vdist,
      epcc, eaddr, einfo, fun off => ?_, takeTrap_stops_as .., a, c, v, m, mem⟩
    obtain ⟨held, viq⟩ := takeTrap_queues_of_handlerOff (x1.afterHead e e1 rest (.trap t)) .cs (some e.pc) t false off
    exact ⟨viq, _, held, rfl, rfl, rfl, rfl⟩

end Sys2Proof.Machine
end


section
/-! O51: answers to system traps and to saves and restores, and the ends of saves and restores (07 R154, R165 to R167, 04 R92,
08 R180). -/

namespace Sys2Proof.Machine

open Sys2Proof.Claims

variable {s s1 : State} {gang k : Nat} {hid : BitVec 4} {g : Gang} {x : Hart} {l : Launch} {v : Save}

/-! ### Answers to system traps (07 R154) -/

theorem exec_trapResume (hp : Powered s) (hx : findHart s gang hid.toNat = some x) (tape : Option (Word × Word)) :
    exec (.trapResume gang hid tape) s = .next (
      if x.sysTrap = false then s
      else if x.mode = .active then resumeHart s gang hid.toNat tape
      else mapHart s gang hid.toNat fun y => { y with answer := some tape }) := by
  change execTrapResume gang hid tape s = _
  rw [execTrapResume, event_next (powered_of hp), hx]
  simp

theorem exec_trapKill (hp : Powered s) (hx : findHart s gang hid.toNat = some x) :
    exec (.trapKill gang hid) s = .next (if x.sysTrap then killGang s gang else s) := by
  change execTrapKill gang hid s = _
  rw [execTrapKill, event_next (powered_of hp), hx]

/-- 09 R186: no slice fails the checks at a word at 0 mod 8. -/
theorem checkResume_aligned {t : Word} (ht : t.toNat % 8 = 0) (sl : SliceId) : checkResume sl t s = .ok () s := by
  have not2 : t.toNat % 4 ≠ 2 := by omega
  have at0 : t.toNat % 4 = 0 := by omega
  unfold checkResume checkTarget
  rw [if_neg not2]
  simp [at0, ht]

theorem resumeChecked_aligned (hx : findHart s gang k = some x) {sl : SliceId} (ht : (x.slice sl).pc.toNat % 8 = 0) :
    resumeChecked s gang k sl = .ok s := by
  unfold resumeChecked
  rw [hx]
  dsimp only
  split
  · rfl
  · rw [tried_ok (checkResume_aligned ht sl)]

/-- An answer to a hart whose slices resume at words at 0 mod 8 restarts them. -/
theorem resumeHart_aligned {tape : Option (Word × Word)} (hx : findHart s gang k = some x)
    (ha : (x.answered tape).as_.pc.toNat % 8 = 0) (hc : (x.answered tape).cs.pc.toNat % 8 = 0) :
    resumeHart s gang k tape = mapHart s gang k fun y => y.answered tape := by
  have found : findHart (mapHart s gang k fun y => y.answered tape) gang k = some (x.answered tape) := by
    rw [findHart_mapHart_same, hx]
    rfl
  have checked : ((resumeChecked (mapHart s gang k fun y => y.answered tape) gang k .as).bind fun s =>
      resumeChecked s gang k .cs) = .ok (mapHart s gang k fun y => y.answered tape) := by
    rw [resumeChecked_aligned found (sl := .as) ha]
    exact resumeChecked_aligned found (sl := .cs) hc
  rw [resumeHart, checked]

theorem resumeHead_unmarked {q : List VEntry} (hq : ∀ e, q.head? = some e → e.resume = false) : resumeHead x q = (x, q) := by
  cases q with
  | nil => rfl
  | cons e rest => simp [resumeHead, hq e rfl]

/-- A hart both of whose slices go on at the saved pcs, with the held queue back at the head of the vector queue. -/
def Hart.restarted (x : Hart) : Hart :=
  { x with
    viq := x.held ++ x.viq, held := [], sysTrap := false
    as_ := { x.as_ with pc := x.tr.epca, cond := .running }
    cs := { x.cs with pc := x.tr.epcc, cond := .running } }

/-- With no handler running and no instruction to resume in the held queue, that is what an answer makes of a hart. -/
theorem resume_of_handlerOff (off : x.tr.ecause.getLsbD 11 = false) (hq : ∀ e, x.held.head? = some e → e.resume = false) :
    x.resume = x.restarted := by
  have handlerOff : x.handlerOn = false := off
  unfold Hart.resume
  rw [handlerOff, resumeHead_unmarked hq]
  rfl

/-- At the causes at which the tape spill owner may have set the tape registers they are as it set them (08 R180). -/
theorem answered_tape {t : Word × Word} (tc : x.tr.ecause.toNat % 256 = 0x14 ∨ x.tr.ecause.toNat % 256 = 0x15) :
    x.answered (some t) = (x.setTape t).resume := by
  have sets : tapeCause x = true := by
    unfold tapeCause
    simpa [bitsOf_eq] using tc
  simp [Hart.answered, sets]

/-- The answer restarts a hart whose saved pcs are at 0 mod 8. -/
theorem exec_trapResume_restarts {tape : Option (Word × Word)} {y : Hart} (hp : Powered s)
    (hx : findHart s gang hid.toNat = some x) (stopped : x.sysTrap = true) (act : x.mode = .active)
    (hy : x.answered tape = y.restarted) (pcA : y.tr.epca.toNat % 8 = 0) (pcC : y.tr.epcc.toNat % 8 = 0) :
    ∃ t, exec (.trapResume gang hid tape) s = .next t ∧ t.mem = s.mem ∧ findHart t gang hid.toNat = some y.restarted := by
  refine ⟨mapHart s gang hid.toNat fun y => y.answered tape, ?_, rfl, ?_⟩
  · rw [exec_trapResume hp hx, if_neg (by simp [stopped]), if_pos act, resumeHart_aligned hx] <;> rw [hy]
    · exact pcA
    · exact pcC
  · rw [findHart_mapHart_same, hx, Option.map_some, hy]

/-! ### Answers to saves and restores (07 R164, R166, R167) -/

theorem exec_saveAreaProvided (hp : Powered s) (base : Word) (limit : Nat) : exec (.saveAreaProvided gang hid base limit) s =
    .next (mapSave s gang hid.toNat fun w =>
      if w.st = .needArea then { w with st := .writing, base := base, limit := limit } else w) := by
  change execSaveAreaProvided gang hid base limit s = _
  exact event_next (powered_of hp)

theorem exec_restoreAnswer (hp : Powered s) : exec (.restoreAnswer gang) s =
    .next (mapGang s gang fun y => if y.st = .awaiting then { y with st := .saved } else y) := by
  change execRestoreAnswer gang s = _
  exact event_next (powered_of hp)

section Incomplete

variable {why : Nat} {va : Word} (hp : Powered s) (hx : findHart s gang hid.toNat = some x) (hs : x.save = some v)
  (hv : v.st = .incomplete why va)
include hp hx hs hv

omit hp in
theorem incomplete?_of : incomplete? s gang hid.toNat = some v := by
  simp [incomplete?, hx, hs, hv]

theorem exec_saveRestart (base : Word) (limit : Nat) : exec (.saveRestart gang hid base limit) s =
    .next (mapSave s gang hid.toNat fun w => { w with st := .writing, base := base, limit := limit, off := 0 }) := by
  change execSaveRestart gang hid base limit s = _
  rw [execSaveRestart, event_next (powered_of hp), incomplete?_of hx hs hv]

theorem exec_saveContinue {limit : Nat} (room : (if v.off = areaEnd then 0 else v.off) ≤ limit) :
    exec (.saveContinue gang hid limit) s =
      .next (mapSave s gang hid.toNat fun w => { w with st := .writing, limit := limit }) := by
  change execSaveContinue gang hid limit s = _
  rw [execSaveContinue, event_next (powered_of hp), incomplete?_of hx hs hv]
  dsimp only
  rw [if_pos room]

theorem exec_saveKill : exec (.saveKill gang hid) s = .next (killGang s gang) := by
  change execSaveKill gang hid s = _
  rw [execSaveKill, event_next (powered_of hp), incomplete?_of hx hs hv]

end Incomplete

/-! ### Saves (07 R165, 04 R92) -/

theorem findHart_mapSave_same (hx : findHart s gang k = some x) (hs : x.save = some v) (f : Save → Save) :
    findHart (mapSave s gang k f) gang k = some { x with save := some (f v) } := by
  rw [mapSave, findHart_mapHart_same, hx, Option.map_some, hs, Option.map_some]

theorem allStopped_iff : g.allStopped = true ↔ ∀ h ∈ g.harts, h.mode = .saving ∨ h.mode = .exited := by
  simp [Gang.allStopped]

/-- The CXE writes an area that is not complete, but that of a hart 0 that has exited only once the other harts have stopped;
then it writes hart 0's anew while that lacks the gang's state (log 161). -/
theorem maySave_of (h : v.done = false ∧ (hid ≠ 0 ∨ g.allStopped = true ∨ x.mode ≠ .exited) ∨
    hid = 0 ∧ g.allStopped = true ∧ v.gang = false) : g.maySave hid.toNat x v = true := by
  have zero : hid.toNat = 0 ↔ hid = 0 := BitVec.toNat_eq (y := 0) |>.symm
  unfold Gang.maySave
  rcases h with ⟨unfinished, mine⟩ | ⟨first, all, lacks⟩
  · split
    · simp [unfinished]
    · next still =>
      simp only [Bool.and_eq_true, decide_eq_true_eq, zero, not_and] at still
      have live : hid ≠ 0 ∨ x.mode ≠ .exited := by
        rcases mine with h | h | h
        · exact .inl h
        · exact .inl fun e => still e h
        · exact .inr h
      simpa [unfinished, zero] using live
  · simp [first, all, lacks]

/-- What the launch gives for VRLEN, and the accesses of the CXE. -/
theorem runSave_eq (hl : findLaunch s gang = some l) : runSave s gang k g x v =
    writeChunks { hartXlat s gang k with hart := none, gang := none } v.base v.limit
      ((saveChunks s (4096 * 2 ^ (l.record.ctrl.toNat / 8 % 8)) g k x).filter (fun c => v.off ≤ c.off) ++
        [{ off := 0, bytes := natToBytes (statusWord x).toNat 8 }]) s := by
  unfold runSave
  rw [hl, Option.map_some, Option.getD_some, Launch.vrlen, vrlenOf_eq]
  rfl

theorem runRestore_eq (hl : findLaunch s gang = some l) : runRestore s gang k g x v =
    tried (restoreHart { hartXlat s gang k with hart := none, gang := none } v.base
      (4096 * 2 ^ (l.record.ctrl.toNat / 8 % 8)) g k x) s := by
  unfold runRestore
  rw [hl, Option.map_some, Option.getD_some, Launch.vrlen, vrlenOf_eq]
  rfl

section Writing

variable {n : Nat} (hk : Clocked s) (hw : savingHart s gang hid.toNat = some (g, x, v))
include hk hw

theorem exec_saveComplete (run : runSave s gang hid.toNat g x v = (.complete, n, s1)) :
    exec (.saveComplete gang hid) s = .next (leaveIfSaved (mapSave (useFree s1) gang hid.toNat fun w =>
      { w with done := true, gang := g.allStopped, off := 0 }) gang) := by
  change execSaveComplete gang hid s = _
  rw [execSaveComplete, event_next (clocked_of hk), hw]
  dsimp only
  rw [run]

/-- A save that stops keeps its place, and its owner is told. -/
theorem exec_saveIncomplete {why : Nat} {va : Word} (run : runSave s gang hid.toNat g x v = (.stopped why va, n, s1)) :
    ∃ ws, exec (.saveIncomplete gang hid) s = .next (notify (mapSave (useFree s1) gang hid.toNat fun w =>
      { w with st := .incomplete why va, off := keptOff n }) 1 .saveIncomplete ws) := by
  change ∃ ws, execSaveIncomplete gang hid s = _
  rw [execSaveIncomplete, event_next (clocked_of hk), hw]
  dsimp only
  rw [run]
  exact ⟨_, rfl⟩

end Writing

theorem savingHart_of (hg : findGang s gang = some g) (hx : findHart s gang k = some x) (hs : x.save = some v)
    (writing : v.st = .writing) (res : g.st = .resident) (may : g.maySave k x v = true) :
    savingHart s gang k = some (g, x, v) := by
  simp [savingHart, hg, hx, hs, writing, res, may]

/-! ### Restores (07 R167) -/

theorem restoringHart_of (hg : findGang s gang = some g) (hx : findHart s gang k = some x) (hs : x.save = some v)
    (unread : v.st ≠ .restored) (st : g.st = .restoring) : restoringHart s gang k = some (g, x, v) := by
  simp [restoringHart, hg, hx, hs, unread, st]

/-- A gang whose restore has failed waits for its owner's answer, its areas to be read anew. -/
def Gang.restoreFailed (g : Gang) : Gang :=
  { g with st := .awaiting, harts := g.harts.map fun h => { h with save := h.save.map fun v => { v with st := .writing } } }

section Reading

variable (hk : Clocked s) (hr : restoringHart s gang hid.toNat = some (g, x, v))
include hk hr

theorem exec_restoreComplete {z : Hart} (run : runRestore s gang hid.toNat g x v = (.ok z, s1)) :
    exec (.restoreComplete gang hid) s = .next (becomeResident
      (mapHart s1 gang hid.toNat fun _ => { z with save := some { v with st := .restored } }) gang) := by
  change execRestoreComplete gang hid s = _
  rw [execRestoreComplete, event_next (clocked_of hk), hr]
  dsimp only
  rw [run]

theorem exec_restoreFault {t : TrapInfo} (run : runRestore s gang hid.toNat g x v = (.trap t, s1)) (clean : t.cause ≠ cMCHK) :
    ∃ ws, exec (.restoreFault gang hid) s =
      .next (notify (mapGang s1 gang Gang.restoreFailed) 1 .restoreFault ws) := by
  change ∃ ws, execRestoreFault gang hid s = _
  rw [execRestoreFault, event_next (clocked_of hk), hr]
  dsimp only
  rw [run]
  dsimp only
  rw [if_neg clean]
  exact ⟨_, rfl⟩

end Reading

/-- Settles O51: an answer by how its hart is stopped, a save and a restore by how the CXE's accesses end. -/
theorem answersAndSaves : Obligations.AnswersAndSaves := by
  intro s gang hid g x hg hx
  refine ⟨fun hp => ⟨fun free tape => ?free,
    fun stopped => ⟨?kill, fun away tape => ?kept, fun act off pcA pcC hq => ?resumes⟩,
    fun v hs => ⟨fun _ base limit => exec_saveAreaProvided hp base limit, fun why va hv =>
      ⟨exec_saveRestart hp hx hs hv, fun limit => exec_saveContinue hp hx hs hv, exec_saveKill hp hx hs hv⟩⟩,
    exec_restoreAnswer hp⟩,
    fun hk v l hs hl => ?ends⟩
  case free =>
    rw [exec_trapResume hp hx, exec_trapKill hp hx]
    simp [free]
  case kill => rw [exec_trapKill hp hx, if_pos stopped]
  case kept =>
    rw [exec_trapResume hp hx]
    simp [stopped, away]
  case resumes =>
    refine ⟨exec_trapResume_restarts hp hx stopped act (resume_of_handlerOff off hq) pcA pcC, fun a b tc => ?_⟩
    have restarts : x.answered (some (a, b)) = (x.setTape (a, b)).restarted :=
      (answered_tape tc).trans (resume_of_handlerOff off hq)
    obtain ⟨t, run, -, found⟩ := exec_trapResume_restarts hp hx stopped act restarts pcA pcC
    exact ⟨t, _, run, found, rfl, rfl, rfl⟩
  case ends =>
    intro vrlen cxe stopped
    refine ⟨fun writing res may => ?saves, fun unread st => ?restores⟩
    case saves =>
      intro all
      have hw := savingHart_of hg hx hs writing res (maySave_of (by simpa only [allStopped_iff] using may))
      refine ⟨fun n s1 run => exec_saveComplete hk hw ((runSave_eq hl).trans run), fun why va n s1 run here => ?_⟩
      obtain ⟨ws, incomplete⟩ := exec_saveIncomplete hk hw ((runSave_eq hl).trans run)
      exact ⟨_, _, _, incomplete, findHart_mapSave_same here hs _, rfl, rfl, rfl, _, rfl, rfl, rfl⟩
    case restores =>
      have hr := restoringHart_of hg hx hs unread st
      refine ⟨fun z s1 run => exec_restoreComplete hk hr ((runRestore_eq hl).trans run), fun t s1 run clean here => ?_⟩
      obtain ⟨ws, failed⟩ := exec_restoreFault hk hr ((runRestore_eq hl).trans run) clean
      exact ⟨_, g.restoreFailed, failed, (findGang_mapGang_same (f := Gang.restoreFailed) fun _ => rfl).trans (congrArg _ here),
        rfl, _, rfl, rfl, rfl⟩

end Sys2Proof.Machine
end


section
/-! Words of text and their fields (09 R187, R203, 15 R351): a word is in a format exactly when its fields are those that the
format is given. -/

namespace Sys2Proof

/-! ### Appended fields -/

theorem eq_append_iff {m k : Nat} {x : BitVec m} {y : BitVec k} {w : BitVec (m + k)} :
    w = x ++ y ↔ w.extractLsb' k m = x ∧ w.extractLsb' 0 k = y := by
  constructor
  · rintro rfl
    exact ⟨BitVec.extractLsb'_append_eq_left, BitVec.extractLsb'_append_eq_right⟩
  · rintro ⟨rfl, rfl⟩
    exact BitVec.extractLsb'_append_extractLsb'.symm

theorem fields_append {m k : Nat} (x : BitVec m) (y : BitVec k) :
    (x ++ y).extractLsb' k m = x ∧ (x ++ y).extractLsb' 0 k = y := eq_append_iff.mp rfl

theorem extract_extract {n : Nat} (w : BitVec n) {lo k lo' k' : Nat} (h : lo' + k' ≤ k) :
    (w.extractLsb' lo k).extractLsb' lo' k' = w.extractLsb' (lo + lo') k' := by
  refine BitVec.eq_of_getLsbD_eq fun i hi => ?_
  have : lo' + i < k := by omega
  simp [hi, this, Nat.add_assoc]

theorem eq_append_append_iff {k m n : Nat} {x : BitVec k} {y : BitVec m} {z : BitVec n} {w : BitVec (k + m + n)} :
    w = x ++ y ++ z ↔ w.extractLsb' (m + n) k = x ∧ w.extractLsb' n m = y ∧ w.extractLsb' 0 n = z := by
  rw [eq_append_iff, eq_append_iff, extract_extract _ (by omega), extract_extract _ (by omega), Nat.add_comm n m, Nat.add_zero,
    and_assoc]

theorem eq_ofBool_iff {b : Bool} {x : BitVec 1} : x = BitVec.ofBool b ↔ (x == 1#1) = b := by
  revert x b
  decide

/-! ### The formats (09 R187): a word is in a format exactly when its fields are those given -/

section Formats

variable {w : TextWord} {b a d mj : BitVec 5}

theorem rWord_eq_iff {fn : BitVec 10} : rWord fn b a d mj = w ↔ frameOf w = 3#2 ∧ (majorOf w).toNat = mj.toNat ∧
    (fFn10 w).toNat = fn.toNat ∧ fB w = b ∧ fA w = a ∧ fD w = d := by
  unfold rWord fFn10 fB fA fD majorOf frameOf
  rw [eq_comm]
  simp only [eq_append_iff (k := 2), eq_append_iff (k := 5), extract_extract, BitVec.toNat_inj, Nat.reduceAdd,
    Nat.reduceLeDiff]
  tauto

theorem i15Word_eq_iff {imm : BitVec 15} : i15Word imm a d mj = w ↔ frameOf w = 3#2 ∧ (majorOf w).toNat = mj.toNat ∧
    fImm15 w = imm ∧ fA w = a ∧ fD w = d := by
  unfold i15Word fImm15 fA fD majorOf frameOf
  rw [eq_comm]
  simp only [eq_append_iff (k := 2), eq_append_iff (k := 5), extract_extract, BitVec.toNat_inj, Nat.reduceAdd,
    Nat.reduceLeDiff]
  tauto

theorem i12Word_eq_iff {imm : BitVec 12} {fn : BitVec 3} : i12Word imm fn a d mj = w ↔ frameOf w = 3#2 ∧
    (majorOf w).toNat = mj.toNat ∧ (fFn3 w).toNat = fn.toNat ∧ fImm12 w = imm ∧ fA w = a ∧ fD w = d := by
  unfold i12Word fImm12 fFn3 fA fD majorOf frameOf
  rw [eq_comm]
  simp only [eq_append_iff (k := 2), eq_append_iff (k := 5), eq_append_iff (k := 3), extract_extract, BitVec.toNat_inj,
    Nat.reduceAdd, Nat.reduceLeDiff]
  tauto

theorem s12Word_eq_iff {imm : BitVec 12} {fn : BitVec 3} : s12Word imm fn b a mj = w ↔ frameOf w = 3#2 ∧
    (majorOf w).toNat = mj.toNat ∧ (fFn3S w).toNat = fn.toNat ∧ fImmS w = imm ∧ fB w = b ∧ fA w = a := by
  unfold s12Word fImmS fFn3S fB fA majorOf frameOf
  rw [eq_comm, eq_comm (b := imm)]
  simp only [eq_append_iff (k := 2), eq_append_iff (k := 5), eq_append_iff (k := 3), extract_extract, BitVec.toNat_inj,
    Nat.reduceAdd, Nat.reduceLeDiff]
  rw [eq_comm (b := bitsAt w 25 7), eq_comm (b := bitsAt w 7 5)]
  tauto

theorem uWord_eq_iff {imm : BitVec 20} : uWord imm d mj = w ↔ frameOf w = 3#2 ∧ (majorOf w).toNat = mj.toNat ∧
    fImm20 w = imm ∧ fD w = d := by
  unfold uWord fImm20 fD majorOf frameOf
  rw [eq_comm]
  simp only [eq_append_iff (k := 2), eq_append_iff (k := 5), extract_extract, BitVec.toNat_inj, Nat.reduceAdd,
    Nat.reduceLeDiff]
  tauto

theorem vWord_eq_iff {fn : BitVec 4} {o : VOps} : vWord fn o mj = w ↔ frameOf w = 3#2 ∧ (majorOf w).toNat = mj.toNat ∧
    (fFn4 w).toNat = fn.toNat ∧ fV w = o := by
  obtain ⟨bs, cb, ca, m, b, a, d⟩ := o
  unfold vWord fFn4 fV majorOf frameOf
  rw [eq_comm]
  simp only [eq_append_iff (k := 2), eq_append_iff (k := 5), eq_append_iff (k := 3), eq_append_iff (k := 1),
    extract_extract, eq_ofBool_iff, BitVec.toNat_inj, VOps.mk.injEq, Nat.reduceAdd, Nat.reduceLeDiff]
  tauto

theorem prefixWord_eq_iff {pl : BitVec 25} : prefixWord pl mj = w ↔ frameOf w = 2#2 ∧ (majorOf w).toNat = mj.toNat ∧
    payload w = pl := by
  unfold prefixWord payload majorOf frameOf
  rw [eq_comm]
  simp only [eq_append_iff (k := 2), eq_append_iff (k := 5), extract_extract, BitVec.toNat_inj, Nat.reduceAdd,
    Nat.reduceLeDiff]
  tauto

theorem nbeWord_eq_iff {imm : BitVec 13} {fmt : BitVec 5} {z y x : BitVec 3} {k : Bool} {op : BitVec 4} :
    nbeWord imm fmt z y x k op = w ↔ (bitsAt w 0 4).toNat = op.toNat ∧ (bitsAt w 4 1 == 1#1) = k ∧ bitsAt w 5 3 = x ∧
      bitsAt w 8 3 = y ∧ bitsAt w 11 3 = z ∧ bitsAt w 14 5 = fmt ∧ bitsAt w 19 13 = imm := by
  unfold nbeWord
  rw [eq_comm]
  simp only [eq_append_iff (k := 4), eq_append_iff (k := 1), eq_append_iff (k := 3), eq_append_iff (k := 5),
    extract_extract, eq_ofBool_iff, BitVec.toNat_inj, Nat.reduceAdd, Nat.reduceLeDiff]
  tauto

theorem nsetWord_eq_iff {imm : BitVec 24} {x : BitVec 3} {k : Bool} {op : BitVec 4} {w : TextWord} :
    imm ++ x ++ BitVec.ofBool k ++ op = w ↔ (bitsAt w 0 4).toNat = op.toNat ∧ (bitsAt w 4 1 == 1#1) = k ∧
      bitsAt w 5 3 = x ∧ bitsAt w 8 24 = imm := by
  rw [eq_comm]
  simp only [eq_append_iff (k := 4), eq_append_iff (k := 1), eq_append_iff (k := 3), extract_extract,
    eq_ofBool_iff, BitVec.toNat_inj, Nat.reduceAdd, Nat.reduceLeDiff]
  tauto

/-! ### Fields of fields -/

/-- Neighbouring fields of a word, appended, are a field of it. -/
theorem bitsAt_append (w : TextWord) {hi lo m : Nat} (n : Nat) (h : hi = lo + m) :
    bitsAt w hi n ++ bitsAt w lo m = bitsAt w lo (n + m) :=
  BitVec.extractLsb'_append_extractLsb'_eq_extractLsb' h

theorem bitsAt_fFn10 {w : TextWord} {lo n : Nat} (low : 22 ≤ lo) (high : lo + n ≤ 32) :
    bitsAt w lo n = (fFn10 w).extractLsb' (lo - 22) n := by
  rw [fFn10, bitsAt, extract_extract _ (by omega), Nat.add_sub_cancel' low]

theorem bitsAt_fB {w : TextWord} {n : Nat} (h : n ≤ 5) : bitsAt w 17 n = (fB w).extractLsb' 0 n := by
  rw [fB, bitsAt, extract_extract _ (by omega)]

theorem bitsAt_fD {w : TextWord} {lo n : Nat} (low : 7 ≤ lo) (high : lo + n ≤ 12) :
    bitsAt w lo n = (fD w).extractLsb' (lo - 7) n := by
  rw [fD, bitsAt, extract_extract _ (by omega), Nat.add_sub_cancel' low]

theorem bitsAt_fImm12 {w : TextWord} {lo n : Nat} (low : 20 ≤ lo) (high : lo + n ≤ 32) :
    bitsAt w lo n = (fImm12 w).extractLsb' (lo - 20) n := by
  rw [fImm12, bitsAt, extract_extract _ (by omega), Nat.add_sub_cancel' low]

theorem fFn5_eq {w : TextWord} : fFn5 w = (fFn10 w).extractLsb' 0 5 := bitsAt_fFn10 le_rfl (by decide)

/-- Where `sd.rel` has its scope and its offset (09 R188). -/
theorem bitsAt_fImmS (w : TextWord) :
    bitsAt w 7 3 = (fImmS w).extractLsb' 0 3 ∧ bitsAt w 25 7 ++ bitsAt w 10 2 = (fImmS w).extractLsb' 3 9 := by
  obtain ⟨high, low⟩ := fields_append (bitsAt w 25 7) (bitsAt w 7 5)
  have scope := extract_extract w (lo := 7) (k := 5) (lo' := 0) (k' := 3) (by decide)
  have mid := extract_extract w (lo := 7) (k := 5) (lo' := 3) (k' := 2) (by decide)
  rw [← bitsAt, ← low, extract_extract _ (by decide)] at scope mid
  have immHigh : bitsAt w 25 7 = (fImmS w).extractLsb' 5 7 := high.symm
  have immMid : bitsAt w 10 2 = (fImmS w).extractLsb' 3 2 := mid.symm
  rw [immHigh, immMid]
  exact ⟨scope.symm, BitVec.extractLsb'_append_extractLsb'_eq_extractLsb' rfl⟩

/-! ### The R format with its function field in parts (09 R199 to R201) -/

theorem rWord_4_6_eq_iff {x : BitVec 4} {y : BitVec 6} : rWord (x ++ y) b a d mj = w ↔ frameOf w = 3#2 ∧
    (majorOf w).toNat = mj.toNat ∧ bitsAt w 28 4 = x ∧ bitsAt w 22 6 = y ∧ fB w = b ∧ fA w = a ∧ fD w = d := by
  rw [rWord_eq_iff, BitVec.toNat_inj (x := fFn10 w), eq_append_iff (k := 6),
    ← bitsAt_fFn10 (lo := 28) (by decide) (by decide), ← bitsAt_fFn10 (lo := 22) (by decide) (by decide), and_assoc]

theorem rWord_5_5_eq_iff {x y : BitVec 5} : rWord (x ++ y) b a d mj = w ↔ frameOf w = 3#2 ∧
    (majorOf w).toNat = mj.toNat ∧ bitsAt w 27 5 = x ∧ (fFn5 w).toNat = y.toNat ∧ fB w = b ∧ fA w = a ∧ fD w = d := by
  rw [rWord_eq_iff, BitVec.toNat_inj (x := fFn10 w), eq_append_iff (k := 5),
    ← bitsAt_fFn10 (lo := 27) (by decide) (by decide), ← fFn5_eq, BitVec.toNat_inj (x := fFn5 w), and_assoc]

theorem rWord_2_3_5_eq_iff {x : BitVec 2} {y : BitVec 3} {z : BitVec 5} : rWord (x ++ y ++ z) b a d mj = w ↔
    frameOf w = 3#2 ∧ (majorOf w).toNat = mj.toNat ∧ bitsAt w 30 2 = x ∧ bitsAt w 27 3 = y ∧ (fFn5 w).toNat = z.toNat ∧
    fB w = b ∧ fA w = a ∧ fD w = d := by
  rw [rWord_eq_iff, BitVec.toNat_inj (x := fFn10 w), eq_append_append_iff (k := 2) (m := 3) (n := 5),
    ← bitsAt_fFn10 (lo := 30) (by decide) (by decide), ← bitsAt_fFn10 (lo := 27) (by decide) (by decide),
    ← fFn5_eq, BitVec.toNat_inj (x := fFn5 w), and_assoc, and_assoc]

theorem rWord_3_2_5_eq_iff {x : BitVec 3} {y : BitVec 2} {z : BitVec 5} : rWord (x ++ y ++ z) b a d mj = w ↔
    frameOf w = 3#2 ∧ (majorOf w).toNat = mj.toNat ∧ bitsAt w 29 3 = x ∧ bitsAt w 27 2 = y ∧ (fFn5 w).toNat = z.toNat ∧
    fB w = b ∧ fA w = a ∧ fD w = d := by
  rw [rWord_eq_iff, BitVec.toNat_inj (x := fFn10 w), eq_append_append_iff (k := 3) (m := 2) (n := 5),
    ← bitsAt_fFn10 (lo := 29) (by decide) (by decide), ← bitsAt_fFn10 (lo := 27) (by decide) (by decide),
    ← fFn5_eq, BitVec.toNat_inj (x := fFn5 w), and_assoc, and_assoc]

end Formats

/-! ### Narrow fields: a queue, a type, a stream, a shift, the offset of `sd.rel` -/

theorem fFn10_of_fFn5 {w : TextWord} {n : Nat} (hn : (fFn5 w).toNat = n) (h : bitsAt w 27 5 = 0#5) :
    (fFn10 w).toNat = n := by
  have key : bitsAt w 27 5 ++ fFn5 w = fFn10 w := bitsAt_append w 5 rfl
  rw [← key, h, ← hn]
  exact (BitVec.toNat_append 0#5 (fFn5 w)).trans (by simp)

theorem queue_eq {b : BitVec 5} (h : b.toNat < 4) : 0#3 ++ b.extractLsb' 0 2 = b := by
  revert b
  decide

theorem fB_queue {w : TextWord} (h : (fB w).toNat < 4) : 0#3 ++ bitsAt w 17 2 = fB w := by
  rw [bitsAt_fB (by decide)]
  exact queue_eq h

theorem fB_type {w : TextWord} (h : (fB w).toNat < 8) : 0#2 ++ bitsAt w 17 3 = fB w := by
  rw [bitsAt_fB (by decide)]
  revert h
  generalize fB w = b
  revert b
  decide

theorem fD_stream {w : TextWord} (h : (fD w).toNat < 16) : 0#1 ++ bitsAt w 7 4 = fD w := by
  rw [bitsAt_fD (by decide) (by decide)]
  revert h
  generalize fD w = b
  revert b
  decide

theorem fImm12_shift {w : TextWord} {x : BitVec 6} (h : bitsAt w 26 6 = x) : fImm12 w = x ++ bitsAt w 20 6 :=
  h ▸ (bitsAt_append w (hi := 26) (lo := 20) (m := 6) 6 rfl).symm

theorem fImmS_scope (w : TextWord) : fImmS w = bitsAt w 25 7 ++ bitsAt w 10 2 ++ bitsAt w 7 3 := by
  obtain ⟨scope, off⟩ := bitsAt_fImmS w
  rw [scope, off]
  exact (BitVec.extractLsb'_append_extractLsb' (w := 9) (len := 3) (x := fImmS w)).symm

/-! ### Slots (09 R203) -/

theorem slotWord_eq_iff {y x op : BitVec 5} {t : BitVec 15} : slotWord y x op = 0#15 ++ t ++ 1#2 ↔
    t.extractLsb' 10 5 = y ∧ t.extractLsb' 5 5 = x ∧ t.extractLsb' 0 5 = op := by
  obtain ⟨high, mid, low⟩ := eq_append_append_iff.mp (Eq.refl (0#15 ++ t ++ 1#2))
  generalize 0#15 ++ t ++ 1#2 = w at *
  subst mid
  rw [eq_comm, slotWord]
  simp only [eq_append_iff (k := 2), eq_append_iff (k := 5), extract_extract, high, low, Nat.reduceAdd, Nat.reduceLeDiff,
    and_true, true_and, and_assoc]

/-- The second word of a prefixed `zld` or `zst` (09 R194), in R format. -/
theorem matrixWord_eq (b a : BitVec 5) :
    vWord 15#4 ⟨true, false, false, 0#3, b, a, 0#5⟩ 26#5 = rWord 992#10 b a 0#5 26#5 := by
  have fn : (15#4 ++ BitVec.ofBool true ++ BitVec.ofBool false ++ BitVec.ofBool false ++ 0#3 : BitVec 10) = 992#10 := by decide
  rw [← fn]
  rfl

end Sys2Proof
end

section
/-! What `encode` writes decodes to the instruction (09 R181 to R203). -/

namespace Sys2Proof

open Sys2Proof.Claims (isNearBank)

/-! ### The fields that a word of each format has -/

section Read

variable (b a d mj : BitVec 5)

@[simp] theorem fields_rWord (fn : BitVec 10) : frameOf (rWord fn b a d mj) = 3#2 ∧ majorOf (rWord fn b a d mj) = mj ∧
    fFn10 (rWord fn b a d mj) = fn ∧ fB (rWord fn b a d mj) = b ∧ fA (rWord fn b a d mj) = a ∧
    fD (rWord fn b a d mj) = d := by
  simpa only [BitVec.toNat_inj] using rWord_eq_iff.mp rfl

@[simp] theorem fields_i15Word (imm : BitVec 15) : frameOf (i15Word imm a d mj) = 3#2 ∧ majorOf (i15Word imm a d mj) = mj ∧
    fImm15 (i15Word imm a d mj) = imm ∧ fA (i15Word imm a d mj) = a ∧ fD (i15Word imm a d mj) = d := by
  simpa only [BitVec.toNat_inj] using i15Word_eq_iff.mp rfl

@[simp] theorem fields_i12Word (imm : BitVec 12) (fn : BitVec 3) : frameOf (i12Word imm fn a d mj) = 3#2 ∧
    majorOf (i12Word imm fn a d mj) = mj ∧ fFn3 (i12Word imm fn a d mj) = fn ∧ fImm12 (i12Word imm fn a d mj) = imm ∧
    fA (i12Word imm fn a d mj) = a ∧ fD (i12Word imm fn a d mj) = d := by
  simpa only [BitVec.toNat_inj] using i12Word_eq_iff.mp rfl

@[simp] theorem fields_s12Word (imm : BitVec 12) (fn : BitVec 3) : frameOf (s12Word imm fn b a mj) = 3#2 ∧
    majorOf (s12Word imm fn b a mj) = mj ∧ fFn3S (s12Word imm fn b a mj) = fn ∧ fImmS (s12Word imm fn b a mj) = imm ∧
    fB (s12Word imm fn b a mj) = b ∧ fA (s12Word imm fn b a mj) = a := by
  simpa only [BitVec.toNat_inj] using s12Word_eq_iff.mp rfl

@[simp] theorem fields_uWord (imm : BitVec 20) : frameOf (uWord imm d mj) = 3#2 ∧ majorOf (uWord imm d mj) = mj ∧
    fImm20 (uWord imm d mj) = imm ∧ fD (uWord imm d mj) = d := by
  simpa only [BitVec.toNat_inj] using uWord_eq_iff.mp rfl

@[simp] theorem fields_vWord (fn : BitVec 4) (o : VOps) : frameOf (vWord fn o mj) = 3#2 ∧ majorOf (vWord fn o mj) = mj ∧
    fFn4 (vWord fn o mj) = fn ∧ fV (vWord fn o mj) = o := by
  simpa only [BitVec.toNat_inj] using vWord_eq_iff.mp rfl

@[simp] theorem fields_prefixWord (pl : BitVec 25) : frameOf (prefixWord pl mj) = 2#2 ∧ majorOf (prefixWord pl mj) = mj ∧
    payload (prefixWord pl mj) = pl := by
  simpa only [BitVec.toNat_inj] using prefixWord_eq_iff.mp rfl

end Read

theorem bitsAt_prefixWord {pl : BitVec 25} {pm : BitVec 5} {lo n : Nat} (low : 7 ≤ lo) (high : lo + n ≤ 32) :
    bitsAt (prefixWord pl pm) lo n = pl.extractLsb' (lo - 7) n := by
  have key := extract_extract (prefixWord pl pm) (lo := 7) (k := 25) (lo' := lo - 7) (k' := n) (by omega)
  rw [Nat.add_sub_cancel' low] at key
  exact key.symm.trans (congrArg (BitVec.extractLsb' (lo - 7) n) (fields_prefixWord pm pl).2.2)

@[simp] theorem zA_eq {w : TextWord} : zA w = (fA w == 0#5) := rfl
@[simp] theorem zB_eq {w : TextWord} : zB w = (fB w == 0#5) := rfl
@[simp] theorem zD_eq {w : TextWord} : zD w = (fD w == 0#5) := rfl

/-! ### The parts that encodings append -/

@[simp] theorem fields_4_6 (x : BitVec 4) (y : BitVec 6) :
    (x ++ y : BitVec 10).extractLsb' 6 4 = x ∧ (x ++ y : BitVec 10).extractLsb' 0 6 = y := fields_append x y

@[simp] theorem fields_5_5 (x y : BitVec 5) :
    (x ++ y : BitVec 10).extractLsb' 5 5 = x ∧ (x ++ y : BitVec 10).extractLsb' 0 5 = y := fields_append x y

@[simp] theorem fields_2_3_5 (x : BitVec 2) (y : BitVec 3) (z : BitVec 5) : (x ++ y ++ z : BitVec 10).extractLsb' 8 2 = x ∧
    (x ++ y ++ z : BitVec 10).extractLsb' 5 3 = y ∧ (x ++ y ++ z : BitVec 10).extractLsb' 0 5 = z :=
  eq_append_append_iff.mp rfl

@[simp] theorem fields_3_2_5 (x : BitVec 3) (y : BitVec 2) (z : BitVec 5) : (x ++ y ++ z : BitVec 10).extractLsb' 7 3 = x ∧
    (x ++ y ++ z : BitVec 10).extractLsb' 5 2 = y ∧ (x ++ y ++ z : BitVec 10).extractLsb' 0 5 = z :=
  eq_append_append_iff.mp rfl

@[simp] theorem fields_12_8_5 (x : BitVec 12) (y : BitVec 8) (z : BitVec 5) : (x ++ y ++ z : BitVec 25).extractLsb' 13 12 = x ∧
    (x ++ y ++ z : BitVec 25).extractLsb' 5 8 = y ∧ (x ++ y ++ z : BitVec 25).extractLsb' 0 5 = z :=
  eq_append_append_iff.mp rfl

@[simp] theorem fields_14_5_4_2 (x : BitVec 14) (y : BitVec 5) (z : BitVec 4) (u : BitVec 2) :
    (x ++ y ++ z ++ u : BitVec 25).extractLsb' 11 14 = x ∧ (x ++ y ++ z ++ u : BitVec 25).extractLsb' 6 5 = y ∧
    (x ++ y ++ z ++ u : BitVec 25).extractLsb' 2 4 = z ∧ (x ++ y ++ z ++ u : BitVec 25).extractLsb' 0 2 = u := by
  obtain ⟨hxyz, hu⟩ := fields_append (x ++ y ++ z) u
  obtain ⟨hx, hy, hz⟩ := eq_append_append_iff.mp hxyz
  rw [extract_extract _ (by decide)] at hx hy hz
  exact ⟨hx, hy, hz, hu⟩

@[simp] theorem fields_9_6_6_2_2 (x : BitVec 9) (y z : BitVec 6) (u v : BitVec 2) :
    (x ++ y ++ z ++ u ++ v : BitVec 25).extractLsb' 16 9 = x ∧ (x ++ y ++ z ++ u ++ v : BitVec 25).extractLsb' 10 6 = y ∧
    (x ++ y ++ z ++ u ++ v : BitVec 25).extractLsb' 4 6 = z ∧ (x ++ y ++ z ++ u ++ v : BitVec 25).extractLsb' 2 2 = u ∧
    (x ++ y ++ z ++ u ++ v : BitVec 25).extractLsb' 0 2 = v := by
  obtain ⟨hxyz, hu, hv⟩ := eq_append_append_iff.mp (Eq.refl (x ++ y ++ z ++ u ++ v))
  obtain ⟨hx, hy, hz⟩ := eq_append_append_iff.mp hxyz
  rw [extract_extract _ (by decide)] at hx hy hz
  exact ⟨hx, hy, hz, hu, hv⟩

@[simp] theorem fields_queue (q : BitVec 2) :
    (0#3 ++ q : BitVec 5).toNat = q.toNat ∧ q.toNat < 4 ∧ (0#3 ++ q : BitVec 5).extractLsb' 0 2 = q := by
  revert q
  decide

@[simp] theorem fields_stream (s : BitVec 4) :
    (0#1 ++ s : BitVec 5).toNat < 16 ∧ (0#1 ++ s : BitVec 5).extractLsb' 0 4 = s := by
  revert s
  decide

@[simp] theorem fields_type (t : BitVec 3) :
    (0#2 ++ t : BitVec 5).toNat < 8 ∧ (0#2 ++ t : BitVec 5).extractLsb' 0 3 = t := by
  revert t
  decide

@[simp] theorem fields_shift (x y : BitVec 6) : (x ++ y : BitVec 12).extractLsb' 6 6 = x ∧
    (x ++ y : BitVec 12).extractLsb' 6 1 = x.extractLsb' 0 1 ∧ (x ++ y : BitVec 12).extractLsb' 7 5 = x.extractLsb' 1 5 ∧
    (x ++ y : BitVec 12).extractLsb' 0 6 = y := by
  obtain ⟨hx, hy⟩ := fields_append x y
  have low := extract_extract (x ++ y) (lo := 6) (k := 6) (lo' := 0) (k' := 1) (by decide)
  have high := extract_extract (x ++ y) (lo := 6) (k := 6) (lo' := 1) (k' := 5) (by decide)
  rw [hx] at low high
  exact ⟨hx, low.symm, high.symm, hy⟩

@[simp] theorem fields_9_3 (x : BitVec 9) (y : BitVec 3) :
    (x ++ y : BitVec 12).extractLsb' 3 9 = x ∧ (x ++ y : BitVec 12).extractLsb' 0 3 = y := fields_append x y

@[simp] theorem fields_jump (x : BitVec 10) : (x.extractLsb' 5 5 ++ x.extractLsb' 0 5 : BitVec 10) = x :=
  BitVec.extractLsb'_append_extractLsb'

@[simp] theorem fields_long12 (x : BitVec 37) : (x.extractLsb' 12 25 ++ x.extractLsb' 0 12 : BitVec 37) = x :=
  BitVec.extractLsb'_append_extractLsb'

@[simp] theorem fields_long20 (x : BitVec 45) : (x.extractLsb' 20 25 ++ x.extractLsb' 0 20 : BitVec 45) = x :=
  BitVec.extractLsb'_append_extractLsb'

@[simp] theorem fields_long15 (x : BitVec 40) : (x.extractLsb' 15 25 ++ x.extractLsb' 0 15 : BitVec 40) = x :=
  BitVec.extractLsb'_append_extractLsb'

/-! ### Reading -/

/-- The words, where there are any, are core text that the decoder reads as the instruction, before the checks of `Instr.wf`. -/
def ReadsAs (i : Instr) : List TextWord → Prop
  | [] => True
  | [w] => frameOf w = 3#2 ∧ decodeMajor w = .ok i ∨ ∃ t : BitVec 15, w = 0#15 ++ t ++ 1#2 ∧ decodeSlot t = .ok i
  | [p, w] => frameOf p = 2#2 ∧ frameOf w = 3#2 ∧ decodePrefixed p w = .ok i
  | _ => False

theorem readsAs_base {i : Instr} {w : TextWord} (frame : frameOf w = 3#2) (h : decodeMajor w = .ok i) : ReadsAs i [w] :=
  .inl ⟨frame, h⟩

theorem readsAs_v {fn : BitVec 4} {mj : BitVec 5} {o : VOps} {i : Instr}
    (h : ∀ w, majorOf w = mj → fFn4 w = fn → fV w = o → decodeMajor w = .ok i) : ReadsAs i [vWord fn o mj] := by
  obtain ⟨hf, hm, hfn, ho⟩ := fields_vWord mj fn o
  exact readsAs_base hf (h _ hm hfn ho)

theorem readsAs_slot {y x op : BitVec 5} {i : Instr} (h : ∀ t : BitVec 15, t.extractLsb' 10 5 = y →
    t.extractLsb' 5 5 = x → t.extractLsb' 0 5 = op → decodeSlot t = .ok i) : ReadsAs i [slotWord y x op] := by
  obtain ⟨hy, hx, hop⟩ := eq_append_append_iff.mp (Eq.refl (y ++ x ++ op))
  exact .inr ⟨y ++ x ++ op, slotWord_eq_iff.mpr ⟨hy, hx, hop⟩, h _ hy hx hop⟩

theorem readsAs_queue {q : BitVec 2} {x op : BitVec 5} {i : Instr} (h : ∀ t : BitVec 15,
    (t.extractLsb' 10 5).toNat = q.toNat → t.extractLsb' 10 2 = q → t.extractLsb' 5 5 = x →
      t.extractLsb' 0 5 = op → decodeSlot t = .ok i) :
    ReadsAs i [slotWord (0#3 ++ q) x op] := by
  obtain ⟨value, -, low⟩ := fields_queue q
  refine readsAs_slot fun t hy => h t (hy ▸ value) ?_
  have key := extract_extract t (lo := 10) (k := 5) (lo' := 0) (k' := 2) (by decide)
  rw [hy, low] at key
  exact key.symm

theorem readsAs_prefixed {p w : TextWord} {i : Instr} (hp : frameOf p = 2#2) (hw : frameOf w = 3#2)
    (h : decodePrefixed p w = .ok i) : ReadsAs i [p, w] := ⟨hp, hw, h⟩

/-- Each decoder finds in the word the function and the operands that its format was given. -/
theorem readsAs_encode (i : Instr) (wf : i.wf = true) (core : ¬ isNearBank i) : ReadsAs i (encode i) := by
  cases i with
  | supervisorFunction | nop | exit | brk | trap | eret | yield | wait | fenceSv | fenceVs | fenceVv | fenceAll | adjFwd |
  adjRev | adjOff | zstart | zend =>
    exact readsAs_base (fields_rWord ..).1 (by simp [decodeMajor, decodeSys, bitsAt_fFn10, unusedZero])
  | fshi | add | sub | and | or | xor | sll | srl | sra | slt | sltu | min | max | minu | maxu | mul | mulh | mulhu | div |
  divu | rem | remu | clz | ctz | pop | bext | bexts | bins =>
    exact readsAs_base (fields_rWord ..).1 (by simp [decodeMajor, decodeAlu, bitsAt_fFn10, unusedZero])
  | amoAddW | amoAddD | amoSwpW | amoSwpD | amoCasW | amoCasD | amoAnd | amoOr | amoXor | amoMin | amoMax | amoMinu | amoMaxu =>
    exact readsAs_base (fields_rWord ..).1 (by simp [decodeMajor, decodeAmo, bitsAt_fFn10, fFn5_eq])
  | qpush | qpop | qpeek | qpushb | qcnt | qclr | qpushRel | qpopAcq =>
    exact readsAs_base (fields_rWord ..).1 (by simp [decodeMajor, decodeQop, withQueue, bitsAt_fB, unusedZero])
  | sload | slin | sbit | sdrop | spos =>
    exact readsAs_base (fields_rWord ..).1
      (by simp [decodeMajor, decodeSset, withStream, bitsAt_fD, bitsAt_fFn10, fFn5_eq, unusedZero])
  | fadd | fsub | fmul | fdiv | fsqrt | frsq | fma | fmin | fmax | fcvt | feq | flt | fle | fclass | fcvti =>
    exact readsAs_base (fields_rWord ..).1 (by simp [decodeMajor, decodeFps, bitsAt_fB, bitsAt_fFn10, fFn5_eq, unusedZero])
  | vsetl | vsetg | vsetf | vsetst | vclr | vgetf | adjld | adjst | tmark | trew | cwait | csig | gbar | garr | gwait =>
    exact readsAs_base (fields_rWord ..).1 (by simp [decodeMajor, decodeVcfg, decodeAdj, decodeEng, decodeGsync, unusedZero])
  | addi | andi | ori | xori | slti | sltui | slli | srai | srli =>
    exact readsAs_base (fields_i12Word ..).1 (by simp [decodeMajor, decodeAlui, bitsAt_fImm12, unusedZero])
  | lb | lh | lw | ld | lbu | lhu | lwu | ldAcq =>
    exact readsAs_base (fields_i12Word ..).1 (by simp [decodeMajor, decodeLd, bitsAt_fImm12])
  | sb | sh | sw | sd | sdRel =>
    exact readsAs_base (fields_s12Word ..).1 (by simp [decodeMajor, decodeSt, bitsAt_fImmS])
  | beqz | bnez | bltz | bgez | bgtz | blez | bqt | bqf | getc | setc | jalr =>
    exact readsAs_base (fields_i15Word ..).1 (by simp [decodeMajor, decodeBr, unusedZero])
  | ldhi | adpc | jal =>
    exact readsAs_base (fields_uWord ..).1 (by simp [decodeMajor])
  | vadd | vsub | vmul | vmulh | vmac | vand | vor | vxor | vsll | vsrl | vsra | vmin | vmax | vminu | vmaxu | vsel =>
    exact readsAs_v fun w hm hfn ho => by rw [decodeMajor, hm]; change decodeVia w = _; rw [decodeVia, hfn, ho]; rfl
  | vadds | vsubs | vaddsu | vsubsu | vdiv | vrem | vdivu | vremu | vabs | vclz | vpop | vwmul | vwmac | vbext | vmov =>
    exact readsAs_v fun w hm hfn ho => by rw [decodeMajor, hm]; change decodeVib w = _; rw [decodeVib, hfn, ho]; rfl
  | vmeq | vmne | vmlt | vmle | vmltu | vmleu | vmfeq | vmflt | vmfle | vmfun | vmfin | vmand | vmor | vmxor | vmandn =>
    exact readsAs_v fun w hm hfn ho => by rw [decodeMajor, hm]; change decodeVcmp w = _; rw [decodeVcmp, hfn, ho]; rfl
  | vfadd | vfsub | vfmul | vfdiv | vfmac | vfnmac | vfmin | vfmax | vfsqrt | vfrsq | vfrcp | vfabs | vfneg | vfcvt =>
    exact readsAs_v fun w hm hfn ho => by rw [decodeMajor, hm]; change decodeVfp w = _; rw [decodeVfp, hfn, ho]; rfl
  | vdec | venc | vbnd | vcnt | vtier | vbits | vskip | vcat | vbget | vpack | vexpand | vrepack =>
    exact readsAs_v fun w hm hfn ho => by rw [decodeMajor, hm]; change decodeVcode w = _; rw [decodeVcode, hfn, ho]; rfl
  | vredsum | vredmin | vredmax | vredand | vredor | vredxor | vfredsum | vfredmin | vfredmax | vfredsq | vscan | vfscan |
  vfirst | vmcnt | viota | vid =>
    exact readsAs_v fun w hm hfn ho => by rw [decodeMajor, hm]; change decodeVred w = _; rw [decodeVred, hfn, ho]; rfl
  | vslidedn | vslideup | vgatherv | vbcast | vext | vins | vzip | vunzip | vrev | vbrk | vbrkb | vbput =>
    exact readsAs_v fun w hm hfn ho => by rw [decodeMajor, hm]; change decodeVperm w = _; rw [decodeVperm, hfn, ho]; rfl
  | vld | vst | vldff | vldx | vstx | vldw | vspill | vfill | snext =>
    exact readsAs_v fun w hm hfn ho => by rw [decodeMajor, hm]; change decodeVmem w = _; rw [decodeVmem, hfn, ho]; rfl
  | vamoadd | vamomin | vamomax | vamoand | vamoor | vamoxor | vamoswp | vfamoadd | wopen | wadd | wfadd | wmerge | wclose =>
    exact readsAs_v fun w hm hfn ho => by rw [decodeMajor, hm]; change decodeVatom w = _; rw [decodeVatom, hfn, ho]; rfl
  | zzero | zmma | zop | zdr | zacc =>
    exact readsAs_v fun w hm hfn ho => by rw [decodeMajor, hm]; change decodeZmx w = _; rw [decodeZmx, hfn, ho]; rfl
  | addiLong | andiLong | oriLong | xoriLong | sltiLong | sltuiLong | lbLong | lhLong | lwLong | ldLong | lbuLong | lhuLong |
  lwuLong =>
    exact readsAs_prefixed (fields_prefixWord ..).1 (fields_i12Word ..).1
      (by simp [decodePrefixed, decodeLongPrefix, checkWf, wf])
  | sbLong | shLong | swLong | sdLong =>
    exact readsAs_prefixed (fields_prefixWord ..).1 (fields_s12Word ..).1
      (by simp [decodePrefixed, decodeLongPrefix, checkWf, wf])
  | ldhiLong | adpcLong =>
    exact readsAs_prefixed (fields_prefixWord ..).1 (fields_uWord ..).1
      (by simp [decodePrefixed, decodeLongPrefix, checkWf, wf])
  | jalrLong =>
    exact readsAs_prefixed (fields_prefixWord ..).1 (fields_i15Word ..).1
      (by simp [decodePrefixed, decodeLongPrefix, checkWf, wf])
  | vld2 | vstp =>
    exact readsAs_prefixed (fields_prefixWord ..).1 (fields_vWord ..).1
      (by simp [decodePrefixed, decodeVmemPrefix, bitsAt_prefixWord, unusedZero, checkWf, wf])
  | zld | zst =>
    exact readsAs_prefixed (fields_prefixWord ..).1 (fields_vWord ..).1
      (by simp [decodePrefixed, matrixWord_eq, decodeMatrixPrefix, fFn4, bitsAt_prefixWord,
        bitsAt_fFn10 (w := rWord _ _ _ _ _), checkWf, wf])
  | cpy | coll | nbe | launch =>
    exact readsAs_prefixed (fields_prefixWord ..).1 (fields_rWord ..).1
      (by simp [-BitVec.reduceAppend, decodePrefixed, decodeEnginePrefix, bitsAt_prefixWord, unusedZero, checkWf, wf])
  | cNop | cMov | cAddi | cAdd | cSub | cAnd | cSlli | cLd | cSd | cBnez =>
    exact readsAs_slot fun t hy hx hop => by simp [decodeSlot, hy, hx, hop, unusedZero]
  | cQpush x q | cQpop x q =>
    have le : q.toNat ≤ 2 := of_decide_eq_true wf
    exact readsAs_queue fun t hy hq hx hop => by simp [decodeSlot, hy, hq, hx, hop, le]
  | cJ =>
    exact readsAs_slot fun t hy hx hop => by simp [decodeSlot, hy, hx, hop]
  | nset | naddImm | naddReg | nloop | nact | nrd | ndec | nldx | nmac | nred | nst | nsig | nwait | nbar | ncvt | nend |
  nnop =>
    exact absurd trivial core
  | _ => trivial

@[simp] theorem fields_nbeWord (imm : BitVec 13) (fmt : BitVec 5) (z y x : BitVec 3) (k : Bool) (op : BitVec 4) :
    bitsAt (nbeWord imm fmt z y x k op) 0 4 = op ∧ (bitsAt (nbeWord imm fmt z y x k op) 4 1 == 1#1) = k ∧
    bitsAt (nbeWord imm fmt z y x k op) 5 3 = x ∧ bitsAt (nbeWord imm fmt z y x k op) 8 3 = y ∧
    bitsAt (nbeWord imm fmt z y x k op) 11 3 = z ∧ bitsAt (nbeWord imm fmt z y x k op) 14 5 = fmt ∧
    bitsAt (nbeWord imm fmt z y x k op) 19 13 = imm := by
  simpa only [BitVec.toNat_inj] using nbeWord_eq_iff.mp rfl

theorem decodeNbeOp_encode (i : Instr) (bank : isNearBank i) : ∃ w, encode i = [w] ∧ decodeNbeOp w = .ok i := by
  cases i with
  | nset k x imm =>
    obtain ⟨op, hk, hx, himm⟩ := nsetWord_eq_iff.mp (Eq.refl (imm ++ x ++ BitVec.ofBool k ++ 0#4 : TextWord))
    refine ⟨_, rfl, ?_⟩
    simp only [decodeNbeOp, op, hk, hx, himm]
    rfl
  | naddImm | naddReg | nloop | nact | nrd | ndec | nldx | nmac | nred | nst | nsig | nwait | nbar | ncvt | nend | nnop =>
    exact ⟨_, rfl, by simp [decodeNbeOp, unusedZero]⟩
  | _ => cases bank

end Sys2Proof
end

section
/-! What decodes is what `encode` writes (09 R181 to R203, 15 R351): decoder by decoder, the fields that were read are those of
the instruction's own word. -/

namespace Sys2Proof

open Sys2Proof.Claims (isNearBank)

/-! ### What a decoder yields -/

/-- Whatever instruction a decoder gives has the property. -/
def Yields (r : Except DecodeError Instr) (P : Instr → Prop) : Prop := ∀ i, r = .ok i → P i

section Yields
variable {P : Instr → Prop} {i : Instr} {w : TextWord}

@[simp] theorem yields_ok : Yields (.ok i) P ↔ P i := by simp [Yields]

@[simp] theorem yields_error (e : DecodeError) : Yields (.error e) P := by simp [Yields]

@[simp] theorem yields_unusedZero {z : Bool} : Yields (unusedZero z i) P ↔ (z = true → P i) := by
  cases z <;> simp [unusedZero]

@[simp] theorem yields_withQueue {f : BitVec 2 → Except DecodeError Instr} :
    Yields (withQueue w f) P ↔ ((fB w).toNat < 4 → Yields (f (bitsAt w 17 2)) P) := by
  unfold withQueue
  split <;> simp [*]

@[simp] theorem yields_withStream {f : BitVec 4 → Except DecodeError Instr} :
    Yields (withStream w f) P ↔ ((fD w).toNat < 16 → Yields (f (bitsAt w 7 4)) P) := by
  unfold withStream
  split <;> simp [*]

theorem yields_checkWf {r : Except DecodeError Instr} (h : Yields r P) :
    Yields (checkWf r) fun i => i.wf = true ∧ P i := by
  unfold checkWf
  split
  · split
    · exact yields_ok.mpr ⟨‹_›, yields_ok.mp h⟩
    · exact yields_error _
  · exact yields_error _

@[simp] theorem yields_ite {c : Prop} [Decidable c] {r r' : Except DecodeError Instr} :
    Yields (if c then r else r') P ↔ (c → Yields r P) ∧ (¬ c → Yields r' P) := by
  split <;> simp [*]

end Yields

/-! ### Base words -/

/-- The words are core text for the instruction. -/
def IsText (l : List TextWord) (i : Instr) : Prop := ¬ isNearBank i ∧ encode i = l

theorem isText_of {i : Instr} {v w : TextWord} (core : ¬ isNearBank i) (h : encode i = [v]) (e : v = w) :
    IsText [w] i := ⟨core, h.trans (by rw [e])⟩

section Base
variable {w : TextWord} (frame : frameOf w = 3#2)
include frame

theorem yields_sys (mj : (majorOf w).toNat = 0) : Yields (decodeSys w) (IsText [w]) := by
  unfold decodeSys
  split
  · exact yields_ok.mpr (isText_of id rfl (rWord_5_5_eq_iff.mpr ⟨frame, mj, beq_iff_eq.mp ‹_›, rfl, rfl, rfl, rfl⟩))
  · split <;> simp only [yields_error, yields_unusedZero, zA_eq, zB_eq, zD_eq, beq_iff_eq, Bool.and_eq_true] <;> intros <;>
      exact isText_of id rfl (rWord_eq_iff.mpr (by simp [*]))

theorem yields_alu (mj : (majorOf w).toNat = 3) : Yields (decodeAlu w) (IsText [w]) := by
  unfold decodeAlu
  split
  · exact yields_ok.mpr (isText_of id rfl (rWord_4_6_eq_iff.mpr (by simp_all)))
  · split <;> simp only [yields_ok, yields_error, yields_unusedZero, zB_eq, beq_iff_eq] <;> intros <;>
      exact isText_of id rfl (rWord_eq_iff.mpr (by simp [*]))

theorem yields_br (mj : (majorOf w).toNat = 7) : Yields (decodeBr w) (IsText [w]) := by
  unfold decodeBr
  split <;> simp only [yields_ok, yields_error, yields_unusedZero, zA_eq, beq_iff_eq] <;> intros <;>
      exact isText_of id rfl (i15Word_eq_iff.mpr (by simp [*, ← BitVec.toNat_inj]))

theorem yields_amo (mj : (majorOf w).toNat = 12) : Yields (decodeAmo w) (IsText [w]) := by
  unfold decodeAmo
  split <;> simp only [yields_ok, yields_error] <;> exact isText_of id rfl (rWord_2_3_5_eq_iff.mpr (by simp [*]))

theorem yields_qop (mj : (majorOf w).toNat = 13) : Yields (decodeQop w) (IsText [w]) := by
  unfold decodeQop
  split
  case h_4 fn =>
    simp only [yields_ite, yields_error, yields_unusedZero, zD_eq, beq_iff_eq]
    exact ⟨fun b d => isText_of id rfl (rWord_eq_iff.mpr (by simp [*, ← BitVec.toNat_inj])), fun _ => trivial⟩
  all_goals simp only [yields_error, yields_withQueue, yields_unusedZero, zA_eq, zD_eq, beq_iff_eq, Bool.and_eq_true]
  all_goals intro q z
  all_goals exact isText_of id rfl (rWord_eq_iff.mpr (by simp [*, fB_queue]))

theorem yields_sset (mj : (majorOf w).toNat = 14) : Yields (decodeSset w) (IsText [w]) := by
  unfold decodeSset
  split <;> simp only [yields_ok, yields_error, yields_withStream, yields_unusedZero, zA_eq, zB_eq, beq_iff_eq, Bool.and_eq_true]
  case h_2 | h_3 => exact fun st => isText_of id rfl (rWord_5_5_eq_iff.mpr (by simp [*, fD_stream]))
  all_goals exact fun st z => isText_of id rfl (rWord_eq_iff.mpr (by simp [*, fD_stream, fFn10_of_fFn5]))

theorem yields_alui (mj : (majorOf w).toNat = 4) : Yields (decodeAlui w) (IsText [w]) := by
  unfold decodeAlui
  split <;> simp only [yields_ok, yields_ite, yields_unusedZero, beq_iff_eq]
  case h_7 => exact fun z => isText_of id rfl (i12Word_eq_iff.mpr ⟨frame, mj, ‹_›, fImm12_shift z, rfl, rfl⟩)
  case h_8 =>
    have last : (fFn3 w).toNat = 7 := by
      have := (fFn3 w).isLt
      simp only [imp_false] at *
      omega
    have kind : bitsAt w 27 5 ++ bitsAt w 26 1 = bitsAt w 26 6 := bitsAt_append w 5 rfl
    constructor <;> intro arith zero <;>
      refine isText_of id rfl (i12Word_eq_iff.mpr ⟨frame, mj, last, fImm12_shift ?_, rfl, rfl⟩)
    · rw [← kind, zero, arith]
      rfl
    · rw [← kind, zero, (BitVec.eq_zero_or_eq_one _).resolve_right arith]
      rfl
  all_goals exact isText_of id rfl (i12Word_eq_iff.mpr ⟨frame, mj, ‹_›, rfl, rfl, rfl⟩)

theorem yields_ld (mj : (majorOf w).toNat = 10) : Yields (decodeLd w) (IsText [w]) := by
  unfold decodeLd
  split
  case h_8 =>
    have last : (fFn3 w).toNat = 7 := by
      have := (fFn3 w).isLt
      simp only [imp_false] at *
      omega
    have parts : fImm12 w = bitsAt w 23 9 ++ bitsAt w 20 3 :=
      (bitsAt_append w (hi := 23) (lo := 20) (m := 3) 9 rfl).symm
    exact yields_ok.mpr (isText_of id rfl (i12Word_eq_iff.mpr ⟨frame, mj, last, parts, rfl, rfl⟩))
  all_goals exact yields_ok.mpr (isText_of id rfl (i12Word_eq_iff.mpr ⟨frame, mj, ‹_›, rfl, rfl, rfl⟩))

theorem yields_st (mj : (majorOf w).toNat = 11) : Yields (decodeSt w) (IsText [w]) := by
  unfold decodeSt
  split <;> simp only [yields_ok, yields_error]
  case h_5 => exact (isText_of id rfl (s12Word_eq_iff.mpr ⟨frame, mj, ‹_›, fImmS_scope w, rfl, rfl⟩))
  all_goals exact (isText_of id rfl (s12Word_eq_iff.mpr (by simp [*])))

theorem yields_fps (mj : (majorOf w).toNat = 15) : Yields (decodeFps w) (IsText [w]) := by
  unfold decodeFps
  split <;> simp only [yields_ok, yields_error, yields_ite, yields_unusedZero, zB_eq, beq_iff_eq, Bool.and_eq_true,
    implies_true, and_true] <;> intros <;>
    exact isText_of id rfl (rWord_3_2_5_eq_iff.mpr (by simp [*, fB_type]))

theorem yields_vcfg (mj : (majorOf w).toNat = 16) : Yields (decodeVcfg w) (IsText [w]) := by
  unfold decodeVcfg
  split <;> simp only [yields_error, yields_unusedZero, zA_eq, zB_eq, zD_eq, beq_iff_eq, Bool.and_eq_true] <;> intros <;>
    exact isText_of id rfl (rWord_eq_iff.mpr (by simp [*]))

theorem yields_adj (mj : (majorOf w).toNat = 27) : Yields (decodeAdj w) (IsText [w]) := by
  unfold decodeAdj
  split <;> simp only [yields_error, yields_unusedZero, zB_eq, zD_eq, beq_iff_eq, Bool.and_eq_true] <;> intros <;>
    exact isText_of id rfl (rWord_eq_iff.mpr (by simp [*]))

theorem yields_eng (mj : (majorOf w).toNat = 28) : Yields (decodeEng w) (IsText [w]) := by
  unfold decodeEng
  split <;> simp only [yields_ok, yields_error, yields_unusedZero, zD_eq, beq_iff_eq] <;> intros <;>
    exact isText_of id rfl (rWord_eq_iff.mpr (by simp [*]))

theorem yields_gsync (mj : (majorOf w).toNat = 29) : Yields (decodeGsync w) (IsText [w]) := by
  unfold decodeGsync
  split <;> simp only [yields_error, yields_unusedZero, zA_eq, zB_eq, zD_eq, beq_iff_eq, Bool.and_eq_true] <;> intros <;>
    exact isText_of id rfl (rWord_eq_iff.mpr (by simp [*]))

theorem yields_via (mj : (majorOf w).toNat = 17) : Yields (decodeVia w) (IsText [w]) := by
  unfold decodeVia
  split
  case h_16 =>
    have last : (fFn4 w).toNat = 15 := by
      have := (fFn4 w).isLt
      simp only [imp_false] at *
      omega
    exact yields_ok.mpr (isText_of id rfl (vWord_eq_iff.mpr ⟨frame, mj, last, rfl⟩))
  all_goals exact yields_ok.mpr (isText_of id rfl (vWord_eq_iff.mpr ⟨frame, mj, ‹_›, rfl⟩))

theorem yields_vib (mj : (majorOf w).toNat = 18) : Yields (decodeVib w) (IsText [w]) := by
  unfold decodeVib
  split <;> simp only [yields_ok, yields_error] <;> exact isText_of id rfl (vWord_eq_iff.mpr ⟨frame, mj, ‹_›, rfl⟩)

theorem yields_vcmp (mj : (majorOf w).toNat = 19) : Yields (decodeVcmp w) (IsText [w]) := by
  unfold decodeVcmp
  split <;> simp only [yields_ok, yields_error] <;> exact isText_of id rfl (vWord_eq_iff.mpr ⟨frame, mj, ‹_›, rfl⟩)

theorem yields_vfp (mj : (majorOf w).toNat = 20) : Yields (decodeVfp w) (IsText [w]) := by
  unfold decodeVfp
  split <;> simp only [yields_ok, yields_error] <;> exact isText_of id rfl (vWord_eq_iff.mpr ⟨frame, mj, ‹_›, rfl⟩)

theorem yields_vcode (mj : (majorOf w).toNat = 21) : Yields (decodeVcode w) (IsText [w]) := by
  unfold decodeVcode
  split <;> simp only [yields_ok, yields_error] <;> exact isText_of id rfl (vWord_eq_iff.mpr ⟨frame, mj, ‹_›, rfl⟩)

theorem yields_vperm (mj : (majorOf w).toNat = 23) : Yields (decodeVperm w) (IsText [w]) := by
  unfold decodeVperm
  split <;> simp only [yields_ok, yields_error] <;> exact isText_of id rfl (vWord_eq_iff.mpr ⟨frame, mj, ‹_›, rfl⟩)

theorem yields_vmem (mj : (majorOf w).toNat = 24) : Yields (decodeVmem w) (IsText [w]) := by
  unfold decodeVmem
  split <;> simp only [yields_ok, yields_error] <;> exact isText_of id rfl (vWord_eq_iff.mpr ⟨frame, mj, ‹_›, rfl⟩)

theorem yields_vatom (mj : (majorOf w).toNat = 25) : Yields (decodeVatom w) (IsText [w]) := by
  unfold decodeVatom
  split <;> simp only [yields_ok, yields_error] <;> exact isText_of id rfl (vWord_eq_iff.mpr ⟨frame, mj, ‹_›, rfl⟩)

theorem yields_zmx (mj : (majorOf w).toNat = 26) : Yields (decodeZmx w) (IsText [w]) := by
  unfold decodeZmx
  split <;> simp only [yields_ok, yields_error] <;> exact isText_of id rfl (vWord_eq_iff.mpr ⟨frame, mj, ‹_›, rfl⟩)

theorem yields_vred (mj : (majorOf w).toNat = 22) : Yields (decodeVred w) (IsText [w]) := by
  unfold decodeVred
  split
  case h_16 =>
    have last : (fFn4 w).toNat = 15 := by
      have := (fFn4 w).isLt
      simp only [imp_false] at *
      omega
    exact yields_ok.mpr (isText_of id rfl (vWord_eq_iff.mpr ⟨frame, mj, last, rfl⟩))
  all_goals exact yields_ok.mpr (isText_of id rfl (vWord_eq_iff.mpr ⟨frame, mj, ‹_›, rfl⟩))

theorem yields_major : Yields (decodeMajor w) (IsText [w]) := by
  unfold decodeMajor
  split
  case h_1 mj => exact yields_sys frame mj
  case h_2 mj =>
    simp only [yields_unusedZero, zA_eq, beq_iff_eq]
    exact fun z => isText_of id rfl (i15Word_eq_iff.mpr ⟨frame, mj, rfl, z, rfl⟩)
  case h_3 mj =>
    simp only [yields_unusedZero, zD_eq, beq_iff_eq]
    exact fun z => isText_of id rfl (i15Word_eq_iff.mpr ⟨frame, mj, rfl, rfl, z⟩)
  case h_4 mj => exact yields_alu frame mj
  case h_5 mj => exact yields_alui frame mj
  case h_6 mj | h_7 mj | h_9 mj => exact yields_ok.mpr (isText_of id rfl (uWord_eq_iff.mpr ⟨frame, mj, rfl, rfl⟩))
  case h_8 mj => exact yields_br frame mj
  case h_10 mj => exact yields_ok.mpr (isText_of id rfl (i15Word_eq_iff.mpr ⟨frame, mj, rfl, rfl, rfl⟩))
  case h_11 mj => exact yields_ld frame mj
  case h_12 mj => exact yields_st frame mj
  case h_13 mj => exact yields_amo frame mj
  case h_14 mj => exact yields_qop frame mj
  case h_15 mj => exact yields_sset frame mj
  case h_16 mj => exact yields_fps frame mj
  case h_17 mj => exact yields_vcfg frame mj
  case h_18 mj => exact yields_via frame mj
  case h_19 mj => exact yields_vib frame mj
  case h_20 mj => exact yields_vcmp frame mj
  case h_21 mj => exact yields_vfp frame mj
  case h_22 mj => exact yields_vcode frame mj
  case h_23 mj => exact yields_vred frame mj
  case h_24 mj => exact yields_vperm frame mj
  case h_25 mj => exact yields_vmem frame mj
  case h_26 mj => exact yields_vatom frame mj
  case h_27 mj => exact yields_zmx frame mj
  case h_28 mj => exact yields_adj frame mj
  case h_29 mj => exact yields_eng frame mj
  case h_30 mj => exact yields_gsync frame mj
  case h_31 => exact yields_error _

end Base

/-! ### Prefixed words (09 R192 to R196) -/

section Prefix
variable {p w : TextWord} (fp : frameOf p = 2#2)
include fp

theorem isText_prefixed {i : Instr} {pl : BitVec 25} {pm : BitVec 5} {v : TextWord} (core : ¬ isNearBank i)
    (h : encode i = [prefixWord pl pm, v]) (hm : (majorOf p).toNat = pm.toNat) (hp : payload p = pl)
    (hv : v = w) : IsText [p, w] i := by
  rw [prefixWord_eq_iff.mpr ⟨fp, hm, hp⟩, hv] at h
  exact ⟨core, h⟩

variable (fw : frameOf w = 3#2)
include fw

theorem yields_longPrefix (pm : (majorOf p).toNat = 3) : Yields (decodeLongPrefix p w) (IsText [p, w]) := by
  unfold decodeLongPrefix
  split
  case h_1 mj | h_5 mj =>
    split <;> simp only [yields_ok, yields_error] <;>
      exact isText_prefixed fp id rfl pm (fields_append _ _).1.symm
        (i12Word_eq_iff.mpr ⟨fw, mj, ‹_›, (fields_append (payload p) _).2.symm, rfl, rfl⟩)
  case h_2 mj | h_3 mj =>
    exact yields_ok.mpr (isText_prefixed fp id rfl pm (fields_append _ _).1.symm
        (uWord_eq_iff.mpr ⟨fw, mj, (fields_append (payload p) _).2.symm, rfl⟩))
  case h_4 mj =>
    exact yields_ok.mpr (isText_prefixed fp id rfl pm (fields_append _ _).1.symm
        (i15Word_eq_iff.mpr ⟨fw, mj, (fields_append (payload p) _).2.symm, rfl, rfl⟩))
  case h_6 mj =>
    split <;> simp only [yields_ok, yields_error] <;>
      exact isText_prefixed fp id rfl pm (fields_append _ _).1.symm
        (s12Word_eq_iff.mpr ⟨fw, mj, ‹_›, (fields_append (payload p) _).2.symm, rfl, rfl⟩)
  case h_7 => exact yields_error _

theorem yields_matrixPrefix (pm : (majorOf p).toNat = 0) : Yields (decodeMatrixPrefix p w) (IsText [p, w]) := by
  refine yields_ite.mpr ⟨fun _ => yields_error _, fun hw => yields_ite.mpr ⟨fun _ => yields_error _, fun z => ?_⟩⟩
  simp only [Bool.or_eq_true, bne_iff_ne, ne_eq, not_or, not_not] at hw z
  obtain ⟨mj, fn⟩ := hw
  obtain ⟨⟨⟨⟨rest, d⟩, m⟩, c⟩, bs⟩ := z
  have parts : bitsAt p 23 9 ++ bitsAt p 17 6 ++ bitsAt p 11 6 ++ bitsAt p 9 2 ++ bitsAt p 7 2 = payload p := by
    iterate 4 rw [bitsAt_append p _ (by rfl)]
    rfl
  have fn10 : fFn4 w ++ bitsAt w 27 1 ++ bitsAt w 25 2 ++ bitsAt w 22 3 = fFn10 w := by
    unfold fFn4
    iterate 3 rw [bitsAt_append w _ (by rfl)]
    rfl
  have word : vWord 15#4 ⟨true, false, false, 0#3, fB w, fA w, 0#5⟩ 26#5 = w := by
    rw [matrixWord_eq]
    refine rWord_eq_iff.mpr ⟨fw, congrArg _ mj, ?_, rfl, rfl, d⟩
    rw [← fn10, fn, bs, c, m]
    rfl
  have pl : ∀ k, bitsAt p 7 2 = k → payload p = 0#9 ++ bitsAt p 17 6 ++ bitsAt p 11 6 ++ bitsAt p 9 2 ++ k :=
    fun k kind => by rw [← parts, rest, kind]
  split
  case h_1 kind => exact yields_ok.mpr (isText_prefixed fp id rfl pm (pl _ (BitVec.eq_of_toNat_eq kind)) word)
  case h_2 kind => exact yields_ok.mpr (isText_prefixed fp id rfl pm (pl _ (BitVec.eq_of_toNat_eq kind)) word)
  case h_3 => exact yields_error _

theorem yields_enginePrefix (pm : (majorOf p).toNat = 1) : Yields (decodeEnginePrefix p w) (IsText [p, w]) := by
  refine yields_ite.mpr ⟨fun _ => yields_error _, fun hw => ?_⟩
  simp only [bne_iff_ne, ne_eq, not_not] at hw
  have mj : (majorOf w).toNat = 28 := congrArg _ hw
  have parts : bitsAt p 20 12 ++ bitsAt p 12 8 ++ bitsAt p 7 5 = payload p := by
    iterate 2 rw [bitsAt_append p _ (by rfl)]
    rfl
  have pl : ∀ k, bitsAt p 20 12 = 0#12 → bitsAt p 12 8 = k → payload p = 0#12 ++ k ++ bitsAt p 7 5 :=
    fun k rest id => by rw [← parts, rest, id]
  split <;> simp only [yields_error, yields_unusedZero, zB_eq, zD_eq, Bool.and_eq_true, beq_iff_eq]
  case h_1 fn =>
    exact fun ⟨⟨⟨rest, d⟩, imm⟩, b⟩ =>
      isText_prefixed fp id rfl pm (pl _ rest imm) (rWord_eq_iff.mpr ⟨fw, mj, fn, b, rfl, d⟩)
  case h_3 fn =>
    exact fun ⟨rest, d⟩ => isText_prefixed fp id rfl pm (pl _ rest rfl) (rWord_eq_iff.mpr ⟨fw, mj, fn, rfl, rfl, d⟩)
  case h_2 fn | h_4 fn =>
    exact fun ⟨⟨rest, d⟩, b⟩ =>
      isText_prefixed fp id rfl pm (pl _ rest rfl) (rWord_eq_iff.mpr ⟨fw, mj, fn, b, rfl, d⟩)

theorem yields_vmemPrefix (pm : (majorOf p).toNat = 2) : Yields (decodeVmemPrefix p w) (IsText [p, w]) := by
  refine yields_ite.mpr ⟨fun _ => yields_error _, fun hw => yields_ite.mpr ⟨fun _ => yields_error _, fun rest => ?_⟩⟩
  simp only [Bool.or_eq_true, bne_iff_ne, ne_eq, not_or, not_not] at hw rest
  obtain ⟨mj, fn⟩ := hw
  have word : vWord 9#4 (fV w) 24#5 = w := vWord_eq_iff.mpr ⟨fw, congrArg _ mj, congrArg _ fn, rfl⟩
  have parts : bitsAt p 18 14 ++ bitsAt p 13 5 ++ bitsAt p 9 4 ++ bitsAt p 7 2 = payload p := by
    iterate 3 rw [bitsAt_append p _ (by rfl)]
    rfl
  have pl : ∀ x k, bitsAt p 9 4 = x → bitsAt p 7 2 = k → payload p = 0#14 ++ bitsAt p 13 5 ++ x ++ k :=
    fun x k second kind => by rw [← parts, rest, second, kind]
  split
  case h_1 kind =>
    exact yields_unusedZero.mpr fun z =>
      isText_prefixed fp id rfl pm (pl _ _ (beq_iff_eq.mp z) (BitVec.eq_of_toNat_eq kind)) word
  case h_2 kind => exact yields_ok.mpr (isText_prefixed fp id rfl pm (pl _ _ rfl (BitVec.eq_of_toNat_eq kind)) word)
  case h_3 => exact yields_error _

end Prefix

theorem yields_prefixed {p w : TextWord} (fp : frameOf p = 2#2) :
    Yields (decodePrefixed p w) fun i => i.wf = true ∧ IsText [p, w] i := by
  refine yields_ite.mpr ⟨fun _ => yields_error _, fun h => ?_⟩
  have fw : frameOf w = 3#2 := by simpa using h
  split
  case h_1 pm => exact yields_checkWf (yields_matrixPrefix fp fw pm)
  case h_2 pm => exact yields_checkWf (yields_enginePrefix fp fw pm)
  case h_3 pm => exact yields_checkWf (yields_vmemPrefix fp fw pm)
  case h_4 pm => exact yields_checkWf (yields_longPrefix fp fw pm)
  case h_5 => exact yields_error _

/-! ### Slots and near-bank words -/

/-- The 15 bits of a slot are those of the instruction. -/
def IsSlot (t : BitVec 15) (i : Instr) : Prop := i.wf = true ∧ ¬ isNearBank i ∧ encode i = [0#15 ++ t ++ 1#2]

theorem isSlot_of {t : BitVec 15} {i : Instr} {y x op : BitVec 5} (wf : i.wf = true) (core : ¬ isNearBank i)
    (h : encode i = [slotWord y x op]) (hop : (t.extractLsb' 0 5).toNat = op.toNat) (hx : t.extractLsb' 5 5 = x)
    (hy : t.extractLsb' 10 5 = y) : IsSlot t i :=
  ⟨wf, core, h.trans (congrArg (fun v => [v]) (slotWord_eq_iff.mpr ⟨hy, hx, BitVec.eq_of_toNat_eq hop⟩))⟩

theorem yields_slot (t : BitVec 15) : Yields (decodeSlot t) (IsSlot t) := by
  unfold decodeSlot
  extract_lets x y queue
  have yields_queue : ∀ f : BitVec 2 → Instr, (∀ q : BitVec 2, q.toNat ≤ 2 → y = 0#3 ++ q → IsSlot t (f q)) →
      Yields (queue f) (IsSlot t) := by
    refine fun f h => yields_ite.mpr ⟨fun le => yields_ok.mpr (h _ ?_ ?_), fun _ => yields_error _⟩
    all_goals rw [← Nat.add_zero 10, ← extract_extract t (lo := 10) (k := 5) (lo' := 0) (k' := 2) (by decide)]
    · rw [← (fields_queue _).1, queue_eq (Nat.lt_succ_of_le (Nat.le_succ_of_le le))]
      exact le
    · exact (queue_eq (Nat.lt_succ_of_le (Nat.le_succ_of_le le))).symm
  split
  case h_1 op =>
    simp only [yields_unusedZero, Bool.and_eq_true, beq_iff_eq]
    exact fun ⟨hx, hy⟩ => isSlot_of rfl id rfl op hx hy
  case h_10 op => exact yields_queue _ fun q le hy => isSlot_of (decide_eq_true le) id rfl op rfl hy
  case h_11 op => exact yields_queue _ fun q le hy => isSlot_of (decide_eq_true le) id rfl op rfl hy
  case h_13 op => exact yields_ok.mpr (isSlot_of rfl id rfl op (fields_append _ _).2.symm (fields_append _ _).1.symm)
  case h_14 => exact yields_error _
  all_goals exact yields_ok.mpr (isSlot_of rfl id rfl ‹_› rfl rfl)

/-- The near-bank word is that of the instruction. -/
def IsBank (w : TextWord) (i : Instr) : Prop := isNearBank i ∧ encode i = [w]

theorem isBank_of {i : Instr} {v w : TextWord} (bank : isNearBank i) (h : encode i = [v]) (e : v = w) : IsBank w i :=
  ⟨bank, h.trans (by rw [e])⟩

theorem yields_nbe (w : TextWord) : Yields (decodeNbeOp w) (IsBank w) := by
  unfold decodeNbeOp
  split
  case h_1 op => exact yields_ok.mpr (isBank_of trivial rfl (nsetWord_eq_iff.mpr ⟨op, rfl, rfl, rfl⟩))
  case h_2 op =>
    simp only [yields_ite, yields_unusedZero, Bool.and_eq_true, beq_iff_eq]
    exact ⟨fun z i => isBank_of trivial rfl (nbeWord_eq_iff.mpr (by simp [*])),
      fun z i => isBank_of trivial rfl (nbeWord_eq_iff.mpr (by simp [*]))⟩
  case h_16 =>
    have last : (bitsAt w 0 4).toNat = 15 := by
      have := (bitsAt w 0 4).isLt
      simp only [imp_false] at *
      omega
    simp only [yields_unusedZero, Bool.and_eq_true, beq_iff_eq, Bool.not_eq_true', beq_eq_false_iff_ne]
    exact fun z => isBank_of trivial rfl (nbeWord_eq_iff.mpr (by simp_all))
  all_goals
    simp only [yields_unusedZero, Bool.and_eq_true, beq_iff_eq, Bool.not_eq_true', beq_eq_false_iff_ne]
    exact fun z => isBank_of trivial rfl (nbeWord_eq_iff.mpr (by simp_all))

/-! ### Words of text -/

theorem map_eq_ok {r : Except DecodeError Instr} {i : Instr} {k n : Nat} :
    r.map (·, k) = .ok (i, n) ↔ r = .ok i ∧ k = n := by
  cases r <;> simp [Except.map]

theorem checkWf_eq_ok {r : Except DecodeError Instr} {i : Instr} (h : r = .ok i) (wf : i.wf = true) : checkWf r = .ok i := by
  simp [h, checkWf, wf]

theorem toNat_mod_four (w : TextWord) : w.toNat % 4 = (frameOf w).toNat := by
  simp [frameOf]

theorem decodeWords_slot {w : TextWord} (f : frameOf w = 1#2) (next slot1) :
    decodeWords w next slot1 = (decodeSlot (slotOf w slot1)).map (·, 2) := by
  unfold decodeWords
  rw [f]
  rfl

theorem decodeWords_prefix {p b : TextWord} (f : frameOf p = 2#2) (slot1) :
    decodeWords p (some b) slot1 = (decodePrefixed p b).map (·, 8) := by
  unfold decodeWords
  rw [f]
  rfl

theorem decodeWords_base {w : TextWord} (f : frameOf w = 3#2) (next slot1) :
    decodeWords w next slot1 = (decodeBase w).map (·, 4) := by
  unfold decodeWords
  rw [f]
  rfl

/-- The two slots of a pair (09 R182). -/
theorem fields_pair (u t : BitVec 15) : slotOf (u ++ t ++ 1#2) true = u ∧ slotOf (u ++ t ++ 1#2) false = t ∧
    frameOf (u ++ t ++ 1#2) = 1#2 := eq_append_append_iff.mp rfl

theorem decodeWords_encode_word {i : Instr} (wf : i.wf = true) {w : TextWord} (next : Option TextWord) (r : ReadsAs i [w]) :
    w.toNat % 4 = 3 ∧ decodeWords w next false = .ok (i, 4) ∨
      w.toNat % 4 = 1 ∧ decodeWords w next false = .ok (i, 2) ∧
        ∀ low : BitVec 15, decodeWords (w.extractLsb' 2 15 ++ low ++ 1#2) next true = .ok (i, 2) := by
  rw [toNat_mod_four]
  rcases r with ⟨frame, h⟩ | ⟨t, rfl, h⟩
  · exact .inl ⟨congrArg BitVec.toNat frame, (decodeWords_base frame _ _).trans (map_eq_ok.mpr ⟨checkWf_eq_ok h wf, rfl⟩)⟩
  · obtain ⟨-, slot0, frame⟩ := fields_pair 0#15 t
    refine .inr ⟨congrArg BitVec.toNat frame, ?_, fun low => ?_⟩
    · exact (decodeWords_slot frame _ _).trans (map_eq_ok.mpr ⟨(congrArg decodeSlot slot0).trans h, rfl⟩)
    · obtain ⟨slot1, -, frame'⟩ := fields_pair (BitVec.extractLsb' 2 15 (0#15 ++ t ++ 1#2)) low
      exact (decodeWords_slot frame' _ _).trans
        (map_eq_ok.mpr ⟨(congrArg decodeSlot (slot1.trans slot0)).trans h, rfl⟩)

theorem encode_decodeWords {w : TextWord} {next : Option TextWord} {slot1 : Bool} {i : Instr} {n : Nat}
    (h : decodeWords w next slot1 = .ok (i, n)) : i.wf = true ∧ ¬ isNearBank i ∧
    (w.toNat % 4 = 3 → n = 4 ∧ encode i = [w]) ∧
    (w.toNat % 4 = 2 → n = 8 ∧ ∃ b, next = some b ∧ encode i = [w, b]) ∧
    (w.toNat % 4 = 1 → n = 2 ∧
      encode i = [0#15 ++ (if slot1 then w.extractLsb' 17 15 else w.extractLsb' 2 15) ++ 1#2]) := by
  rw [toNat_mod_four]
  unfold decodeWords at h
  split at h
  case h_1 => cases h
  case h_2 f =>
    obtain ⟨slot, rfl⟩ := map_eq_ok.mp h
    obtain ⟨wf, core, enc⟩ := yields_slot _ i slot
    exact ⟨wf, core, by simp [f], by simp [f], fun _ => ⟨rfl, enc⟩⟩
  case h_3 f =>
    have frame : frameOf w = 2#2 := BitVec.eq_of_toNat_eq f
    split at h
    · cases h
    · next b =>
      obtain ⟨pre, rfl⟩ := map_eq_ok.mp h
      obtain ⟨wf, core, enc⟩ := yields_prefixed frame i pre
      exact ⟨wf, core, by simp [f], fun _ => ⟨rfl, b, rfl, enc⟩, by simp [f]⟩
  case h_4 f0 f1 f2 =>
    have frame : frameOf w = 3#2 := by
      have := (frameOf w).isLt
      simp only [imp_false] at f0 f1 f2
      exact BitVec.eq_of_toNat_eq (show (frameOf w).toNat = 3 by omega)
    obtain ⟨base, rfl⟩ := map_eq_ok.mp h
    obtain ⟨wf, core, enc⟩ := yields_checkWf (yields_major frame) i base
    exact ⟨wf, core, fun _ => ⟨rfl, enc⟩, by simp [frame], by simp [frame]⟩

/-- Settles O56: an instruction reads back from what `encode` writes by `readsAs_encode`, constructor by constructor; the
other way round each decoder yields an instruction that encodes to the word read (`Yields`, `IsText`). -/
theorem decodeEncode : Obligations.DecodeEncode := by
  refine ⟨fun i wf => ⟨fun bank => ?_, fun core => ?_⟩, fun w next slot1 i n => encode_decodeWords, fun w i h => ?_⟩
  · obtain ⟨w, enc, dec⟩ := decodeNbeOp_encode i bank
    exact ⟨w, enc, checkWf_eq_ok dec wf⟩
  · have reads := readsAs_encode i wf core
    refine ⟨fun w next enc => ?_, fun p w enc => ?_, ?_⟩
    · rw [enc] at reads
      exact decodeWords_encode_word wf next reads
    · rw [enc] at reads
      obtain ⟨fp, -, h⟩ := reads
      rw [toNat_mod_four, fp, decodeWords_prefix fp, map_eq_ok]
      exact ⟨rfl, h, rfl⟩
    · revert reads
      generalize encode i = l
      rintro reads
      match l with
      | [] | [_] | [_, _] => simp
      | _ :: _ :: _ :: _ => exact absurd reads id
  · obtain ⟨wf, bank, enc⟩ := yields_checkWf (yields_nbe w) i h
    exact ⟨wf, bank, enc⟩

end Sys2Proof
end


section
/-! O54: a step runs the decoded instruction of the agent that moves (09 R181 to R185, 05 R96, R112). -/

namespace Sys2Proof.Machine

open Sys2Proof.Claims

variable {s s1 : State} {a : Agent} {g : Gang} {gang hid k n : Nat} {h : Here} {x : Hart} {e : VEntry} {rest : List VEntry}
  {i : Instr} {f : Hart → Result}

/-! ### The agent that moves (log 3) -/

theorem step_agent (idle : s.agenda = []) (hc : s.cur = a) : step s = turn exec a s := by
  rw [step, stepWith, idle, ← hc]

theorem cur_self (hc : s.cur = a) : { s with cur := a } = s := by
  subst hc
  rfl

theorem step_slice (idle : s.agenda = []) (hc : s.cur = .slice h.gang h.hid h.sl) : step s = turnSlice exec s h := by
  rw [step_agent idle hc, turn, cur_self hc]

theorem step_ahead (idle : s.agenda = []) (hc : s.cur = .ahead gang hid) : step s = turnAhead exec s gang hid := by
  rw [step_agent idle hc, turn, cur_self hc]

theorem step_part (idle : s.agenda = []) (hc : s.cur = .part gang hid k n) : step s = turnPart s gang hid k n := by
  rw [step_agent idle hc, turn, cur_self hc]

theorem step_engine (idle : s.agenda = []) (hc : s.cur = .engine k) : step s = turnEngine exec s := by
  rw [step_agent idle hc, turn, cur_self hc]

theorem step_survey (idle : s.agenda = []) (hc : s.cur = .survey k) : step s = turnSurvey exec s k := by
  rw [step_agent idle hc, turn, cur_self hc]

/-! ### Harts that move, and deadlines (04 R90) -/

theorem deadlinePassed_iff : deadlinePassed s x = true ↔ late s x := by
  simp only [deadlinePassed, deadlineReached, pastDeadline, ypP, late, bitsOf_eq, Nat.pow_zero, Nat.div_one, Bool.and_eq_true,
    decide_eq_true_eq, bne_iff_ne, and_assoc]

/-- An active hart of a resident gang of a running device moves. -/
theorem mover?_active (runs : Awake s) (hg : findGang s gang = some g) (res : g.st = .resident)
    (hx : findHart s gang hid = some x) (act : x.mode = .active) (free : x.sysTrap = false) : mover? s gang hid = some x := by
  unfold mover?
  rw [hg, hx]
  simp [awake_of runs, res, act, free]

theorem turnHart_late (hx : mover? s gang hid = some x) (act : x.mode = .active) (past : late s x) :
    turnHart s gang hid f = .next (forceGang s gang) := by
  simp [turnHart, hx, act, deadlinePassed_iff.mpr past]

theorem turnHart_goes (hx : mover? s gang hid = some x) (early : ¬ late s x) : turnHart s gang hid f = f x := by
  simp [turnHart, hx, mt deadlinePassed_iff.mp early]

/-! ### The slice that takes its next instruction (05 R96, R112) -/

section Slice

variable (idle : s.agenda = []) (hx : mover? s h.gang h.hid = some x)
include idle hx

theorem step_late (hc : s.cur = .slice h.gang h.hid h.sl ∨ s.cur = .ahead h.gang h.hid) (act : x.mode = .active)
    (past : late s x) : step s = .next (forceGang s h.gang) := by
  rcases hc with hc | hc
  · exact (step_slice idle hc).trans (turnHart_late hx act past)
  · exact (step_ahead idle hc).trans (turnHart_late hx act past)

variable (early : ¬ late s x)
include early

theorem step_head (hc : s.cur = .slice h.gang h.hid h.sl) (cs : h.sl = .cs) (queue : x.viq = e :: rest)
    (head : runHead s = .ok .done s1) : step s = .next (afterHead s1 h.gang h.hid e.kind) := by
  rw [step_slice idle hc, turnSlice, turnHart_goes hx early, cs]
  simp only [runCs, queue, head]

/-- The AS, a CS with an empty queue and a CS that runs ahead of its queue take their next instruction. -/
theorem step_runSlice (act : x.mode = .active) (r : Runs s h x)
    (hc : s.cur = .slice h.gang h.hid h.sl ∨ s.cur = .ahead h.gang h.hid)
    (turn : h.sl = .as ∨ x.viq = [] ∨ s.ahead = true) : step s = runSlice exec s h x := by
  rcases hc with hc | hc
  · have near : s.ahead = false := by simp [State.ahead, hc]
    rw [step_slice idle hc, turnSlice, turnHart_goes hx early, act]
    cases sl : h.sl with
    | as => rfl
    | cs =>
      have queue : x.viq = [] := by simpa [sl, near] using turn
      simp [runCs, queue, act]
  · have here : ⟨h.gang, h.hid, .cs⟩ = h := by
      have who := r.who
      rw [here?, hc] at who
      simpa [r.hart] using who
    rw [step_ahead idle hc, turnAhead, turnHart_goes hx early, if_pos act, here]

end Slice

theorem runSlice_instr (running : (x.slice h.sl).cond = .running) (fetched : fetchSlice h.sl s = .ok (.instr i) s1) :
    runSlice exec s h x = afterSlice h.gang h.hid h.sl (exec i s1) := by
  simp [runSlice, running, Cond.goes, fetched, runFetched]

/-! ### Fetching (09 R182, R183, R185) -/

section Fetch

variable {va : Word} {w w0 w1 : TextWord} {sl : SliceId}

theorem fetchWord_held (r : Runs s h x) (held : ((x.slice sl).fbuf.find? fun c => c.1 == va) = some (va, w)) :
    fetchWord sl va s = .ok w s := by
  unfold fetchWord
  rw [M.bind_ok (hartM_run r), held]
  rfl

theorem fetchWord_home {f : Found} {bytes : List Byte} {s2 : State} (r : Runs s h x) (r2 : Runs s2 h x)
    (new : ((x.slice sl).fbuf.find? fun c => c.1 == va) = none) (found : (locateHere .fetch va.toNat 4) s = .ok f s1)
    (read : readLocs [] f.locs va.toNat s1 = .ok bytes s2) :
    fetchWord sl va s = .ok (BitVec.ofNat 32 (bytesToNat bytes)) (mapHart s2 h.gang h.hid fun y =>
      y.setSlice sl { y.slice sl with fbuf := fbufAdd (y.slice sl).fbuf va (BitVec.ofNat 32 (bytesToNat bytes)) }) := by
  unfold fetchWord
  rw [M.bind_ok (hartM_run r), new]
  simp only
  rw [M.bind_ok found, M.bind_ok read, M.bind_ok (modHart_run r2.who _)]
  rfl

theorem decodeAt_instr {next : Option TextWord} {slot1 : Bool} (dec : decodeWords w next slot1 = .ok (i, n)) :
    decodeAt w next slot1 = .instr i := by rw [decodeAt, dec]

variable (r : Runs s h x)
include r

/-- A word of another frame than 0b10, at a pc that is a multiple of 4. -/
theorem fetchSlice_word (aligned : (x.slice h.sl).pc.toNat % 4 = 0) (word : fetchWord h.sl (x.slice h.sl).pc s = .ok w s1)
    (frame : w.toNat % 4 ≠ 2) (dec : decodeWords w none false = .ok (i, n)) : fetchSlice h.sl s = .ok (.instr i) s1 := by
  unfold fetchSlice
  rw [M.bind_ok (getPc_run r.cpu), pc_of_runs r]
  simp [aligned, M.bind_ok word, frameBits, frame, decodeAt_instr dec]

theorem fetchSlice_slot1 (half : (x.slice h.sl).pc.toNat % 4 = 2)
    (word : fetchWord h.sl ((x.slice h.sl).pc - 2#64) s = .ok w s1)
    (frame : w.toNat % 4 = 1) (dec : decodeWords w none true = .ok (i, n)) : fetchSlice h.sl s = .ok (.instr i) s1 := by
  unfold fetchSlice
  rw [M.bind_ok (getPc_run r.cpu), pc_of_runs r]
  simp [half, M.bind_ok word, frameBits, frame, decodeAt_instr dec]

theorem fetchSlice_prefixed (aligned : (x.slice h.sl).pc.toNat % 8 = 0)
    (word : fetchWord h.sl (x.slice h.sl).pc s = .ok w0 s)
    (second : fetchWord h.sl ((x.slice h.sl).pc + 4#64) s = .ok w1 s1) (frame : w0.toNat % 4 = 2)
    (dec : decodeWords w0 (some w1) false = .ok (i, n)) : fetchSlice h.sl s = .ok (.instr i) s1 := by
  have even : (x.slice h.sl).pc.toNat % 4 = 0 := by omega
  unfold fetchSlice
  rw [M.bind_ok (getPc_run r.cpu), pc_of_runs r]
  simp [-bind_pure_comp, even, M.bind_ok word, M.bind_ok second, frameBits, frame, aligned, decodeAt_instr dec]

end Fetch

/-! ### Queue entries, engines and survey cores -/

section Part

variable (idle : s.agenda = []) (hx : mover? s gang hid = some x) (early : ¬ late s x)
include idle hx early

variable (hc : s.cur = .part gang hid 0 n) (queue : x.viq = e :: rest)

include hc queue in
theorem step_headDone (head : runHeadPart n s = .ok .done s1) : step s = .next (afterHead s1 gang hid e.kind) := by
  rw [step_part idle hc, turnPart, turnHart_goes hx early]
  simp [queue, head]

include hc queue in
theorem step_headPaused (head : runHeadPart n s = .ok .paused s1) :
    step s = .next (noteIssue s1 gang hid (vPipe e.kind)) := by
  rw [step_part idle hc, turnPart, turnHart_goes hx early]
  simp [queue, head]

theorem step_behind {went : Bool} (hc : s.cur = .part gang hid k n) (younger : k ≠ 0) (entry : x.viq[k]? = some e)
    (ran : runBehind k n s = .ok went s1) :
    step s = .next (if went then noteIssue s1 gang hid (vPipe e.kind) else s1) := by
  rw [step_part idle hc, turnPart, turnHart_goes hx early]
  simp [entry, younger, ran]

end Part

theorem step_bankWord {eng : NbeEng} {run : NbeRun} {w : TextWord} (idle : s.agenda = []) (hc : s.cur = .engine k)
    (on : Clocked s) (he : engineHere s = some eng) (hr : eng.run = some run) (hw : run.prog[run.pc]? = some w)
    (dec : decodeNbe w = .ok i) : step s = exec i s := by
  rw [step_engine idle hc]
  simp [turnEngine, he, clocked_of on, hr, hw, dec]

section Survey

variable (idle : s.agenda = []) (hc : s.cur = .survey k) (le : k ≤ 3) (on : s.bed.off = false) (pwr : s.bed.pwr ≠ 2)
  (running : (surveyOf s k).mode = .running)
include idle hc le on pwr running

theorem step_surveyInstr (fetched : fetchSurvey s k = .ok (.instr i)) : step s = exec i s := by
  rw [step_survey idle hc]
  simp [turnSurvey, on, show s.bed.pwr ≠ 2#2 from pwr, running, not_lt.mpr le, fetched]

theorem step_surveyTrap {t : TrapInfo} (fetched : fetchSurvey s k = .error t) :
    step s = .next (mapSurvey s k fun y => y.takeTrap t) := by
  rw [step_survey idle hc]
  simp [turnSurvey, on, show s.bed.pwr ≠ 2#2 from pwr, running, not_lt.mpr le, fetched, finish]

end Survey

/-- A word that cannot be read ends the fetch with its trap. -/
theorem fetchSurvey_error {t : TrapInfo} (aligned : (surveyOf s k).pc.toNat % 4 = 0)
    (word : surveyWord s (surveyOf s k).pc = .error t) : fetchSurvey s k = .error t := by
  simp [fetchSurvey, aligned, word, bind, Except.bind]

/-- Outside the firmware a survey core reads local HBM: without a home, or poisoned, the word is a trap (09 R204, 01 R12). -/
theorem surveyWord_hbm {pa : Word}
    (out : pa.toNat < s.dev.firmwareBase ∨ s.dev.firmwareBase + s.dev.firmware.length < pa.toNat + 4) :
    (physLocs s pa.toNat 4 = none → surveyWord s pa = .error { cause := 0x0A, eaddr := pa, einfo := 2 }) ∧
    ∀ l, physLocs s pa.toNat 4 = some l → (∃ p ∈ l, poisoned s p = true) →
      surveyWord s pa = .error { cause := 0x1E, eaddr := pa } := by
  have notHeld : ¬ (decide (s.dev.firmwareBase ≤ pa.toNat) &&
      decide (pa.toNat + 4 ≤ s.dev.firmwareBase + s.dev.firmware.length)) = true := by
    simp only [Bool.and_eq_true, decide_eq_true_eq]
    omega
  unfold surveyWord
  simp only [if_neg notHeld]
  refine ⟨fun home => by rw [home]; rfl, fun l home bad => ?_⟩
  rw [home]
  simp only [List.any_eq_true.mpr bad, if_true]
  rfl

/-- A slice that does not wait has issued (04 R84). -/
theorem afterSlice_goes {t : State} {sl : SliceId} (hx : findHart t gang hid = some x)
    (going : ∀ w, (x.slice sl).cond ≠ .waiting w) :
    afterSlice gang hid sl (.next t) = .next (noteIssue t gang hid (slicePipe sl)) := by
  rw [afterSlice, hx]
  cases cond : (x.slice sl).cond with
  | waiting w => exact absurd cond (going w)
  | _ => simp [cond]

/-- Settles O54: each agent's turn by the lemma on its kind of turn, and the fetch of a slice by `fetchSlice_word`,
`fetchSlice_prefixed` and `fetchSlice_slot1`. -/
theorem stepRunsDecoded : Obligations.StepRunsDecoded := by
  refine ⟨fun s i rest head => ?_, ?_, ?_, ?_, ?_, ?_, ?_, ?_⟩
  · rw [step, stepWith, head]
  · intro s h x g r idle hc on pwr keep hg res act free
    exact step_late idle (mover?_active ⟨⟨on, pwr⟩, keep⟩ hg res r.hart act free) hc act
  · intro s h x g r idle hc on pwr keep hg res act free early running
    have hx := mover?_active ⟨⟨on, pwr⟩, keep⟩ hg res r.hart act free
    refine ⟨fun near cs e rest s1 queue head => ?_, fun turn => ?_⟩
    · have slice := hc.resolve_right fun ahead => by simp [State.ahead, ahead] at near
      exact step_head idle hx early slice cs queue head
    · have runs {s1 : State} {i : Instr} (fetched : fetchSlice h.sl s = .ok (.instr i) s1) :
          step s = afterSlice h.gang h.hid h.sl (exec i s1) :=
        (step_runSlice idle hx early act r hc turn).trans (runSlice_instr running fetched)
      refine ⟨fun w i n al held fr dec => ?_, fun w0 w1 i n al held0 held1 fr dec => ?_, fun w i n half held fr dec => ?_,
        fun f s1 bytes s2 i n al new found read r2 fr dec => ?_⟩
      · exact runs (fetchSlice_word r al (fetchWord_held r held) fr dec)
      · exact runs (fetchSlice_prefixed r al (fetchWord_held r held0) (fetchWord_held r held1) fr dec)
      · exact runs (fetchSlice_slot1 r half (fetchWord_held r held) fr dec)
      · exact runs (fetchSlice_word r al (fetchWord_home r r2 new found read) fr dec)
  · intro s s1 gang hid n g x e rest idle hc runs hg res hart act free early queue
    have hx := mover?_active runs hg res hart act free
    exact ⟨step_headDone idle hx early hc queue, step_headPaused idle hx early hc queue⟩
  · intro s s1 gang hid k n g x e went idle hc younger runs hg res hart act free early
    exact step_behind idle (mover?_active runs hg res hart act free) early hc younger
  · intro s c e r w i idle hc on pwr
    exact step_bankWord idle hc ⟨on, pwr⟩
  · intro s k i idle hc le on pwr running
    have traps {t : TrapInfo} := step_surveyTrap (t := t) idle hc le on pwr running
    refine ⟨step_surveyInstr idle hc le on pwr running, fun t => traps, fun al out => ?_⟩
    obtain ⟨home, bad⟩ := surveyWord_hbm out
    exact ⟨fun none => traps (fetchSurvey_error al (home none)),
      fun l found poison => traps (fetchSurvey_error al (bad l found poison))⟩
  · intro g h sl t x hx going
    rw [afterSlice_goes hx going]
    cases sl <;> rfl

end Sys2Proof.Machine
end


section
/-! O59: the region that an access touches (08 R169, R171), and stores in forward mode to a region without a tape. -/

namespace Sys2Proof.Machine

open Sys2Proof.Claims

variable {s s1 s2 : State} {h : Here} {x x1 x2 : Hart} {i : Instr} {r : Region} {va n k len : Nat} {rel : Bool}
  {a b : RegField} {off : Word} {f f0 : Found} {acc : Acc} {bytes : List Byte}

/-! ### The region that an access touches -/

/-- A valid region has a byte in common with the n bytes at va. -/
def Region.meets (r : Region) (va n : Nat) : Prop :=
  r.ctl.getLsbD 63 = true ∧ va < r.pbase.toNat + r.len * r.size ∧ r.pbase.toNat < va + n

/-- An access touches the first region of the table that it meets. -/
theorem region_eq_some_iff {tab : List Region} (ht : x.tp.table = some tab) : x.region va n = some (k, r) ↔
    tab[k]? = some r ∧ r.meets va n ∧ ∀ j q, j < k → tab[j]? = some q → ¬ q.meets va n := by
  have test (q : Region) : (q.valid && va < q.primalEnd && q.pbase.toNat < va + n) = true ↔ q.meets va n := by
    simp only [Bool.and_eq_true, decide_eq_true_eq, and_assoc]
    rfl
  unfold Hart.region
  rw [ht]
  simp only [Option.map_eq_some_iff, Prod.exists, Prod.mk.injEq, List.find?_eq_some_iff_getElem, test, List.length_zipIdx,
    List.getElem_zipIdx, Nat.zero_add, Bool.not_eq_true', Bool.eq_false_iff, ne_eq]
  constructor
  · rintro ⟨_, _, ⟨hits, m, lt, ⟨rfl, rfl⟩, first⟩, rfl, rfl⟩
    refine ⟨List.getElem?_eq_getElem lt, hits, fun j q before here => ?_⟩
    obtain ⟨_, rfl⟩ := List.getElem?_eq_some_iff.mp here
    exact first j before
  · rintro ⟨here, hits, first⟩
    obtain ⟨lt, rfl⟩ := List.getElem?_eq_some_iff.mp here
    exact ⟨_, _, ⟨hits, k, lt, ⟨rfl, rfl⟩, fun j before => first j _ before (List.getElem?_eq_getElem (by omega))⟩, rfl, rfl⟩

theorem touches_of_on (on : x.tp.adjm ≠ 0) : x.touches va n = x.region va n := by
  have mode : x.adjMode ≠ 0 := fun zero => on (BitVec.eq_of_toNat_eq zero)
  rw [Hart.touches, if_neg mode]

/-- With the mode off an access touches no region; this is the first part of O59. -/
theorem touches_of_table {tab : List Region} (ht : x.tp.table = some tab) :
    (x.tp.adjm = 0 → x.touches va n = none) ∧ (x.tp.adjm ≠ 0 → (x.touches va n = some (k, r) ↔
      tab[k]? = some r ∧ r.ctl.getLsbD 63 = true ∧ va < r.pbase.toNat + r.len * r.size ∧ r.pbase.toNat < va + n ∧
      ∀ j q, j < k → tab[j]? = some q →
        ¬ (q.ctl.getLsbD 63 = true ∧ va < q.pbase.toNat + q.len * q.size ∧ q.pbase.toNat < va + n))) := by
  refine ⟨touches_of_off, fun on => ?_⟩
  rw [touches_of_on on, region_eq_some_iff ht]
  simp only [Region.meets, and_assoc]

/-! ### The checks of a region (08 R171) -/

theorem regionCheck_test : (n == r.size && decide (r.pbase.toNat ≤ va) && decide (va + n ≤ r.primalEnd)) = true ↔
    fits r va n := by
  simp only [Bool.and_eq_true, beq_iff_eq, decide_eq_true_eq, and_assoc]
  rfl

theorem regionCheck_fits (ok : fits r va n) : regionCheck r acc va n none s = .ok () s := by
  unfold regionCheck
  simp only
  rw [if_pos (regionCheck_test.mpr ok)]
  rfl

theorem regionCheck_unfit (bad : ¬ fits r va n) : regionCheck r acc va n none s =
    .error (.trap { cause := 0x0A, eaddr := BitVec.ofNat 64 va, einfo := acc.code }) s := by
  unfold regionCheck
  simp only
  rw [if_neg (mt regionCheck_test.mp bad)]
  rfl

/-! ### D in the leaves of a store -/

theorem setDirty_rest (e : TlbEntry) :
    (setDirty s e).cur = s.cur ∧ (setDirty s e).gangs = s.gangs ∧ (setDirty s e).dev = s.dev := by
  unfold setDirty
  split <;> exact ⟨rfl, rfl, rfl⟩

theorem dirtied_rest (s : State) (f : Found) :
    (dirtied s f).cur = s.cur ∧ (dirtied s f).gangs = s.gangs ∧ (dirtied s f).dev = s.dev := by
  unfold dirtied
  generalize f.leaves = l
  induction l generalizing s with
  | nil => exact ⟨rfl, rfl, rfl⟩
  | cons e l ih =>
    obtain ⟨cur, gangs, dev⟩ := ih (setDirty s e)
    obtain ⟨cur', gangs', dev'⟩ := setDirty_rest (s := s) e
    exact ⟨cur.trans cur', gangs.trans gangs', dev.trans dev'⟩

theorem Runs.dirtied (r : Runs s h x) (f : Found) : Runs (dirtied s f) h x :=
  r.congr (dirtied_rest s f).1 (dirtied_rest s f).2.1

/-- The links that a store is sent on are those of the device, which D does not change. -/
theorem storeOf_dirtied (s : State) (f : Found) (bytes : List Byte) (seq : Nat) :
    storeOf (Claims.dirtied s f) f bytes seq = storeOf s f bytes seq := by
  obtain ⟨-, -, dev⟩ := dirtied_rest s f
  simp only [storeOf, hopsFor, routeEntry, devReg, linkFor, liveLinks, dev]

/-! ### Stores of the AS in forward mode -/

/-- A store is queued under the number at which the executing hart is. -/
theorem issueStore_as (r0 : Runs s h x) : issueStore .as f bytes s =
    .ok () (mapHart (dirtied s f) h.gang h.hid fun y => withStore y (storeOf s f bytes x.seq)) := by
  have marks : f.markDirty s = .ok () (dirtied s f) := rfl
  have after := r0.dirtied f
  unfold issueStore
  rw [M.bind_ok marks, M.bind_ok (M.get_run _), M.bind_ok (hartM_run after), pushWrite, modHart_run after.who, storeOf_dirtied]
  rfl

theorem scalarStore_plain (found : (scalarLocate .store va bytes.length false) s = .ok f s1) (r1 : Runs s1 h x1) :
    scalarStore va bytes false s = .ok () (mapHart (dirtied s1 f) h.gang h.hid fun y =>
      withStore y (storeOf s1 f bytes x1.seq)) := by
  unfold scalarStore
  rw [M.bind_ok found]
  exact issueStore_as r1

/-- What the AS does for a store is done before it goes on. -/
theorem store_ends (r0 : Runs s h x) (hs : h.sl = .as) (hv : va = (x.getReg .as a + off).toNat)
    (stores : hartStore n rel b va s = .ok () s1) (r1 : Runs s1 h x1) :
    store n rel len a b off s = .next (goOn s1 h (x1.as_.pc + BitVec.ofNat 64 len) id) := by
  unfold store
  rw [runScalar_run r0.cpu (asSurvey_admits hs), M.bind_ok (getX_run r0.cpu a), reg_of_runs r0, hs, ← hv,
    M.bind_ok (cpuM_run r0.cpu)]
  simp only
  rw [M.bind_ok stores, finish_advance r1, hs]
  rfl

theorem store_traps {t : TrapInfo} (r0 : Runs s h x) (hs : h.sl = .as) (hv : va = (x.getReg .as a + off).toNat)
    (stops : hartStore n rel b va s = .error (.trap t) s1) :
    store n rel len a b off s = .next (takeTrap s1 h.gang h.hid .as none t) := by
  unfold store
  rw [runScalar_run r0.cpu (asSurvey_admits hs), M.bind_ok (getX_run r0.cpu a), reg_of_runs r0, hs, ← hv,
    M.bind_ok (cpuM_run r0.cpu)]
  simp only
  rw [M.bind_error stops, finish, hs]

section Forward

variable (r0 : Runs s h x) (hs : h.sl = .as) (fwd : x.tp.adjm = 1) (touched : x.touches va n = some (k, r))
  (located : (scalarLocate .store va n rel) s = .ok f0 s1)
include r0 hs fwd touched located

/-- A store that touches a region is located, then checked against the region. -/
theorem hartStore_forward : hartStore n rel b va s = (do
    regionCheck r .store va n none
    if r.tape then issueStore .as (← tapePush .as k va n) (storedBytes (x.getReg .as b) n)
    else scalarStore va (storedBytes (x.getReg .as b) n) rel : M Unit) s1 := by
  have touches : touchesHere va n s = .ok (some (k, r)) s := by
    unfold touchesHere
    rw [M.bind_ok (hartM_run r0), touched]
    rfl
  have mode : x.adjMode ≠ 2 := by
    unfold Hart.adjMode
    rw [fwd]
    decide
  unfold hartStore
  rw [M.bind_ok (getX_run r0.cpu b), reg_of_runs r0, hs, natToBytes_eq_storedBytes, M.bind_ok touches]
  simp only
  rw [M.bind_ok (hartM_run r0), if_neg mode, M.bind_ok located]

theorem hartStore_unfit (bad : ¬ fits r va n) : hartStore n rel b va s =
    .error (.trap { cause := 0x0A, eaddr := BitVec.ofNat 64 va, einfo := 1 }) s1 := by
  rw [hartStore_forward r0 hs fwd touched located, M.bind_error (regionCheck_unfit bad)]
  rfl

theorem hartStore_untaped (ok : fits r va n) (untaped : r.ctl.getLsbD 62 = false) :
    hartStore n rel b va s = scalarStore va (storedBytes (x.getReg .as b) n) rel s1 := by
  rw [hartStore_forward r0 hs fwd touched located, M.bind_ok (regionCheck_fits ok), Region.tape, untaped]
  rfl

end Forward

/-! ### The store instructions (14 R302) -/

theorem off9_eq : ∀ k : BitVec 9, off9 k = BitVec.ofInt 64 (8 * k.toInt) := by decide +kernel

theorem spOff_eq : ∀ k : BitVec 5, spOff k = BitVec.ofNat 64 (8 * k.toNat) := by decide

theorem exec_isStore (st : isStore i a b n rel off len) : exec i s = store n rel len a b off s := by
  rcases st with ⟨p, hp, rfl, rfl, form⟩ | ⟨sc, k, le, rfl, rfl, rfl, rfl, rfl⟩ | ⟨k, rfl, rfl, rfl, rfl, rfl, rfl⟩
  · rcases form with ⟨k, rfl, rfl, rfl⟩ | ⟨k, rfl, rfl, rfl⟩ <;> fin_cases hp <;> rfl
  · rw [← off9_eq]
    exact if_neg (by omega)
  · rw [← spOff_eq]
    rfl

/-- `sd.rel` stores 8 bytes, which no element has (08 R169). -/
theorem not_rel_of_fits (st : isStore i a b n rel off len) (ok : fits r va n) : rel = false := by
  obtain ⟨width, -⟩ := ok
  have small : r.size ≤ 4 := by
    unfold Region.size
    split <;> decide
  rcases st with ⟨p, hp, rfl, rfl, -⟩ | ⟨sc, k, le, rfl, rfl, -⟩ | ⟨k, rfl, rfl, rfl, rfl, -⟩
  · rfl
  · omega
  · rfl

section Instr

variable (st : isStore i a b n rel off len) (r0 : Runs s h x) (hs : h.sl = .as)
  (hv : va = (x.getReg .as a + off).toNat) (fwd : x.tp.adjm = 1) (touched : x.touches va n = some (k, r))
  (located : (scalarLocate .store va n rel) s = .ok f0 s1)
include st r0 hs hv fwd touched located

theorem exec_store_unfit (bad : ¬ fits r va n) : exec i s =
    .next (takeTrap s1 h.gang h.hid .as none { cause := 0x0A, eaddr := BitVec.ofNat 64 va, einfo := 1 }) := by
  rw [exec_isStore st]
  exact store_traps r0 hs hv (hartStore_unfit r0 hs fwd touched located bad)

variable (ok : fits r va n) (untaped : r.ctl.getLsbD 62 = false) (found : (scalarLocate .store va n rel) s1 = .ok f s2)
  (r2 : Runs s2 h x2)
include ok untaped found r2

/-- A store to a region without a tape is queued under the number at which the executing hart is. -/
theorem exec_store_untaped : exec i s = .next (goOn (dirtied s2 f) h (x2.as_.pc + BitVec.ofNat 64 len) fun y =>
    withStore y (storeOf s2 f (storedBytes (x.getReg .as b) n) x2.seq)) := by
  cases not_rel_of_fits st ok
  have width : (storedBytes (x.getReg .as b) n).length = n := by simp [storedBytes]
  have stores := (hartStore_untaped (b := b) r0 hs fwd touched located ok untaped).trans
    (scalarStore_plain (by rw [width]; exact found) r2)
  have ends := store_ends (len := len) r0 hs hv stores ((r2.dirtied f).mapHart _)
  rw [exec_isStore st, ends, goOn, mapHart_mapHart]
  rfl

/-- Where no other gang has the gang's number, that is the number of each hart that is changed. -/
theorem exec_store_untaped_of_unique {g : Gang} (hg : findGang s2 h.gang = some g)
    (unique : ∀ p ∈ s2.gangs, p.id = h.gang → p = g) :
    exec i s = .next (goOn (dirtied s2 f) h (x2.as_.pc + BitVec.ofNat 64 len) fun y =>
      withStore y (storeOf s2 f (storedBytes (x.getReg .as b) n) y.seq)) := by
  rw [exec_store_untaped st r0 hs hv fwd touched located ok untaped found r2, goOn, goOn]
  refine congrArg _ (mapHart_congr fun p hp id z hz => ?_)
  obtain ⟨-, gangs, -⟩ := dirtied_rest s2 f
  rw [unique p (gangs ▸ hp) id] at hz
  have here := r2.hart
  rw [findHart, hg, Option.bind_some, hz] at here
  cases here
  rfl

end Instr

/-! ### Two gangs of one number -/

/-- One element of 4 bytes, without a tape, where the TCM window begins. -/
def twinRegion : Region :=
  { pbase := BitVec.ofNat 64 Config.tcmBase, adjbase := BitVec.ofNat 64 (Config.tcmBase + 256), ctl := 0x8680000000000001,
    win := 0 }

/-- The hart `twinHart` in forward mode, with that region. -/
def regionTwin (seq : Nat) : Hart :=
  { twinHart seq with tp := { (twinHart seq).tp with adjm := 1, table := some [twinRegion] } }

/-- Both gangs have number 0, and their harts number their next stores 0 and 1. -/
def regionTwins : State :=
  { twinGangs with gangs := [{ twinGang 0 with harts := [regionTwin 0] }, { twinGang 1 with harts := [regionTwin 1] }] }

/-- Refutes O59: of two gangs of one number, a store in forward mode to a region without a tape is queued in the hart of each
under the executing hart's number (`exec_store_untaped`) and not, as the statement says, under that of each. The statement does
not shut such states out. Where the gang's number is its own this clause holds (`exec_store_untaped_of_unique`). -/
theorem not_regionResults : ¬ Obligations.RegionResults := by
  rintro ⟨-, -, store, -⟩
  have runs : Runs regionTwins ⟨0, 0, .as⟩ (regionTwin 0) := ⟨rfl, rfl⟩
  have block : inTcmBlock (regionTwin 0) ((regionTwin 0).getReg .as 6 + (0 : BitVec 12).signExtend 64).toNat 4 0 := by
    unfold inTcmBlock
    decide
  have located := scalarLocate_tcm (acc := .store) runs rfl rfl (.of_inTcmBlock block) (by decide) false (by simp)
  have st : isStore (.sw 6 7 0) 6 7 4 false ((0 : BitVec 12).signExtend 64) 4 :=
    .inl ⟨(.sw, .swLong, 4), by simp [storeRows], rfl, rfl, .inl ⟨0, rfl, rfl, rfl⟩⟩
  have ok : fits twinRegion ((regionTwin 0).getReg .as 6 + (0 : BitVec 12).signExtend 64).toNat 4 := by
    unfold fits
    decide
  have claimed := (store regionTwins regionTwins ⟨0, 0, .as⟩ (regionTwin 0) (regionTwin 0) (.sw 6 7 0) 6 7 4 false _ 4 0
    twinRegion _ st runs rfl runs rfl located).2.1 rfl ok |>.1 rfl _ _ _ located runs
  rw [exec_store_untaped st runs rfl rfl rfl rfl located ok rfl located runs] at claimed
  have numbers := congrArg storeNumbers claimed
  revert numbers
  decide

end Sys2Proof.Machine
end


section
/-! O4: the compressed register forms and the two instructions that only go on (09 R203, 11 R226). -/

namespace Sys2Proof.Machine

open Sys2Proof.Claims

variable {s : State} {c : Cpu}

theorem Hart.setReg_zero (x : Hart) (sl : SliceId) (v : Word) : x.setReg sl 0 v = x := by
  cases sl <;> rfl

/-- Going on at pc and ending the instruction writes no register: a write of register 0 is discarded. -/
theorem finish_setPc (pc : Word) : finish c (.ok () (c.setPc s pc)) = .next (retire s c 0 0 pc) := by
  cases c with
  | slice h => simp only [finish, Cpu.setPc, retire, mapHart_mapHart, Hart.setReg_zero]
  | survey k => simp only [finish, Cpu.setPc, retire, fileSet_zero]

/-- An instruction of n bytes that only goes on. -/
theorem advances_run (hc : cpu? s = some c) (n : Nat) :
    runScalar both (advance n) s = .next (retire s c 0 0 (c.pc s + BitVec.ofNat 64 n)) := by
  rw [runScalar_run hc both_admits, advance_run hc, finish_setPc]

/-- Settles O4: `c.mov`, `c.addi` and `c.slli` by `alu1_run` at 2 bytes, the other register forms by `slot2_run`, and the two
`nop` forms by `advances_run`. -/
theorem compressedResults : Obligations.CompressedResults := by
  intro s c x y hc
  refine ⟨?_, fun i => alu1_run hc _ 2 x x, fun i => alu1_run hc _ 2 x x, advances_run hc 2, advances_run hc 4⟩
  simp only [slotOps, List.forall_mem_cons]
  exact ⟨alu1_run hc _ 2 x y, slot2_run hc _ x y, slot2_run hc _ x y, slot2_run hc _ x y, List.forall_mem_nil _⟩

end Sys2Proof.Machine
end


section
/-! O8, parts: targets that the checks of 09 R186 refuse, and what branches and jumps then do. -/

namespace Sys2Proof.Machine

open Sys2Proof.Claims

variable {s : State} {h : Here} {x : Hart} {t : Word}

/-! ### Offsets in words (09 R188) -/

theorem wordOff_eq_ofInt {n : Nat} (off : BitVec n) : wordOff off = BitVec.ofInt 64 (4 * off.toInt) := by
  rw [wordOff, BitVec.shiftLeft_eq_mul_twoPow, mul_comm, BitVec.ofInt_mul]
  rfl

/-- The target of a branch, whose offset counts from the word that holds it. -/
theorem wordsFrom_eq {n : Nat} (pc : Word) (off : BitVec n) : wordsFrom pc off.toInt = (pc &&& ~~~(3#64)) + wordOff off := by
  rw [wordOff_eq_ofInt, wordsFrom]

/-! ### The checks on a target -/

theorem peekWord_held {sl : SliceId} {va : Word} {w : TextWord} (r : Runs s h x)
    (held : ((x.slice sl).fbuf.find? fun e => e.1 == va) = some (va, w)) : peekWord sl va s = .ok (some w) s := by
  rw [peekWord, fetchWord_held r held]

theorem checkTarget_bad {sl : SliceId} (r : Runs s h x) (bad : targetBad x sl t) :
    checkTarget sl t s = .error (.trap { cause := cBADTGT, eaddr := t }) s := by
  unfold checkTarget
  rcases bad with odd | ⟨half, w, p, heldw, heldp, frame⟩
  · simp [odd]
  · have even : t.toNat % 4 = 0 := by omega
    have long : (((some w).map frameBits = some 2 || (some p).map frameBits = some 2 : Bool)) = true := by simpa using frame
    simp only [even, half, bne_self_eq_false, Bool.false_eq_true, if_false]
    rw [M.bind_ok (peekWord_held r heldw), M.bind_ok (peekWord_held r heldp), if_pos long]
    rfl

theorem checkTargetHere_bad (r : Runs s h x) (bad : targetBad x h.sl t) :
    checkTargetHere t s = .error (.trap { cause := cBADTGT, eaddr := t }) s := by
  unfold checkTargetHere
  rw [M.bind_ok (cpuM_run r.cpu)]
  exact checkTarget_bad r bad

/-- An instruction whose body begins with the checks on a bad target has no other effect than the trap. -/
theorem finish_checkTargetHere_bad (r : Runs s h x) (bad : targetBad x h.sl t) (rest : Unit → M Unit) :
    finish (.slice h) ((checkTargetHere t >>= rest) s) = badTarget s h t := by
  rw [M.bind_error (checkTargetHere_bad r bad)]
  rfl

/-! ### Branches and jumps -/

theorem branch_bad (r : Runs s h x) {off : Word} (bad : targetBad x h.sl (((x.slice h.sl).pc &&& ~~~(3#64)) + off))
    (taken : Word → Bool) (n : Nat) (a : RegField) :
    branch taken n off a s = badTarget s h (((x.slice h.sl).pc &&& ~~~(3#64)) + off) := by
  unfold branch
  rw [runScalar_run r.cpu both_admits, M.bind_ok (getPc_run r.cpu), pc_of_runs r]
  exact finish_checkTargetHere_bad r bad _

/-- Each of the six conditional branches of 11 R239 is one of the shape `branch`. -/
theorem exec_branches {p : (RegField → BitVec 15 → Instr) × (Word → Bool)} (hp : p ∈ branches) :
    ∃ taken, ∀ a off s, exec (p.1 a off) s = branch taken 4 (wordOff off) a s := by
  revert p
  simp only [branches, List.forall_mem_cons]
  exact ⟨⟨_, fun _ _ _ => rfl⟩, ⟨_, fun _ _ _ => rfl⟩, ⟨_, fun _ _ _ => rfl⟩, ⟨_, fun _ _ _ => rfl⟩, ⟨_, fun _ _ _ => rfl⟩,
    ⟨_, fun _ _ _ => rfl⟩, List.forall_mem_nil _⟩

theorem finish_jumpTo_bad (r : Runs s h x) (bad : targetBad x h.sl t) (n : Nat) (d : RegField) :
    finish (.slice h) (jumpTo n d t s) = badTarget s h t := by
  unfold jumpTo
  rw [M.bind_ok (getPc_run r.cpu)]
  exact finish_checkTargetHere_bad r bad _

theorem execJal_bad (r : Runs s h x) {off : BitVec 20} (bad : targetBad x h.sl ((x.slice h.sl).pc + wordOff off))
    (d : RegField) : execJal d off s = badTarget s h ((x.slice h.sl).pc + wordOff off) := by
  unfold execJal
  rw [runScalar_run r.cpu both_admits, M.bind_ok (getPc_run r.cpu), pc_of_runs r]
  exact finish_jumpTo_bad r bad 4 d

/-- A jump to a register plus an immediate, in either length. -/
theorem jumpRegister_bad (r : Runs s h x) {a : RegField} {imm : Word} (bad : targetBad x h.sl (x.getReg h.sl a + imm))
    (n : Nat) (d : RegField) :
    runScalar both (do let y ← getX a; jumpTo n d (y + imm)) s = badTarget s h (x.getReg h.sl a + imm) := by
  rw [runScalar_run r.cpu both_admits, M.bind_ok (getX_run r.cpu a), reg_of_runs r]
  exact finish_jumpTo_bad r bad n d

theorem execCJ_bad (r : Runs s h x) {off : BitVec 10}
    (bad : targetBad x h.sl (((x.slice h.sl).pc &&& ~~~(3#64)) + wordOff off)) :
    execCJ off s = badTarget s h (((x.slice h.sl).pc &&& ~~~(3#64)) + wordOff off) := by
  unfold execCJ
  rw [runScalar_run r.cpu both_admits, M.bind_ok (getPc_run r.cpu), pc_of_runs r]
  exact finish_checkTargetHere_bad r bad _

/-- A queue branch checks its target before it looks at `qb`. -/
theorem queueBranch_bad (r : Runs s h x) (hs : h.sl = .as) {off : BitVec 15}
    (bad : targetBad x h.sl ((x.slice h.sl).pc + wordOff off)) (want : Bool) :
    queueBranch want off s = badTarget s h ((x.slice h.sl).pc + wordOff off) := by
  unfold queueBranch
  rw [runScalar_run r.cpu (asSurvey_admits hs), M.bind_ok (getPc_run r.cpu), pc_of_runs r]
  exact finish_checkTargetHere_bad r bad _

end Sys2Proof.Machine
end


section
/-! O8: instructions of the other slice (05 R96), and the statement. -/

namespace Sys2Proof.Machine

open Sys2Proof.Claims

/-- On a slice sl the instruction traps ILLEGAL and does nothing else. -/
def IllegalOn (sl : SliceId) (i : Instr) : Prop :=
  ∀ (s : State) (h : Here) (x : Hart), Runs s h x → h.sl = sl →
    exec i s = .next (takeTrap s h.gang h.hid h.sl none { cause := cILLEGAL })

variable {i : Instr} {b : Belongs} {body : M Unit}

/-! ### By the slices that a body belongs to -/

/-- A body that does not belong to the CS. -/
theorem IllegalOn.of_not_cs (run : ∀ s, exec i s = runScalar b body s) (foreign : b.cs = false) : IllegalOn .cs i := by
  intro s h x r hs
  rw [run, runScalar_foreign r.cpu (by simp [Belongs.admits, hs, foreign])]
  rfl

/-- A body that does not belong to the AS. -/
theorem IllegalOn.of_not_as (run : ∀ s, exec i s = runScalar b body s) (foreign : b.as_ = false) : IllegalOn .as i := by
  intro s h x r hs
  rw [run, runScalar_foreign r.cpu (by simp [Belongs.admits, hs, foreign])]
  rfl

/-- `ld.acq` and `sd.rel`, which first trap ILLEGAL on a reserved scope, whatever executes them. -/
theorem IllegalOn.of_scope {reserved : Prop} [Decidable reserved]
    (run : ∀ s, exec i s = if reserved then runScalar both (trap cILLEGAL) s else runScalar b body s)
    (foreign : b.cs = false) : IllegalOn .cs i := by
  by_cases bad : reserved
  · intro s h x r _
    rw [run, if_pos bad, runScalar_run r.cpu both_admits]
    rfl
  · exact .of_not_cs (fun s => by rw [run, if_neg bad]) foreign

/-! ### Instructions of one V word -/

/-- How an instruction of one V word is issued: a matrix word asks for live tiles first (05 R116). -/
def issueWord (kind : VKind) (o : VOps) : State → Result :=
  match kind with
  | .zzero | .zmma | .zop | .zdr | .zacc => issueZ kind o
  | _ => issueV kind o

theorem exec_vWord {kind : VKind} {o : VOps} (word : Claims.vWord i = some (kind, o)) (s : State) :
    exec i s = issueWord kind o s := by
  unfold Claims.vWord at word
  split at word
  all_goals cases word <;> rfl   -- one goal for each V word, and one, where there is none, that `cases` closes

theorem issueWord_csOnly (kind : VKind) (o : VOps) : ∃ body, issueWord kind o = runScalar csOnly body := by
  unfold issueWord
  split <;> exact ⟨_, rfl⟩

theorem illegalOn_as_vWord (word : (Claims.vWord i).isSome = true) : IllegalOn .as i := by
  obtain ⟨⟨kind, o⟩, word⟩ := Option.isSome_iff_exists.mp word
  obtain ⟨body, run⟩ := issueWord_csOnly kind o
  exact .of_not_as (fun s => by rw [exec_vWord word, run]) rfl

/-! ### The instructions of one slice -/

theorem illegalOn_as_of_csOnlyInstr (only : csOnlyInstr i) : IllegalOn .as i := by
  rcases only with word | ⟨f, hf, d, a, b, p, m, rfl⟩ | ⟨f, hf, d, a, p, m, rfl⟩ | ⟨f, hf, d, a, b, p, rfl⟩ |
    ⟨f, hf, d, a, ty, p, m, rfl⟩ | ⟨f, hf, d, a, rfl⟩ | ⟨f, hf, a, rfl⟩ | ⟨f, hf, a, b, t, r, n, rfl⟩ |
    ⟨o, d, a, p, k, rfl | rfl | rfl | rfl⟩ | hf
  · exact illegalOn_as_vWord word
  any_goals fin_cases hf   -- leaves one goal for each instruction
  all_goals exact .of_not_as (fun _ => rfl) rfl

theorem illegalOn_cs_of_asOnlyInstr (only : asOnlyInstr i) : IllegalOn .cs i := by
  rcases only with ⟨f, hf, a, b, k, rfl⟩ | ⟨f, hf, a, b, k, rfl⟩ | ⟨f, ordered, a, b, sc, k, rfl⟩ |
    ⟨f, hf, d, a, b, sc, o, rfl⟩ | ⟨f, hf, a, k, rfl⟩ | ⟨f, hf, off, rfl⟩ | ⟨f, hf, a, b, rfl⟩ | ⟨f, hf, a, rfl⟩ |
    ⟨f, hf, r, a, b, k, rfl⟩ | ⟨f, hf, r, a, rfl⟩ | ⟨k, p, a, b, e, rfl | rfl | rfl | rfl | rfl | rfl⟩
  case inr.inr.inl => fin_cases ordered <;> exact .of_scope (fun _ => rfl) rfl
  any_goals fin_cases hf   -- leaves one goal for each instruction
  all_goals exact .of_not_cs (fun _ => rfl) rfl

/-! ### The statement -/

/-- Settles O8: a branch or jump by the lemma on its shape, an instruction of the other slice by the slices that its body
belongs to. -/
theorem targetAndSliceTraps : Obligations.TargetAndSliceTraps := by
  refine ⟨fun s h x d a r => ⟨fun off => ?_, fun off => ?_, fun off => ?_, fun off => ?_, fun imm bad => ?_, fun imm bad => ?_,
    fun off => ?_⟩, fun s h x i r foreign => ?_⟩
  · rw [wordsFrom_eq]
    intro _ bad p hp
    obtain ⟨taken, shape⟩ := exec_branches hp
    rw [shape]
    exact branch_bad r bad taken 4 a
  · rw [wordsFrom_eq]
    exact fun bad => branch_bad r bad _ 2 a
  · rw [wordsFrom_eq]
    exact fun bad => execCJ_bad r bad
  · rw [← wordOff_eq_ofInt]
    exact fun bad => execJal_bad r bad d
  · exact jumpRegister_bad r bad 4 d
  · exact jumpRegister_bad r bad 8 d
  · rw [← wordOff_eq_ofInt]
    intro _ hs bad
    rw [← hs] at bad
    exact ⟨queueBranch_bad r hs bad true, queueBranch_bad r hs bad false⟩
  · rcases foreign with ⟨hs, only⟩ | ⟨hs, only⟩
    · exact illegalOn_as_of_csOnlyInstr only s h x r hs
    · exact illegalOn_cs_of_asOnlyInstr only s h x r hs

end Sys2Proof.Machine
end


section
/-! O55: words of text and near-bank words, read back from what `encode` writes (09 R187 to R203, 15 R351). -/

namespace Sys2Proof

open Sys2Proof.Claims (isNearBank)

variable {i : Instr} {w : TextWord}

theorem decodeWords_of_encode (enc : encode i = [w]) (wf : i.wf = true) (core : ¬ isNearBank i) (frame : w.toNat % 4 = 3) :
    decodeWords w none false = .ok (i, 4) := by
  obtain ⟨reads, -⟩ := (decodeEncode.1 i wf).2 core
  obtain ⟨-, dec⟩ | ⟨pair, -⟩ := reads w none enc
  · exact dec
  · omega

theorem decodeNbe_of_encode (enc : encode i = [w]) (wf : i.wf = true) (bank : isNearBank i) : decodeNbe w = .ok i := by
  obtain ⟨w', enc', dec⟩ := (decodeEncode.1 i wf).1 bank
  rw [enc, List.singleton_inj] at enc'
  rwa [enc']

/-- Frame 0b00 is no frame of text, whatever follows (09 R182). -/
theorem decodeWords_zero (next : Option TextWord) (slot1 : Bool) : decodeWords 0 next slot1 = .error .illegalFrame := rfl

/-- The word of `nop` with 1 in its field a, which `nop` does not use (09 R190). -/
theorem decodeWords_nop_unused : decodeWords 0x00001003 none false = .error .unusedBits := rfl

/- The theorem of the statement's name stands in a namespace of its own: `Sys2Proof.decodeWords` is the model's decoder. -/
namespace Words

/-- Settles O55: each word is what `encode` writes for its instruction, and so decodes to it (`decodeEncode`). -/
theorem decodeWords : Obligations.DecodeWords :=
  ⟨decodeWords_of_encode rfl rfl id rfl, decodeWords_of_encode rfl rfl id rfl, decodeWords_of_encode rfl rfl id rfl,
    decodeWords_of_encode rfl rfl id rfl, decodeWords_of_encode rfl rfl id rfl, decodeWords_of_encode rfl rfl id rfl,
    decodeWords_of_encode rfl rfl id rfl, decodeWords_of_encode rfl rfl id rfl, decodeWords_of_encode rfl rfl id rfl,
    decodeWords_of_encode rfl rfl id rfl, decodeWords_of_encode rfl rfl id rfl, decodeWords_of_encode rfl rfl id rfl,
    decodeWords_of_encode rfl rfl id rfl, decodeNbe_of_encode rfl rfl trivial, decodeNbe_of_encode rfl rfl trivial,
    decodeNbe_of_encode rfl rfl trivial, decodeNbe_of_encode rfl rfl trivial, decodeWords_zero,
    fun _ _ dec => nomatch decodeWords_nop_unused.symm.trans dec⟩

end Words

end Sys2Proof
end


section
/-! O1, parts: what the integer operations of 11 R234 and the divisions of 06 R139 give on words. -/

namespace Sys2Proof.Machine

open Sys2Proof.Claims

/-! ### Minimum, maximum and high products (11 R234) -/

theorem aluMin_eq (a b : Word) : aluMin a b = if a.toInt ≤ b.toInt then a else b := by
  simp only [aluMin, BitVec.slt, decide_eq_true_eq, ← not_le, ite_not]

theorem aluMax_eq (a b : Word) : aluMax a b = if a.toInt ≤ b.toInt then b else a := by
  simp only [aluMax, BitVec.slt, decide_eq_true_eq]
  rcases lt_trichotomy a.toInt b.toInt with lt | eq | gt
  · rw [if_pos lt, if_pos lt.le]
  · rw [BitVec.eq_of_toInt_eq eq, ite_self, ite_self]
  · rw [if_neg gt.not_gt, if_neg gt.not_ge]

theorem aluMinu_eq (a b : Word) : aluMinu a b = if a.toNat ≤ b.toNat then a else b := by
  simp only [aluMinu, BitVec.ult, decide_eq_true_eq, ← not_le, ite_not]

theorem aluMaxu_eq (a b : Word) : aluMaxu a b = if a.toNat ≤ b.toNat then b else a := by
  simp only [aluMaxu, BitVec.ult, decide_eq_true_eq]
  rcases lt_trichotomy a.toNat b.toNat with lt | eq | gt
  · rw [if_pos lt, if_pos lt.le]
  · rw [BitVec.eq_of_toNat_eq eq, ite_self, ite_self]
  · rw [if_neg gt.not_gt, if_neg gt.not_ge]

theorem aluMulh_eq (a b : Word) : aluMulh a b = BitVec.ofInt 64 ((a.toInt * b.toInt).fdiv (2 ^ 64)) := by
  rw [Int.fdiv_eq_ediv_of_nonneg _ (by decide)]
  rfl

/-! ### Divisions (06 R139) -/

/-- The one quotient that overflows leaves the dividend, as its low 64 bits do. -/
theorem aluDiv_eq (a b : Word) :
    aluDiv a b = if b = 0 then BitVec.allOnes 64 else BitVec.ofInt 64 (a.toInt.tdiv b.toInt) := by
  unfold aluDiv divS wordOfInt
  split
  · rfl
  · split
    · next most =>
      simp only [Bool.and_eq_true, decide_eq_true_eq] at most
      rw [most.1, most.2]
      rfl
    · rfl

theorem aluRem_eq (a b : Word) : aluRem a b = if b = 0 then a else BitVec.ofInt 64 (a.toInt.tmod b.toInt) := by
  unfold aluRem remS wordOfInt
  split
  · exact BitVec.ofInt_toInt
  · rfl

theorem aluDivu_eq (a b : Word) :
    aluDivu a b = if b = 0 then BitVec.allOnes 64 else BitVec.ofNat 64 (a.toNat / b.toNat) := by
  unfold aluDivu divU wordOfInt
  split
  · rfl
  · exact BitVec.ofInt_natCast ..

theorem aluRemu_eq (a b : Word) : aluRemu a b = if b = 0 then a else BitVec.ofNat 64 (a.toNat % b.toNat) := by
  unfold aluRemu remU wordOfInt
  split
  · rw [BitVec.ofInt_natCast, BitVec.ofNat_toNat, BitVec.setWidth_eq]
  · exact BitVec.ofInt_natCast ..

/-! ### Counts (11 R234) -/

theorem aluClz_eq (a : Word) : aluClz a = BitVec.ofNat 64 (if a = 0 then 64 else 63 - a.toNat.log2) := by
  have zero : a.toNat = 0 ↔ a = 0 :=
    (BitVec.toNat_eq (y := 0#64)).symm
  simp only [aluClz, leadZeros, zero]

/-- The position of the lowest 1 bit of the low n bits, n where there is none. -/
theorem trailZeros_eq_find (x n : Nat) : trailZeros x n = ((List.range n).find? fun k => x.testBit k).getD n := by
  induction n generalizing x with
  | zero => rfl
  | succ n ih =>
    rw [trailZeros, ih, List.range_succ_eq_map, List.find?_cons, Nat.testBit_zero]
    by_cases odd : x % 2 = 1
    · simp [odd]
    · simp only [odd, if_false, decide_false, List.find?_map, Function.comp_def, Nat.succ_eq_add_one, Nat.testBit_succ]
      cases (List.range n).find? fun k => (x / 2).testBit k <;> simp [Nat.add_comm]

theorem popBits_eq_length (x n : Nat) : popBits x n = ((List.range n).filter fun k => x.testBit k).length := by
  induction n with
  | zero => rfl
  | succ n ih =>
    rw [popBits, ih, List.range_succ, List.filter_append, List.length_append]
    cases e : x.testBit n <;> simp [e]

/-! ### The tables -/

theorem alu2_congr {f f' : Word → Word → Word} (same : ∀ u v, f u v = f' u v) (d a b : RegField) (s : State) :
    alu2 f d a b s = alu2 f' d a b s := by
  rw [funext₂ same]

theorem exec_threeRegister : ∀ p ∈ threeRegister, ∀ d a b s, exec (p.1 d a b) s = alu2 p.2 d a b s := by
  simp only [threeRegister, List.forall_mem_cons]
  exact ⟨fun _ _ _ _ => rfl, fun _ _ _ _ => rfl, fun _ _ _ _ => rfl, fun _ _ _ _ => rfl, fun _ _ _ _ => rfl,
    fun _ _ _ _ => rfl, fun _ _ _ _ => rfl, fun _ _ _ _ => rfl, fun _ _ _ _ => rfl, fun _ _ _ _ => rfl,
    alu2_congr aluMin_eq, alu2_congr aluMax_eq, alu2_congr aluMinu_eq, alu2_congr aluMaxu_eq, fun _ _ _ _ => rfl,
    alu2_congr aluMulh_eq, fun _ _ _ _ => rfl, List.forall_mem_nil _⟩

theorem exec_divisions : ∀ p ∈ divisions, ∀ d a b s, exec (p.1 d a b) s = alu2 p.2 d a b s := by
  simp only [divisions, List.forall_mem_cons]
  exact ⟨alu2_congr aluDiv_eq, alu2_congr aluRem_eq, alu2_congr aluDivu_eq, alu2_congr aluRemu_eq, List.forall_mem_nil _⟩

theorem alu1_congr {f f' : Word → Word} (same : ∀ u, f u = f' u) (n : Nat) (d a : RegField) (s : State) :
    alu1 f n d a s = alu1 f' n d a s := by
  rw [funext same]

theorem exec_countOps : ∀ p ∈ countOps, ∀ d a s, exec (p.1 d a) s = alu1 p.2 4 d a s := by
  simp only [countOps, List.forall_mem_cons]
  exact ⟨alu1_congr aluClz_eq 4, alu1_congr (fun u => congrArg _ (trailZeros_eq_find u.toNat 64)) 4,
    alu1_congr (fun u => congrArg _ (popBits_eq_length u.toNat 64)) 4, List.forall_mem_nil _⟩

/-- Settles O1: a row by the word operation that its instruction is made of, and every such instruction by `alu2_run` or
`alu1_run`. -/
theorem integerRegisterResults : Obligations.IntegerRegisterResults := by
  refine ⟨fun s c d a b hc => ⟨fun p hp => ?_, fun p hp => ?_, rfl, rfl⟩, fun s c d a b hc p hp => ?_⟩
  · rw [exec_threeRegister p hp]
    exact alu2_run hc p.2 d a b
  · rw [exec_countOps p hp]
    exact alu1_run hc p.2 4 d a
  · rw [exec_divisions p hp]
    exact alu2_run hc p.2 d a b

end Sys2Proof.Machine
end


section
/-! O2: bit fields, field insertion and the funnel shift (11 R235, R236), and their words (09 R187). -/

namespace Sys2Proof.Machine

open Sys2Proof.Claims

variable {s : State} {c : Cpu}

/-! ### Words of text as numbers (09 R187) -/

theorem toNat_append_eq_add {m n : Nat} (x : BitVec m) (y : BitVec n) : (x ++ y).toNat = x.toNat * 2 ^ n + y.toNat := by
  rw [BitVec.toNat_append, ← Nat.shiftLeft_add_eq_or_of_lt y.isLt, Nat.shiftLeft_eq]

/-- A word of the R format as the sum of its fields, each at its place. -/
theorem rWord_eq_ofNat (fn : BitVec 10) (b a d mj : BitVec 5) : rWord fn b a d mj = BitVec.ofNat 32
    (fn.toNat * 2 ^ 22 + b.toNat * 2 ^ 17 + a.toNat * 2 ^ 12 + d.toNat * 2 ^ 7 + mj.toNat * 4 + 3) := by
  refine BitVec.eq_of_toNat_eq ?_
  simp only [rWord, toNat_append_eq_add, BitVec.toNat_ofNat]
  omega

theorem uWord_eq_ofNat (imm : BitVec 20) (d mj : BitVec 5) :
    uWord imm d mj = BitVec.ofNat 32 (imm.toNat * 2 ^ 12 + d.toNat * 2 ^ 7 + mj.toNat * 4 + 3) := by
  refine BitVec.eq_of_toNat_eq ?_
  simp only [uWord, toNat_append_eq_add, BitVec.toNat_ofNat]
  omega

/-- The word of a bit-field instruction, the numbers of its function and its major put together. -/
theorem rWord_major3 {fn : BitVec 10} {k : Nat} (op : k = fn.toNat * 2 ^ 22 + 0x0F) (d a b : RegField) :
    [rWord fn b a d 3] = [BitVec.ofNat 32 (k + b.toNat * 2 ^ 17 + a.toNat * 2 ^ 12 + d.toNat * 2 ^ 7)] := by
  have sum : fn.toNat * 2 ^ 22 + b.toNat * 2 ^ 17 + a.toNat * 2 ^ 12 + d.toNat * 2 ^ 7 + (3 : BitVec 5).toNat * 4 + 3 =
      k + b.toNat * 2 ^ 17 + a.toNat * 2 ^ 12 + d.toNat * 2 ^ 7 := by
    have major : (3 : BitVec 5).toNat = 3 := rfl
    omega
  rw [rWord_eq_ofNat, sum]

/-! ### Reading a field (11 R235) -/

theorem bextNat_eq_fieldOf (a b : Word) : bextNat a.toNat (fieldPos b) (fieldLen b) = fieldOf a b := by
  have far : ¬ b.toNat % 256 < 64 → a.toNat / 2 ^ (b.toNat % 256) = 0 := fun ge =>
    Nat.div_eq_of_lt (a.isLt.trans_le (Nat.pow_le_pow_right (by decide) (by omega)))
  unfold bextNat fieldOf fieldPos fieldLen
  rw [Nat.shiftRight_eq_div_pow, Nat.min_assoc, Nat.min_self]
  split
  · rfl
  · next ge => rw [far ge]

theorem signExt_eq_toInt (n x : Nat) : signExt n x = (BitVec.ofNat n x).toInt := by
  cases n with
  | zero => rw [BitVec.eq_nil (BitVec.ofNat 0 x)]; rfl
  | succ n =>
    have half : x % 2 ^ (n + 1) < 2 ^ n ↔ 2 * (x % 2 ^ (n + 1)) < 2 ^ (n + 1) := by rw [Nat.pow_succ]; omega
    simp only [signExt, BitVec.toInt_eq_toNat_cond, BitVec.toNat_ofNat, Nat.succ_ne_zero, if_false, Nat.add_sub_cancel, half]

theorem aluBexts_eq (a b : Word) : aluBexts a b =
    (BitVec.ofNat (min (b.toNat / 256 % 256) 64) (fieldOf a b)).signExtend 64 := by
  unfold aluBexts
  rw [bextNat_eq_fieldOf, signExt_eq_toInt]
  split
  · next empty =>
    change min (b.toNat / 256 % 256) 64 = 0 at empty
    rw [empty, BitVec.eq_nil (BitVec.ofNat 0 _)]
    rfl
  · rfl

/-! ### Inserting a field (11 R235) -/

/-- Bit k of the insertion is a bit of a inside the field, and the bit of d outside it. -/
theorem getLsbD_aluBins (d a b : Word) {k : Nat} (hk : k < 64) : (aluBins d a b).getLsbD k =
    if fieldPos b ≤ k ∧ k < fieldPos b + fieldLen b then a.getLsbD (k - fieldPos b) else d.getLsbD k := by
  unfold aluBins
  dsimp only
  generalize fieldPos b = pos
  generalize fieldLen b = len
  split
  · simp only [BitVec.getLsbD_or, BitVec.getLsbD_and, BitVec.getLsbD_not, BitVec.getLsbD_shiftLeft, BitVec.getLsbD_ofNat,
      Nat.testBit_two_pow_sub_one]
    by_cases low : k < pos
    · simp [low, hk]
    · by_cases inside : k - pos < len
      · have field : pos ≤ k ∧ k < pos + len := by omega
        have : k - pos < 64 := by omega
        simp [low, inside, field, hk, this]
      · have field : ¬ (pos ≤ k ∧ k < pos + len) := by omega
        simp [low, inside, field, hk]
  · have outside : ¬ (pos ≤ k ∧ k < pos + len) := by omega
    rw [if_neg outside]

theorem execBins_run (hc : cpu? s = some c) (d a b : RegField) : execBins d a b s =
    .next (retire s c d (aluBins (c.reg s d) (c.reg s a) (c.reg s b)) (c.pc s + 4)) := by
  unfold execBins
  rw [runScalar_run hc both_admits, M.bind_ok (getX_run hc a), M.bind_ok (getX_run hc b), M.bind_ok (getX_run hc d)]
  exact writes_run hc d _ 4

/-! ### The funnel shift (11 R236) -/

/-- Bit k of the funnel shift is a bit of b, or past its end a bit of a. -/
theorem getLsbD_aluFshi (a b : Word) (sh : BitVec 6) {k : Nat} (hk : k < 64) : (aluFshi a b sh).getLsbD k =
    if sh.toNat + k < 64 then b.getLsbD (sh.toNat + k) else a.getLsbD (sh.toNat + k - 64) := by
  unfold aluFshi
  rw [BitVec.getLsbD_ofNat, Nat.testBit_shiftRight, Nat.mul_comm, Nat.testBit_two_pow_mul_add _ b.isLt]
  simp only [hk, decide_true, Bool.true_and]
  rfl

/-- Settles O2: the two reads by their word operations, the insertion and the funnel shift bit by bit, and each word by the sum
of its fields. -/
theorem bitFieldResults : Obligations.BitFieldResults := by
  refine fun s c d a b hc => ⟨?reads, ⟨_, execBins_run hc d a b, fun k hk => getLsbD_aluBins _ _ _ hk⟩,
    fun sh => ⟨_, alu2_run hc _ d a b, fun k hk => getLsbD_aluFshi _ _ sh hk⟩,
    rWord_major3 rfl d a b, rWord_major3 rfl d a b, rWord_major3 rfl d a b, fun sh => rWord_major3 ?fn d a b⟩
  case reads =>
    simp only [fieldReads, List.forall_mem_cons]
    refine ⟨?_, ?_, List.forall_mem_nil _⟩
    · rw [← bextNat_eq_fieldOf]
      exact alu2_run hc aluBext d a b
    · rw [← aluBexts_eq]
      exact alu2_run hc aluBexts d a b
  case fn =>
    rw [toNat_append_eq_add]
    rfl

end Sys2Proof.Machine
end


section
/-! O3: operations with an immediate and the shifts (11 R237, 09 R193), `ldhi` and `adpc` (11 R238). -/

namespace Sys2Proof.Machine

open Sys2Proof.Claims

variable {s : State} {c : Cpu}

/-- An immediate with 12 zero bits below it, sign-extended, is 4,096 times the immediate. -/
theorem signExtend_append_zero {n : Nat} (i : BitVec n) :
    (i ++ 0#12).signExtend 64 = BitVec.ofInt 64 (i.toInt * 4096) := by
  cases n with
  | zero => rw [BitVec.eq_nil i]; rfl
  | succ n =>
    have nonzero : (n + 1 == 0) = false := rfl
    rw [BitVec.signExtend, BitVec.toInt_append, nonzero]
    simp only [Bool.false_eq_true, if_false, BitVec.toNat_ofNat, Nat.zero_mod, Nat.cast_zero, add_zero]
    rw [mul_comm]
    rfl

/-- Each operation of 11 R237 has one word function, which takes the immediate sign-extended, from 12 bits or from 37. -/
theorem exec_immediateOps : ∀ p ∈ immediateOps,
    (∀ d a i s, exec (p.1 d a i) s = alu1 (fun v => p.2.2 v (i.signExtend 64)) 4 d a s) ∧
    ∀ d a i s, exec (p.2.1 d a i) s = alu1 (fun v => p.2.2 v (i.signExtend 64)) 8 d a s := by
  simp only [immediateOps, List.forall_mem_cons]
  exact ⟨⟨fun _ _ _ _ => rfl, fun _ _ _ _ => rfl⟩, ⟨fun _ _ _ _ => rfl, fun _ _ _ _ => rfl⟩,
    ⟨fun _ _ _ _ => rfl, fun _ _ _ _ => rfl⟩, ⟨fun _ _ _ _ => rfl, fun _ _ _ _ => rfl⟩,
    ⟨fun _ _ _ _ => rfl, fun _ _ _ _ => rfl⟩, ⟨fun _ _ _ _ => rfl, fun _ _ _ _ => rfl⟩, List.forall_mem_nil _⟩

theorem exec_shiftOps : ∀ p ∈ shiftOps, ∀ d a sh s, exec (p.1 d a sh) s = alu1 (fun v => p.2 v sh.toNat) 4 d a s := by
  simp only [shiftOps, List.forall_mem_cons]
  exact ⟨fun _ _ _ _ => rfl, fun _ _ _ _ => rfl, fun _ _ _ _ => rfl, List.forall_mem_nil _⟩

/-- Settles O3: an operation by its word function and `alu1_run`, `ldhi` and `adpc` by `aluPc_run`, their words by the sums of
their fields. -/
theorem immediateResults : Obligations.ImmediateResults := by
  refine ⟨fun s c d a hc => ⟨fun p hp i => ?short, fun p hp i => ?long, fun p hp sh => ?shift⟩,
    fun s c d i j hc => ⟨?ldhi, ?adpc, ?ldhiLong, ?adpcLong, congrArg (fun w => [w]) (uWord_eq_ofNat i d 5),
      congrArg (fun w => [w]) (uWord_eq_ofNat i d 6)⟩⟩
  case short =>
    rw [(exec_immediateOps p hp).1]
    exact alu1_run hc _ 4 d a
  case long =>
    rw [(exec_immediateOps p hp).2]
    exact alu1_run hc _ 8 d a
  case shift =>
    rw [exec_shiftOps p hp]
    exact alu1_run hc _ 4 d a
  case ldhi =>
    rw [← signExtend_append_zero]
    exact aluPc_run hc _ 4 d
  case adpc =>
    rw [← signExtend_append_zero]
    exact aluPc_run hc (fun pc => pc + uImm i) 4 d
  case ldhiLong =>
    rw [← signExtend_append_zero]
    exact aluPc_run hc _ 8 d
  case adpcLong =>
    rw [← signExtend_append_zero]
    exact aluPc_run hc (fun pc => pc + uImmLong j) 8 d

end Sys2Proof.Machine
end


section
/-! O6: the frame of the register-only integer instructions (11 R225, R234 to R238, 09 R203). -/

namespace Sys2Proof.Machine

open Sys2Proof.Claims

variable {s : State} {c : Cpu} {d : RegField} {i : Instr} {g k : Nat}

/-- The shapes of the register-only integer instructions: what each reads before it writes register d and goes on. -/
inductive WritesRegister (d : RegField) : (State → Result) → Prop where
  | two (f : Word → Word → Word) (a b : RegField) : WritesRegister d (alu2 f d a b)
  | one (f : Word → Word) (n : Nat) (a : RegField) : WritesRegister d (alu1 f n d a)
  | pc (f : Word → Word) (n : Nat) : WritesRegister d (aluPc f n d)
  | slot (f : Word → Word → Word) (b : RegField) : WritesRegister d (slot2 f d b)
  | insert (a b : RegField) : WritesRegister d (execBins d a b)

theorem writesRegister_of_writesOnly (only : writesOnly d i) : WritesRegister d (exec i) := by
  cases i with
  | add | sub | and | or | xor | sll | srl | sra | slt | sltu | min | max | minu | maxu | mul | mulh | mulhu | div | rem | divu
  | remu | bext | bexts | fshi => cases only; exact .two _ _ _
  | clz | ctz | pop | addi | andi | ori | xori | slti | sltui | slli | srli | srai | addiLong | andiLong | oriLong | xoriLong
  | sltiLong | sltuiLong | cMov | cAddi | cSlli => cases only; exact .one _ _ _
  | ldhi | adpc | ldhiLong | adpcLong => cases only; exact .pc _ _
  | cAdd | cSub | cAnd => cases only; exact .slot _ _
  | bins => cases only; exact .insert _ _
  | _ => exact only.elim

theorem WritesRegister.retires {run : State → Result} (w : WritesRegister d run) (hc : cpu? s = some c) :
    ∃ v pc, run s = .next (retire s c d v pc) := by
  cases w with
  | two f a b => exact ⟨_, _, alu2_run hc f d a b⟩
  | one f n a => exact ⟨_, _, alu1_run hc f n d a⟩
  | pc f n => exact ⟨_, _, aluPc_run hc f n d⟩
  | slot f b => exact ⟨_, _, slot2_run hc f d b⟩
  | insert a b => exact ⟨_, _, execBins_run hc d a b⟩

/-! ### What the end of such an instruction leaves -/

/-- An update of a hart changes its gang's harts only, and no other gang. -/
theorem findGang_mapHart_frame (f : Hart → Hart) (g' : Nat) :
    (findGang (mapHart s g k f) g').map (fun y => { y with harts := [] }) =
      (findGang s g').map fun y => { y with harts := [] } := by
  rw [mapHart, findGang_mapGang _ (by intro; rfl), Option.map_map]
  refine congrArg (fun f => Option.map f (findGang s g')) (funext fun y => ?_)
  dsimp only [Function.comp]
  split <;> rfl

theorem getReg_setReg_ne (x : Hart) (sl sl' : SliceId) (d r : RegField) (v : Word) (ne : sl' ≠ sl ∨ r ≠ d) :
    (x.setReg sl d v).getReg sl' r = x.getReg sl' r := by
  have file (f : Vector Word 32) (ne : r ≠ d) : fileGet (fileSet f d v) r = fileGet f r := by
    rw [fileGet_fileSet, if_neg fun e => ne e.1.symm]
  cases sl <;> cases sl'
  · exact file x.a (ne.resolve_left (absurd rfl))
  · rfl
  · rfl
  · exact file x.c (ne.resolve_left (absurd rfl))

theorem getReg_setPc_issued (x : Hart) (sl sl' : SliceId) (r : RegField) (pc : Word) :
    ((x.setPc sl pc).issued sl).getReg sl' r = x.getReg sl' r := by
  cases sl' <;> simp [Hart.getReg]

/-- The end of an instruction writes its slice, its registers and the count of mutual waiting of the hart. -/
theorem sameBut_retired (x : Hart) (sl : SliceId) (d : RegField) (v pc : Word) :
    x.sameBut (((x.setReg sl d v).setPc sl pc).issued sl) sl d := by
  refine ⟨fun r sl' ne => ?_, by simp, by simp, ?_⟩
  · rw [getReg_setPc_issued, getReg_setReg_ne x sl sl' d r v ne]
  · obtain ⟨cond, ended, -⟩ := Hart.issued_eq ((x.setReg sl d v).setPc sl pc) sl
    rw [ended]
    cases sl <;> rfl

/-- Settles O6: by its shape such an instruction ends in `retire`, which updates one hart. -/
theorem registerOnlyFrame : Obligations.RegisterOnlyFrame := by
  intro s t h x i d r only run
  obtain ⟨v, pc, ended⟩ := (writesRegister_of_writesOnly only).retires r.cpu
  rw [run] at ended
  cases ended
  have found := (findHart_mapHart_same fun y => ((y.setReg h.sl d v).setPc h.sl pc).issued h.sl).trans (congrArg _ r.hart)
  exact ⟨rfl, findGang_mapHart_frame _, fun g k other => findHart_mapHart_other _ fun e => other (Prod.ext e.1 e.2), _, found,
    sameBut_retired x h.sl d v pc⟩

end Sys2Proof.Machine
end


section
/-! O7: branches, queue branches and jumps whose target passes the checks of 09 R186 (11 R239 to R241, 09 R203). -/

namespace Sys2Proof.Machine

open Sys2Proof.Claims

variable {s : State} {c : Cpu} {h : Here} {x : Hart} {t : Word} {a d : RegField}

/-! ### The checks on a target -/

theorem checkTarget_good {sl : SliceId} (r : Runs s h x) (good : t.toNat % 8 = 0 ∨ t.toNat % 8 = 4 ∧ ∃ w p,
    ((x.slice sl).fbuf.find? fun e => e.1 == t) = some (t, w) ∧
    ((x.slice sl).fbuf.find? fun e => e.1 == t - 4#64) = some (t - 4#64, p) ∧ frameBits w ≠ 2 ∧ frameBits p ≠ 2) :
    checkTarget sl t s = .ok () s := by
  unfold checkTarget
  rcases good with zero | ⟨half, w, p, heldw, heldp, framew, framep⟩
  · have even : t.toNat % 4 = 0 := by omega
    simp [zero, even]
  · have even : t.toNat % 4 = 0 := by omega
    simp only [even, half, bne_self_eq_false, Bool.false_eq_true, if_false]
    rw [M.bind_ok (peekWord_held r heldw), M.bind_ok (peekWord_held r heldp)]
    simp [framew, framep]

theorem checkTargetHere_good (hc : cpu? s = some c) (good : targetGood s c t) : checkTargetHere t s = .ok () s := by
  unfold checkTargetHere
  rw [M.bind_ok (cpuM_run hc)]
  cases c with
  | slice h =>
    obtain ⟨x, hx⟩ := here?_hart (cpu?_slice hc)
    refine checkTarget_good ⟨cpu?_slice hc, hx⟩ (good.imp_right fun ⟨half, y, w, p, hy, held⟩ => ⟨half, w, p, ?_⟩)
    rw [hx] at hy
    cases hy
    exact held
  | survey k =>
    have passes : (t.toNat % 4 != 0 || (t.toNat % 8 = 4 && (surveyLong s t || surveyLong s (t - 4#64)))) = false := by
      rcases good with zero | ⟨half, longw, longp⟩
      · have even : t.toNat % 4 = 0 := by omega
        simp [zero, even]
      · have even : t.toNat % 4 = 0 := by omega
        simp [even, longw, longp]
    dsimp only
    rw [M.bind_ok (M.get_run s), passes]
    rfl

/-! ### Branches (11 R239) -/

theorem branch_good (hc : cpu? s = some c) {off : Word} (good : targetGood s c ((c.pc s &&& ~~~(3#64)) + off))
    (taken : Word → Bool) (n : Nat) : branch taken n off a s = .next (retire s c 0 0
      (if taken (c.reg s a) then (c.pc s &&& ~~~(3#64)) + off else c.pc s + BitVec.ofNat 64 n)) := by
  unfold branch
  rw [runScalar_run hc both_admits, M.bind_ok (getPc_run hc), M.bind_ok (checkTargetHere_good hc good), M.bind_ok (getX_run hc a)]
  split
  · rw [setPcM_run hc, finish_setPc]
  · rw [advance_run hc, finish_setPc]

theorem branch_congr {f f' : Word → Bool} (same : ∀ v, f v = f' v) (off : BitVec 15) (a : RegField) (s : State) :
    branch f 4 (wordOff off) a s = branch f' 4 (wordOff off) a s := by
  rw [funext same]

theorem toInt_eq_zero_iff (v : Word) : v.toInt = 0 ↔ v = 0 := BitVec.toInt_inj (y := 0#64)

/-- Each of the six conditional branches tests its register as its row says. -/
theorem exec_branches_taken : ∀ p ∈ branches, ∀ off a s, exec (p.1 a off) s = branch p.2 4 (wordOff off) a s := by
  simp only [branches, List.forall_mem_cons]
  refine ⟨branch_congr fun v => ?_, branch_congr fun v => ?_, branch_congr fun v => rfl, branch_congr fun v => ?_,
    branch_congr fun v => rfl, branch_congr fun v => ?_, List.forall_mem_nil _⟩
  · rw [Bool.eq_iff_iff, beq_iff_eq, decide_eq_true_eq, toInt_eq_zero_iff]
  · rw [Bool.eq_iff_iff, bne_iff_ne, decide_eq_true_eq, ne_eq, ne_eq, toInt_eq_zero_iff]
  · exact (decide_not ..).symm.trans (decide_eq_decide.mpr not_lt)
  · exact (decide_not ..).symm.trans (decide_eq_decide.mpr not_lt)

/-! ### Jumps (11 R241) -/

theorem finish_jumpTo_good (hc : cpu? s = some c) (good : targetGood s c t) (n : Nat) :
    finish c (jumpTo n d t s) = .next (retire s c d (c.pc s + BitVec.ofNat 64 n) t) := by
  unfold jumpTo
  rw [M.bind_ok (getPc_run hc), M.bind_ok (checkTargetHere_good hc good), M.bind_ok (setX_run hc d _),
    setPcM_run (by simpa using hc), finish_setReg_setPc]

/-- A jump to a register plus an immediate, in either length. -/
theorem jumpRegister_good (hc : cpu? s = some c) {imm : Word} (good : targetGood s c (c.reg s a + imm)) (n : Nat) :
    runScalar both (do let y ← getX a; jumpTo n d (y + imm)) s =
      .next (retire s c d (c.pc s + BitVec.ofNat 64 n) (c.reg s a + imm)) := by
  rw [runScalar_run hc both_admits, M.bind_ok (getX_run hc a)]
  exact finish_jumpTo_good hc good n

theorem execJal_good (hc : cpu? s = some c) {off : BitVec 20} (good : targetGood s c (c.pc s + wordOff off)) :
    execJal d off s = .next (retire s c d (c.pc s + 4) (c.pc s + wordOff off)) := by
  unfold execJal
  rw [runScalar_run hc both_admits, M.bind_ok (getPc_run hc)]
  exact finish_jumpTo_good hc good 4

theorem execCJ_good (hc : cpu? s = some c) {off : BitVec 10}
    (good : targetGood s c ((c.pc s &&& ~~~(3#64)) + wordOff off)) :
    execCJ off s = .next (retire s c 0 0 ((c.pc s &&& ~~~(3#64)) + wordOff off)) := by
  unfold execCJ
  rw [runScalar_run hc both_admits, M.bind_ok (getPc_run hc), M.bind_ok (checkTargetHere_good hc good), setPcM_run hc,
    finish_setPc]

/-! ### Queue branches (11 R240) -/

theorem finish_setPcM (r : Runs s h x) (pc : Word) : finish (.slice h) (setPcM pc s) = .next (goOn s h pc id) := by
  rw [setPcM_run r.cpu]
  simp [finish, Cpu.setPc, goOn, mapHart_mapHart]

/-- What a hart is made of before its slice goes on. -/
theorem goOn_mapHart (f : Hart → Hart) (pc : Word) : goOn (mapHart s h.gang h.hid f) h pc id = goOn s h pc f := by
  rw [goOn, mapHart_mapHart]
  rfl

theorem branchBits_slice (r : Runs s h x) : branchBits s = .ok x.qb s := by
  unfold branchBits
  rw [M.bind_ok (cpuM_run r.cpu)]
  dsimp only
  rw [M.bind_ok (hartM_run r)]
  rfl

theorem branchBits_survey {k : Nat} (hc : cpu? s = some (.survey k)) : branchBits s = .ok [] s := by
  unfold branchBits
  rw [M.bind_ok (cpuM_run hc)]
  rfl

/-- With no bit to take, a processor waits at a queue. -/
theorem queueBranch_empty (hc : cpu? s = some c) (admits : asSurvey.admits c = true) {off : BitVec 15}
    (good : targetGood s c (c.pc s + wordOff off)) (empty : branchBits s = .ok [] s) (want : Bool) :
    queueBranch want off s = finish c (.error (.wait .queue) s) := by
  unfold queueBranch
  rw [runScalar_run hc admits, M.bind_ok (getPc_run hc), M.bind_ok (checkTargetHere_good hc good), M.bind_ok empty]
  rfl

theorem queueBranch_takes (r : Runs s h x) (hs : h.sl = .as) {off : BitVec 15}
    (good : targetGood s (.slice h) (x.as_.pc + wordOff off)) {b : Bool} {rest : List Bool} (hq : x.qb = b :: rest)
    (want : Bool) : queueBranch want off s =
      .next (goOn s h (if b = want then x.as_.pc + wordOff off else x.as_.pc + 4) fun y => { y with qb := rest }) := by
  have pc : (Cpu.slice h).pc s = x.as_.pc := by rw [pc_of_runs r, hs]; rfl
  have bits : branchBits s = .ok (b :: rest) s := hq ▸ branchBits_slice r
  have r1 := r.mapHart fun y => { y with qb := rest }
  unfold queueBranch
  rw [runScalar_run r.cpu (asSurvey_admits hs), M.bind_ok (getPc_run r.cpu), pc, M.bind_ok (checkTargetHere_good r.cpu good),
    M.bind_ok bits]
  dsimp only
  rw [M.bind_ok (modHart_run r.who _)]
  by_cases go : b = want
  · rw [if_pos (by simpa using go), if_pos go, finish_setPcM r1, goOn_mapHart]
  · rw [if_neg (by simpa using go), if_neg go, finish_advance r1, goOn_mapHart, hs]
    rfl

/-- Settles O7: a branch, a jump or a queue branch by the lemma on its shape, once its target has passed the checks. -/
theorem branchAndJumpResults : Obligations.BranchAndJumpResults := by
  refine ⟨fun s c a hc => ⟨fun off => ?branch, fun off => ?cBnez⟩, fun s c d a hc => ⟨fun off => ?jal,
    fun imm good => jumpRegister_good hc good 4, fun imm good => jumpRegister_good hc good 8, fun off => ?cJ⟩,
    fun s h x off r hs => ?queue, fun s k off hc => ?survey⟩
  case branch =>
    rw [wordsFrom_eq]
    intro _ good p hp
    rw [exec_branches_taken p hp]
    exact branch_good hc good p.2 4
  case cBnez =>
    rw [wordsFrom_eq]
    intro _ good
    have key := branch_good (a := a) hc good (fun v => v != 0) 2
    simp only [bne_iff_ne] at key
    exact key
  case jal =>
    rw [← wordOff_eq_ofInt]
    exact fun good => execJal_good hc good
  case cJ =>
    rw [wordsFrom_eq]
    exact fun good => execCJ_good hc good
  case queue =>
    rw [← wordOff_eq_ofInt]
    intro t good
    have pc : (Cpu.slice h).pc s = x.as_.pc := by rw [pc_of_runs r, hs]; rfl
    refine ⟨fun b rest hq => ⟨queueBranch_takes r hs good hq true, ?_⟩, fun hq => ?_⟩
    · refine (queueBranch_takes r hs good hq false).trans ?_
      cases b <;> rfl
    · have waits := queueBranch_empty r.cpu (asSurvey_admits hs) (by rw [pc]; exact good) (hq ▸ branchBits_slice r)
      exact ⟨waits true, waits false⟩
  case survey =>
    rw [← wordOff_eq_ofInt]
    intro good
    have waits := queueBranch_empty hc rfl good (branchBits_survey hc)
    exact ⟨waits true, waits false⟩

end Sys2Proof.Machine
end


section
/-! O10: the trap instructions (11 R227, 09 R198, R204, R205) and `eret` (07 R154). -/

namespace Sys2Proof.Machine

open Sys2Proof.Claims

variable {s : State} {h : Here} {x : Hart} {sl : SliceId}

/-! ### Instructions that trap -/

/-- A body that traps before it changes anything. -/
theorem runScalar_traps (r : Runs s h x) {b : Belongs} {body : M Unit} {t : TrapInfo} (admits : b.admits (.slice h) = true)
    (traps : body s = .error (.trap t) s) : runScalar b body s = .next (takeTrap s h.gang h.hid h.sl none t) := by
  rw [runScalar_run r.cpu admits, traps]
  rfl

theorem exec_trap (r : Runs s h x) (n : BitVec 5) : exec (.trap n) s =
    .next (takeTrap s h.gang h.hid h.sl none { cause := cSWTRAP, eaddr := 0, einfo := BitVec.ofNat 64 n.toNat }) := by
  rw [BitVec.ofNat_toNat]
  exact runScalar_traps r both_admits rfl

theorem exec_supervisorFunction (r : Runs s h x) (fn d a b : BitVec 5) : exec (.supervisorFunction fn d a b) s =
    .next (takeTrap s h.gang h.hid h.sl none { cause := cPRIV }) := by
  refine runScalar_traps r both_admits ?_
  rw [M.bind_ok (cpuM_run r.cpu)]
  rfl

theorem exec_illegalEncoding (r : Runs s h x) (misplaced : Bool) : exec (.illegalEncoding misplaced) s =
    .next (takeTrap s h.gang h.hid h.sl none
      (if misplaced then { cause := cBADTGT, eaddr := (x.slice h.sl).pc } else { cause := cILLEGAL })) := by
  refine runScalar_traps r both_admits ?_
  rw [M.bind_ok (getPc_run r.cpu), pc_of_runs r]
  cases misplaced <;> rfl

/-! ### What `eret` makes of its hart (07 R154) -/

/-- To translate again for an entry changes streams only. -/
theorem retranslate_eq (x : Hart) (e : VEntry) : ∃ v, x.retranslate e = { x with s := v } := by
  unfold Hart.retranslate
  induction e.streams generalizing x with
  | nil => exact ⟨x.s, rfl⟩
  | cons k l ih =>
    obtain ⟨v, eq⟩ := ih (x.setStream k { x.stream k with dfault := none })
    exact ⟨v, eq⟩

/-- A queue that resumes keeps its instructions; what it takes up again is `zrow`, `vstart` and its streams. -/
theorem resumeHead_eq (x : Hart) (q : List VEntry) : ∃ v z w q', resumeHead x q = ({ x with s := v, zrow := z, vc := w }, q') ∧
    q'.map VEntry.kind = q.map VEntry.kind := by
  unfold resumeHead
  split
  · next e rest =>
    split
    · exact ⟨_, _, _, _, rfl, rfl⟩
    · split
      · obtain ⟨v, eq⟩ := retranslate_eq x e
        rw [eq]
        exact ⟨_, _, _, _, rfl, rfl⟩
      · exact ⟨_, _, _, _, rfl, rfl⟩
  · exact ⟨_, _, _, _, rfl, rfl⟩

/-- The saved pc at which a slice goes on. -/
def Hart.epc (x : Hart) : SliceId → Word
  | .as => x.tr.epca
  | .cs => x.tr.epcc

/-- What `eret` of slice sl makes of hart x, but for what it takes up of the held queue's head. -/
structure Hart.Returns (x : Hart) (sl : SliceId) (y : Hart) : Prop where
  ecause : y.tr.ecause = x.tr.ecause &&& ~~~(0x800#64)
  pc : (y.slice sl).pc = x.epc sl
  otherPc : (y.slice (other sl)).pc = (x.slice (other sl)).pc
  running : y.as_.cond = .running ∧ y.cs.cond = .running
  held : y.held = []
  viq : y.viq.map VEntry.kind = x.held.map VEntry.kind ++ x.viq.map VEntry.kind
  files : y.a = x.a ∧ y.c = x.c ∧ y.v = x.v ∧ y.m = x.m ∧ y.tp = x.tp

theorem eret_returns (x : Hart) (sl : SliceId) : x.Returns sl ((x.eret sl).issued sl) := by
  obtain ⟨v, z, w, q, eq, kinds⟩ := resumeHead_eq x x.held
  have queue : (q ++ x.viq).map VEntry.kind = x.held.map VEntry.kind ++ x.viq.map VEntry.kind := by
    rw [List.map_append, kinds]
  unfold Hart.eret
  rw [eq]
  cases sl <;> exact ⟨rfl, rfl, rfl, ⟨rfl, rfl⟩, rfl, queue, rfl, rfl, rfl, rfl, rfl⟩

/-! ### `eret` -/

/-- Outside a handler, or in the other slice, `eret` traps ILLEGAL. -/
theorem exec_eret_illegal (r : Runs s h x) (not : x.tr.ecause.getLsbD 11 = false ∨ x.tr.took ≠ h.sl) :
    exec .eret s = .next (takeTrap s h.gang h.hid h.sl none { cause := cILLEGAL }) := by
  have refused : (!x.handlerOn || x.tr.took != h.sl) = true := by
    rcases not with off | ne
    · rw [show x.handlerOn = false from off]
      rfl
    · simp [ne]
  refine runScalar_traps r both_admits ?_
  rw [M.bind_ok (cpuM_run r.cpu)]
  dsimp only
  rw [M.bind_ok (hartM_run r), if_pos refused]
  rfl

/-- It returns to a saved pc that needs no check. -/
theorem exec_eret_returns (r : Runs s h x) (on : x.tr.ecause.getLsbD 11 = true) (mine : x.tr.took = h.sl)
    (empty : x.viq = []) (aligned : (x.epc h.sl).toNat % 8 = 0) :
    exec .eret s = .next (issued s h fun y => y.eret h.sl) := by
  have allowed : (!x.handlerOn || x.tr.took != h.sl) = false := by
    rw [show x.handlerOn = true from on, mine]
    simp
  have drained : needQueueEmpty s = .ok () s := by
    unfold needQueueEmpty
    rw [M.bind_ok (hartM_run r), empty]
    rfl
  have checked : checkResume h.sl (x.epc h.sl) s = .ok () s := by
    unfold checkResume
    rw [if_neg (by omega)]
    exact checkTarget_good r (.inl aligned)
  change execEret s = _
  unfold execEret
  rw [runScalar_run r.cpu both_admits, M.bind_ok (cpuM_run r.cpu)]
  dsimp only
  rw [M.bind_ok (hartM_run r), allowed, if_neg Bool.false_ne_true, M.bind_ok drained]
  change finish _ ((attempt (checkResume h.sl (x.epc h.sl)) >>= _) s) = _
  rw [M.bind_ok (attempt_ok checked)]
  dsimp only
  rw [modHart_run r.who]
  simp only [finish, mapHart_mapHart]
  rfl

/-- Settles O10: a trap instruction by the trap that its body raises, `eret` by whether it may return. -/
theorem trapInstructionsAndReturn : Obligations.TrapInstructionsAndReturn := by
  refine ⟨fun s h x n fn d a b r => ⟨runScalar_traps r both_admits rfl, exec_trap r n, exec_supervisorFunction r fn d a b,
    exec_illegalEncoding r false, exec_illegalEncoding r true, rfl, ?word⟩,
    fun s h x r => ⟨fun on mine empty aligned => ?returns, exec_eret_illegal r⟩⟩
  case word =>
    have sum : (3#10).toNat * 2 ^ 22 + n.toNat * 2 ^ 17 + (0#5).toNat * 2 ^ 12 + (0#5).toNat * 2 ^ 7 + (0#5).toNat * 4 + 3 =
        0x00C00003 + n.toNat * 2 ^ 17 := by
      simp only [BitVec.toNat_ofNat]
      omega
    change [rWord 3#10 n 0#5 0#5 0#5] = _
    rw [rWord_eq_ofNat, sum]
  case returns =>
    obtain ⟨ecause, pc, otherPc, ⟨as, cs⟩, held, viq, a, c, v, m, tp⟩ := eret_returns x h.sl
    refine ⟨_, _, exec_eret_returns r on mine empty aligned, (r.mapHart fun y => (y.eret h.sl).issued h.sl).hart, ecause, pc,
      otherPc, as, cs, held, ?_, a, c, v, m, tp, rfl⟩
    rw [viq, empty, List.map_nil, List.append_nil]

end Sys2Proof.Machine
end


section
/-! O18: scalar floating point (11 R246 to R249). -/

namespace Sys2Proof.Machine

open Sys2Proof.Claims

variable {s : State} {h : Here} {x : Hart} {d a b : RegField} {p : BitVec 2} {ty c : BitVec 3}

/-! ### The rounding code (11 R246) -/

theorem fpRnd_ready (r : Runs s h x) (ready : roundReady x c) : fpRnd c s = .ok (roundCode x c) s := by
  unfold fpRnd roundCode
  change (if c = 7 then _ else _ : M Rnd) s = _
  by_cases seven : c = 7
  · rw [if_pos seven, if_pos seven, M.bind_ok (hartM_run r), ready seven, vfRM, bitsOf_eq]
    rfl
  · rw [if_neg seven, if_neg seven]
    rfl

theorem fpRnd_reserved (r : Runs s h x) (seven : c = 7) (reserved : vfmtReserved x.vc.vfmt = true) :
    fpRnd c s = .error (.trap { cause := cILLFMT }) s := by
  unfold fpRnd
  change (if c = 7 then _ else _ : M Rnd) s = _
  rw [if_pos seven, M.bind_ok (hartM_run r), reserved]
  rfl

/-! ### Instructions that write a register of the CS -/

theorem writes_cs (r : Runs s h x) (hs : h.sl = .cs) (v : Word) : finish (.slice h) ((do setX d v; advance 4 : M Unit) s) =
    .next (goOn s h (x.cs.pc + 4) fun y => y.setReg .cs d v) := by
  rw [writes_run r.cpu, pc_of_runs r, hs]
  unfold retire goOn
  dsimp only
  rw [hs]
  rfl

section Shapes

variable (r : Runs s h x) (hs : h.sl = .cs)
include r hs

theorem fp2_run (ready : roundReady x c) (f : Rnd → FVal → FVal → FVal) : fp2 f d a b p c s =
    .next (goOn s h (x.cs.pc + 4) fun y => y.setReg .cs d
      (fpWrite p (roundCode x c) (f (roundCode x c) (fpRead p (x.getReg .cs a)) (fpRead p (x.getReg .cs b))))) := by
  unfold fp2
  rw [runScalar_run r.cpu (csOnly_admits hs), M.bind_ok (fpRnd_ready r ready), M.bind_ok (getX_run r.cpu a),
    M.bind_ok (getX_run r.cpu b), reg_of_runs r, reg_of_runs r, writes_cs r hs, hs]

theorem fp1_run (ready : roundReady x c) (f : Rnd → FVal → FVal) : fp1 f d a p c s =
    .next (goOn s h (x.cs.pc + 4) fun y => y.setReg .cs d
      (fpWrite p (roundCode x c) (f (roundCode x c) (fpRead p (x.getReg .cs a))))) := by
  unfold fp1
  rw [runScalar_run r.cpu (csOnly_admits hs), M.bind_ok (fpRnd_ready r ready), M.bind_ok (getX_run r.cpu a),
    reg_of_runs r, writes_cs r hs, hs]

theorem execFma_run (ready : roundReady x c) : execFma d a b p c s =
    .next (goOn s h (x.cs.pc + 4) fun y => y.setReg .cs d (fpWrite p (roundCode x c) (fAdd (roundCode x c)
      (fMul (fpRead p (x.getReg .cs a)) (fpRead p (x.getReg .cs b))) (fpRead p (x.getReg .cs d))))) := by
  unfold execFma
  rw [runScalar_run r.cpu (csOnly_admits hs), M.bind_ok (fpRnd_ready r ready), M.bind_ok (getX_run r.cpu a),
    M.bind_ok (getX_run r.cpu b), M.bind_ok (getX_run r.cpu d), reg_of_runs r, reg_of_runs r, reg_of_runs r, writes_cs r hs,
    hs]

theorem execFcvt_run (ready : roundReady x c) : execFcvt d a ty p c s =
    .next (goOn s h (x.cs.pc + 4) fun y => y.setReg .cs d (fpWrite p (roundCode x c) (fpTyped ty (x.getReg .cs a)))) := by
  unfold execFcvt
  rw [runScalar_run r.cpu (csOnly_admits hs), M.bind_ok (fpRnd_ready r ready), M.bind_ok (getX_run r.cpu a),
    reg_of_runs r, writes_cs r hs, hs]

theorem execFcvti_run (ready : roundReady x c) : execFcvti d a ty p c s =
    .next (goOn s h (x.cs.pc + 4) fun y => y.setReg .cs d (BitVec.ofNat 64
      (convert (.real (fpRead p (x.getReg .cs a))) (if ty = 4#3 then 0x05 else 0x09) (roundCode x c) true))) := by
  unfold execFcvti
  rw [runScalar_run r.cpu (csOnly_admits hs), M.bind_ok (fpRnd_ready r ready), M.bind_ok (getX_run r.cpu a),
    reg_of_runs r, writes_cs r hs, hs]

theorem fpPlain_run {f : Word → Word → Word} {v : Word} (value : f (x.getReg .cs a) (x.getReg .cs b) = v) :
    fpPlain f d a b s = .next (goOn s h (x.cs.pc + 4) fun y => y.setReg .cs d v) := by
  subst value
  unfold fpPlain
  rw [runScalar_run r.cpu (csOnly_admits hs), M.bind_ok (getX_run r.cpu a), M.bind_ok (getX_run r.cpu b), reg_of_runs r,
    reg_of_runs r, writes_cs r hs, hs]

theorem execFclass_run : execFclass d a p s =
    .next (goOn s h (x.cs.pc + 4) fun y => y.setReg .cs d (fpClass p (x.getReg .cs a))) := by
  unfold execFclass
  rw [runScalar_run r.cpu (csOnly_admits hs), M.bind_ok (getX_run r.cpu a), reg_of_runs r, writes_cs r hs, hs]

/-- Code 7 while `vfmt` holds a reserved code. -/
theorem exec_fadd_reserved (seven : c = 7) (reserved : vfmtReserved x.vc.vfmt = true) : exec (.fadd d a b p c) s =
    .next (takeTrap s h.gang h.hid .cs none { cause := cILLFMT }) := by
  change fp2 fAdd d a b p c s = _
  unfold fp2
  rw [runScalar_run r.cpu (csOnly_admits hs), M.bind_error (fpRnd_reserved r seven reserved), ← hs]
  rfl

end Shapes

/-! ### The tables (11 R247, R248) -/

theorem exec_fpBinaryOps : ∀ q ∈ fpBinaryOps, ∀ d a b p c s, exec (q.1 d a b p c) s = fp2 q.2 d a b p c s := by
  simp only [fpBinaryOps, List.forall_mem_cons]
  exact ⟨fun _ _ _ _ _ _ => rfl, fun _ _ _ _ _ _ => rfl, fun _ _ _ _ _ _ => rfl, fun _ _ _ _ _ _ => rfl,
    List.forall_mem_nil _⟩

theorem exec_fpUnaryOps : ∀ q ∈ fpUnaryOps, ∀ d a p c s, exec (q.1 d a p c) s = fp1 (q.2 p) d a p c s := by
  simp only [fpUnaryOps, List.forall_mem_cons]
  exact ⟨fun _ _ _ _ _ => rfl, fun _ _ _ _ _ => rfl, List.forall_mem_nil _⟩

theorem exec_fpCompareOps : ∀ q ∈ fpCompareOps, ∀ d a b p s,
    exec (q.1 d a b p) s = fpPlain (fun u v => w1 (q.2 (fpRead p u) (fpRead p v))) d a b s := by
  simp only [fpCompareOps, List.forall_mem_cons]
  exact ⟨fun _ _ _ _ _ => rfl, fun _ _ _ _ _ => rfl, fun _ _ _ _ _ => rfl, List.forall_mem_nil _⟩

theorem w1_eq_ofNat (t : Bool) : w1 t = BitVec.ofNat 64 (if t then 1 else 0) := by
  cases t <;> rfl

/-! ### Conversions (11 R249) -/

/-- The conversion types below 4 are the precisions. -/
theorem fpTyped_precision {q : BitVec 2} (same : ty.toNat = q.toNat) (w : Word) : fpTyped ty w = fpRead q w := by
  have four : ∀ k : BitVec 2, k = 0 ∨ k = 1 ∨ k = 2 ∨ k = 3 := by decide
  unfold fpTyped
  rw [same]
  rcases four q with rfl | rfl | rfl | rfl <;> rfl

/-! ### Selection (11 R248) -/

section Select

variable {u w : Word} (less : FVal → FVal → Bool)

theorem fpSelect_nan_nan (hu : (fpRead p u).isNan = true) (hw : (fpRead p w).isNan = true) :
    fpSelect less p u w = BitVec.ofNat 64 (precFmt p).nan := by simp [fpSelect, hu, hw]

theorem fpSelect_nan_left (hu : (fpRead p u).isNan = true) (hw : (fpRead p w).isNan = false) :
    fpSelect less p u w = BitVec.ofNat 64 (fpBits p w) := by simp [fpSelect, hu, hw]

theorem fpSelect_nan_right (hu : (fpRead p u).isNan = false) (hw : (fpRead p w).isNan = true) :
    fpSelect less p u w = BitVec.ofNat 64 (fpBits p u) := by simp [fpSelect, hu, hw]

theorem fpSelect_less (hu : (fpRead p u).isNan = false) (hw : (fpRead p w).isNan = false)
    (lt : less (fpRead p u) (fpRead p w) = true) : fpSelect less p u w = BitVec.ofNat 64 (fpBits p u) := by
  simp [fpSelect, hu, hw, lt]

theorem fpSelect_not_less (hu : (fpRead p u).isNan = false) (hw : (fpRead p w).isNan = false)
    (ge : ¬ less (fpRead p u) (fpRead p w) = true) : fpSelect less p u w = BitVec.ofNat 64 (fpBits p w) := by
  simp [fpSelect, hu, hw, ge]

end Select

theorem fpBelow_iff (m n : FVal) : fpBelow m n = true ↔
    fLt m n = true ∨ (fEq m n = true ∧ m.neg = true ∧ n.neg = false) := by
  simp [fpBelow, and_assoc]

/-- The class word, its fields as quotients and remainders. -/
theorem fpClass_eq (p : BitVec 2) (w : Word) : fpClass p w =
    (let f := precFmt p
     let e := fpBits p w / 2 ^ f.mbits % 2 ^ f.ebits
     let m := fpBits p w % 2 ^ f.mbits
     let kind := if e = 0 then (if m = 0 then 0 else 1) else if e = 2 ^ f.ebits - 1 then (if m = 0 then 3 else 4) else 2
     BitVec.ofNat 64 (kind + 8 * (fpBits p w / 2 ^ (f.mbits + f.ebits) % 2) + (if kind = 2 then 16 * e else 0))) := by
  simp only [fpClass, bitsOf_eq, Nat.pow_one]

/-- Settles O18: an operation by its shape, read at its precision, `fmin` and `fmax` by which operands are NaN. -/
theorem scalarFloatResults : Obligations.ScalarFloatResults := by
  refine ⟨fun s h x d a b p ty c r hs => ⟨fun ready => ⟨fun q hq => ?binary, fun q hq => ?unary, execFma_run r hs ready,
    fun e => ?signed, fun e => ?unsigned, fun q e => ?float, fun k hk e => ?integer⟩, fun seven reserved => ?illfmt⟩,
    fun s h x d a b p r hs => ⟨fun q hq => ?compare, ?select⟩⟩
  case binary =>
    rw [exec_fpBinaryOps q hq]
    exact fp2_run r hs ready q.2
  case unary =>
    rw [exec_fpUnaryOps q hq]
    exact fp1_run r hs ready (q.2 p)
  case signed =>
    subst e
    exact execFcvt_run r hs ready
  case unsigned =>
    subst e
    exact execFcvt_run r hs ready
  case float =>
    refine (execFcvt_run r hs ready).trans ?_
    rw [fpTyped_precision e]
    rfl
  case integer =>
    refine (execFcvti_run r hs ready).trans ?_
    simp only [List.mem_cons, List.not_mem_nil, or_false] at hk
    rcases hk with rfl | rfl <;> subst e <;> rfl
  case illfmt =>
    exact exec_fadd_reserved r hs seven reserved
  case compare => exact (exec_fpCompareOps q hq ..).trans (fpPlain_run r hs (w1_eq_ofNat _))
  case select =>
    refine ⟨fun hu hv => ⟨fpPlain_run r hs (fpSelect_nan_nan _ hu hv), fpPlain_run r hs (fpSelect_nan_nan _ hu hv)⟩,
      fun hu hv => ⟨fpPlain_run r hs (fpSelect_nan_left _ hu hv), fpPlain_run r hs (fpSelect_nan_left _ hu hv)⟩,
      fun hu hv => ⟨fpPlain_run r hs (fpSelect_nan_right _ hu hv), fpPlain_run r hs (fpSelect_nan_right _ hu hv)⟩,
      fun hu hv => ⟨fun lt => fpPlain_run r hs (fpSelect_less fpBelow hu hv ((fpBelow_iff _ _).mpr lt)),
        fun ge => fpPlain_run r hs (fpSelect_not_less fpBelow hu hv (mt (fpBelow_iff _ _).mp ge)),
        fun lt => fpPlain_run r hs (fpSelect_less (fun u v => fpBelow v u) hu hv ((fpBelow_iff _ _).mpr lt)),
        fun ge => fpPlain_run r hs (fpSelect_not_less (fun u v => fpBelow v u) hu hv (mt (fpBelow_iff _ _).mp ge))⟩, ?_⟩
    have key := execFclass_run (d := d) (a := a) (p := p) r hs
    rw [fpClass_eq] at key
    exact key

end Sys2Proof.Machine
end


section
/-! O12: `yield` past its deadline in a hart that moves tile rows (11 R228, 04 R90). -/

namespace Sys2Proof.Machine

open Sys2Proof.Claims

variable {s : State} {h : Here} {x : Hart}

/-- Past its deadline `yield` does not issue: the gang is stopped by force, and no program counter moves. -/
theorem exec_yield_late (r : Runs s h x) (past : late s x) : exec .yield s = .next (issued (forceGang s h.gang) h id) := by
  change execYield s = _
  unfold execYield
  rw [runScalar_run (r.cpu) bothHart_admits, M.bind_ok (hereM_run r.who), M.bind_ok (hartM_run r),
    M.bind_ok (M.get_run s), if_pos (deadlinePassed_iff.mpr past)]
  rfl

/-- A `zst` that has begun to move its rows. -/
def rowMove : VEntry := { captured (Hart.fresh (placedLaunch 0) 0 0 0 0) .zst noOps 0 0 0 0 none with begun := true }

/-- A hart with that `zst` at the head of its vector queue; its deadline is one cycle past at cycle 0. -/
def rowMoveHart : Hart := { Hart.fresh (placedLaunch 0) 0 0 0 0 with viq := [rowMove], ypend := 0x8000FFFFFFFFFFFF }

def rowMoveState : State :=
  { State.reset with
    launches := [placedLaunch 0]
    gangs := [{ Gang.fresh State.reset (placedLaunch 0) 0 0 [] with harts := [rowMoveHart] }]
    cur := .slice 0 0 .as }

/-- Refutes O12: a forced stop does not leave the vector queue as it was where a `zld` or `zst` moves its rows. It keeps the
row in `zrow` and marks the entry to resume from there (04 R90, 15 R335), so that the entry differs from the one before. -/
theorem not_yieldAndWaitResults : ¬ Obligations.YieldAndWaitResults := by
  rintro ⟨yields, -⟩
  have runs : Runs rowMoveState ⟨0, 0, .as⟩ rowMoveHart := ⟨rfl, rfl⟩
  have past : late rowMoveState rowMoveHart := by
    unfold late
    decide
  have overdue : ¬ inTime rowMoveState rowMoveHart := by
    unfold inTime
    decide
  obtain ⟨-, -, forced, -⟩ := yields rowMoveState ⟨0, 0, .as⟩ rowMoveHart runs
  obtain ⟨t, y, run, hart, -, -, -, -, queue, -⟩ := forced past.1 overdue rfl rfl _ rfl rfl
  rw [exec_yield_late runs past] at run
  injection run with run
  obtain ⟨v, stopped⟩ := findHart_forceGang (s := rowMoveState) (gang := 0) (k := 0) rfl rfl rfl rfl rfl
    (deadlineReached_of past.1 past.2.1)
  rw [← run, issued, findHart_mapHart_same, stopped] at hart
  injection hart with hart
  have resumes : y.viq.map VEntry.resume = [true] := by
    rw [← hart, Hart.issued_viq]
    rfl
  rw [queue] at resumes
  exact absurd resumes (by decide)

end Sys2Proof.Machine
end


section
/-! O15 and O16: pushes and pops of the AS (11 R243, R245). -/

namespace Sys2Proof.Machine

open Sys2Proof.Claims

variable {s : State} {h : Here} {x : Hart} {g : Gang}

/-- Where no other gang has the gang's number, an update of the executing hart is what it makes of that one hart. -/
theorem goOn_of_unique (r : Runs s h x) (hg : findGang s h.gang = some g) (unique : ∀ y ∈ s.gangs, y.id = h.gang → y = g)
    {f f' : Hart → Hart} (same : f x = f' x) (pc : Word) : goOn s h pc f = goOn s h pc f' := by
  refine mapHart_congr fun y hy id z hz => ?_
  rw [unique y hy id] at hz
  have here := r.hart
  rw [findHart, hg, Option.bind_some, hz] at here
  cases here
  rw [same]

/-! ### O15: a push without a fence -/

theorem slipLimit_eq (x : Hart) : x.slipLimit = x.slip.toNat % 256 := by
  simp [Hart.slipLimit, bitsOf_eq]

/-- With slip and room, and no fence pending, a push of the AS is not held. -/
theorem holdPush_free (r : Runs s h x) (slip : x.slipUse < x.slip.toNat % 256) (free : x.fenceSv = false) :
    holdPush true s = .ok () s := by
  unfold holdPush
  rw [M.bind_ok (hartM_run r), if_neg (by simp [slipLimit_eq, slip])]
  unfold passFenceSv
  rw [M.bind_ok (hartM_run r), free]
  rfl

section Push

variable (r : Runs s h x) (hs : h.sl = .as) (slip : x.slipUse < x.slip.toNat % 256) (room : x.qa.length < 64)
  (free : x.fenceSv = false)
include r hs slip room free

/-- A push of the AS ends `qa` with its register, tied by `qpush.rel` to the number at which the hart is. -/
theorem pushWord_as (rel : Bool) (n : Nat) (a : RegField) :
    pushWord rel n a 0 s = .next (goOn s h (x.as_.pc + BitVec.ofNat 64 n) fun y =>
      { y.younger rel with qa := y.qa ++ [y.qword rel .as (x.getReg .as a)] }) := by
  unfold pushWord
  rw [runScalar_run r.cpu bothHart_admits, M.bind_ok (hereM_run r.who), M.bind_ok (hartM_run r)]
  simp only [hs]
  rw [if_neg (by decide), decide_eq_true room, M.bind_ok (holdPush_free r slip free), M.bind_ok (getX_run r.cpu a),
    M.bind_ok (modHart_run r.who _), finish_advance (r.mapHart _), goOn_mapHart, hs, reg_of_runs r, hs]
  cases rel <;> rfl

theorem qpushRel_as_of_unique (hg : findGang s h.gang = some g) (unique : ∀ y ∈ s.gangs, y.id = h.gang → y = g)
    (a : RegField) : exec (.qpushRel a 0) s = .next (goOn s h (x.as_.pc + 4) fun y => { y with
      seq := y.seq + 1, qa := y.qa ++ [{ word := x.getReg .as a, lo := x.seq + 1, hi := x.seq + 1 }] }) := by
  have run : exec (.qpushRel a 0) s = _ := pushWord_as r hs slip room free true 4 a
  rw [run]
  refine congrArg _ (goOn_of_unique r hg unique ?_ _)
  rfl

end Push

/-! ### Two gangs of one number -/

/-- A hart with slip, whose next number is `seq`. -/
def slipTwin (seq : Nat) : Hart := { twinHart seq with slip := 128 }

/-- Both gangs have number 0, and their harts number what they issue next 1 and 2. -/
def slipTwins : State :=
  { twinGangs with gangs := [{ twinGang 0 with harts := [slipTwin 0] }, { twinGang 1 with harts := [slipTwin 1] }] }

/-- The numbers that the entries of `qa` are tied to, gang by gang. -/
def releaseNumbers (r : Result) : List (List Nat) :=
  match r with
  | .next t => t.gangs.map fun g => g.harts.flatMap fun y => y.qa.map (·.hi)
  | _ => []

/-- Refutes O15: of two gangs of one number, `qpush.rel` of the AS ties the entry in the hart of each to that hart's own number
(`pushWord_as`) and not, as the statement says, in both to the executing hart's. The statement does not shut such states out.
Where the gang's number is its own this clause holds (`qpushRel_as_of_unique`). -/
theorem not_queuePushResults : ¬ Obligations.QueuePushResults := by
  intro pushes
  have runs : Runs slipTwins ⟨0, 0, .as⟩ (slipTwin 0) := ⟨rfl, rfl⟩
  obtain ⟨-, -, push, -⟩ := pushes slipTwins ⟨0, 0, .as⟩ (slipTwin 0) 6 runs
  obtain ⟨-, -, claimed⟩ := (push rfl (by decide) (by decide)).1 rfl
  have run : exec (.qpushRel 6 0) slipTwins = _ := pushWord_as runs rfl (by decide) (by decide) rfl true 4 6
  rw [run] at claimed
  have numbers := congrArg releaseNumbers claimed
  revert numbers
  decide

/-! ### O16: pops of the AS (11 R243, R245) -/

/-- Nothing that the entry was pushed behind is left: it is taken at once. -/
theorem takeEntry_ready (r : Runs s h x) {sl : SliceId} {q : QWord} (queue : x.behind q = false)
    (stores : x.storesBehind sl q = false) : takeEntry sl q s = .ok () s := by
  have queued : hartM s = .ok x s := hartM_run r
  unfold takeEntry
  rw [M.bind_ok (hereM_run r.who)]
  cases sl <;> simp [M.bind_run, queued, queue, stores]

/-- A pop of the AS drops the head of `qc` and leaves its word in d. -/
theorem popWord_as (r : Runs s h x) (hs : h.sl = .as) {v : QWord} {rest : List QWord} (head : x.qc = v :: rest)
    (queue : x.behind v = false) (stores : x.storesBehind .cs v = false) (n : Nat) (d : RegField) :
    popWord true n d 1 s = .next (goOn s h (x.as_.pc + BitVec.ofNat 64 n) fun y =>
      ({ y with qc := y.qc.drop 1 } : Hart).setReg .as d v.word) := by
  unfold popWord
  rw [runScalar_run r.cpu bothHart_admits, M.bind_ok (hereM_run r.who), M.bind_ok (hartM_run r)]
  simp only [hs]
  rw [if_neg (by decide), head]
  simp only [if_true]
  rw [M.bind_ok (takeEntry_ready r queue stores), M.bind_ok (modHart_run r.who _),
    M.bind_ok (setX_run (r.mapHart _).cpu d v.word)]
  rw [Cpu.setReg, finish_advance ((r.mapHart _).mapHart _), mapHart_mapHart, goOn_mapHart, Hart.slice_setReg, hs]
  rfl

theorem qpop_as_of_unique (r : Runs s h x) (hs : h.sl = .as) {v : QWord} {rest : List QWord} (head : x.qc = v :: rest)
    (queue : x.behind v = false) (stores : x.storesBehind .cs v = false) (hg : findGang s h.gang = some g)
    (unique : ∀ y ∈ s.gangs, y.id = h.gang → y = g) (d : RegField) :
    exec (.qpop d 1) s = .next (goOn s h (x.as_.pc + 4) fun y => ({ y with qc := rest } : Hart).setReg .as d v.word) := by
  have run : exec (.qpop d 1) s = _ := popWord_as r hs head queue stores 4 d
  rw [run]
  refine congrArg _ (goOn_of_unique r hg unique ?_ _)
  rw [head, List.drop_one, List.tail_cons]

/-! ### Two gangs of one number -/

/-- A hart with that many entries in `qc`. -/
def queueTwin (n : Nat) : Hart := { twinHart 0 with qc := List.replicate n { word := 0 } }

/-- Both gangs have number 0, and their harts hold one entry and two. -/
def queueTwins : State :=
  { twinGangs with gangs := [{ twinGang 0 with harts := [queueTwin 1] }, { twinGang 0 with harts := [queueTwin 2] }] }

/-- How many entries `qc` holds, gang by gang. -/
def queueLengths (r : Result) : List (List Nat) :=
  match r with
  | .next t => t.gangs.map fun g => g.harts.map fun y => y.qc.length
  | _ => []

/-- Refutes O16: of two gangs of one number, `qpop` of the AS drops the oldest entry of the hart of each (`popWord_as`) and does
not, as the statement says, leave in both what the executing hart's queue is then. The statement does not shut such states out.
Where the gang's number is its own this clause holds (`qpop_as_of_unique`). -/
theorem not_queuePopResults : ¬ Obligations.QueuePopResults := by
  rintro ⟨pops, -⟩
  have runs : Runs queueTwins ⟨0, 0, .as⟩ (queueTwin 1) := ⟨rfl, rfl⟩
  obtain ⟨pop, -⟩ := pops queueTwins ⟨0, 0, .as⟩ (queueTwin 1) 1 runs
  obtain ⟨claimed, -⟩ := (pop { word := 0 } [] rfl rfl).1 (by decide) (by decide)
  have run : exec (.qpop 1 1) queueTwins = _ := popWord_as runs rfl rfl rfl rfl 4 1
  have lengths := congrArg queueLengths (claimed _ (List.mem_cons_self ..))
  rw [run] at lengths
  revert lengths
  decide

end Sys2Proof.Machine
end


section
/-! O14: the rendezvous instructions and `exit` (11 R230, R231, 14 R327, 08 R170, R174). -/

namespace Sys2Proof.Machine

open Sys2Proof.Claims

variable {s t : State} {h : Here} {x : Hart} {f : Nat} {sl : SliceId} {complete : M Unit}

/-! ### Slices that meet, or do not -/

/-- Both slices past a rendezvous. -/
def Hart.pastBoth (x : Hart) : Hart :=
  { x with as_ := { x.as_ with pc := x.as_.pc + 4, cond := .running }, cs := { x.cs with pc := x.cs.pc + 4, cond := .running } }

/-- The end of an instruction leaves only the count of waits to a hart whose slices both run. -/
theorem issued_pastBoth (x : Hart) (sl : SliceId) : x.pastBoth.issued sl = { x.pastBoth with waitCount := 0 } := by
  cases sl <;> rfl

/-- The CS's code of the two that do not match. -/
def csCode (sl : SliceId) (own others : Nat) : Nat :=
  match sl with
  | .cs => own
  | .as => others

/-- What `rendezvous` answers is decided by the other slice of the hart that executes. -/
theorem rendezvous_alone (r : Runs s h x) (alone : ∀ g, (x.slice (other h.sl)).cond ≠ .waiting (.rendezvous g)) :
    rendezvous f complete s = .next (waits s h (.rendezvous f)) := by
  simp only [rendezvous, r.cpu, r.hart]
  cases there : (x.slice (other h.sl)).cond with
  | waiting w =>
    cases w with
    | rendezvous g => exact absurd there (alone g)
    | _ => rfl
  | _ => rfl

theorem rendezvous_mismatch (r : Runs s h x) {g : Nat} (there : (x.slice (other h.sl)).cond = .waiting (.rendezvous g))
    (ne : g ≠ f) : rendezvous f complete s = .next (takeTrap s h.gang h.hid .as none
      { cause := cRDVZ, einfo := BitVec.ofNat 64 (csCode h.sl f g) } true) := by
  simp only [rendezvous, r.cpu, r.hart, there, if_neg ne]
  rfl

section Met

variable (r : Runs s h x) (there : (x.slice (other h.sl)).cond = .waiting (.rendezvous f))
include r there

theorem rendezvous_completes {y : Hart} (ok : complete s = .ok () t) (after : Runs t h y) :
    ∃ u, rendezvous f complete s = .next u ∧ findHart u h.gang h.hid = some { y.pastBoth with waitCount := 0 } ∧
      u.mem = t.mem := by
  have done : (do complete; bothAdvance : M Unit) s = .ok () (mapHart t h.gang h.hid Hart.pastBoth) :=
    (M.bind_ok ok).trans (modHart_run after.who _)
  refine ⟨mapHart (mapHart t h.gang h.hid Hart.pastBoth) h.gang h.hid fun z => z.issued h.sl, ?_, ?_, rfl⟩
  · simp only [rendezvous, r.cpu, r.hart, there, done]
    rfl
  · rw [((after.mapHart _).mapHart _).hart, issued_pastBoth]

theorem rendezvous_traps {i : TrapInfo} (stop : complete s = .error (.trap i) t) :
    rendezvous f complete s = .next (takeTrap t h.gang h.hid .as none i) := by
  have done : (do complete; bothAdvance : M Unit) s = .error (.trap i) t := M.bind_error stop
  simp only [rendezvous, r.cpu, r.hart, there, done, if_true]

theorem rendezvous_waits {w : WaitAt} (stop : complete s = .error (.wait w) t) :
    rendezvous f complete s = .next (waits t h w) := by
  have done : (do complete; bothAdvance : M Unit) s = .error (.wait w) t := M.bind_error stop
  simp only [rendezvous, r.cpu, r.hart, there, done, if_true]
  rfl

end Met

/-! ### Older accesses -/

/-- An update of the gang that leaves its harts alone. -/
theorem Runs.mapGang_harts (r : Runs s h x) {f : Gang → Gang} (id : ∀ y, (f y).id = y.id)
    (harts : ∀ y, (f y).harts = y.harts) :
    Runs (mapGang s h.gang f) h x := by
  refine ⟨(here?_mapGang id fun y => by rw [harts]).trans r.who, ?_⟩
  obtain ⟨g, hg, hx⟩ := Option.bind_eq_some_iff.mp r.hart
  rw [findHart, findGang_mapGang_same id, hg, Option.map_some, Option.bind_some, harts, hx]

theorem performed_append (m : Memory) (a b : List PWrite) : performed m (a ++ b) = performed (performed m a) b := by
  simp only [performed, List.flatMap_append, memWriteAll_append]

/-- A store writes the same bytes open or closed. -/
theorem performed_closeStores (m : Memory) (x : Hart) : performed m x.closeStores.cbuf = performed m x.cbuf := by
  simp only [performed, Hart.closeStores, List.flatMap_map]

/-- Stores that can all go once closed are performed, and leave the buffer empty. -/
theorem drain_empties (r : Runs s h x) (go : ∀ w ∈ x.closeStores.buf sl, canGo w) :
    ∃ t, drain sl s = .ok () t ∧ Runs t h (x.closeStores.setBuf sl []) ∧ t.mem = performed s.mem (x.closeStores.buf sl) := by
  have closed := r.mapHart fun y => y.closeStores
  have after := closed.drainBuf sl
  have empty : x.closeStores.performed sl = x.closeStores.setBuf sl [] := by rw [Hart.performed, staying_eq_nil go]
  rw [empty] at after
  refine ⟨_, ?_, after, ?_⟩
  · unfold drain
    rw [M.bind_ok (hereM_run r.who), M.bind_ok (modHart_run r.who _), M.bind_ok (M.modify_run _ _), M.bind_ok (hartM_run after)]
    cases sl <;> rfl
  · unfold drainBuf
    rw [closed.hart]
    dsimp only
    rw [going_eq_self go]
    exact foldl_performWrite_mem _ _

/-- A hart once the accesses of both its slices have become visible. -/
def Hart.visible (x : Hart) : Hart := { x with abuf := [], cbuf := [], markers := [], asHeld := [] }

/-- Without arrivals and markers that wait for stores. -/
def Hart.unheld (x : Hart) : Hart := { x with markers := [], asHeld := [] }

theorem unheld_emptied (x : Hart) : ((x.closeStores.setBuf .as []).closeStores.setBuf .cs []).unheld = x.visible := by
  simp only [Hart.closeStores, Hart.setBuf, Hart.unheld, Hart.visible]

theorem linked_closeStores (ok : Sendable x .cs) : ∀ w ∈ x.closeStores.cbuf, ∀ p ∈ w.hops, p.link ≠ none := by
  intro w hw
  obtain ⟨v, hv, rfl⟩ := List.mem_map.mp hw
  simpa [PWrite.cutOff] using (ok v hv).1

theorem settleHart_queued (r : Runs s h x) (queued : x.viq ≠ []) :
    settleHart f s = .error (.wait (.rendezvous f)) s := by
  unfold settleHart
  rw [M.bind_ok (hartM_run r), if_pos (by simpa using queued)]
  rfl

/-- With the vector queue empty, and a link for each pending store, the hart's stores are performed, the AS's first. -/
theorem settleHart_run (r : Runs s h x) (okA : Sendable x .as) (okC : Sendable x .cs) (idle : x.viq = []) :
    ∃ t, settleHart f s = .ok () t ∧ Runs t h x.visible ∧ t.mem = performed s.mem (x.abuf ++ x.cbuf) := by
  obtain ⟨t1, runA, r1, memA⟩ := drain_empties (sl := .as) r (canGo_of_sendable okA)
  obtain ⟨t2, runC, r2, memC⟩ := drain_empties (sl := .cs) r1 (canGo_closeStores (linked_closeStores okC))
  have r3 := r2.mapHart Hart.unheld
  rw [unheld_emptied] at r3
  refine ⟨_, ?_, r3.mapGang_harts (fun y => (advance_frame y).1) fun y => (advance_frame y).2, ?_⟩
  · unfold settleHart
    rw [M.bind_ok (hartM_run r), if_neg (by simp [idle]), M.bind_ok runA, M.bind_ok runC]
    exact (M.bind_ok (modHart_run r2.who Hart.unheld)).trans (barrierM_run r3.who)
  · calc t2.mem = performed t1.mem (x.closeStores.setBuf .as []).closeStores.cbuf := memC
      _ = performed t1.mem x.cbuf := (performed_closeStores ..).trans (performed_closeStores ..)
      _ = performed s.mem (x.abuf ++ x.cbuf) := by
        rw [memA, performed_append]
        rfl

/-! ### `fence.all` and the switches -/

/-- A hart whose slices fetch again and whose streams have nothing walked ahead. -/
def Hart.refetched (x : Hart) : Hart :=
  { x.dropWalks with as_ := { x.as_ with fbuf := [] }, cs := { x.cs with fbuf := [] } }

/-- A hart in mode k with region table l. -/
def Hart.switched (k : BitVec 2) (l : List Region) (x : Hart) : Hart :=
  { x with tp := { x.tp with adjm := k, table := some l } }

/-- What a rendezvous that ends no hart does once older accesses are visible: `fence.all` without a mode, a switch with its
mode. -/
def whenVisible : Option (BitVec 2) → M Unit
  | none => modHart Hart.refetched
  | some k => do
    let l ← readTable
    modHart (Hart.switched k l)

/-- The instructions of the statement's second part, with their codes and modes. -/
def meetings : List (Instr × Nat × Option (BitVec 2)) :=
  [(.fenceAll, 0x00B, none), (.adjFwd, 0x010, some 1), (.adjRev, 0x011, some 2), (.adjOff, 0x012, some 0)]

theorem exec_meeting {i : Instr} {mode : Option (BitVec 2)} (hi : (i, f, mode) ∈ meetings) (s : State) :
    exec i s = rendezvous f (do settleHart f; whenVisible mode) s := by
  simp only [meetings, List.mem_cons, Prod.mk.injEq, List.not_mem_nil, or_false] at hi
  rcases hi with ⟨rfl, rfl, rfl⟩ | ⟨rfl, rfl, rfl⟩ | ⟨rfl, rfl, rfl⟩ | ⟨rfl, rfl, rfl⟩ <;> rfl

theorem exec_rendezvousRow {p : Instr × Nat} (hp : p ∈ rendezvousRows) (s : State) :
    ∃ complete, exec p.1 s = rendezvous p.2 complete s := by
  simp only [rendezvousRows, List.mem_cons, List.not_mem_nil, or_false] at hp
  obtain ⟨mode, hi⟩ : ∃ mode, (p.1, p.2, mode) ∈ meetings := by
    rcases hp with rfl | rfl | rfl | rfl <;> exact ⟨_, by simp [meetings]; rfl⟩
  exact ⟨_, exec_meeting hi s⟩

theorem readTable_none (r : Runs s h x) (noTable : x.tp.dtab = 0) : readTable s = .ok [] s := by
  unfold readTable
  rw [M.bind_ok (hartM_run r), if_pos noTable]
  rfl

section Table

variable (r : Runs s h x) (table : x.tp.dtab ≠ 0) {b : List Byte} (loads : loadBytes .as x.tp.dtab.toNat 512 s = .ok b t)
include r table loads

theorem readTable_good (good : firstOffender [] (parseTable b) 0 = none) : readTable s = .ok (parseTable b) t := by
  unfold readTable
  rw [M.bind_ok (hartM_run r), if_neg table, M.bind_ok loads, good]
  rfl

theorem readTable_offends {n : Nat} (bad : firstOffender [] (parseTable b) 0 = some n) : readTable s =
    .error (.trap { cause := cPROT, eaddr := x.tp.dtab + BitVec.ofNat 64 (32 * n) }) t := by
  unfold readTable
  rw [M.bind_ok (hartM_run r), if_neg table, M.bind_ok loads, bad]
  rfl

end Table

/-- What is left of hart x where it meets without a table to read. -/
def Hart.afterMeeting (x : Hart) : Option (BitVec 2) → Hart
  | none => x.visible.refetched
  | some k => x.visible.switched k []

theorem whenVisible_run (r : Runs s h x.visible) {mode : Option (BitVec 2)} (noTable : mode.isSome → x.tp.dtab = 0) :
    ∃ t, whenVisible mode s = .ok () t ∧ Runs t h (x.afterMeeting mode) ∧ t.mem = s.mem := by
  cases mode with
  | none => exact ⟨_, modHart_run r.who _, r.mapHart _, rfl⟩
  | some k =>
    exact ⟨_, (M.bind_ok (readTable_none r (noTable rfl))).trans (modHart_run r.who (Hart.switched k [])), r.mapHart _, rfl⟩

/-- The slices have met, and no table is read. -/
theorem exec_met (r : Runs s h x) (okA : Sendable x .as) (okC : Sendable x .cs) (idle : x.viq = []) {i : Instr}
    {mode : Option (BitVec 2)} (hi : (i, f, mode) ∈ meetings)
    (there : (x.slice (other h.sl)).cond = .waiting (.rendezvous f)) (noTable : mode.isSome → x.tp.dtab = 0) :
    ∃ t, exec i s = .next t ∧ findHart t h.gang h.hid = some { (x.afterMeeting mode).pastBoth with waitCount := 0 } ∧
      t.mem = performed s.mem (x.abuf ++ x.cbuf) := by
  obtain ⟨s1, settles, r1, mem1⟩ := settleHart_run (f := f) r okA okC idle
  obtain ⟨s2, goes, r2, mem2⟩ := whenVisible_run r1 noTable
  have body : (do settleHart f; whenVisible mode : M Unit) s = .ok () s2 := (M.bind_ok settles).trans goes
  obtain ⟨t, run, hart, mem⟩ := rendezvous_completes r there body r2
  exact ⟨t, (exec_meeting hi s).trans run, hart, mem.trans (mem2.trans mem1)⟩

theorem stream_dropWalks (x : Hart) (k : BitVec 5) : (x.dropWalks.stream k).walk = [] := by
  simp [Hart.stream, Hart.dropWalks]

/-! ### `exit` -/

/-- What `exit` does with both slices there. -/
def exitBody (gang : Nat) : M Unit := do
  settleHart fnExit
  modHart Hart.ended
  modGang Gang.afterExit
  modify fun s => leaveIfSaved (openGangArea s gang) gang

theorem exec_exit (r : Runs s h x) (off : x.tr.ecause.getLsbD 11 = false) :
    exec .exit s = rendezvous fnExit (exitBody h.gang) s := by
  change execExit s = _
  unfold execExit
  rw [r.who]
  dsimp only
  rw [r.hart, if_neg]
  · rfl
  · simpa [Hart.handlerOn, ecH] using off

theorem exec_exit_handler (r : Runs s h x) (on : x.tr.ecause.getLsbD 11 = true) :
    exec .exit s = .next (takeTrap s h.gang h.hid h.sl none { cause := cILLEGAL }) := by
  change execExit s = _
  unfold execExit
  rw [r.who]
  dsimp only
  rw [r.hart, if_pos]
  · exact runScalar_traps r both_admits rfl
  · simpa [Hart.handlerOn, ecH] using on

/-- A hart with its grant, its save record and its vector control words replaced. -/
def Hart.regranted (x : Hart) (g : Option (Nat × Bool)) (v : Option Save) (c : VCtl) : Hart :=
  { x with grant := g, save := v, vc := c }

theorem granted_eq (l : List (Nat × Nat × Bool)) (n i : Nat) (x : Hart) :
    ∃ g c, x.granted l n i = x.regranted g x.save c := by
  unfold Hart.granted
  split <;> exact ⟨_, _, rfl⟩

theorem settle_hart {g : Gang} {i : Nat} (hx : g.harts[i]? = some x) :
    ∃ a c, g.settle.harts[i]? = some (x.regranted a x.save c) := by
  unfold Gang.settle
  dsimp only
  split
  · exact ⟨_, _, hx⟩
  · obtain ⟨a, c, eq⟩ := granted_eq _ _ i x
    refine ⟨a, c, ?_⟩
    rw [List.getElem?_mapIdx, hx, ← eq]
    rfl

/-- The round and the barrier of a gang that a hart leaves; with its last hart it has ended. -/
theorem afterExit_frame (g : Gang) : g.afterExit.id = g.id ∧ g.afterExit.harts = g.settle.harts := by
  obtain ⟨id, harts⟩ := advance_frame g.settle
  unfold Gang.afterExit
  dsimp only
  split
  · exact ⟨id.trans (settle_frame g).1, harts⟩
  · exact ⟨id.trans (settle_frame g).1, harts⟩

theorem Runs.afterExit (r : Runs s h x) : ∃ a c, Runs (mapGang s h.gang Gang.afterExit) h (x.regranted a x.save c) := by
  obtain ⟨g, hg, hx⟩ := Option.bind_eq_some_iff.mp r.hart
  obtain ⟨a, c, hart⟩ := settle_hart hx
  refine ⟨a, c, ?_, ?_⟩
  · rw [here?_mapGang (fun y => (afterExit_frame y).1) fun y => by rw [(afterExit_frame y).2, (settle_frame y).2], r.who]
  · rw [findHart, findGang_mapGang_same fun y => (afterExit_frame y).1, hg, Option.map_some, Option.bind_some,
      (afterExit_frame g).2, hart]

theorem openSave_cur (s : State) (l : Launch) (a : Gang) (k : Nat) : (openSave s l a k).cur = s.cur := by
  unfold openSave
  dsimp only
  split <;> rfl

/-- Of its own gang the area of hart 0 may open, for the gang state. -/
theorem Runs.openGangArea (r : Runs s h x) : ∃ v, Runs (openGangArea s h.gang) h { x with save := v } := by
  rcases openGangArea_cases s h.gang with e | ⟨a, l, z, ha, -, -, e⟩ <;> rw [e]
  · exact ⟨x.save, r⟩
  · obtain ⟨w, gangs⟩ := openSave_gangs s l a 0
    have who := (here?_congr (s := Machine.mapHart s a.id 0 _) (openSave_cur s l a 0) gangs).trans
      ((here?_mapHart _).trans r.who)
    by_cases first : h.hid = 0
    · obtain ⟨v, hart⟩ := findHart_openSave_same (l := l) (findGang_id ha) (first ▸ r.hart)
      exact ⟨some v, who, by rw [first, hart]⟩
    · exact ⟨x.save, who, (findHart_openSave_other (Ne.symm first)).trans r.hart⟩

/-- A gang that leaves its place takes its harts along as they are. -/
theorem Runs.leaveIfSaved (r : Runs s h x) : Runs (leaveIfSaved s h.gang) h x := by
  unfold Machine.leaveIfSaved
  split
  · split
    · exact r.mapGang_harts (fun _ => rfl) fun _ => rfl
    · exact r
  · exact r

theorem leaveIfSaved_mem (s : State) (k : Nat) : (leaveIfSaved s k).mem = s.mem := by
  unfold leaveIfSaved
  split
  · split <;> rfl
  · rfl

/-- What is left of hart x once both its slices have executed `exit`; its gang's round may complete as it leaves, and the
gang's state may be saved in its place. -/
def Hart.left (x : Hart) (a : Option (Nat × Bool)) (v : Option Save) (c : VCtl) : Hart :=
  { x.visible.ended with grant := a, save := v, vc := c }

theorem exitBody_run (r : Runs s h x) (okA : Sendable x .as) (okC : Sendable x .cs) (idle : x.viq = []) :
    ∃ t a v c, exitBody h.gang s = .ok () t ∧ Runs t h (x.left a v c) ∧ t.mem = performed s.mem (x.abuf ++ x.cbuf) := by
  obtain ⟨s1, settles, r1, mem1⟩ := settleHart_run (f := fnExit) r okA okC idle
  obtain ⟨a, c, r2⟩ := (r1.mapHart Hart.ended).afterExit
  obtain ⟨v, r3⟩ := r2.openGangArea
  refine ⟨_, a, v, c, ?_, r3.leaveIfSaved, ?_⟩
  · unfold exitBody
    rw [M.bind_ok settles, M.bind_ok (modHart_run r1.who _), M.bind_ok (modGang_run (r1.mapHart _).who _)]
    rfl
  · rw [leaveIfSaved_mem, openGangArea_mem]
    exact mem1

theorem exec_exit_met (r : Runs s h x) (okA : Sendable x .as) (okC : Sendable x .cs) (idle : x.viq = [])
    (off : x.tr.ecause.getLsbD 11 = false) (there : (x.slice (other h.sl)).cond = .waiting (.rendezvous fnExit)) :
    ∃ t a v c, exec .exit s = .next t ∧ findHart t h.gang h.hid = some { (x.left a v c).pastBoth with waitCount := 0 } ∧
      t.mem = performed s.mem (x.abuf ++ x.cbuf) := by
  obtain ⟨s1, a, v, c, body, r1, mem1⟩ := exitBody_run r okA okC idle
  obtain ⟨t, run, hart, mem⟩ := rendezvous_completes r there body r1
  exact ⟨t, a, v, c, (exec_exit r off).trans run, hart, mem.trans mem1⟩

theorem stream_ended (x : Hart) (k : BitVec 5) : (x.ended.stream k).queue = [] ∧ (x.ended.stream k).adopted = none := by
  simp [Hart.stream, Hart.ended]

/-- Settles O14: what a slice meets decides the case; where both have met, the hart's stores are performed, and the body of each
instruction gives the rest. -/
theorem rendezvousResults : Obligations.RendezvousResults := by
  refine ⟨fun s h x r => ⟨fun p hp => ⟨fun alone => ?alone, fun g there ne => ?mismatch⟩, fun on => exec_exit_handler r on,
      fun off alone => (exec_exit r off).trans (rendezvous_alone r alone)⟩,
    fun s h x r okA okC i f mode hi there => ⟨fun queued => ?queued, fun idle noTable => ?met,
      fun k s0 s1 x1 b hm idle table settles loads r1 => ?table⟩, fun s h x r okA okC idle off there => ?exits⟩
  case alone =>
    obtain ⟨complete, run⟩ := exec_rendezvousRow hp s
    exact run.trans (rendezvous_alone r alone)
  case mismatch =>
    obtain ⟨complete, run⟩ := exec_rendezvousRow hp s
    exact run.trans (rendezvous_mismatch r there ne)
  case queued =>
    exact (exec_meeting hi s).trans (rendezvous_waits r there (M.bind_error (settleHart_queued r queued)))
  case met =>
    obtain ⟨t, run, hart, mem⟩ := exec_met r okA okC idle hi there noTable
    refine ⟨t, _, run, hart, ?_⟩
    cases mode with
    | none =>
      exact ⟨rfl, rfl, rfl, rfl, rfl, rfl, mem, rfl, rfl, rfl, rfl, rfl, rfl, rfl,
        fun _ => ⟨rfl, rfl, rfl, fun k => stream_dropWalks x.visible k⟩, nofun⟩
    | some k =>
      refine ⟨rfl, rfl, rfl, rfl, rfl, rfl, mem, rfl, rfl, rfl, rfl, rfl, rfl, rfl, nofun, fun j e => ?_⟩
      cases e
      exact ⟨rfl, rfl, rfl, rfl⟩
  case table =>
    subst hm
    obtain ⟨s2, settled, r0, -⟩ := settleHart_run (f := f) r okA okC idle
    obtain rfl : s0 = s2 := by
      rw [settles] at settled
      injection settled
    refine ⟨fun good => ?_, fun n bad => ?_⟩
    · have body : (do settleHart f; whenVisible (some k) : M Unit) s = _ :=
        (M.bind_ok settles).trans ((M.bind_ok (readTable_good r0 table loads good)).trans (modHart_run r1.who _))
      obtain ⟨t, run, hart, mem⟩ := rendezvous_completes r there body (r1.mapHart _)
      exact ⟨t, _, (exec_meeting hi s).trans run, hart, rfl, rfl, rfl, rfl, mem⟩
    · have body : (do settleHart f; whenVisible (some k) : M Unit) s = _ :=
        (M.bind_ok settles).trans (M.bind_error (readTable_offends r0 table loads bad))
      exact (exec_meeting hi s).trans (rendezvous_traps r there body)
  case exits =>
    obtain ⟨t, a, v, c, run, hart, mem⟩ := exec_exit_met r okA okC idle off there
    exact ⟨t, _, run, hart, rfl, rfl, rfl, rfl, fun k => stream_ended x.visible k, rfl, rfl, rfl, rfl, rfl, mem, rfl, rfl, rfl,
      rfl⟩

end Sys2Proof.Machine
end
